-- ==== Sys2Proof/Word.lean ====
section
/-! DEFINITION. The words of the NC-624 that the manual treats as bits. -/
namespace Sys2Proof

/-- One byte of a message frame, of the buffer or of the lens link. -/
abbrev Byte := BitVec 8

/-- A value of the 32-bit microsecond time base (R51); differences wrap modulo 2^32. -/
abbrev Time := BitVec 32

/-- One 14-bit sensor sample (R54, R107). -/
abbrev Sample := BitVec 14

/-- A 32-bit checksum (R49, R116). -/
abbrev Sum32 := BitVec 32

/-- Time `a` is reached at time `b` (R51): `b` is not before `a`, modulo 2^32. -/
def reached (a b : Time) : Bool := (b - a).toNat < 2 ^ 31

/-- The later of two times (R44, R51). -/
def laterOf (a b : Time) : Time := if reached a b then b else a

/-- Microseconds from `a` to `b`, modulo 2^32. -/
def elapsed (a b : Time) : Nat := (b - a).toNat

end Sys2Proof
end

