-- ==== Sys2Proof/Syntax.lean ====
section
/-! DEFINITION. The commands of the NC-624: one constructor of `Instr` for each row of
spec/opcode_table.json, with the operands its rule gives it. -/
namespace Sys2Proof

/-- A value given for a choice field: one of its choices, or none of them (answered BAD_FIELD). -/
inductive Choice (α : Type) where
  | is (a : α)
  | other
  deriving DecidableEq, Repr

/-- The three ports (R147). -/
inductive Port where
  | body | tether | relay
  deriving DecidableEq, Repr

/-- The two card slots (7.1). -/
inductive Slot where
  | a | b
  deriving DecidableEq, Repr

/-- The two parts of a shot. -/
inductive Part where
  | raw | proof
  deriving DecidableEq, Repr

/-- A colour triple of 8-bit components (R87). -/
structure Rgb where
  r : Byte
  g : Byte
  b : Byte
  deriving DecidableEq, Repr

/-- The kinds of a readout program entry (R27). -/
inductive EntryKind where
  | image | skip | pd | idle | stop
  deriving DecidableEq, Repr

/-- Sync modes (R45). -/
inductive SyncMode where
  | master | slave
  deriving DecidableEq, Repr

/-- Polarity of a trigger/sync edge (R45). -/
inductive Edge where
  | rising | falling
  deriving DecidableEq, Repr

/-- Focus modes (4.2). -/
inductive FocusMode where
  | single | continuous | manual
  deriving DecidableEq, Repr

/-- Correlator modes (R52). -/
inductive PhaseMode where
  | full | coarse | curve
  deriving DecidableEq, Repr

/-- Slot modes (R120). -/
inductive SlotMode where
  | mirror | split | overflow | singleA
  deriving DecidableEq, Repr

/-- Timeout ranges of a slot (R119). -/
inductive TimeoutRange where
  | short | long
  deriving DecidableEq, Repr

/-- Tether policies (R143). -/
inductive TetherPolicy where
  | hold | loose
  deriving DecidableEq, Repr

/-- Fields of BURST_START (R35): count, exposure in µs, interval in ms. -/
structure BurstFields where
  count : Nat
  exposure : Nat
  interval : Nat
  deriving DecidableEq, Repr

/-- Fields of PROGRAM_WRITE (R28). -/
structure ProgramFields where
  first : Nat
  entries : List (Choice EntryKind × Nat)
  stillStart : Option Nat
  viewStart : Option Nat
  deriving DecidableEq, Repr

/-- Fields of SYNC_MODE (R45). -/
structure SyncFields where
  mode : Option (Choice SyncMode)
  polarity : Option (Choice Edge)
  deriving DecidableEq, Repr

/-- Fields of CAPTURE_SET (R38), in the order of its table. -/
structure CaptureFields where
  view : Option (Choice Bool)
  rate : Option Nat
  viewExposure : Option Nat
  priority : Option (Choice Bool)
  trigger : Option (Choice Bool)
  triggerExposure : Option Nat
  deriving DecidableEq, Repr

/-- Fields of FOCUS_SETUP (R53). -/
structure SetupFields where
  n : Option Nat
  wd : Option Nat
  smax : Option Nat
  mode : Option (Choice PhaseMode)
  cmin : Option Nat
  deriving DecidableEq, Repr

/-- Fields of MARKER_WRITE (R87): the pattern as two planes of 32 words (row by row, column j in
bit j), the colours and the switch. -/
structure MarkerFields where
  pattern : Option (List (BitVec 32) × List (BitVec 32))
  fixed : Option Rgb
  focused : Option Rgb
  acquiring : Option Rgb
  failed : Option Rgb
  switch : Option (Choice Bool)
  deriving DecidableEq, Repr

/-- Fields of TAG beside the shot number (R156). PROTECT, SEND and SEND_PRIORITY are set or clear and
nothing else (DESIGN CHOICE, safe, log entry 43). -/
structure TagFields where
  protect : Option Bool
  rating : Option Nat
  send : Option Bool
  priority : Option Bool
  deriving DecidableEq, Repr

/-- Fields of RECIPE_WRITE beside the index (R91). -/
structure RecipeFields where
  blackR : Option Nat
  blackG1 : Option Nat
  blackG2 : Option Nat
  blackB : Option Nat
  gainR : Option Nat
  gainG : Option Nat
  gainB : Option Nat
  matrix : Option (List Int)
  tone : Option Nat
  scale : Option Nat
  deriving DecidableEq, Repr

/-- Fields of MEDIA_SET (R122), slot A before slot B (R151). -/
structure MediaFields where
  cardProof : Option (Choice Bool)
  aTimeout : Option (Choice TimeoutRange)
  aVerify : Option (Choice Bool)
  bTimeout : Option (Choice TimeoutRange)
  bVerify : Option (Choice Bool)
  deriving DecidableEq, Repr

/-- Fields of SEND_SET (R143). -/
structure SendSetFields where
  auto : Option (Choice Bool)
  policy : Option (Choice TetherPolicy)
  deriving DecidableEq, Repr

/-- Fields of WAKE_SET (R165). -/
structure WakeFields where
  half : Option (Choice Bool)
  trigger : Option (Choice Bool)
  request : Option (Choice Bool)
  attach : Option (Choice Bool)
  stabilise : Option Nat
  deriving DecidableEq, Repr

/-- The requests of the protocol by name (R152). The spec gives them no code numbers. -/
inductive RequestKind where
  | burstStart | burstStop | programWrite | programRead | seqHold | seqRun | syncMode
  | captureSet | watermark | focusStart | focusStop | focusArea | focusSetup | focusResult
  | markerWrite | status | listRecords | info | openPart | readPart | closeHandle | tag
  | delete | develop | devStatus | toneRead | toneWrite | recipeWrite | recipeRead | devSet
  | slotMode | mediaSet | cardSpace | cardSpaceClear | slotReset | slotDrop | slotFull
  | placement | mediaStatus | sendNext | sendDone | sendFail | transferNext | transferDone
  | transferFail | sendSet | tetherQueueClear | portSet | portReset | standby | resume | wakeSet
  deriving DecidableEq, Repr

/-- A request with its fields, as a frame's code and payload spell it (R148). -/
inductive Request where
  | burstStart (f : BurstFields)
  | burstStop
  | programWrite (f : ProgramFields)
  | programRead
  | seqHold
  | seqRun
  | syncMode (f : SyncFields)
  | captureSet (f : CaptureFields)
  | watermark (value : Nat)
  | focusStart (mode : Option (Choice FocusMode))
  | focusStop
  | focusArea (index : Nat)
  | focusSetup (f : SetupFields)
  | focusResult
  | markerWrite (f : MarkerFields)
  | status
  | listRecords (first : Option Nat)
  | info (shot : Nat)
  | openPart (shot : Nat) (part : Choice Part)
  | readPart (handle offset length : Nat)
  | closeHandle (handle : Nat)
  | tag (shot : Nat) (f : TagFields)
  | delete (shot : Nat)
  | develop (shot recipe : Nat)
  | devStatus (job : Option Nat)
  | toneRead (table : Nat)
  | toneWrite (table first : Nat) (values : List Nat)
  | recipeWrite (index : Nat) (f : RecipeFields)
  | recipeRead (index : Nat)
  | devSet (card relay : Option Nat)
  | slotMode (mode : Choice SlotMode)
  | mediaSet (f : MediaFields)
  | cardSpace (slot : Choice Slot) (first count : Nat)
  | cardSpaceClear (slot : Choice Slot)
  | slotReset (slot : Choice Slot)
  | slotDrop (slot : Choice Slot)
  | slotFull (slot : Choice Slot)
  | placement (shot : Nat)
  | mediaStatus
  | sendNext
  | sendDone (shot : Nat)
  | sendFail (shot : Nat)
  | transferNext
  | transferDone (shot : Nat)
  | transferFail (shot : Nat)
  | sendSet (f : SendSetFields)
  | tetherQueueClear
  | portSet (remoteDelete : Choice Bool)
  | portReset (port : Choice Port)
  | standby
  | resume
  | wakeSet (f : WakeFields)
  deriving DecidableEq, Repr

/-- The name of a request. -/
def Request.kind : Request → RequestKind
  | .burstStart _ => .burstStart
  | .burstStop => .burstStop
  | .programWrite _ => .programWrite
  | .programRead => .programRead
  | .seqHold => .seqHold
  | .seqRun => .seqRun
  | .syncMode _ => .syncMode
  | .captureSet _ => .captureSet
  | .watermark _ => .watermark
  | .focusStart _ => .focusStart
  | .focusStop => .focusStop
  | .focusArea _ => .focusArea
  | .focusSetup _ => .focusSetup
  | .focusResult => .focusResult
  | .markerWrite _ => .markerWrite
  | .status => .status
  | .listRecords _ => .listRecords
  | .info _ => .info
  | .openPart _ _ => .openPart
  | .readPart _ _ _ => .readPart
  | .closeHandle _ => .closeHandle
  | .tag _ _ => .tag
  | .delete _ => .delete
  | .develop _ _ => .develop
  | .devStatus _ => .devStatus
  | .toneRead _ => .toneRead
  | .toneWrite _ _ _ => .toneWrite
  | .recipeWrite _ _ => .recipeWrite
  | .recipeRead _ => .recipeRead
  | .devSet _ _ => .devSet
  | .slotMode _ => .slotMode
  | .mediaSet _ => .mediaSet
  | .cardSpace _ _ _ => .cardSpace
  | .cardSpaceClear _ => .cardSpaceClear
  | .slotReset _ => .slotReset
  | .slotDrop _ => .slotDrop
  | .slotFull _ => .slotFull
  | .placement _ => .placement
  | .mediaStatus => .mediaStatus
  | .sendNext => .sendNext
  | .sendDone _ => .sendDone
  | .sendFail _ => .sendFail
  | .transferNext => .transferNext
  | .transferDone _ => .transferDone
  | .transferFail _ => .transferFail
  | .sendSet _ => .sendSet
  | .tetherQueueClear => .tetherQueueClear
  | .portSet _ => .portSet
  | .portReset _ => .portReset
  | .standby => .standby
  | .resume => .resume
  | .wakeSet _ => .wakeSet

/-- Which frame left a port: the reply at the head of its list, or its oldest notice (R161). -/
inductive Sent where
  | reply | notice
  deriving DecidableEq, Repr

/-- How a re-initialisation of a card ended (R132). -/
inductive ResetOutcome where
  | answered | timedOut | removed
  deriving DecidableEq, Repr

/-- The three samples of the data wire near the middle of one bit (R69). -/
structure Triple where
  x : Bool
  y : Bool
  z : Bool
  deriving DecidableEq, Repr

/-- One byte of the lens link as sampled: start bit, data bits least significant first, parity
and stop bit (R69). -/
structure LinkChar where
  start : Triple
  data : List Triple
  parity : Triple
  stop : Triple
  deriving DecidableEq, Repr

/-- The three commands of the lens link (R72 to R75). -/
inductive LinkCommand where
  | ident | whereIs | move
  deriving DecidableEq, Repr

/-- One image row from the sensor: the samples of a still row, or a view row of 1512 columns
(R30, R50). -/
inductive SensorRow where
  | still (samples : List Sample)
  | view (pixels : List Rgb)
  deriving DecidableEq, Repr

/-- The commands: every row of spec/opcode_table.json. A request row carries the port it came on
and the tag of its frame; `asks` of FRAME_RECEIVED and `names` of LINK_REPLY say which request or
link command the frame's code spells, since the spec gives those codes no numbers
(DESIGN CHOICE, safe; log entries 2 and 10). -/
inductive Instr where
  | fullReset
  | frameReceived (p : Port) (bytes : List Byte) (asks : Option Request)
  | selectDeasserted (p : Port) (received : List Byte)
  | frameDelivered (p : Port) (what : Sent)
  | noticeAcknowledged
  | burstStart (p : Port) (tag : Byte) (f : BurstFields)
  | burstStop (p : Port) (tag : Byte)
  | programWrite (p : Port) (tag : Byte) (f : ProgramFields)
  | programRead (p : Port) (tag : Byte)
  | seqHold (p : Port) (tag : Byte)
  | seqRun (p : Port) (tag : Byte)
  | syncMode (p : Port) (tag : Byte) (f : SyncFields)
  | captureSet (p : Port) (tag : Byte) (f : CaptureFields)
  | watermark (p : Port) (tag : Byte) (value : Nat)
  | focusStart (p : Port) (tag : Byte) (mode : Option (Choice FocusMode))
  | focusStop (p : Port) (tag : Byte)
  | focusArea (p : Port) (tag : Byte) (index : Nat)
  | focusSetup (p : Port) (tag : Byte) (f : SetupFields)
  | focusResult (p : Port) (tag : Byte)
  | markerWrite (p : Port) (tag : Byte) (f : MarkerFields)
  | status (p : Port) (tag : Byte)
  | listRecords (p : Port) (tag : Byte) (first : Option Nat)
  | info (p : Port) (tag : Byte) (shot : Nat)
  | openPart (p : Port) (tag : Byte) (shot : Nat) (part : Choice Part)
  | readPart (p : Port) (tag : Byte) (handle offset length : Nat)
  | readGathered (p : Port)
  | closeHandle (p : Port) (tag : Byte) (handle : Nat)
  | tag (p : Port) (tag : Byte) (shot : Nat) (f : TagFields)
  | delete (p : Port) (tag : Byte) (shot : Nat)
  | develop (p : Port) (tag : Byte) (shot recipe : Nat)
  | devStatus (p : Port) (tag : Byte) (job : Option Nat)
  | toneRead (p : Port) (tag : Byte) (table : Nat)
  | toneWrite (p : Port) (tag : Byte) (table first : Nat) (values : List Nat)
  | recipeWrite (p : Port) (tag : Byte) (index : Nat) (f : RecipeFields)
  | recipeRead (p : Port) (tag : Byte) (index : Nat)
  | devSet (p : Port) (tag : Byte) (card relay : Option Nat)
  | slotMode (p : Port) (tag : Byte) (mode : Choice SlotMode)
  | mediaSet (p : Port) (tag : Byte) (f : MediaFields)
  | cardSpace (p : Port) (tag : Byte) (slot : Choice Slot) (first count : Nat)
  | cardSpaceClear (p : Port) (tag : Byte) (slot : Choice Slot)
  | slotReset (p : Port) (tag : Byte) (slot : Choice Slot)
  | slotResetDone (slot : Slot) (outcome : ResetOutcome)
  | slotDrop (p : Port) (tag : Byte) (slot : Choice Slot)
  | slotFull (p : Port) (tag : Byte) (slot : Choice Slot)
  | placement (p : Port) (tag : Byte) (shot : Nat)
  | mediaStatus (p : Port) (tag : Byte)
  | sendNext (p : Port) (tag : Byte)
  | sendDone (p : Port) (tag : Byte) (shot : Nat)
  | sendFail (p : Port) (tag : Byte) (shot : Nat)
  | transferNext (p : Port) (tag : Byte)
  | transferDone (p : Port) (tag : Byte) (shot : Nat)
  | transferFail (p : Port) (tag : Byte) (shot : Nat)
  | sendSet (p : Port) (tag : Byte) (f : SendSetFields)
  | tetherQueueClear (p : Port) (tag : Byte)
  | portSet (p : Port) (tag : Byte) (remoteDelete : Choice Bool)
  | portReset (p : Port) (tag : Byte) (port : Choice Port)
  | standby (p : Port) (tag : Byte)
  | resume (p : Port) (tag : Byte)
  | wakeSet (p : Port) (tag : Byte) (f : WakeFields)
  | tetherAttach
  | tetherDetach
  | halfPressAsserted
  | halfPressReleased
  | triggerEdge (edge : Edge)
  | powerLowAsserted
  | powerLowDeasserted
  | wakeWaitEnd
  | cardDetectAsserted (slot : Slot)
  | cardDetectDeasserted (slot : Slot)
  | lensDetectAsserted
  | lensDetectDeasserted
  | linkReply (chars : List LinkChar) (names : Option LinkCommand)
  | linkReplyLate
  | pollWhereDue
  | frameDue
  | focusWaitTimeout
  | exposureMidpoint
  | exposureEnd
  | viewFrameStart
  | entryEnd
  | pdPair (left right : List Sample)
  | imageRow (row : SensorRow)
  | dramTransferDone
  | readoutEnd
  | devRowDone
  | cardBusyEnd (slot : Slot)
  | cardTimeout (slot : Slot)
  | verifyBurstDone (slot : Slot) (data : List Byte)
  | oversizeHeaderReceived (p : Port) (header : List Byte)
  deriving DecidableEq, Repr

end Sys2Proof
end

