-- ==== Sys2Proof/Decode.lean ====
section
/-! DEFINITION. Commands spelled by the bits of spec/opcode_table.json: the table gives no row any
bits, so no word spells a command. -/
namespace Sys2Proof

/-- The command that the bits of a word spell: none, for every word (spec/opcode_table.json gives
every row an empty list of fields). -/
def decodeTableWord (_nbits _w : Nat) : Option Instr := none

end Sys2Proof
end

