-- ==== Sys2Proof/Config.lean ====
section
/-! DEFINITION. What the NC-624 fixes as constants, and the values its manual leaves open. -/
namespace Sys2Proof.Config

/-- Blocks of the Shot Buffer (R1). -/
def blockCount : Nat := 8192
/-- Bytes of one block (R1: 256 KiB). -/
def blockBytes : Nat := 262144
/-- Bytes of the whole buffer (R1: 2 GiB). -/
def bufferBytes : Nat := blockCount * blockBytes
/-- The longest DRAM transfer (R8: 4 KiB). -/
def maxTransfer : Nat := 4096
/-- Bytes of a packed image row (6.1). -/
def rowBytes : Nat := 10584
/-- Image rows of a still frame (2.1). -/
def imageRows : Nat := 4024
/-- Bytes of a raw (R3). -/
def rawBytes : Nat := 42590016
/-- Blocks a raw needs (R3). -/
def rawBlocks : Nat := 163
/-- Most records in the catalog (R9). -/
def catalogMax : Nat := 64
/-- Rows the line FIFO holds (R47). -/
def fifoMax : Nat := 64
/-- Bytes of a card sector. -/
def sectorBytes : Nat := 512
/-- Sectors of the longest card burst (R127, R128). -/
def burstSectors : Nat := 256
/-- Longest payload of a message frame (R148). -/
def maxPayload : Nat := 16400

/-- FREE VALUE (DESIGN CHOICE, log entry 9): which of several link errors seen in one reply is kept
as the last error kind; R70 does not say. -/
opaque linkErrorPick : Nat → Nat

/-- FREE VALUE (DESIGN CHOICE, log entry 15): which done state a copy of a DELETING shot takes when
it ends without being WRITTEN; R25 says only that it becomes done. -/
opaque discardedCopyPick : Nat → Nat

/-- FREE VALUE (DESIGN CHOICE, log entry 31): the code byte of each request; R148 gives no numbers. -/
opaque requestCode : RequestKind → Byte

/-- FREE VALUE (DESIGN CHOICE, log entry 31): the code byte of each kind of notice, the kinds numbered
in the order of R160; R148 gives no numbers. -/
opaque noticeCode : Nat → Byte

/-- FREE VALUE (DESIGN CHOICE, log entry 31): the command byte of each command of the lens link; R69
and R72 to R75 give no numbers. -/
opaque linkCode : LinkCommand → Byte

end Sys2Proof.Config
end

