-- ==== Sys2Proof/Machine/State.lean ====
section
/-! DEFINITION. The state of the NC-624 as plain data, block by block, and the state after full
reset. Each field's docstring names the rule of spec/ that gives it. -/
namespace Sys2Proof.Machine

/-! ### Runs, extents and card runs -/

/-- A run of consecutive blocks or sectors: first and count (1.1, R123). -/
structure Run where
  first : Nat
  count : Nat
  deriving DecidableEq, Repr

/-! ### The shot record (R9) -/

/-- Life states of a record (1.3). -/
inductive Life where
  | exposing | held | cardOnly | deleting
  deriving DecidableEq, Repr

/-- The source of the shutter request (R9). -/
inductive Origin where
  | body | tether | trigger
  deriving DecidableEq, Repr

/-- States of the raw part (R9). -/
inductive RawState where
  | filling | present | released
  deriving DecidableEq, Repr

/-- The raw part of a record (R9). -/
structure RawPart where
  state : RawState
  extents : List Run
  checksum : Option Sum32
  deriving DecidableEq, Repr

/-- States of a proof version (R18 to R21). -/
inductive VersionState where
  | building | current | draining
  deriving DecidableEq, Repr

/-- Conditions of a job and of the version it makes (R9, R95). -/
structure Conditions where
  mixed : Bool
  rawDamaged : Bool
  spaceWait : Bool
  deriving DecidableEq, Repr

/-- Development scales (R90). -/
inductive Scale where
  | s2 | s4 | s8
  deriving DecidableEq, Repr

/-- A proof version of a shot (R9, R18). -/
structure Version where
  number : Nat
  recipe : Nat
  scale : Scale
  size : Nat
  extents : List Run
  checksum : Option Sum32
  state : VersionState
  conditions : Conditions
  collector : Option Port
  deriving DecidableEq, Repr

/-- The purpose of a proof wanted (R98). -/
inductive Purpose where
  | card | relay
  deriving DecidableEq, Repr

/-- Proof wanted: the recipe and the purpose (R9, R98). -/
structure Wanted where
  recipe : Nat
  purpose : Purpose
  deriving DecidableEq, Repr

/-- Focus states (4.2). -/
inductive FocusState where
  | off | acquiring | locked | tracking | failed | lensLost | noLens
  deriving DecidableEq, Repr

/-- The focus record of a shot (R9, R85). -/
structure FocusRecord where
  position : Nat
  phase : Int
  confidence : Nat
  state : FocusState
  predicted : Bool
  clamped : Bool
  deriving DecidableEq, Repr

/-- States of a card copy (R9). -/
inductive CopyState where
  | notRequired | pending | writing | verifying | written | failed | abandoned
  deriving DecidableEq, Repr

/-- One of the four card copy entries (R9). -/
structure Copy where
  state : CopyState
  attempts : Nat
  placement : Option (List Run)
  unverified : Bool
  version : Option Nat
  deriving DecidableEq, Repr

/-- The four card copies: slot A raw, slot A proof, slot B raw, slot B proof (R9). -/
structure Copies where
  aRaw : Copy
  aProof : Copy
  bRaw : Copy
  bProof : Copy
  deriving DecidableEq, Repr

/-- Tags and rating (R9, R14). -/
structure Tags where
  protect : Bool
  send : Bool
  priority : Bool
  rating : Nat
  deriving DecidableEq, Repr

/-- Relay states of a record (R138). -/
inductive RelayState where
  | none | queued | inFlight | sent | sendFailed
  deriving DecidableEq, Repr

/-- Tether states of a record (R9, R143). -/
inductive TetherState where
  | none | queued | inFlight | transferred | missed
  deriving DecidableEq, Repr

/-- Capture flags and the lost-row count (R9). -/
structure CaptureFlags where
  damaged : Bool
  lostRows : Nat
  syncMissed : Bool
  waitExpired : Bool
  deriving DecidableEq, Repr

/-- A shot record (R9). Open handles are derived from the ports (R22). -/
structure Record where
  shot : Nat
  life : Life
  burst : Nat
  frame : Nat
  origin : Origin
  stamp : Option Time
  flags : CaptureFlags
  raw : RawPart
  versions : List Version
  lastVersion : Nat
  wanted : Option Wanted
  focus : Option FocusRecord
  copies : Copies
  tags : Tags
  relay : RelayState
  tether : TetherState
  deriving DecidableEq, Repr

/-! ### The DRAM arbiter (R8) -/

/-- Who asked for a transfer (R8). -/
inductive Requester where
  | rsq
  | med (slot : Slot)
  | prt (port : Port)
  | devRead
  | devWrite
  deriving DecidableEq, Repr

/-- A granted transfer: its requester, DRAM address, length, and whether its data still count
(a transfer whose purpose was dropped runs to its end and its data are discarded). -/
structure Transfer where
  requester : Requester
  addr : Nat
  length : Nat
  live : Bool
  deriving DecidableEq, Repr

/-- The arbiter: the transfer in progress and who was served last in classes 2 and 3 (R8). -/
structure Arbiter where
  current : Option Transfer
  lastSlot : Slot
  lastPort : Port
  deriving DecidableEq, Repr

/-! ### Readout Sequencer -/

/-- A readout program entry (R27). -/
structure Entry where
  kind : EntryKind
  count : Nat
  deriving DecidableEq, Repr

/-- Why a still frame could not obtain its record and raw (R5, R11, R41). -/
inductive StallReason where
  | catalog | space | fragmented
  deriving DecidableEq, Repr

/-- The eight sequencer states (2.2). -/
inductive SeqState where
  | hold | idle | view
  | stalled (reason : StallReason)
  | focusWait | expose | readout | off
  deriving DecidableEq, Repr

/-- Why a burst ended (R39). -/
inductive BurstEndReason where
  | count | stop | hold | save
  deriving DecidableEq, Repr

/-- The burst record (R34). -/
structure Burst where
  active : Bool
  id : Nat
  origin : Origin
  count : Nat
  exposure : Nat
  interval : Nat
  started : Nat
  completed : Nat
  stopMark : Bool
  due : Time
  missed : Bool
  deriving DecidableEq, Repr

/-- Capture settings (R38). -/
structure CaptureSettings where
  view : Bool
  rate : Nat
  viewExposure : Nat
  priority : Bool
  trigger : Bool
  triggerExposure : Nat
  deriving DecidableEq, Repr

/-- Still or view frame. -/
inductive FrameKind where
  | still | view
  deriving DecidableEq, Repr

/-- Where a frame's program stands (R30): not begun (still exposing), running an entry (its
index, the rows or pairs it has had, when it began), or at END. -/
inductive ProgramAt where
  | exposing
  | running (index lines : Nat) (since : Time)
  | ended
  deriving DecidableEq, Repr

/-- The frame in progress (R30, R40 to R44, R50). `shot` is the EXPOSING record of a still frame;
`rate` is the view rate the frame started with. -/
structure Frame where
  kind : FrameKind
  shot : Nat
  start : Time
  waitStart : Time
  exposureStart : Time
  exposure : Nat
  midpoint : Time
  rate : Nat
  program : ProgramAt
  rowPtr : Nat
  imageRows : Nat
  deriving DecidableEq, Repr

/-- A row in the line FIFO (R47). -/
structure FifoRow where
  row : Nat
  samples : List Sample
  deriving DecidableEq, Repr

/-- The viewfinder output: frame syncs given, rows put out in the frame, the last row (R50, R88). -/
structure ViewOut where
  syncs : Nat
  rows : Nat
  last : List Rgb
  deriving DecidableEq, Repr

/-- The Readout Sequencer. -/
structure Rsq where
  program : List Entry
  stillStart : Nat
  viewStart : Nat
  state : SeqState
  fromHold : Bool
  burst : Burst
  nextBurst : Nat
  settings : CaptureSettings
  syncMode : SyncMode
  polarity : Edge
  latch : Bool
  watermark : Nat
  frame : Option Frame
  lastView : Option Time
  fifo : List FifoRow
  owed : List Nat
  rowsWritten : Nat
  rowBytes : Nat
  shadowEven : List Sample
  shadowOdd : List Sample
  rawSum : Sum32
  timeBase : Time
  viewOut : ViewOut
  deriving DecidableEq, Repr

/-! ### Phase Correlator -/

/-- The correlator setup (R52). -/
structure Setup where
  n : Nat
  wd : Nat
  smax : Nat
  mode : PhaseMode
  cmin : Nat
  deriving DecidableEq, Repr

/-- The snapshot of a PD entry (R57). -/
structure PdSnapshot where
  setup : Setup
  area : Nat
  spanStart : Nat
  deriving DecidableEq, Repr

/-- Outcomes of a measurement (R64, R65). -/
inductive PhaseOutcome where
  | valid | low | short
  deriving DecidableEq, Repr

/-- What the curve gives a measurement (R66); absent for PD_SHORT. -/
structure CurveResult where
  evaluated : Nat
  best : List (Int × Nat)
  mean : Nat
  shift : Int
  offset : Option Int
  phase : Int
  confidence : Nat
  deriving DecidableEq, Repr

/-- The fields of the measurement record beside its number (R66). -/
structure Measurement where
  time : Time
  kind : FrameKind
  shot : Option Nat
  area : Nat
  setup : Setup
  spanStart : Nat
  pairs : Nat
  outcome : PhaseOutcome
  edge : Bool
  result : Option CurveResult
  deriving DecidableEq, Repr

/-- The Phase Correlator (R52, R57, R59, R66), with the sensor's pair pointer: the number of the pair
that a PD entry reads next (R30, R55). -/
structure Phc where
  setup : Setup
  snapshot : Option PdSnapshot
  pairPtr : Nat
  store : List (List Nat × List Nat)
  pairs : Nat
  number : Nat
  record : Option Measurement
  curve : List Nat
  deriving DecidableEq, Repr

/-! ### Focus Drive and Lens Link -/

/-- A target in force: its step, whether a VALID measurement set it in SINGLE mode or CONTINUOUS
mode, whether it came from two or more history entries, whether it was clamped (R78, R79, R82). -/
structure Target where
  step : Nat
  predicted : Bool
  clamped : Bool
  deriving DecidableEq, Repr

/-- The aim record of a frame (R78). -/
structure Aim where
  hasTarget : Bool
  predicted : Bool
  clamped : Bool
  deriving DecidableEq, Repr

/-- Phases of the SINGLE-mode scan (R80). -/
inductive ScanPhase where
  | none | up | down
  deriving DecidableEq, Repr

/-- Marker settings (R87). -/
structure Marker where
  planeLow : List (BitVec 32)
  planeHigh : List (BitVec 32)
  fixed : Rgb
  focused : Rgb
  acquiring : Rgb
  failed : Rgb
  on : Bool
  deriving DecidableEq, Repr

/-- The snapshot a view frame's marker is drawn from (R87). -/
structure MarkerShot where
  marker : Marker
  area : Nat
  state : FocusState
  deriving DecidableEq, Repr

/-- The Focus Drive (R76 to R87). -/
structure Fdr where
  mode : FocusMode
  state : FocusState
  target : Option Target
  history : List (Time × Int)
  lowCount : Nat
  scan : ScanPhase
  scanStart : Nat
  aim : Option Aim
  nextMid : Time
  frameMid : Time
  frameTag : Nat
  exposurePos : Option Nat
  area : Nat
  marker : Marker
  markerShot : MarkerShot
  deriving DecidableEq, Repr

/-- Link states (R71). -/
inductive LinkState where
  | absent | identifying | ready | lost
  deriving DecidableEq, Repr

/-- Why the link became LOST (R71). -/
inductive LostReason where
  | link | descriptor
  deriving DecidableEq, Repr

/-- Kinds of link error (R70). -/
inductive LinkError where
  | parity | framing | check | late
  deriving DecidableEq, Repr

/-- A MOVE: target and speed class (R75). -/
structure Move where
  target : Nat
  cls : Nat
  deriving DecidableEq, Repr

/-- A transaction on the link (R72, R73). An exposure WHERE names the frame that made it pending;
a MOVE carries whether a failure sends it again. -/
inductive Transaction where
  | identPage0
  | identPage1
  | identWhere
  | exposureWhere (frame : Nat)
  | move (m : Move) (retry : Bool)
  | pollWhere
  deriving DecidableEq, Repr

/-- The page-0 data of IDENT (R72). -/
structure Page0 where
  pmin : Nat
  pmax : Nat
  k : Int
  tolerance : Nat
  classes : Nat
  deriving DecidableEq, Repr

/-- The lens descriptor (R72). -/
structure Descriptor where
  page0 : Page0
  t1 : Nat
  t2 : Nat
  t3 : Nat
  vlim : Nat
  deriving DecidableEq, Repr

/-- The Lens Link (R70 to R75). -/
structure Lnk where
  state : LinkState
  lostReason : Option LostReason
  errors : Nat
  lastError : Option LinkError
  running : Option Transaction
  pendWhere : Option Nat
  pendMove : Option Move
  pendPoll : Bool
  page0 : Option Page0
  descriptor : Option Descriptor
  position : Option Nat
  movingFlag : Bool
  moving : Bool
  latched : Option Nat
  timers : List Time
  lastSent : Option Nat
  deriving DecidableEq, Repr

/-! ### Development Engine -/

/-- A recipe (R90). -/
structure Recipe where
  blackR : Nat
  blackG1 : Nat
  blackG2 : Nat
  blackB : Nat
  gainR : Nat
  gainG : Nat
  gainB : Nat
  matrix : List Int
  tone : Nat
  scale : Scale
  deriving DecidableEq, Repr

/-- How a job was first admitted (R95). -/
inductive JobOrigin where
  | body | tether | auto
  deriving DecidableEq, Repr

/-- States of a job (R95). -/
inductive JobState where
  | queued | running
  deriving DecidableEq, Repr

/-- A development job (R95). The rows done are absent until it is RUNNING. -/
structure Job where
  number : Nat
  shot : Nat
  recipe : Nat
  origin : JobOrigin
  asking : List Port
  cardMark : Bool
  relayMark : Bool
  state : JobState
  snapshot : Option Recipe
  version : Nat
  rowsDone : Option Nat
  conditions : Conditions
  saturation : Nat
  deriving DecidableEq, Repr

/-- Why a job was aborted (R105). -/
inductive AbortCause where
  | delete | save
  deriving DecidableEq, Repr

/-- What a completed job made (R104). -/
structure Made where
  version : Nat
  size : Nat
  checksum : Sum32
  deriving DecidableEq, Repr

/-- A job result (R104): COMPLETED when `made` is present, ABORTED with its cause otherwise. -/
structure JobResult where
  number : Nat
  shot : Nat
  recipe : Nat
  made : Option Made
  saturation : Nat
  conditions : Conditions
  aborted : Option AbortCause
  deriving DecidableEq, Repr

/-- Engine states (R101). -/
inductive EngineState where
  | idle | running | paused
  deriving DecidableEq, Repr

/-- The output row in hand (R93, R101): tone content it began with, raw bytes read so far, its
bytes and saturations once computed, bytes written so far, and the proof's running checksum. -/
structure RowWork where
  tone : List Nat
  read : Nat
  bytes : List Byte
  saturation : Nat
  written : Nat
  checksum : Sum32
  deriving DecidableEq, Repr

/-- The Development Engine (R90 to R104). `attemptDue` is the model's own mark of an event of R99
inside the change in progress (log entry 6). -/
structure Dev where
  recipes : List Recipe
  tones : List (List Nat)
  cardRecipe : Nat
  relayRecipe : Nat
  queue : List Job
  nextJob : Nat
  log : List JobResult
  engine : EngineState
  row : RowWork
  attemptDue : Bool
  deriving DecidableEq, Repr

/-! ### Media Controller -/

/-- Slot states (7.1). -/
inductive SlotState where
  | absent | ready | busy | starved | full | fault
  deriving DecidableEq, Repr

/-- Why a CARD_FAULT was sent (R135). -/
inductive FaultReason where
  | verify | timeout
  deriving DecidableEq, Repr

/-- A CARD_FAULT entry (R135). -/
structure FaultEntry where
  shot : Nat
  part : Part
  reason : FaultReason
  runs : List Run
  attempts : Nat
  failed : Bool
  deriving DecidableEq, Repr

/-- Where a copy in flight stands: filling a burst from the buffer, waiting for the card to end
its busy period, or reading back (R127, R128). -/
inductive FlightPhase where
  | filling
  | cardBusy (since : Time)
  | verifying (since : Time)
  deriving DecidableEq, Repr

/-- The read-back sum: the sum so far and the bits of a raw sample not yet complete (R128). -/
structure CheckSum where
  sum : Sum32
  bits : Nat
  nbits : Nat
  deriving DecidableEq, Repr

/-- The copy in flight on a slot (R119, R126). -/
structure Flight where
  shot : Nat
  part : Part
  version : Option Nat
  planned : List Run
  timeout : TimeoutRange
  verify : Bool
  phase : FlightPhase
  sectorsDone : Nat
  burst : List Byte
  check : CheckSum
  deriving DecidableEq, Repr

/-- A re-initialisation in progress (R132): when it began, its time limit, and whether the body
port's request still waits for it. -/
structure Reinit where
  since : Time
  range : TimeoutRange
  asked : Bool
  deriving DecidableEq, Repr

/-- One card slot (R119). -/
structure SlotSt where
  state : SlotState
  space : List Run
  faults : List FaultEntry
  timeout : TimeoutRange
  verify : Bool
  flight : Option Flight
  reinit : Option Reinit
  deriving DecidableEq, Repr

/-- The Media Controller (R119). -/
structure Med where
  a : SlotSt
  b : SlotSt
  mode : SlotMode
  cardProof : Bool
  deriving DecidableEq, Repr

/-! ### Send Queues -/

/-- Classes of a relay entry (R138). -/
inductive SendClass where
  | priority | normal
  deriving DecidableEq, Repr

/-- States of a relay entry (R138). -/
inductive RelayEntryState where
  | waiting | ready | inFlight
  deriving DecidableEq, Repr

/-- A relay queue entry (R138). -/
structure RelayEntry where
  shot : Nat
  cls : SendClass
  state : RelayEntryState
  failures : Nat
  version : Option Nat
  deriving DecidableEq, Repr

/-- A tether queue entry (R143). -/
structure TetherEntry where
  shot : Nat
  inFlight : Bool
  failures : Nat
  deriving DecidableEq, Repr

/-- The Send Queues (R138, R143). -/
structure Snq where
  relay : List RelayEntry
  tether : List TetherEntry
  auto : Bool
  policy : TetherPolicy
  deriving DecidableEq, Repr

/-! ### Power states -/

/-- Power states (R163). -/
inductive Power where
  | active | standby | waking | saving
  deriving DecidableEq, Repr

/-- What woke the part (R165, R169). -/
inductive WakeSource where
  | halfPress | trigger | request | tetherAttach | resume
  deriving DecidableEq, Repr

/-! ### Notices and replies -/

/-- The notices with their contents (R160). -/
inductive Notice where
  | shotCaptured (shot burst frame : Nat)
  | burstEnd (burst : Nat) (reason : BurstEndReason) (completed : Nat)
  | focusState (state : FocusState) (mode : FocusMode)
  | shotDeleted (shot : Nat)
  | shotRetired (shot : Nat)
  | proofReady (result : JobResult)
  | cardWritten (slot : Slot) (shot : Nat) (part : Part) (version : Option Nat)
      (placement : List Run) (unverified : Bool)
  | cardFault (slot : Slot) (entry : FaultEntry)
  | cardDiscard (slot : Slot) (shot : Nat) (part : Part) (placement : List Run)
  | stall (burst : Nat) (reason : StallReason)
  | saveDone (pendingA pendingB : Nat)
  | sendReady (shot : Nat) (failed : Bool)
  | transferReady (shot : Nat)
  | transferMissed (shot : Nat)
  | wakeDone (source : WakeSource)
  deriving DecidableEq, Repr

/-- Status codes (R151). -/
inductive Status where
  | ok | busy | denied | gone | protectSet | full | badField | state | saving | frameBad | unknown
  deriving DecidableEq, Repr

/-- The lens part of STATUS, with the descriptor while the link is READY (R153). -/
structure LensReport where
  state : LinkState
  lostReason : Option LostReason
  errors : Nat
  lastError : Option LinkError
  descriptor : Option Descriptor
  deriving DecidableEq, Repr

/-- The STATUS summary (R153). -/
structure StatusReport where
  power : Power
  resync : Bool
  attached : Bool
  freeBlocks : Nat
  largestRun : Nat
  records : Nat
  nextShot : Nat
  seq : SeqState
  burstActive : Bool
  burstId : Nat
  fifo : Nat
  watermark : Nat
  timeBase : Time
  lens : LensReport
  focusMode : FocusMode
  focusState : FocusState
  inPosition : Bool
  lowCount : Nat
  slotA : SlotState
  slotB : SlotState
  engine : EngineState
  jobs : Nat
  relayEntries : Nat
  tetherEntries : Nat
  deriving DecidableEq, Repr

/-- One entry of a LIST reply (R153). -/
structure ListEntry where
  shot : Nat
  life : Life
  raw : RawState
  current : Option Nat
  tags : Tags
  relay : RelayState
  tether : TetherState
  aRaw : CopyState
  aProof : CopyState
  bRaw : CopyState
  bProof : CopyState
  deriving DecidableEq, Repr

/-- The reply to OPEN (R157). -/
structure OpenReport where
  handle : Nat
  shot : Nat
  part : Part
  version : Option Nat
  size : Nat
  checksum : Option Sum32
  deriving DecidableEq, Repr

/-- The shot given by SEND_NEXT (R141). -/
structure SendOffer where
  shot : Nat
  cls : SendClass
  failures : Nat
  version : Nat
  scale : Scale
  size : Nat
  checksum : Option Sum32
  deriving DecidableEq, Repr

/-- The shot given by TRANSFER_NEXT (R144). -/
structure TransferOffer where
  shot : Nat
  failures : Nat
  size : Nat
  checksum : Option Sum32
  deriving DecidableEq, Repr

/-- One slot in MEDIA_STATUS (R135). -/
structure SlotReport where
  state : SlotState
  timeout : TimeoutRange
  verify : Bool
  space : List Run
  workCount : Nat
  head : Option (Nat × Part)
  flight : Option (Nat × Part × List Run)
  faults : List FaultEntry
  deriving DecidableEq, Repr

/-- The settings of WAKE_SET (R165). -/
structure WakeSettings where
  half : Bool
  trigger : Bool
  request : Bool
  attach : Bool
  stabilise : Nat
  deriving DecidableEq, Repr

/-- The settings of MEDIA_SET (R122). -/
structure MediaSettings where
  cardProof : Bool
  aTimeout : TimeoutRange
  aVerify : Bool
  bTimeout : TimeoutRange
  bVerify : Bool
  deriving DecidableEq, Repr

/-- Payloads of replies: the contents that each request's rule gives. INFO and READ replies are
bytes, since R155 and R158 give their layouts. -/
inductive Payload where
  | empty
  | field (n : Nat)
  | bytes (b : List Byte)
  | burst (id exposure interval : Nat)
  | program (entries : List Entry) (stillStart viewStart : Nat)
  | sync (mode : SyncMode) (polarity : Edge)
  | capture (c : CaptureSettings)
  | watermark (value : Nat)
  | focus (mode : FocusMode) (state : FocusState)
  | area (index : Nat)
  | setup (u : Setup)
  | focusResult (u : Setup) (number : Nat) (m : Option Measurement) (curve : Option (List Nat))
  | status (r : StatusReport)
  | list (count next : Nat) (entries : List ListEntry)
  | opened (r : OpenReport)
  | tags (t : Tags)
  | deleted (shot : Nat) (deleting : Bool)
  | job (number : Nat)
  | devStatus (engine : EngineState) (jobs : List Job) (log : List JobResult)
  | oneJob (j : Job)
  | oneResult (r : JobResult)
  | tone (values : List Nat)
  | recipe (r : Recipe)
  | devSet (card relay : Nat)
  | slotMode (m : SlotMode)
  | media (m : MediaSettings)
  | space (runs sectors : Nat)
  | dropped (copies : Nat)
  | placement (c : Copies)
  | mediaStatus (a b : SlotReport) (mode : SlotMode) (cardProof : Bool)
  | sendNext (offer : Option SendOffer)
  | transferNext (offer : Option TransferOffer)
  | sendSet (auto : Bool) (policy : TetherPolicy)
  | cleared (entries : Nat)
  | portSet (remoteDelete : Bool)
  | wakeSet (w : WakeSettings)
  deriving DecidableEq, Repr

/-- The code of a reply: a request's, or a byte as it was received (R149, R150). -/
inductive ReplyCode where
  | request (k : RequestKind)
  | received (b : Byte)
  deriving DecidableEq, Repr

/-- A formed reply (R148, R151). -/
structure Reply where
  code : ReplyCode
  tag : Byte
  status : Status
  payload : Payload
  deriving DecidableEq, Repr

/-- An entry of a reply list (R150): the place of the outstanding request's reply, or a formed
reply; `own` marks the outstanding request's. -/
inductive ReplyEntry where
  | place
  | formed (r : Reply) (own : Bool)
  deriving DecidableEq, Repr

/-- A READ being gathered (R158). -/
structure Gather where
  handle : Nat
  shot : Nat
  part : Part
  version : Option Nat
  offset : Nat
  length : Nat
  got : List Byte
  deriving DecidableEq, Repr

/-- What an outstanding request is waiting for (R150). -/
inductive Stage where
  | answered
  | gathering (g : Gather)
  | resetting (slot : Slot)
  | wakeHeld
  deriving DecidableEq, Repr

/-- The outstanding request of a port (R150). -/
structure Outstanding where
  kind : RequestKind
  tag : Byte
  stage : Stage
  deriving DecidableEq, Repr

/-- An open handle (R157). -/
structure Handle where
  shot : Nat
  part : Part
  version : Option Nat
  size : Nat
  deriving DecidableEq, Repr

/-- One port (R150, R157, R160). `deaf`: data-in is ignored until select is deasserted (R149). -/
structure PortSt where
  request : Option Outstanding
  replies : List ReplyEntry
  handles : List (Option Handle)
  notices : List Notice
  resync : Bool
  deaf : Bool
  deriving DecidableEq, Repr

/-- The Port Controller (R147, R152). -/
structure Prt where
  body : PortSt
  tether : PortSt
  relay : PortSt
  attached : Bool
  remoteDelete : Bool
  deriving DecidableEq, Repr

/-! ### Power Control -/

/-- A held item (R165, R166): a request of a port, or a trigger edge. -/
inductive Held where
  | burst (p : Port) (f : BurstFields)
  | focus (p : Port) (mode : Option (Choice FocusMode))
  | edge
  deriving DecidableEq, Repr

/-- The wake in progress (R166). `wait` is the stabilisation time it began with, in ms. -/
structure Wake where
  source : WakeSource
  start : Time
  wait : Nat
  deriving DecidableEq, Repr

/-- Power Control (R163). -/
structure Pwc where
  power : Power
  settings : WakeSettings
  wake : Option Wake
  held : List Held
  done : Bool
  savedFrom : Power
  deriving DecidableEq, Repr

/-- Levels of the input lines the part reads as levels (00_scope.md, pins). -/
structure Pins where
  powerLow : Bool
  cardA : Bool
  cardB : Bool
  lens : Bool
  halfPress : Bool
  deriving DecidableEq, Repr

/-! ### The whole state -/

/-- The state of the NC-624. -/
structure State where
  /-- The shot records, in ascending shot number (R9). -/
  catalog : List Record
  /-- The next shot number (R9); 0 once the numbers are exhausted (log entry 8). -/
  nextShot : Nat
  /-- The free-run list (R2). -/
  freeRuns : List Run
  /-- The bytes of the Shot Buffer that differ from 0, by address (R1; log entry 4). -/
  dram : List Host.Cell
  /-- The DRAM arbiter (R8). -/
  arb : Arbiter
  /-- The Readout Sequencer (chapter 2). -/
  rsq : Rsq
  /-- The Phase Correlator (chapter 3). -/
  phc : Phc
  /-- The Focus Drive (chapter 4). -/
  fdr : Fdr
  /-- The Lens Link (chapter 4). -/
  lnk : Lnk
  /-- The Development Engine (chapter 5). -/
  dev : Dev
  /-- The Media Controller (chapter 7). -/
  med : Med
  /-- The Send Queues (chapter 8). -/
  snq : Snq
  /-- The Port Controller (chapter 9). -/
  prt : Prt
  /-- Power Control (chapter 10). -/
  pwc : Pwc
  /-- The input lines. -/
  pins : Pins
  /-- The counter the free values of Config are applied to (log entry 9). -/
  freeCount : Nat
  /-- The commands waiting, first in, first out (log entry 1). -/
  pending : List Instr
  deriving DecidableEq, Repr

/-- Why the machine can stop. -/
inductive Fault where
  /-- Raised by DRAM_TRANSFER_DONE: a transfer reaches past the 2 GiB of the Shot Buffer, where R1
  says there is no block. Safe: no run from reset allocates such a block (R1). -/
  | noSuchAddress (addr : Nat)
  deriving DecidableEq, Repr

/-- Why a command can have no meaning. -/
inductive Refusal where
  /-- The command is not modelled yet. Safe. No arm of exec raises it. -/
  | notModelled (mnemonic : String)
  deriving DecidableEq, Repr

/-! ### Full reset -/

/-- RSQ after full reset (R27, R34, R38, R45, R47, R51; fields without a stated value: DESIGN
CHOICE, unsafe, log entry 13). -/
def Rsq.reset : Rsq :=
  { program := List.replicate 32 ⟨.stop, 0⟩, stillStart := 0, viewStart := 0, state := .hold,
    fromHold := false,
    burst := { active := false, id := 0, origin := .body, count := 0, exposure := 0, interval := 0,
               started := 0, completed := 0, stopMark := false, due := 0, missed := false },
    nextBurst := 1,
    settings := { view := false, rate := 30, viewExposure := 8000, priority := false,
                  trigger := false, triggerExposure := 2000 },
    syncMode := .master, polarity := .rising, latch := false, watermark := 32, frame := none,
    lastView := none, fifo := [], owed := [], rowsWritten := 0, rowBytes := 0, shadowEven := [],
    shadowOdd := [], rawSum := 0, timeBase := 0, viewOut := ⟨0, 0, []⟩ }

/-- PHC after full reset (R52, R66, R68; the pair pointer without a stated value: DESIGN CHOICE,
unsafe, log entry 13). -/
def Phc.reset : Phc :=
  { setup := ⟨2, 128, 16, .full, 4096⟩, snapshot := none, pairPtr := 0, store := [], pairs := 0,
    number := 0, record := none, curve := [] }

/-- The marker settings after full reset (R87). -/
def Marker.reset : Marker :=
  { planeLow := List.replicate 32 0, planeHigh := List.replicate 32 0, fixed := ⟨255, 255, 255⟩,
    focused := ⟨0, 255, 0⟩, acquiring := ⟨255, 255, 255⟩, failed := ⟨255, 0, 0⟩, on := false }

/-- FDR after full reset (R76, R86, R87; log entry 13). -/
def Fdr.reset : Fdr :=
  { mode := .single, state := .off, target := none, history := [], lowCount := 0, scan := .none,
    scanStart := 0, aim := none, nextMid := 0, frameMid := 0, frameTag := 0, exposurePos := none,
    area := 67, marker := Marker.reset, markerShot := ⟨Marker.reset, 67, .off⟩ }

/-- LNK after full reset (R70, R71). -/
def Lnk.reset : Lnk :=
  { state := .absent, lostReason := none, errors := 0, lastError := none, running := none,
    pendWhere := none, pendMove := none, pendPoll := false, page0 := none, descriptor := none,
    position := none, movingFlag := false, moving := false, latched := none, timers := [],
    lastSent := none }

/-- A recipe after full reset (R90). -/
def Recipe.reset : Recipe :=
  { blackR := 0, blackG1 := 0, blackG2 := 0, blackB := 0, gainR := 1024, gainG := 1024,
    gainB := 1024, matrix := [1024, 0, 0, 0, 1024, 0, 0, 0, 1024], tone := 0, scale := .s4 }

/-- A tone table after full reset: the smaller of 4i and 255 (R92). -/
def toneReset : List Nat := (List.range 65).map fun i => min (4 * i) 255

/-- No row in hand. -/
def RowWork.none : RowWork :=
  { tone := [], read := 0, bytes := [], saturation := 0, written := 0, checksum := 0 }

/-- DEV after full reset (R90, R92, R94, R95, R104). -/
def Dev.reset : Dev :=
  { recipes := List.replicate 4 Recipe.reset, tones := List.replicate 4 toneReset, cardRecipe := 0,
    relayRecipe := 1, queue := [], nextJob := 1, log := [], engine := .idle, row := RowWork.none,
    attemptDue := false }

/-- A slot after full reset, before its card-detect line is looked at (R119). -/
def SlotSt.reset : SlotSt :=
  { state := .absent, space := [], faults := [], timeout := .short, verify := true,
    flight := none, reinit := none }

/-- MED after full reset (R119). -/
def Med.reset : Med :=
  { a := SlotSt.reset, b := SlotSt.reset, mode := .mirror, cardProof := true }

/-- SNQ after full reset (R138, R143). -/
def Snq.reset : Snq := { relay := [], tether := [], auto := false, policy := .hold }

/-- A port after full reset or a port reset (R150, R157, R160, R162). -/
def PortSt.reset : PortSt :=
  { request := none, replies := [], handles := [none, none, none, none], notices := [],
    resync := false, deaf := false }

/-- PRT after full reset (R150, R152); the tether detached (DEDUCED, unsafe, log entry 14). -/
def Prt.reset : Prt :=
  { body := PortSt.reset, tether := PortSt.reset, relay := PortSt.reset, attached := false,
    remoteDelete := false }

/-- PWC after full reset (R163, R165). -/
def Pwc.reset : Pwc :=
  { power := .active, settings := ⟨true, false, true, true, 30⟩, wake := none, held := [],
    done := false, savedFrom := .active }

/-- Every line deasserted (DESIGN CHOICE, unsafe, log entry 14). -/
def Pins.reset : Pins :=
  { powerLow := false, cardA := false, cardB := false, lens := false, halfPress := false }

/-- The machine right after full reset with every line deasserted. The DRAM is idle: a transfer in
progress does not outlast full reset (DESIGN CHOICE, safe, log entry 53). -/
def State.reset : State :=
  { catalog := [], nextShot := 1, freeRuns := [⟨0, 8192⟩], dram := [],
    arb := ⟨none, .b, .relay⟩, rsq := Rsq.reset, phc := Phc.reset, fdr := Fdr.reset,
    lnk := Lnk.reset, dev := Dev.reset, med := Med.reset, snq := Snq.reset, prt := Prt.reset,
    pwc := Pwc.reset, pins := Pins.reset, freeCount := 0, pending := [] }

end Sys2Proof.Machine
end

