-- ==== Sys2Proof/Machine/Memory.lean ====
section
/-! DEFINITION. The bytes of the Shot Buffer as a sorted list of cells, and where a part's bytes
lie in its extents. An unlisted byte reads 0 (DESIGN CHOICE, unsafe, log entry 4). -/
namespace Sys2Proof.Machine

/-- The DRAM contents: cells in rising address order, none equal to what an unlisted byte reads. -/
abbrev Memory := List Host.Cell

/-- What a byte that nothing has written reads as (log entry 4). -/
def Memory.unlisted : Byte := 0

/-- Read one byte. -/
def Memory.read (m : Memory) (a : Nat) : Byte :=
  match m with
  | [] => Memory.unlisted
  | (b, w) :: rest => if a = b then w else if a < b then Memory.unlisted else Memory.read rest a

/-- Write one byte, keeping the canonical form. -/
def Memory.write (m : Memory) (a : Nat) (v : Byte) : Memory :=
  match m with
  | [] => if v = Memory.unlisted then [] else [(a, v)]
  | (b, w) :: rest =>
    if a = b then (if v = Memory.unlisted then rest else (a, v) :: rest)
    else if a < b then (if v = Memory.unlisted then (b, w) :: rest else (a, v) :: (b, w) :: rest)
    else (b, w) :: Memory.write rest a v

/-- Write consecutive bytes from an address upward. -/
def Memory.writeBytes (m : Memory) (a : Nat) (bs : List Byte) : Memory :=
  match bs with
  | [] => m
  | b :: rest => Memory.writeBytes (Memory.write m a b) (a + 1) rest

/-- Read consecutive bytes from an address upward. -/
def Memory.readBytes (m : Memory) (a n : Nat) : List Byte :=
  (List.range n).map fun i => Memory.read m (a + i)

/-- The canonical form: addresses strictly rising from above `low`, no byte equal to the unlisted
one. -/
def Memory.wfFrom (low : Nat) (m : Memory) : Bool :=
  match m with
  | [] => true
  | (a, v) :: rest => decide (low ≤ a) && decide (v ≠ Memory.unlisted) && Memory.wfFrom (a + 1) rest

/-- The canonical form of the whole memory. -/
def Memory.wf (m : Memory) : Bool := Memory.wfFrom 0 m

/-- The DRAM address of byte `off` of a part, counted through its extents in data order (R44,
R114), with the bytes left in that extent from there on. -/
def locate (extents : List Run) (off : Nat) : Option (Nat × Nat) :=
  match extents with
  | [] => none
  | e :: rest =>
    if off < e.count * Config.blockBytes then
      some (e.first * Config.blockBytes + off, e.count * Config.blockBytes - off)
    else locate rest (off - e.count * Config.blockBytes)

/-- Read `n` bytes of a part from byte `off` on, byte by byte through its extents. -/
def readPartBytes (m : Memory) (extents : List Run) (off n : Nat) : List Byte :=
  (List.range n).map fun i =>
    match locate extents (off + i) with
    | some (a, _) => Memory.read m a
    | none => Memory.unlisted

end Sys2Proof.Machine
end

