-- ==== Sys2Proof/Machine/Buffer.lean ====
section
/-! DEFINITION. The free-run list: allocation (R4, R5) and free (R7), as functions on lists. -/
namespace Sys2Proof.Machine

/-- Blocks covered by a list of runs. -/
def totalBlocks (rs : List Run) : Nat :=
  match rs with
  | [] => 0
  | r :: rest => r.count + totalBlocks rest

/-- The largest run, the one at the lower address among equals (R4). The list is in address
order, so the first of the largest is the lowest. -/
def largestRun (rs : List Run) : Option Run :=
  match rs with
  | [] => none
  | r :: rest =>
    match largestRun rest with
    | none => some r
    | some q => if r.count < q.count then some q else some r

/-- Take `n` blocks from the low end of run `r` of the list; the remainder stays in its place. -/
def takeFrom (rs : List Run) (r : Run) (n : Nat) : List Run :=
  match rs with
  | [] => []
  | q :: rest =>
    if q = r then (if n < r.count then ⟨r.first + n, r.count - n⟩ :: rest else rest)
    else q :: takeFrom rest r n

/-- Take runs largest first, at most `k` of them, until `need` blocks are taken (R4). Answers the
extents in the order taken and the list left. -/
def takeRuns (k need : Nat) (rs : List Run) : Option (List Run × List Run) :=
  match k with
  | 0 => none
  | k + 1 =>
    match largestRun rs with
    | none => none
    | some r =>
      if need ≤ r.count then some ([⟨r.first, need⟩], takeFrom rs r need)
      else
        match takeRuns k (need - r.count) (takeFrom rs r r.count) with
        | none => none
        | some (es, left) => some (r :: es, left)

/-- The outcome of an allocation (R4, R5). -/
inductive Allocation where
  | done (extents left : List Run)
  | space
  | fragmented
  deriving DecidableEq, Repr

/-- Allocate `need` blocks (R4, R5): the SPACE test first, then the six largest runs. -/
def allocate (need : Nat) (rs : List Run) : Allocation :=
  if totalBlocks rs < need then .space
  else
    match takeRuns 6 need rs with
    | some (es, left) => .done es left
    | none => .fragmented

/-- Place one extent in the free-run list at its address, joining it with the run that ends just
below it and the run that begins just above it (R7). -/
def insertRun (rs : List Run) (e : Run) : List Run :=
  match rs with
  | [] => [e]
  | r :: rest =>
    if e.first + e.count < r.first then e :: r :: rest
    else if e.first + e.count = r.first then ⟨e.first, e.count + r.count⟩ :: rest
    else if r.first + r.count = e.first then insertRun rest ⟨r.first, r.count + e.count⟩
    else r :: insertRun rest e

/-- Return every extent of a part to the free-run list (R7). -/
def insertRuns (rs es : List Run) : List Run :=
  match es with
  | [] => rs
  | e :: rest => insertRuns (insertRun rs e) rest

/-- The form of the free-run list (R2): runs of at least one block in ascending order, each ending
at least one block before the next begins, all inside the buffer. -/
def runsWf (low : Nat) (rs : List Run) : Bool :=
  match rs with
  | [] => true
  | r :: rest =>
    decide (low ≤ r.first) && decide (0 < r.count) && decide (r.first + r.count ≤ Config.blockCount)
      && runsWf (r.first + r.count + 1) rest

/-- Run `r` shares a block or sector with run `e`. -/
def overlaps (r e : Run) : Bool :=
  decide (r.first < e.first + e.count) && decide (e.first < r.first + r.count)

/-- Blocks a part needs: its bytes in blocks, rounded up (R3). -/
def blocksFor (bytes : Nat) : Nat := (bytes + (Config.blockBytes - 1)) / Config.blockBytes

end Sys2Proof.Machine
end

