-- ==== Sys2Proof/Machine/Operands.lean ====
section
/-! DEFINITION. How bits and fields are read: message frames and their CRC (R148, R149), bytes and
frames of the lens link (R69, R70), packed raws (R107), and the field checks of requests (R151). -/
namespace Sys2Proof.Machine

/-! ### Message frames -/

/-- One shift of the CRC-16 register: polynomial 0x1021, most significant bit first (R148). -/
def crcShift (c : BitVec 16) : BitVec 16 :=
  if c.msb then (c <<< 1) ^^^ 0x1021#16 else c <<< 1

/-- One byte into the CRC-16 register (R148). -/
def crcByte (c : BitVec 16) (b : Byte) : BitVec 16 :=
  let c0 := c ^^^ (b.zeroExtend 16 <<< 8)
  crcShift (crcShift (crcShift (crcShift (crcShift (crcShift (crcShift (crcShift c0)))))))

/-- The CRC-16 of a sequence of bytes, from 0xFFFF, with no inversion (R148). -/
def crc16 (bs : List Byte) : BitVec 16 := bs.foldl crcByte 0xFFFF#16

/-- Byte `i` of a frame, 0 where it has none. -/
def byteAt (bs : List Byte) (i : Nat) : Byte := bs.getD i 0

/-- A little-endian 16-bit field at byte `i` (R148). -/
def field16 (bs : List Byte) (i : Nat) : BitVec 16 :=
  (byteAt bs (i + 1) ++ byteAt bs i : BitVec 16)

/-- The length field of a frame (R148). -/
def frameLength (bs : List Byte) : Nat := (field16 bs 4).toNat

/-- The CRC that a frame's bytes 0–5 and payload give (R148). -/
def frameCrc (bs : List Byte) : BitVec 16 := crc16 (bs.take 6 ++ bs.drop 8)

/-- A frame of the right size is bad by its header or its CRC (R149): its kind is not 1, its
status byte is not 0, or its CRC does not match. -/
def frameBad (bs : List Byte) : Bool :=
  byteAt bs 0 != 1 || byteAt bs 3 != 0 || field16 bs 6 != frameCrc bs

/-- A number as `k` bytes, least significant first (R148). -/
def leBytes (k n : Nat) : List Byte :=
  match k with
  | 0 => []
  | k + 1 => BitVec.ofNat 8 n :: leBytes k (n / 256)

/-- The bytes of a frame sent by the part (R148): kind, code, tag, status, length, CRC, payload. -/
def frameBytes (kind code tag status : Byte) (payload : List Byte) : List Byte :=
  let len : BitVec 16 := BitVec.ofNat 16 payload.length
  let head := [kind, code, tag, status, len.setWidth 8, (len >>> 8).setWidth 8]
  let c := crc16 (head ++ payload)
  head ++ [c.setWidth 8, (c >>> 8).setWidth 8] ++ payload

/-- The number of a status code (R151). -/
def Status.toByte : Status → Byte
  | .ok => 0
  | .busy => 1
  | .denied => 2
  | .gone => 3
  | .protectSet => 4
  | .full => 5
  | .badField => 6
  | .state => 7
  | .saving => 8
  | .frameBad => 9
  | .unknown => 10

/-! ### Lens link bytes (R69) -/

/-- The value held by at least two of the three samples (R69). -/
def majority (t : Triple) : Bool := (t.x && t.y) || (t.y && t.z) || (t.x && t.z)

/-- The eight data bits of a link byte as a number, least significant first (R69). -/
def charValue (c : LinkChar) : Byte :=
  c.data.foldr (fun t acc => (acc <<< 1) ||| (if majority t then 1 else 0)) 0

/-- A recognised start bit: the majority of its samples is low (R69). -/
def charStarted (c : LinkChar) : Bool := !(majority c.start)

/-- A parity error: the eight data bits and the parity bit hold an even number of ones (R69). -/
def charParityError (c : LinkChar) : Bool :=
  (c.data.filter majority).length % 2 + (if majority c.parity then 1 else 0) != 1

/-- A framing error: the stop bit is read low (R69). -/
def charFramingError (c : LinkChar) : Bool := !(majority c.stop)

/-- The sum of the bytes of a link frame modulo 256 (R69). -/
def linkSum (bs : List Byte) : Byte := bs.foldl (· + ·) 0

/-- A frame on the link: the command byte, the length, the data and the check byte that makes the sum
of all of them 0 modulo 256 (R69). -/
def linkFrame (code : Byte) (data : List Byte) : List Byte :=
  let head := code :: BitVec.ofNat 8 data.length :: data
  head ++ [-linkSum head]

/-- The eight data bits of a byte, least significant first (R69). -/
def dataBits (b : Byte) : List Bool := (List.range 8).map b.getLsbD

/-- A byte on the data wire (R69): a start bit (low), the data bits, the parity bit that makes the
number of ones odd, and a stop bit (high). -/
def linkBits (b : Byte) : List Bool :=
  false :: dataBits b ++ [(dataBits b).count true % 2 == 0, true]

/-- A check error: too short to be a frame, a length byte above 8, not exactly the bytes it
states, or a sum that is not 0 modulo 256 (R69; the two forms of a wrong count are DEDUCED, safe,
log entry 10). -/
def linkCheckError (bs : List Byte) : Bool :=
  decide (bs.length < 3) || decide (8 < (byteAt bs 1).toNat) ||
    bs.length != (byteAt bs 1).toNat + 3 || linkSum bs != 0

/-- The data bytes of a link frame. -/
def linkData (bs : List Byte) : List Byte := (bs.drop 2).take (byteAt bs 1).toNat

/-- The errors that a received reply shows, in the order R70 lists them. -/
def linkErrors (chars : List LinkChar) (names : Option LinkCommand) (cmd : LinkCommand)
    (len : Nat) : List LinkError :=
  let seen := chars.filter charStarted
  let bs := seen.map charValue
  (if seen.any charParityError then [LinkError.parity] else []) ++
  (if seen.any charFramingError then [LinkError.framing] else []) ++
  (if linkCheckError bs then [LinkError.check] else []) ++
  (if names != some cmd || (byteAt bs 1).toNat != len then [LinkError.framing] else [])

/-- A 16-bit unsigned field of link data. -/
def linkWord (bs : List Byte) (i : Nat) : Nat := (field16 bs i).toNat

/-- The page-0 data of IDENT: Pmin, Pmax, K, tolerance, class count (R72). -/
def readPage0 (d : List Byte) : Page0 :=
  { pmin := linkWord d 0, pmax := linkWord d 2, k := (field16 d 4).toInt,
    tolerance := (byteAt d 6).toNat, classes := (byteAt d 7).toNat }

/-- The descriptor from page 0 and the page-1 data: T1, T2, T3, Vlim (R72). -/
def readDescriptor (p : Page0) (d : List Byte) : Descriptor :=
  { page0 := p, t1 := linkWord d 0, t2 := linkWord d 2, t3 := linkWord d 4, vlim := linkWord d 6 }

/-- The thresholds in use, T1 up to T(count − 1) (R72). -/
def Descriptor.thresholds (d : Descriptor) : List Nat :=
  [d.t1, d.t2, d.t3].take (d.page0.classes - 1)

/-- Each number is above the one before. -/
def strictlyRising (low : Nat) (l : List Nat) : Bool :=
  match l with
  | [] => true
  | x :: rest => decide (low < x) && strictlyRising x rest

/-- The descriptor checks of R72. -/
def Descriptor.valid (d : Descriptor) : Bool :=
  decide (d.page0.pmin < d.page0.pmax) && decide (d.page0.k ≠ 0) &&
    decide (1 ≤ d.page0.classes) && decide (d.page0.classes ≤ 4) &&
    strictlyRising 0 d.thresholds && decide (1 ≤ d.vlim)

/-! ### The packed raw (R107) -/

/-- Four samples in seven bytes (R107). -/
def packGroup (s0 s1 s2 s3 : Sample) : List Byte :=
  let g : BitVec 56 := s3 ++ s2 ++ s1 ++ s0
  [g.extractLsb' 0 8, g.extractLsb' 8 8, g.extractLsb' 16 8, g.extractLsb' 24 8,
   g.extractLsb' 32 8, g.extractLsb' 40 8, g.extractLsb' 48 8]

/-- A row of samples as packed bytes (R107); a row holds a whole number of groups. -/
def packRow (ss : List Sample) : List Byte :=
  match ss with
  | s0 :: s1 :: s2 :: s3 :: rest => packGroup s0 s1 s2 s3 ++ packRow rest
  | _ => []

/-- Seven bytes as four samples (R107). -/
def unpackGroup (b0 b1 b2 b3 b4 b5 b6 : Byte) : List Sample :=
  let g : BitVec 56 := b6 ++ b5 ++ b4 ++ b3 ++ b2 ++ b1 ++ b0
  [g.extractLsb' 0 14, g.extractLsb' 14 14, g.extractLsb' 28 14, g.extractLsb' 42 14]

/-- Packed bytes as samples (R107). -/
def unpackRow (bs : List Byte) : List Sample :=
  match bs with
  | b0 :: b1 :: b2 :: b3 :: b4 :: b5 :: b6 :: rest =>
    unpackGroup b0 b1 b2 b3 b4 b5 b6 ++ unpackRow rest
  | _ => []

/-- The sum of sample values modulo 2^32 (R49, R117). -/
def sampleSum (ss : List Sample) : Sum32 :=
  ss.foldl (fun acc s => acc + s.setWidth 32) 0

/-- The sum of byte values modulo 2^32 (R116). -/
def byteSum (bs : List Byte) : Sum32 :=
  bs.foldl (fun acc b => acc + b.setWidth 32) 0

/-- One byte into the read-back check of a raw: whenever 14 bits are there, a sample is added
(R107, R128). -/
def CheckSum.rawByte (c : CheckSum) (b : Byte) : CheckSum :=
  let bits := c.bits + b.toNat * 2 ^ c.nbits
  let n := c.nbits + 8
  if 14 ≤ n then
    { sum := c.sum + BitVec.ofNat 32 (bits % 2 ^ 14), bits := bits / 2 ^ 14, nbits := n - 14 }
  else { sum := c.sum, bits := bits, nbits := n }

/-- One byte into the read-back check of a proof (R128). -/
def CheckSum.proofByte (c : CheckSum) (b : Byte) : CheckSum :=
  { c with sum := c.sum + b.setWidth 32 }

/-- The read-back check of a copy over received bytes (R128). -/
def CheckSum.add (part : Part) (c : CheckSum) (bs : List Byte) : CheckSum :=
  match part with
  | .raw => bs.foldl CheckSum.rawByte c
  | .proof => bs.foldl CheckSum.proofByte c

/-- The check before any byte (R128). -/
def CheckSum.zero : CheckSum := ⟨0, 0, 0⟩

/-! ### Field checks -/

/-- The value of a choice field given and valid, the old one when it is not given. -/
def pick {α : Type} (old : α) (f : Option (Choice α)) : α :=
  match f with
  | some (.is a) => a
  | _ => old

/-- A choice field given as none of its choices. -/
def badChoice {α : Type} (f : Option (Choice α)) : Bool :=
  match f with
  | some .other => true
  | _ => false

/-- A numeric field given outside lo..hi. -/
def badRange (lo hi : Nat) (f : Option Nat) : Bool :=
  match f with
  | some n => decide (n < lo) || decide (hi < n)
  | none => false

/-- The number of the first failing field: checks are (field number, failed) in order (R151). -/
def firstBad (checks : List (Nat × Bool)) : Option Nat :=
  match checks with
  | [] => none
  | (n, bad) :: rest => if bad then some n else firstBad rest

/-- Clamp to a range (00_scope.md, Clamping). -/
def clamp (lo hi n : Nat) : Nat := max lo (min hi n)

/-- Clamp an integer to a range of naturals. -/
def clampInt (lo hi : Nat) (n : Int) : Nat := (max (lo : Int) (min (hi : Int) n)).toNat

/-- The range of counts each entry kind allows (R27). -/
def entryCountOk (k : EntryKind) (count : Nat) : Bool :=
  match k with
  | .image => decide (1 ≤ count) && decide (count ≤ 4024)
  | .skip => decide (1 ≤ count) && decide (count ≤ 4024)
  | .pd => decide (1 ≤ count) && decide (count ≤ 8)
  | .idle => decide (1 ≤ count) && decide (count ≤ 8191)
  | .stop => decide (count = 0)

/-- The entries of PROGRAM_WRITE when every kind is one of the five (R28). -/
def entriesOf (l : List (Choice EntryKind × Nat)) : Option (List Entry) :=
  match l with
  | [] => some []
  | (.other, _) :: _ => none
  | (.is k, n) :: rest => (entriesOf rest).map (⟨k, n⟩ :: ·)

/-- The first failing field of PROGRAM_WRITE (R28; field numbers by R151, log entry 25). -/
def programBad (f : ProgramFields) : Option Nat :=
  firstBad
    [(1, decide (31 < f.first)),
     (2, decide (f.entries.length < 1) || decide (32 < f.entries.length) ||
        (entriesOf f.entries).isNone || decide (32 < f.first + f.entries.length) ||
        ((entriesOf f.entries).getD []).any (fun e => !entryCountOk e.kind e.count)),
     (3, badRange 0 31 f.stillStart),
     (4, badRange 0 31 f.viewStart)]

/-- The first failing field of CAPTURE_SET (R38). -/
def captureBad (f : CaptureFields) : Option Nat :=
  firstBad
    [(1, badChoice f.view), (2, match f.rate with | some r => r != 30 && r != 60 | none => false),
     (4, badChoice f.priority), (5, badChoice f.trigger)]

/-- The first failing field of FOCUS_SETUP (R53). -/
def setupBad (f : SetupFields) : Option Nat :=
  firstBad
    [(1, badRange 1 8 f.n), (2, badRange 32 256 f.wd), (3, badRange 1 31 f.smax),
     (4, badChoice f.mode), (5, badRange 0 16777215 f.cmin)]

/-- The first failing field of RECIPE_WRITE (R91): index, black levels, gains, matrix, tone
table index, scale. -/
def recipeBad (index : Nat) (f : RecipeFields) : Option Nat :=
  firstBad
    [(1, decide (3 < index)),
     (2, badRange 0 4095 f.blackR || badRange 0 4095 f.blackG1 || badRange 0 4095 f.blackG2 ||
        badRange 0 4095 f.blackB),
     (3, badRange 0 16383 f.gainR || badRange 0 16383 f.gainG || badRange 0 16383 f.gainB),
     (4, match f.matrix with
        | some m => m.length != 9 || m.any (fun c => decide (c < -8192) || decide (8191 < c))
        | none => false),
     (5, badRange 0 3 f.tone),
     (6, match f.scale with | some s => s != 2 && s != 4 && s != 8 | none => false)]

/-- The first failing field of MEDIA_SET (R122, R151). -/
def mediaBad (f : MediaFields) : Option Nat :=
  firstBad
    [(1, badChoice f.cardProof), (2, badChoice f.aTimeout), (3, badChoice f.aVerify),
     (4, badChoice f.bTimeout), (5, badChoice f.bVerify)]

/-- The first failing field of WAKE_SET (R165). -/
def wakeBad (f : WakeFields) : Option Nat :=
  firstBad
    [(1, badChoice f.half), (2, badChoice f.trigger), (3, badChoice f.request),
     (4, badChoice f.attach)]

/-- The scale a recipe field names. -/
def scaleOf (n : Nat) : Scale := if n = 2 then .s2 else if n = 4 then .s4 else .s8

end Sys2Proof.Machine
end

