-- ==== Sys2Proof/Machine/PhaseMath.lean ====
section
/-! DEFINITION. The arithmetic of phase correlation (R54 to R65) and of the focus drive (R78, R82),
as functions on numbers. -/
namespace Sys2Proof.Machine

/-- The column of a focus area (R55). -/
def areaColumn (area : Nat) : Nat := area % 15

/-- The row of a focus area (R55). -/
def areaRow (area : Nat) : Nat := area / 15

/-- The first pair of the band of a focus area (R30, R55). -/
def bandStart (area : Nat) : Nat := 37 * areaRow area + 14

/-- The window centre of column `c` (R56). -/
def windowCentre (c : Nat) : Nat := (403 * c + 201) / 4

/-- The span start: centre − Wd/2 − Smax clamped to 0..1512 − (Wd + 2·Smax) (R56). -/
def spanStart (u : Setup) (area : Nat) : Nat :=
  min (windowCentre (areaColumn area) - u.wd / 2 - u.smax) (1512 - (u.wd + 2 * u.smax))

/-- The span's samples of one line as 10-bit values (R54, R56, R57). -/
def spanSamples (u : Setup) (start : Nat) (line : List Sample) : List Nat :=
  ((line.drop start).take (u.wd + 2 * u.smax)).map fun (s : Sample) => (s >>> 4).toNat

/-- The absolute difference of two samples. -/
def absDiff (a b : Nat) : Nat := (a - b) + (b - a)

/-- The SAD of one pair at the R window that begins `at_` samples into the span (R58). -/
def pairSad (u : Setup) (at_ : Nat) (pair : List Nat × List Nat) : Nat :=
  (List.zipWith absDiff ((pair.1.drop u.smax).take u.wd) ((pair.2.drop at_).take u.wd)).sum

/-- SAD(s) over the stored pairs (R58). -/
def sad (u : Setup) (store : List (List Nat × List Nat)) (s : Int) : Nat :=
  (store.map (pairSad u (u.smax + s).toNat)).sum

/-- The shifts −Smax to +Smax in order (R58). -/
def allShifts (smax : Nat) : List Int :=
  (List.range (2 * smax + 1)).map fun (i : Nat) => (i : Int) - smax

/-- Every shift with its SAD (R59). -/
def curveOf (u : Setup) (store : List (List Nat × List Nat)) : List (Int × Nat) :=
  (allShifts u.smax).map fun s => (s, sad u store s)

/-- The order of R61: lower SAD, then smaller |s|, then the negative shift. -/
def shiftBefore (a b : Int × Nat) : Bool :=
  decide (a.2 < b.2) ||
    (decide (a.2 = b.2) &&
      (decide (a.1.natAbs < b.1.natAbs) ||
        (decide (a.1.natAbs = b.1.natAbs) && decide (a.1 < b.1))))

/-- Insert a shift into a list in the order of R61. -/
def insertShift (x : Int × Nat) (l : List (Int × Nat)) : List (Int × Nat) :=
  match l with
  | [] => [x]
  | y :: rest => if shiftBefore x y then x :: y :: rest else y :: insertShift x rest

/-- The evaluated shifts put in the order of R61. -/
def sortShifts (l : List (Int × Nat)) : List (Int × Nat) := l.foldr insertShift []

/-- The evaluated shifts of a measurement (R59, R60). -/
def evaluatedShifts (u : Setup) (store : List (List Nat × List Nat)) : List (Int × Nat) :=
  match u.mode with
  | .full => curveOf u store
  | .curve => curveOf u store
  | .coarse =>
    let evens := (curveOf u store).filter fun p => p.1 % 2 == 0
    match sortShifts evens with
    | [] => evens
    | best :: _ =>
      (curveOf u store).filter fun p =>
        p.1 % 2 == 0 || p.1 == best.1 - 1 || p.1 == best.1 + 1

/-- The SAD of a shift among those evaluated. -/
def sadOf (evaluated : List (Int × Nat)) (s : Int) : Option Nat :=
  match evaluated with
  | [] => none
  | p :: rest => if p.1 = s then some p.2 else sadOf rest s

/-- `num / den` rounded half away from zero, `den` positive (R63, R78). -/
def roundAway (num : Int) (den : Nat) : Int :=
  let q : Int := ((2 * num.natAbs + den) / (2 * den) : Nat)
  if num < 0 then -q else q

/-- The subpixel offset (R63). -/
def subpixel (a b c : Nat) : Int :=
  let d : Int := (a : Int) - 2 * b + c
  if d ≤ 0 then 0
  else max (-8) (min 8 (roundAway (8 * ((a : Int) - c)) d.toNat))

/-- The results of a curve (R61 to R64): best four, mean, best shift, offset, phase, confidence. -/
def curveResult (u : Setup) (evaluated : List (Int × Nat)) : Option CurveResult :=
  match sortShifts evaluated with
  | [] => none
  | best :: rest =>
    let s0 := best.1
    let mean := (evaluated.map Prod.snd).sum / evaluated.length
    let edge := s0.natAbs == u.smax
    let off : Int :=
      match sadOf evaluated (s0 - 1), sadOf evaluated (s0 + 1) with
      | some a, some c => subpixel a best.2 c
      | _, _ => 0
    some
      { evaluated := evaluated.length, best := (best :: rest).take 4, mean := mean, shift := s0,
        offset := if edge then none else some off,
        phase := if edge then 16 * s0 else 16 * s0 + off,
        confidence := mean - best.2 }

/-- The measurement at PD-done (R58 to R66). -/
def measure (snap : PdSnapshot) (store : List (List Nat × List Nat)) (pairs : Nat) (time : Time)
    (kind : FrameKind) (shot : Option Nat) : Measurement :=
  let base : Measurement :=
    { time := time, kind := kind, shot := shot, area := snap.area, setup := snap.setup,
      spanStart := snap.spanStart, pairs := pairs, outcome := .short, edge := false,
      result := none }
  if pairs < snap.setup.n then base
  else
    match curveResult snap.setup (evaluatedShifts snap.setup store) with
    | none => base
    | some r =>
      let edge := r.shift.natAbs == snap.setup.smax
      { base with
        outcome := if edge || decide (r.confidence < snap.setup.cmin) then .low else .valid,
        edge := edge, result := some r }

/-- The curve kept by a measurement (R59, R65). -/
def keptCurve (snap : PdSnapshot) (store : List (List Nat × List Nat)) (pairs : Nat) : List Nat :=
  if pairs < snap.setup.n then []
  else
    match snap.setup.mode with
    | .curve => (curveOf snap.setup store).map Prod.snd
    | .full => []
    | .coarse => []

/-- The next measurement number (R66). -/
def nextNumber (n : Nat) : Nat := if 65535 ≤ n then 1 else n + 1

/-! ### From phase to lens (R78, R82) -/

/-- The steps of a phase: round(d16 · K / 256), halves away from zero (R78). -/
def phaseSteps (d16 k : Int) : Int := roundAway (d16 * k) 256

/-- A difference of two times, 2^31 or more taken as 0 (R82). -/
def timeAhead (later earlier : Time) : Nat :=
  if (later - earlier).toNat < 2 ^ 31 then (later - earlier).toNat else 0

/-- The prediction of R82 before the clamp to the lens range, and whether it came from two or
more entries; the whole value is truncated toward zero (log entry 34). The list is oldest first. -/
def predict (history : List (Time × Int)) (tn : Time) (vlim : Nat) : Option (Int × Bool) :=
  match history.getLast?, history.head? with
  | some newest, some oldest =>
    if history.length < 2 then some (newest.2, false)
    else
      let span := timeAhead newest.1 oldest.1
      let exact : Int :=
        if span = 0 then newest.2
        else (newest.2 * span + (newest.2 - oldest.2) * (timeAhead tn newest.1 : Int)).tdiv span
      some (newest.2 + max (-(vlim : Int)) (min vlim (exact - newest.2)), true)
  | _, _ => none

/-- A history with one more entry; the fifth removes the oldest (R82). -/
def addHistory (history : List (Time × Int)) (e : Time × Int) : List (Time × Int) :=
  (if history.length < 4 then history else history.drop 1) ++ [e]

/-- The speed class of a distance (R75). -/
def classFor (d : Descriptor) (distance : Nat) : Nat :=
  (d.thresholds.filter fun t => decide (t < distance)).length

/-! ### The marker (R88) -/

/-- Bit `j` of plane word `i`. -/
def planeBit (plane : List (BitVec 32)) (i j : Nat) : Bool := (plane.getD i 0).getLsbD j

/-- The marker's value at pattern pixel (i, j), 0..3 (R87). -/
def patternValue (m : Marker) (i j : Nat) : Nat :=
  (if planeBit m.planeLow i j then 1 else 0) + (if planeBit m.planeHigh i j then 2 else 0)

/-- The state colour, absent in OFF (R87, R88). -/
def stateColour (m : Marker) (s : FocusState) : Option Rgb :=
  match s with
  | .off => none
  | .locked => some m.focused
  | .tracking => some m.focused
  | .acquiring => some m.acquiring
  | .failed => some m.failed
  | .lensLost => some m.failed
  | .noLens => some m.failed

/-- The pixel drawn for a pattern value over a view pixel (R88). -/
def drawPixel (shot : MarkerShot) (value : Nat) (p : Rgb) : Rgb :=
  match value with
  | 0 => p
  | 1 => (stateColour shot.marker shot.state).getD p
  | 2 => shot.marker.fixed
  | _ =>
    match shot.state with
    | .off => p
    | _ => ⟨255 - p.r, 255 - p.g, 255 - p.b⟩

/-- The marker centre column (R88). -/
def markerColumn (area : Nat) : Nat := windowCentre (areaColumn area)

/-- The marker centre row for `rv` view rows (R88). -/
def markerRow (area rv : Nat) : Nat := (2 * areaRow area + 1) * rv / 18

/-- A view pixel at (row, column) with the marker laid over it; the pattern's top-left pixel lies
16 above and 16 left of the centre, and what falls outside the frame is clipped (R88). -/
def markedPixel (shot : MarkerShot) (rv row column : Nat) (p : Rgb) : Rgb :=
  let ci := row + 16
  let cj := column + 16
  let mr := markerRow shot.area rv
  let mc := markerColumn shot.area
  if shot.marker.on && decide (mr ≤ ci) && decide (ci < mr + 32) && decide (mc ≤ cj) &&
      decide (cj < mc + 32) then
    drawPixel shot (patternValue shot.marker (ci - mr) (cj - mc)) p
  else p

/-- A view row from column `column` on, with the marker laid over it (R88). -/
def markedRow (shot : MarkerShot) (rv row column : Nat) (ps : List Rgb) : List Rgb :=
  match ps with
  | [] => []
  | p :: rest => markedPixel shot rv row column p :: markedRow shot rv row (column + 1) rest

end Sys2Proof.Machine
end

