-- ==== Sys2Proof/Machine/DevMath.lean ====
section
/-! DEFINITION. Development arithmetic (R108 to R116): from packed raw rows to an output row. -/
namespace Sys2Proof.Machine

/-- Sensor rows and columns of a binning cell (R108). -/
def Scale.factor : Scale → Nat
  | .s2 => 2
  | .s4 => 4
  | .s8 => 8

/-- Output columns (R111). -/
def Scale.columns : Scale → Nat
  | .s2 => 3024
  | .s4 => 1512
  | .s8 => 756

/-- Output rows (R101, R111). -/
def Scale.rows : Scale → Nat
  | .s2 => 2012
  | .s4 => 1006
  | .s8 => 503

/-- Bytes of a proof (R3, R114). -/
def Scale.bytes (s : Scale) : Nat := 3 * (s.columns * s.rows)

/-- The black stage (R109). -/
def blackStage (level v : Nat) : Nat := v - level

/-- The gain stage: v · gain / 1024 rounded half up, with the clamp counted (R110). -/
def gainStage (gain v : Nat) : Nat × Nat :=
  let g := (v * gain + 512) / 1024
  if 16383 < g then (16383, 1) else (g, 0)

/-- The average of values rounded half up (R111). -/
def average (sum n : Nat) : Nat := (sum + n / 2) / n

/-- One matrix row over the binned values, rounded by floor and clamped, with the clamp counted
(R112). -/
def matrixStage (c0 c1 c2 : Int) (r g b : Nat) : Nat × Nat :=
  let m := (c0 * r + c1 * g + c2 * b + 512).fdiv 1024
  if m < 0 then (0, 1) else if 16383 < m then (16383, 1) else (m.toNat, 0)

/-- The tone stage (R113). -/
def toneStage (t : List Nat) (m : Nat) : Nat :=
  let i := m / 256
  let f := m % 256
  (t.getD i 0 * (256 - f) + t.getD (i + 1) 0 * f + 128) / 256

/-- The four sums of a cell and the gain clamps it counted: R, G (G1 and G2 together), B (R109 to
R111). -/
structure CellSums where
  r : Nat
  g : Nat
  b : Nat
  clamps : Nat
  deriving DecidableEq, Repr

/-- Add one quad (R, G1, G2, B samples) to a cell's sums (R108 to R111). -/
def CellSums.addQuad (c : CellSums) (rec : Recipe) (r g1 g2 b : Nat) : CellSums :=
  let vr := gainStage rec.gainR (blackStage rec.blackR r)
  let v1 := gainStage rec.gainG (blackStage rec.blackG1 g1)
  let v2 := gainStage rec.gainG (blackStage rec.blackG2 g2)
  let vb := gainStage rec.gainB (blackStage rec.blackB b)
  { r := c.r + vr.1, g := c.g + v1.1 + v2.1, b := c.b + vb.1,
    clamps := c.clamps + vr.2 + v1.2 + v2.2 + vb.2 }

/-- The quads of one cell in one pair of sensor rows, `k` of them. -/
def quadsOf (rec : Recipe) (k : Nat) (c : CellSums) (top bottom : List Nat) : CellSums :=
  match k, top, bottom with
  | k + 1, r :: g1 :: top', g2 :: b :: bottom' =>
    quadsOf rec k (c.addQuad rec r g1 g2 b) top' bottom'
  | _, _, _ => c

/-- The sums of the cell at output column `x`: its s/2 quads in each pair of rows (R108). -/
def cellSums (rec : Recipe) (x : Nat) (c : CellSums) (rows : List (List Nat)) : CellSums :=
  match rows with
  | top :: bottom :: rest =>
    let s := rec.scale.factor
    cellSums rec x
      (quadsOf rec (s / 2) c ((top.drop (s * x)).take s) ((bottom.drop (s * x)).take s)) rest
  | _ => c

/-- Coefficient `i` of the matrix, rows first. -/
def Recipe.coef (rec : Recipe) (i : Nat) : Int := rec.matrix.getD i 0

/-- An output pixel's three bytes and its saturation counts (R109 to R115). -/
def developCell (rec : Recipe) (tone : List Nat) (c : CellSums) : List Byte × Nat :=
  let q := rec.scale.factor * rec.scale.factor / 4
  let r := average c.r q
  let g := average c.g (2 * q)
  let b := average c.b q
  let m0 := matrixStage (rec.coef 0) (rec.coef 1) (rec.coef 2) r g b
  let m1 := matrixStage (rec.coef 3) (rec.coef 4) (rec.coef 5) r g b
  let m2 := matrixStage (rec.coef 6) (rec.coef 7) (rec.coef 8) r g b
  ([BitVec.ofNat 8 (toneStage tone m0.1), BitVec.ofNat 8 (toneStage tone m1.1),
    BitVec.ofNat 8 (toneStage tone m2.1)],
   c.clamps + m0.2 + m1.2 + m2.2)

/-- The output pixels of a row, columns `x` to `x + n − 1` (R108 to R115). -/
def developFrom (rec : Recipe) (tone : List Nat) (rows : List (List Nat)) (n x : Nat) :
    List Byte × Nat :=
  match n with
  | 0 => ([], 0)
  | n + 1 =>
    let p := developCell rec tone (cellSums rec x ⟨0, 0, 0, 0⟩ rows)
    let q := developFrom rec tone rows n (x + 1)
    (p.1 ++ q.1, p.2 + q.2)

/-- An output row from the sample values of its sensor rows (R108 to R115). -/
def developRow (rec : Recipe) (tone : List Nat) (rows : List (List Nat)) : List Byte × Nat :=
  developFrom rec tone rows rec.scale.columns 0

/-- The saturation count with its cap (R115). -/
def addSaturation (count more : Nat) : Nat := min 65535 (count + more)

/-- Sensor row `k` of a raw as sample values, read from the buffer (R107). -/
def rawRow (m : Memory) (extents : List Run) (k : Nat) : List Nat :=
  (unpackRow (readPartBytes m extents (Config.rowBytes * k) Config.rowBytes)).map BitVec.toNat

/-- The sensor rows that output row `y` is made from (R108). -/
def rawRowsFor (m : Memory) (extents : List Run) (s : Scale) (y : Nat) : List (List Nat) :=
  (List.range s.factor).map fun i => rawRow m extents (s.factor * y + i)

end Sys2Proof.Machine
end

