-- ==== Sys2Proof/Machine/Access.lean ====
section
/-! DEFINITION. Accessors: the one way to read and write a port, a slot, a record, a card copy or
a job of the state. -/
namespace Sys2Proof.Machine

/-- Change a job in its place in a list, the first that is the job named: two jobs can bear one number
(log entry 45) and are never equal. -/
def changeJob (l : List Job) (j : Job) (f : Job → Job) : List Job :=
  match l with
  | [] => []
  | k :: rest => if k = j then f k :: rest else k :: changeJob rest j f

/-- The rows a job has done, none before it runs (R95). -/
def Job.rows (j : Job) : Nat := j.rowsDone.getD 0

namespace State

/-- The time base now (R51). -/
def now (s : State) : Time := s.rsq.timeBase

/-- A port. -/
def port (s : State) (p : Port) : PortSt :=
  match p with
  | .body => s.prt.body
  | .tether => s.prt.tether
  | .relay => s.prt.relay

/-- Replace a port. -/
def setPort (s : State) (p : Port) (q : PortSt) : State :=
  match p with
  | .body => { s with prt := { s.prt with body := q } }
  | .tether => { s with prt := { s.prt with tether := q } }
  | .relay => { s with prt := { s.prt with relay := q } }

/-- A card slot. -/
def slot (s : State) (x : Slot) : SlotSt :=
  match x with
  | .a => s.med.a
  | .b => s.med.b

/-- Replace a card slot. -/
def setSlot (s : State) (x : Slot) (q : SlotSt) : State :=
  match x with
  | .a => { s with med := { s.med with a := q } }
  | .b => { s with med := { s.med with b := q } }

/-- The record of a shot number. -/
def findRecord (s : State) (n : Nat) : Option Record := s.catalog.find? fun r => r.shot == n

/-- Change the record of a shot number. -/
def modRecord (s : State) (n : Nat) (f : Record → Record) : State :=
  { s with catalog := s.catalog.map fun r => if r.shot = n then f r else r }

/-- A record that requests can name: in the catalog and not DELETING (R26). -/
def namedRecord (s : State) (n : Nat) : Option Record :=
  match s.findRecord n with
  | some r => if r.life = .deleting then none else some r
  | none => none

/-- The job that is RUNNING, if any (R95). -/
def runningJob (s : State) : Option Job := s.dev.queue.find? fun j => j.state == .running

/-- Change a job in its place in the queue (R95). -/
def modJob (s : State) (j : Job) (f : Job → Job) : State :=
  { s with dev := { s.dev with queue := changeJob s.dev.queue j f } }

/-- The relay entry of a shot (R138). -/
def relayEntry (s : State) (n : Nat) : Option RelayEntry :=
  s.snq.relay.find? fun e => e.shot == n

/-- The tether entry of a shot (R143). -/
def tetherEntry (s : State) (n : Nat) : Option TetherEntry :=
  s.snq.tether.find? fun e => e.shot == n

/-- An open handle by its number (R157). -/
def handle (s : State) (p : Port) (h : Nat) : Option Handle := ((s.port p).handles.getD h none)

/-- The recipe of an index (R90). -/
def recipe (s : State) (i : Nat) : Recipe := s.dev.recipes.getD i Recipe.reset

/-- The tone table of an index (R92). -/
def toneTable (s : State) (i : Nat) : List Nat := s.dev.tones.getD i toneReset

end State

/-- A copy entry (R9). -/
def Copies.get (c : Copies) (x : Slot) (p : Part) : Copy :=
  match x, p with
  | .a, .raw => c.aRaw
  | .a, .proof => c.aProof
  | .b, .raw => c.bRaw
  | .b, .proof => c.bProof

/-- Replace a copy entry. -/
def Copies.set (c : Copies) (x : Slot) (p : Part) (k : Copy) : Copies :=
  match x, p with
  | .a, .raw => { c with aRaw := k }
  | .a, .proof => { c with aProof := k }
  | .b, .raw => { c with bRaw := k }
  | .b, .proof => { c with bProof := k }

/-- The four copies in their order. -/
def Copies.all (c : Copies) : List Copy := [c.aRaw, c.aProof, c.bRaw, c.bProof]

/-- A copy that is not required (R11). -/
def Copy.notRequired : Copy :=
  { state := .notRequired, attempts := 0, placement := none, unverified := false, version := none }

/-- A copy set PENDING, with 0 attempts (R13, R19). -/
def Copy.pendingFor (version : Option Nat) : Copy :=
  { state := .pending, attempts := 0, placement := none, unverified := false, version := version }

/-- The copies of a new record (R11). -/
def Copies.none : Copies := ⟨.notRequired, .notRequired, .notRequired, .notRequired⟩

/-- PENDING, WRITING or VERIFYING (R17). -/
def Copy.needs (c : Copy) : Bool :=
  match c.state with
  | .pending => true
  | .writing => true
  | .verifying => true
  | .notRequired => false
  | .written => false
  | .failed => false
  | .abandoned => false

/-- In flight: WRITING or VERIFYING (1.2). -/
def Copy.inFlight (c : Copy) : Bool :=
  match c.state with
  | .writing => true
  | .verifying => true
  | .pending => false
  | .notRequired => false
  | .written => false
  | .failed => false
  | .abandoned => false

/-- The CURRENT version of a record (R18). -/
def Record.current (r : Record) : Option Version :=
  r.versions.find? fun v => v.state == .current

/-- A version by its number. -/
def Record.version (r : Record) (n : Nat) : Option Version :=
  r.versions.find? fun v => v.number == n

/-- The extents of a part of a record: the raw's, or the version's. -/
def Record.extents (r : Record) (part : Part) (version : Option Nat) : List Run :=
  match part with
  | .raw => r.raw.extents
  | .proof =>
    match version with
    | none => []
    | some n =>
      match r.version n with
      | some v => v.extents
      | none => []

/-- The extents a record holds: its raw's and its versions' (R1). -/
def Record.blocks (r : Record) : List Run := r.raw.extents ++ r.versions.flatMap Version.extents

/-- The size in bytes of a part of a record. -/
def Record.partBytes (r : Record) (part : Part) (version : Option Nat) : Nat :=
  match part with
  | .raw => Config.rawBytes
  | .proof =>
    match version with
    | none => 0
    | some n =>
      match r.version n with
      | some v => v.size
      | none => 0

/-- A card copy of the shot is in flight (R24). -/
def Record.anyInFlight (r : Record) : Bool := r.copies.all.any Copy.inFlight

/-- The timeout of a range in µs (R119). -/
def rangeMicros (t : TimeoutRange) : Nat :=
  match t with
  | .short => 250000
  | .long => 2000000

/-- Sectors of a copy of so many bytes (R126). -/
def sectorsFor (bytes : Nat) : Nat := (bytes + (Config.sectorBytes - 1)) / Config.sectorBytes

/-- The shot a notice names (R160). -/
def Notice.shot? (n : Notice) : Option Nat :=
  match n with
  | .shotCaptured shot _ _ => some shot
  | .burstEnd _ _ _ => none
  | .focusState _ _ => none
  | .shotDeleted shot => some shot
  | .shotRetired shot => some shot
  | .proofReady r => some r.shot
  | .cardWritten _ shot _ _ _ _ => some shot
  | .cardFault _ e => some e.shot
  | .cardDiscard _ shot _ _ => some shot
  | .stall _ _ => none
  | .saveDone _ _ => none
  | .sendReady shot _ => some shot
  | .transferReady shot => some shot
  | .transferMissed shot => some shot
  | .wakeDone _ => none

/-- A number for each notice kind, to compare kinds. -/
def Notice.kindIndex (n : Notice) : Nat :=
  match n with
  | .shotCaptured _ _ _ => 0
  | .burstEnd _ _ _ => 1
  | .focusState _ _ => 2
  | .shotDeleted _ => 3
  | .shotRetired _ => 4
  | .proofReady _ => 5
  | .cardWritten _ _ _ _ _ _ => 6
  | .cardFault _ _ => 7
  | .cardDiscard _ _ _ _ => 8
  | .stall _ _ => 9
  | .saveDone _ _ => 10
  | .sendReady _ _ => 11
  | .transferReady _ => 12
  | .transferMissed _ => 13
  | .wakeDone _ => 14

/-- A notice that is merged with a queued one: it names a shot, is not CARD_DISCARD, and one of
the same kind for the same shot is there (R160). -/
def Notice.merges (n : Notice) (queue : List Notice) : Bool :=
  match n.shot? with
  | none => false
  | some shot =>
    n.kindIndex != 8 &&
      queue.any fun m => m.kindIndex == n.kindIndex && m.shot? == some shot

end Sys2Proof.Machine
end

