-- ==== Sys2Proof/Machine/Flags.lean ====
section
/-! DEFINITION. Signals and conditions derived from the state: the watermark signal, in-position,
the attention lines, holds and release conditions, permissions. -/
namespace Sys2Proof.Machine

/-- A port reads this part through an open handle (R22). -/
def Handle.reads (h : Handle) (shot : Nat) (part : Part) (version : Option Nat) : Bool :=
  h.shot == shot && h.part == part && h.version == version

/-- The handles of a port open on a part (R9, open handles). -/
def PortSt.handleCount (q : PortSt) (shot : Nat) (part : Part) (version : Option Nat) : Nat :=
  (q.handles.filter fun h =>
    match h with
    | some h => h.reads shot part version
    | none => false).length

/-- Entries of a recipe's purpose and jobs: slots that a slot mode requires (R120). -/
def requiredOn (mode : SlotMode) (aFull : Bool) (part : Part) (x : Slot) : Bool :=
  match mode, part, x with
  | .mirror, _, _ => true
  | .split, .raw, .a => true
  | .split, .raw, .b => false
  | .split, .proof, .a => false
  | .split, .proof, .b => true
  | .overflow, _, .a => !aFull
  | .overflow, _, .b => aFull
  | .singleA, _, .a => true
  | .singleA, _, .b => false

/-- Which port may send which request (R152). -/
def permitted (k : RequestKind) (p : Port) (remoteDelete : Bool) : Bool :=
  match p with
  | .body => true
  | .tether =>
    match k with
    | .burstStart => true
    | .burstStop => true
    | .programWrite => false
    | .programRead => false
    | .seqHold => false
    | .seqRun => false
    | .syncMode => false
    | .captureSet => false
    | .watermark => false
    | .focusStart => true
    | .focusStop => true
    | .focusArea => true
    | .focusSetup => true
    | .focusResult => true
    | .markerWrite => false
    | .status => true
    | .listRecords => true
    | .info => true
    | .openPart => true
    | .readPart => true
    | .closeHandle => true
    | .tag => true
    | .delete => remoteDelete
    | .develop => true
    | .devStatus => true
    | .toneRead => true
    | .toneWrite => false
    | .recipeWrite => true
    | .recipeRead => false
    | .devSet => false
    | .slotMode => false
    | .mediaSet => false
    | .cardSpace => false
    | .cardSpaceClear => false
    | .slotReset => false
    | .slotDrop => false
    | .slotFull => false
    | .placement => false
    | .mediaStatus => false
    | .sendNext => false
    | .sendDone => false
    | .sendFail => false
    | .transferNext => true
    | .transferDone => true
    | .transferFail => true
    | .sendSet => false
    | .tetherQueueClear => false
    | .portSet => false
    | .portReset => false
    | .standby => false
    | .resume => false
    | .wakeSet => false
  | .relay =>
    match k with
    | .status => true
    | .listRecords => true
    | .info => true
    | .openPart => true
    | .readPart => true
    | .closeHandle => true
    | .sendNext => true
    | .sendDone => true
    | .sendFail => true
    | _ => false

namespace State

/-- The watermark signal to DEV (R47). -/
def watermarkSignal (s : State) : Bool := decide (s.rsq.watermark ≤ s.rsq.fifo.length)

/-- The in-position signal (R84). -/
def inPosition (s : State) : Bool :=
  match s.lnk.state, s.lnk.descriptor, s.fdr.target, s.lnk.position with
  | .ready, some d, some t, some pos =>
    s.fdr.scan == .none && !s.lnk.movingFlag && decide (absDiff pos t.step ≤ d.page0.tolerance)
  | _, _, _, _ => false

/-- The attention line of a port; the tether has none (R161). -/
def attention (s : State) (p : Port) : Bool :=
  match p with
  | .body => !(s.port .body).notices.isEmpty
  | .relay => !(s.port .relay).notices.isEmpty
  | .tether => false

/-- A handle is open on the part, on any port (R17, R20, R21). -/
def openOn (s : State) (shot : Nat) (part : Part) (version : Option Nat) : Bool :=
  decide (0 < s.prt.body.handleCount shot part version) ||
  decide (0 < s.prt.tether.handleCount shot part version) ||
  decide (0 < s.prt.relay.handleCount shot part version)

/-- A handle is open on any part or version of the shot, on any port (R23). -/
def openOnShot (s : State) (shot : Nat) : Bool :=
  (s.prt.body.handles ++ s.prt.tether.handles ++ s.prt.relay.handles).any fun h =>
    match h with
    | some h => h.shot == shot
    | none => false

/-- A DEV job for the shot is queued or running (R15, R17). -/
def hasJob (s : State) (shot : Nat) : Bool := s.dev.queue.any fun j => j.shot == shot

/-- A QUEUED job for the shot with this recipe (R96 to R98). -/
def queuedJob (s : State) (shot recipe : Nat) : Option Job :=
  s.dev.queue.find? fun j => j.state == .queued && j.shot == shot && j.recipe == recipe

/-- The shot has a hold (R15). -/
def hasHold (s : State) (r : Record) : Bool :=
  r.raw.state != .released || !r.versions.isEmpty || (s.relayEntry r.shot).isSome ||
    (s.tetherEntry r.shot).isSome || s.hasJob r.shot || r.wanted.isSome

/-- A PRESENT raw is to be released (R17). -/
def rawReleasable (s : State) (r : Record) : Bool :=
  r.raw.state == .present && !(r.copies.aRaw.needs || r.copies.bRaw.needs) &&
    !s.openOn r.shot .raw none &&
    !((s.tetherEntry r.shot).isSome && s.snq.policy == .hold) &&
    !s.hasJob r.shot && r.wanted.isNone

/-- A proof copy bound to the version still needs it (R20, R21). -/
def copyNeeds (r : Record) (n : Nat) : Bool :=
  (r.copies.aProof.version == some n && r.copies.aProof.needs) ||
    (r.copies.bProof.version == some n && r.copies.bProof.needs)

/-- A DRAINING version is to be released (R20). -/
def drainingReleasable (s : State) (r : Record) (v : Version) : Bool :=
  v.state == .draining && !s.openOn r.shot .proof (some v.number) && !copyNeeds r v.number &&
    !s.snq.relay.any fun e =>
      e.shot == r.shot && e.state == .inFlight && e.version == some v.number

/-- A CURRENT version is to be released (R21). -/
def currentReleasable (s : State) (r : Record) (v : Version) : Bool :=
  v.state == .current && !copyNeeds r v.number && !s.openOn r.shot .proof (some v.number) &&
    v.collector.isNone && (s.relayEntry r.shot).isNone

/-- A version is to be released, by R20 or R21. -/
def versionReleasable (s : State) (r : Record) (v : Version) : Bool :=
  s.drainingReleasable r v || s.currentReleasable r v

/-- The sequencer is STALLED for SPACE or FRAGMENTED (R6). -/
def stalledForSpace (s : State) : Bool :=
  match s.rsq.state with
  | .stalled .space => true
  | .stalled .fragmented => true
  | _ => false

/-- An identification is deferred: STANDBY, WAKING, or SAVING with RSQ in OFF (R89). -/
def lensDeferred (s : State) : Bool :=
  match s.pwc.power with
  | .active => false
  | .standby => true
  | .waking => true
  | .saving => s.rsq.state == .off

/-- The link sends nothing: STANDBY and WAKING (R89, R166), and SAVING entered from one of them,
the lens then being without its supply (R167, R169). -/
def linkSilent (s : State) : Bool :=
  match s.pwc.power with
  | .active => false
  | .standby => true
  | .waking => true
  | .saving => s.pwc.savedFrom != .active

/-- The copies PENDING on a slot, by ascending shot number, raw before proof (R125). -/
def slotWork (s : State) (x : Slot) : List (Nat × Part) :=
  s.catalog.flatMap fun r =>
    (if (r.copies.get x .raw).state = .pending then [(r.shot, Part.raw)] else []) ++
    (if (r.copies.get x .proof).state = .pending then [(r.shot, Part.proof)] else [])

/-- The test of R168, beside the power state and the done mark. -/
def savedQuiet (s : State) : Bool :=
  s.rsq.state == .off && s.med.a.flight.isNone && s.med.b.flight.isNone

/-- The port can hear its master: the tether attached, a serial port not ignoring data-in (R147,
R149). -/
def hears (s : State) (p : Port) : Bool :=
  match p with
  | .body => !s.prt.body.deaf
  | .relay => !s.prt.relay.deaf
  | .tether => s.prt.attached

/-- The card-detect level of a slot. -/
def cardDetect (s : State) (x : Slot) : Bool :=
  match x with
  | .a => s.pins.cardA
  | .b => s.pins.cardB

end State

/-- The first stops of a readout program walk: counts by kind until END (R29). -/
structure ProgramTotals where
  image : Nat
  skip : Nat
  pd : Nat
  ended : Bool
  deriving DecidableEq, Repr

/-- Walk the entries from a start index, in index order, until END (R29). -/
def walkProgram (es : List Entry) (t : ProgramTotals) : ProgramTotals :=
  match es with
  | [] => t
  | e :: rest =>
    match e.kind with
    | .stop => { t with ended := true }
    | .image => walkProgram rest { t with image := t.image + e.count }
    | .skip => walkProgram rest { t with skip := t.skip + e.count }
    | .pd => walkProgram rest { t with pd := t.pd + 1 }
    | .idle => walkProgram rest t

/-- The totals of the program from an index. -/
def programTotals (program : List Entry) (start : Nat) : ProgramTotals :=
  walkProgram (program.drop start) ⟨0, 0, 0, false⟩

/-- The still program passes (R29). -/
def stillPasses (program : List Entry) (start : Nat) : Bool :=
  let t := programTotals program start
  t.ended && t.image == 4024 && decide (t.image + t.skip ≤ 4024) && decide (t.pd ≤ 1)

/-- The view program passes (R29). -/
def viewPasses (program : List Entry) (start : Nat) : Bool :=
  let t := programTotals program start
  t.ended && decide (1 ≤ t.image) && decide (t.image + t.skip ≤ 4024) && decide (t.pd ≤ 1)

/-- The view period of a view rate in µs (R50). -/
def viewPeriod (rate : Nat) : Nat := if rate = 60 then 16667 else 33333

end Sys2Proof.Machine
end

