-- ==== Sys2Proof/Machine/Ops.lean ====
section
/-! DEFINITION. The shared operations of the Port Controller: notices (R160), replies and the
taking of a request (R150). -/
namespace Sys2Proof.Machine

/-- What serving a request gives: a reply at once, or a wait (R150). -/
inductive Served where
  | answer (st : Status) (pl : Payload)
  | waits (g : Stage)
  deriving DecidableEq, Repr

/-- A refusal with no payload (R151). -/
def refuse (s : State) (st : Status) : State × Served := (s, .answer st .empty)

/-- BAD_FIELD naming a field (R151). -/
def badField (s : State) (n : Nat) : State × Served := (s, .answer .badField (.field n))

/-- OK with a payload. -/
def okWith (s : State) (pl : Payload) : State × Served := (s, .answer .ok pl)

/-- A notice into a port's queue: merged, dropped with RESYNC set, or appended (R160, cases 2 to
4). -/
def PortSt.enqueue (q : PortSt) (n : Notice) : PortSt :=
  if n.merges q.notices then q
  else if 16 ≤ q.notices.length then { q with resync := true }
  else { q with notices := q.notices ++ [n] }

namespace State

/-- A notice sent to a port; discarded when the tether is detached (R160). -/
def notify (s : State) (p : Port) (n : Notice) : State :=
  match p with
  | .body => s.setPort .body ((s.port .body).enqueue n)
  | .relay => s.setPort .relay ((s.port .relay).enqueue n)
  | .tether =>
    if s.prt.attached then s.setPort .tether ((s.port .tether).enqueue n) else s

/-- A notice to the body and tether ports. -/
def notifyBodyTether (s : State) (n : Notice) : State := (s.notify .body n).notify .tether n

/-- A notice to all three ports. -/
def notifyAll (s : State) (n : Notice) : State := (s.notifyBodyTether n).notify .relay n

/-- An answer formed at once for a frame that is not taken as a request (R149, R150): appended to
the reply list, dropped when the list holds 5 entries. -/
def answerFrame (s : State) (p : Port) (code : ReplyCode) (tag : Byte) (st : Status) : State :=
  if 5 ≤ (s.port p).replies.length then s
  else
    s.setPort p
      { s.port p with
        replies := (s.port p).replies ++ [.formed ⟨code, tag, st, .empty⟩ false] }

/-- A request taken: it fills the slot and its place is appended to the reply list (R150). -/
def openRequest (s : State) (p : Port) (k : RequestKind) (tag : Byte) : State :=
  s.setPort p
    { s.port p with
      request := some ⟨k, tag, .answered⟩, replies := (s.port p).replies ++ [.place] }

/-- The outstanding request waits (R150). -/
def setStage (s : State) (p : Port) (g : Stage) : State :=
  match (s.port p).request with
  | none => s
  | some o => s.setPort p { s.port p with request := some { o with stage := g } }

end State

/-- Put a formed reply into the place kept for it (R150). -/
def fillPlace (l : List ReplyEntry) (r : Reply) : List ReplyEntry :=
  match l with
  | [] => []
  | .place :: rest => .formed r true :: rest
  | .formed q own :: rest => .formed q own :: fillPlace rest r

namespace State

/-- The reply of the port's outstanding request is formed in its place; a request dropped by a
port reset gets none (R150, R162). -/
def formReply (s : State) (p : Port) (st : Status) (pl : Payload) : State :=
  match (s.port p).request with
  | none => s
  | some o =>
    s.setPort p
      { s.port p with
        request := some { o with stage := .answered },
        replies := fillPlace (s.port p).replies ⟨.request o.kind, o.tag, st, pl⟩ }

/-- A fresh value of the free-value counter (log entry 9). -/
def fresh (s : State) : State := { s with freeCount := s.freeCount + 1 }

end State

/-- A choice of slot: the fields of slot requests are answered BAD_FIELD naming field 1 when the
slot is neither A nor B (R123, R124, R132 to R134). -/
def withSlot (s : State) (c : Choice Slot) (f : Slot → State × Served) : State × Served :=
  match c with
  | .other => badField s 1
  | .is x => f x

end Sys2Proof.Machine
end

