-- ==== Sys2Proof/Machine/FocusOps.lean ====
section
/-! DEFINITION. The shared operations of the Lens Link and the Focus Drive (chapter 4), with the
exposure start they share with the sequencer (R42, R43). -/
namespace Sys2Proof.Machine.State

/-! ### Lens Link: transactions (R70, R73) -/

/-- When no transaction runs in READY, the pending one that comes first is started: exposure
WHERE, then MOVE, then poll WHERE (R73). The sending of a MOVE begins the moving period, and its
class is that of the move in progress (R75). -/
def startNext (s : State) : State :=
  if s.lnk.running.isSome || s.lnk.state != .ready || s.linkSilent then s
  else
    match s.lnk.pendWhere, s.lnk.pendMove with
    | some f, _ => { s with lnk := { s.lnk with pendWhere := none, running := some (.exposureWhere f) } }
    | none, some m =>
      { s with lnk := { s.lnk with pendMove := none, running := some (.move m true),
                                   lastSent := some m.target, moving := true,
                                   latched := some m.cls } }
    | none, none =>
      if s.lnk.pendPoll then
        { s with lnk := { s.lnk with pendPoll := false, running := some .pollWhere } }
      else s

/-- A transaction ends: while the lens is moving, its 2,000 µs to a poll begin (R73). One that ends
before the moving period begins starts none (DESIGN CHOICE, safe, log entry 41). -/
def endTransaction (s : State) : State :=
  { s with lnk := { s.lnk with
      running := none,
      timers := if s.lnk.moving then s.lnk.timers ++ [s.now] else s.lnk.timers } }

/-- Every pending transaction is dropped (R71, R89); a MOVE already sent is not sent again if it fails
(DESIGN CHOICE, safe, log entry 50). -/
def dropPending (s : State) : State :=
  { s with lnk := { s.lnk with
      pendWhere := none, pendMove := none, pendPoll := false,
      running := match s.lnk.running with
        | some (.move m _) => some (.move m false)
        | r => r } }

/-- The pending MOVE is dropped (R76, R79, R83); one already sent is not sent again if it fails (DESIGN
CHOICE, safe, log entry 50). -/
def dropMove (s : State) : State :=
  { s with lnk := { s.lnk with
      pendMove := none,
      running := match s.lnk.running with
        | some (.move m _) => some (.move m false)
        | r => r } }

/-- Identification begins with IDENT page 0 (R71, R72); a transaction then running is given up
and the last target sent is forgotten (log entry 12). -/
def startIdent (s : State) : State :=
  { s with lnk := { s.lnk with
      state := .identifying, lostReason := none, running := some .identPage0, pendWhere := none,
      pendMove := none, pendPoll := false, page0 := none, descriptor := none, lastSent := none } }

/-- The last target sent or, when a MOVE waits, the target it will send (R75, log entry 11). -/
def lastTarget (s : State) : Option Nat :=
  match s.lnk.pendMove with
  | some m => some m.target
  | none => s.lnk.lastSent

/-- The speed class of a new target (R75): the latched class while the lens moves, otherwise by
the distance from the last known position. -/
def classOf (s : State) (d : Descriptor) (step : Nat) : Nat :=
  if s.lnk.moving then s.lnk.latched.getD 0
  else classFor d (absDiff (s.lnk.position.getD 0) step)

/-- A MOVE is made pending, replacing one still pending (R73), its class latched (R75). The class 0 of a
scan's MOVE is latched at once, also while the lens still moves in an earlier move (DESIGN CHOICE,
unsafe, log entry 46). -/
def queueMove (s : State) (step cls : Nat) : State :=
  startNext { s with lnk := { s.lnk with pendMove := some ⟨step, cls⟩, latched := some cls } }

/-! ### Focus Drive: exposure start and prediction (R78, R81, R82) -/

/-- A computed target is clamped to Pmin..Pmax and stored; a MOVE is made pending when it differs
from the last target sent (R75, R78). -/
def setTarget (s : State) (d : Descriptor) (v : Int) (predicted : Bool) : State :=
  let step := clampInt d.page0.pmin d.page0.pmax v
  let clamped := decide (v < d.page0.pmin) || decide ((d.page0.pmax : Int) < v)
  let s1 := { s with fdr := { s.fdr with target := some ⟨step, predicted, clamped⟩ } }
  if s1.lastTarget = some step then s1 else s1.queueMove step (s1.classOf d step)

/-- The prediction computed with the history as it stands (R81, R82); nothing without entries. -/
def applyPrediction (s : State) (d : Descriptor) : State :=
  match predict s.fdr.history s.fdr.nextMid d.vlim with
  | none => s
  | some (v, two) => s.setTarget d v two

/-- RSQ gives FDR a new predicted next exposure midpoint (R51); in CONTINUOUS mode the prediction
is computed again (R81). -/
def giveMidpoint (s : State) (mid : Time) : State :=
  let s1 := { s with fdr := { s.fdr with nextMid := mid } }
  match s1.fdr.mode, s1.lnk.state, s1.lnk.descriptor with
  | .continuous, .ready, some d =>
    if s1.fdr.state = .acquiring || s1.fdr.state = .tracking then s1.applyPrediction d else s1
  | _, _, _ => s1

/-- FDR is signalled an exposure start with its midpoint (R78): while the link is READY the aim
record is made and an exposure WHERE is made pending; otherwise the frame has no aim record
(log entry 21). -/
def exposureStart (s : State) (mid : Time) : State :=
  let tag := s.fdr.frameTag + 1
  let s1 := { s with fdr := { s.fdr with frameTag := tag, frameMid := mid, exposurePos := none,
                                         aim := none } }
  if s.lnk.state = .ready then
    let aim : Aim :=
      match s.fdr.target with
      | some t => ⟨true, t.predicted, t.clamped⟩
      | none => ⟨false, false, false⟩
    startNext { s1 with fdr := { s1.fdr with aim := some aim },
                        lnk := { s1.lnk with pendWhere := some tag } }
  else s1

/-! ### The sequencer's exposure and focus wait (R42, R43) -/

/-- EXPOSE is entered: the exposure begins, FDR is signalled, then given the midpoint (R43, R51;
their order log entry 20). -/
def enterExpose (s : State) : State :=
  match s.rsq.frame with
  | none => s
  | some f =>
    let e := s.rsq.burst.exposure
    let mid := s.now + BitVec.ofNat 32 (e / 2)
    let s1 := { s with rsq := { s.rsq with
      state := .expose,
      frame := some { f with exposureStart := s.now, exposure := e, midpoint := mid,
                             program := .exposing } } }
    (s1.exposureStart mid).giveMidpoint mid

/-- FOCUS_WAIT_EXPIRED is set on the waiting frame's record (R42). -/
def markExpired (s : State) : State :=
  match s.rsq.frame with
  | none => s
  | some f => s.modRecord f.shot fun r => { r with flags := { r.flags with waitExpired := true } }

/-- The ends of a focus wait that FDR's state and signal bring (R42). -/
def checkFocusWait (s : State) : State :=
  if s.rsq.state = .focusWait then
    match s.fdr.state with
    | .locked => s.enterExpose
    | .lensLost => s.markExpired.enterExpose
    | .noLens => s.markExpired.enterExpose
    | .failed => s.markExpired.enterExpose
    | .off => s.markExpired.enterExpose
    | .acquiring => if s.inPosition then s.enterExpose else s
    | .tracking => if s.inPosition then s.enterExpose else s
  else s

/-! ### Focus Drive: states and sessions (R76, R77) -/

/-- The focus state changes: FOCUS_STATE goes to the body and tether ports (R76), and a focus wait
may end (R42). -/
def setFocusState (s : State) (st : FocusState) : State :=
  if s.fdr.state = st then s.checkFocusWait
  else
    checkFocusWait
      (({ s with fdr := { s.fdr with state := st } } : State).notifyBodyTether
        (.focusState st s.fdr.mode))

/-- Target, aim record, history, LOW count and scan are cleared (R76, R77). -/
def clearFocus (s : State) : State :=
  { s with fdr := { s.fdr with target := none, aim := none, history := [], lowCount := 0,
                               scan := .none } }

/-- A new session begins, its state set by the link state (R76). In MANUAL the lens is not driven, so no
MOVE is left to send (R83); in the other modes a MOVE still pending stays pending (DESIGN CHOICE,
unsafe, log entry 39). -/
def startSession (s : State) : State :=
  let s1 := (if s.fdr.mode = .manual then s.dropMove else s).clearFocus
  match s1.lnk.state with
  | .ready => s1.setFocusState .acquiring
  | .lost => s1.setFocusState .lensLost
  | .identifying => s1.setFocusState .lensLost
  | .absent => s1.setFocusState .noLens

/-- The session ends: the state is OFF, the target and the pending MOVE are cleared and a scan
ends (R76, R80). -/
def endSession (s : State) : State :=
  let s1 := s.dropMove
  ({ s1 with fdr := { s1.fdr with target := none, scan := .none } } : State).setFocusState .off

/-- FDR follows the link leaving READY (R77): nothing in OFF. -/
def focusLost (s : State) (st : FocusState) : State :=
  if s.fdr.state = .off then s else s.clearFocus.setFocusState st

/-- FDR follows the link becoming READY (R77): a session in LENS_LOST or NO_LENS goes to
ACQUIRING as if newly started. -/
def focusFound (s : State) : State :=
  match s.fdr.state with
  | .lensLost => s.clearFocus.setFocusState .acquiring
  | .noLens => s.clearFocus.setFocusState .acquiring
  | .off => s
  | .acquiring => s
  | .locked => s
  | .tracking => s
  | .failed => s

/-! ### Link states (R71) -/

/-- The link becomes LOST (R70 to R72): the transaction has ended (R73), every pending one is dropped and
the run count returns to 0. The descriptor is given up for either reason (DESIGN CHOICE, safe, log
entry 51). -/
def linkLost (s : State) (why : LostReason) : State :=
  let e := s.endTransaction
  focusLost
    { e with lnk := { e.lnk with
        state := .lost, lostReason := some why, pendWhere := none, pendMove := none,
        pendPoll := false, errors := 0, page0 := none, descriptor := none } }
    .lensLost

/-- The link becomes ABSENT (R71). -/
def linkAbsent (s : State) : State :=
  focusLost
    { s with lnk := { s.lnk with
        state := .absent, lostReason := none, running := none, pendWhere := none,
        pendMove := none, pendPoll := false, errors := 0, page0 := none, descriptor := none,
        position := none, movingFlag := false, moving := false, latched := none, timers := [],
        lastSent := none } }
    .noLens

/-- In LOST, a FOCUS_START taken or an assertion of half-press starts identification again
(R71). -/
def retryLost (s : State) : State := if s.lnk.state = .lost then s.startIdent else s

/-! ### WHERE replies (R74, R79, R80) -/

/-- The lock of SINGLE mode (R79) and the progress of its scan (R80) at a WHERE reply. -/
def focusProgress (s : State) (pos : Nat) (moving : Bool) : State :=
  match s.lnk.descriptor with
  | none => s
  | some d =>
    let near := fun (step : Nat) => !moving && decide (absDiff pos step ≤ d.page0.tolerance)
    if s.fdr.mode = .single && s.fdr.state = .acquiring then
      match s.fdr.scan with
      | .none =>
        match s.fdr.target with
        | some t => if near t.step then s.dropMove.setFocusState .locked else s
        | none => s
      | .up =>
        if near d.page0.pmax then
          ({ s with fdr := { s.fdr with scan := .down } } : State).queueMove d.page0.pmin 0
        else s
      | .down =>
        if near d.page0.pmin then
          (({ s with fdr := { s.fdr with scan := .none } } : State).setFocusState .failed).queueMove
            s.fdr.scanStart 0
        else s
    else s

/-- The position and flag of a good WHERE reply are stored; not moving ends the moving period and
clears the latched class (R74). A poll that is already pending stays pending (DESIGN CHOICE, safe, log
entry 48). -/
def storePosition (s : State) (pos : Nat) (moving : Bool) : State :=
  { s with lnk := { s.lnk with
      position := some pos, movingFlag := moving,
      moving := s.lnk.moving && moving,
      latched := if moving then s.lnk.latched else none,
      timers := if moving then s.lnk.timers else [] } }

/-- A good WHERE reply is passed to FDR (R74). -/
def whereToFocus (s : State) (pos : Nat) (moving : Bool) : State :=
  (s.focusProgress pos moving).checkFocusWait

/-! ### Measurements (R78 to R83, R85) -/

/-- The scan begins (R80): the start position is the last known position clamped, with a MOVE to
Pmax at class 0. -/
def beginScan (s : State) (d : Descriptor) : State :=
  let start := clamp d.page0.pmin d.page0.pmax (s.lnk.position.getD 0)
  ({ s with fdr := { s.fdr with scan := .up, scanStart := start } } : State).queueMove
    d.page0.pmax 0

/-- A VALID measurement applied (R79, R80, R81, R83). -/
def applyValid (s : State) (d : Descriptor) (p : Int) : State :=
  match s.fdr.mode with
  | .single =>
    if s.fdr.state = .acquiring then
      (({ s with fdr := { s.fdr with scan := .none } } : State).setTarget d p false).checkFocusWait
    else s
  | .continuous =>
    let s1 := { s with fdr := { s.fdr with
      history := addHistory s.fdr.history (s.fdr.frameMid, p), lowCount := 0 } }
    let s2 := if s1.fdr.state = .acquiring then s1.setFocusState .tracking else s1
    (s2.applyPrediction d).checkFocusWait
  | .manual => s.setFocusState .tracking

/-- A LOW measurement applied, EDGE included (R79, R80, R81, R83). -/
def applyLow (s : State) (d : Descriptor) : State :=
  match s.fdr.mode with
  | .single =>
    if s.fdr.state = .acquiring && s.fdr.scan == .none && s.fdr.target.isNone then s.beginScan d
    else s
  | .continuous =>
    if s.fdr.lowCount + 1 < 8 then
      { s with fdr := { s.fdr with lowCount := s.fdr.lowCount + 1 } }
    else
      ({ s with fdr := { s.fdr with lowCount := 0, history := [] } } : State).setFocusState
        .acquiring
  | .manual => s.setFocusState .acquiring

/-- The focus record of the still frame's shot (R85). In OFF, prediction used is no. -/
def writeFocusRecord (s : State) (shot pos : Nat) (r : CurveResult) : State :=
  let aim := s.fdr.aim.getD ⟨false, false, false⟩
  let focus : FocusRecord :=
    { position := clamp 0 65535 pos, phase := r.phase, confidence := r.confidence,
      state := s.fdr.state, predicted := aim.predicted && s.fdr.state != .off,
      clamped := aim.clamped }
  s.modRecord shot fun q => { q with focus := some focus }

/-- The correlator hands a measurement over (R66, R78): the position at exposure is fixed, the
mode rules apply it while a session runs, and a still frame's focus record is written (R85). -/
def applyMeasurement (s : State) (m : Measurement) : State :=
  match m.result, s.lnk.state, s.lnk.descriptor with
  | some r, .ready, some d =>
    let pos := (s.fdr.exposurePos.orElse fun _ => s.lnk.position).getD 0
    let p : Int := pos + phaseSteps r.phase d.page0.k
    let s1 :=
      if s.fdr.state = .off then s
      else if m.outcome = .valid then s.applyValid d p else s.applyLow d
    match m.shot with
    | some shot => s1.writeFocusRecord shot pos r
    | none => s1
  | _, _, _ => s

end Sys2Proof.Machine.State
end

