-- ==== Sys2Proof/Machine/CatalogOps.lean ====
section
/-! DEFINITION. The shared operations of the Shot Catalog and the Shot Buffer: a frame asks for its
record and raw (R11, R40), stalls and repeats (R41), frees (R7), releases (R17, R20, R21) and the
CARD_ONLY test (R15). -/
namespace Sys2Proof.Machine.State

/-! ### A frame asks for its record and raw -/

/-- The catalog test (R9, R11). -/
def catalogRoom (s : State) : Bool :=
  s.nextShot != 0 &&
    (decide (s.catalog.length < Config.catalogMax) || s.catalog.any fun r => r.life == .cardOnly)

/-- The shot number after one is taken; 0 once 4,294,967,295 has been issued (R9, log entry 8). -/
def nextShotNumber (n : Nat) : Nat := (n + 1) % 2 ^ 32

end Sys2Proof.Machine.State

namespace Sys2Proof.Machine

/-- Remove the first CARD_ONLY record, the one with the lowest number (R16). -/
def dropOldestCardOnly (rs : List Record) : List Record :=
  match rs with
  | [] => []
  | r :: rest => if r.life = .cardOnly then rest else r :: dropOldestCardOnly rest

/-- The oldest CARD_ONLY record (R16). -/
def oldestCardOnly (rs : List Record) : Option Record := rs.find? fun r => r.life == .cardOnly

/-- A record as created (R11, R40). -/
def newRecord (shot : Nat) (b : Burst) (extents : List Run) : Record :=
  { shot := shot, life := .exposing, burst := b.id, frame := b.started, origin := b.origin,
    stamp := none,
    flags := { damaged := false, lostRows := 0, syncMissed := b.missed, waitExpired := false },
    raw := { state := .filling, extents := extents, checksum := none }, versions := [],
    lastVersion := 0, wanted := none, focus := none, copies := Copies.none,
    tags := ⟨false, false, false, 0⟩, relay := .none, tether := .none }

end Sys2Proof.Machine

namespace Sys2Proof.Machine.State

/-- The oldest CARD_ONLY record is retired when the catalog holds 64 (R16). -/
def retire (s : State) : State :=
  if s.catalog.length < Config.catalogMax then s
  else
    match oldestCardOnly s.catalog with
    | none => s
    | some r =>
      ({ s with catalog := dropOldestCardOnly s.catalog } : State).notifyAll (.shotRetired r.shot)

/-- The record is created with its raw FILLING and the frame begins (R11, R40); the FIFO, the row
count and the checksum start empty (R48, R49). -/
def createRecord (s : State) (extents left : List Run) : State :=
  let s1 := s.retire
  { s1 with
    catalog := s1.catalog ++ [newRecord s1.nextShot s1.rsq.burst extents],
    nextShot := nextShotNumber s1.nextShot,
    freeRuns := left,
    rsq := { s1.rsq with
      burst := { s1.rsq.burst with started := s1.rsq.burst.started + 1, missed := false },
      frame := some
        { kind := .still, shot := s1.nextShot, start := s1.now, waitStart := s1.now,
          exposureStart := s1.now, exposure := 0, midpoint := s1.now, rate := 0,
          program := .exposing, rowPtr := 0, imageRows := 0 },
      fifo := [], owed := [], rowsWritten := 0, rowBytes := 0, rawSum := 0 } }

/-- The focus wait decision (R42). -/
def focusDecision (s : State) : State :=
  if s.rsq.settings.priority && s.fdr.mode != .manual &&
      (s.fdr.state == .acquiring || s.fdr.state == .tracking) && !s.inPosition then
    { s with rsq := { s.rsq with
        state := .focusWait,
        frame := s.rsq.frame.map fun f => { f with waitStart := s.now } } }
  else s.enterExpose

/-- The sequencer stalls, or replaces the reason of its stall (R41). -/
def stall (s : State) (r : StallReason) : State :=
  if s.rsq.state = .stalled r then s
  else
    ({ s with rsq := { s.rsq with state := .stalled r } } : State).notify .body
      (.stall s.rsq.burst.id r)

/-- An event of R99 has come in this change (log entry 6). -/
def markAttempt (s : State) : State := { s with dev := { s.dev with attemptDue := true } }

/-- The frame asks for its record and raw (R11, R40); leaving STALLED is an event of R99. -/
def requestFrame (s : State) : State :=
  if !s.catalogRoom then s.stall .catalog
  else
    match allocate Config.rawBlocks s.freeRuns with
    | .space => s.stall .space
    | .fragmented => s.stall .fragmented
    | .done extents left =>
      let s1 := (s.createRecord extents left).focusDecision
      match s.rsq.state with
      | .stalled _ => s1.markAttempt
      | _ => s1

/-- A stall for SPACE or FRAGMENTED repeats its request at a free (R7, R41). -/
def retrySpace (s : State) : State := if s.stalledForSpace then s.requestFrame else s

/-- A stall for CATALOG repeats its request when a record becomes CARD_ONLY or is removed (R11,
R41). -/
def retryCatalog (s : State) : State :=
  if s.rsq.state = .stalled .catalog then s.requestFrame else s

/-! ### Frees and releases -/

/-- Extents return to the free-run list (R7): a stalled capture repeats its request, and an
attempt to start a job is due. -/
def free (s : State) (extents : List Run) : State :=
  if extents = [] then s
  else
    (({ s with freeRuns := insertRuns s.freeRuns extents } : State).markAttempt).retrySpace

/-- A record leaves the catalog (R12, R24, R25), and the blocks it still holds are freed (R7). -/
def removeRecord (s : State) (shot : Nat) : State :=
  match s.findRecord shot with
  | none => s
  | some r =>
    (({ s with catalog := s.catalog.filter fun q => q.shot != shot } : State).free
      r.blocks).retryCatalog

/-- The shot's tether entry goes with its raw (R145). -/
def missTether (s : State) (shot : Nat) : State :=
  match s.tetherEntry shot with
  | none => s
  | some _ =>
    ((({ s with snq := { s.snq with tether := s.snq.tether.filter fun e => e.shot != shot } } :
      State).modRecord shot fun r => { r with tether := .missed }).notify .tether
        (.transferMissed shot)).notify .body (.transferMissed shot)

/-- The raw's state becomes RELEASED with no extents, and its blocks are freed (R17, R24). -/
def freeRaw (s : State) (shot : Nat) : State :=
  match s.findRecord shot with
  | none => s
  | some r =>
    (s.modRecord shot fun q => { q with raw := { q.raw with state := .released, extents := [] } }).free
      r.raw.extents

/-- The raw release test of R17 for a HELD record; under LOOSE a tether entry goes too (R145). -/
def rawTest (s : State) (shot : Nat) : State :=
  match s.findRecord shot with
  | none => s
  | some r =>
    if r.life == .held && s.rawReleasable r then (s.missTether shot).freeRaw shot else s

/-- A version is removed from its record and its blocks are freed (R20, R21, R24). -/
def freeVersion (s : State) (shot number : Nat) : State :=
  match s.findRecord shot with
  | none => s
  | some r =>
    (s.modRecord shot fun q =>
        { q with versions := q.versions.filter fun v => v.number != number }).free
      (r.extents .proof (some number))

/-- The release tests of R20 and R21 for the versions with these numbers. -/
def versionTests (s : State) (shot : Nat) (numbers : List Nat) : State :=
  match numbers with
  | [] => s
  | n :: rest =>
    match s.findRecord shot with
    | none => s
    | some r =>
      match r.version n with
      | none => versionTests s shot rest
      | some v =>
        if r.life == .held && s.versionReleasable r v then
          versionTests (s.freeVersion shot n) shot rest
        else versionTests s shot rest

/-- The CARD_ONLY test (R15). -/
def cardOnlyTest (s : State) (shot : Nat) : State :=
  match s.findRecord shot with
  | none => s
  | some r =>
    if r.life == .held && !s.hasHold r then
      (s.modRecord shot fun q => { q with life := .cardOnly }).retryCatalog
    else s

/-- The release tests of R17, R20 and R21 and the CARD_ONLY test of R15 for a shot, in that order
(log entry 7). -/
def releaseTests (s : State) (shot : Nat) : State :=
  match s.findRecord shot with
  | none => s
  | some r =>
    ((s.rawTest shot).versionTests shot (r.versions.map Version.number)).cardOnlyTest shot

/-- The release tests for several shots, in the order of the list, each shot's whole (DESIGN CHOICE,
safe, log entry 7). -/
def releaseAll (s : State) (shots : List Nat) : State :=
  match shots with
  | [] => s
  | n :: rest => releaseAll (s.releaseTests n) rest

/-! ### Sends that settle with a release -/

/-- A copy of a DELETING shot has ended (R25): the part it held is freed once no other copy in
flight holds it, and with the last copy in flight the record is removed. -/
def settleDeleting (s : State) (shot : Nat) (part : Part) (version : Option Nat) : State :=
  match s.findRecord shot with
  | none => s
  | some r =>
    let held :=
      ((r.copies.get .a part).inFlight && (r.copies.get .a part).version == version) ||
      ((r.copies.get .b part).inFlight && (r.copies.get .b part).version == version)
    let s1 :=
      if held then s
      else
        match part, version with
        | .raw, _ => s.freeRaw shot
        | .proof, some n => s.freeVersion shot n
        | .proof, none => s
    if r.anyInFlight then s1 else s1.removeRecord shot

/-! ### The release of a stall by the end of its burst (R31, R33, R37) -/

/-- The sequencer takes a new state; leaving STALLED is an event of R99. -/
def setSeq (s : State) (q : SeqState) : State :=
  let s1 := { s with rsq := { s.rsq with state := q } }
  match s.rsq.state with
  | .stalled _ => s1.markAttempt
  | _ => s1

/-- The burst ends (R39): its record becomes inactive, the missed mark and a latched edge go, and
BURST_END goes to the body and tether ports. -/
def endBurst (s : State) (why : BurstEndReason) : State :=
  if s.rsq.burst.active then
    ({ s with rsq := { s.rsq with
        burst := { s.rsq.burst with active := false, missed := false }, latch := false } } :
      State).notifyBodyTether (.burstEnd s.rsq.burst.id why s.rsq.burst.completed)
  else s

end Sys2Proof.Machine.State
end

