-- ==== Sys2Proof/Machine/DevelopOps.lean ====
section
/-! DEFINITION. The shared operations of the Development Engine (chapter 5): results, admission of
automatic developments (R98), attempts to start a job (R99, R100), rows and pauses (R101, R102),
aborts (R105). -/
namespace Sys2Proof.Machine

/-- The next job number, from 65535 to 1 (R95). -/
def nextJobNumber (n : Nat) : Nat := if 65535 ≤ n then 1 else n + 1

/-- A version number after another, from 255 to 1 (R18). -/
def nextVersionNumber (n : Nat) : Nat := if 255 ≤ n then 1 else n + 1

/-- The number of a new version: the one after the last, or the one after that when the shot's
other version holds it (R18). -/
def newVersionNumber (r : Record) : Nat :=
  let n := nextVersionNumber r.lastVersion
  if r.versions.any fun v => v.number == n then nextVersionNumber n else n

/-- No condition set. -/
def Conditions.clear : Conditions := ⟨false, false, false⟩

/-- The result log keeps the 8 most recent results (R104). -/
def logResult (l : List JobResult) (r : JobResult) : List JobResult :=
  (if l.length < 8 then l else l.drop 1) ++ [r]

/-- The result of an aborted job (R104). -/
def abortedResult (j : Job) (why : AbortCause) : JobResult :=
  { number := j.number, shot := j.shot, recipe := j.recipe, made := none,
    saturation := j.saturation, conditions := j.conditions, aborted := some why }

namespace State

/-- A job's result enters the log (R104). -/
def logJob (s : State) (r : JobResult) : State :=
  { s with dev := { s.dev with log := logResult s.dev.log r } }

/-- PROOF_READY goes to the body port and, when it is among the asking ports, to the tether port
(R104). -/
def announceJob (s : State) (j : Job) (r : JobResult) : State :=
  let s1 := s.notify .body (.proofReady r)
  if j.asking.contains .tether then s1.notify .tether (.proofReady r) else s1

/-- A job has ended: its result enters the log, and PROOF_READY is sent (R104). -/
def reportJob (s : State) (j : Job) (r : JobResult) : State := (s.logJob r).announceJob j r

/-- A job leaves the queue (R95). -/
def dropJob (s : State) (j : Job) : State :=
  { s with dev := { s.dev with queue := s.dev.queue.erase j } }

/-- Set a record's proof wanted. -/
def setWanted (s : State) (shot : Nat) (w : Option Wanted) : State :=
  s.modRecord shot fun r => { r with wanted := w }

/-- A proof wanted is merged into a QUEUED job (R97). -/
def mergeAuto (s : State) (j : Job) (p : Purpose) : State :=
  s.modJob j fun k =>
    match p with
    | .card => { k with cardMark := true }
    | .relay => { k with relayMark := true }

/-- A job is appended at the tail with the next job number (R95, R96, R98). -/
def appendJob (s : State) (shot recipe : Nat) (origin : JobOrigin) (asking : List Port)
    (cardMark relayMark : Bool) : State :=
  let j : Job :=
    { number := s.dev.nextJob, shot := shot, recipe := recipe, origin := origin, asking := asking,
      cardMark := cardMark, relayMark := relayMark, state := .queued, snapshot := none,
      version := 0, rowsDone := none, conditions := .clear, saturation := 0 }
  markAttempt
    { s with dev := { s.dev with
        queue := s.dev.queue ++ [j], nextJob := nextJobNumber s.dev.nextJob } }

/-- Waiting automatic developments are merged or admitted while there is room, in ascending order
of shot number (R98); each cleared proof wanted makes the release and CARD_ONLY tests. -/
def admitFrom (s : State) (shots : List Nat) : State :=
  match shots with
  | [] => s
  | n :: rest =>
    match s.findRecord n with
    | none => admitFrom s rest
    | some r =>
      match r.wanted with
      | none => admitFrom s rest
      | some w =>
        match s.queuedJob n w.recipe with
        | some j => admitFrom (((s.mergeAuto j w.purpose).setWanted n none).releaseTests n) rest
        | none =>
          if s.dev.queue.length < 8 then
            admitFrom
              (((s.appendJob n w.recipe .auto [] (w.purpose == .card) (w.purpose == .relay)).setWanted
                n none).releaseTests n) rest
          else s

/-- The admission of R98 over the whole catalog. -/
def admitAuto (s : State) : State := s.admitFrom (s.catalog.map Record.shot)

/-- The work of a row that begins: the tone content as it stands (R93, R113). -/
def freshRow (tone : List Nat) (checksum : Sum32) : RowWork :=
  { tone := tone, read := 0, bytes := [], saturation := 0, written := 0, checksum := checksum }

/-- The engine begins the next row of a job (R101, R113). -/
def beginRow (s : State) (rec : Recipe) (checksum : Sum32) : State :=
  { s with dev := { s.dev with
      engine := .running, row := freshRow (s.toneTable rec.tone) checksum } }

/-- A job starts (R100, R18): a BUILDING version with the extents allocated. -/
def startJob (s : State) (j : Job) (r : Record) (rec : Recipe) (extents left : List Run) : State :=
  let n := newVersionNumber r
  let v : Version :=
    { number := n, recipe := j.recipe, scale := rec.scale, size := rec.scale.bytes,
      extents := extents, checksum := none, state := .building, conditions := .clear,
      collector := none }
  let s1 : State := { s with freeRuns := left }
  let s2 := s1.modRecord j.shot fun q => { q with versions := q.versions ++ [v], lastVersion := n }
  let s3 := s2.modJob j fun k =>
    { k with state := .running, snapshot := some rec, version := n, rowsDone := some 0,
             conditions := { k.conditions with rawDamaged := r.flags.damaged }, saturation := 0 }
  s3.beginRow rec 0

/-- SPACE_WAIT is set on a job that was passed over for space (R99). -/
def setSpaceWait (s : State) (j : Job) : State :=
  s.modJob j fun k => { k with conditions := { k.conditions with spaceWait := true } }

/-- Look down the queue and start the first QUEUED job that can start (R99). -/
def tryJobs (s : State) (js : List Job) : State :=
  match js with
  | [] => s
  | j :: rest =>
    if j.state = .running then tryJobs s rest
    else
      match s.findRecord j.shot with
      | none => tryJobs s rest
      | some r =>
        if 2 ≤ r.versions.length then tryJobs s rest
        else
          let rec_ := s.recipe j.recipe
          match allocate (blocksFor rec_.scale.bytes) s.freeRuns with
          | .done extents left => s.startJob j r rec_ extents left
          | .space => tryJobs (s.setSpaceWait j) rest
          | .fragmented => tryJobs (s.setSpaceWait j) rest

/-- The conditions under which an attempt starts anything (R99). -/
def mayStart (s : State) : Bool :=
  s.runningJob.isNone && s.pwc.power != .saving && !s.watermarkSignal && !s.stalledForSpace

/-- The attempt to start a job that the events of R99 in this change call for. -/
def attemptJob (s : State) : State :=
  if s.dev.attemptDue then
    let s1 : State := { s with dev := { s.dev with attemptDue := false } }
    if s1.mayStart then s1.tryJobs s1.dev.queue else s1
  else s

/-- The watermark signal is re-evaluated after a change of the FIFO or the watermark (R47, R102):
false again, a PAUSED engine goes on with the next row and an attempt is due (R99). A row in hand
is finished before a pause, so a signal that becomes true changes nothing here. -/
def signalChanged (s : State) (before : Bool) : State :=
  if before && !s.watermarkSignal then
    let s1 := s.markAttempt
    match s1.dev.engine, s1.runningJob with
    | .paused, some j =>
      match j.snapshot with
      | some rec => s1.beginRow rec s1.dev.row.checksum
      | none => s1
    | _, _ => s1
  else s

/-- The relay queue's fourth case of R140: a job ended without a version, the shot's entry is
WAITING, and no proof wanted and no job is left; proof wanted is set to the relay recipe. -/
def relayWantsProof (s : State) (shot : Nat) : State :=
  match s.findRecord shot, s.relayEntry shot with
  | some r, some e =>
    if e.state == .waiting && r.wanted.isNone && !s.hasJob shot then
      s.setWanted shot (some ⟨s.dev.relayRecipe, .relay⟩)
    else s
  | _, _ => s

/-- The data of a development transfer in progress are discarded (R105). -/
def discardDev (s : State) : State :=
  match s.arb.current with
  | some t =>
    match t.requester with
    | .devRead => { s with arb := { s.arb with current := some { t with live := false } } }
    | .devWrite => { s with arb := { s.arb with current := some { t with live := false } } }
    | .rsq => s
    | .med _ => s
    | .prt _ => s
  | none => s

/-- On ABORTED_SAVE the shot's proof wanted is restored for a job with a mark (R105). -/
def restoreWanted (s : State) (j : Job) (why : AbortCause) : State :=
  match why, s.findRecord j.shot with
  | .save, some r =>
    if r.life == .held && (j.cardMark || j.relayMark) then
      s.setWanted j.shot (some ⟨j.recipe, if j.cardMark then .card else .relay⟩)
    else s
  | _, _ => s

/-- A RUNNING job is aborted (R18, R105): it leaves the queue, the engine is IDLE, its result is
reported and its BUILDING version is freed. -/
def abortJob (s : State) (j : Job) (why : AbortCause) : State :=
  let s1 := (s.dropJob j).discardDev
  let s2 : State := { s1 with dev := { s1.dev with engine := .idle, row := RowWork.none } }
  let s3 := ((s2.restoreWanted j why).relayWantsProof j.shot).reportJob j (abortedResult j why)
  (s3.freeVersion j.shot j.version).markAttempt

/-- The abort of the running job when the part enters SAVING (R105), with the catalog's tests and
the admission of R98. -/
def abortSave (s : State) : State :=
  match s.runningJob with
  | none => s
  | some j => ((s.abortJob j .save).releaseTests j.shot).admitAuto

/-- The shot's QUEUED jobs are removed with ABORTED_DELETE (R24, R104). -/
def removeQueued (s : State) (js : List Job) (shot : Nat) : State :=
  match js with
  | [] => s
  | j :: rest =>
    if j.shot = shot && j.state = .queued then
      removeQueued ((s.dropJob j).reportJob j (abortedResult j .delete)) rest shot
    else removeQueued s rest shot

end State
end Sys2Proof.Machine
end

