-- ==== Sys2Proof/Machine/MediaOps.lean ====
section
/-! DEFINITION. The shared operations of the Media Controller (chapter 7): work and placement
(R125, R126), bursts (R127), the ends of a copy (R128 to R131), removal of a card (R121). -/
namespace Sys2Proof.Machine

/-- Sectors in a list of card runs. -/
def totalSectors (rs : List Run) : Nat :=
  match rs with
  | [] => 0
  | r :: rest => r.count + totalSectors rest

/-- The head can be placed: the first six runs hold its size (R126). -/
def fits (space : List Run) (sectors : Nat) : Bool := decide (sectors ≤ totalSectors (space.take 6))

/-- Take sectors from the head of the list (R126): the planned placement and the list left. -/
def planRuns (space : List Run) (sectors : Nat) : List Run × List Run :=
  match space with
  | [] => ([], [])
  | r :: rest =>
    if sectors = 0 then ([], r :: rest)
    else if sectors < r.count then
      ([⟨r.first, sectors⟩], ⟨r.first + sectors, r.count - sectors⟩ :: rest)
    else
      let p := planRuns rest (sectors - r.count)
      (r :: p.1, p.2)

/-- Sectors of the burst that begins `done` sectors into a placement: at most 256, within one run
(R127). -/
def burstLength (planned : List Run) (done : Nat) : Nat :=
  match planned with
  | [] => 0
  | r :: rest => if done < r.count then min Config.burstSectors (r.count - done)
                 else burstLength rest (done - r.count)

/-- Data bytes of a burst: its sectors' bytes, less what lies past the part's size (R126, R127). -/
def burstData (bytes done sectors : Nat) : Nat :=
  min (sectors * Config.sectorBytes) (bytes - done * Config.sectorBytes)

/-- A fault log keeps the 8 most recent entries (R135). -/
def logFault (l : List FaultEntry) (e : FaultEntry) : List FaultEntry :=
  (if l.length < 8 then l else l.drop 1) ++ [e]

/-- The done state that a copy of a DELETING shot takes when it ends without being WRITTEN: a free
choice among the done states R25 leaves open (log entry 15). -/
def discardedCopyState (n : Nat) : CopyState :=
  match Config.discardedCopyPick n % 3 with
  | 0 => .failed
  | 1 => .abandoned
  | _ => .notRequired

namespace State

/-- Change a copy entry of a record. -/
def modCopy (s : State) (shot : Nat) (x : Slot) (p : Part) (f : Copy → Copy) : State :=
  s.modRecord shot fun r => { r with copies := r.copies.set x p (f (r.copies.get x p)) }

/-- The planned placement of the copy in flight on a slot. -/
def plannedRuns (s : State) (x : Slot) : List Run :=
  match (s.slot x).flight with
  | some f => f.planned
  | none => []

/-- A copy starts (R126): it takes its planned placement, becomes WRITING, and the slot BUSY; the
slot's timeout range and verify setting are held for it. -/
def startCopy (s : State) (x : Slot) (r : Record) (part : Part) : State :=
  let version := (r.copies.get x part).version
  let p := planRuns (s.slot x).space (sectorsFor (r.partBytes part version))
  let f : Flight :=
    { shot := r.shot, part := part, version := version, planned := p.1,
      timeout := (s.slot x).timeout, verify := (s.slot x).verify, phase := .filling,
      sectorsDone := 0, burst := [], check := .zero }
  (s.setSlot x { s.slot x with state := .busy, space := p.2, flight := some f }).modCopy
    r.shot x part fun c => { c with state := .writing }

/-- A slot chooses its work (R125): READY with none, the head started when it can be placed,
STARVED otherwise. Nothing is chosen while SAVING or while the card is re-initialised (R132). -/
def chooseWork (s : State) (x : Slot) : State :=
  if ((s.slot x).state == .ready || (s.slot x).state == .starved) && s.pwc.power != .saving &&
      (s.slot x).reinit.isNone then
    match s.slotWork x with
    | [] => s.setSlot x { s.slot x with state := .ready }
    | (shot, part) :: _ =>
      match s.findRecord shot with
      | none => s
      | some r =>
        if fits (s.slot x).space
            (sectorsFor (r.partBytes part (r.copies.get x part).version)) &&
            decide (0 < r.partBytes part (r.copies.get x part).version) then
          s.startCopy x r part
        else s.setSlot x { s.slot x with state := .starved }
  else s

/-- Both slots choose. -/
def chooseBoth (s : State) : State := (s.chooseWork .a).chooseWork .b

/-- Copies of a part are set PENDING on the slots the mode in force requires (R13, R19, R120). -/
def requireCopies (s : State) (shot : Nat) (part : Part) (version : Option Nat) : State :=
  let aFull := s.med.a.state == .full
  s.modRecord shot fun r =>
    let c1 := if requiredOn s.med.mode aFull part .a then
        r.copies.set .a part (.pendingFor version) else r.copies
    let c2 := if requiredOn s.med.mode aFull part .b then
        c1.set .b part (.pendingFor version) else c1
    { r with copies := c2 }

/-- SAVE_DONE is sent once RSQ is OFF and no copy is in flight in SAVING (R168). -/
def saveTest (s : State) : State :=
  if s.pwc.power == .saving && !s.pwc.done && s.savedQuiet then
    ({ s with pwc := { s.pwc with done := true } } : State).notify .body
      (.saveDone (s.slotWork .a).length (s.slotWork .b).length)
  else s

/-- The data of a copy's transfer in progress are discarded (R121). -/
def discardMed (s : State) (x : Slot) : State :=
  match s.arb.current with
  | some t =>
    if t.requester = .med x then { s with arb := { s.arb with current := some { t with live := false } } }
    else s
  | none => s

/-- The slot has no copy in flight any more and takes a new state. -/
def endFlight (s : State) (x : Slot) (st : SlotState) : State :=
  s.setSlot x { s.slot x with state := st, flight := none }

/-- What follows the end of a copy: for a DELETING shot R25, otherwise the catalog's tests. -/
def copyEnded (s : State) (f : Flight) : State :=
  match s.findRecord f.shot with
  | none => s
  | some r =>
    if r.life = .deleting then s.settleDeleting f.shot f.part f.version else s.releaseTests f.shot

/-- The copy in flight becomes WRITTEN (R128, R137): CARD_WRITTEN, or CARD_DISCARD for a DELETING
shot (R25), the catalog's tests, and the slot chooses. In SAVING, where it does not choose, the slot is
READY until RESUME even with work left (DESIGN CHOICE, safe, log entry 42). -/
def copyWritten (s : State) (x : Slot) (f : Flight) (unverified : Bool) : State :=
  let deleting : Bool :=
    match s.findRecord f.shot with
    | some r => r.life == .deleting
    | none => false
  let s1 := (s.endFlight x .ready).modCopy f.shot x f.part fun c =>
    { c with state := .written, placement := some f.planned, unverified := unverified }
  let s2 := s1.copyEnded f
  let s3 :=
    if deleting then s2.notify .body (.cardDiscard x f.shot f.part f.planned)
    else s2.notify .body (.cardWritten x f.shot f.part f.version f.planned unverified)
  s3.chooseWork x

/-- A copy failed (R129, R130): its placement is given up and its attempts go up by one; at 2 it is
FAILED, otherwise PENDING again; for a DELETING shot it becomes done without a retry (R25; log entry
15). CARD_FAULT is sent and logged (R135). -/
def copyFailed (s : State) (x : Slot) (f : Flight) (why : FaultReason) (after : SlotState) : State :=
  match s.findRecord f.shot with
  | none => s.endFlight x after
  | some r =>
    let attempts := (r.copies.get x f.part).attempts + 1
    let failed := decide (2 ≤ attempts)
    let next : CopyState :=
      if failed then .failed
      else if r.life = .deleting then discardedCopyState s.freeCount else .pending
    let e : FaultEntry :=
      { shot := f.shot, part := f.part, reason := why, runs := f.planned, attempts := attempts,
        failed := failed }
    let s0 := if r.life = .deleting then s.fresh else s
    let s1 := (s0.endFlight x after).modCopy f.shot x f.part fun c =>
      { c with state := next, attempts := attempts, placement := none }
    let s2 := s1.setSlot x { s1.slot x with faults := logFault (s1.slot x).faults e }
    ((s2.copyEnded f).notify .body (.cardFault x e)).chooseWork x

/-- The writing of a copy is complete (R128): WRITTEN unverified when verify is off or the part is
SAVING (R137), otherwise VERIFYING. -/
def writingDone (s : State) (x : Slot) (f : Flight) : State :=
  if !f.verify || s.pwc.power == .saving then s.copyWritten x f true
  else
    (s.setSlot x { s.slot x with
        flight := some { f with phase := .verifying s.now, sectorsDone := 0, burst := [],
                                check := .zero } }).modCopy f.shot x f.part
      fun c => { c with state := .verifying, placement := some f.planned }

/-- The slot re-initialisation ends with the card removed or not answering: the SLOT_RESET reply is
STATE if the request still waits (R132). -/
def endReinit (s : State) (x : Slot) (st : Status) : State :=
  match (s.slot x).reinit with
  | none => s
  | some r =>
    let s1 := s.setSlot x { s.slot x with reinit := none }
    if r.asked then s1.formReply .body st .empty else s1

/-- A card is removed (R121, R131, R132): the slot is ABSENT with an empty list, a copy in flight
returns to PENDING with its attempts unchanged or, for a DELETING shot, becomes done (R25). -/
def removeCard (s : State) (x : Slot) : State :=
  let s0 := s.endReinit x .state
  match (s0.slot x).flight with
  | none => s0.setSlot x { s0.slot x with state := .absent, space := [] }
  | some f =>
    let s1 := (s0.discardMed x).setSlot x
      { s0.slot x with state := .absent, space := [], flight := none }
    match s1.findRecord f.shot with
    | none => s1
    | some r =>
      if r.life = .deleting then
        ((s1.fresh).modCopy f.shot x f.part fun c =>
          { c with state := discardedCopyState s1.freeCount, placement := none }).settleDeleting
            f.shot f.part f.version
      else s1.modCopy f.shot x f.part fun c => { c with state := .pending, placement := none }

/-- A card is detected in an ABSENT slot (R121): READY with an empty list and fault log; the slot
chooses. -/
def insertCard (s : State) (x : Slot) : State :=
  if (s.slot x).state = .absent then
    (s.setSlot x { s.slot x with state := .ready, space := [], faults := [] }).chooseWork x
  else s

end State
end Sys2Proof.Machine
end

