-- ==== Sys2Proof/Machine/SendOps.lean ====
section
/-! DEFINITION. The shared operations of the Send Queues (chapter 8). -/
namespace Sys2Proof.Machine

/-- Change the relay entry of a shot in its place (R138). -/
def modRelayList (l : List RelayEntry) (shot : Nat) (f : RelayEntry → RelayEntry) : List RelayEntry :=
  l.map fun e => if e.shot = shot then f e else e

/-- Change the tether entry of a shot in its place (R143). -/
def modTetherList (l : List TetherEntry) (shot : Nat) (f : TetherEntry → TetherEntry) :
    List TetherEntry :=
  l.map fun e => if e.shot = shot then f e else e

namespace State

/-- Change the relay entry of a shot and the record's relay state. -/
def modRelay (s : State) (shot : Nat) (st : RelayState) (f : RelayEntry → RelayEntry) : State :=
  ({ s with snq := { s.snq with relay := modRelayList s.snq.relay shot f } } : State).modRecord shot
    fun r => { r with relay := st }

/-- A relay entry leaves the queue (R138, R139, R142): the SEND tags are cleared and the relay
state is as stated. -/
def removeRelay (s : State) (shot : Nat) (st : RelayState) : State :=
  ({ s with snq := { s.snq with relay := s.snq.relay.filter fun e => e.shot != shot } } :
    State).modRecord shot
    fun r => { r with relay := st, tags := { r.tags with send := false, priority := false } }

/-- A relay entry is appended at the tail (R139, R140): READY with SEND_READY when the shot has a
CURRENT version; otherwise WAITING, and proof wanted is set to the relay recipe when the shot has
neither proof wanted nor a job. -/
def appendRelay (s : State) (r : Record) (cls : SendClass) : State :=
  let ready := r.current.isSome
  let e : RelayEntry :=
    { shot := r.shot, cls := cls, state := if ready then .ready else .waiting, failures := 0,
      version := none }
  let s1 := ({ s with snq := { s.snq with relay := s.snq.relay ++ [e] } } : State).modRecord r.shot
    fun q => { q with relay := .queued,
                      tags := { q.tags with send := true, priority := cls == .priority } }
  if ready then s1.notify .relay (.sendReady r.shot false)
  else (s1.relayWantsProof r.shot).admitAuto

/-- A job of the shot has completed: a WAITING relay entry becomes READY (R140). -/
def relayReady (s : State) (shot : Nat) : State :=
  match s.relayEntry shot with
  | none => s
  | some e =>
    if e.state = .waiting then
      ({ s with snq := { s.snq with
          relay := modRelayList s.snq.relay shot fun e => { e with state := .ready } } } :
        State).notify .relay (.sendReady shot false)
    else s

/-- A tether entry leaves the queue with the tether state stated (R144, R145). -/
def removeTether (s : State) (shot : Nat) (st : TetherState) : State :=
  ({ s with snq := { s.snq with tether := s.snq.tether.filter fun e => e.shot != shot } } :
    State).modRecord shot fun r => { r with tether := st }

/-- At end of readout, with auto-transfer on and the tether attached, the shot is appended to the
tether queue or, when the queue is full, MISSED (R13, R143). -/
def autoTransfer (s : State) (shot : Nat) : State :=
  if s.snq.auto && s.prt.attached then
    if s.snq.tether.length < 32 then
      (({ s with snq := { s.snq with tether := s.snq.tether ++ [⟨shot, false, 0⟩] } } :
        State).modRecord shot fun r => { r with tether := .queued }).notify .tether
          (.transferReady shot)
    else
      ((s.modRecord shot fun r => { r with tether := .missed }).notify .tether
        (.transferMissed shot)).notify .body (.transferMissed shot)
  else s

/-- Relay entries IN_FLIGHT (R141). -/
def relayInFlight (s : State) : Nat :=
  (s.snq.relay.filter fun e => e.state == .inFlight).length

/-- Tether entries IN_FLIGHT (R144). -/
def tetherInFlight (s : State) : Nat := (s.snq.tether.filter fun e => e.inFlight).length

/-- The READY relay entry that SEND_NEXT takes: PRIORITY first, in tag order (R141). -/
def nextRelay (s : State) : Option RelayEntry :=
  match s.snq.relay.find? fun e => e.state == .ready && e.cls == .priority with
  | some e => some e
  | none => s.snq.relay.find? fun e => e.state == .ready

end State
end Sys2Proof.Machine
end

