-- ==== Sys2Proof/Machine/DramOps.lean ====
section
/-! DEFINITION. The DRAM arbiter (R8): who waits for a transfer, which transfer is granted, and
what a completed transfer does. A transfer takes as many bytes as the 4 KiB bound and the extent
allow (DEDUCED, safe, log entry 5). -/
namespace Sys2Proof.Machine

/-- The samples of the row whose turn it is to be written: the head of the FIFO, or the shadow of
its phase for a row that was lost (R48). -/
def State.rowSource (s : State) : Option (List Sample) :=
  if s.rsq.owed.head? = some s.rsq.rowsWritten then
    some (if s.rsq.rowsWritten % 2 = 0 then s.rsq.shadowEven else s.rsq.shadowOdd)
  else
    match s.rsq.fifo with
    | [] => none
    | r :: _ => if r.row = s.rsq.rowsWritten then some r.samples else none

/-- A transfer of at most `want` bytes at byte `off` of a part. -/
def transferAt (q : Requester) (extents : List Run) (off want : Nat) : Option Transfer :=
  if want = 0 then none
  else
    match locate extents off with
    | none => none
    | some (a, left) => some ⟨q, a, min (min Config.maxTransfer want) left, true⟩

/-- The output bytes of one row of a scale (R114). -/
def Scale.rowBytes (s : Scale) : Nat := 3 * s.columns

/-- The raw bytes one output row is made from (R108). -/
def Scale.sourceBytes (s : Scale) : Nat := Config.rowBytes * s.factor

namespace State

/-- Class 1: the row in its turn, from the FIFO or a replacement, into the raw (R8, R44, R48). -/
def wantRsq (s : State) : Option Transfer :=
  match s.rowSource, s.rsq.frame with
  | some _, some f =>
    match s.findRecord f.shot with
    | some r =>
      transferAt .rsq r.raw.extents (Config.rowBytes * s.rsq.rowsWritten + s.rsq.rowBytes)
        (Config.rowBytes - s.rsq.rowBytes)
    | none => none
  | _, _ => none

/-- Class 2: data read for the card burst being filled (R8, R127). -/
def wantMed (s : State) (x : Slot) : Option Transfer :=
  match (s.slot x).flight with
  | some f =>
    match f.phase, s.findRecord f.shot with
    | .filling, some r =>
      transferAt (.med x) (r.extents f.part f.version)
        (f.sectorsDone * Config.sectorBytes + f.burst.length)
        (burstData (r.partBytes f.part f.version) f.sectorsDone
          (burstLength f.planned f.sectorsDone) - f.burst.length)
    | _, _ => none
  | none => none

/-- Class 3: data gathered for a READ reply (R8, R158). -/
def wantPrt (s : State) (p : Port) : Option Transfer :=
  match (s.port p).request with
  | some o =>
    match o.stage with
    | .gathering g =>
      match s.findRecord g.shot with
      | some r =>
        transferAt (.prt p) (r.extents g.part g.version) (g.offset + g.got.length)
          (g.length - g.got.length)
      | none => none
    | .answered => none
    | .resetting _ => none
    | .wakeHeld => none
  | none => none

/-- Class 4: raw data read for the row in hand, then its bytes written (R8, R101). -/
def wantDev (s : State) : Option Transfer :=
  if s.dev.engine = .running then
    match s.runningJob with
    | some j =>
      match j.snapshot, s.findRecord j.shot with
      | some rec, some r =>
        if s.dev.row.read < rec.scale.sourceBytes then
          transferAt .devRead r.raw.extents (rec.scale.sourceBytes * j.rows + s.dev.row.read)
            (rec.scale.sourceBytes - s.dev.row.read)
        else
          transferAt .devWrite (r.extents .proof (some j.version))
            (rec.scale.rowBytes * j.rows + s.dev.row.written)
            (rec.scale.rowBytes - s.dev.row.written)
      | _, _ => none
    | none => none
  else none

/-- The class-2 transfer: slots A and B alternate when both wait (R8). -/
def wantClass2 (s : State) : Option Transfer :=
  match s.arb.lastSlot with
  | .b => (s.wantMed .a).orElse fun _ => s.wantMed .b
  | .a => (s.wantMed .b).orElse fun _ => s.wantMed .a

/-- The class-3 transfer: body, tether, relay in rotation after the port served last (R8). -/
def wantClass3 (s : State) : Option Transfer :=
  let b := s.wantPrt .body
  let t := s.wantPrt .tether
  let r := s.wantPrt .relay
  match s.arb.lastPort with
  | .relay => b.orElse fun _ => t.orElse fun _ => r
  | .body => t.orElse fun _ => r.orElse fun _ => b
  | .tether => r.orElse fun _ => b.orElse fun _ => t

/-- The waiting requester of the highest class (R8). -/
def nextTransfer (s : State) : Option Transfer :=
  s.wantRsq.orElse fun _ => s.wantClass2.orElse fun _ => s.wantClass3.orElse fun _ => s.wantDev

/-- Grant the next transfer when the DRAM is idle (R8). -/
def grant (s : State) : State :=
  match s.arb.current with
  | some _ => s
  | none =>
    match s.nextTransfer with
    | none => s
    | some t =>
      { s with arb :=
        { current := some t,
          lastSlot := match t.requester with
            | .med x => x
            | .rsq => s.arb.lastSlot
            | .prt _ => s.arb.lastSlot
            | .devRead => s.arb.lastSlot
            | .devWrite => s.arb.lastSlot
          lastPort := match t.requester with
            | .prt p => p
            | .rsq => s.arb.lastPort
            | .med _ => s.arb.lastPort
            | .devRead => s.arb.lastPort
            | .devWrite => s.arb.lastPort } }

/-- The end of a change: the attempt to start a job that its events call for (R99), then the
arbiter grants (R8). -/
def settle (s : State) : State := s.attemptJob.grant

/-- The FIFO row or the replacement in hand has been written whole (R47 to R49): the shadow of its
phase and the checksum take it. -/
def rowWritten (s : State) (samples : List Sample) : State :=
  let k := s.rsq.rowsWritten
  let replaced := decide (s.rsq.owed.head? = some k)
  { s with rsq := { s.rsq with
      rowsWritten := k + 1, rowBytes := 0,
      rawSum := s.rsq.rawSum + sampleSum samples,
      shadowEven := if k % 2 = 0 then samples else s.rsq.shadowEven,
      shadowOdd := if k % 2 = 0 then s.rsq.shadowOdd else samples,
      owed := if replaced then s.rsq.owed.drop 1 else s.rsq.owed,
      fifo := if replaced then s.rsq.fifo else s.rsq.fifo.drop 1 } }

/-- A class-1 transfer completes (R44, R47, R48). -/
def doneRsq (s : State) (t : Transfer) : State :=
  match s.rowSource with
  | none => s
  | some samples =>
    let bytes := ((packRow samples).drop s.rsq.rowBytes).take t.length
    let s1 : State := { s with dram := Memory.writeBytes s.dram t.addr bytes }
    if s.rsq.rowBytes + t.length < Config.rowBytes then
      { s1 with rsq := { s1.rsq with rowBytes := s1.rsq.rowBytes + t.length } }
    else (s1.rowWritten samples).signalChanged s.watermarkSignal

/-- A class-2 transfer completes (R127): with the last data of the burst the pad is added after
the final data and the card is busy from now (log entry 16). -/
def doneMed (s : State) (x : Slot) (t : Transfer) : State :=
  match (s.slot x).flight with
  | none => s
  | some f =>
    match s.findRecord f.shot with
    | none => s
    | some r =>
      let burst := f.burst ++ Memory.readBytes s.dram t.addr t.length
      let sectors := burstLength f.planned f.sectorsDone
      let need := burstData (r.partBytes f.part f.version) f.sectorsDone sectors
      if burst.length < need then
        s.setSlot x { s.slot x with flight := some { f with burst := burst } }
      else
        s.setSlot x { s.slot x with
          flight := some { f with
            burst := burst ++ List.replicate (sectors * Config.sectorBytes - burst.length) 0,
            phase := .cardBusy s.now } }

/-- A class-3 transfer completes (R158). -/
def donePrt (s : State) (p : Port) (t : Transfer) : State :=
  match (s.port p).request with
  | some o =>
    match o.stage with
    | .gathering g =>
      s.setStage p (.gathering { g with got := g.got ++ Memory.readBytes s.dram t.addr t.length })
    | .answered => s
    | .resetting _ => s
    | .wakeHeld => s
  | none => s

/-- A class-4 read completes (R108): with the last sensor bytes of the row, the row is computed
with the tone content it began with (R113). -/
def doneDevRead (s : State) (t : Transfer) : State :=
  match s.runningJob with
  | none => s
  | some j =>
    match j.snapshot, s.findRecord j.shot with
    | some rec, some r =>
      let read := s.dev.row.read + t.length
      let row := { s.dev.row with read := read }
      if read < rec.scale.sourceBytes then { s with dev := { s.dev with row := row } }
      else
        let made := developRow rec s.dev.row.tone (rawRowsFor s.dram r.raw.extents rec.scale j.rows)
        { s with dev := { s.dev with row := { row with bytes := made.1, saturation := made.2 } } }
    | _, _ => s

/-- A class-4 write completes (R114). -/
def doneDevWrite (s : State) (t : Transfer) : State :=
  let bytes := (s.dev.row.bytes.drop s.dev.row.written).take t.length
  { s with
    dram := Memory.writeBytes s.dram t.addr bytes,
    dev := { s.dev with row := { s.dev.row with written := s.dev.row.written + t.length } } }

/-- What a completed transfer does; a discarded one does nothing (R105, R121, R158). -/
def transferDone (s : State) (t : Transfer) : State :=
  let s1 : State := { s with arb := { s.arb with current := none } }
  if t.live then
    match t.requester with
    | .rsq => s1.doneRsq t
    | .med x => s1.doneMed x t
    | .prt p => s1.donePrt p t
    | .devRead => s1.doneDevRead t
    | .devWrite => s1.doneDevWrite t
  else s1

/-- The data of the sequencer's transfer in progress are discarded (log entry 5). -/
def discardRsq (s : State) : State :=
  match s.arb.current with
  | some t =>
    if t.requester = .rsq then { s with arb := { s.arb with current := some { t with live := false } } }
    else s
  | none => s

/-- The data of a port's transfer in progress are discarded (R158). -/
def discardPrt (s : State) (p : Port) : State :=
  match s.arb.current with
  | some t =>
    if t.requester = .prt p then { s with arb := { s.arb with current := some { t with live := false } } }
    else s
  | none => s

/-- The outcome of serving reaches the port; a wait that gathers data asks the arbiter (R8). -/
def settleRequest (s : State) (p : Port) (v : Served) : State :=
  match v with
  | .answer st pl => s.formReply p st pl
  | .waits g => (s.setStage p g).grant

/-- A frame that has passed R149 and names request `k` (R150): dropped when the reply list holds 5
entries; answered BUSY while a request is outstanding, DENIED when the port may not send it;
otherwise taken and served by the block that owns it. -/
def takeRequest (s : State) (p : Port) (tag : Byte) (k : RequestKind)
    (serve : State → State × Served) : State :=
  if !s.hears p then s
  else if 5 ≤ (s.port p).replies.length then s
  else if (s.port p).request.isSome then s.answerFrame p (.request k) tag .busy
  else if !permitted k p s.prt.remoteDelete then s.answerFrame p (.request k) tag .denied
  else
    let r := serve (s.openRequest p k tag)
    r.1.settleRequest p r.2

end State
end Sys2Proof.Machine
end

