-- ==== Sys2Proof/Machine/CaptureOps.lean ====
section
/-! DEFINITION. The shared operations of the Readout Sequencer (chapter 2) and the Phase
Correlator's part in a frame (R57, R66): program entries, ends of frames, abandonment, OFF. -/
namespace Sys2Proof.Machine.State

/-! ### Phase Correlator in a frame -/

/-- The sample store is emptied and the PD entry's snapshot dropped (R57). -/
def emptyStore (s : State) : State :=
  { s with phc := { s.phc with snapshot := none, store := [] } }

/-- A PD entry starts (R30, R55, R57): the snapshot of setup and focus area, the span start, an empty
store and a count of 0; the sensor stands at the first pair of the area's band. -/
def startPd (s : State) : State :=
  { s with phc := { s.phc with
      snapshot := some ⟨s.phc.setup, s.fdr.area, spanStart s.phc.setup s.fdr.area⟩,
      pairPtr := bandStart s.fdr.area, store := [], pairs := 0 } }

/-- The pair at the pair pointer arrives (R54, R55, R57): counted, and stored if within the first N;
the next pair of the sensor follows. -/
def takePair (s : State) (left right : List Sample) : State :=
  match s.phc.snapshot with
  | none => s
  | some snap =>
    { s with phc := { s.phc with
        pairPtr := s.phc.pairPtr + 1,
        pairs := s.phc.pairs + 1,
        store :=
          if s.phc.pairs < snap.setup.n then
            s.phc.store ++ [(spanSamples snap.setup snap.spanStart left,
                             spanSamples snap.setup snap.spanStart right)]
          else s.phc.store } }

/-- PD-done (R66): the correlator measures, replaces its record and its curve, and hands the
measurement to FDR, which writes a still frame's focus record (R85). The store is emptied and the
snapshot dropped with the measurement (DESIGN CHOICE, safe, log entry 38). -/
def pdDone (s : State) (f : Frame) : State :=
  match s.phc.snapshot with
  | none => s
  | some snap =>
    let shot : Option Nat :=
      match f.kind with
      | .still => some f.shot
      | .view => none
    let m := measure snap s.phc.store s.phc.pairs s.now f.kind shot
    let curve := keptCurve snap s.phc.store s.phc.pairs
    applyMeasurement
      { s with phc := { s.phc with
          number := nextNumber s.phc.number, record := some m, curve := curve, snapshot := none,
          store := [] } } m

/-! ### OFF, abandonment and waking (R31 to R33) -/

/-- RSQ goes to OFF, recording whether it came from HOLD (R32, R33); any focus session ends and the
pending link transactions are dropped (R89). -/
def goOff (s : State) (fromHold : Bool) : State :=
  (({ s.setSeq .off with
      rsq := { (s.setSeq .off).rsq with fromHold := fromHold, frame := none, fifo := [], owed := [] } } :
    State).emptyStore.endSession).dropPending

/-- RSQ leaves OFF for HOLD if it had come from HOLD, and for IDLE otherwise; no view frame has
started (R32, R50). -/
def leaveOff (s : State) : State :=
  { s with rsq := { s.rsq with
      state := if s.rsq.fromHold then .hold else .idle, lastView := none } }

/-- A view frame is abandoned: its rows stop and a PD entry in progress gives no measurement
(R31). -/
def abandonView (s : State) : State :=
  if s.rsq.state = .view then
    ({ s with rsq := { s.rsq with state := .idle, frame := none } } : State).emptyStore
  else s

/-- The line FIFO is emptied and what is owed is dropped (R31, R47); the watermark signal is
re-evaluated. -/
def emptyFifo (s : State) : State :=
  (({ s with rsq := { s.rsq with fifo := [], owed := [], rowBytes := 0 } } : State).discardRsq).signalChanged
    s.watermarkSignal

/-- A still frame is abandoned by SEQ_HOLD (R12, R31): its record is removed and its raw freed, its
number stays taken. -/
def abandonStill (s : State) : State :=
  match s.rsq.frame with
  | none => s
  | some f =>
    (({ s with rsq := { s.rsq with frame := none } } : State).emptyStore.emptyFifo).removeRecord f.shot

/-! ### Program entries (R30) -/

/-- The view frame's IMAGE total (R88). -/
def viewRows (s : State) : Nat := (programTotals s.rsq.program s.rsq.viewStart).image

/-- A view frame reaches END (R50): back to IDLE, or to OFF while SAVING (R33), and FDR is given
the predicted midpoint of the next view exposure (R51). -/
def endView (s : State) (f : Frame) : State :=
  let s1 := ({ s with rsq := { s.rsq with state := .idle, frame := none } } : State).giveMidpoint
    (f.start + BitVec.ofNat 32 (viewPeriod f.rate) + BitVec.ofNat 32 (f.exposure / 2))
  if s1.pwc.power = .saving then (s1.goOff false).saveTest else s1

/-- The next entry begins (R30): a PD entry starts the correlator, END ends the frame. -/
def enterEntry (s : State) (f : Frame) (index : Nat) : State :=
  match s.rsq.program[index]? with
  | some e =>
    match e.kind with
    | .stop =>
      match f.kind with
      | .still => { s with rsq := { s.rsq with frame := some { f with program := .ended } } }
      | .view => s.endView f
    | .pd =>
      ({ s with rsq := { s.rsq with
          frame := some { f with program := .running index 0 s.now } } } : State).startPd
    | .image =>
      { s with rsq := { s.rsq with frame := some { f with program := .running index 0 s.now } } }
    | .skip =>
      { s with rsq := { s.rsq with frame := some { f with program := .running index 0 s.now } } }
    | .idle =>
      { s with rsq := { s.rsq with frame := some { f with program := .running index 0 s.now } } }
  | none =>
    match f.kind with
    | .still => { s with rsq := { s.rsq with frame := some { f with program := .ended } } }
    | .view => s.endView f

/-- Line times of an entry (R30). -/
def lineTimes (e : Entry) : Nat :=
  match e.kind with
  | .image => e.count
  | .skip => 1
  | .pd => e.count
  | .idle => e.count
  | .stop => 0

/-- A program entry has had its rows or pairs and its line times of 5 µs (R30). -/
def entryOver (s : State) (e : Entry) (lines : Nat) (since : Time) : Bool :=
  reached (since + BitVec.ofNat 32 (5 * lineTimes e)) s.now &&
    match e.kind with
    | .image => lines == e.count
    | .pd => lines == e.count
    | .skip => true
    | .idle => true
    | .stop => true

/-! ### Bursts (R34, R35) -/

/-- A burst is accepted (R34): the view frame in progress is abandoned, the burst record is filled,
and the edge latch is emptied (R46). -/
def acceptBurst (s : State) (origin : Origin) (count exposure interval : Nat) : State :=
  let s1 := s.abandonView
  { s1 with rsq := { s1.rsq with
      latch := false,
      nextBurst := if 65535 ≤ s1.rsq.nextBurst then 1 else s1.rsq.nextBurst + 1,
      burst :=
        { active := true, id := s1.rsq.nextBurst, origin := origin, count := count,
          exposure := exposure, interval := interval, started := 0, completed := 0,
          stopMark := false, due := s1.now, missed := false } } }

/-- A new burst could start: IDLE with no burst active, or VIEW (R35, R36). -/
def burstReady (s : State) : Bool :=
  !s.rsq.burst.active && (s.rsq.state == .idle || s.rsq.state == .view)

/-- A trigger edge as a shutter request in MASTER mode (R36). -/
def triggerShutter (s : State) : State :=
  if s.rsq.syncMode = .master && s.rsq.settings.trigger && s.burstReady then
    s.acceptBurst .trigger 1 s.rsq.settings.triggerExposure 50
  else s

/-- An edge in SLAVE mode (R46). -/
def slaveEdge (s : State) : State :=
  if !s.rsq.burst.active then s
  else if s.rsq.state = .idle && !s.rsq.latch then
    { s with rsq := { s.rsq with latch := true } }
  else { s with rsq := { s.rsq with burst := { s.rsq.burst with missed := true } } }

/-- The record becomes HELD at the end of readout (R13). -/
def holdRecord (s : State) (f : Frame) (r : Record) : State :=
  let s1 := s.modRecord f.shot fun q =>
    { q with life := .held, raw := { q.raw with state := .present, checksum := some s.rsq.rawSum } }
  let s2 := s1.requireCopies f.shot .raw none
  let s3 := if s2.med.cardProof then s2.setWanted f.shot (some ⟨s2.dev.cardRecipe, .card⟩) else s2
  ((((s3.autoTransfer f.shot).notifyBodyTether (.shotCaptured f.shot r.burst r.frame)).releaseTests
    f.shot).admitAuto).chooseBoth

/-- The burst goes on or ends after a frame (R33, R39, R44). -/
def afterFrame (s : State) (f : Frame) : State :=
  let b := s.rsq.burst
  let limit := if b.count = 0 then 255 else b.count
  if s.pwc.power = .saving then ((s.endBurst .save).goOff false).saveTest
  else if limit ≤ b.started then (s.endBurst .count).setSeq .idle
  else if b.stopMark then (s.endBurst .stop).setSeq .idle
  else
    let due := laterOf (f.start + BitVec.ofNat 32 (b.interval * 1000)) s.now
    ({ s.setSeq .idle with
        rsq := { (s.setSeq .idle).rsq with burst := { b with due := due } } } : State).giveMidpoint
      (due + BitVec.ofNat 32 (b.exposure / 2))

end Sys2Proof.Machine.State
end

