-- ==== Sys2Proof/Machine/PowerOps.lean ====
section
/-! DEFINITION. The shared operations of Power Control (chapter 10) and the requests that a wake
holds: BURST_START (R35) and FOCUS_START (R76). -/
namespace Sys2Proof.Machine.State

/-- WAKING is entered (R165, R166): the source, the time and the wait it began with. -/
def enterWaking (s : State) (source : WakeSource) : State :=
  { s with pwc := { s.pwc with
      power := .waking, wake := some ⟨source, s.now, s.pwc.settings.stabilise⟩ } }

/-- An item enters the held list (R166). -/
def hold (s : State) (h : Held) : State := { s with pwc := { s.pwc with held := s.pwc.held ++ [h] } }

/-- BURST_START by the sequencer's state (R35). -/
def serveBurst (s : State) (p : Port) (f : BurstFields) : State × Served :=
  let exposure := clamp 31 30000000 f.exposure
  let interval := clamp 50 60000 f.interval
  let origin : Origin :=
    match p with
    | .body => .body
    | .tether => .tether
    | .relay => .tether
  if s.rsq.burst.active then refuse s .busy
  else if s.burstReady then
    (s.acceptBurst origin f.count exposure interval,
      .answer .ok (.burst s.rsq.nextBurst exposure interval))
  else refuse s .state

/-- FOCUS_START in ACTIVE (R71, R76): a LOST link is identified again, then a new session begins. -/
def serveFocus (s : State) (mode : Option (Choice FocusMode)) : State × Served :=
  if badChoice mode then badField s 1
  else
    let s1 : State := { s with fdr := { s.fdr with mode := pick s.fdr.mode mode } }
    let s2 := s1.retryLost.startSession
    okWith s2 (.focus s2.fdr.mode s2.fdr.state)

/-- A request that is a wake source, by the power state (R165, R166): held in STANDBY when the
request enable is on, held in WAKING, refused in SAVING, served in ACTIVE. -/
def wakeRequest (s : State) (h : Held) (serve : State → State × Served) : State × Served :=
  match s.pwc.power with
  | .active => serve s
  | .saving => refuse s .saving
  | .waking => (s.hold h, .waits .wakeHeld)
  | .standby =>
    if s.pwc.settings.request then ((s.enterWaking .request).hold h, .waits .wakeHeld)
    else refuse s .state

/-- Items of the held list served in the order of arrival (R166). -/
def serveHeld (s : State) (l : List Held) : State :=
  match l with
  | [] => s
  | .burst p f :: rest =>
    let r := s.serveBurst p f
    serveHeld (r.1.settleRequest p r.2) rest
  | .focus p m :: rest =>
    let r := s.serveFocus m
    serveHeld (r.1.settleRequest p r.2) rest
  | .edge :: rest => serveHeld s.triggerShutter rest

/-- Held requests answered SAVING when the power-low line ends a wake (R166). -/
def refuseHeld (s : State) (l : List Held) : State :=
  match l with
  | [] => s
  | .burst p _ :: rest => refuseHeld (s.formReply p .saving .empty) rest
  | .focus p _ :: rest => refuseHeld (s.formReply p .saving .empty) rest
  | .edge :: rest => refuseHeld s rest

end Sys2Proof.Machine.State

namespace Sys2Proof.Machine

/-- A held item belongs to a port's request. -/
def Held.ofPort (p : Port) (h : Held) : Bool :=
  match h with
  | .burst q _ => q == p
  | .focus q _ => q == p
  | .edge => false

end Sys2Proof.Machine

namespace Sys2Proof.Machine.State

/-- Half-press asserted, in ACTIVE (R71, R76): a LOST link is identified again, and a session
starts from OFF. -/
def halfPress (s : State) : State :=
  let s1 := s.retryLost
  if s1.fdr.state = .off then s1.startSession else s1

/-- RSQ's reaction to the power-low line (R33, R42). -/
def saveCapture (s : State) : State :=
  match s.rsq.state with
  | .hold => s.goOff true
  | .idle =>
    if s.rsq.burst.active then (s.endBurst .save).goOff false else s.goOff false
  | .stalled _ => (s.endBurst .save).goOff false
  | .focusWait => s.markExpired.enterExpose
  | .view => s
  | .expose => s
  | .readout => s
  | .off => s

/-- A slot's reaction to the power-low line (R137): a VERIFYING copy becomes WRITTEN with its
unverified flag set. -/
def saveSlot (s : State) (x : Slot) : State :=
  match (s.slot x).flight with
  | none => s
  | some f =>
    match f.phase with
    | .verifying _ => s.copyWritten x f true
    | .filling => s
    | .cardBusy _ => s

/-- The part enters SAVING (R166, R167, R168). -/
def enterSaving (s : State) : State :=
  let s1 : State := { s with pwc := { s.pwc with
    power := .saving, savedFrom := s.pwc.power, done := false, wake := none, held := [] } }
  let s2 := s1.refuseHeld s.pwc.held
  ((((s2.saveCapture).abortSave).saveSlot .a).saveSlot .b).saveTest

/-! ### Port reset (R162) -/

/-- Collection ports naming the port are cleared (R19, R162). -/
def clearCollector (s : State) (p : Port) : State :=
  { s with catalog := s.catalog.map fun r =>
      { r with versions := r.versions.map fun v =>
          if v.collector = some p then { v with collector := none } else v } }

/-- Shots that a reset of the port touches, in the order of their release tests: those of its open
handles by number, then those of the versions whose collection port it is in catalog order (DESIGN
CHOICE, safe, log entry 7). -/
def touchedBy (s : State) (p : Port) : List Nat :=
  ((s.port p).handles.filterMap fun h => h.map Handle.shot) ++
    ((s.catalog.filter fun r => r.versions.any fun v => v.collector == some p).map Record.shot)

/-- A SLOT_RESET whose request was dropped runs on without an asker (R162). -/
def orphanReinit (s : State) (p : Port) : State :=
  match p with
  | .body =>
    { s with med := { s.med with
        a := { s.med.a with reinit := s.med.a.reinit.map fun r => { r with asked := false } },
        b := { s.med.b with reinit := s.med.b.reinit.map fun r => { r with asked := false } } } }
  | .tether => s
  | .relay => s

/-- A port is reset (R162): handles closed, collection ports cleared, the release and CARD_ONLY
tests made, then the queue, RESYNC, the outstanding request, the reply list and a partial frame
gone; a held request of the port is dropped (R166). Data-in that is ignored until select is
deasserted stays ignored (R149). -/
def resetPort (s : State) (p : Port) : State :=
  let touched := s.touchedBy p
  let s1 := (s.setPort p { s.port p with handles := [none, none, none, none] }).clearCollector p
  let s2 := (s1.releaseAll touched).discardPrt p
  let s3 := s2.orphanReinit p
  let s4 : State := { s3 with pwc := { s3.pwc with held := s3.pwc.held.filter fun h => !h.ofPort p } }
  s4.setPort p { PortSt.reset with deaf := (s4.port p).deaf }

end Sys2Proof.Machine.State
end

