-- ==== Sys2Proof/Machine/Capture.lean ====
section
/-! DEFINITION. Meanings: bursts, the readout program, sync, capture settings, the watermark (chapter
2), and the events of frames. -/
namespace Sys2Proof.Machine

/-- An outcome that always goes on: every command here has a next state. -/
abbrev Result := Host.Outcome State Fault Refusal

/-- The refusal by power state and sequencer state that SEQ_HOLD, SEQ_RUN and PROGRAM_WRITE share:
SAVING while the part is SAVING (R28, R29, R31, R33). -/
def unlessSaving (s : State) (f : State → State × Served) : State × Served :=
  if s.pwc.power = .saving then refuse s .saving else f s

/-- BURST_START (R35, R165, R166). -/
def serveBurstStart (p : Port) (f : BurstFields) (s : State) : State × Served :=
  s.wakeRequest (.burst p f) fun t => t.serveBurst p f

/-- BURST_STOP (R32, R37). -/
def serveBurstStop (s : State) : State × Served :=
  unlessSaving s fun s =>
    if !s.rsq.burst.active then okWith s .empty
    else
      match s.rsq.state with
      | .idle => okWith (s.endBurst .stop) .empty
      | .stalled _ => okWith ((s.endBurst .stop).setSeq .idle).settle .empty
      | _ =>
        okWith { s with rsq := { s.rsq with burst := { s.rsq.burst with stopMark := true } } } .empty

/-- Write entries into the program from an index upward (R28). -/
def writeEntries (program : List Entry) (first : Nat) (es : List Entry) : List Entry :=
  match es with
  | [] => program
  | e :: rest => writeEntries (program.set first e) (first + 1) rest

/-- PROGRAM_WRITE (R28). -/
def serveProgramWrite (f : ProgramFields) (s : State) : State × Served :=
  unlessSaving s fun s =>
    if s.rsq.state != .hold then refuse s .state
    else
      match programBad f with
      | some n => badField s n
      | none =>
        okWith { s with rsq := { s.rsq with
          program := writeEntries s.rsq.program f.first ((entriesOf f.entries).getD []),
          stillStart := f.stillStart.getD s.rsq.stillStart,
          viewStart := f.viewStart.getD s.rsq.viewStart } } .empty

/-- PROGRAM_READ (R27). -/
def serveProgramRead (s : State) : State × Served :=
  okWith s (.program s.rsq.program s.rsq.stillStart s.rsq.viewStart)

/-- SEQ_HOLD (R31). -/
def serveSeqHold (s : State) : State × Served :=
  unlessSaving s fun s =>
    match s.rsq.state with
    | .off => refuse s .state
    | .hold => okWith s .empty
    | .idle => okWith ((s.endBurst .hold).setSeq .hold) .empty
    | .view => okWith (s.abandonView.setSeq .hold) .empty
    | .stalled _ => okWith ((s.endBurst .hold).setSeq .hold).settle .empty
    | .focusWait => okWith ((s.setSeq .hold).abandonStill.endBurst .hold).settle .empty
    | .expose => okWith ((s.setSeq .hold).abandonStill.endBurst .hold).settle .empty
    | .readout => okWith ((s.setSeq .hold).abandonStill.endBurst .hold).settle .empty

/-- SEQ_RUN (R29): the still program is tested first. -/
def serveSeqRun (s : State) : State × Served :=
  unlessSaving s fun s =>
    if s.rsq.state != .hold then refuse s .state
    else if !stillPasses s.rsq.program s.rsq.stillStart then badField s 1
    else if !viewPasses s.rsq.program s.rsq.viewStart then badField s 2
    else okWith (s.setSeq .idle) .empty

/-- SYNC_MODE (R45). -/
def serveSyncMode (f : SyncFields) (s : State) : State × Served :=
  match firstBad [(1, badChoice f.mode), (2, badChoice f.polarity)] with
  | some n => badField s n
  | none =>
    let mode := pick s.rsq.syncMode f.mode
    let polarity := pick s.rsq.polarity f.polarity
    if s.rsq.burst.active && mode != s.rsq.syncMode then refuse s .busy
    else
      let kept := mode == s.rsq.syncMode && polarity == s.rsq.polarity
      okWith { s with rsq := { s.rsq with
          syncMode := mode, polarity := polarity, latch := s.rsq.latch && kept } }
        (.sync mode polarity)

/-- The settings after CAPTURE_SET (R38). -/
def captureSettings (c : CaptureSettings) (f : CaptureFields) : CaptureSettings :=
  { view := pick c.view f.view, rate := f.rate.getD c.rate,
    viewExposure := match f.viewExposure with
      | some e => clamp 31 16000 e
      | none => c.viewExposure
    priority := pick c.priority f.priority, trigger := pick c.trigger f.trigger,
    triggerExposure := match f.triggerExposure with
      | some e => clamp 31 30000000 e
      | none => c.triggerExposure }

/-- CAPTURE_SET (R38); focus priority turned off ends a focus wait without the flag (R42). -/
def serveCaptureSet (f : CaptureFields) (s : State) : State × Served :=
  match captureBad f with
  | some n => badField s n
  | none =>
    let c := captureSettings s.rsq.settings f
    let s1 : State := { s with rsq := { s.rsq with settings := c } }
    let s2 := if s1.rsq.state = .focusWait && !c.priority then s1.enterExpose else s1
    okWith s2 (.capture c)

/-- The watermark from a request's value (R47). -/
def watermarkOf (v : Nat) : Nat := clamp 8 56 (v / 8 * 8)

/-- WATERMARK (R47, R102). -/
def serveWatermark (v : Nat) (s : State) : State × Served :=
  let w := watermarkOf v
  okWith ((({ s with rsq := { s.rsq with watermark := w } } : State).signalChanged
    s.watermarkSignal).settle) (.watermark w)

/-- BURST_START: meaning. -/
def execBurstStart (p : Port) (tag : Byte) (f : BurstFields) (s : State) : Result :=
  .next (s.takeRequest p tag .burstStart (serveBurstStart p f))

/-- BURST_STOP: meaning. -/
def execBurstStop (p : Port) (tag : Byte) (s : State) : Result :=
  .next (s.takeRequest p tag .burstStop serveBurstStop)

/-- PROGRAM_WRITE: meaning. -/
def execProgramWrite (p : Port) (tag : Byte) (f : ProgramFields) (s : State) : Result :=
  .next (s.takeRequest p tag .programWrite (serveProgramWrite f))

/-- PROGRAM_READ: meaning. -/
def execProgramRead (p : Port) (tag : Byte) (s : State) : Result :=
  .next (s.takeRequest p tag .programRead serveProgramRead)

/-- SEQ_HOLD: meaning. -/
def execSeqHold (p : Port) (tag : Byte) (s : State) : Result :=
  .next (s.takeRequest p tag .seqHold serveSeqHold)

/-- SEQ_RUN: meaning. -/
def execSeqRun (p : Port) (tag : Byte) (s : State) : Result :=
  .next (s.takeRequest p tag .seqRun serveSeqRun)

/-- SYNC_MODE: meaning. -/
def execSyncMode (p : Port) (tag : Byte) (f : SyncFields) (s : State) : Result :=
  .next (s.takeRequest p tag .syncMode (serveSyncMode f))

/-- CAPTURE_SET: meaning. -/
def execCaptureSet (p : Port) (tag : Byte) (f : CaptureFields) (s : State) : Result :=
  .next (s.takeRequest p tag .captureSet (serveCaptureSet f))

/-- WATERMARK: meaning. -/
def execWatermark (p : Port) (tag : Byte) (v : Nat) (s : State) : Result :=
  .next (s.takeRequest p tag .watermark (serveWatermark v))

/-! ### Events of frames. An event whose conditions do not hold has not happened, and changes
nothing (DESIGN CHOICE, safe, log entry 3). -/

/-- FRAME_DUE (R40, R46): in IDLE with a burst active, the due time reached and, in SLAVE mode, an
edge latched, the frame asks for its record and raw. -/
def execFrameDue (s : State) : Result :=
  if s.rsq.burst.active && s.rsq.state == .idle && reached s.rsq.burst.due s.now &&
      (s.rsq.syncMode == .master || s.rsq.latch) then
    .next (({ s with rsq := { s.rsq with latch := false } } : State).requestFrame).settle
  else .next s

/-- FOCUS_WAIT_TIMEOUT (R42): 60,000 µs in FOCUS_WAIT. -/
def execFocusWaitTimeout (s : State) : Result :=
  match s.rsq.frame with
  | none => .next s
  | some f =>
    if s.rsq.state == .focusWait && reached (f.waitStart + 60000) s.now then
      .next s.markExpired.enterExpose
    else .next s

/-- The exposure stamp is stored (R43). -/
def State.stamp (s : State) (f : Frame) : State :=
  s.modRecord f.shot fun r =>
    { r with stamp := match r.stamp with
        | some t => some t
        | none => some f.midpoint }

/-- EXPOSURE_MIDPOINT (R43): the time base reaches the midpoint of a still exposure. -/
def execExposureMidpoint (s : State) : Result :=
  match s.rsq.frame with
  | none => .next s
  | some f =>
    if s.rsq.state == .expose && reached f.midpoint s.now then .next (s.stamp f) else .next s

/-- EXPOSURE_END (R43, R50): the exposure time has passed and the frame's program begins, in
READOUT for a still frame. The midpoint was reached before, so a still record then has its stamp
(log entry 19). -/
def execExposureEnd (s : State) : Result :=
  match s.rsq.frame with
  | none => .next s
  | some f =>
    if f.program == .exposing && reached (f.exposureStart + BitVec.ofNat 32 f.exposure) s.now then
      let g := { f with rowPtr := 0, imageRows := 0 }
      match s.rsq.state with
      | .expose =>
        let s1 := s.stamp f
        .next ({ s1 with rsq := { s1.rsq with state := .readout } } |>.enterEntry g s.rsq.stillStart)
      | .view => .next (s.enterEntry g s.rsq.viewStart)
      | _ => .next s
    else .next s

/-- VIEW_FRAME_START (R50, R78, R87): the time since the last view frame is a difference of two times,
modulo 2^32 (R51). -/
def execViewFrameStart (s : State) : Result :=
  let due : Bool :=
    match s.rsq.lastView with
    | none => true
    | some t => decide (viewPeriod s.rsq.settings.rate ≤ elapsed t s.now)
  if s.pwc.power == .active && s.rsq.state == .idle && !s.rsq.burst.active &&
      s.rsq.settings.view && due then
    let e := s.rsq.settings.viewExposure
    let mid := s.now + BitVec.ofNat 32 (e / 2)
    let f : Frame :=
      { kind := .view, shot := 0, start := s.now, waitStart := s.now, exposureStart := s.now,
        exposure := e, midpoint := mid, rate := s.rsq.settings.rate, program := .exposing,
        rowPtr := 0, imageRows := 0 }
    let s1 : State := { s with
      rsq := { s.rsq with
        state := .view, frame := some f, lastView := some s.now,
        viewOut := { s.rsq.viewOut with syncs := s.rsq.viewOut.syncs + 1, rows := 0 } },
      fdr := { s.fdr with markerShot := ⟨s.fdr.marker, s.fdr.area, s.fdr.state⟩ } }
    .next (s1.exposureStart mid)
  else .next s

/-- The frame after an entry that is over: a SKIP moves the row pointer (R30). -/
def skipRows (f : Frame) (e : Entry) : Frame :=
  match e.kind with
  | .skip => { f with rowPtr := f.rowPtr + e.count }
  | .image => f
  | .pd => f
  | .idle => f
  | .stop => f

/-- ENTRY_END (R30, R57, R66): PD-done at the end of a PD entry, then the next entry. -/
def execEntryEnd (s : State) : Result :=
  match s.rsq.frame with
  | none => .next s
  | some f =>
    match f.program with
    | .running index lines since =>
      match s.rsq.program[index]? with
      | none => .next s
      | some e =>
        if s.entryOver e lines since then
          let s1 := if e.kind = .pd then s.pdDone f else s
          .next (s1.enterEntry (skipRows f e) (index + 1)).settle
        else .next s
    | .exposing => .next s
    | .ended => .next s

/-- PD_PAIR (R30, R57): a pair of the PD entry in progress. -/
def execPdPair (left right : List Sample) (s : State) : Result :=
  match s.rsq.frame with
  | none => .next s
  | some f =>
    match f.program with
    | .running index lines since =>
      match s.rsq.program[index]? with
      | none => .next s
      | some e =>
        if e.kind = .pd && decide (lines < e.count) then
          let s1 : State := { s with rsq := { s.rsq with
            frame := some { f with program := .running index (lines + 1) since } } }
          .next (s1.takePair left right)
        else .next s
    | .exposing => .next s
    | .ended => .next s

/-- A still row enters the FIFO or, when it holds 64 rows, is lost: DAMAGED, one more lost row, and
a replacement owed (R47, R48). -/
def State.stillRow (s : State) (f : Frame) (row : Nat) (samples : List Sample) : State :=
  if s.rsq.fifo.length < Config.fifoMax then
    { s with rsq := { s.rsq with fifo := s.rsq.fifo ++ [⟨row, samples⟩] } }
  else
    ({ s with rsq := { s.rsq with owed := s.rsq.owed ++ [row] } } : State).modRecord f.shot
      fun r => { r with flags := { r.flags with damaged := true, lostRows := r.flags.lostRows + 1 } }

/-- A view row goes to the viewfinder output with the marker laid over it (R50, R88). -/
def State.viewRow (s : State) (f : Frame) (pixels : List Rgb) : State :=
  { s with rsq := { s.rsq with viewOut :=
      { s.rsq.viewOut with
        rows := s.rsq.viewOut.rows + 1,
        last := markedRow s.fdr.markerShot s.viewRows f.imageRows 0 pixels } } }

/-- IMAGE_ROW (R30, R47, R48, R50): a row of the IMAGE entry in progress. -/
def execImageRow (row : SensorRow) (s : State) : Result :=
  match s.rsq.frame with
  | none => .next s
  | some f =>
    match f.program with
    | .running index lines since =>
      match s.rsq.program[index]? with
      | none => .next s
      | some e =>
        if e.kind = .image && decide (lines < e.count) then
          let s1 : State := { s with rsq := { s.rsq with
            frame := some { f with program := .running index (lines + 1) since,
                                   rowPtr := f.rowPtr + 1, imageRows := f.imageRows + 1 } } }
          match f.kind, row with
          | .still, .still samples => .next (s1.stillRow f f.rowPtr samples).settle
          | .view, .view pixels => .next (s1.viewRow f pixels)
          | .still, .view _ => .next s
          | .view, .still _ => .next s
        else .next s
    | .exposing => .next s
    | .ended => .next s

/-- READOUT_END (R13, R44): END has been reached and every row and replacement has been written. -/
def execReadoutEnd (s : State) : Result :=
  match s.rsq.frame with
  | none => .next s
  | some f =>
    if s.rsq.state == .readout && f.program == .ended && s.rsq.fifo.isEmpty && s.rsq.owed.isEmpty then
      match s.findRecord f.shot with
      | none => .next s
      | some r =>
        let s1 : State := { s with rsq := { s.rsq with
          frame := none,
          burst := { s.rsq.burst with completed := s.rsq.burst.completed + 1 } } }
        .next ((s1.holdRecord f r).afterFrame f).settle
    else .next s

/-- DRAM_TRANSFER_DONE (R8): the transfer in progress completes and the next one is granted. A
transfer past the end of the buffer is no transfer R1 allows: the machine stops. -/
def execDramTransferDone (s : State) : Result :=
  match s.arb.current with
  | none => .next s
  | some t =>
    if t.addr + t.length ≤ Config.bufferBytes then .next (s.transferDone t).settle
    else .fault (.noSuchAddress t.addr)

/-- TRIGGER_EDGE (R36, R46, R165, R166): edges of the other polarity and edges in SAVING are
ignored. -/
def execTriggerEdge (edge : Edge) (s : State) : Result :=
  if edge != s.rsq.polarity then .next s
  else
    match s.pwc.power with
    | .saving => .next s
    | .standby =>
      if s.pwc.settings.trigger then .next ((s.enterWaking .trigger).hold .edge) else .next s
    | .waking => if s.pwc.held.contains .edge then .next s else .next (s.hold .edge)
    | .active =>
      match s.rsq.syncMode with
      | .master => .next s.triggerShutter
      | .slave => .next s.slaveEdge

end Sys2Proof.Machine
end

