-- ==== Sys2Proof/Machine/Focus.lean ====
section
/-! DEFINITION. Meanings: the correlator's requests (chapter 3), the focus requests, the lens link
events and the half-press and lens-detect lines (chapter 4). -/
namespace Sys2Proof.Machine

/-! ### Requests -/

/-- FOCUS_START (R76, R165, R166). -/
def serveFocusStart (p : Port) (mode : Option (Choice FocusMode)) (s : State) : State × Served :=
  s.wakeRequest (.focus p mode) fun t => t.serveFocus mode

/-- FOCUS_STOP (R76): OK in every state. -/
def serveFocusStop (s : State) : State × Served := okWith s.endSession .empty

/-- FOCUS_AREA (R80, R86). In CONTINUOUS the area already in force changes nothing more; in SINGLE the
request ends a scan and clears the target whichever area it names (DEDUCED, unsafe, log entry 40), for a
session that is ACQUIRING only (DEDUCED, unsafe, log entry 22); a MOVE of the scan that still waits is
kept when the scan ends (DESIGN CHOICE, unsafe, log entry 47). -/
def serveFocusArea (index : Nat) (s : State) : State × Served :=
  if 134 < index then badField s 1
  else
    let s1 : State := { s with fdr := { s.fdr with area := index } }
    let s2 :=
      match s.fdr.mode with
      | .continuous =>
        if index = s.fdr.area then s1
        else
          let t : State := { s1 with fdr := { s1.fdr with history := [], lowCount := 0 } }
          if t.fdr.state = .tracking then t.setFocusState .acquiring else t
      | .single =>
        if s.fdr.state = .acquiring then
          ({ s1 with fdr := { s1.fdr with scan := .none, target := none } } : State).checkFocusWait
        else s1
      | .manual => s1
    okWith s2 (.area index)

/-- The setup after FOCUS_SETUP; Wd is rounded down to a multiple of 16 (R53). -/
def setupAfter (u : Setup) (f : SetupFields) : Setup :=
  { n := f.n.getD u.n,
    wd := match f.wd with
      | some w => w / 16 * 16
      | none => u.wd
    smax := f.smax.getD u.smax, mode := pick u.mode f.mode, cmin := f.cmin.getD u.cmin }

/-- FOCUS_SETUP (R53). -/
def serveFocusSetup (f : SetupFields) (s : State) : State × Served :=
  match setupBad f with
  | some n => badField s n
  | none =>
    let u := setupAfter s.phc.setup f
    okWith { s with phc := { s.phc with setup := u } } (.setup u)

/-- FOCUS_RESULT (R67). -/
def serveFocusResult (s : State) : State × Served :=
  okWith s
    (.focusResult s.phc.setup s.phc.number s.phc.record
      (if s.phc.curve.isEmpty then none else some s.phc.curve))

/-- The marker settings after MARKER_WRITE (R87). -/
def markerAfter (m : Marker) (f : MarkerFields) : Marker :=
  { planeLow := match f.pattern with
      | some (low, _) => low
      | none => m.planeLow
    planeHigh := match f.pattern with
      | some (_, high) => high
      | none => m.planeHigh
    fixed := f.fixed.getD m.fixed, focused := f.focused.getD m.focused,
    acquiring := f.acquiring.getD m.acquiring, failed := f.failed.getD m.failed,
    on := pick m.on f.switch }

/-- MARKER_WRITE (R87). -/
def serveMarkerWrite (f : MarkerFields) (s : State) : State × Served :=
  if badChoice f.switch then badField s 4
  else okWith { s with fdr := { s.fdr with marker := markerAfter s.fdr.marker f } } .empty

/-- FOCUS_START: meaning. -/
def execFocusStart (p : Port) (tag : Byte) (mode : Option (Choice FocusMode)) (s : State) : Result :=
  .next (s.takeRequest p tag .focusStart (serveFocusStart p mode))

/-- FOCUS_STOP: meaning. -/
def execFocusStop (p : Port) (tag : Byte) (s : State) : Result :=
  .next (s.takeRequest p tag .focusStop serveFocusStop)

/-- FOCUS_AREA: meaning. -/
def execFocusArea (p : Port) (tag : Byte) (index : Nat) (s : State) : Result :=
  .next (s.takeRequest p tag .focusArea (serveFocusArea index))

/-- FOCUS_SETUP: meaning. -/
def execFocusSetup (p : Port) (tag : Byte) (f : SetupFields) (s : State) : Result :=
  .next (s.takeRequest p tag .focusSetup (serveFocusSetup f))

/-- FOCUS_RESULT: meaning. -/
def execFocusResult (p : Port) (tag : Byte) (s : State) : Result :=
  .next (s.takeRequest p tag .focusResult serveFocusResult)

/-- MARKER_WRITE: meaning. -/
def execMarkerWrite (p : Port) (tag : Byte) (f : MarkerFields) (s : State) : Result :=
  .next (s.takeRequest p tag .markerWrite (serveMarkerWrite f))

/-! ### The lens link -/

/-- The command a transaction sends (R72 to R75). -/
def Transaction.command : Transaction → LinkCommand
  | .identPage0 => .ident
  | .identPage1 => .ident
  | .identWhere => .whereIs
  | .exposureWhere _ => .whereIs
  | .move _ _ => .move
  | .pollWhere => .whereIs

/-- The data its command frame carries: the page of IDENT, the target and the class of MOVE, nothing for
WHERE (R72, R74, R75). -/
def Transaction.data : Transaction → List Byte
  | .identPage0 => [0]
  | .identPage1 => [1]
  | .identWhere => []
  | .exposureWhere _ => []
  | .move m _ => leBytes 2 m.target ++ leBytes 1 m.cls
  | .pollWhere => []

/-- The command frame a transaction sends (R69, R70). -/
def Transaction.frame (t : Transaction) : List Byte := linkFrame (Config.linkCode t.command) t.data

/-- What LNK sends for the transaction in progress, bit by bit (R69, R70): the bytes of its command
frame, first bit first; nothing when no transaction runs. -/
def State.linkOutput (s : State) : List Bool :=
  match s.lnk.running with
  | none => []
  | some t => t.frame.flatMap linkBits

/-- The data length its reply carries (R72, R74, R75). -/
def Transaction.replyLength : Transaction → Nat
  | .identPage0 => 8
  | .identPage1 => 8
  | .identWhere => 3
  | .exposureWhere _ => 3
  | .move _ _ => 0
  | .pollWhere => 3

namespace State

/-- What follows a failed transaction that did not make the link LOST (R70, R72, R73): in
identification the same transaction again, unless the link sends nothing (R89); a MOVE stays
pending unless a newer one waits; then the next pending transaction. -/
def afterFailure (s : State) (t : Transaction) : State :=
  let s1 := s.endTransaction
  let again : State := if s1.linkSilent then s1 else { s1 with lnk := { s1.lnk with running := some t } }
  match t with
  | .identPage0 => again
  | .identPage1 => again
  | .identWhere => again
  | .exposureWhere _ => s1.startNext
  | .pollWhere => s1.startNext
  | .move m retry =>
    if retry && s1.lnk.pendMove.isNone then
      startNext { s1 with lnk := { s1.lnk with pendMove := some m } }
    else s1.startNext

/-- A transaction fails with a link error (R70): the run count goes up, and at 3 the link becomes
LOST. -/
def linkError (s : State) (t : Transaction) (e : LinkError) : State :=
  let s1 : State := { s with lnk := { s.lnk with errors := s.lnk.errors + 1, lastError := some e } }
  if 3 ≤ s1.lnk.errors then s1.linkLost .link else s1.afterFailure t

/-- A good WHERE reply (R74): stored, its transaction ended, passed to FDR, and the next pending
transaction started. -/
def goodWhere (s : State) (data : List Byte) : State :=
  let pos := linkWord data 0
  let moving := byteAt data 2 != 0
  (((s.storePosition pos moving).endTransaction).whereToFocus pos moving).startNext

/-- The next transaction of identification, unless the link sends nothing (R72, R89). -/
def identNext (s : State) (t : Transaction) : State :=
  let s1 := s.endTransaction
  if s1.linkSilent then s1 else { s1 with lnk := { s1.lnk with running := some t } }

/-- A transaction ends with a good reply (R70, R72 to R75). -/
def linkGood (s : State) (t : Transaction) (data : List Byte) : State :=
  let s1 : State := { s with lnk := { s.lnk with errors := 0 } }
  match t with
  | .identPage0 =>
    ({ s1 with lnk := { s1.lnk with page0 := some (readPage0 data) } } : State).identNext .identPage1
  | .identPage1 =>
    match s1.lnk.page0 with
    | none => s1.linkLost .descriptor
    | some p =>
      let d := readDescriptor p data
      if d.valid then
        ({ s1 with lnk := { s1.lnk with descriptor := some d } } : State).identNext .identWhere
      else s1.linkLost .descriptor
  | .identWhere =>
    let s2 : State := { s1 with lnk := { s1.lnk with state := .ready } }
    let pos := linkWord data 0
    let moving := byteAt data 2 != 0
    ((((s2.storePosition pos moving).endTransaction).focusFound).whereToFocus pos moving).startNext
  | .exposureWhere frame =>
    let s2 : State :=
      if frame = s1.fdr.frameTag then
        { s1 with fdr := { s1.fdr with exposurePos := some (linkWord data 0) } }
      else s1
    s2.goodWhere data
  | .move _ _ => (s1.endTransaction).startNext
  | .pollWhere => s1.goodWhere data

end State

/-- The error kept when a reply shows several: a free choice among them (log entry 9). -/
def chosenError (n : Nat) (e : LinkError) (rest : List LinkError) : LinkError :=
  (e :: rest).getD (Config.linkErrorPick n % (rest.length + 1)) e

/-- LINK_REPLY (R69, R70): the reply to the transaction in progress ends it good or with a link
error. -/
def execLinkReply (chars : List LinkChar) (names : Option LinkCommand) (s : State) : Result :=
  match s.lnk.running with
  | none => .next s
  | some t =>
    match linkErrors chars names t.command t.replyLength with
    | [] => .next (s.linkGood t (linkData ((chars.filter charStarted).map charValue)))
    | [e] => .next (s.linkError t e)
    | e :: rest => .next (s.fresh.linkError t (chosenError s.freeCount e rest))

/-- LINK_REPLY_LATE (R70): a late-reply error. -/
def execLinkReplyLate (s : State) : Result :=
  match s.lnk.running with
  | none => .next s
  | some t => .next (s.linkError t .late)

/-- POLL_WHERE_DUE (R73): 2,000 µs after the end of a transaction, while the lens is moving. A time
that ends while the link is not READY, or sends nothing (R89), is kept, and its poll is made pending
once the link is READY and sends again (DESIGN CHOICE, safe, log entry 49). -/
def execPollWhereDue (s : State) : Result :=
  match s.lnk.timers with
  | [] => .next s
  | t :: rest =>
    if s.lnk.state == .ready && s.lnk.moving && !s.linkSilent && decide (2000 ≤ elapsed t s.now) then
      .next (State.startNext { s with lnk := { s.lnk with timers := rest, pendPoll := true } })
    else .next s

/-! ### Lines -/

/-- HALF_PRESS_ASSERTED (R71, R76, R89, R165, R166). -/
def execHalfPressAsserted (s : State) : Result :=
  if s.pins.halfPress then .next s
  else
    let s1 : State := { s with pins := { s.pins with halfPress := true } }
    match s.pwc.power with
    | .active => .next s1.halfPress
    | .standby => if s.pwc.settings.half then .next (s1.enterWaking .halfPress) else .next s1
    | .waking => .next s1
    | .saving => .next s1

/-- HALF_PRESS_RELEASED (R76): the session ends, however it was started. -/
def execHalfPressReleased (s : State) : Result :=
  if s.pins.halfPress then
    .next ({ s with pins := { s.pins with halfPress := false } } : State).endSession
  else .next s

/-- LENS_DETECT_ASSERTED (R71, R89): identification starts from ABSENT or LOST unless the power
state defers it. -/
def execLensDetectAsserted (s : State) : Result :=
  if s.pins.lens then .next s
  else
    let s1 : State := { s with pins := { s.pins with lens := true } }
    if s1.lensDeferred then .next s1
    else
      match s1.lnk.state with
      | .absent => .next s1.startIdent
      | .lost => .next s1.startIdent
      | .identifying => .next s1
      | .ready => .next s1

/-- LENS_DETECT_DEASSERTED (R71): the link becomes ABSENT at once. -/
def execLensDetectDeasserted (s : State) : Result :=
  if s.pins.lens then
    .next ({ s with pins := { s.pins with lens := false } } : State).linkAbsent
  else .next s

end Sys2Proof.Machine
end

