-- ==== Sys2Proof/Machine/Develop.lean ====
section
/-! DEFINITION. Meanings: the development requests and the end of a development row (chapter 5). -/
namespace Sys2Proof.Machine

/-! ### Requests -/

/-- The origin and the asking port of a DEVELOP (R96). -/
def developOrigin (p : Port) : JobOrigin :=
  match p with
  | .body => .body
  | .tether => .tether
  | .relay => .tether

/-- A merged DEVELOP adds its port at the end of the asking ports (R97). -/
def addAsking (p : Port) (j : Job) : Job :=
  if j.asking.contains p then j else { j with asking := j.asking ++ [p] }

/-- DEVELOP (R96, R97): the six checks in their order, then admission and an attempt (R99). -/
def serveDevelop (p : Port) (shot recipe : Nat) (s : State) : State × Served :=
  if s.pwc.power = .saving then refuse s .saving
  else if 3 < recipe then badField s 2
  else
    match s.namedRecord shot with
    | none => refuse s .gone
    | some r =>
      if r.life = .cardOnly || r.raw.state = .released then refuse s .gone
      else if r.life = .exposing then refuse s .state
      else
        match s.queuedJob shot recipe with
        | some j => okWith (s.modJob j (addAsking p)) (.job j.number)
        | none =>
          if 8 ≤ s.dev.queue.length then refuse s .full
          else
            okWith (s.appendJob shot recipe (developOrigin p) [p] false false).settle
              (.job s.dev.nextJob)

/-- DEV_STATUS (R104). Where two jobs or two results bear the number asked for, the first in queue or
log order is reported, a job before a result (DESIGN CHOICE, safe, log entry 45). -/
def serveDevStatus (job : Option Nat) (s : State) : State × Served :=
  match job with
  | none => okWith s (.devStatus s.dev.engine s.dev.queue s.dev.log)
  | some n =>
    match s.dev.queue.find? fun j => j.number == n with
    | some j => okWith s (.oneJob j)
    | none =>
      match s.dev.log.find? fun r => r.number == n with
      | some r => okWith s (.oneResult r)
      | none => refuse s .gone

/-- TONE_READ (R92). -/
def serveToneRead (table : Nat) (s : State) : State × Served :=
  if 3 < table then badField s 1 else okWith s (.tone (s.toneTable table))

/-- The first failing field of TONE_WRITE (R92). -/
def toneBad (table first : Nat) (values : List Nat) : Option Nat :=
  firstBad
    [(1, decide (3 < table)), (2, decide (64 < first)),
     (3, decide (values.length < 1) || decide (65 < first + values.length) ||
        values.any fun v => decide (255 < v))]

/-- Write values into a tone table from an entry upward (R92). -/
def writeTone (t : List Nat) (first : Nat) (values : List Nat) : List Nat :=
  match values with
  | [] => t
  | v :: rest => writeTone (t.set first v) (first + 1) rest

/-- A running job whose snapshot names the table takes MIXED (R93). -/
def markMixed (table : Nat) (j : Job) : Job :=
  match j.state, j.snapshot with
  | .running, some rec =>
    if rec.tone = table then { j with conditions := { j.conditions with mixed := true } } else j
  | _, _ => j

/-- TONE_WRITE (R92, R93): the row in hand keeps the content it began with. -/
def serveToneWrite (table first : Nat) (values : List Nat) (s : State) : State × Served :=
  match toneBad table first values with
  | some n => badField s n
  | none =>
    okWith { s with dev := { s.dev with
      tones := s.dev.tones.set table (writeTone (s.toneTable table) first values),
      queue := s.dev.queue.map (markMixed table) } } .empty

/-- A recipe with the fields given replaced (R91). -/
def recipeAfter (r : Recipe) (f : RecipeFields) : Recipe :=
  { blackR := f.blackR.getD r.blackR, blackG1 := f.blackG1.getD r.blackG1,
    blackG2 := f.blackG2.getD r.blackG2, blackB := f.blackB.getD r.blackB,
    gainR := f.gainR.getD r.gainR, gainG := f.gainG.getD r.gainG, gainB := f.gainB.getD r.gainB,
    matrix := f.matrix.getD r.matrix, tone := f.tone.getD r.tone,
    scale := match f.scale with
      | some n => scaleOf n
      | none => r.scale }

/-- RECIPE_WRITE (R91): DENIED for recipes 0 and 1 from the tether, before the other fields
(R152; log entry 25). -/
def serveRecipeWrite (p : Port) (index : Nat) (f : RecipeFields) (s : State) : State × Served :=
  if p = .tether && decide (index < 2) then refuse s .denied
  else
    match recipeBad index f with
    | some n => badField s n
    | none =>
      let r := recipeAfter (s.recipe index) f
      okWith { s with dev := { s.dev with recipes := s.dev.recipes.set index r } } (.recipe r)

/-- RECIPE_READ (R91). -/
def serveRecipeRead (index : Nat) (s : State) : State × Served :=
  if 3 < index then badField s 1 else okWith s (.recipe (s.recipe index))

/-- DEV_SET (R94). -/
def serveDevSet (card relay : Option Nat) (s : State) : State × Served :=
  match firstBad [(1, badRange 0 3 card), (2, badRange 0 3 relay)] with
  | some n => badField s n
  | none =>
    let c := card.getD s.dev.cardRecipe
    let r := relay.getD s.dev.relayRecipe
    okWith { s with dev := { s.dev with cardRecipe := c, relayRecipe := r } } (.devSet c r)

/-- DEVELOP: meaning. -/
def execDevelop (p : Port) (tag : Byte) (shot recipe : Nat) (s : State) : Result :=
  .next (s.takeRequest p tag .develop (serveDevelop p shot recipe))

/-- DEV_STATUS: meaning. -/
def execDevStatus (p : Port) (tag : Byte) (job : Option Nat) (s : State) : Result :=
  .next (s.takeRequest p tag .devStatus (serveDevStatus job))

/-- TONE_READ: meaning. -/
def execToneRead (p : Port) (tag : Byte) (table : Nat) (s : State) : Result :=
  .next (s.takeRequest p tag .toneRead (serveToneRead table))

/-- TONE_WRITE: meaning. -/
def execToneWrite (p : Port) (tag : Byte) (table first : Nat) (values : List Nat) (s : State) :
    Result :=
  .next (s.takeRequest p tag .toneWrite (serveToneWrite table first values))

/-- RECIPE_WRITE: meaning. -/
def execRecipeWrite (p : Port) (tag : Byte) (index : Nat) (f : RecipeFields) (s : State) : Result :=
  .next (s.takeRequest p tag .recipeWrite (serveRecipeWrite p index f))

/-- RECIPE_READ: meaning. -/
def execRecipeRead (p : Port) (tag : Byte) (index : Nat) (s : State) : Result :=
  .next (s.takeRequest p tag .recipeRead (serveRecipeRead index))

/-- DEV_SET: meaning. -/
def execDevSet (p : Port) (tag : Byte) (card relay : Option Nat) (s : State) : Result :=
  .next (s.takeRequest p tag .devSet (serveDevSet card relay))

/-! ### Rows -/

/-- The versions of a shot when the job that made `n` completes (R19, R103): it becomes CURRENT with
its checksum, conditions and collection port, and the old CURRENT one becomes DRAINING. -/
def completeVersion (n : Nat) (sum : Sum32) (c : Conditions) (collector : Option Port)
    (v : Version) : Version :=
  if v.number = n then
    { v with state := .current, checksum := some sum, conditions := c, collector := collector }
  else if v.state = .current then { v with state := .draining, collector := none }
  else v

namespace State

/-- A job completes (R103, R104), in the order of R103. -/
def completeJob (s : State) (j : Job) (rec : Recipe) (sum : Sum32) : State :=
  let r : JobResult :=
    { number := j.number, shot := j.shot, recipe := j.recipe,
      made := some ⟨j.version, rec.scale.bytes, sum⟩, saturation := j.saturation,
      conditions := j.conditions, aborted := none }
  let s1 := s.modRecord j.shot fun q =>
    { q with versions :=
        q.versions.map (completeVersion j.version sum j.conditions j.asking.head?) }
  let s2 := s1.relayReady j.shot
  let s3 := if j.cardMark && s2.med.cardProof then s2.requireCopies j.shot .proof (some j.version)
            else s2
  let s4 := (s3.dropJob j).logJob r
  let s5 : State := { s4 with dev := { s4.dev with engine := .idle, row := RowWork.none } }
  (((((s5.releaseTests j.shot).announceJob j r).admitAuto).markAttempt).chooseBoth)

/-- A row of the running job is over (R101, R102): rows done goes up, the saturations and the
checksum take the row, and the job completes, pauses, or begins its next row. -/
def rowOver (s : State) (j : Job) (rec : Recipe) : State :=
  let sum := s.dev.row.checksum + byteSum s.dev.row.bytes
  let k : Job :=
    { j with rowsDone := some (j.rows + 1),
             saturation := addSaturation j.saturation s.dev.row.saturation }
  let s1 := s.modJob j fun _ => k
  if rec.scale.rows ≤ k.rows then s1.completeJob k rec sum
  else if s1.watermarkSignal then
    { s1 with dev := { s1.dev with
        engine := .paused, row := { RowWork.none with checksum := sum } } }
  else s1.beginRow rec sum

end State

/-- DEV_ROW_DONE (R101 to R103): the last byte of the row in hand has been written. -/
def execDevRowDone (s : State) : Result :=
  match s.runningJob with
  | none => .next s
  | some j =>
    match j.snapshot with
    | none => .next s
    | some rec =>
      if s.dev.engine == .running && s.dev.row.read == rec.scale.sourceBytes &&
          s.dev.row.written == rec.scale.rowBytes then
        .next (s.rowOver j rec).settle
      else .next s

end Sys2Proof.Machine
end

