-- ==== Sys2Proof/Machine/Media.lean ====
section
/-! DEFINITION. Meanings: the card requests and the events of the two slots (chapter 7). -/
namespace Sys2Proof.Machine

/-! ### Requests -/

/-- A copy of some shot is PENDING, WRITING or VERIFYING on either slot (R120). -/
def State.anyCopyNeeds (s : State) : Bool :=
  s.catalog.any fun r => r.copies.all.any Copy.needs

/-- SLOT_MODE (R120). -/
def serveSlotMode (mode : Choice SlotMode) (s : State) : State × Served :=
  match mode with
  | .other => badField s 1
  | .is m =>
    if s.anyCopyNeeds then refuse s .busy
    else okWith { s with med := { s.med with mode := m } } (.slotMode m)

/-- The settings of MEDIA_SET as they stand (R122). -/
def mediaSettings (m : Med) : MediaSettings :=
  ⟨m.cardProof, m.a.timeout, m.a.verify, m.b.timeout, m.b.verify⟩

/-- MEDIA_SET (R122). -/
def serveMediaSet (f : MediaFields) (s : State) : State × Served :=
  match mediaBad f with
  | some n => badField s n
  | none =>
    let m : Med := { s.med with
      cardProof := pick s.med.cardProof f.cardProof,
      a := { s.med.a with timeout := pick s.med.a.timeout f.aTimeout,
                          verify := pick s.med.a.verify f.aVerify },
      b := { s.med.b with timeout := pick s.med.b.timeout f.bTimeout,
                          verify := pick s.med.b.verify f.bVerify } }
    okWith { s with med := m } (.media (mediaSettings m))

/-- A run that CARD_SPACE refuses by its sectors (R123, checks 3 and 4): too short, past the last
sector, or sharing a sector with the list or with the planned placement in flight. -/
def State.badRun (s : State) (x : Slot) (r : Run) : Bool :=
  decide (r.count < 2048) || decide (2 ^ 32 < r.first + r.count) ||
    (s.slot x).space.any (overlaps r) || (s.plannedRuns x).any (overlaps r)

/-- CARD_SPACE (R123): the checks in their order; the append lets the slot choose. -/
def serveCardSpace (slot : Choice Slot) (first count : Nat) (s : State) : State × Served :=
  withSlot s slot fun x =>
    match (s.slot x).state with
    | .absent => refuse s .state
    | .full => refuse s .state
    | .fault => refuse s .state
    | _ =>
      if s.badRun x ⟨first, count⟩ then badField s 3
      else if 16 ≤ (s.slot x).space.length then refuse s .full
      else
        let l := (s.slot x).space ++ [⟨first, count⟩]
        okWith ((s.setSlot x { s.slot x with space := l }).chooseWork x).settle
          (.space l.length (totalSectors l))

/-- CARD_SPACE_CLEAR (R124). -/
def serveCardSpaceClear (slot : Choice Slot) (s : State) : State × Served :=
  withSlot s slot fun x =>
    if (s.slot x).state = .busy then refuse s .busy
    else okWith (((s.setSlot x { s.slot x with space := [] }).chooseWork x).settle) .empty

/-- SLOT_RESET (R132): the list is emptied and the request waits for the card. A second reset
during the wait begins it again (DESIGN CHOICE, safe, log entry 24). -/
def serveSlotReset (slot : Choice Slot) (s : State) : State × Served :=
  withSlot s slot fun x =>
    match (s.slot x).state with
    | .busy => refuse s .busy
    | .absent => refuse s .state
    | _ =>
      (s.setSlot x { s.slot x with
          space := [], reinit := some ⟨s.now, (s.slot x).timeout, true⟩ },
        .waits (.resetting x))

namespace State

/-- A copy PENDING on the slot becomes ABANDONED (R133). -/
def dropCopies (r : Record) (x : Slot) : Record :=
  let one := fun (c : Copies) (part : Part) =>
    if (c.get x part).state = .pending then
      c.set x part { c.get x part with state := .abandoned }
    else c
  { r with copies := one (one r.copies .raw) .proof }

/-- A copy PENDING on A is moved to B (R134). -/
def moveCopies (r : Record) : Record :=
  let one := fun (c : Copies) (part : Part) =>
    if (c.get .a part).state = .pending then
      (c.set .a part { c.get .a part with state := .notRequired }).set .b part
        (.pendingFor (c.get .a part).version)
    else c
  { r with copies := one (one r.copies .raw) .proof }

end State

/-- SLOT_DROP (R133): the slot chooses again, since copies left its work (R125; log entry 32). -/
def serveSlotDrop (slot : Choice Slot) (s : State) : State × Served :=
  withSlot s slot fun x =>
    let work := s.slotWork x
    let s1 : State := { s with catalog := s.catalog.map fun r => State.dropCopies r x }
    okWith (((s1.releaseAll (work.map Prod.fst)).chooseWork x).settle) (.dropped work.length)

/-- SLOT_FULL (R134). During a re-initialisation whose asker has gone the slot is FULL at once
(DESIGN CHOICE, unsafe, log entry 24). -/
def serveSlotFull (slot : Choice Slot) (s : State) : State × Served :=
  withSlot s slot fun x =>
    match (s.slot x).state with
    | .busy => refuse s .busy
    | .absent => refuse s .state
    | .fault => refuse s .state
    | .full => okWith s .empty
    | _ =>
      let s1 := s.setSlot x { s.slot x with state := .full }
      if x = .a && s.med.mode = .overflow then
        okWith ((({ s1 with catalog := s1.catalog.map State.moveCopies } : State).chooseWork
          .b).settle) .empty
      else okWith s1 .empty

/-- PLACEMENT (R135): a record in any life state, DELETING included (R26). -/
def servePlacement (shot : Nat) (s : State) : State × Served :=
  match s.findRecord shot with
  | none => refuse s .gone
  | some r => okWith s (.placement r.copies)

/-- One slot in MEDIA_STATUS (R135). -/
def State.slotReport (s : State) (x : Slot) : SlotReport :=
  { state := (s.slot x).state, timeout := (s.slot x).timeout, verify := (s.slot x).verify,
    space := (s.slot x).space, workCount := (s.slotWork x).length, head := (s.slotWork x).head?,
    flight := (s.slot x).flight.map fun f => (f.shot, f.part, f.planned),
    faults := (s.slot x).faults }

/-- MEDIA_STATUS (R135). -/
def serveMediaStatus (s : State) : State × Served :=
  okWith s (.mediaStatus (s.slotReport .a) (s.slotReport .b) s.med.mode s.med.cardProof)

/-- SLOT_MODE: meaning. -/
def execSlotMode (p : Port) (tag : Byte) (mode : Choice SlotMode) (s : State) : Result :=
  .next (s.takeRequest p tag .slotMode (serveSlotMode mode))

/-- MEDIA_SET: meaning. -/
def execMediaSet (p : Port) (tag : Byte) (f : MediaFields) (s : State) : Result :=
  .next (s.takeRequest p tag .mediaSet (serveMediaSet f))

/-- CARD_SPACE: meaning. -/
def execCardSpace (p : Port) (tag : Byte) (slot : Choice Slot) (first count : Nat) (s : State) :
    Result :=
  .next (s.takeRequest p tag .cardSpace (serveCardSpace slot first count))

/-- CARD_SPACE_CLEAR: meaning. -/
def execCardSpaceClear (p : Port) (tag : Byte) (slot : Choice Slot) (s : State) : Result :=
  .next (s.takeRequest p tag .cardSpaceClear (serveCardSpaceClear slot))

/-- SLOT_RESET: meaning. -/
def execSlotReset (p : Port) (tag : Byte) (slot : Choice Slot) (s : State) : Result :=
  .next (s.takeRequest p tag .slotReset (serveSlotReset slot))

/-- SLOT_DROP: meaning. -/
def execSlotDrop (p : Port) (tag : Byte) (slot : Choice Slot) (s : State) : Result :=
  .next (s.takeRequest p tag .slotDrop (serveSlotDrop slot))

/-- SLOT_FULL: meaning. -/
def execSlotFull (p : Port) (tag : Byte) (slot : Choice Slot) (s : State) : Result :=
  .next (s.takeRequest p tag .slotFull (serveSlotFull slot))

/-- PLACEMENT: meaning. -/
def execPlacement (p : Port) (tag : Byte) (shot : Nat) (s : State) : Result :=
  .next (s.takeRequest p tag .placement (servePlacement shot))

/-- MEDIA_STATUS: meaning. -/
def execMediaStatus (p : Port) (tag : Byte) (s : State) : Result :=
  .next (s.takeRequest p tag .mediaStatus serveMediaStatus)

/-! ### Events of the card-detect lines and of a re-initialisation -/

namespace State

/-- The card-detect line of a slot takes a level. -/
def setDetect (s : State) (x : Slot) (level : Bool) : State :=
  match x with
  | .a => { s with pins := { s.pins with cardA := level } }
  | .b => { s with pins := { s.pins with cardB := level } }

/-- A card has left its slot (R121): after it, the test of R168 and the end of the change. -/
def cardGone (s : State) (x : Slot) : State := (((s.setDetect x false).removeCard x).saveTest).settle

/-- The card answered its re-initialisation in time (R132): READY, whatever state the slot took
meanwhile (DESIGN CHOICE, unsafe, log entry 24). -/
def resetAnswered (s : State) (x : Slot) : State :=
  let s1 := s.endReinit x .ok
  ((s1.setSlot x { s1.slot x with state := .ready }).chooseWork x).settle

/-- The card did not answer in time (R132). -/
def resetFailed (s : State) (x : Slot) : State :=
  let s1 := s.endReinit x .state
  s1.setSlot x { s1.slot x with state := .fault }

end State

/-- CARD_DETECT_ASSERTED (R121). -/
def execCardDetectAsserted (x : Slot) (s : State) : Result :=
  if s.cardDetect x then .next s else .next ((s.setDetect x true).insertCard x).settle

/-- CARD_DETECT_DEASSERTED (R121, R131). -/
def execCardDetectDeasserted (x : Slot) (s : State) : Result :=
  if s.cardDetect x then .next (s.cardGone x) else .next s

/-- SLOT_RESET_DONE (R132): the answer counts within the slot's timeout range; a later one finds
the wait over. -/
def execSlotResetDone (x : Slot) (outcome : ResetOutcome) (s : State) : Result :=
  match (s.slot x).reinit with
  | none => .next s
  | some r =>
    let waited := elapsed r.since s.now
    match outcome with
    | .answered =>
      if waited ≤ rangeMicros r.range then .next (s.resetAnswered x) else .next (s.resetFailed x)
    | .timedOut => if rangeMicros r.range ≤ waited then .next (s.resetFailed x) else .next s
    | .removed => .next (s.cardGone x)

/-! ### Events of a copy in flight -/

namespace State

/-- The slot times out (R130). -/
def slotTimeout (s : State) (x : Slot) (f : Flight) : State :=
  ((s.copyFailed x f .timeout .fault).saveTest).settle

/-- The busy period after a burst has ended in time (R127, R128): the next burst begins or the
writing is complete. -/
def burstStored (s : State) (x : Slot) (f : Flight) : State :=
  let done := f.sectorsDone + burstLength f.planned f.sectorsDone
  if totalSectors f.planned ≤ done then ((s.writingDone x f).saveTest).settle
  else
    (s.setSlot x { s.slot x with
      flight := some { f with phase := .filling, sectorsDone := done, burst := [] } }).settle

/-- The sum that the check of a copy is compared with (R128). -/
def expectedSum (s : State) (f : Flight) : Option Sum32 :=
  match s.findRecord f.shot with
  | none => none
  | some r =>
    match f.part, f.version with
    | .raw, _ => r.raw.checksum
    | .proof, some n => (r.version n).bind Version.checksum
    | .proof, none => none

/-- The size in bytes of the copy in flight. -/
def flightBytes (s : State) (f : Flight) : Nat :=
  match s.findRecord f.shot with
  | none => 0
  | some r => r.partBytes f.part f.version

/-- A read-back burst has been received (R128): its data enter the check, the pad does not; after
the last one the copy is WRITTEN or fails (R129). The bursts read back are those written (DESIGN
CHOICE, safe, log entry 28). -/
def burstRead (s : State) (x : Slot) (f : Flight) (data : List Byte) : State :=
  let sectors := burstLength f.planned f.sectorsDone
  let done := f.sectorsDone + sectors
  let check := CheckSum.add f.part f.check
    (data.take (burstData (s.flightBytes f) f.sectorsDone sectors))
  if totalSectors f.planned ≤ done then
    if s.expectedSum f = some check.sum then ((s.copyWritten x f false).saveTest).settle
    else ((s.copyFailed x f .verify .ready).saveTest).settle
  else
    s.setSlot x { s.slot x with
      flight := some { f with phase := .verifying s.now, sectorsDone := done, check := check } }

end State

/-- CARD_BUSY_END (R127): a report that does not come before the timeout range finds the slot timed
out (R130). -/
def execCardBusyEnd (x : Slot) (s : State) : Result :=
  match (s.slot x).flight with
  | none => .next s
  | some f =>
    match f.phase with
    | .cardBusy since =>
      if elapsed since s.now < rangeMicros f.timeout then .next (s.burstStored x f)
      else .next (s.slotTimeout x f)
    | .filling => .next s
    | .verifying _ => .next s

/-- CARD_TIMEOUT (R130): the busy period, or the wait for a read burst, has reached the range. -/
def execCardTimeout (x : Slot) (s : State) : Result :=
  match (s.slot x).flight with
  | none => .next s
  | some f =>
    match f.phase with
    | .cardBusy since =>
      if rangeMicros f.timeout ≤ elapsed since s.now then .next (s.slotTimeout x f) else .next s
    | .verifying since =>
      if rangeMicros f.timeout ≤ elapsed since s.now then .next (s.slotTimeout x f) else .next s
    | .filling => .next s

/-- VERIFY_BURST_DONE (R128, R129): a burst has exactly its sectors' bytes, the read-back being split
as the writing was (DESIGN CHOICE, safe, log entry 28). A burst received counts as begun within the range
however late it ends (DESIGN CHOICE, unsafe, log entry 52). -/
def execVerifyBurstDone (x : Slot) (data : List Byte) (s : State) : Result :=
  match (s.slot x).flight with
  | none => .next s
  | some f =>
    match f.phase with
    | .verifying _ =>
      if data.length = burstLength f.planned f.sectorsDone * Config.sectorBytes then
        .next (s.burstRead x f data)
      else .next s
    | .filling => .next s
    | .cardBusy _ => .next s

end Sys2Proof.Machine
end

