-- ==== Sys2Proof/Machine/Send.lean ====
section
/-! DEFINITION. Meanings: the requests of the relay queue and the tether queue (chapter 8). -/
namespace Sys2Proof.Machine

/-! ### Relay queue -/

/-- SEND_NEXT (R141): the READY entry taken becomes IN_FLIGHT, bound to the CURRENT version. -/
def serveSendNext (s : State) : State × Served :=
  if 2 ≤ s.relayInFlight then refuse s .busy
  else
    match s.nextRelay with
    | none => okWith s (.sendNext none)
    | some e =>
      match (s.findRecord e.shot).bind Record.current with
      | none => okWith s (.sendNext none)
      | some v =>
        okWith
          (s.modRelay e.shot .inFlight fun q =>
            { q with state := .inFlight, version := some v.number })
          (.sendNext (some ⟨e.shot, e.cls, e.failures, v.number, v.scale, v.size, v.checksum⟩))

/-- A request that settles a relay entry: GONE without an entry, STATE unless it is IN_FLIGHT
(R142). -/
def settleRelay (shot : Nat) (s : State) (act : RelayEntry → State) : State × Served :=
  match s.relayEntry shot with
  | none => refuse s .gone
  | some e => if e.state = .inFlight then okWith (act e) .empty else refuse s .state

/-- SEND_DONE (R142). -/
def serveSendDone (shot : Nat) (s : State) : State × Served :=
  settleRelay shot s fun _ => ((s.removeRelay shot .sent).releaseTests shot).settle

/-- SEND_FAIL (R142). -/
def serveSendFail (shot : Nat) (s : State) : State × Served :=
  settleRelay shot s fun e =>
    if e.failures < 2 then
      (((s.modRelay shot .queued fun q =>
          { q with state := .ready, failures := q.failures + 1, version := none }).notify .relay
        (.sendReady shot false)).releaseTests shot).settle
    else
      (((s.removeRelay shot .sendFailed).notify .body (.sendReady shot true)).releaseTests
        shot).settle

/-! ### Tether queue -/

/-- Change the tether entry of a shot and the record's tether state. -/
def State.modTether (s : State) (shot : Nat) (st : TetherState) (f : TetherEntry → TetherEntry) :
    State :=
  ({ s with snq := { s.snq with tether := modTetherList s.snq.tether shot f } } : State).modRecord
    shot fun r => { r with tether := st }

/-- TRANSFER_NEXT (R144). -/
def serveTransferNext (s : State) : State × Served :=
  if 2 ≤ s.tetherInFlight then refuse s .busy
  else
    match s.snq.tether.find? fun e => !e.inFlight with
    | none => okWith s (.transferNext none)
    | some e =>
      okWith (s.modTether e.shot .inFlight fun q => { q with inFlight := true })
        (.transferNext (some ⟨e.shot, e.failures, Config.rawBytes,
          (s.findRecord e.shot).bind fun r => r.raw.checksum⟩))

/-- A request that settles a tether entry (R144). -/
def settleTether (shot : Nat) (s : State) (act : TetherEntry → State) : State × Served :=
  match s.tetherEntry shot with
  | none => refuse s .gone
  | some e => if e.inFlight then okWith (act e) .empty else refuse s .state

/-- TRANSFER_DONE (R144). -/
def serveTransferDone (shot : Nat) (s : State) : State × Served :=
  settleTether shot s fun _ => ((s.removeTether shot .transferred).releaseTests shot).settle

/-- TRANSFER_FAIL (R144). -/
def serveTransferFail (shot : Nat) (s : State) : State × Served :=
  settleTether shot s fun e =>
    if e.failures < 2 then
      (((s.modTether shot .queued fun q =>
          { q with inFlight := false, failures := q.failures + 1 }).notify .tether
        (.transferReady shot)).releaseTests shot).settle
    else
      ((((s.removeTether shot .missed).notify .tether (.transferMissed shot)).notify .body
        (.transferMissed shot)).releaseTests shot).settle

/-- SEND_SET (R143): from HOLD to LOOSE the raw release test is made for every shot queued. -/
def serveSendSet (f : SendSetFields) (s : State) : State × Served :=
  match firstBad [(1, badChoice f.auto), (2, badChoice f.policy)] with
  | some n => badField s n
  | none =>
    let auto := pick s.snq.auto f.auto
    let policy := pick s.snq.policy f.policy
    let s1 : State := { s with snq := { s.snq with auto := auto, policy := policy } }
    let s2 :=
      if s.snq.policy = .hold && policy = .loose then
        (s1.releaseAll (s.snq.tether.map TetherEntry.shot)).settle
      else s1
    okWith s2 (.sendSet auto policy)

/-- TETHER_QUEUE_CLEAR (R145). -/
def serveTetherQueueClear (s : State) : State × Served :=
  let shots := s.snq.tether.map TetherEntry.shot
  let s1 : State := { s with
    snq := { s.snq with tether := [] },
    catalog := s.catalog.map fun r => if shots.contains r.shot then { r with tether := .none } else r }
  okWith (s1.releaseAll shots).settle (.cleared shots.length)

/-- SEND_NEXT: meaning. -/
def execSendNext (p : Port) (tag : Byte) (s : State) : Result :=
  .next (s.takeRequest p tag .sendNext serveSendNext)

/-- SEND_DONE: meaning. -/
def execSendDone (p : Port) (tag : Byte) (shot : Nat) (s : State) : Result :=
  .next (s.takeRequest p tag .sendDone (serveSendDone shot))

/-- SEND_FAIL: meaning. -/
def execSendFail (p : Port) (tag : Byte) (shot : Nat) (s : State) : Result :=
  .next (s.takeRequest p tag .sendFail (serveSendFail shot))

/-- TRANSFER_NEXT: meaning. -/
def execTransferNext (p : Port) (tag : Byte) (s : State) : Result :=
  .next (s.takeRequest p tag .transferNext serveTransferNext)

/-- TRANSFER_DONE: meaning. -/
def execTransferDone (p : Port) (tag : Byte) (shot : Nat) (s : State) : Result :=
  .next (s.takeRequest p tag .transferDone (serveTransferDone shot))

/-- TRANSFER_FAIL: meaning. -/
def execTransferFail (p : Port) (tag : Byte) (shot : Nat) (s : State) : Result :=
  .next (s.takeRequest p tag .transferFail (serveTransferFail shot))

/-- SEND_SET: meaning. -/
def execSendSet (p : Port) (tag : Byte) (f : SendSetFields) (s : State) : Result :=
  .next (s.takeRequest p tag .sendSet (serveSendSet f))

/-- TETHER_QUEUE_CLEAR: meaning. -/
def execTetherQueueClear (p : Port) (tag : Byte) (s : State) : Result :=
  .next (s.takeRequest p tag .tetherQueueClear serveTetherQueueClear)

end Sys2Proof.Machine
end

