-- ==== Sys2Proof/Machine/Catalog.lean ====
section
/-! DEFINITION. Meanings: the catalog requests STATUS, LIST, INFO, OPEN, READ, CLOSE, TAG and DELETE
(chapters 1, 8 and 9), and the end of a READ's gathering. -/
namespace Sys2Proof.Machine

/-! ### STATUS and LIST -/

/-- The summary of STATUS for a port (R153). -/
def State.statusReport (s : State) (p : Port) : StatusReport :=
  { power := s.pwc.power, resync := (s.port p).resync, attached := s.prt.attached,
    freeBlocks := totalBlocks s.freeRuns,
    largestRun := match largestRun s.freeRuns with
      | some r => r.count
      | none => 0
    records := s.catalog.length, nextShot := s.nextShot, seq := s.rsq.state,
    burstActive := s.rsq.burst.active, burstId := s.rsq.burst.id, fifo := s.rsq.fifo.length,
    watermark := s.rsq.watermark, timeBase := s.now,
    lens :=
      { state := s.lnk.state, lostReason := s.lnk.lostReason, errors := s.lnk.errors,
        lastError := s.lnk.lastError,
        descriptor := match s.lnk.state with
          | .ready => s.lnk.descriptor
          | .absent => none
          | .identifying => none
          | .lost => none },
    focusMode := s.fdr.mode, focusState := s.fdr.state, inPosition := s.inPosition,
    lowCount := s.fdr.lowCount, slotA := s.med.a.state, slotB := s.med.b.state,
    engine := s.dev.engine, jobs := s.dev.queue.length, relayEntries := s.snq.relay.length,
    tetherEntries := s.snq.tether.length }

/-- STATUS (R153): the asking port's RESYNC flag is cleared in the same change. -/
def serveStatus (p : Port) (s : State) : State × Served :=
  okWith (s.setPort p { s.port p with resync := false }) (.status (s.statusReport p))

/-- One entry of a LIST reply (R153). -/
def listEntry (r : Record) : ListEntry :=
  { shot := r.shot, life := r.life, raw := r.raw.state, current := r.current.map Version.number,
    tags := r.tags, relay := r.relay, tether := r.tether, aRaw := r.copies.aRaw.state,
    aProof := r.copies.aProof.state, bRaw := r.copies.bRaw.state, bProof := r.copies.bProof.state }

/-- LIST (R153). -/
def serveList (first : Option Nat) (s : State) : State × Served :=
  okWith s (.list s.catalog.length s.nextShot
    (((s.catalog.filter fun r =>
      decide (first.getD 1 ≤ r.shot) && r.life != .deleting).take 64).map listEntry))

/-! ### INFO (R154, R155) -/

/-- A bit of a flag byte. -/
def bitAt (b : Bool) (i : Nat) : Nat := if b then 2 ^ i else 0

/-- The byte of a life state (R155); DELETING, which INFO never reports, has the next number. -/
def lifeByte : Life → Nat
  | .exposing => 0
  | .held => 1
  | .cardOnly => 2
  | .deleting => 3

/-- The byte of an origin (R155). -/
def originByte : Origin → Nat
  | .body => 0
  | .tether => 1
  | .trigger => 2

/-- The byte of a relay state (R155). -/
def relayByte : RelayState → Nat
  | .none => 0
  | .queued => 1
  | .inFlight => 2
  | .sent => 3
  | .sendFailed => 4

/-- The byte of a tether state (R155). -/
def tetherByte : TetherState → Nat
  | .none => 0
  | .queued => 1
  | .inFlight => 2
  | .transferred => 3
  | .missed => 4

/-- The byte of a raw state (R155). -/
def rawByte : RawState → Nat
  | .filling => 1
  | .present => 2
  | .released => 3

/-- The number of a focus state (R155). -/
def focusNumber : FocusState → Nat
  | .off => 0
  | .acquiring => 1
  | .locked => 2
  | .tracking => 3
  | .failed => 4
  | .lensLost => 5
  | .noLens => 6

/-- The byte of a version state (R155). -/
def versionByte : VersionState → Nat
  | .building => 0
  | .current => 1
  | .draining => 2

/-- The byte of a collection port (R155). -/
def collectorByte : Option Port → Nat
  | none => 0
  | some .body => 1
  | some .tether => 2
  | some .relay => 3

/-- The byte of a copy state (R155). -/
def copyByte : CopyState → Nat
  | .notRequired => 0
  | .pending => 1
  | .writing => 2
  | .verifying => 3
  | .written => 4
  | .failed => 5
  | .abandoned => 6

/-- The byte of a proof wanted (R155). -/
def wantedByte : Option Wanted → Nat
  | none => 0
  | some w => w.recipe + (match w.purpose with
    | .card => 0
    | .relay => 4)

/-- Six extent places: each extent as first block and count, unused places zero (R155). -/
def extentPlaces (es : List Run) : List Byte :=
  ((es.take 6).flatMap fun e => leBytes 2 e.first ++ leBytes 2 e.count) ++
    List.replicate (24 - 4 * (es.take 6).length) 0

/-- Bytes 28 to 35 of section A: the focus record (R155). -/
def focusBytes (f : Option FocusRecord) : List Byte :=
  match f with
  | none => List.replicate 8 0
  | some f =>
    leBytes 2 f.position ++ leBytes 2 (BitVec.ofInt 16 f.phase).toNat ++ leBytes 3 f.confidence ++
      leBytes 1 (focusNumber f.state + bitAt f.predicted 4 + bitAt f.clamped 5)

/-- The three handle counts of a part (R22, R155). -/
def State.handleBytes (s : State) (shot : Nat) (part : Part) (version : Option Nat) : List Byte :=
  leBytes 1 (s.prt.body.handleCount shot part version) ++
    leBytes 1 (s.prt.tether.handleCount shot part version) ++
    leBytes 1 (s.prt.relay.handleCount shot part version)

/-- The scale as its number (R155). -/
def scaleByte (x : Scale) : Nat := x.factor

/-- Section A of INFO (R155). -/
def State.infoA (s : State) (r : Record) : List Byte :=
  leBytes 4 r.shot ++ leBytes 1 (lifeByte r.life) ++ leBytes 1 (originByte r.origin) ++
  leBytes 2 r.burst ++ leBytes 1 r.frame ++
  leBytes 1 (bitAt r.stamp.isSome 0 + bitAt r.raw.checksum.isSome 1 + bitAt r.wanted.isSome 2 +
    bitAt r.focus.isSome 3) ++
  leBytes 1 (bitAt r.flags.damaged 0 + bitAt r.flags.syncMissed 1 + bitAt r.flags.waitExpired 2) ++
  leBytes 1 (bitAt r.tags.protect 0 + bitAt r.tags.send 1 + bitAt r.tags.priority 2 +
    16 * r.tags.rating) ++
  leBytes 2 r.flags.lostRows ++ leBytes 1 (relayByte r.relay) ++ leBytes 1 (tetherByte r.tether) ++
  leBytes 4 (r.stamp.getD 0).toNat ++ leBytes 1 (rawByte r.raw.state) ++
  leBytes 1 r.raw.extents.length ++ leBytes 1 (wantedByte r.wanted) ++ leBytes 1 r.lastVersion ++
  leBytes 4 (r.raw.checksum.getD 0).toNat ++ focusBytes r.focus ++
  s.handleBytes r.shot .raw none ++ leBytes 1 r.versions.length ++ extentPlaces r.raw.extents

/-- Section B of INFO for one version (R155). -/
def State.infoB (s : State) (shot : Nat) (v : Version) : List Byte :=
  leBytes 1 v.number ++ leBytes 1 v.recipe ++ leBytes 1 (scaleByte v.scale) ++
  leBytes 1 (versionByte v.state) ++
  leBytes 1 (bitAt v.conditions.mixed 0 + bitAt v.conditions.rawDamaged 1 +
    bitAt v.conditions.spaceWait 2 + bitAt v.checksum.isSome 7) ++
  leBytes 1 (collectorByte v.collector) ++ leBytes 1 v.extents.length ++
  s.handleBytes shot .proof (some v.number) ++ leBytes 4 v.size ++
  leBytes 4 (v.checksum.getD 0).toNat ++ extentPlaces v.extents

/-- Section C of INFO for one copy (R155). -/
def infoC (c : Copy) : List Byte :=
  leBytes 1 (copyByte c.state) ++ leBytes 1 c.attempts ++
  leBytes 1 (bitAt c.unverified 0 + bitAt c.version.isSome 1) ++ leBytes 1 (c.version.getD 0) ++
  leBytes 1 (c.placement.getD []).length ++
  (c.placement.getD []).flatMap fun r => leBytes 4 r.first ++ leBytes 4 r.count

/-- The payload of INFO (R155). -/
def State.infoBytes (s : State) (r : Record) : List Byte :=
  s.infoA r ++ r.versions.flatMap (s.infoB r.shot) ++ r.copies.all.flatMap infoC

/-- INFO (R154). -/
def serveInfo (shot : Nat) (s : State) : State × Served :=
  match s.namedRecord shot with
  | none => refuse s .gone
  | some r => okWith s (.bytes (s.infoBytes r))

/-! ### Handles (R157 to R159) -/

/-- The free handle with the lowest number, the list read from number `i` on (R157). -/
def freeHandle (i : Nat) (l : List (Option Handle)) : Option Nat :=
  match l with
  | [] => none
  | none :: _ => some i
  | some _ :: rest => freeHandle (i + 1) rest

/-- A port's handle is opened on a part (R157). -/
def State.openHandle (s : State) (p : Port) (h : Handle) (sum : Option Sum32) : State × Served :=
  match freeHandle 0 (s.port p).handles with
  | none => refuse s .full
  | some i =>
    okWith (s.setPort p { s.port p with handles := (s.port p).handles.set i (some h) })
      (.opened ⟨i, h.shot, h.part, h.version, h.size, sum⟩)

/-- The collection port of a version is cleared when the asking port is it (R22). -/
def State.collect (s : State) (shot n : Nat) (p : Port) : State :=
  s.modRecord shot fun r =>
    { r with versions := r.versions.map fun v =>
        if v.number = n && v.collector = some p then { v with collector := none } else v }

/-- OPEN (R157), its checks in their order. -/
def serveOpen (p : Port) (shot : Nat) (part : Choice Part) (s : State) : State × Served :=
  match part with
  | .other => badField s 2
  | .is part =>
    match s.namedRecord shot with
    | none => refuse s .gone
    | some r =>
      if r.life = .exposing then refuse s .state
      else
        match part with
        | .raw =>
          if r.raw.state = .present then
            s.openHandle p ⟨shot, .raw, none, Config.rawBytes⟩ r.raw.checksum
          else refuse s .gone
        | .proof =>
          match r.current with
          | none => refuse s .gone
          | some v =>
            if (freeHandle 0 (s.port p).handles).isSome then
              (s.collect shot v.number p).openHandle p ⟨shot, .proof, some v.number, v.size⟩
                v.checksum
            else refuse s .full

/-- READ (R158), its checks in their order; a passing one waits while its data are gathered. -/
def serveRead (p : Port) (handle offset length : Nat) (s : State) : State × Served :=
  if 3 < handle then badField s 1
  else
    match s.handle p handle with
    | none => refuse s .gone
    | some h =>
      if length = 0 || decide (16384 < length) then badField s 3
      else if h.size ≤ offset then badField s 2
      else
        (s, .waits (.gathering
          ⟨handle, h.shot, h.part, h.version, offset, min length (h.size - offset), []⟩))

/-- The payload of a READ reply (R158). -/
def readReply (g : Gather) : List Byte :=
  leBytes 1 g.handle ++ leBytes 4 g.offset ++ leBytes 2 g.length ++ g.got

/-- CLOSE (R159). -/
def serveClose (p : Port) (handle : Nat) (s : State) : State × Served :=
  if 3 < handle then badField s 1
  else
    match s.handle p handle with
    | none => refuse s .gone
    | some h =>
      okWith
        (((s.setPort p { s.port p with handles := (s.port p).handles.set handle none }).releaseTests
          h.shot).settle) .empty

/-! ### TAG (R14, R139, R156) -/

/-- TAG adds a relay entry: SEND or SEND_PRIORITY set on a shot without one (R139). -/
def tagAdds (entry : Option RelayEntry) (f : TagFields) : Bool :=
  entry.isNone && (f.send == some true || f.priority == some true)

/-- The refusal of SNQ before a TAG is applied (R139). -/
def State.tagRefusal (s : State) (r : Record) (f : TagFields) : Option Status :=
  let entry := s.relayEntry r.shot
  if tagAdds entry f then
    if r.life = .exposing then some .state
    else if r.life = .cardOnly || (r.current.isNone && r.raw.state != .present) then some .gone
    else if 32 ≤ s.snq.relay.length then some .full
    else none
  else
    match entry with
    | none => none
    | some e =>
      if f.send = some false && e.state = .inFlight then some .busy else none

/-- The tags and rating after a TAG that passes (R138, R139, R156). -/
def tagsAfter (t : Tags) (entry : Option RelayEntry) (f : TagFields) : Tags :=
  let base : Tags := { t with protect := f.protect.getD t.protect, rating := f.rating.getD t.rating }
  if tagAdds entry f then { base with send := true, priority := f.priority == some true }
  else
    match entry with
    | none => base
    | some _ =>
      if f.send = some false then { base with send := false, priority := false }
      else { base with priority := f.priority.getD t.priority }

/-- A relay entry is removed by clearing SEND (R139): a proof wanted for the relay goes too. -/
def State.untag (s : State) (shot : Nat) : State :=
  let s1 := (s.removeRelay shot .none).modRecord shot fun r =>
    { r with wanted := match r.wanted with
        | some ⟨i, .card⟩ => some ⟨i, .card⟩
        | some ⟨_, .relay⟩ => none
        | none => none }
  (s1.releaseTests shot).settle

/-- The class of an entry follows SEND_PRIORITY (R139). -/
def reclass (f : TagFields) (e : RelayEntry) : RelayEntry :=
  match f.priority with
  | none => e
  | some true => { e with cls := .priority }
  | some false => { e with cls := .normal }

/-- The relay entry that a TAG adds, removes or reclasses (R139), the tags already applied. -/
def State.tagRelay (s : State) (r : Record) (entry : Option RelayEntry) (f : TagFields) : State :=
  if tagAdds entry f then
    (s.appendRelay r (if f.priority = some true then .priority else .normal)).settle
  else
    match entry with
    | none => s
    | some _ =>
      if f.send = some false then s.untag r.shot
      else { s with snq := { s.snq with relay := modRelayList s.snq.relay r.shot (reclass f) } }

/-- The first failing field of TAG (R156): the rating, or SEND_PRIORITY set with SEND cleared. -/
def tagBad (f : TagFields) : Option Nat :=
  firstBad [(3, badRange 0 5 f.rating), (5, f.send == some false && f.priority == some true)]

/-- TAG (R14, R139, R156). -/
def serveTag (shot : Nat) (f : TagFields) (s : State) : State × Served :=
  match tagBad f with
  | some n => badField s n
  | none =>
    match s.namedRecord shot with
    | none => refuse s .gone
    | some r =>
      match s.tagRefusal r f with
      | some st => refuse s st
      | none =>
        let entry := s.relayEntry shot
        let t := tagsAfter r.tags entry f
        okWith ((s.modRecord shot fun q => { q with tags := t }).tagRelay r entry f) (.tags t)

/-! ### DELETE (R23, R24) -/

/-- A PENDING copy becomes NOT_REQUIRED (R24). -/
def unrequire (c : Copy) : Copy :=
  if c.state = .pending then { c with state := .notRequired } else c

/-- The record when its DELETE is taken: PENDING copies and proof wanted go (R24). -/
def deletedRecord (r : Record) : Record :=
  { r with
    wanted := none,
    copies := ⟨unrequire r.copies.aRaw, unrequire r.copies.aProof, unrequire r.copies.bRaw,
      unrequire r.copies.bProof⟩ }

/-- A proof copy bound to the version is in flight (R24). -/
def versionInFlight (r : Record) (n : Nat) : Bool :=
  (r.copies.aProof.inFlight && r.copies.aProof.version == some n) ||
    (r.copies.bProof.inFlight && r.copies.bProof.version == some n)

namespace State

/-- The shot's entries leave both send queues (R24). -/
def dropEntries (s : State) (shot : Nat) : State :=
  let s1 := if (s.relayEntry shot).isSome then s.removeRelay shot .none else s
  if (s1.tetherEntry shot).isSome then s1.removeTether shot .none else s1

/-- The running job of the shot is aborted (R24, R105). -/
def abortDeleted (s : State) (shot : Nat) : State :=
  match s.runningJob with
  | some j => if j.shot = shot then s.abortJob j .delete else s
  | none => s

/-- The versions with these numbers are freed, unless a proof copy bound to them is in flight
(R24). -/
def freeVersions (s : State) (r : Record) (numbers : List Nat) : State :=
  match numbers with
  | [] => s
  | n :: rest =>
    freeVersions (if versionInFlight r n then s else s.freeVersion r.shot n) r rest

/-- The raw is freed unless a raw copy is in flight (R24). -/
def freeDeletedRaw (s : State) (r : Record) : State :=
  if r.copies.aRaw.inFlight || r.copies.bRaw.inFlight then s else s.freeRaw r.shot

/-- The record is removed, or becomes DELETING while a copy is in flight (R24). -/
def endRecord (s : State) (r : Record) : State :=
  if r.anyInFlight then s.modRecord r.shot fun q => { q with life := .deleting }
  else s.removeRecord r.shot

/-- A DELETE that passes R23, in one change (R24). -/
def deleteShot (s : State) (r : Record) : State :=
  let s1 := ((s.modRecord r.shot deletedRecord).dropEntries r.shot)
  let s2 := (s1.removeQueued s1.dev.queue r.shot).abortDeleted r.shot
  let s3 := ((s2.freeDeletedRaw r).freeVersions r (r.versions.map Version.number)).endRecord r
  ((((s3.notifyAll (.shotDeleted r.shot)).admitAuto).chooseBoth).saveTest).settle

end State

/-- DELETE (R23, R24, R156). -/
def serveDelete (shot : Nat) (s : State) : State × Served :=
  match s.namedRecord shot with
  | none => refuse s .gone
  | some r =>
    if r.life = .exposing then refuse s .state
    else if r.tags.protect then refuse s .protectSet
    else if s.openOnShot shot then refuse s .busy
    else okWith (s.deleteShot r) (.deleted shot r.anyInFlight)

/-! ### Meanings -/

/-- STATUS: meaning. -/
def execStatus (p : Port) (tag : Byte) (s : State) : Result :=
  .next (s.takeRequest p tag .status (serveStatus p))

/-- LIST: meaning. -/
def execList (p : Port) (tag : Byte) (first : Option Nat) (s : State) : Result :=
  .next (s.takeRequest p tag .listRecords (serveList first))

/-- INFO: meaning. -/
def execInfo (p : Port) (tag : Byte) (shot : Nat) (s : State) : Result :=
  .next (s.takeRequest p tag .info (serveInfo shot))

/-- OPEN: meaning. -/
def execOpen (p : Port) (tag : Byte) (shot : Nat) (part : Choice Part) (s : State) : Result :=
  .next (s.takeRequest p tag .openPart (serveOpen p shot part))

/-- READ: meaning. -/
def execRead (p : Port) (tag : Byte) (handle offset length : Nat) (s : State) : Result :=
  .next (s.takeRequest p tag .readPart (serveRead p handle offset length))

/-- CLOSE: meaning. -/
def execClose (p : Port) (tag : Byte) (handle : Nat) (s : State) : Result :=
  .next (s.takeRequest p tag .closeHandle (serveClose p handle))

/-- TAG: meaning. -/
def execTag (p : Port) (tag : Byte) (shot : Nat) (f : TagFields) (s : State) : Result :=
  .next (s.takeRequest p tag .tag (serveTag shot f))

/-- DELETE: meaning. -/
def execDelete (p : Port) (tag : Byte) (shot : Nat) (s : State) : Result :=
  .next (s.takeRequest p tag .delete (serveDelete shot))

/-- READ_GATHERED (R158): the last transfer has completed, and the reply is formed. -/
def execReadGathered (p : Port) (s : State) : Result :=
  match (s.port p).request with
  | none => .next s
  | some o =>
    match o.stage with
    | .gathering g =>
      if g.length ≤ g.got.length then .next (s.formReply p .ok (.bytes (readReply g)))
      else .next s
    | .answered => .next s
    | .resetting _ => .next s
    | .wakeHeld => .next s

end Sys2Proof.Machine
end

