-- ==== Sys2Proof/Machine/Power.lean ====
section
/-! DEFINITION. Meanings: full reset, STANDBY, RESUME, WAKE_SET, the power-low line and the end of the
stabilisation wait (chapter 10). -/
namespace Sys2Proof.Machine

/-! ### Requests -/

/-- STANDBY (R164, R32, R89). -/
def serveStandby (s : State) : State × Served :=
  match s.pwc.power with
  | .active =>
    if s.rsq.burst.active then refuse s .busy
    else
      let s1 := s.goOff (s.rsq.state == .hold)
      okWith { s1 with pwc := { s1.pwc with power := .standby } } .empty
  | .standby => okWith s .empty
  | .waking => refuse s .state
  | .saving => refuse s .saving

/-- A RESUME is taken (R169, R89): ACTIVE again, or WAKING when SAVING was entered from STANDBY or
WAKING; the slots choose and an attempt to start a job follows. -/
def State.resumed (s : State) : State :=
  let s1 : State :=
    if s.pwc.savedFrom = .active then
      let t := ({ s with pwc := { s.pwc with power := .active, done := false } } : State).leaveOff
      if t.lnk.state = .absent && t.pins.lens then t.startIdent else t
    else
      ({ s with pwc := { s.pwc with held := [], done := false } } : State).enterWaking .resume
  ((s1.chooseBoth).markAttempt).settle

/-- RESUME (R169). -/
def serveResume (s : State) : State × Served :=
  match s.pwc.power with
  | .active => okWith s .empty
  | .standby => refuse s .state
  | .waking => refuse s .state
  | .saving =>
    if s.pins.powerLow then refuse s .state
    else if !s.pwc.done then refuse s .busy
    else okWith s.resumed .empty

/-- The settings after WAKE_SET (R165). -/
def wakeAfter (w : WakeSettings) (f : WakeFields) : WakeSettings :=
  { half := pick w.half f.half, trigger := pick w.trigger f.trigger,
    request := pick w.request f.request, attach := pick w.attach f.attach,
    stabilise := match f.stabilise with
      | some n => clamp 5 100 n
      | none => w.stabilise }

/-- WAKE_SET (R165). -/
def serveWakeSet (f : WakeFields) (s : State) : State × Served :=
  match wakeBad f with
  | some n => badField s n
  | none =>
    let w := wakeAfter s.pwc.settings f
    okWith { s with pwc := { s.pwc with settings := w } } (.wakeSet w)

/-- STANDBY: meaning. -/
def execStandby (p : Port) (tag : Byte) (s : State) : Result :=
  .next (s.takeRequest p tag .standby serveStandby)

/-- RESUME: meaning. -/
def execResume (p : Port) (tag : Byte) (s : State) : Result :=
  .next (s.takeRequest p tag .resume serveResume)

/-- WAKE_SET: meaning. -/
def execWakeSet (p : Port) (tag : Byte) (f : WakeFields) (s : State) : Result :=
  .next (s.takeRequest p tag .wakeSet (serveWakeSet f))

/-! ### Lines and the wait -/

/-- POWER_LOW_ASSERTED (R167): SAVING is entered from any other state. -/
def execPowerLowAsserted (s : State) : Result :=
  if s.pins.powerLow then .next s
  else
    let s1 : State := { s with pins := { s.pins with powerLow := true } }
    if s.pwc.power = .saving then .next s1 else .next s1.enterSaving.settle

/-- POWER_LOW_DEASSERTED (R167): only the level changes. -/
def execPowerLowDeasserted (s : State) : Result :=
  .next { s with pins := { s.pins with powerLow := false } }

/-- The end of a wake (R166), in the order of the rule. -/
def State.wakeEnded (s : State) (w : Wake) : State :=
  let held := s.pwc.held
  let s1 := ({ s with pwc := { s.pwc with power := .active, wake := none, held := [] } } :
    State).leaveOff
  let s2 := if s1.pins.lens then s1.startIdent else s1
  let s3 := (s2.notifyBodyTether (.wakeDone w.source)).serveHeld held
  if s3.pins.halfPress then s3.halfPress else s3

/-- WAKE_WAIT_END (R166): the stabilisation time has passed. -/
def execWakeWaitEnd (s : State) : Result :=
  match s.pwc.power, s.pwc.wake with
  | .waking, some w =>
    if reached (w.start + BitVec.ofNat 32 (w.wait * 1000)) s.now then .next (s.wakeEnded w)
    else .next s
  | _, _ => .next s

/-- FULL_RESET (R163, R71, R121, R162): every block returns to its state after reset, then the
card-detect, lens-detect and power-low lines are read. The lines keep their levels, the tether is
detached (log entry 14), and the commands waiting stay in the queue. A serial port that ignored data-in
hears again (DESIGN CHOICE, unsafe, log entry 44), and a transfer in progress is dropped (DESIGN CHOICE,
safe, log entry 53). -/
def execFullReset (s : State) : Result :=
  let s1 : State :=
    { State.reset with pins := s.pins, freeCount := s.freeCount, pending := s.pending }
  let s2 := if s1.pins.cardA then s1.insertCard .a else s1
  let s3 := if s2.pins.cardB then s2.insertCard .b else s2
  let s4 := if s3.pins.lens then s3.startIdent else s3
  .next (if s4.pins.powerLow then s4.enterSaving.settle else s4)

end Sys2Proof.Machine
end

