-- ==== Sys2Proof/Machine/Ports.lean ====
section
/-! DEFINITION. Meanings: the frames of the three ports (R147 to R151, R161), PORT_SET, PORT_RESET and
the tether's attach and detach (R162). -/
namespace Sys2Proof.Machine

/-! ### Requests -/

/-- PORT_SET (R152). -/
def servePortSet (remoteDelete : Choice Bool) (s : State) : State × Served :=
  match remoteDelete with
  | .other => badField s 1
  | .is b => okWith { s with prt := { s.prt with remoteDelete := b } } (.portSet b)

/-- PORT_RESET (R162): one naming the body port drops itself, and no reply is formed. -/
def servePortReset (port : Choice Port) (s : State) : State × Served :=
  match port with
  | .other => badField s 1
  | .is q => okWith (s.resetPort q).settle .empty

/-- PORT_SET: meaning. -/
def execPortSet (p : Port) (tag : Byte) (remoteDelete : Choice Bool) (s : State) : Result :=
  .next (s.takeRequest p tag .portSet (servePortSet remoteDelete))

/-- PORT_RESET: meaning. -/
def execPortReset (p : Port) (tag : Byte) (port : Choice Port) (s : State) : Result :=
  .next (s.takeRequest p tag .portReset (servePortReset port))

/-- TETHER_ATTACH (R147, R162, R165): the port is reset and attached; in STANDBY the part wakes when
the enable is on. -/
def execTetherAttach (s : State) : Result :=
  if s.prt.attached then .next s
  else
    let s1 := (s.resetPort .tether).settle
    let s2 : State := { s1 with prt := { s1.prt with attached := true } }
    if s2.pwc.power = .standby && s2.pwc.settings.attach then .next (s2.enterWaking .tetherAttach)
    else .next s2

/-- TETHER_DETACH (R147, R162). -/
def execTetherDetach (s : State) : Result :=
  if s.prt.attached then
    let s1 := (s.resetPort .tether).settle
    .next { s1 with prt := { s1.prt with attached := false } }
  else .next s

/-! ### Frames received -/

/-- Fill bytes before a frame are ignored on the serial ports (R147). -/
def dropFill (p : Port) (bs : List Byte) : List Byte :=
  match p with
  | .tether => bs
  | .body => bs.dropWhile fun b => b == 0
  | .relay => bs.dropWhile fun b => b == 0

/-- The code echoed by FRAME_BAD: 0 when the frame ended before its tag byte (R149). -/
def badCode (bs : List Byte) : Byte := if bs.length < 3 then 0 else byteAt bs 1

/-- The tag echoed by FRAME_BAD: 0 when the frame ended before its tag byte (R149). -/
def badTag (bs : List Byte) : Byte := if bs.length < 3 then 0 else byteAt bs 2

/-- The frame's length field exceeds 16,400 (R149). -/
def oversize (bs : List Byte) : Bool := decide (Config.maxPayload < frameLength bs)

namespace State

/-- A bad frame is answered FRAME_BAD (R149). -/
def answerBad (s : State) (p : Port) (bs : List Byte) : State :=
  s.answerFrame p (.received (badCode bs)) (badTag bs) .frameBad

/-- A serial port ignores data-in until select is deasserted (R149). -/
def setDeaf (s : State) (p : Port) (b : Bool) : State := s.setPort p { s.port p with deaf := b }

/-- An oversize header has arrived on a serial port (R149). -/
def oversizeFrame (s : State) (p : Port) (bs : List Byte) : State := (s.answerBad p bs).setDeaf p true

/-- A request named by a frame is taken under R150 and served by the block that owns it. -/
def takeNamed (s : State) (p : Port) (tag : Byte) (r : Request) : State :=
  match r with
  | .burstStart f => s.takeRequest p tag r.kind (serveBurstStart p f)
  | .burstStop => s.takeRequest p tag r.kind serveBurstStop
  | .programWrite f => s.takeRequest p tag r.kind (serveProgramWrite f)
  | .programRead => s.takeRequest p tag r.kind serveProgramRead
  | .seqHold => s.takeRequest p tag r.kind serveSeqHold
  | .seqRun => s.takeRequest p tag r.kind serveSeqRun
  | .syncMode f => s.takeRequest p tag r.kind (serveSyncMode f)
  | .captureSet f => s.takeRequest p tag r.kind (serveCaptureSet f)
  | .watermark v => s.takeRequest p tag r.kind (serveWatermark v)
  | .focusStart m => s.takeRequest p tag r.kind (serveFocusStart p m)
  | .focusStop => s.takeRequest p tag r.kind serveFocusStop
  | .focusArea i => s.takeRequest p tag r.kind (serveFocusArea i)
  | .focusSetup f => s.takeRequest p tag r.kind (serveFocusSetup f)
  | .focusResult => s.takeRequest p tag r.kind serveFocusResult
  | .markerWrite f => s.takeRequest p tag r.kind (serveMarkerWrite f)
  | .status => s.takeRequest p tag r.kind (serveStatus p)
  | .listRecords n => s.takeRequest p tag r.kind (serveList n)
  | .info n => s.takeRequest p tag r.kind (serveInfo n)
  | .openPart n part => s.takeRequest p tag r.kind (serveOpen p n part)
  | .readPart h off len => s.takeRequest p tag r.kind (serveRead p h off len)
  | .closeHandle h => s.takeRequest p tag r.kind (serveClose p h)
  | .tag n f => s.takeRequest p tag r.kind (serveTag n f)
  | .delete n => s.takeRequest p tag r.kind (serveDelete n)
  | .develop n i => s.takeRequest p tag r.kind (serveDevelop p n i)
  | .devStatus j => s.takeRequest p tag r.kind (serveDevStatus j)
  | .toneRead i => s.takeRequest p tag r.kind (serveToneRead i)
  | .toneWrite i first vs => s.takeRequest p tag r.kind (serveToneWrite i first vs)
  | .recipeWrite i f => s.takeRequest p tag r.kind (serveRecipeWrite p i f)
  | .recipeRead i => s.takeRequest p tag r.kind (serveRecipeRead i)
  | .devSet c l => s.takeRequest p tag r.kind (serveDevSet c l)
  | .slotMode m => s.takeRequest p tag r.kind (serveSlotMode m)
  | .mediaSet f => s.takeRequest p tag r.kind (serveMediaSet f)
  | .cardSpace x first count => s.takeRequest p tag r.kind (serveCardSpace x first count)
  | .cardSpaceClear x => s.takeRequest p tag r.kind (serveCardSpaceClear x)
  | .slotReset x => s.takeRequest p tag r.kind (serveSlotReset x)
  | .slotDrop x => s.takeRequest p tag r.kind (serveSlotDrop x)
  | .slotFull x => s.takeRequest p tag r.kind (serveSlotFull x)
  | .placement n => s.takeRequest p tag r.kind (servePlacement n)
  | .mediaStatus => s.takeRequest p tag r.kind serveMediaStatus
  | .sendNext => s.takeRequest p tag r.kind serveSendNext
  | .sendDone n => s.takeRequest p tag r.kind (serveSendDone n)
  | .sendFail n => s.takeRequest p tag r.kind (serveSendFail n)
  | .transferNext => s.takeRequest p tag r.kind serveTransferNext
  | .transferDone n => s.takeRequest p tag r.kind (serveTransferDone n)
  | .transferFail n => s.takeRequest p tag r.kind (serveTransferFail n)
  | .sendSet f => s.takeRequest p tag r.kind (serveSendSet f)
  | .tetherQueueClear => s.takeRequest p tag r.kind serveTetherQueueClear
  | .portSet b => s.takeRequest p tag r.kind (servePortSet b)
  | .portReset q => s.takeRequest p tag r.kind (servePortReset q)
  | .standby => s.takeRequest p tag r.kind serveStandby
  | .resume => s.takeRequest p tag r.kind serveResume
  | .wakeSet f => s.takeRequest p tag r.kind (serveWakeSet f)

/-- A frame that has passed R149 (R150, cases 1 to 4). -/
def goodFrame (s : State) (p : Port) (bs : List Byte) (asks : Option Request) : State :=
  match asks with
  | some r => s.takeNamed p (byteAt bs 2) r
  | none =>
    s.answerFrame p (.received (byteAt bs 1)) (byteAt bs 2)
      (if (s.port p).request.isSome then .busy else .unknown)

/-- A frame on a serial port, fill already dropped: judged bad by its header or its CRC, or good
(R149); bytes that are not one whole frame are no frame (log entry 3). -/
def serialFrame (s : State) (p : Port) (bs : List Byte) (asks : Option Request) : State :=
  if bs.length < 8 then s
  else if oversize bs then s.oversizeFrame p bs
  else if bs.length != 8 + frameLength bs then s
  else if frameBad bs then s.answerBad p bs
  else s.goodFrame p bs asks

/-- A bulk OUT transfer on the tether port (R147, R149). -/
def tetherFrame (s : State) (bs : List Byte) (asks : Option Request) : State :=
  if bs.length < 8 || oversize bs || bs.length != 8 + frameLength bs || frameBad bs then
    s.answerBad .tether bs
  else s.goodFrame .tether bs asks

end State

/-- FRAME_RECEIVED (R147 to R150). -/
def execFrameReceived (p : Port) (bytes : List Byte) (asks : Option Request) (s : State) : Result :=
  if s.hears p then
    match p with
    | .tether => .next (s.tetherFrame bytes asks)
    | .body => .next (s.serialFrame .body (dropFill .body bytes) asks)
    | .relay => .next (s.serialFrame .relay (dropFill .relay bytes) asks)
  else .next s

/-- A frame that has begun on a serial port and has not arrived whole. -/
def partFrame (bs : List Byte) : Bool :=
  !bs.isEmpty && (decide (bs.length < 8) || decide (bs.length < 8 + frameLength bs))

/-- SELECT_DEASSERTED (R149, R161): a frame partly received is bad; data-in counts again. A frame
partly sent stays where it was. The tether port has no select line. -/
def execSelectDeasserted (p : Port) (received : List Byte) (s : State) : Result :=
  match p with
  | .tether => .next s
  | _ =>
    let s1 := s.setDeaf p false
    if s.hears p && partFrame (dropFill p received) then .next (s1.answerBad p (dropFill p received))
    else .next s1

/-- OVERSIZE_HEADER_RECEIVED (R149), on a serial port. -/
def execOversizeHeaderReceived (p : Port) (header : List Byte) (s : State) : Result :=
  match p with
  | .tether => .next s
  | _ =>
    if s.hears p && (dropFill p header).length == 8 && oversize (dropFill p header) then
      .next (s.oversizeFrame p (dropFill p header))
    else .next s

/-! ### Frames sent (R148, R161) -/

end Sys2Proof.Machine

namespace Sys2Proof.Config

/-- FREE VALUE (DESIGN CHOICE, log entry 31): the payload bytes of a reply whose layout the spec does
not give. -/
opaque replyPayload : Machine.Payload → List Byte

/-- FREE VALUE (DESIGN CHOICE, log entry 31): the payload bytes of a notice; the spec gives its
contents and no layout. -/
opaque noticePayload : Machine.Notice → List Byte

end Sys2Proof.Config

namespace Sys2Proof.Machine

/-- The payload bytes of a reply (R151, R155, R158; log entry 31), at most those R148 allows. -/
def Payload.encoded (pl : Payload) : List Byte :=
  match pl with
  | .empty => []
  | .field n => leBytes 1 n
  | .bytes b => b
  | _ => (Config.replyPayload pl).take Config.maxPayload

/-- The code byte of a reply (R148, R149). -/
def ReplyCode.toByte (c : ReplyCode) : Byte :=
  match c with
  | .request k => Config.requestCode k
  | .received b => b

/-- The frame of a reply: kind 2, the code, the tag and the status (R148, R151). -/
def Reply.frame (r : Reply) : List Byte :=
  frameBytes 2 r.code.toByte r.tag r.status.toByte r.payload.encoded

/-- The frame of a notice: kind 3, the notice's code, tag 0 and status 0 (R148, R161). -/
def Notice.frame (n : Notice) : List Byte :=
  frameBytes 3 (Config.noticeCode n.kindIndex) 0 0 ((Config.noticePayload n).take Config.maxPayload)

/-- What a port sends on its data output. -/
inductive Output where
  | reply (r : Reply)
  | notice (n : Notice)
  | nothing
  deriving DecidableEq, Repr

/-- The data output of a port (R161): the reply at the head of its list once formed; on a serial port
otherwise the oldest notice. The tether's data output, the bulk IN pipe, carries replies only. -/
def State.output (s : State) (p : Port) : Output :=
  match (s.port p).replies with
  | .formed r _ :: _ => .reply r
  | _ =>
    match p, (s.port p).notices with
    | .tether, _ => .nothing
    | _, n :: _ => .notice n
    | _, [] => .nothing

/-- What the tether's interrupt pipe offers beside it: the oldest notice (R161). -/
def State.interruptOutput (s : State) : Option Notice := (s.port .tether).notices.head?

/-- The bytes a port sends next on its data output: a whole frame, or fill on a serial port (R147,
R161). -/
def State.outputBytes (s : State) (p : Port) : List Byte :=
  match s.output p with
  | .reply r => r.frame
  | .notice n => n.frame
  | .nothing => if p = .tether then [] else [0]

/-- The bytes of the next interrupt transfer of the tether port (R161). -/
def State.interruptBytes (s : State) : Option (List Byte) := s.interruptOutput.map Notice.frame

/-- The reply at the head has been delivered: it leaves the list, and the slot empties when it was
its request's (R161). -/
def PortSt.deliverReply (q : PortSt) : PortSt :=
  match q.replies with
  | .formed _ own :: rest =>
    { q with replies := rest, request := if own then none else q.request }
  | .place :: _ => q
  | [] => q

/-- FRAME_DELIVERED (R161): a notice leaves a serial port so; the tether's leave by
NOTICE_ACKNOWLEDGED. -/
def execFrameDelivered (p : Port) (what : Sent) (s : State) : Result :=
  match what with
  | .reply => .next (s.setPort p (s.port p).deliverReply)
  | .notice =>
    match p with
    | .tether => .next s
    | _ => .next (s.setPort p { s.port p with notices := (s.port p).notices.drop 1 })

/-- NOTICE_ACKNOWLEDGED (R161). -/
def execNoticeAcknowledged (s : State) : Result :=
  .next (s.setPort .tether { s.port .tether with notices := (s.port .tether).notices.drop 1 })

end Sys2Proof.Machine
end

