-- ==== Sys2Proof/Machine/Dispatch.lean ====
section
/-! DEFINITION. The effect of every command: one direct call of its meaning for each constructor. -/
namespace Sys2Proof.Machine

def exec (i : Instr) (s : State) : Host.Outcome State Fault Refusal :=
  match i with
  | .fullReset => Sys2Proof.Machine.execFullReset s
  | .frameReceived p bytes asks => Sys2Proof.Machine.execFrameReceived p bytes asks s
  | .selectDeasserted p received => Sys2Proof.Machine.execSelectDeasserted p received s
  | .frameDelivered p what => Sys2Proof.Machine.execFrameDelivered p what s
  | .noticeAcknowledged => Sys2Proof.Machine.execNoticeAcknowledged s
  | .burstStart p tag f => Sys2Proof.Machine.execBurstStart p tag f s
  | .burstStop p tag => Sys2Proof.Machine.execBurstStop p tag s
  | .programWrite p tag f => Sys2Proof.Machine.execProgramWrite p tag f s
  | .programRead p tag => Sys2Proof.Machine.execProgramRead p tag s
  | .seqHold p tag => Sys2Proof.Machine.execSeqHold p tag s
  | .seqRun p tag => Sys2Proof.Machine.execSeqRun p tag s
  | .syncMode p tag f => Sys2Proof.Machine.execSyncMode p tag f s
  | .captureSet p tag f => Sys2Proof.Machine.execCaptureSet p tag f s
  | .watermark p tag value => Sys2Proof.Machine.execWatermark p tag value s
  | .focusStart p tag mode => Sys2Proof.Machine.execFocusStart p tag mode s
  | .focusStop p tag => Sys2Proof.Machine.execFocusStop p tag s
  | .focusArea p tag index => Sys2Proof.Machine.execFocusArea p tag index s
  | .focusSetup p tag f => Sys2Proof.Machine.execFocusSetup p tag f s
  | .focusResult p tag => Sys2Proof.Machine.execFocusResult p tag s
  | .markerWrite p tag f => Sys2Proof.Machine.execMarkerWrite p tag f s
  | .status p tag => Sys2Proof.Machine.execStatus p tag s
  | .listRecords p tag first => Sys2Proof.Machine.execList p tag first s
  | .info p tag shot => Sys2Proof.Machine.execInfo p tag shot s
  | .openPart p tag shot part => Sys2Proof.Machine.execOpen p tag shot part s
  | .readPart p tag handle offset length => Sys2Proof.Machine.execRead p tag handle offset length s
  | .readGathered p => Sys2Proof.Machine.execReadGathered p s
  | .closeHandle p tag handle => Sys2Proof.Machine.execClose p tag handle s
  | .tag p tag shot f => Sys2Proof.Machine.execTag p tag shot f s
  | .delete p tag shot => Sys2Proof.Machine.execDelete p tag shot s
  | .develop p tag shot recipe => Sys2Proof.Machine.execDevelop p tag shot recipe s
  | .devStatus p tag job => Sys2Proof.Machine.execDevStatus p tag job s
  | .toneRead p tag table => Sys2Proof.Machine.execToneRead p tag table s
  | .toneWrite p tag table first values => Sys2Proof.Machine.execToneWrite p tag table first values s
  | .recipeWrite p tag index f => Sys2Proof.Machine.execRecipeWrite p tag index f s
  | .recipeRead p tag index => Sys2Proof.Machine.execRecipeRead p tag index s
  | .devSet p tag card relay => Sys2Proof.Machine.execDevSet p tag card relay s
  | .slotMode p tag mode => Sys2Proof.Machine.execSlotMode p tag mode s
  | .mediaSet p tag f => Sys2Proof.Machine.execMediaSet p tag f s
  | .cardSpace p tag slot first count => Sys2Proof.Machine.execCardSpace p tag slot first count s
  | .cardSpaceClear p tag slot => Sys2Proof.Machine.execCardSpaceClear p tag slot s
  | .slotReset p tag slot => Sys2Proof.Machine.execSlotReset p tag slot s
  | .slotResetDone slot outcome => Sys2Proof.Machine.execSlotResetDone slot outcome s
  | .slotDrop p tag slot => Sys2Proof.Machine.execSlotDrop p tag slot s
  | .slotFull p tag slot => Sys2Proof.Machine.execSlotFull p tag slot s
  | .placement p tag shot => Sys2Proof.Machine.execPlacement p tag shot s
  | .mediaStatus p tag => Sys2Proof.Machine.execMediaStatus p tag s
  | .sendNext p tag => Sys2Proof.Machine.execSendNext p tag s
  | .sendDone p tag shot => Sys2Proof.Machine.execSendDone p tag shot s
  | .sendFail p tag shot => Sys2Proof.Machine.execSendFail p tag shot s
  | .transferNext p tag => Sys2Proof.Machine.execTransferNext p tag s
  | .transferDone p tag shot => Sys2Proof.Machine.execTransferDone p tag shot s
  | .transferFail p tag shot => Sys2Proof.Machine.execTransferFail p tag shot s
  | .sendSet p tag f => Sys2Proof.Machine.execSendSet p tag f s
  | .tetherQueueClear p tag => Sys2Proof.Machine.execTetherQueueClear p tag s
  | .portSet p tag remoteDelete => Sys2Proof.Machine.execPortSet p tag remoteDelete s
  | .portReset p tag port => Sys2Proof.Machine.execPortReset p tag port s
  | .standby p tag => Sys2Proof.Machine.execStandby p tag s
  | .resume p tag => Sys2Proof.Machine.execResume p tag s
  | .wakeSet p tag f => Sys2Proof.Machine.execWakeSet p tag f s
  | .tetherAttach => Sys2Proof.Machine.execTetherAttach s
  | .tetherDetach => Sys2Proof.Machine.execTetherDetach s
  | .halfPressAsserted => Sys2Proof.Machine.execHalfPressAsserted s
  | .halfPressReleased => Sys2Proof.Machine.execHalfPressReleased s
  | .triggerEdge edge => Sys2Proof.Machine.execTriggerEdge edge s
  | .powerLowAsserted => Sys2Proof.Machine.execPowerLowAsserted s
  | .powerLowDeasserted => Sys2Proof.Machine.execPowerLowDeasserted s
  | .wakeWaitEnd => Sys2Proof.Machine.execWakeWaitEnd s
  | .cardDetectAsserted slot => Sys2Proof.Machine.execCardDetectAsserted slot s
  | .cardDetectDeasserted slot => Sys2Proof.Machine.execCardDetectDeasserted slot s
  | .lensDetectAsserted => Sys2Proof.Machine.execLensDetectAsserted s
  | .lensDetectDeasserted => Sys2Proof.Machine.execLensDetectDeasserted s
  | .linkReply chars names => Sys2Proof.Machine.execLinkReply chars names s
  | .linkReplyLate => Sys2Proof.Machine.execLinkReplyLate s
  | .pollWhereDue => Sys2Proof.Machine.execPollWhereDue s
  | .frameDue => Sys2Proof.Machine.execFrameDue s
  | .focusWaitTimeout => Sys2Proof.Machine.execFocusWaitTimeout s
  | .exposureMidpoint => Sys2Proof.Machine.execExposureMidpoint s
  | .exposureEnd => Sys2Proof.Machine.execExposureEnd s
  | .viewFrameStart => Sys2Proof.Machine.execViewFrameStart s
  | .entryEnd => Sys2Proof.Machine.execEntryEnd s
  | .pdPair left right => Sys2Proof.Machine.execPdPair left right s
  | .imageRow row => Sys2Proof.Machine.execImageRow row s
  | .dramTransferDone => Sys2Proof.Machine.execDramTransferDone s
  | .readoutEnd => Sys2Proof.Machine.execReadoutEnd s
  | .devRowDone => Sys2Proof.Machine.execDevRowDone s
  | .cardBusyEnd slot => Sys2Proof.Machine.execCardBusyEnd slot s
  | .cardTimeout slot => Sys2Proof.Machine.execCardTimeout slot s
  | .verifyBurstDone slot data => Sys2Proof.Machine.execVerifyBurstDone slot data s
  | .oversizeHeaderReceived p header => Sys2Proof.Machine.execOversizeHeaderReceived p header s

end Sys2Proof.Machine
end

