-- ==== Sys2Proof/Machine/Step.lean ====
section
/-! DEFINITION. One step: the command at the front of the queue takes its effect; on an empty queue the
time base counts one microsecond (R51; DESIGN CHOICE, safe, log entry 1). -/
namespace Sys2Proof.Machine

/-- The state with a microsecond gone by (R51). -/
def State.tick (s : State) : State := { s with rsq := { s.rsq with timeBase := s.rsq.timeBase + 1 } }

/-- One step of the machine. -/
def step (s : State) : Host.Outcome State Fault Refusal :=
  match s.pending with
  | [] => .next s.tick
  | c :: rest => exec c { s with pending := rest }

/-- The state with the command that a table word spells put at the front of its queue: the table
gives no row any bits, so no word spells one and the state stays. -/
def State.withFetchWord (s : State) (nbits w : Nat) : State :=
  match Sys2Proof.decodeTableWord nbits w with
  | some c => { s with pending := c :: s.pending }
  | none => s

end Sys2Proof.Machine
end

