-- ==== Sys2Proof/WellFormed.lean ====
section
/-! DEFINITION. The commands that can reach the part: the shapes and widths that spec/ gives their
operands. The meanings are total on every command; a value inside these shapes but outside its
field's range is answered BAD_FIELD by its request. -/
namespace Sys2Proof

/-- A 32-bit value: shot numbers, sectors, offsets and exposures (R9, R123, R158). -/
def fits32 (n : Nat) : Bool := decide (n < 2 ^ 32)

/-- An optional value passes a check when it is given. -/
def optOk {α : Type} (check : α → Bool) (o : Option α) : Bool :=
  match o with
  | none => true
  | some a => check a

/-- A serial port: it has a select line (R147). -/
def serialPort (p : Port) : Bool :=
  match p with
  | .body => true
  | .relay => true
  | .tether => false

/-- BURST_START: the frame count is 0..255 (R35). -/
def BurstFields.ok (f : BurstFields) : Bool :=
  decide (f.count ≤ 255) && fits32 f.exposure && fits32 f.interval

/-- MARKER_WRITE: a pattern is given whole, 32 rows of 32 columns in two planes (R87). -/
def MarkerFields.ok (f : MarkerFields) : Bool :=
  optOk (fun (p : List (BitVec 32) × List (BitVec 32)) => p.1.length == 32 && p.2.length == 32)
    f.pattern

/-- RECIPE_WRITE: a matrix is given whole, as nine coefficients (R91). -/
def RecipeFields.ok (f : RecipeFields) : Bool :=
  optOk (fun (m : List Int) => m.length == 9) f.matrix

/-- A byte of the lens link has eight data bits (R69). -/
def LinkChar.ok (c : LinkChar) : Bool := c.data.length == 8

/-- A still row has 6048 samples and a view row 1512 pixels (R30, R50). -/
def SensorRow.ok (r : SensorRow) : Bool :=
  match r with
  | .still samples => samples.length == 6048
  | .view pixels => pixels.length == 1512

/-- A PD pair is two lines of 1512 samples (R54). -/
def pdOk (left right : List Sample) : Bool := left.length == 1512 && right.length == 1512

/-- A read-back burst is 1 to 256 whole sectors (R128). -/
def burstOk (data : List Byte) : Bool :=
  decide (0 < data.length) && decide (data.length ≤ Config.burstSectors * Config.sectorBytes) &&
    data.length % Config.sectorBytes == 0

/-- A request as a frame's fields can carry it. -/
def Request.ok (r : Request) : Bool :=
  match r with
  | .burstStart f => f.ok
  | .markerWrite f => f.ok
  | .recipeWrite _ f => f.ok
  | .info n => fits32 n
  | .openPart n _ => fits32 n
  | .readPart _ off _ => fits32 off
  | .tag n _ => fits32 n
  | .delete n => fits32 n
  | .develop n _ => fits32 n
  | .cardSpace _ first count => fits32 first && fits32 count
  | .placement n => fits32 n
  | .sendDone n => fits32 n
  | .sendFail n => fits32 n
  | .transferDone n => fits32 n
  | .transferFail n => fits32 n
  | _ => true

/-- A command that can reach the part. -/
def Instr.wellFormed (i : Instr) : Bool :=
  match i with
  | .frameReceived _ _ asks => optOk Request.ok asks
  | .selectDeasserted p _ => serialPort p
  | .oversizeHeaderReceived p header => serialPort p && decide (8 ≤ header.length)
  | .frameDelivered p .notice => serialPort p
  | .burstStart _ _ f => f.ok
  | .markerWrite _ _ f => f.ok
  | .recipeWrite _ _ _ f => f.ok
  | .info _ _ n => fits32 n
  | .openPart _ _ n _ => fits32 n
  | .readPart _ _ _ off _ => fits32 off
  | .tag _ _ n _ => fits32 n
  | .delete _ _ n => fits32 n
  | .develop _ _ n _ => fits32 n
  | .cardSpace _ _ _ first count => fits32 first && fits32 count
  | .placement _ _ n => fits32 n
  | .sendDone _ _ n => fits32 n
  | .sendFail _ _ n => fits32 n
  | .transferDone _ _ n => fits32 n
  | .transferFail _ _ n => fits32 n
  | .linkReply chars _ => chars.all LinkChar.ok
  | .pdPair left right => pdOk left right
  | .imageRow row => row.ok
  | .verifyBurstDone _ data => burstOk data
  | _ => true

end Sys2Proof
end

