-- ==== Sys2Proof/Safety.lean ====
section
/-! DEFINITION. What it means for a state of the NC-624 to be sound, and the vocabulary of the
statements: when a request is taken, what its reply looks like, the capacities of every list and
queue, the settings, and what the commands leave alone. -/
namespace Sys2Proof

/-- The command that a request's frame is, on a port with a tag: its row of the table. -/
def Request.row (r : Request) (p : Port) (tag : Byte) : Instr :=
  match r with
  | .burstStart f => .burstStart p tag f
  | .burstStop => .burstStop p tag
  | .programWrite f => .programWrite p tag f
  | .programRead => .programRead p tag
  | .seqHold => .seqHold p tag
  | .seqRun => .seqRun p tag
  | .syncMode f => .syncMode p tag f
  | .captureSet f => .captureSet p tag f
  | .watermark v => .watermark p tag v
  | .focusStart m => .focusStart p tag m
  | .focusStop => .focusStop p tag
  | .focusArea i => .focusArea p tag i
  | .focusSetup f => .focusSetup p tag f
  | .focusResult => .focusResult p tag
  | .markerWrite f => .markerWrite p tag f
  | .status => .status p tag
  | .listRecords n => .listRecords p tag n
  | .info n => .info p tag n
  | .openPart n part => .openPart p tag n part
  | .readPart h off len => .readPart p tag h off len
  | .closeHandle h => .closeHandle p tag h
  | .tag n f => .tag p tag n f
  | .delete n => .delete p tag n
  | .develop n i => .develop p tag n i
  | .devStatus j => .devStatus p tag j
  | .toneRead i => .toneRead p tag i
  | .toneWrite i first vs => .toneWrite p tag i first vs
  | .recipeWrite i f => .recipeWrite p tag i f
  | .recipeRead i => .recipeRead p tag i
  | .devSet c l => .devSet p tag c l
  | .slotMode m => .slotMode p tag m
  | .mediaSet f => .mediaSet p tag f
  | .cardSpace x first count => .cardSpace p tag x first count
  | .cardSpaceClear x => .cardSpaceClear p tag x
  | .slotReset x => .slotReset p tag x
  | .slotDrop x => .slotDrop p tag x
  | .slotFull x => .slotFull p tag x
  | .placement n => .placement p tag n
  | .mediaStatus => .mediaStatus p tag
  | .sendNext => .sendNext p tag
  | .sendDone n => .sendDone p tag n
  | .sendFail n => .sendFail p tag n
  | .transferNext => .transferNext p tag
  | .transferDone n => .transferDone p tag n
  | .transferFail n => .transferFail p tag n
  | .sendSet f => .sendSet p tag f
  | .tetherQueueClear => .tetherQueueClear p tag
  | .portSet b => .portSet p tag b
  | .portReset q => .portReset p tag q
  | .standby => .standby p tag
  | .resume => .resume p tag
  | .wakeSet f => .wakeSet p tag f

end Sys2Proof

namespace Sys2Proof.Machine

/-! ### Settings -/

/-- What the masters set and only their requests change. -/
structure Settings where
  program : List Entry
  stillStart : Nat
  viewStart : Nat
  capture : CaptureSettings
  syncMode : SyncMode
  polarity : Edge
  watermark : Nat
  setup : Setup
  area : Nat
  marker : Marker
  recipes : List Recipe
  tones : List (List Nat)
  cardRecipe : Nat
  relayRecipe : Nat
  slotMode : SlotMode
  cardProof : Bool
  aTimeout : TimeoutRange
  aVerify : Bool
  bTimeout : TimeoutRange
  bVerify : Bool
  auto : Bool
  policy : TetherPolicy
  remoteDelete : Bool
  wake : WakeSettings
  deriving DecidableEq, Repr

/-- The settings of a state. -/
def settings (s : State) : Settings :=
  { program := s.rsq.program, stillStart := s.rsq.stillStart, viewStart := s.rsq.viewStart,
    capture := s.rsq.settings, syncMode := s.rsq.syncMode, polarity := s.rsq.polarity,
    watermark := s.rsq.watermark, setup := s.phc.setup, area := s.fdr.area, marker := s.fdr.marker,
    recipes := s.dev.recipes, tones := s.dev.tones, cardRecipe := s.dev.cardRecipe,
    relayRecipe := s.dev.relayRecipe, slotMode := s.med.mode, cardProof := s.med.cardProof,
    aTimeout := s.med.a.timeout, aVerify := s.med.a.verify, bTimeout := s.med.b.timeout,
    bVerify := s.med.b.verify, auto := s.snq.auto, policy := s.snq.policy,
    remoteDelete := s.prt.remoteDelete, wake := s.pwc.settings }

/-! ### Requests and replies -/

/-- No entry of a reply list is the place of a reply still to be formed. -/
def noPlace (l : List ReplyEntry) : Bool := l.all fun e => e != .place

/-- A frame that names the request is taken on the port (R150): the port hears its master, its list
has room, no request is outstanding, and the port may send it. -/
structure Accepts (s : State) (p : Port) (k : RequestKind) : Prop where
  hears : s.hears p = true
  room : (s.port p).replies.length < 5
  free : (s.port p).request = none
  places : noPlace (s.port p).replies = true
  may : permitted k p s.prt.remoteDelete = true

/-- The state with the reply of a request that was taken and served at once in its place (R150): the
request is outstanding until the reply is delivered. -/
def answered (s : State) (p : Port) (k : RequestKind) (tag : Byte) (st : Status) (pl : Payload) :
    State :=
  s.setPort p
    { s.port p with
      request := some ⟨k, tag, .answered⟩,
      replies := (s.port p).replies ++ [.formed ⟨.request k, tag, st, pl⟩ true] }

/-- The state with a request taken that now waits (R150): its place ends the reply list. -/
def waiting (s : State) (p : Port) (k : RequestKind) (tag : Byte) (g : Stage) : State :=
  s.setPort p
    { s.port p with request := some ⟨k, tag, g⟩, replies := (s.port p).replies ++ [.place] }

/-- In `t` the port's list is that of `s` with the request's reply at its end (R150). -/
def RepliedIn (s t : State) (p : Port) (k : RequestKind) (tag : Byte) (st : Status) (pl : Payload) :
    Prop :=
  (t.port p).request = some ⟨k, tag, .answered⟩ ∧
    (t.port p).replies = (s.port p).replies ++ [.formed ⟨.request k, tag, st, pl⟩ true]

/-- The state with an answer formed at once for a frame that is not taken as a request (R149,
R150), appended to the port's list. -/
def turnedAway (s : State) (p : Port) (code : ReplyCode) (tag : Byte) (st : Status) : State :=
  s.setPort p
    { s.port p with
      replies := (s.port p).replies ++ [.formed ⟨code, tag, st, .empty⟩ false] }

/-- Every other port keeps its request, its reply list and its handles. -/
def OthersKept (s t : State) (p : Port) : Prop :=
  ∀ q, q ≠ p → (t.port q).request = (s.port q).request ∧
    (t.port q).replies = (s.port q).replies ∧ (t.port q).handles = (s.port q).handles

/-- A whole request frame that R149 finds good: its header's length is its payload's, and its kind,
status and CRC are right. -/
def GoodFrame (bs : List Byte) : Prop :=
  8 ≤ bs.length ∧ oversize bs = false ∧ bs.length = 8 + frameLength bs ∧ frameBad bs = false

/-- A frame that R149 finds bad by its kind, its status or its CRC. -/
def BadFrame (bs : List Byte) : Prop :=
  8 ≤ bs.length ∧ oversize bs = false ∧ bs.length = 8 + frameLength bs ∧ frameBad bs = true

/-- What releases, repeated stalls, starts of jobs and grants do not reach: the correlator, the
slots, power, the relay queue, the DRAM, the lines and the settings. -/
structure Aside (s t : State) : Prop where
  phc : t.phc = s.phc
  med : t.med = s.med
  pwc : t.pwc = s.pwc
  relay : t.snq.relay = s.snq.relay
  dram : t.dram = s.dram
  pins : t.pins = s.pins
  settings : settings t = settings s

/-! ### Refusals -/

/-- The first case that holds, with its reply. -/
def firstCase (l : List (Bool × Status × Payload)) : Option (Status × Payload) :=
  match l with
  | [] => none
  | (holds, reply) :: rest => if holds then some reply else firstCase rest

/-- A reply that names a failing field (R151). -/
def fieldCase (bad : Option Nat) : Option (Status × Payload) :=
  bad.map fun n => (.badField, .field n)

/-- The reply to a slot field that names none of the slots, else the slot's own case. -/
def slotCase (c : Choice Slot) (f : Slot → Option (Status × Payload)) :
    Option (Status × Payload) :=
  match c with
  | .other => fieldCase (some 1)
  | .is x => f x

/-- The reply to a shot number that names no record, else the record's own case (R26). -/
def shotCase (o : Option Record) (f : Record → Option (Status × Payload)) :
    Option (Status × Payload) :=
  match o with
  | none => some (.gone, .empty)
  | some r => f r

/-- The reply other than OK that the rules give a request that has been taken (case 4 of R150), by
the first check that fails; none where no check fails. -/
def refusal (s : State) (p : Port) (r : Request) : Option (Status × Payload) :=
  let saving := s.pwc.power == .saving
  let asleep := s.pwc.power == .standby && !s.pwc.settings.request
  let awake := s.pwc.power == .active
  let field := fun n : Nat => ((.badField, .field n) : Status × Payload)
  let plain := fun st : Status => ((st, .empty) : Status × Payload)
  match r with
  -- R35, R165, R166
  | .burstStart _ => firstCase
      [(saving, plain .saving), (asleep, plain .state),
       (awake && s.rsq.burst.active, plain .busy),
       (awake && s.rsq.state != .idle && s.rsq.state != .view, plain .state)]
  -- R37
  | .burstStop => firstCase [(saving, plain .saving)]
  -- R28
  | .programWrite f =>
    if saving then some (plain .saving)
    else if s.rsq.state != .hold then some (plain .state)
    else fieldCase (programBad f)
  | .programRead => none
  -- R31
  | .seqHold => firstCase [(saving, plain .saving), (s.rsq.state == .off, plain .state)]
  -- R29
  | .seqRun => firstCase
      [(saving, plain .saving), (s.rsq.state != .hold, plain .state),
       (!stillPasses s.rsq.program s.rsq.stillStart, field 1),
       (!viewPasses s.rsq.program s.rsq.viewStart, field 2)]
  -- R45
  | .syncMode f => firstCase
      [(badChoice f.mode, field 1), (badChoice f.polarity, field 2),
       (s.rsq.burst.active && pick s.rsq.syncMode f.mode != s.rsq.syncMode, plain .busy)]
  | .captureSet f => fieldCase (captureBad f)
  | .watermark _ => none
  -- R76, R165, R166
  | .focusStart m => firstCase
      [(saving, plain .saving), (asleep, plain .state), (awake && badChoice m, field 1)]
  | .focusStop => none
  | .focusArea i => firstCase [(decide (134 < i), field 1)]
  | .focusSetup f => fieldCase (setupBad f)
  | .focusResult => none
  | .markerWrite f => firstCase [(badChoice f.switch, field 4)]
  | .status => none
  | .listRecords _ => none
  | .info n => shotCase (s.namedRecord n) fun _ => none
  -- R157
  | .openPart _ .other => some (field 2)
  | .openPart n (.is .raw) => shotCase (s.namedRecord n) fun q => firstCase
      [(q.life == .exposing, plain .state), (q.raw.state != .present, plain .gone),
       ((freeHandle 0 (s.port p).handles).isNone, plain .full)]
  | .openPart n (.is .proof) => shotCase (s.namedRecord n) fun q => firstCase
      [(q.life == .exposing, plain .state), (q.current.isNone, plain .gone),
       ((freeHandle 0 (s.port p).handles).isNone, plain .full)]
  -- R158
  | .readPart h off len =>
    if 3 < h then some (field 1)
    else
      match s.handle p h with
      | none => some (plain .gone)
      | some x => firstCase
          [(decide (len < 1) || decide (16384 < len), field 3), (decide (x.size ≤ off), field 2)]
  -- R159
  | .closeHandle h => firstCase
      [(decide (3 < h), field 1), ((s.handle p h).isNone, plain .gone)]
  -- R139, R156
  | .tag n f =>
    match tagBad f with
    | some k => some (field k)
    | none => shotCase (s.namedRecord n) fun q =>
        match s.relayEntry n with
        | none =>
          if f.send != some true && f.priority != some true then none
          else firstCase
            [(q.life == .exposing, plain .state), (q.life == .cardOnly, plain .gone),
             (q.current.isNone && q.raw.state != .present, plain .gone),
             (decide (32 ≤ s.snq.relay.length), plain .full)]
        | some e => firstCase [(f.send == some false && e.state == .inFlight, plain .busy)]
  -- R23
  | .delete n => shotCase (s.namedRecord n) fun q => firstCase
      [(q.life == .exposing, plain .state), (q.tags.protect, plain .protectSet),
       (s.openOnShot n, plain .busy)]
  -- R96, R97
  | .develop n i =>
    if saving then some (plain .saving)
    else if 3 < i then some (field 2)
    else shotCase (s.namedRecord n) fun q => firstCase
      [(q.life == .cardOnly || q.raw.state == .released, plain .gone),
       (q.life == .exposing, plain .state),
       ((s.queuedJob n i).isNone && decide (8 ≤ s.dev.queue.length), plain .full)]
  -- R104
  | .devStatus none => none
  | .devStatus (some n) => firstCase
      [((s.dev.queue.find? fun j => j.number == n).isNone &&
        (s.dev.log.find? fun r => r.number == n).isNone, plain .gone)]
  | .toneRead i => firstCase [(decide (3 < i), field 1)]
  | .toneWrite i first vs => fieldCase (toneBad i first vs)
  -- R91
  | .recipeWrite i f =>
    if p == .tether && decide (i < 2) then some (plain .denied) else fieldCase (recipeBad i f)
  | .recipeRead i => firstCase [(decide (3 < i), field 1)]
  | .devSet c r => firstCase [(decide (3 < c.getD 0), field 1), (decide (3 < r.getD 0), field 2)]
  -- R120
  | .slotMode .other => some (field 1)
  | .slotMode (.is _) => firstCase [(s.anyCopyNeeds, plain .busy)]
  | .mediaSet f => fieldCase (mediaBad f)
  -- R123, R124
  | .cardSpace c first count => slotCase c fun x => firstCase
      [((s.slot x).state == .absent || (s.slot x).state == .full || (s.slot x).state == .fault,
        plain .state),
       (s.badRun x ⟨first, count⟩, field 3), (decide (16 ≤ (s.slot x).space.length), plain .full)]
  | .cardSpaceClear c => slotCase c fun x => firstCase [((s.slot x).state == .busy, plain .busy)]
  -- R132 to R134
  | .slotReset c => slotCase c fun x => firstCase
      [((s.slot x).state == .busy, plain .busy), ((s.slot x).state == .absent, plain .state)]
  | .slotDrop c => slotCase c fun _ => none
  | .slotFull c => slotCase c fun x => firstCase
      [((s.slot x).state == .busy, plain .busy),
       ((s.slot x).state == .absent || (s.slot x).state == .fault, plain .state)]
  | .placement n => shotCase (s.findRecord n) fun _ => none
  | .mediaStatus => none
  -- R141 to R145
  | .sendNext => firstCase [(decide (2 ≤ s.relayInFlight), plain .busy)]
  | .sendDone n => relayCase s n
  | .sendFail n => relayCase s n
  | .transferNext => firstCase [(decide (2 ≤ s.tetherInFlight), plain .busy)]
  | .transferDone n => tetherCase s n
  | .transferFail n => tetherCase s n
  | .sendSet f => firstCase [(badChoice f.auto, field 1), (badChoice f.policy, field 2)]
  | .tetherQueueClear => none
  | .portSet .other => some (field 1)
  | .portSet (.is _) => none
  | .portReset .other => some (field 1)
  | .portReset (.is _) => none
  -- R164, R169
  | .standby => firstCase
      [(saving, plain .saving), (s.pwc.power == .waking, plain .state),
       (awake && s.rsq.burst.active, plain .busy)]
  | .resume => firstCase
      [(s.pwc.power == .standby || s.pwc.power == .waking, plain .state),
       (saving && s.pins.powerLow, plain .state), (saving && !s.pwc.done, plain .busy)]
  | .wakeSet f => fieldCase (wakeBad f)
where
  relayCase (s : State) (n : Nat) : Option (Status × Payload) :=
    match s.relayEntry n with
    | none => some (.gone, .empty)
    | some e => firstCase [(e.state != .inFlight, .state, .empty)]
  tetherCase (s : State) (n : Nat) : Option (Status × Payload) :=
    match s.tetherEntry n with
    | none => some (.gone, .empty)
    | some e => firstCase [(!e.inFlight, .state, .empty)]

/-! ### Capacities -/

/-- The capacities of a port (R150, R157, R160). -/
structure PortSt.Ok (q : PortSt) : Prop where
  notices : q.notices.length ≤ 16
  replies : q.replies.length ≤ 5
  handles : q.handles.length = 4

/-- The capacities of a slot (R123, R135). -/
structure SlotSt.Ok (q : SlotSt) : Prop where
  space : q.space.length ≤ 16
  faults : q.faults.length ≤ 8

/-- Every list, queue and bounded setting is within its capacity. -/
structure Caps (s : State) : Prop where
  /-- R9. -/
  catalog : s.catalog.length ≤ 64
  /-- R47. -/
  fifo : s.rsq.fifo.length ≤ 64
  /-- R47. -/
  watermarkLow : 8 ≤ s.rsq.watermark
  /-- R47. -/
  watermarkHigh : s.rsq.watermark ≤ 56
  /-- R27. -/
  program : s.rsq.program.length = 32
  /-- R82. -/
  history : s.fdr.history.length ≤ 4
  /-- R86. -/
  area : s.fdr.area ≤ 134
  /-- R90. -/
  recipes : s.dev.recipes.length = 4
  /-- R92. -/
  tones : s.dev.tones.length = 4
  /-- R95. -/
  jobs : s.dev.queue.length ≤ 8
  /-- R104. -/
  log : s.dev.log.length ≤ 8
  /-- R138. -/
  relay : s.snq.relay.length ≤ 32
  /-- R143. -/
  tether : s.snq.tether.length ≤ 32
  slotA : s.med.a.Ok
  slotB : s.med.b.Ok
  body : s.prt.body.Ok
  tetherPort : s.prt.tether.Ok
  relayPort : s.prt.relay.Ok

/-- The entry is the place of a reply still to be formed. -/
def ReplyEntry.isPlace (e : ReplyEntry) : Bool :=
  match e with
  | .place => true
  | .formed _ _ => false

/-- The entry is the formed reply of the outstanding request. -/
def ReplyEntry.isOwn (e : ReplyEntry) : Bool :=
  match e with
  | .place => false
  | .formed _ own => own

/-- The reply list of a port (R150): an outstanding request has exactly one entry, its place or its
formed reply, none without a request; and it is no formed reply while the request waits. -/
def PortSt.RepliesOk (q : PortSt) : Prop :=
  (q.replies.filter ReplyEntry.isPlace).length + (q.replies.filter ReplyEntry.isOwn).length =
      (if q.request.isSome then 1 else 0) ∧
    ∀ o, q.request = some o → o.stage ≠ .answered →
      (q.replies.filter ReplyEntry.isOwn).length = 0

/-- Every port's reply list is as R150 keeps it. -/
def RepliesOk (s : State) : Prop := ∀ p, (s.port p).RepliesOk

/-- Shot numbers rise along the catalog, begin at 1 and lie below the next shot number, which is 0
once the numbers are exhausted (R9, log entry 8). -/
def ShotsOk (shots : List Nat) (next : Nat) : Prop :=
  next < 2 ^ 32 ∧ shots.Pairwise (fun a b => a < b) ∧
    ∀ n, n ∈ shots → 1 ≤ n ∧ n < 2 ^ 32 ∧ (next = 0 ∨ n < next)

/-- The catalog is in the order R9 states. -/
def CatalogOk (s : State) : Prop := ShotsOk (s.catalog.map Record.shot) s.nextShot

/-- The DRAM contents are in canonical form (log entry 4). -/
def DramOk (s : State) : Prop := Memory.wf s.dram = true

/-! ### The laws of the records, the queues and the blocks -/

/-- A proof version as the laws see it (R18). -/
structure VersionCard where
  number : Nat
  state : VersionState
  extents : List Run
  deriving DecidableEq, Repr

/-- A record as the laws see it (R9): `wanted` says whether proof wanted is present, `send` whether the
SEND tag is set. -/
structure Card where
  shot : Nat
  life : Life
  raw : RawState
  extents : List Run
  versions : List VersionCard
  wanted : Bool
  send : Bool
  deriving DecidableEq, Repr

/-- A version's card. -/
def Version.card (v : Version) : VersionCard := ⟨v.number, v.state, v.extents⟩

/-- A record's card. -/
def Record.card (r : Record) : Card :=
  ⟨r.shot, r.life, r.raw.state, r.raw.extents, r.versions.map Version.card, r.wanted.isSome,
    r.tags.send⟩

/-- The extents of a card: the raw's and the versions'. -/
def Card.blocks (c : Card) : List Run := c.extents ++ c.versions.flatMap VersionCard.extents

/-- A job as the laws see it (R95): `snapshot` and `rows` say whether it has a recipe snapshot and rows done. -/
structure JobCard where
  shot : Nat
  state : JobState
  version : Nat
  snapshot : Bool
  rows : Bool
  deriving DecidableEq, Repr

/-- A job's card. -/
def Job.card (j : Job) : JobCard :=
  ⟨j.shot, j.state, j.version, j.snapshot.isSome, j.rowsDone.isSome⟩

/-- What the laws of the records and queues speak of: the records, the free runs, the send queues, the
jobs, the open handles of the three ports and the frame in progress. -/
structure Books where
  cards : List Card
  nextShot : Nat
  freeRuns : List Run
  relay : List RelayEntry
  tether : List TetherEntry
  jobs : List JobCard
  handles : List Handle
  frame : Option (FrameKind × Nat)
  deriving DecidableEq, Repr

/-- The books of a state. -/
def books (s : State) : Books :=
  { cards := s.catalog.map Record.card, nextShot := s.nextShot, freeRuns := s.freeRuns,
    relay := s.snq.relay, tether := s.snq.tether, jobs := s.dev.queue.map Job.card,
    handles := (s.prt.body.handles ++ s.prt.tether.handles ++ s.prt.relay.handles).filterMap id,
    frame := s.rsq.frame.map fun f => (f.kind, f.shot) }

/-- The laws of one record. -/
structure Card.Ok (c : Card) : Prop where
  /-- R18. -/
  versions : c.versions.length ≤ 2
  /-- R18. -/
  numbers : (c.versions.map VersionCard.number).Nodup
  /-- R18. -/
  current : (c.versions.filter fun v => v.state == .current).length ≤ 1
  /-- R4. -/
  versionExtents : ∀ v, v ∈ c.versions → 1 ≤ v.extents.length ∧ v.extents.length ≤ 6
  /-- R4. -/
  rawExtents : c.extents.length ≤ 6
  /-- R9, R17. -/
  released : c.raw = .released ↔ c.extents = []
  /-- R11, R13. -/
  filling : c.raw = .filling ↔ c.life = .exposing
  /-- R11. -/
  exposing : c.life = .exposing → c.versions = [] ∧ c.send = false
  /-- R15. -/
  cardOnly : c.life = .cardOnly → c.raw = .released ∧ c.versions = []
  /-- R17, R98. -/
  wanted : c.wanted = true → c.life = .held ∧ c.raw = .present

/-- A relay entry fits its shot's record (R138, R139): HELD and with the SEND tag set; a version that
the entry binds is there and finished (R20). -/
def RelayEntry.Fits (e : RelayEntry) (c : Card) : Prop :=
  c.life = .held ∧ c.send = true ∧
    ∀ n, e.version = some n → ∃ v, v ∈ c.versions ∧ v.number = n ∧ v.state ≠ .building

/-- A tether entry fits its shot's record (R144): HELD with its raw PRESENT. -/
def TetherFits (c : Card) : Prop := c.life = .held ∧ c.raw = .present

/-- A job fits its shot's record (R15, R18, R96): HELD with its raw PRESENT, and while the job runs its
version BUILDING. -/
def JobCard.Fits (j : JobCard) (c : Card) : Prop :=
  c.life = .held ∧ c.raw = .present ∧
    (j.state = .running → ∃ v, v ∈ c.versions ∧ v.number = j.version ∧ v.state = .building)

/-- An open handle fits its shot's record (R22, R159): HELD, and the part is a PRESENT raw or a
finished version that is there. -/
def Handle.Fits (h : Handle) (c : Card) : Prop :=
  c.life = .held ∧
    match h.part with
    | .raw => h.version = none ∧ c.raw = .present
    | .proof => ∃ v, v ∈ c.versions ∧ h.version = some v.number ∧ v.state ≠ .building

/-- The laws of the records, the queues, the jobs and the handles. -/
structure Books.Ok (b : Books) : Prop where
  /-- R9. -/
  catalog : ShotsOk (b.cards.map Card.shot) b.nextShot
  cards : ∀ c, c ∈ b.cards → c.Ok
  /-- R138. -/
  relayOnce : (b.relay.map RelayEntry.shot).Nodup
  /-- R138. -/
  relayFlight : (b.relay.filter fun e => e.state == .inFlight).length ≤ 2
  /-- R138. -/
  relayBound : ∀ e, e ∈ b.relay → (e.version.isSome = true ↔ e.state = .inFlight)
  /-- R138. -/
  relayFits : ∀ e, e ∈ b.relay → ∃ c, c ∈ b.cards ∧ c.shot = e.shot ∧ e.Fits c
  /-- R138. -/
  tagged : ∀ c, c ∈ b.cards → c.send = true → ∃ e, e ∈ b.relay ∧ e.shot = c.shot
  /-- R138, R143. -/
  tetherOnce : (b.tether.map TetherEntry.shot).Nodup
  /-- R138, R143. -/
  tetherFlight : (b.tether.filter fun e => e.inFlight).length ≤ 2
  /-- R144. -/
  tetherFits : ∀ e, e ∈ b.tether → ∃ c, c ∈ b.cards ∧ c.shot = e.shot ∧ TetherFits c
  /-- R95. -/
  running : (b.jobs.filter fun j => j.state == .running).length ≤ 1
  /-- R95. -/
  begun : ∀ j, j ∈ b.jobs →
    (j.snapshot = true ↔ j.state = .running) ∧ (j.rows = true ↔ j.state = .running)
  /-- R15, R96. -/
  jobFits : ∀ j, j ∈ b.jobs → ∃ c, c ∈ b.cards ∧ c.shot = j.shot ∧ j.Fits c
  /-- R159. -/
  handleFits : ∀ h, h ∈ b.handles → ∃ c, c ∈ b.cards ∧ c.shot = h.shot ∧ h.Fits c
  /-- R11, R13: the record of a still frame in progress is EXPOSING; a view frame has none. -/
  frame : ∀ k n, b.frame = some (k, n) →
    (k = .still → ∃ c, c ∈ b.cards ∧ c.shot = n ∧ c.life = .exposing) ∧ (k = .view → n = 0)

/-- How many runs of a list hold a block. -/
def covered (n : Nat) (rs : List Run) : Nat :=
  rs.countP fun r => decide (r.first ≤ n) && decide (n < r.first + r.count)

/-- The law of the Shot Buffer (R1, R2): the free-run list has its form, no extent is empty, and each
block of the buffer is in exactly one run of the free-run list or one extent of a part. -/
structure Books.BlocksOk (b : Books) : Prop where
  runs : runsWf 0 b.freeRuns = true
  extents : ∀ c, c ∈ b.cards → ∀ e, e ∈ c.blocks → 0 < e.count
  once : ∀ n, covered n (b.freeRuns ++ b.cards.flatMap Card.blocks) =
    if n < Config.blockCount then 1 else 0

/-- The records, queues, jobs and handles of a state keep their laws. -/
def RecordsOk (s : State) : Prop := (books s).Ok

/-- The blocks of a state keep theirs. -/
def BlocksOk (s : State) : Prop := (books s).BlocksOk

end Sys2Proof.Machine

namespace Sys2Proof

/-- A request that may change a setting. -/
def RequestKind.sets (k : RequestKind) : Bool :=
  match k with
  | .programWrite => true
  | .syncMode => true
  | .captureSet => true
  | .watermark => true
  | .focusArea => true
  | .focusSetup => true
  | .markerWrite => true
  | .toneWrite => true
  | .recipeWrite => true
  | .devSet => true
  | .slotMode => true
  | .mediaSet => true
  | .sendSet => true
  | .portSet => true
  | .wakeSet => true
  | _ => false

/-- A command that may change a setting: its own request, a frame that carries one, full reset. -/
def Instr.sets (i : Instr) : Bool :=
  match i with
  | .fullReset => true
  | .frameReceived _ _ (some r) => r.kind.sets
  | .programWrite _ _ _ => true
  | .syncMode _ _ _ => true
  | .captureSet _ _ _ => true
  | .watermark _ _ _ => true
  | .focusArea _ _ _ => true
  | .focusSetup _ _ _ => true
  | .markerWrite _ _ _ => true
  | .toneWrite _ _ _ _ _ => true
  | .recipeWrite _ _ _ _ => true
  | .devSet _ _ _ _ => true
  | .slotMode _ _ _ => true
  | .mediaSet _ _ _ => true
  | .sendSet _ _ _ => true
  | .portSet _ _ _ => true
  | .wakeSet _ _ _ => true
  | _ => false

end Sys2Proof
end

