-- ==== Sys2Proof/Certificates/Slice0/Obligations.lean ====
section
/-! DEFINITION. The statements about the NC-624 that are handed to the provers. -/
open Sys2Proof Sys2Proof.Machine

/-! ### The machine -/

/-- A step takes the command at the front of the queue and is its effect on the rest: the model's
queue (log entry 1). On an empty queue a step lets one microsecond pass and changes nothing else: the
model's choice for the tick (log entry 1) of the time base that R51 gives. -/
def Obligations.StepTakesTheFront : Prop :=
  (∀ (c : Instr) (rest : List Instr) (s : State),
    step { s with pending := c :: rest } = exec c { s with pending := rest }) ∧
  (∀ s : State, s.pending = [] →
    step s = .next { s with rsq := { s.rsq with timeBase := s.rsq.timeBase + 1 } })

/-- The values that the spec states for full reset, at State.reset: the catalog and buffer, sequencer,
burst numbering, program and start indices, capture settings, sync, watermark and time base,
correlator, focus drive, area and marker, link, recipes, tone tables, queue, log and engine, slots and
their settings, send queues, the three ports with their handles, remote delete, and power. The six
invariants hold there too. -/
def Obligations.ResetValues : Prop :=
  (State.reset.catalog = [] ∧ State.reset.nextShot = 1 ∧ State.reset.freeRuns = [⟨0, 8192⟩]) ∧
  (State.reset.rsq.state = .hold ∧ State.reset.rsq.burst.active = false ∧
    State.reset.rsq.nextBurst = 1 ∧ State.reset.rsq.program = List.replicate 32 ⟨.stop, 0⟩ ∧
    State.reset.rsq.stillStart = 0 ∧ State.reset.rsq.viewStart = 0 ∧
    State.reset.rsq.settings = ⟨false, 30, 8000, false, false, 2000⟩ ∧
    State.reset.rsq.syncMode = .master ∧ State.reset.rsq.polarity = .rising ∧
    State.reset.rsq.watermark = 32 ∧ State.reset.rsq.fifo = [] ∧
    State.reset.rsq.lastView = none ∧ State.reset.rsq.timeBase = 0) ∧
  (State.reset.phc.setup = ⟨2, 128, 16, .full, 4096⟩ ∧ State.reset.phc.number = 0 ∧
    State.reset.phc.record = none ∧ State.reset.phc.curve = [] ∧ State.reset.phc.store = []) ∧
  (State.reset.fdr.mode = .single ∧ State.reset.fdr.state = .off ∧
    State.reset.fdr.target = none ∧ State.reset.fdr.aim = none ∧ State.reset.fdr.history = [] ∧
    State.reset.fdr.lowCount = 0 ∧ State.reset.fdr.area = 67 ∧
    State.reset.fdr.marker = ⟨List.replicate 32 0, List.replicate 32 0, ⟨255, 255, 255⟩, ⟨0, 255, 0⟩,
      ⟨255, 255, 255⟩, ⟨255, 0, 0⟩, false⟩) ∧
  (State.reset.lnk.state = .absent ∧ State.reset.lnk.errors = 0 ∧
    State.reset.lnk.lastError = none ∧ State.reset.lnk.movingFlag = false ∧
    State.reset.lnk.latched = none ∧ State.reset.lnk.moving = false) ∧
  (State.reset.dev.queue = [] ∧ State.reset.dev.nextJob = 1 ∧ State.reset.dev.log = [] ∧
    State.reset.dev.engine = .idle ∧ State.reset.dev.cardRecipe = 0 ∧
    State.reset.dev.relayRecipe = 1 ∧
    State.reset.dev.recipes = List.replicate 4
      ⟨0, 0, 0, 0, 1024, 1024, 1024, [1024, 0, 0, 0, 1024, 0, 0, 0, 1024], 0, .s4⟩ ∧
    State.reset.dev.tones = List.replicate 4 ((List.range 65).map fun i => min (4 * i) 255)) ∧
  (State.reset.med.mode = .mirror ∧ State.reset.med.cardProof = true ∧
    ∀ x, (State.reset.slot x).space = [] ∧ (State.reset.slot x).faults = [] ∧
      (State.reset.slot x).timeout = .short ∧ (State.reset.slot x).verify = true ∧
      (State.reset.slot x).flight = none) ∧
  (State.reset.snq.relay = [] ∧ State.reset.snq.tether = [] ∧ State.reset.snq.auto = false ∧
    State.reset.snq.policy = .hold) ∧
  (State.reset.prt.remoteDelete = false ∧
    ∀ p, (State.reset.port p).request = none ∧ (State.reset.port p).replies = [] ∧
      (State.reset.port p).handles = [none, none, none, none] ∧
      (State.reset.port p).notices = [] ∧ (State.reset.port p).resync = false) ∧
  (State.reset.pwc.power = .active ∧ State.reset.pwc.settings = ⟨true, false, true, true, 30⟩ ∧
    State.reset.pwc.held = [] ∧ State.reset.pwc.done = false) ∧
  (Caps State.reset ∧ CatalogOk State.reset ∧ RepliesOk State.reset ∧ DramOk State.reset ∧
    RecordsOk State.reset ∧ BlocksOk State.reset)

/-- FULL_RESET puts every block back into its state after reset and then reads the card-detect, the
lens-detect and the power-low lines. That the lines, the queue and the counter of free values stay and
that the buffer lists nothing is the model's choice (log entries 4, 9 and 14), and so is that a serial
port which ignored data-in hears again (log entry 44) and a transfer in progress is dropped (log entry
53). -/
def Obligations.FullResetRestores : Prop :=
  ∀ s : State, ∃ t : State, exec .fullReset s = .next t ∧
    (s.pins.cardA = false → s.pins.cardB = false → s.pins.lens = false → s.pins.powerLow = false →
      t = { State.reset with pins := s.pins, freeCount := s.freeCount, pending := s.pending }) ∧
    t.pins = s.pins ∧ t.pending = s.pending ∧ t.dram = [] ∧ t.catalog = [] ∧
    t.freeRuns = [⟨0, 8192⟩] ∧ settings t = settings State.reset ∧
    t.med.a.state = (if s.pins.cardA then .ready else .absent) ∧
    t.med.b.state = (if s.pins.cardB then .ready else .absent) ∧
    t.lnk.state = (if s.pins.lens then .identifying else .absent) ∧
    t.pwc.power = (if s.pins.powerLow then .saving else .active) ∧
    t.rsq.state = (if s.pins.powerLow then .off else .hold)

/-- Only DRAM_TRANSFER_DONE can stop the machine, and only for a transfer that reaches past the
8192 blocks of the buffer; every other command in every state goes on. The stop is the model's: R1
allows no such transfer. -/
def Obligations.OnlyATransferPastTheBufferStops : Prop :=
  ∀ (i : Instr) (s : State),
    (∃ t, exec i s = .next t) ∨
      (i = .dramTransferDone ∧ ∃ t, s.arb.current = some t ∧
        Config.bufferBytes < t.addr + t.length ∧
        exec i s = .fault (.noSuchAddress t.addr))

/-! ### Invariants -/

/-- Every step keeps the capacities of the catalog (64), the FIFO (64), the readout program (32), the
focus history (4), the recipes and tone tables (4), the job queue (8), the job log (8), the relay and
tether queues (32), the card-space lists (16), the fault logs (8), the notice queues (16), the reply
lists (5) and the handles (4), and the ranges of the watermark and the focus area. The proof versions
(2), the extents of a part (6) and the free-run list (4096) are in the two statements after it; the
held list of R166 is not among them. -/
def Obligations.CapacitiesKept : Prop :=
  ∀ s t : State, step s = .next t → Caps s → Caps t

/-- Every step keeps shot numbers rising along the catalog and below the next shot number, 0 standing
for numbers exhausted (log entry 8). -/
def Obligations.CatalogOrderKept : Prop :=
  ∀ s t : State, step s = .next t → CatalogOk s → CatalogOk t

/-- Every step keeps one entry in a port's reply list for its outstanding request, and none without
one. -/
def Obligations.ReplyListsKept : Prop :=
  ∀ s t : State, step s = .next t → RepliesOk s → RepliesOk t

/-- Every step keeps the canonical form of the buffer's contents (log entry 4). -/
def Obligations.DramFormKept : Prop :=
  ∀ s t : State, step s = .next t → DramOk s → DramOk t

/-- Every step keeps the laws of the records, the queues, the jobs and the handles (`Books.Ok` in
Safety.lean): 1 to 6 extents of a part while it is held and none of a RELEASED raw (R4, R9), FILLING
exactly while EXPOSING (R11, R13), a CARD_ONLY record holds no part (R15), proof wanted on HELD records
with a PRESENT raw only (R98), at most 2 versions of different numbers and one CURRENT (R18), at most
one RUNNING job, with snapshot and rows exactly then and its BUILDING version there (R95, R100), a
relay entry exactly where the SEND tag is set, each shot once in a queue and at most 2 IN_FLIGHT,
version bound exactly while IN_FLIGHT (R138, R143), tether entries of PRESENT raws (R144), handles on
parts that are not released (R159), and the frame in progress with its EXPOSING record (R11). -/
def Obligations.RecordLawsKept : Prop :=
  ∀ s t : State, step s = .next t → RecordsOk s → RecordsOk t

/-- The law of the Shot Buffer (R1, R2), kept by every step under the laws of the records: the free-run
list is in order with a gap between its runs, at most 4096 runs, no extent is empty, and every one of
the 8192 blocks is in exactly one free run or one extent of a raw or of a proof version. -/
def Obligations.EveryBlockInOnePlace : Prop :=
  ∀ s t : State, step s = .next t → RecordsOk s → BlocksOk s →
    BlocksOk t ∧ t.freeRuns.length ≤ 4096

/-! ### What commands leave alone -/

/-- No command but DRAM_TRANSFER_DONE and FULL_RESET changes a byte of the buffer, and
DRAM_TRANSFER_DONE changes no byte outside the transfer. That it changes nothing while no transfer is
in progress is the model's choice (log entry 3), and so is the canonical form of the contents that the
last clause supposes (log entry 4). -/
def Obligations.DramFrame : Prop :=
  (∀ (i : Instr) (s t : State) (a : Nat), exec i s = .next t → i ≠ .dramTransferDone →
    i ≠ .fullReset → Memory.read t.dram a = Memory.read s.dram a) ∧
  (∀ (s t : State), exec .dramTransferDone s = .next t → s.arb.current = none → t = s) ∧
  (∀ (s t : State) (x : Transfer) (a : Nat), exec .dramTransferDone s = .next t →
    s.arb.current = some x → DramOk s → (a < x.addr ∨ x.addr + x.length ≤ a) →
    Memory.read t.dram a = Memory.read s.dram a)

/-- Only the requests that write settings, frames that carry them and full reset change a setting;
the commands of the lines alone change the levels of the lines (a slot's re-initialisation that ends
with the card removed among them, log entry 24); and no command changes the queue. -/
def Obligations.SettingsLinesAndQueueFrame : Prop :=
  ∀ (i : Instr) (s t : State), exec i s = .next t →
    (i.sets = false → settings t = settings s) ∧ t.pending = s.pending ∧
    (t.pins = s.pins ∨ i = .halfPressAsserted ∨ i = .halfPressReleased ∨ i = .lensDetectAsserted ∨
      i = .lensDetectDeasserted ∨ i = .powerLowAsserted ∨ i = .powerLowDeasserted ∨
      (∃ x, i = .cardDetectAsserted x) ∨ (∃ x, i = .cardDetectDeasserted x) ∨
      ∃ x, i = .slotResetDone x .removed)

/-! ### Frames and requests -/

/-- The fate of a request's frame before its request is served (R150, R152). Which port may send which
request; and a request that is not taken (R150, cases 1 to 3), whatever the request: nothing where the
port does not hear its master or its list holds 5 entries; BUSY while a request is outstanding; DENIED
where the port may not send it. Nothing else changes. -/
def Obligations.RequestsTurnedAway : Prop :=
  (∀ (k : RequestKind) (b : Bool),
    permitted k .body b = true ∧
    permitted k .relay b = decide (k ∈ [RequestKind.status, .listRecords, .info, .openPart,
      .readPart, .closeHandle, .sendNext, .sendDone, .sendFail]) ∧
    permitted k .tether b = (decide (k ∈ [RequestKind.burstStart, .burstStop, .focusStart,
      .focusStop, .focusArea, .focusSetup, .focusResult, .status, .listRecords, .info, .openPart,
      .readPart, .closeHandle, .tag, .develop, .devStatus, .toneRead, .recipeWrite, .transferNext,
      .transferDone, .transferFail]) || (decide (k = .delete) && b))) ∧
  ∀ (r : Request) (p : Port) (tag : Byte) (s : State),
    (s.hears p = false → exec (r.row p tag) s = .next s) ∧
    (5 ≤ (s.port p).replies.length → exec (r.row p tag) s = .next s) ∧
    (s.hears p = true → (s.port p).replies.length < 5 → (s.port p).request.isSome = true →
      exec (r.row p tag) s = .next (turnedAway s p (.request r.kind) tag .busy)) ∧
    (s.hears p = true → (s.port p).replies.length < 5 → (s.port p).request = none →
      permitted r.kind p s.prt.remoteDelete = false →
      exec (r.row p tag) s = .next (turnedAway s p (.request r.kind) tag .denied))

/-- A request that is taken and refused, whatever the request: where `refusal` names a reply other than
OK, that reply is formed in the request's place and nothing else changes. The order of the checks and
the numbers of the fields are those of log entry 25 where a rule leaves them open. -/
def Obligations.RequestsRefused : Prop :=
  ∀ (r : Request) (p : Port) (tag : Byte) (s : State) (st : Status) (pl : Payload),
    Accepts s p r.kind → refusal s p r = some (st, pl) →
      exec (r.row p tag) s = .next (answered s p r.kind tag st pl)

/-- Delivery (R161) and notices (R160). A formed reply at the head leaves the list, and the request's
own empties the request slot; a place at the head stays; a delivered notice is the oldest of its queue
(which of the two was delivered is an operand, log entry 18). A notice at a port is merged with one of
its kind for its shot, dropped with RESYNC set when 16 are queued, appended otherwise; discarded on a
detached tether. The data output of a port is the formed reply at the head, else on a serial port the
oldest notice, else fill; the tether's interrupt pipe offers its oldest notice whatever its replies;
and the attention line of a serial port is asserted exactly while notices wait. -/
def Obligations.NoticesAndDelivery : Prop :=
  (∀ (p : Port) (s : State),
    (∀ r own rest, (s.port p).replies = .formed r own :: rest →
      exec (.frameDelivered p .reply) s = .next (s.setPort p { s.port p with
        replies := rest, request := if own then none else (s.port p).request })) ∧
    (∀ rest, (s.port p).replies = .place :: rest →
      exec (.frameDelivered p .reply) s = .next s) ∧
    ((s.port p).replies = [] → exec (.frameDelivered p .reply) s = .next s) ∧
    (p ≠ .tether → exec (.frameDelivered p .notice) s = .next (s.setPort p { s.port p with
      notices := (s.port p).notices.drop 1 })) ∧
    exec .noticeAcknowledged s = .next (s.setPort .tether { s.port .tether with
      notices := (s.port .tether).notices.drop 1 })) ∧
  (∀ (s : State) (p : Port) (n : Notice),
    (p = .tether → s.prt.attached = false → s.notify p n = s) ∧
    ((p = .tether → s.prt.attached = true) →
      (n.merges (s.port p).notices = true → s.notify p n = s) ∧
      (n.merges (s.port p).notices = false → 16 ≤ (s.port p).notices.length →
        s.notify p n = s.setPort p { s.port p with resync := true }) ∧
      (n.merges (s.port p).notices = false → (s.port p).notices.length < 16 →
        s.notify p n = s.setPort p { s.port p with notices := (s.port p).notices ++ [n] }))) ∧
  (∀ (s : State) (p : Port),
    let unformed := ∀ r own rest, (s.port p).replies ≠ .formed r own :: rest
    (∀ r own rest, (s.port p).replies = .formed r own :: rest →
      s.output p = .reply r ∧ s.outputBytes p = r.frame) ∧
    (∀ n rest, p ≠ .tether → unformed → (s.port p).notices = n :: rest →
      s.output p = .notice n ∧ s.outputBytes p = n.frame) ∧
    (p ≠ .tether → unformed → (s.port p).notices = [] →
      s.output p = .nothing ∧ s.outputBytes p = [0]) ∧
    (p = .tether → unformed → s.output p = .nothing ∧ s.outputBytes p = []) ∧
    s.interruptBytes = (s.port .tether).notices.head?.map Notice.frame ∧
    s.attention p = (decide (p ≠ .tether) && !(s.port p).notices.isEmpty))

/-- Frames received (R148, R149). A good frame that spells a request is that request (the spec numbers
no codes: which request the code spells is an operand, log entry 2); one that spells none is answered
UNKNOWN, or BUSY while a request is outstanding. Fill before a frame is no part of it on the serial
ports. A bad frame is answered FRAME_BAD with its own code and tag, and a frame that ends short of its
length on a serial port is answered so when select is deasserted; an oversize header is answered at
once and the port then ignores data until select is deasserted. -/
def Obligations.FramesReceived : Prop :=
  (∀ (p : Port) (bytes : List Byte) (s : State), s.hears p = true → GoodFrame (dropFill p bytes) →
    (∀ r : Request, ∃ t, exec (.frameReceived p bytes (some r)) s = .next t ∧
      exec (r.row p (byteAt (dropFill p bytes) 2)) s = .next t) ∧
    ((s.port p).replies.length < 5 → exec (.frameReceived p bytes none) s = .next (turnedAway s p
      (.received (byteAt (dropFill p bytes) 1)) (byteAt (dropFill p bytes) 2)
      (if (s.port p).request.isSome then .busy else .unknown)))) ∧
  ∀ (p : Port) (bytes : List Byte) (asks : Option Request) (s : State),
    (s.hears p = true → (s.port p).replies.length < 5 → BadFrame (dropFill p bytes) →
      exec (.frameReceived p bytes asks) s = .next
        (turnedAway s p (.received (byteAt (dropFill p bytes) 1)) (byteAt (dropFill p bytes) 2)
          .frameBad)) ∧
    (p ≠ .tether → s.hears p = true → (s.port p).replies.length < 5 →
      partFrame (dropFill p bytes) = true →
      exec (.selectDeasserted p bytes) s = .next (turnedAway s p
        (.received (if (dropFill p bytes).length < 3 then 0 else byteAt (dropFill p bytes) 1))
        (if (dropFill p bytes).length < 3 then 0 else byteAt (dropFill p bytes) 2) .frameBad)) ∧
    (p ≠ .tether → (s.hears p = false ∨ partFrame (dropFill p bytes) = false) →
      exec (.selectDeasserted p bytes) s = .next (s.setPort p { s.port p with deaf := false })) ∧
    (p ≠ .tether → s.hears p = true → (s.port p).replies.length < 5 →
      (dropFill p bytes).length = 8 → oversize (dropFill p bytes) = true →
      exec (.oversizeHeaderReceived p bytes) s = .next ((turnedAway s p
        (.received (byteAt (dropFill p bytes) 1)) (byteAt (dropFill p bytes) 2)
        .frameBad).setPort p { (turnedAway s p (.received (byteAt (dropFill p bytes) 1))
        (byteAt (dropFill p bytes) 2) .frameBad).port p with deaf := true }))

/-! ### The buffer -/

/-- The needs in blocks of a raw and of a proof at each scale (R3). Allocation (R4, R5) and free (R7)
on a free-run list of the form of R2: SPACE when all runs together are less than the need; FRAGMENTED
when the total is enough but no six runs are; otherwise the largest runs are taken whole, largest
first and lower address first among equals, the last of them from its low end as far as needed, its
remainder staying as a shorter run; so exactly the need moves into one to six extents, and the blocks
of the extents and of what is left are exactly those of the list before. A free gives exactly the
blocks of its extents back. Both keep the form of the list. -/
def Obligations.AllocationAndFree : Prop :=
  (Config.rawBytes = 42590016 ∧ blocksFor Config.rawBytes = 163 ∧
    blocksFor Config.rawBytes * 262144 - Config.rawBytes = 139456 ∧
    Config.rawBlocks = blocksFor Config.rawBytes ∧
    Scale.s2.bytes = 18252864 ∧ blocksFor Scale.s2.bytes = 70 ∧
    blocksFor Scale.s2.bytes * 262144 - Scale.s2.bytes = 97216 ∧
    Scale.s4.bytes = 4563216 ∧ blocksFor Scale.s4.bytes = 18 ∧
    blocksFor Scale.s4.bytes * 262144 - Scale.s4.bytes = 155376 ∧
    Scale.s8.bytes = 1140804 ∧ blocksFor Scale.s8.bytes = 5 ∧
    blocksFor Scale.s8.bytes * 262144 - Scale.s8.bytes = 169916) ∧
  ∀ (need : Nat) (rs : List Run), 0 < need → runsWf 0 rs = true →
    (allocate need rs = .space ↔ totalBlocks rs < need) ∧
    (allocate need rs = .fragmented ↔ need ≤ totalBlocks rs ∧
      ∀ l : List Run, l.Sublist rs → l.length ≤ 6 → totalBlocks l < need) ∧
    (∀ es left : List Run, allocate need rs = .done es left →
      totalBlocks es = need ∧ totalBlocks left + need = totalBlocks rs ∧ 1 ≤ es.length ∧
        es.length ≤ 6 ∧ runsWf 0 left = true ∧
        (∀ e, e ∈ es → ∀ r, r ∈ left → overlaps r e = false) ∧
        (∀ n, covered n es + covered n left = covered n rs) ∧
        ∃ (whole : List Run) (last : Run),
          let before := fun a b : Run =>
            b.count < a.count ∨ (a.count = b.count ∧ a.first < b.first)
          let k := need - totalBlocks whole
          (∀ r, r ∈ whole ++ [last] → r ∈ rs) ∧ (whole ++ [last]).Pairwise before ∧
          (∀ r, r ∈ rs → r ∉ whole ++ [last] → ∀ q, q ∈ whole ++ [last] → before q r) ∧
          totalBlocks whole < need ∧ k ≤ last.count ∧ es = whole ++ [⟨last.first, k⟩] ∧
          ∀ r, r ∈ left ↔ (r ∈ rs ∧ r ∉ whole ++ [last]) ∨
            (k < last.count ∧ r = ⟨last.first + k, last.count - k⟩)) ∧
    (∀ es : List Run, totalBlocks (insertRuns rs es) = totalBlocks rs + totalBlocks es ∧
      ∀ n, covered n (insertRuns rs es) = covered n rs + covered n es) ∧
    (∀ e : Run, 0 < e.count → e.first + e.count ≤ Config.blockCount →
      (∀ r, r ∈ rs → overlaps r e = false) → runsWf 0 (insertRun rs e) = true)

/-- Who is granted the DRAM (R8). While a transfer runs nothing is granted. On an idle DRAM the row
writer comes first, then the cards, then the ports, then development, each asking for what
`wantRsq`, `wantMed`, `wantPrt` and `wantDev` name; slots A and B alternate when both wait; body,
tether and relay follow each other in rotation after the port served last. The first turns after full
reset are slot A's and the body port's. A transfer granted is of 1 to 4096 bytes and lies inside one
extent of a part (how many of them: log entry 5). -/
def Obligations.DramGrants : Prop :=
  State.reset.arb.lastSlot = .b ∧ State.reset.arb.lastPort = .relay ∧
  ∀ s : State,
    (s.arb.current.isSome = true → s.grant = s) ∧
    (s.arb.current = none →
      let class2 : Prop := s.wantRsq = none
      let class3 : Prop := class2 ∧ s.wantMed .a = none ∧ s.wantMed .b = none
      let class4 : Prop := class3 ∧ ∀ p, s.wantPrt p = none
      (∀ t, s.wantRsq = some t → s.grant = { s with arb := { s.arb with current := some t } }) ∧
      (∀ x t, class2 → s.wantMed x = some t →
        (s.arb.lastSlot ≠ x ∨ ∀ y, y ≠ x → s.wantMed y = none) →
        s.grant = { s with arb := { s.arb with current := some t, lastSlot := x } }) ∧
      (∀ p t, class3 → s.wantPrt p = some t →
        (∀ q, q ∈ (match s.arb.lastPort, p with
          | .relay, .body => []
          | .relay, .tether => [Port.body]
          | .relay, .relay => [.body, .tether]
          | .body, .tether => []
          | .body, .relay => [.tether]
          | .body, .body => [.tether, .relay]
          | .tether, .relay => []
          | .tether, .body => [.relay]
          | .tether, .tether => [.relay, .body]) → s.wantPrt q = none) →
        s.grant = { s with arb := { s.arb with current := some t, lastPort := p } }) ∧
      (∀ t, class4 → s.wantDev = some t →
        s.grant = { s with arb := { s.arb with current := some t } }) ∧
      (class4 → s.wantDev = none → s.grant = s) ∧
      ∀ t, s.grant.arb.current = some t → t.live = true ∧ 0 < t.length ∧ t.length ≤ 4096 ∧
        ∃ r e, r ∈ s.catalog ∧ (e ∈ r.raw.extents ∨ ∃ v, v ∈ r.versions ∧ e ∈ v.extents) ∧
          e.first * 262144 ≤ t.addr ∧ t.addr + t.length ≤ (e.first + e.count) * 262144)

/-- The layouts of frames and rows. The check value of the CRC-16 that R148 gives; every message frame
sent carries the CRC of its own bytes and the length of its payload; a reply's frame has kind 2, the
request's tag and the number R151 gives its status, a BAD_FIELD one the field's number as its payload;
a notice's frame has kind 3, tag 0 and status 0 (codes and other payloads: opaque, log entry 31). A
frame on the lens link is command, length, data and a check byte that makes the sum 0, and each of its
bytes is sent as a low start bit, eight data bits from the least significant, odd parity and a high
stop bit, which the receiving side reads as that byte with no error (R69). Unpacking the packed bytes
of a row gives its samples back (R107). -/
def Obligations.FramesAndPackedRows : Prop :=
  crc16 [0x31, 0x32, 0x33, 0x34, 0x35, 0x36, 0x37, 0x38, 0x39] = 0x29B1#16 ∧
  (∀ (kind code tag st : Byte) (payload : List Byte), payload.length ≤ 16400 →
    let f := frameBytes kind code tag st payload
    f.length = 8 + payload.length ∧ byteAt f 0 = kind ∧ byteAt f 1 = code ∧ byteAt f 2 = tag ∧
      byteAt f 3 = st ∧ frameLength f = payload.length ∧ field16 f 6 = frameCrc f ∧
      f.drop 8 = payload) ∧
  (∀ r : Reply, (∀ b, r.payload = .bytes b → b.length ≤ 16400) →
    byteAt r.frame 0 = 2 ∧ byteAt r.frame 2 = r.tag ∧
    byteAt r.frame 3 = BitVec.ofNat 8 ([Status.ok, .busy, .denied, .gone, .protectSet, .full,
      .badField, .state, .saving, .frameBad, .unknown].idxOf r.status) ∧
    r.frame.length = 8 + frameLength r.frame ∧ frameLength r.frame ≤ 16400 ∧
    field16 r.frame 6 = frameCrc r.frame ∧
    (r.payload = .empty → r.frame.length = 8) ∧
    (∀ n, r.payload = .field n → r.frame.drop 8 = [BitVec.ofNat 8 n]) ∧
    ∀ b, r.payload = .bytes b → r.frame.drop 8 = b) ∧
  (∀ n : Notice, byteAt n.frame 0 = 3 ∧ byteAt n.frame 2 = 0 ∧ byteAt n.frame 3 = 0 ∧
    n.frame.length = 8 + frameLength n.frame ∧ frameLength n.frame ≤ 16400 ∧
    field16 n.frame 6 = frameCrc n.frame) ∧
  (∀ x : Transaction,
    byteAt x.frame 0 = Config.linkCode x.command ∧ x.data.length ≤ 8 ∧
    byteAt x.frame 1 = BitVec.ofNat 8 x.data.length ∧
    (x.frame.drop 2).take x.data.length = x.data ∧ x.frame.length = x.data.length + 3 ∧
    x.frame.foldl (· + ·) 0 = 0) ∧
  (∀ s : State, s.linkOutput = (match s.lnk.running with
    | some x => x.frame.flatMap linkBits
    | none => [])) ∧
  (∀ b : Byte,
    let bits := linkBits b
    let three := fun i : Nat =>
      Triple.mk (bits.getD i false) (bits.getD i false) (bits.getD i false)
    let read : LinkChar :=
      ⟨three 0, [three 1, three 2, three 3, three 4, three 5, three 6, three 7, three 8], three 9,
        three 10⟩
    bits.length = 11 ∧ bits.getD 0 true = false ∧ bits.getD 10 false = true ∧
    (∀ i, i < 8 → bits.getD (i + 1) false = b.getLsbD i) ∧
    ((bits.drop 1).take 9).count true % 2 = 1 ∧
    charStarted read = true ∧ charValue read = b ∧ charParityError read = false ∧
    charFramingError read = false) ∧
  ∀ ss : List Sample, ss.length % 4 = 0 →
    unpackRow (packRow ss) = ss ∧ 4 * (packRow ss).length = 7 * ss.length

/-! ### Numbers and layouts -/

/-- The black and gain stages of one quad of samples (R109, R110), and its place in the sums of its
cell. -/
def Obligations.BlackAndGainStages : Prop :=
  ∀ (c : CellSums) (rec : Recipe) (r g1 g2 b : Nat),
    let g := fun (gain level v : Nat) => min 16383 (((v - level) * gain + 512) / 1024)
    let n := fun (gain level v : Nat) =>
      if 16383 < ((v - level) * gain + 512) / 1024 then 1 else 0
    c.addQuad rec r g1 g2 b =
      { r := c.r + g rec.gainR rec.blackR r,
        g := c.g + g rec.gainG rec.blackG1 g1 + g rec.gainG rec.blackG2 g2,
        b := c.b + g rec.gainB rec.blackB b,
        clamps := c.clamps + n rec.gainR rec.blackR r + n rec.gainG rec.blackG1 g1 +
          n rec.gainG rec.blackG2 g2 + n rec.gainB rec.blackB b }

/-- An output pixel (R111 to R115): the averages of its cell, the three matrix rows rounded and
clamped to 0..16383, the tone curve, and the saturations counted. -/
def Obligations.OutputPixel : Prop :=
  ∀ (rec : Recipe) (tone : List Nat) (c : CellSums),
    let q := rec.scale.factor * rec.scale.factor / 4
    let r : Nat := (c.r + q / 2) / q
    let g : Nat := (c.g + 2 * q / 2) / (2 * q)
    let b : Nat := (c.b + q / 2) / q
    let m := fun i => (rec.matrix.getD (3 * i) 0 * r + rec.matrix.getD (3 * i + 1) 0 * g +
      rec.matrix.getD (3 * i + 2) 0 * b + 512) / 1024
    let v := fun i => (max 0 (min 16383 (m i))).toNat
    let n := fun i => if m i < 0 ∨ 16383 < m i then 1 else 0
    let out := fun v : Nat => (tone.getD (v / 256) 0 * (256 - v % 256) +
      tone.getD (v / 256 + 1) 0 * (v % 256) + 128) / 256
    developCell rec tone c =
      ([BitVec.ofNat 8 (out (v 0)), BitVec.ofNat 8 (out (v 1)), BitVec.ofNat 8 (out (v 2))],
        c.clamps + n 0 + n 1 + n 2)

/-- The order of the evaluated shifts (R61): lower SAD first, ties going to the smaller magnitude and
then to the negative shift. The best four are the first four in it, the best shift is the first of
them, and the mean is the sum of the SADs divided by their number and rounded by floor. -/
def Obligations.BestShift : Prop :=
  ∀ (u : Setup) (l : List (Int × Nat)), l ≠ [] → ∃ (r : CurveResult) (o : List (Int × Nat)),
    curveResult u l = some r ∧ o.Perm l ∧
    (o.Pairwise fun a b => a.2 < b.2 ∨ (a.2 = b.2 ∧ (a.1.natAbs < b.1.natAbs ∨
      (a.1.natAbs = b.1.natAbs ∧ a.1 ≤ b.1)))) ∧
    r.best = o.take 4 ∧ o.head?.map Prod.fst = some r.shift ∧
    r.mean = (l.map Prod.snd).sum / l.length

/-- The bands and windows of the focus areas lie on the sensor under every setup (R55, R56). What a
measurement holds beside its best four (R62 to R65): with fewer pairs than N it is PD_SHORT and holds
no curve; otherwise its confidence is the mean less the SAD of the best shift; a best shift at an end of
the range makes it EDGE and LOW with phase 16·s0 and no offset; else the offset is 8(a − c)/D rounded
half away from zero and clamped, from the SADs a, b, c around the best shift with D = a − 2b + c, 0
where D is 0, the phase is 16·s0 plus it, and the measurement is VALID exactly when the confidence is
at least Cmin. -/
def Obligations.FocusMeasurement : Prop :=
  (∀ (u : Setup) (area : Nat), area ≤ 134 → 32 ≤ u.wd → u.wd ≤ 256 → 1 ≤ u.smax → u.smax ≤ 31 →
    bandStart area = 37 * (area / 15) + 14 ∧ bandStart area + 7 ≤ 334 ∧
    (spanStart u area : Int) = max (0 : Int) (min (1512 - ((u.wd : Int) + 2 * (u.smax : Int)))
      ((((403 * (area % 15) + 201) / 4 : Nat) : Int) - ((u.wd / 2 : Nat) : Int) - (u.smax : Int))) ∧
    spanStart u area + u.wd + 2 * u.smax ≤ 1512) ∧
  ∀ (n : PdSnapshot) (store : List (List Nat × List Nat)) (pairs : Nat) (time : Time)
    (kind : FrameKind) (shot : Option Nat),
    let u := n.setup
    let m := measure n store pairs time kind shot
    m.time = time ∧ m.kind = kind ∧ m.shot = shot ∧ m.area = n.area ∧ m.setup = u ∧
    m.spanStart = n.spanStart ∧ m.pairs = pairs ∧
    (pairs < u.n → m.outcome = .short ∧ m.edge = false ∧ m.result = none ∧
      keptCurve n store pairs = []) ∧
    (u.n ≤ pairs → 1 ≤ u.smax → ∃ r : CurveResult, m.result = some r ∧
      curveResult u (evaluatedShifts u store) = some r ∧
      r.evaluated = (evaluatedShifts u store).length ∧
      r.confidence = r.mean - sad u store r.shift ∧
      (r.shift.natAbs = u.smax → m.edge = true ∧ m.outcome = .low ∧ r.offset = none ∧
        r.phase = 16 * r.shift) ∧
      (r.shift.natAbs ≠ u.smax →
        let a : Int := sad u store (r.shift - 1)
        let b : Int := sad u store r.shift
        let c : Int := sad u store (r.shift + 1)
        let d := a - 2 * b + c
        let o : Int := if d = 0 then 0
          else (a - c).sign * max (-8) (min 8 (((16 * (a - c).natAbs + d.natAbs) /
            (2 * d.natAbs) : Nat) : Int))
        0 ≤ d ∧ m.edge = false ∧ r.offset = some o ∧ r.phase = 16 * r.shift + o ∧
        m.outcome = (if u.cmin ≤ r.confidence then .valid else .low)) ∧
      keptCurve n store pairs = (if u.mode = .curve then
        (List.range (2 * u.smax + 1)).map (fun i : Nat => sad u store ((i : Int) - u.smax)) else []))

/-- The planned placement of a copy (R126): where the first six runs hold its size, runs are taken
whole in order from the head of the list, the last of them only as far as needed, from its start; its
remainder stays at the head of what is left, starting just after the sectors taken. So exactly the size
is taken, in at most six runs. -/
def Obligations.PlannedPlacement : Prop :=
  ∀ (space : List Run) (n : Nat), fits space n = true →
    totalSectors (planRuns space n).1 = n ∧
    totalSectors (planRuns space n).1 + totalSectors (planRuns space n).2 = totalSectors space ∧
    (planRuns space n).1.length ≤ 6 ∧
    (0 < n → ∃ (whole : List Run) (last : Run) (rest : List Run), space = whole ++ last :: rest ∧
      let k := n - totalSectors whole
      totalSectors whole < n ∧ k ≤ last.count ∧
      (planRuns space n).1 = whole ++ [⟨last.first, k⟩] ∧
      (planRuns space n).2 =
        (if k = last.count then rest else ⟨last.first + k, last.count - k⟩ :: rest))

/-! ### Bursts, the readout program and capture settings -/

/-- BURST_START in ACTIVE, from IDLE without a burst or from VIEW (R34, R35): the burst record, the
burst identifiers, and a view frame in progress abandoned; nothing else changes. -/
def Obligations.BurstStartTaken : Prop :=
  ∀ (s : State) (p : Port) (tag : Byte) (f : BurstFields), Accepts s p .burstStart →
    s.pwc.power = .active → s.rsq.burst.active = false →
    (s.rsq.state = .idle ∨ s.rsq.state = .view) →
    let e := max 31 (min 30000000 f.exposure)
    let i := max 50 (min 60000 f.interval)
    let v : State :=
      if s.rsq.state = .view then
        { s with rsq := { s.rsq with state := .idle, frame := none },
                 phc := { s.phc with snapshot := none, store := [] } }
      else s
    exec (.burstStart p tag f) s = .next (answered
      { v with rsq := { v.rsq with
          latch := false,
          nextBurst := if 65535 ≤ s.rsq.nextBurst then 1 else s.rsq.nextBurst + 1,
          burst := { active := true, id := s.rsq.nextBurst,
                     origin := if p = .body then .body else .tether, count := f.count,
                     exposure := e, interval := i, started := 0, completed := 0,
                     stopMark := false, due := s.rsq.timeBase, missed := false } } }
      p .burstStart tag .ok (.burst s.rsq.nextBurst e i))

/-- BURST_START and FOCUS_START outside ACTIVE (R165, R166): SAVING refuses them, WAKING holds them,
and STANDBY wakes the part and holds them when the request enable is on and answers STATE when it is
off. -/
def Obligations.WakeRequests : Prop :=
  ∀ (s : State) (p : Port) (tag : Byte),
    let held := fun (k : RequestKind) (h : Held) (u : State) =>
      (waiting { u with pwc := { u.pwc with held := u.pwc.held ++ [h] } } p k tag .wakeHeld).grant
    let woken : State := { s with pwc := { s.pwc with
      power := .waking, wake := some ⟨.request, s.rsq.timeBase, s.pwc.settings.stabilise⟩ } }
    ∀ (i : Instr) (k : RequestKind) (h : Held),
      ((∃ f, i = .burstStart p tag f ∧ k = .burstStart ∧ h = .burst p f) ∨
        ∃ m, i = .focusStart p tag m ∧ k = .focusStart ∧ h = .focus p m) →
      Accepts s p k →
      (s.pwc.power = .saving → exec i s = .next (answered s p k tag .saving .empty)) ∧
      (s.pwc.power = .waking → exec i s = .next (held k h s)) ∧
      (s.pwc.power = .standby → s.pwc.settings.request = true →
        exec i s = .next (held k h woken)) ∧
      (s.pwc.power = .standby → s.pwc.settings.request = false →
        exec i s = .next (answered s p k tag .state .empty))

/-- BURST_STOP outside SAVING (R37): without a burst nothing changes; between frames the burst ends
with BURST_END at once; in a stall it ends and the sequencer goes to IDLE; during a frame it is marked
to end after it. -/
def Obligations.BurstStopTaken : Prop :=
  ∀ (s : State) (p : Port) (tag : Byte), Accepts s p .burstStop → s.pwc.power ≠ .saving →
    (s.rsq.burst.active = false →
      exec (.burstStop p tag) s = .next (answered s p .burstStop tag .ok .empty)) ∧
    (s.rsq.burst.active = true → s.rsq.state = .idle →
      exec (.burstStop p tag) s = .next (answered
        (({ s with rsq := { s.rsq with
            burst := { s.rsq.burst with active := false, missed := false }, latch := false } } :
          State).notifyBodyTether (.burstEnd s.rsq.burst.id .stop s.rsq.burst.completed))
        p .burstStop tag .ok .empty)) ∧
    (∀ r, s.rsq.burst.active = true → s.rsq.state = .stalled r →
      ∃ t, exec (.burstStop p tag) s = .next t ∧ RepliedIn s t p .burstStop tag .ok .empty ∧
        t.rsq = { s.rsq with
          state := .idle, latch := false,
          burst := { s.rsq.burst with active := false, missed := false } } ∧
        Aside s t ∧ OthersKept s t p ∧ t.fdr = s.fdr ∧ t.lnk = s.lnk) ∧
    (s.rsq.burst.active = true →
      (s.rsq.state = .focusWait ∨ s.rsq.state = .expose ∨ s.rsq.state = .readout) →
      exec (.burstStop p tag) s = .next (answered
        { s with rsq := { s.rsq with burst := { s.rsq.burst with stopMark := true } } }
        p .burstStop tag .ok .empty))

/-- PROGRAM_WRITE in HOLD with fields in range (R28), PROGRAM_READ (R27), and SEQ_RUN in HOLD with
programs that pass (R29): their replies and what they change, and nothing else. -/
def Obligations.ReadoutProgramRequests : Prop :=
  ∀ (s : State) (p : Port) (tag : Byte),
    (∀ f : ProgramFields, Accepts s p .programWrite → s.pwc.power ≠ .saving →
      s.rsq.state = .hold → programBad f = none →
      exec (.programWrite p tag f) s = .next (answered
        { s with rsq := { s.rsq with
            program := writeEntries s.rsq.program f.first ((entriesOf f.entries).getD []),
            stillStart := f.stillStart.getD s.rsq.stillStart,
            viewStart := f.viewStart.getD s.rsq.viewStart } }
        p .programWrite tag .ok .empty)) ∧
    (∀ (f : ProgramFields) (n : Nat), Accepts s p .programWrite → s.pwc.power ≠ .saving →
      s.rsq.state = .hold → programBad f = some n →
      exec (.programWrite p tag f) s = .next (answered s p .programWrite tag .badField (.field n))) ∧
    (∀ f : ProgramFields, Accepts s p .programWrite → s.pwc.power ≠ .saving →
      s.rsq.state ≠ .hold →
      exec (.programWrite p tag f) s = .next (answered s p .programWrite tag .state .empty)) ∧
    (Accepts s p .programRead →
      exec (.programRead p tag) s = .next (answered s p .programRead tag .ok
        (.program s.rsq.program s.rsq.stillStart s.rsq.viewStart))) ∧
    (Accepts s p .seqRun → s.pwc.power ≠ .saving → s.rsq.state = .hold →
      stillPasses s.rsq.program s.rsq.stillStart = true →
      viewPasses s.rsq.program s.rsq.viewStart = true →
      exec (.seqRun p tag) s = .next (answered { s with rsq := { s.rsq with state := .idle } }
        p .seqRun tag .ok .empty))

/-- SEQ_HOLD outside SAVING (R31): from any state but OFF the sequencer is in HOLD, a burst that was
not met in HOLD or VIEW is over, a frame in progress is abandoned, and the record of an abandoned
still frame is gone; in OFF the answer is STATE. -/
def Obligations.SeqHoldTaken : Prop :=
  ∀ (s : State) (p : Port) (tag : Byte), Accepts s p .seqHold → s.pwc.power ≠ .saving →
    (s.rsq.state = .off →
      exec (.seqHold p tag) s = .next (answered s p .seqHold tag .state .empty)) ∧
    (s.rsq.state = .hold →
      exec (.seqHold p tag) s = .next (answered s p .seqHold tag .ok .empty)) ∧
    (s.rsq.state = .view →
      exec (.seqHold p tag) s = .next (answered
        { s with rsq := { s.rsq with state := .hold, frame := none },
                 phc := { s.phc with snapshot := none, store := [] } }
        p .seqHold tag .ok .empty)) ∧
    (s.rsq.state ≠ .off →
      ∃ t, exec (.seqHold p tag) s = .next t ∧ RepliedIn s t p .seqHold tag .ok .empty ∧
        t.rsq.state = .hold ∧ OthersKept s t p ∧ t.med = s.med ∧ t.pwc = s.pwc ∧
        (s.rsq.state ≠ .hold → s.rsq.state ≠ .view → t.rsq.burst.active = false) ∧
        (∀ f, s.rsq.frame = some f →
          (s.rsq.state = .focusWait ∨ s.rsq.state = .expose ∨ s.rsq.state = .readout) →
          t.rsq.frame = none ∧ t.rsq.fifo = [] ∧ t.rsq.owed = [] ∧ t.findRecord f.shot = none))

/-- SYNC_MODE (R45), CAPTURE_SET (R38) and WATERMARK (R47): the settings as given, rounded and
clamped, and the reply with the settings now in force. -/
def Obligations.CaptureSettingRequests : Prop :=
  ∀ (s : State) (p : Port) (tag : Byte),
    (∀ f : SyncFields, Accepts s p .syncMode → f.mode ≠ some .other → f.polarity ≠ some .other →
      let m := pick s.rsq.syncMode f.mode
      let e := pick s.rsq.polarity f.polarity
      (s.rsq.burst.active = false ∨ m = s.rsq.syncMode) →
      exec (.syncMode p tag f) s = .next (answered
        { s with rsq := { s.rsq with
            syncMode := m, polarity := e,
            latch := s.rsq.latch && (m == s.rsq.syncMode && e == s.rsq.polarity) } }
        p .syncMode tag .ok (.sync m e))) ∧
    (∀ f : CaptureFields, Accepts s p .captureSet → captureBad f = none →
      (s.rsq.state ≠ .focusWait ∨ (captureSettings s.rsq.settings f).priority = true) →
      exec (.captureSet p tag f) s = .next (answered
        { s with rsq := { s.rsq with settings := captureSettings s.rsq.settings f } }
        p .captureSet tag .ok (.capture (captureSettings s.rsq.settings f)))) ∧
    (∀ f : CaptureFields, Accepts s p .captureSet → captureBad f = none → s.rsq.state = .focusWait →
      s.rsq.frame.isSome = true → (captureSettings s.rsq.settings f).priority = false →
      ∃ t, exec (.captureSet p tag f) s = .next t ∧ t.rsq.state = .expose ∧
        RepliedIn s t p .captureSet tag .ok (.capture (captureSettings s.rsq.settings f))) ∧
    (∀ v : Nat, Accepts s p .watermark →
      ∃ t, exec (.watermark p tag v) s = .next t ∧
        RepliedIn s t p .watermark tag .ok (.watermark (max 8 (min 56 (v / 8 * 8)))) ∧
        t.rsq = { s.rsq with watermark := max 8 (min 56 (v / 8 * 8)) } ∧
        t.fdr = s.fdr ∧ t.lnk = s.lnk ∧ t.phc = s.phc ∧ t.med = s.med ∧ t.pwc = s.pwc ∧
        t.snq.relay = s.snq.relay ∧ OthersKept s t p)

/-! ### Focus requests -/

/-- FOCUS_START in ACTIVE (R71, R76): a new session in the mode asked for, its state set by the link,
its history empty, and in MANUAL no MOVE waiting or to be sent again (R83; to be sent again: log entry
50); a LOST link is identified again. FOCUS_STOP ends the session: the state is OFF and
no target and no pending MOVE are left. -/
def Obligations.FocusSessions : Prop :=
  ∀ (s : State) (p : Port) (tag : Byte),
    (∀ m : Option (Choice FocusMode), Accepts s p .focusStart → s.pwc.power = .active →
      m ≠ some .other →
      let st : FocusState := if s.lnk.state = .ready then .acquiring
        else if s.lnk.state = .absent then .noLens else .lensLost
      ∃ t, exec (.focusStart p tag m) s = .next t ∧
        RepliedIn s t p .focusStart tag .ok (.focus t.fdr.mode t.fdr.state) ∧
        t.fdr.mode = (match m with
          | some (.is x) => x
          | _ => s.fdr.mode) ∧
        t.fdr.state = st ∧ t.fdr.history = [] ∧ t.fdr.lowCount = 0 ∧ t.fdr.scan = .none ∧
        t.fdr.target = none ∧ OthersKept s t p ∧
        (t.fdr.mode = .manual → t.lnk.pendMove = none ∧ ∀ m, t.lnk.running ≠ some (.move m true)) ∧
        (s.lnk.state = .lost → t.lnk.state = .identifying ∧ t.lnk.running = some .identPage0)) ∧
    (Accepts s p .focusStart → s.pwc.power = .active →
      exec (.focusStart p tag (some .other)) s =
        .next (answered s p .focusStart tag .badField (.field 1))) ∧
    (Accepts s p .focusStop →
      ∃ t, exec (.focusStop p tag) s = .next t ∧ RepliedIn s t p .focusStop tag .ok .empty ∧
        t.fdr.state = .off ∧ t.fdr.target = none ∧ t.fdr.scan = .none ∧ t.lnk.pendMove = none ∧
        OthersKept s t p)

/-- FOCUS_AREA with an index 0..134 (R80, R86) sets the area; in MANUAL mode, and in CONTINUOUS mode for
the area in force, nothing else changes; a new area in CONTINUOUS mode empties the history and the count
of LOW measurements, and TRACKING becomes ACQUIRING; and in SINGLE mode any area, the one in force too
(log entry 40), ends the scan and the target of an ACQUIRING session and leaves the state (log entry
22); an index above 134 is answered BAD_FIELD. FOCUS_SETUP (R53) with Wd rounded down to a multiple of
16, FOCUS_RESULT (R67) and MARKER_WRITE (R87): their replies and what they change, and nothing else. -/
def Obligations.FocusSettings : Prop :=
  ∀ (s : State) (p : Port) (tag : Byte),
    (∀ i : Nat, Accepts s p .focusArea → 134 < i → exec (.focusArea p tag i) s =
      .next (answered s p .focusArea tag .badField (.field 1))) ∧
    (∀ i : Nat, Accepts s p .focusArea → i ≤ 134 →
      (s.fdr.mode = .manual ∨ (s.fdr.mode = .continuous ∧ i = s.fdr.area)) →
      exec (.focusArea p tag i) s = .next (answered { s with fdr := { s.fdr with area := i } }
        p .focusArea tag .ok (.area i))) ∧
    (∀ i : Nat, Accepts s p .focusArea → i ≤ 134 → ∃ t, exec (.focusArea p tag i) s = .next t ∧
      RepliedIn s t p .focusArea tag .ok (.area i) ∧ t.fdr.area = i ∧ OthersKept s t p ∧
      (s.fdr.mode = .continuous → i ≠ s.fdr.area → t.fdr.history = [] ∧ t.fdr.lowCount = 0 ∧
        (s.fdr.state = .tracking → t.fdr.state = .acquiring)) ∧
      (s.fdr.mode = .single → t.fdr.state = s.fdr.state ∧
        (s.fdr.state = .acquiring → t.fdr.scan = .none ∧ t.fdr.target = none) ∧
        (s.fdr.state ≠ .acquiring → t.fdr.scan = s.fdr.scan ∧ t.fdr.target = s.fdr.target))) ∧
    (∀ (n w x c : Nat) (m : PhaseMode), Accepts s p .focusSetup → 1 ≤ n → n ≤ 8 → 32 ≤ w →
      w ≤ 256 → 1 ≤ x → x ≤ 31 → c ≤ 16777215 →
      exec (.focusSetup p tag ⟨some n, some w, some x, some (.is m), some c⟩) s = .next (answered
        { s with phc := { s.phc with setup := ⟨n, w / 16 * 16, x, m, c⟩ } }
        p .focusSetup tag .ok (.setup ⟨n, w / 16 * 16, x, m, c⟩))) ∧
    (∀ f : SetupFields, Accepts s p .focusSetup → setupBad f = none →
      exec (.focusSetup p tag f) s = .next (answered
        { s with phc := { s.phc with setup := setupAfter s.phc.setup f } }
        p .focusSetup tag .ok (.setup (setupAfter s.phc.setup f)))) ∧
    (∀ (f : SetupFields) (n : Nat), Accepts s p .focusSetup → setupBad f = some n →
      exec (.focusSetup p tag f) s =
        .next (answered s p .focusSetup tag .badField (.field n))) ∧
    (Accepts s p .focusResult →
      exec (.focusResult p tag) s = .next (answered s p .focusResult tag .ok
        (.focusResult s.phc.setup s.phc.number s.phc.record
          (if s.phc.curve = [] then none else some s.phc.curve)))) ∧
    (∀ f : MarkerFields, Accepts s p .markerWrite → f.switch ≠ some .other →
      exec (.markerWrite p tag f) s = .next (answered
        { s with fdr := { s.fdr with marker := markerAfter s.fdr.marker f } }
        p .markerWrite tag .ok .empty))

/-- A measurement handed to FDR (R78 to R83, R85) and a good WHERE reply passed to it (R79, R80), while
no focus wait runs, as at every PD-done. A PD_SHORT measurement, or one while the link is not READY,
changes nothing. Otherwise P is the position at exposure plus the steps of the phase. In OFF nothing is
driven. SINGLE mode: a VALID measurement ends a scan and sets the target to P clamped, a LOW one with
no target begins the scan upward from the last position; CONTINUOUS: a VALID one enters the history and
the prediction of R82 is the target (the truncation: log entry 34), the eighth LOW in a row empties the
history; MANUAL: the state follows the outcome. A new target is the next one sent unless it equals the
last (a MOVE that waits counts as it, log entry 11); that a scan latches its class 0 at once, the lens
moving or not, is log entry 46. A still frame's shot gets its focus record. At a
WHERE that stands still, a lock is made, a scan turns at Pmax and ends FAILED at Pmin. -/
def Obligations.FocusApplication : Prop :=
  (∀ (s : State) (m : Measurement),
    (m.result = none ∨ s.lnk.state ≠ .ready → s.applyMeasurement m = s) ∧
    ∀ (r : CurveResult) (d : Descriptor), m.result = some r → s.lnk.state = .ready →
      s.lnk.descriptor = some d → s.rsq.state ≠ .focusWait →
      let pos : Nat := (match s.fdr.exposurePos with
        | some x => x
        | none => s.lnk.position.getD 0)
      let x := r.phase * d.page0.k
      let p : Int := pos + x.sign * ((2 * x.natAbs + 256) / 512 : Nat)
      let t := s.applyMeasurement m
      let clamped := fun v : Int => max (d.page0.pmin : Int) (min (d.page0.pmax : Int) v)
      let aimed := fun (v : Int) (predicted : Bool) => ∃ g : Target, t.fdr.target = some g ∧
        (g.step : Int) = clamped v ∧ g.predicted = predicted ∧ g.clamped = decide (clamped v ≠ v) ∧
        (s.lastTarget = some g.step → t.lnk = s.lnk) ∧ t.lastTarget = some g.step
      let record : FocusRecord := ⟨min 65535 pos, r.phase, r.confidence, t.fdr.state,
        decide (s.fdr.state ≠ .off) && (s.fdr.aim.map Aim.predicted).getD false,
        (s.fdr.aim.map Aim.clamped).getD false⟩
      let driven : Prop := t.fdr.target = s.fdr.target ∧ t.lnk = s.lnk ∧
        t.fdr.history = s.fdr.history ∧ t.fdr.scan = s.fdr.scan
      d.page0.pmin ≤ d.page0.pmax →
      (s.fdr.state = .off → driven ∧ t.fdr.state = .off ∧ t.fdr.lowCount = s.fdr.lowCount) ∧
      (s.fdr.mode = .single → s.fdr.state = .acquiring → m.outcome = .valid →
        aimed p false ∧ t.fdr.scan = .none ∧ t.fdr.state = .acquiring) ∧
      (s.fdr.mode = .single → s.fdr.state = .acquiring → m.outcome ≠ .valid →
        s.fdr.scan = .none → s.fdr.target = none → t.fdr.scan = .up ∧ t.fdr.target = none ∧
        (t.fdr.scanStart : Int) = clamped (s.lnk.position.getD 0) ∧ t.fdr.state = .acquiring ∧
        t.lastTarget = some d.page0.pmax ∧ t.lnk.latched = some 0) ∧
      (s.fdr.mode = .single → (s.fdr.state ≠ .acquiring ∨ (m.outcome ≠ .valid ∧
        (s.fdr.scan ≠ .none ∨ s.fdr.target ≠ none))) → driven ∧ t.fdr.state = s.fdr.state) ∧
      (s.fdr.mode = .continuous → s.fdr.state ≠ .off → m.outcome = .valid →
        let h := (if s.fdr.history.length < 4 then s.fdr.history else s.fdr.history.drop 1) ++
          [(s.fdr.frameMid, p)]
        t.fdr.history = h ∧ t.fdr.lowCount = 0 ∧
        t.fdr.state = (if s.fdr.state = .acquiring then .tracking else s.fdr.state) ∧
        ∀ v two, predict h s.fdr.nextMid d.vlim = some (v, two) → aimed v two) ∧
      (s.fdr.mode = .continuous → s.fdr.state ≠ .off → m.outcome ≠ .valid →
        t.fdr.target = s.fdr.target ∧ t.lnk = s.lnk ∧
        (s.fdr.lowCount < 7 → t.fdr.lowCount = s.fdr.lowCount + 1 ∧
          t.fdr.history = s.fdr.history ∧ t.fdr.state = s.fdr.state) ∧
        (7 ≤ s.fdr.lowCount → t.fdr.lowCount = 0 ∧ t.fdr.history = [] ∧
          t.fdr.state = .acquiring)) ∧
      (s.fdr.mode = .manual → s.fdr.state ≠ .off → driven ∧
        t.fdr.state = if m.outcome = .valid then .tracking else .acquiring) ∧
      (∀ n, m.shot = some n → t.catalog = s.catalog.map fun q =>
        if q.shot = n then { q with focus := some record } else q) ∧
      (m.shot = none → t.catalog = s.catalog)) ∧
  (∀ (h : List (Time × Int)) (tn t0 t1 : Time) (p0 p1 : Int) (vlim : Nat),
    let ahead := fun a b : Time => if (a - b).toNat < 2 ^ 31 then (a - b).toNat else 0
    predict [] tn vlim = none ∧ predict [(t1, p1)] tn vlim = some (p1, false) ∧
    predict ((t0, p0) :: h ++ [(t1, p1)]) tn vlim = some (p1 + max (-(vlim : Int)) (min vlim
      ((if ahead t1 t0 = 0 then p1 else
        (p1 * ahead t1 t0 + (p1 - p0) * ahead tn t1).tdiv (ahead t1 t0)) - p1)), true)) ∧
  ∀ (s : State) (pos : Nat) (d : Descriptor), s.lnk.descriptor = some d →
    s.rsq.state ≠ .focusWait → s.fdr.mode = .single → s.fdr.state = .acquiring →
    let near := fun n : Nat => pos ≤ n + d.page0.tolerance ∧ n ≤ pos + d.page0.tolerance
    let t := s.whereToFocus pos false
    (∀ g, s.fdr.scan = .none → s.fdr.target = some g → near g.step →
      t.fdr.state = .locked ∧ t.lnk.pendMove = none ∧ t.fdr.target = some g) ∧
    (∀ g, s.fdr.scan = .none → s.fdr.target = some g → ¬ near g.step → t = s) ∧
    (s.fdr.scan = .up → near d.page0.pmax → t.fdr.scan = .down ∧
      t.lastTarget = some d.page0.pmin ∧ t.fdr.state = .acquiring) ∧
    (s.fdr.scan = .up → ¬ near d.page0.pmax → t = s) ∧
    (s.fdr.scan = .down → near d.page0.pmin → t.fdr.scan = .none ∧ t.fdr.state = .failed ∧
      t.lastTarget = some s.fdr.scanStart) ∧
    (s.fdr.scan = .down → ¬ near d.page0.pmin → t = s) ∧
    s.whereToFocus pos true = s

/-! ### The catalog -/

/-- STATUS (R153) reports and clears the asking port's RESYNC; LIST (R153), INFO (R154), PLACEMENT and
MEDIA_STATUS (R135) report and change nothing. -/
def Obligations.Reports : Prop :=
  ∀ (s : State) (p : Port) (tag : Byte),
    (Accepts s p .status → exec (.status p tag) s = .next (answered
      (s.setPort p { s.port p with resync := false }) p .status tag .ok
      (.status (s.statusReport p)))) ∧
    (∀ first : Option Nat, Accepts s p .listRecords →
      exec (.listRecords p tag first) s = .next (answered s p .listRecords tag .ok
        (.list s.catalog.length s.nextShot
          (((s.catalog.filter fun r => decide (first.getD 1 ≤ r.shot) && r.life != .deleting).take
            64).map listEntry)))) ∧
    (∀ (n : Nat) (r : Record), Accepts s p .info → s.namedRecord n = some r →
      exec (.info p tag n) s = .next (answered s p .info tag .ok (.bytes (s.infoBytes r)))) ∧
    (∀ n : Nat, Accepts s p .info → s.namedRecord n = none →
      exec (.info p tag n) s = .next (answered s p .info tag .gone .empty)) ∧
    (∀ (n : Nat) (r : Record), Accepts s p .placement → s.findRecord n = some r →
      exec (.placement p tag n) s = .next (answered s p .placement tag .ok (.placement r.copies))) ∧
    (∀ n : Nat, Accepts s p .placement → s.findRecord n = none →
      exec (.placement p tag n) s = .next (answered s p .placement tag .gone .empty)) ∧
    (Accepts s p .mediaStatus → exec (.mediaStatus p tag) s = .next (answered s p .mediaStatus tag
      .ok (.mediaStatus (s.slotReport .a) (s.slotReport .b) s.med.mode s.med.cardProof)))

/-- The layout of the INFO payload (R155), byte by byte: a section A of 64 bytes, a section B of 42
bytes for each version in order, and four sections C of 5 bytes and 8 more for each run of the
placement. -/
def Obligations.InfoLayout : Prop :=
  ∀ (s : State) (r : Record),
    let bits := fun l : List Bool => l.foldr (fun b n => b.toNat + 2 * n) 0
    let one := fun n : Nat => [BitVec.ofNat 8 n]
    let at_ := fun (d : List Byte) (i k : Nat) => (d.drop i).take k
    let places := fun (d : List Byte) (es : List Run) =>
      (∀ i e, i < 6 → es[i]? = some e →
        at_ d (4 * i) 4 = leBytes 2 e.first ++ leBytes 2 e.count) ∧
      (∀ i, i < 6 → es[i]? = none → at_ d (4 * i) 4 = [0, 0, 0, 0])
    let handles := fun (part : Part) (version : Option Nat) =>
      [Port.body, .tether, .relay].flatMap fun p => one ((s.port p).handles.countP fun h =>
        h.any fun x => x.shot == r.shot && x.part == part && x.version == version)
    ∃ (a : List Byte) (bs cs : List (List Byte)),
      s.infoBytes r = a ++ bs.flatten ++ cs.flatten ∧ a.length = 64 ∧
      bs.length = r.versions.length ∧ cs.length = 4 ∧
      (at_ a 0 4 = leBytes 4 r.shot ∧
        at_ a 4 1 = one ([Life.exposing, .held, .cardOnly].idxOf r.life) ∧
        at_ a 5 1 = one ([Origin.body, .tether, .trigger].idxOf r.origin) ∧
        at_ a 6 2 = leBytes 2 r.burst ∧ at_ a 8 1 = one r.frame ∧
        at_ a 9 1 = one (bits [r.stamp.isSome, r.raw.checksum.isSome, r.wanted.isSome,
          r.focus.isSome]) ∧
        at_ a 10 1 = one (bits [r.flags.damaged, r.flags.syncMissed, r.flags.waitExpired]) ∧
        at_ a 11 1 = one (bits [r.tags.protect, r.tags.send, r.tags.priority] +
          16 * r.tags.rating) ∧
        at_ a 12 2 = leBytes 2 r.flags.lostRows ∧
        at_ a 14 1 = one ([RelayState.none, .queued, .inFlight, .sent, .sendFailed].idxOf r.relay) ∧
        at_ a 15 1 = one ([TetherState.none, .queued, .inFlight, .transferred, .missed].idxOf
          r.tether)) ∧
      (at_ a 16 4 = leBytes 4 (r.stamp.getD 0).toNat ∧
        at_ a 20 1 = one (1 + [RawState.filling, .present, .released].idxOf r.raw.state) ∧
        at_ a 21 1 = one r.raw.extents.length ∧
        at_ a 22 1 = one ((r.wanted.map fun w =>
          w.recipe + if w.purpose = .relay then 4 else 0).getD 0) ∧
        at_ a 23 1 = one r.lastVersion ∧
        at_ a 24 4 = leBytes 4 (r.raw.checksum.getD 0).toNat ∧
        (r.focus = none → at_ a 28 8 = List.replicate 8 0) ∧
        (∀ f, r.focus = some f → at_ a 28 2 = leBytes 2 f.position ∧
          at_ a 30 2 = leBytes 2 (BitVec.ofInt 16 f.phase).toNat ∧
          at_ a 32 3 = leBytes 3 f.confidence ∧
          at_ a 35 1 = one ([FocusState.off, .acquiring, .locked, .tracking, .failed, .lensLost,
            .noLens].idxOf f.state + 16 * f.predicted.toNat + 32 * f.clamped.toNat)) ∧
        at_ a 36 3 = handles .raw none ∧ at_ a 39 1 = one r.versions.length ∧
        places (a.drop 40) r.raw.extents) ∧
      (∀ (i : Nat) (v : Version) (d : List Byte), r.versions[i]? = some v → bs[i]? = some d →
        d.length = 42 ∧ at_ d 0 1 = one v.number ∧ at_ d 1 1 = one v.recipe ∧
        at_ d 2 1 = one v.scale.factor ∧
        at_ d 3 1 = one ([VersionState.building, .current, .draining].idxOf v.state) ∧
        at_ d 4 1 = one (bits [v.conditions.mixed, v.conditions.rawDamaged,
          v.conditions.spaceWait] + 128 * v.checksum.isSome.toNat) ∧
        at_ d 5 1 = one ([none, some Port.body, some .tether, some .relay].idxOf v.collector) ∧
        at_ d 6 1 = one v.extents.length ∧ at_ d 7 3 = handles .proof (some v.number) ∧
        at_ d 10 4 = leBytes 4 v.size ∧ at_ d 14 4 = leBytes 4 (v.checksum.getD 0).toNat ∧
        places (d.drop 18) v.extents) ∧
      ∀ (i : Nat) (c : Copy) (d : List Byte),
        [r.copies.aRaw, r.copies.aProof, r.copies.bRaw, r.copies.bProof][i]? = some c →
        cs[i]? = some d →
        let runs := c.placement.getD []
        d.length = 5 + 8 * runs.length ∧
        at_ d 0 1 = one ([CopyState.notRequired, .pending, .writing, .verifying, .written, .failed,
          .abandoned].idxOf c.state) ∧
        at_ d 1 1 = one c.attempts ∧ at_ d 2 1 = one (bits [c.unverified, c.version.isSome]) ∧
        at_ d 3 1 = one (c.version.getD 0) ∧ at_ d 4 1 = one runs.length ∧
        ∀ j x, runs[j]? = some x →
          at_ d (5 + 8 * j) 8 = leBytes 4 x.first ++ leBytes 4 x.count

/-- OPEN (R157): the free handle with the lowest number is opened on a PRESENT raw, or on the CURRENT
version of the proof, whose collection port is cleared when it is the asking port. FULL where no
handle is free. -/
def Obligations.OpenTaken : Prop :=
  ∀ (s : State) (p : Port) (tag : Byte) (n i : Nat) (r : Record), Accepts s p .openPart →
    s.namedRecord n = some r → r.life ≠ .exposing →
    (r.raw.state = .present → freeHandle 0 (s.port p).handles = some i →
      exec (.openPart p tag n (.is .raw)) s = .next (answered
        (s.setPort p { s.port p with
          handles := (s.port p).handles.set i (some ⟨n, .raw, none, 42590016⟩) })
        p .openPart tag .ok (.opened ⟨i, n, .raw, none, 42590016, r.raw.checksum⟩))) ∧
    (∀ v, r.current = some v → freeHandle 0 (s.port p).handles = some i →
      exec (.openPart p tag n (.is .proof)) s = .next (answered
        ((s.collect n v.number p).setPort p { s.port p with
          handles := (s.port p).handles.set i (some ⟨n, .proof, some v.number, v.size⟩) })
        p .openPart tag .ok (.opened ⟨i, n, .proof, some v.number, v.size, v.checksum⟩))) ∧
    (r.raw.state = .present → freeHandle 0 (s.port p).handles = none →
      exec (.openPart p tag n (.is .raw)) s = .next (answered s p .openPart tag .full .empty)) ∧
    (r.raw.state ≠ .present →
      exec (.openPart p tag n (.is .raw)) s = .next (answered s p .openPart tag .gone .empty))

/-- READ of an open handle (R158) waits and gathers up to the size; when all its bytes are there
READ_GATHERED forms the reply with them in the request's place (log entry 17); CLOSE (R159) frees the
handle, with the releases that follow. -/
def Obligations.HandleRequests : Prop :=
  ∀ (s : State) (p : Port) (tag : Byte),
    (∀ (h off len : Nat) (x : Handle), Accepts s p .readPart → h ≤ 3 → s.handle p h = some x →
      1 ≤ len → len ≤ 16384 → off < x.size →
      exec (.readPart p tag h off len) s = .next (waiting s p .readPart tag (.gathering
        ⟨h, x.shot, x.part, x.version, off, min len (x.size - off), []⟩)).grant) ∧
    (∀ (o : Outstanding) (g : Gather), (s.port p).request = some o → o.stage = .gathering g →
      g.length ≤ g.got.length →
      exec (.readGathered p) s = .next (s.setPort p { s.port p with
        request := some { o with stage := .answered },
        replies := fillPlace (s.port p).replies ⟨.request o.kind, o.tag, .ok, .bytes
          (leBytes 1 g.handle ++ leBytes 4 g.offset ++ leBytes 2 g.length ++ g.got)⟩ })) ∧
    (∀ (h : Nat) (x : Handle), Accepts s p .closeHandle → h ≤ 3 → s.handle p h = some x →
      ∃ t, exec (.closeHandle p tag h) s = .next t ∧ RepliedIn s t p .closeHandle tag .ok .empty ∧
        (t.port p).handles = (s.port p).handles.set h none ∧ OthersKept s t p ∧ Aside s t) ∧
    (∀ h : Nat, Accepts s p .closeHandle → 3 < h →
      exec (.closeHandle p tag h) s =
        .next (answered s p .closeHandle tag .badField (.field 1))) ∧
    (∀ h : Nat, Accepts s p .closeHandle → h ≤ 3 → s.handle p h = none →
      exec (.closeHandle p tag h) s = .next (answered s p .closeHandle tag .gone .empty))

/-- TAG (R14, R138, R139, R156) that passes its checks: PROTECT and the rating are stored as given;
SEND or SEND_PRIORITY set on a shot without a relay entry appends one at the tail, READY when the shot
has a CURRENT version; SEND cleared takes an entry that is not IN_FLIGHT out; otherwise SEND_PRIORITY
gives the entry's class. -/
def Obligations.TagTaken : Prop :=
  ∀ (s : State) (p : Port) (tag : Byte) (n : Nat) (r : Record) (f : TagFields), Accepts s p .tag →
    s.namedRecord n = some r → tagBad f = none →
    let base : Tags :=
      { r.tags with protect := f.protect.getD r.tags.protect, rating := f.rating.getD r.tags.rating }
    (s.relayEntry n = none → f.send ≠ some true → f.priority ≠ some true →
      exec (.tag p tag n f) s = .next (answered (s.modRecord n fun q => { q with tags := base })
        p .tag tag .ok (.tags base))) ∧
    (s.relayEntry n = none → (f.send = some true ∨ f.priority = some true) → r.life = .held →
      (r.current.isSome = true ∨ r.raw.state = .present) → s.snq.relay.length < 32 →
      ∃ t, exec (.tag p tag n f) s = .next t ∧
        RepliedIn s t p .tag tag .ok (.tags
          { base with send := true, priority := f.priority == some true }) ∧
        t.snq.relay = s.snq.relay ++ [⟨n, if f.priority = some true then .priority else .normal,
          if r.current.isSome then .ready else .waiting, 0, none⟩] ∧
        OthersKept s t p ∧ t.phc = s.phc ∧ t.med = s.med ∧ t.pwc = s.pwc) ∧
    (∀ e, s.relayEntry n = some e → e.state ≠ .inFlight → f.send = some false →
      ∃ t, exec (.tag p tag n f) s = .next t ∧
        RepliedIn s t p .tag tag .ok (.tags { base with send := false, priority := false }) ∧
        t.snq.relay = (s.snq.relay.filter fun e => e.shot != n) ∧ OthersKept s t p ∧
        t.phc = s.phc ∧ t.med = s.med ∧ t.pwc = s.pwc) ∧
    (∀ e, s.relayEntry n = some e → f.send ≠ some false →
      let after := { base with priority := f.priority.getD r.tags.priority }
      let tagged := s.modRecord n fun q => { q with tags := after }
      exec (.tag p tag n f) s = .next (answered
        { tagged with snq := { s.snq with relay := modRelayList s.snq.relay n fun q =>
            { q with cls := match f.priority with
                | some true => .priority
                | some false => .normal
                | none => q.cls } } }
        p .tag tag .ok (.tags after)))

/-- DELETE (R23, R24): refused with STATE while the shot is EXPOSING, with PROTECT when it is
protected, with BUSY while a handle is open on it; otherwise the reply says whether a copy is in
flight, the shot's entries are out of both send queues, its jobs are out of the job queue, and its
record is gone, or DELETING with no copy PENDING while a copy is in flight. -/
def Obligations.DeleteTaken : Prop :=
  ∀ (s : State) (p : Port) (tag : Byte) (n : Nat) (r : Record), Accepts s p .delete →
    s.namedRecord n = some r →
    (r.life = .exposing →
      exec (.delete p tag n) s = .next (answered s p .delete tag .state .empty)) ∧
    (r.life ≠ .exposing → r.tags.protect = true →
      exec (.delete p tag n) s = .next (answered s p .delete tag .protectSet .empty)) ∧
    (r.life ≠ .exposing → r.tags.protect = false → s.openOnShot n = true →
      exec (.delete p tag n) s = .next (answered s p .delete tag .busy .empty)) ∧
    (r.life ≠ .exposing → r.tags.protect = false → s.openOnShot n = false → CatalogOk s →
      ∃ t, exec (.delete p tag n) s = .next t ∧
        RepliedIn s t p .delete tag .ok (.deleted n r.anyInFlight) ∧
        t.relayEntry n = none ∧ t.tetherEntry n = none ∧
        (r.anyInFlight = false → t.findRecord n = none) ∧
        (r.anyInFlight = true → r.life = .held → ∃ q, t.findRecord n = some q ∧ q.life = .deleting ∧
          q.wanted = none ∧ ∀ x part, (q.copies.get x part).state ≠ .pending) ∧
        ((s.dev.queue.filter fun j => j.state == .running).length ≤ 1 →
          ∀ k, k ∈ t.dev.queue → k.shot ≠ n) ∧ OthersKept s t p)

/-- The release tests that every change which can bring a release makes for a shot (R10, R15, R17, R20,
R21; their order log entry 7), on a HELD record; CLOSE makes them once its handle is free. A raw is
released exactly when it is PRESENT, no raw copy is still to be made, no handle is open on it, no
tether entry holds it under HOLD, and there is no job and no proof wanted; under LOOSE its tether entry
goes with it. The versions that go are exactly the DRAINING ones without handle, copy to be made or
IN_FLIGHT relay entry, and the CURRENT one without copy to be made, handle, collection port or relay
entry. The record becomes CARD_ONLY exactly when no hold is left. And the end of a copy of a DELETING
shot (R25): its part goes unless another copy in flight holds it, and with the last copy the record. -/
def Obligations.ReleaseDecisions : Prop :=
  (∀ (s : State) (p : Port) (tag : Byte) (h : Nat) (x : Handle), Accepts s p .closeHandle → h ≤ 3 →
    s.handle p h = some x →
    let u := s.openRequest p .closeHandle tag
    exec (.closeHandle p tag h) s = .next ((((u.setPort p { u.port p with
      handles := (u.port p).handles.set h none }).releaseTests x.shot).settle).formReply p .ok
        .empty)) ∧
  (∀ (s : State) (n : Nat) (r : Record), CatalogOk s → s.findRecord n = some r → r.life = .held →
    (r.versions.map Version.number).Nodup →
    let needs := fun c : Copy => c.state = .pending ∨ c.state = .writing ∨ c.state = .verifying
    let handled := fun (part : Part) (version : Option Nat) => ∃ (p : Port) (x : Handle),
      some x ∈ (s.port p).handles ∧ x.shot = n ∧ x.part = part ∧ x.version = version
    let queued := ∃ e, e ∈ s.snq.relay ∧ e.shot = n
    let tethered := ∃ e, e ∈ s.snq.tether ∧ e.shot = n
    let job := ∃ j, j ∈ s.dev.queue ∧ j.shot = n
    let copying := fun k : Nat => ∃ x, (r.copies.get x .proof).version = some k ∧
      needs (r.copies.get x .proof)
    let rawDue : Prop := r.raw.state = .present ∧ (∀ x, ¬ needs (r.copies.get x .raw)) ∧
      ¬ handled .raw none ∧ ¬ (tethered ∧ s.snq.policy = .hold) ∧ ¬ job ∧ r.wanted = none
    let due := fun v : Version => ¬ handled .proof (some v.number) ∧ ¬ copying v.number ∧
      ((v.state = .draining ∧ ¬ ∃ e, e ∈ s.snq.relay ∧ e.shot = n ∧ e.state = .inFlight ∧
          e.version = some v.number) ∨
        (v.state = .current ∧ v.collector = none ∧ ¬ queued))
    let t := s.releaseTests n
    let bare : Prop := (r.raw.state = .released ∨ rawDue) ∧ (∀ v, v ∈ r.versions → due v) ∧
      ¬ queued ∧ (¬ tethered ∨ rawDue) ∧ ¬ job ∧ r.wanted = none
    (rawDue → t.tetherEntry n = none) ∧
    ∀ q, t.findRecord n = some q →
      (rawDue → q.raw = { r.raw with state := .released, extents := [] } ∧
        (tethered → q.tether = .missed)) ∧
      (¬ rawDue → q.raw = r.raw ∧ q.tether = r.tether) ∧
      (∀ v, v ∈ q.versions ↔ v ∈ r.versions ∧ ¬ due v) ∧
      (bare → q.life = .cardOnly) ∧ (¬ bare → q.life = .held)) ∧
  (∀ (s : State) (n : Nat) (r : Record), CatalogOk s → s.findRecord n = some r → r.life = .deleting →
    ∀ (part : Part) (version : Option Nat),
    let other := ∃ x, (r.copies.get x part).version = version ∧
      ((r.copies.get x part).state = .writing ∨ (r.copies.get x part).state = .verifying)
    let t := s.settleDeleting n part version
    (r.anyInFlight = false → t.findRecord n = none) ∧
    (r.anyInFlight = true → other → t = s) ∧
    (r.anyInFlight = true → ¬ other → ∃ q, t.findRecord n = some q ∧ q.life = .deleting ∧
      (part = .raw → q.raw.state = .released ∧ q.raw.extents = []) ∧
      (∀ k, part = .proof → version = some k →
        ∀ v, v ∈ q.versions ↔ v ∈ r.versions ∧ v.number ≠ k)))

/-! ### Development -/

/-- DEVELOP (R96, R97) of a HELD shot whose raw is there: a new job at the tail with the next job
number, or the asking port added to a QUEUED job of the same shot and recipe; DEV_STATUS (R104) reports
the engine, a job or a logged result. -/
def Obligations.DevelopmentJobs : Prop :=
  ∀ (s : State) (p : Port) (tag : Byte),
    (∀ (n i : Nat) (r : Record), Accepts s p .develop → s.pwc.power ≠ .saving → i ≤ 3 →
      s.namedRecord n = some r → r.life = .held → r.raw.state ≠ .released →
      (s.queuedJob n i = none → s.dev.queue.length < 8 →
        ∃ t, exec (.develop p tag n i) s = .next t ∧
          RepliedIn s t p .develop tag .ok (.job s.dev.nextJob) ∧
          t.dev.nextJob = (if 65535 ≤ s.dev.nextJob then 1 else s.dev.nextJob + 1) ∧
          t.dev.queue.map Job.number = s.dev.queue.map Job.number ++ [s.dev.nextJob] ∧
          (∃ j, j ∈ t.dev.queue ∧ j.number = s.dev.nextJob ∧ j.shot = n ∧ j.recipe = i ∧
            j.asking = [p] ∧ j.origin = (if p = .body then .body else .tether)) ∧
          t.dev.log = s.dev.log ∧ Aside s t ∧ OthersKept s t p ∧ t.rsq = s.rsq ∧ t.fdr = s.fdr ∧
          t.lnk = s.lnk) ∧
      (∀ j, s.queuedJob n i = some j →
        exec (.develop p tag n i) s = .next (answered (s.modJob j fun k =>
          if p ∈ k.asking then k else { k with asking := k.asking ++ [p] })
          p .develop tag .ok (.job j.number))) ∧
      (s.queuedJob n i = none → 8 ≤ s.dev.queue.length →
        exec (.develop p tag n i) s = .next (answered s p .develop tag .full .empty))) ∧
    (Accepts s p .devStatus →
      exec (.devStatus p tag none) s = .next (answered s p .devStatus tag .ok
        (.devStatus s.dev.engine s.dev.queue s.dev.log))) ∧
    (∀ (n : Nat) (j : Job), Accepts s p .devStatus →
      (s.dev.queue.find? fun j => j.number == n) = some j →
      exec (.devStatus p tag (some n)) s =
        .next (answered s p .devStatus tag .ok (.oneJob j))) ∧
    (∀ (n : Nat) (r : JobResult), Accepts s p .devStatus →
      (s.dev.queue.find? fun j => j.number == n) = none →
      (s.dev.log.find? fun r => r.number == n) = some r →
      exec (.devStatus p tag (some n)) s =
        .next (answered s p .devStatus tag .ok (.oneResult r)))

/-- The requests of recipes, tone tables and DEV_SET (R91 to R94): values in range are stored and
nothing else changes, and a running job whose snapshot names a table written takes MIXED. -/
def Obligations.DevelopmentSettings : Prop :=
  ∀ (s : State) (p : Port) (tag : Byte),
    (∀ i, Accepts s p .toneRead → i ≤ 3 → exec (.toneRead p tag i) s =
      .next (answered s p .toneRead tag .ok (.tone (s.toneTable i)))) ∧
    (∀ i, Accepts s p .toneRead → 3 < i → exec (.toneRead p tag i) s =
      .next (answered s p .toneRead tag .badField (.field 1))) ∧
    (∀ (i first : Nat) (vs : List Nat), Accepts s p .toneWrite → i ≤ 3 → first ≤ 64 → vs ≠ [] →
      first + vs.length ≤ 65 → (∀ v, v ∈ vs → v ≤ 255) →
      exec (.toneWrite p tag i first vs) s = .next (answered
        { s with dev := { s.dev with
            tones := s.dev.tones.set i (writeTone (s.toneTable i) first vs),
            queue := s.dev.queue.map fun j =>
              if j.state = .running ∧ j.snapshot.map Recipe.tone = some i then
                { j with conditions := { j.conditions with mixed := true } } else j } }
        p .toneWrite tag .ok .empty)) ∧
    (∀ (i : Nat) (f : RecipeFields), Accepts s p .recipeWrite → (p = .tether → 2 ≤ i) →
      recipeBad i f = none →
      exec (.recipeWrite p tag i f) s = .next (answered
        { s with dev := { s.dev with recipes := s.dev.recipes.set i (recipeAfter (s.recipe i) f) } }
        p .recipeWrite tag .ok (.recipe (recipeAfter (s.recipe i) f)))) ∧
    (∀ (i : Nat) (f : RecipeFields), Accepts s p .recipeWrite → p = .tether → i < 2 →
      exec (.recipeWrite p tag i f) s =
        .next (answered s p .recipeWrite tag .denied .empty)) ∧
    (∀ i, Accepts s p .recipeRead → i ≤ 3 → exec (.recipeRead p tag i) s =
      .next (answered s p .recipeRead tag .ok (.recipe (s.recipe i)))) ∧
    (∀ c r : Option Nat, Accepts s p .devSet → c.getD 0 ≤ 3 → r.getD 0 ≤ 3 →
      exec (.devSet p tag c r) s = .next (answered
        { s with dev := { s.dev with
            cardRecipe := c.getD s.dev.cardRecipe, relayRecipe := r.getD s.dev.relayRecipe } }
        p .devSet tag .ok (.devSet (c.getD s.dev.cardRecipe) (r.getD s.dev.relayRecipe))))

/-- Admission (R98), the start of a job (R99, R100) and the abort at SAVING (R105). Admission leaves no
proof wanted while the queue has room, keeps the jobs that are there but for their marks, and appends
AUTO jobs in ascending order of shot number, each for a proof wanted of its shot; with 8 jobs queued it
changes nothing but marks. An attempt (made at the end of a change that held an event of R99, log entry
6) starts nothing while a job is RUNNING, in SAVING, while the watermark signal is true or in a stall
for SPACE or FRAGMENTED; else it starts the first QUEUED job whose shot holds fewer than 2 versions and
whose proof can be allocated, in its place, with a BUILDING version numbered by R18, and sets
SPACE_WAIT on those passed over for space. The abort logs the result, frees the engine, removes the
version and restores proof wanted for a job with a mark. -/
def Obligations.JobsStartAndAbort : Prop :=
  (∀ s : State, CatalogOk s →
    let t := s.admitAuto
    (t.dev.queue.length < 8 → ∀ r, r ∈ t.catalog → r.wanted = none) ∧
    ((s.dev.queue.length ≤ 8 → t.dev.queue.length ≤ 8) ∧
      s.dev.queue.length ≤ t.dev.queue.length) ∧
    (∀ (i : Nat) (j k : Job), s.dev.queue[i]? = some j → t.dev.queue[i]? = some k →
      k = { j with cardMark := k.cardMark, relayMark := k.relayMark } ∧
      (j.cardMark = true → k.cardMark = true) ∧ (j.relayMark = true → k.relayMark = true) ∧
      (j.state = .running → k = j)) ∧
    ((t.dev.queue.drop s.dev.queue.length).Pairwise fun a b => a.shot < b.shot) ∧
    (∀ k, k ∈ t.dev.queue.drop s.dev.queue.length → k.origin = .auto ∧ k.asking = [] ∧
      k.state = .queued ∧ k.snapshot = none ∧ k.rowsDone = none ∧ k.conditions = .clear ∧
      k.saturation = 0 ∧ ∃ r w, r ∈ s.catalog ∧ r.shot = k.shot ∧ r.wanted = some w ∧
        k.recipe = w.recipe ∧ k.cardMark = (w.purpose == .card) ∧
        k.relayMark = (w.purpose == .relay)) ∧
    (∀ r w, r ∈ s.catalog → r.wanted = some w → (∀ q, q ∈ s.catalog → q.wanted ≠ none → q = r) →
      (∀ j, s.queuedJob r.shot w.recipe = some j → t.dev.queue = changeJob s.dev.queue j fun k =>
        { k with cardMark := k.cardMark || w.purpose == .card,
                 relayMark := k.relayMark || w.purpose == .relay }) ∧
      (s.queuedJob r.shot w.recipe = none → s.dev.queue.length < 8 →
        t.dev.queue.length = s.dev.queue.length + 1) ∧
      (s.queuedJob r.shot w.recipe = none → 8 ≤ s.dev.queue.length → t = s))) ∧
  (∀ s : State,
    let t := s.attemptJob
    let held : Prop := (∃ j, j ∈ s.dev.queue ∧ j.state = .running) ∨ s.pwc.power = .saving ∨
      s.rsq.watermark ≤ s.rsq.fifo.length ∨ s.rsq.state = .stalled .space ∨
      s.rsq.state = .stalled .fragmented
    let versions := fun j : Job =>
      (s.findRecord j.shot).any fun r => decide (r.versions.length < 2)
    let need := fun j : Job => blocksFor (s.recipe j.recipe).scale.bytes
    let space := fun j : Job => ∃ es left, allocate (need j) s.freeRuns = .done es left
    let passed := fun k : Job => if versions k then
      { k with conditions := { k.conditions with spaceWait := true } } else k
    (s.dev.attemptDue = false → t = s) ∧
    (s.dev.attemptDue = true → held → t = { s with dev := { s.dev with attemptDue := false } }) ∧
    (s.dev.attemptDue = true → ¬ held → (∀ j, j ∈ s.dev.queue → ¬ (versions j ∧ space j)) →
      t = { s with dev := { s.dev with attemptDue := false, queue := s.dev.queue.map passed } }) ∧
    (∀ (pre post : List Job) (j : Job) (r : Record) (es left : List Run),
      s.dev.attemptDue = true → ¬ held → s.dev.queue = pre ++ j :: post →
      (∀ k, k ∈ pre → ¬ (versions k ∧ space k)) → s.findRecord j.shot = some r →
      r.versions.length < 2 → allocate (need j) s.freeRuns = .done es left →
      let rec_ := s.recipe j.recipe
      let next := fun v : Nat => if 255 ≤ v then 1 else v + 1
      let n := if ∃ v, v ∈ r.versions ∧ v.number = next r.lastVersion then next (next r.lastVersion)
        else next r.lastVersion
      let v : Version := ⟨n, j.recipe, rec_.scale, rec_.scale.bytes, es, none, .building,
        ⟨false, false, false⟩, none⟩
      let started : Job := { j with
        state := .running, snapshot := some rec_, version := n, rowsDone := some 0,
        conditions := { j.conditions with rawDamaged := r.flags.damaged }, saturation := 0 }
      t = { s with
        freeRuns := left,
        catalog := s.catalog.map fun q => if q.shot = j.shot then
          { q with versions := q.versions ++ [v], lastVersion := n } else q,
        dev := { s.dev with
          attemptDue := false, engine := .running,
          row := ⟨s.toneTable rec_.tone, 0, [], 0, 0, 0⟩,
          queue := pre.map passed ++ started :: post } })) ∧
  (∀ (s : State) (j : Job) (r : Record), CatalogOk s → s.runningJob = some j →
    s.findRecord j.shot = some r → r.life = .held →
    let t := s.abortSave
    t.dev.engine = .idle ∧
    t.dev.log = (if s.dev.log.length < 8 then s.dev.log else s.dev.log.drop 1) ++
      [⟨j.number, j.shot, j.recipe, none, j.saturation, j.conditions, some .save⟩] ∧
    ((s.dev.queue.filter fun k => k.state == .running).length ≤ 1 → t.runningJob = none) ∧
    (∀ q v, q ∈ t.catalog → q.shot = j.shot → v ∈ q.versions → v.number ≠ j.version) ∧
    ((j.cardMark = true ∨ j.relayMark = true) →
      (∃ k, k ∈ t.dev.queue ∧ k.shot = j.shot ∧ k.recipe = j.recipe ∧ k.state = .queued ∧
        (if j.cardMark then k.cardMark else k.relayMark) = true) ∨
      ∃ q, q ∈ t.catalog ∧ q.shot = j.shot ∧
        q.wanted = some ⟨j.recipe, if j.cardMark then .card else .relay⟩))

/-! ### Cards -/

/-- SLOT_MODE (R120), MEDIA_SET (R122) and SLOT_FULL (R134): what they set, and nothing else. Slot A
declared FULL in OVERFLOW moves every copy PENDING on A to B, with 0 attempts and the same version,
where B may start the first of its work; that the entry on A keeps its other fields when it becomes
NOT_REQUIRED is log entry 32. -/
def Obligations.CardSettings : Prop :=
  ∀ (s : State) (p : Port) (tag : Byte),
    (∀ m, Accepts s p .slotMode → s.anyCopyNeeds = false →
      exec (.slotMode p tag (.is m)) s = .next (answered
        { s with med := { s.med with mode := m } } p .slotMode tag .ok (.slotMode m))) ∧
    (∀ m, Accepts s p .slotMode → s.anyCopyNeeds = true →
      exec (.slotMode p tag (.is m)) s = .next (answered s p .slotMode tag .busy .empty)) ∧
    (∀ f : MediaFields, Accepts s p .mediaSet → mediaBad f = none →
      let c := pick s.med.cardProof f.cardProof
      let ta := pick s.med.a.timeout f.aTimeout
      let va := pick s.med.a.verify f.aVerify
      let tb := pick s.med.b.timeout f.bTimeout
      let vb := pick s.med.b.verify f.bVerify
      exec (.mediaSet p tag f) s = .next (answered
        { s with med := { s.med with
            cardProof := c, a := { s.med.a with timeout := ta, verify := va },
            b := { s.med.b with timeout := tb, verify := vb } } }
        p .mediaSet tag .ok (.media ⟨c, ta, va, tb, vb⟩))) ∧
    (∀ x, Accepts s p .slotFull → ((s.slot x).state = .ready ∨ (s.slot x).state = .starved) →
      ¬ (x = .a ∧ s.med.mode = .overflow) →
      exec (.slotFull p tag (.is x)) s = .next (answered
        (s.setSlot x { s.slot x with state := .full }) p .slotFull tag .ok .empty)) ∧
    (Accepts s p .slotFull → ((s.slot .a).state = .ready ∨ (s.slot .a).state = .starved) →
      s.med.mode = .overflow →
      ∃ t, exec (.slotFull p tag (.is .a)) s = .next t ∧
        RepliedIn s t p .slotFull tag .ok .empty ∧ (t.slot .a).state = .full ∧
        (∀ r, r ∈ t.catalog → (r.copies.get .a .raw).state ≠ .pending ∧
          (r.copies.get .a .proof).state ≠ .pending) ∧ OthersKept s t p ∧
        t.catalog.map Record.shot = s.catalog.map Record.shot ∧
        ∀ (i : Nat) (r q : Record) (part : Part), s.catalog[i]? = some r → t.catalog[i]? = some q →
          ((r.copies.get .a part).state = .pending →
            q.copies.get .a part = { r.copies.get .a part with state := .notRequired } ∧
            (q.copies.get .b part).attempts = 0 ∧ (q.copies.get .b part).placement = none ∧
            (q.copies.get .b part).version = (r.copies.get .a part).version ∧
            ((q.copies.get .b part).state = .pending ∨ ((q.copies.get .b part).state = .writing ∧
              ∃ f, (t.slot .b).flight = some f ∧ f.shot = r.shot ∧ f.part = part))) ∧
          ((r.copies.get .a part).state ≠ .pending → q.copies.get .a part = r.copies.get .a part ∧
            (q.copies.get .b part = r.copies.get .b part ∨
              (q.copies.get .b part = { r.copies.get .b part with state := .writing } ∧
                ∃ f, (t.slot .b).flight = some f ∧ f.shot = r.shot ∧ f.part = part)))) ∧
    (∀ x, Accepts s p .slotFull → (s.slot x).state = .full →
      exec (.slotFull p tag (.is x)) s = .next (answered s p .slotFull tag .ok .empty))

/-- CARD_SPACE (R123), CARD_SPACE_CLEAR (R124) and SLOT_DROP (R133): the list of a slot, the copy
that the space lets the slot start, or STARVED where its head cannot be placed (R125, R126), and the
copies ABANDONED (that the slot then chooses again: log entry 32). -/
def Obligations.CardSpaceRequests : Prop :=
  ∀ (s : State) (p : Port) (tag : Byte) (x : Slot),
    let chooses : Prop := ((s.slot x).state = .ready ∨ (s.slot x).state = .starved) ∧
      s.pwc.power ≠ .saving ∧ (s.slot x).reinit = none
    (∀ first count : Nat, Accepts s p .cardSpace →
      (s.slot x).state ≠ .absent → (s.slot x).state ≠ .full → (s.slot x).state ≠ .fault →
      s.badRun x ⟨first, count⟩ = false → (s.slot x).space.length < 16 →
      let l := (s.slot x).space ++ [⟨first, count⟩]
      (s.slotWork x = [] ∨ ¬ chooses →
        ∃ t, exec (.cardSpace p tag (.is x) first count) s = .next t ∧
          RepliedIn s t p .cardSpace tag .ok (.space l.length (totalSectors l)) ∧
          (t.slot x).space = l ∧ (chooses → (t.slot x).state = .ready) ∧
          (¬ chooses → (t.slot x).state = (s.slot x).state) ∧
          (∀ y, y ≠ x → t.slot y = s.slot y) ∧ OthersKept s t p) ∧
      (∀ (n : Nat) (part : Part) (rest : List (Nat × Part)) (r : Record), chooses →
        s.slotWork x = (n, part) :: rest → s.findRecord n = some r →
        let bytes := r.partBytes part (r.copies.get x part).version
        (0 < bytes → fits l (sectorsFor bytes) = true →
          ∃ t f, exec (.cardSpace p tag (.is x) first count) s = .next t ∧
            RepliedIn s t p .cardSpace tag .ok (.space l.length (totalSectors l)) ∧
            (t.slot x).state = .busy ∧ (t.slot x).space = (planRuns l (sectorsFor bytes)).2 ∧
            (t.slot x).flight = some f ∧ f.shot = n ∧ f.part = part ∧
            f.planned = (planRuns l (sectorsFor bytes)).1 ∧ f.phase = .filling ∧
            f.timeout = (s.slot x).timeout ∧ f.verify = (s.slot x).verify ∧
            ∀ q, q ∈ t.catalog → q.shot = n → (q.copies.get x part).state = .writing) ∧
        (fits l (sectorsFor bytes) = false →
          ∃ t, exec (.cardSpace p tag (.is x) first count) s = .next t ∧
            RepliedIn s t p .cardSpace tag .ok (.space l.length (totalSectors l)) ∧
            t.slot x = { s.slot x with state := .starved, space := l } ∧
            t.catalog.map Record.copies = s.catalog.map Record.copies))) ∧
    (∀ first count : Nat, Accepts s p .cardSpace →
      ((s.slot x).state = .absent ∨ (s.slot x).state = .full ∨ (s.slot x).state = .fault) →
      exec (.cardSpace p tag (.is x) first count) s =
        .next (answered s p .cardSpace tag .state .empty)) ∧
    (Accepts s p .cardSpaceClear → (s.slot x).state ≠ .busy →
      ∃ t, exec (.cardSpaceClear p tag (.is x)) s = .next t ∧
        RepliedIn s t p .cardSpaceClear tag .ok .empty ∧ (t.slot x).space = [] ∧
        (t.slot x).flight = (s.slot x).flight ∧ (∀ y, y ≠ x → t.slot y = s.slot y) ∧
        (chooses → s.slotWork x = [] → (t.slot x).state = .ready) ∧
        (chooses → s.slotWork x ≠ [] → (t.slot x).state = .starved) ∧
        (¬ chooses → (t.slot x).state = (s.slot x).state) ∧
        t.catalog.map Record.copies = s.catalog.map Record.copies ∧ OthersKept s t p) ∧
    (Accepts s p .cardSpaceClear → (s.slot x).state = .busy →
      exec (.cardSpaceClear p tag (.is x)) s =
        .next (answered s p .cardSpaceClear tag .busy .empty)) ∧
    (Accepts s p .slotDrop → s.nextShot < 2 ^ 32 →
      ∃ t, exec (.slotDrop p tag (.is x)) s = .next t ∧
        RepliedIn s t p .slotDrop tag .ok (.dropped (s.slotWork x).length) ∧
        t.slotWork x = [] ∧ OthersKept s t p ∧ (t.slot x).space = (s.slot x).space ∧
        (t.slot x).faults = (s.slot x).faults ∧ (t.slot x).flight = (s.slot x).flight ∧
        (CatalogOk s → ∀ r q part, r ∈ s.catalog → q ∈ t.catalog → q.shot = r.shot →
          ((r.copies.get x part).state = .pending →
            q.copies.get x part = { r.copies.get x part with state := .abandoned }) ∧
          ((r.copies.get x part).state ≠ .pending →
            q.copies.get x part = r.copies.get x part)))

/-- SLOT_RESET (R132) empties the list and waits for the card; SLOT_RESET_DONE makes the slot READY
when the card answers within the timeout range of the slot, FAULT when it does not, and ABSENT when it
is removed, and forms the waiting reply. The range is the one in force when the reset was taken (log
entry 24). -/
def Obligations.SlotResets : Prop :=
  ∀ (s : State) (x : Slot),
    (∀ (p : Port) (tag : Byte), Accepts s p .slotReset → (s.slot x).state ≠ .busy →
      (s.slot x).state ≠ .absent →
      exec (.slotReset p tag (.is x)) s = .next (waiting
        (s.setSlot x { s.slot x with
          space := [], reinit := some ⟨s.rsq.timeBase, (s.slot x).timeout, true⟩ })
        p .slotReset tag (.resetting x)).grant) ∧
    (∀ r : Reinit, (s.slot x).reinit = some r →
      let reply := fun (st : Status) (t : State) =>
        r.asked = true → ∀ o, s.prt.body.request = some o →
          t.prt.body.request = some { o with stage := .answered } ∧
          t.prt.body.replies =
            fillPlace s.prt.body.replies ⟨.request o.kind, o.tag, st, .empty⟩
      let range := if r.range = .short then 250000 else 2000000
      let waited := (s.rsq.timeBase - r.since).toNat
      (waited ≤ range → ∃ t, exec (.slotResetDone x .answered) s = .next t ∧
        (t.slot x).reinit = none ∧ reply .ok t ∧
        (s.slotWork x = [] ∨ s.pwc.power = .saving → (t.slot x).state = .ready ∧
          (t.slot x).space = (s.slot x).space) ∧ ∀ y, y ≠ x → t.slot y = s.slot y) ∧
      (range < waited → ∃ t, exec (.slotResetDone x .answered) s = .next t ∧
        t.slot x = { s.slot x with state := .fault, reinit := none } ∧ reply .state t ∧
        ∀ y, y ≠ x → t.slot y = s.slot y) ∧
      (range ≤ waited → ∃ t, exec (.slotResetDone x .timedOut) s = .next t ∧
        t.slot x = { s.slot x with state := .fault, reinit := none } ∧ reply .state t ∧
        ∀ y, y ≠ x → t.slot y = s.slot y) ∧
      ∃ t, exec (.slotResetDone x .removed) s = .next t ∧ (t.slot x).state = .absent ∧
        (t.slot x).space = [] ∧ (t.slot x).flight = none ∧ (t.slot x).reinit = none ∧
        t.cardDetect x = false ∧ reply .state t)

/-! ### Send queues -/

/-- The relay queue (R141, R142): SEND_NEXT takes the first READY entry of class PRIORITY in tag order,
or without one the first READY entry, binds it to the CURRENT version and makes it IN_FLIGHT, while
fewer than two are IN_FLIGHT; SEND_DONE takes the entry out and clears the tags; SEND_FAIL makes it
READY again in its place twice, and the third time takes it out and clears the tags. -/
def Obligations.RelayQueueRequests : Prop :=
  ∀ (s : State) (p : Port) (tag : Byte),
    let flying := (s.snq.relay.filter fun q => q.state == .inFlight).length
    (∀ (e : RelayEntry) (r : Record) (v : Version), Accepts s p .sendNext → flying < 2 →
      ((s.snq.relay.find? fun q => q.state == .ready && q.cls == .priority) = some e ∨
        ((∀ q, q ∈ s.snq.relay → q.state = .ready → q.cls ≠ .priority) ∧
          (s.snq.relay.find? fun q => q.state == .ready) = some e)) →
      s.findRecord e.shot = some r → r.current = some v →
      exec (.sendNext p tag) s = .next (answered
        (s.modRelay e.shot .inFlight fun q =>
          { q with state := .inFlight, version := some v.number })
        p .sendNext tag .ok
        (.sendNext (some ⟨e.shot, e.cls, e.failures, v.number, v.scale, v.size, v.checksum⟩)))) ∧
    (Accepts s p .sendNext → flying < 2 → (∀ q, q ∈ s.snq.relay → q.state ≠ .ready) →
      exec (.sendNext p tag) s = .next (answered s p .sendNext tag .ok (.sendNext none))) ∧
    (Accepts s p .sendNext → 2 ≤ flying →
      exec (.sendNext p tag) s = .next (answered s p .sendNext tag .busy .empty)) ∧
    (∀ (n : Nat) (e : RelayEntry), Accepts s p .sendDone → s.relayEntry n = some e →
      e.state = .inFlight → CatalogOk s → (s.findRecord n).isSome = true →
      ∃ t, exec (.sendDone p tag n) s = .next t ∧ RepliedIn s t p .sendDone tag .ok .empty ∧
        t.snq.relay = (s.snq.relay.filter fun q => q.shot != n) ∧
        (∀ r, r ∈ t.catalog → r.shot = n →
          r.relay = .sent ∧ r.tags.send = false ∧ r.tags.priority = false) ∧
        t.phc = s.phc ∧ t.med = s.med ∧ t.pwc = s.pwc ∧ OthersKept s t p) ∧
    (∀ (n : Nat) (e : RelayEntry), Accepts s p .sendFail → s.relayEntry n = some e →
      e.state = .inFlight → CatalogOk s → (s.findRecord n).isSome = true →
      ∃ t, exec (.sendFail p tag n) s = .next t ∧ RepliedIn s t p .sendFail tag .ok .empty ∧
        (e.failures < 2 → t.snq.relay = (s.snq.relay.map fun q => if q.shot = n then
            { q with state := .ready, failures := q.failures + 1, version := none } else q) ∧
          ∀ r, r ∈ t.catalog → r.shot = n → r.relay = .queued) ∧
        (2 ≤ e.failures → t.snq.relay = (s.snq.relay.filter fun q => q.shot != n) ∧
          ∀ r, r ∈ t.catalog → r.shot = n →
            r.relay = .sendFailed ∧ r.tags.send = false ∧ r.tags.priority = false) ∧
        t.phc = s.phc ∧ t.med = s.med ∧ t.pwc = s.pwc ∧ OthersKept s t p) ∧
    (∀ n, Accepts s p .sendDone → s.relayEntry n = none →
      exec (.sendDone p tag n) s = .next (answered s p .sendDone tag .gone .empty)) ∧
    (∀ n e, Accepts s p .sendDone → s.relayEntry n = some e → e.state ≠ .inFlight →
      exec (.sendDone p tag n) s = .next (answered s p .sendDone tag .state .empty))

/-- The tether queue (R143 to R145): TRANSFER_NEXT gives the first entry not IN_FLIGHT, or no shot when
there is none; TRANSFER_DONE takes the entry out and the shot is TRANSFERRED; TRANSFER_FAIL makes it
READY again in its place with one failure more, twice (under LOOSE its raw may go in the same change,
and the entry with it), and the third time takes it out and the shot is MISSED; SEND_SET sets
auto-transfer and the policy, and TETHER_QUEUE_CLEAR empties the queue. -/
def Obligations.TetherQueueRequests : Prop :=
  ∀ (s : State) (p : Port) (tag : Byte),
    (∀ e : TetherEntry, Accepts s p .transferNext → s.tetherInFlight < 2 →
      (s.snq.tether.find? fun e => !e.inFlight) = some e →
      exec (.transferNext p tag) s = .next (answered
        (s.modTether e.shot .inFlight fun q => { q with inFlight := true })
        p .transferNext tag .ok (.transferNext (some ⟨e.shot, e.failures, 42590016,
          (s.findRecord e.shot).bind fun r => r.raw.checksum⟩)))) ∧
    (Accepts s p .transferNext → s.tetherInFlight < 2 →
      (∀ q, q ∈ s.snq.tether → q.inFlight = true) →
      exec (.transferNext p tag) s =
        .next (answered s p .transferNext tag .ok (.transferNext none))) ∧
    (Accepts s p .transferNext → 2 ≤ s.tetherInFlight →
      exec (.transferNext p tag) s = .next (answered s p .transferNext tag .busy .empty)) ∧
    (∀ (n : Nat) (e : TetherEntry), Accepts s p .transferDone → s.tetherEntry n = some e →
      e.inFlight = true →
      ∃ t, exec (.transferDone p tag n) s = .next t ∧
        RepliedIn s t p .transferDone tag .ok .empty ∧
        t.snq.tether = (s.snq.tether.filter fun q => q.shot != n) ∧
        (CatalogOk s → (s.findRecord n).isSome = true → ∀ r, r ∈ t.catalog → r.shot = n →
          r.tether = .transferred) ∧ Aside s t ∧ OthersKept s t p) ∧
    (∀ (n : Nat) (e : TetherEntry), Accepts s p .transferFail → s.tetherEntry n = some e →
      e.inFlight = true →
      let again := s.snq.tether.map fun q => if q.shot = n then
        { q with inFlight := false, failures := q.failures + 1 } else q
      let gone := s.snq.tether.filter fun q => q.shot != n
      ∃ t, exec (.transferFail p tag n) s = .next t ∧
        RepliedIn s t p .transferFail tag .ok .empty ∧
        (e.failures < 2 → (t.snq.tether = again ∨ (s.snq.policy = .loose ∧ t.snq.tether = gone)) ∧
          (CatalogOk s → (s.findRecord n).isSome = true → ∀ r, r ∈ t.catalog → r.shot = n →
            (t.snq.tether = again → r.tether = .queued) ∧
            (t.snq.tether ≠ again → r.tether = .missed ∧ r.raw.state = .released))) ∧
        (2 ≤ e.failures → t.snq.tether = gone ∧
          (CatalogOk s → (s.findRecord n).isSome = true → ∀ r, r ∈ t.catalog → r.shot = n →
            r.tether = .missed)) ∧ Aside s t ∧ OthersKept s t p) ∧
    (∀ f : SendSetFields, Accepts s p .sendSet → f.auto ≠ some .other → f.policy ≠ some .other →
      let b := pick s.snq.auto f.auto
      let y := pick s.snq.policy f.policy
      (s.snq.policy = .loose ∨ y = .hold →
        exec (.sendSet p tag f) s = .next (answered
          { s with snq := { s.snq with auto := b, policy := y } }
          p .sendSet tag .ok (.sendSet b y))) ∧
      (s.snq.policy = .hold → y = .loose →
        ∃ t, exec (.sendSet p tag f) s = .next t ∧
          RepliedIn s t p .sendSet tag .ok (.sendSet b .loose) ∧ t.snq.auto = b ∧
          t.snq.policy = .loose ∧ OthersKept s t p)) ∧
    (Accepts s p .tetherQueueClear →
      ∃ t, exec (.tetherQueueClear p tag) s = .next t ∧
        RepliedIn s t p .tetherQueueClear tag .ok (.cleared s.snq.tether.length) ∧
        t.snq.tether = [] ∧
        (CatalogOk s → ∀ r q, r ∈ s.catalog → q ∈ t.catalog → q.shot = r.shot →
          q.tether = if ∃ e, e ∈ s.snq.tether ∧ e.shot = r.shot then .none else r.tether) ∧
        Aside s t ∧ OthersKept s t p)

/-! ### Ports and power -/

/-- PORT_SET (R152) and WAKE_SET (R165) set what they name. PORT_RESET (R162) puts the port named into
its state after reset; that a serial port which ignores data until select is deasserted goes on
ignoring them is the model's choice (log entry 3). One naming its own port is not answered.
TETHER_ATTACH and TETHER_DETACH (R147, R162, R165) reset the tether port, and an attach in STANDBY
wakes the part where the enable is on; an attach when attached changes nothing (log entry 3). -/
def Obligations.PortRequests : Prop :=
  ∀ (s : State) (p : Port) (tag : Byte),
    (∀ b, Accepts s p .portSet → exec (.portSet p tag (.is b)) s = .next (answered
      { s with prt := { s.prt with remoteDelete := b } } p .portSet tag .ok (.portSet b))) ∧
    (∀ f : WakeFields, Accepts s p .wakeSet → wakeBad f = none →
      let w := s.pwc.settings
      let v : WakeSettings := ⟨pick w.half f.half, pick w.trigger f.trigger,
        pick w.request f.request, pick w.attach f.attach,
        match f.stabilise with
        | some n => max 5 (min 100 n)
        | none => w.stabilise⟩
      exec (.wakeSet p tag f) s = .next (answered
        { s with pwc := { s.pwc with settings := v } } p .wakeSet tag .ok (.wakeSet v))) ∧
    (∀ q, Accepts s p .portReset → ∃ t, exec (.portReset p tag (.is q)) s = .next t ∧
      t.port q = { PortSt.reset with deaf := (s.port q).deaf } ∧
      (q ≠ p → RepliedIn s t p .portReset tag .ok .empty) ∧
      ∀ r, r ≠ q → r ≠ p → (t.port r).request = (s.port r).request ∧
        (t.port r).replies = (s.port r).replies ∧ (t.port r).handles = (s.port r).handles) ∧
    (s.prt.attached = false → ∃ t, exec .tetherAttach s = .next t ∧ t.prt.attached = true ∧
      t.port .tether = { PortSt.reset with deaf := (s.port .tether).deaf } ∧
      t.pwc.power = (if s.pwc.power = .standby ∧ s.pwc.settings.attach = true then .waking
        else s.pwc.power)) ∧
    (s.prt.attached = true → exec .tetherAttach s = .next s ∧
      ∃ t, exec .tetherDetach s = .next t ∧ t.prt.attached = false ∧
        t.port .tether = { PortSt.reset with deaf := (s.port .tether).deaf } ∧
        t.pwc.power = s.pwc.power)

/-- STANDBY (R164): OK from ACTIVE without a burst, with the sequencer OFF, the session ended and the
pending link transactions dropped; BUSY with a burst; OK and no change in STANDBY; STATE in WAKING;
SAVING in SAVING. RESUME (R169): back to ACTIVE, or to WAKING when SAVING was not entered from ACTIVE,
once SAVE_DONE has been sent and the line is released. -/
def Obligations.StandbyAndResume : Prop :=
  ∀ (s : State) (p : Port) (tag : Byte),
    (Accepts s p .standby → s.pwc.power = .active → s.rsq.burst.active = false →
      ∃ t, exec (.standby p tag) s = .next t ∧ RepliedIn s t p .standby tag .ok .empty ∧
        t.pwc = { s.pwc with power := .standby } ∧ t.rsq.state = .off ∧
        t.rsq.fromHold = (s.rsq.state == .hold) ∧ t.rsq.frame = none ∧ t.fdr.state = .off ∧
        t.lnk.pendWhere = none ∧ t.lnk.pendMove = none ∧ t.lnk.pendPoll = false ∧
        t.med = s.med ∧ t.snq = s.snq ∧ OthersKept s t p) ∧
    (Accepts s p .standby → s.pwc.power = .active → s.rsq.burst.active = true →
      exec (.standby p tag) s = .next (answered s p .standby tag .busy .empty)) ∧
    (Accepts s p .standby → s.pwc.power = .standby →
      exec (.standby p tag) s = .next (answered s p .standby tag .ok .empty)) ∧
    (Accepts s p .standby → s.pwc.power = .waking →
      exec (.standby p tag) s = .next (answered s p .standby tag .state .empty)) ∧
    (Accepts s p .standby → s.pwc.power = .saving →
      exec (.standby p tag) s = .next (answered s p .standby tag .saving .empty)) ∧
    (Accepts s p .resume → s.pwc.power = .saving → s.pins.powerLow = false → s.pwc.done = true →
      ∃ t, exec (.resume p tag) s = .next t ∧ RepliedIn s t p .resume tag .ok .empty ∧
        (s.pwc.savedFrom = .active → t.pwc.power = .active ∧
          t.rsq.state = (if s.rsq.fromHold then .hold else .idle)) ∧
        (s.pwc.savedFrom ≠ .active → t.pwc.power = .waking ∧
          t.pwc.wake = some ⟨.resume, s.rsq.timeBase, s.pwc.settings.stabilise⟩) ∧
        OthersKept s t p) ∧
    (Accepts s p .resume → s.pwc.power = .saving → s.pins.powerLow = true →
      exec (.resume p tag) s = .next (answered s p .resume tag .state .empty)) ∧
    (Accepts s p .resume → s.pwc.power = .active →
      exec (.resume p tag) s = .next (answered s p .resume tag .ok .empty))

/-- The power-low line (R33, R137, R166 to R168) and the end of a wake (R166). Its assertion outside
SAVING enters SAVING: HOLD, IDLE and STALLED go to OFF with no burst active, a focus wait ends into
EXPOSE with its record marked, a frame in VIEW, EXPOSE or READOUT runs on; the running job is aborted;
a VERIFYING copy is WRITTEN unverified, one being written runs on; held requests are answered SAVING;
and the part is done at once when it is OFF with no copy in flight. That the slot of a copy so ended is
READY is log entry 42. At the end of the stabilisation
time the part is ACTIVE, RSQ leaves OFF, the lens is identified, and the held list is served in order,
each item as if it had arrived then. -/
def Obligations.PowerLine : Prop :=
  ∀ s : State,
    (s.pins.powerLow = false → s.pwc.power ≠ .saving →
      ∃ t, exec .powerLowAsserted s = .next t ∧ t.pins = { s.pins with powerLow := true } ∧
        t.pwc.power = .saving ∧ t.pwc.savedFrom = s.pwc.power ∧ t.pwc.wake = none ∧
        t.pwc.held = [] ∧
        ((s.rsq.state = .hold ∨ s.rsq.state = .idle ∨ ∃ r, s.rsq.state = .stalled r) →
          t.rsq.state = .off ∧ t.rsq.fromHold = (s.rsq.state == .hold)) ∧
        ((s.rsq.state = .idle ∨ ∃ r, s.rsq.state = .stalled r) → t.rsq.burst.active = false) ∧
        (∀ f, s.rsq.state = .focusWait → s.rsq.frame = some f →
          t.rsq = { s.rsq with
            state := .expose,
            frame := some { f with
              exposureStart := s.rsq.timeBase, exposure := s.rsq.burst.exposure,
              midpoint := s.rsq.timeBase + BitVec.ofNat 32 (s.rsq.burst.exposure / 2),
              program := .exposing } } ∧
          ∀ r, r ∈ t.catalog → r.shot = f.shot → r.flags.waitExpired = true) ∧
        ((s.rsq.state = .view ∨ s.rsq.state = .expose ∨ s.rsq.state = .readout ∨
          s.rsq.state = .off) → t.rsq = s.rsq) ∧
        (∀ j, s.runningJob = some j → t.dev.engine = .idle ∧
          t.dev.log = (if s.dev.log.length < 8 then s.dev.log else s.dev.log.drop 1) ++
            [⟨j.number, j.shot, j.recipe, none, j.saturation, j.conditions, some .save⟩] ∧
          ((s.dev.queue.filter fun k => k.state == .running).length ≤ 1 → t.runningJob = none)) ∧
        (∀ x f since, (s.slot x).flight = some f → f.phase = .verifying since →
          t.slot x = { s.slot x with state := .ready, flight := none } ∧
          ∀ q, q ∈ t.catalog → q.shot = f.shot → (q.copies.get x f.part).state = .written ∧
            (q.copies.get x f.part).placement = some f.planned ∧
            (q.copies.get x f.part).unverified = true) ∧
        (∀ x, (∀ f, (s.slot x).flight = some f → ∀ since, f.phase ≠ .verifying since) →
          t.slot x = s.slot x) ∧
        (∀ p g o, s.pwc.held = [.burst p g] → (s.port p).request = some o →
          (t.port p).request = some { o with stage := .answered } ∧
          (t.port p).replies =
            fillPlace (s.port p).replies ⟨.request o.kind, o.tag, .saving, .empty⟩) ∧
        t.pwc.done = (t.rsq.state == .off && (t.slot .a).flight.isNone &&
          (t.slot .b).flight.isNone) ∧
        (t.pwc.done = true →
          .saveDone (t.slotWork .a).length (t.slotWork .b).length ∈ (t.port .body).notices ∨
            (t.port .body).resync = true)) ∧
    (s.pins.powerLow = false → s.pwc.power = .saving →
      exec .powerLowAsserted s = .next { s with pins := { s.pins with powerLow := true } }) ∧
    exec .powerLowDeasserted s = .next { s with pins := { s.pins with powerLow := false } } ∧
    (∀ w : Wake, s.pwc.power = .waking → s.pwc.wake = some w →
      reached (w.start + BitVec.ofNat 32 (w.wait * 1000)) s.rsq.timeBase = true →
      let replied := fun (t : State) (p : Port) (st : Status) (pl : Payload) =>
        ∀ o, (s.port p).request = some o →
          (t.port p).request = some { o with stage := .answered } ∧
          (t.port p).replies = fillPlace (s.port p).replies ⟨.request o.kind, o.tag, st, pl⟩
      let origin := fun p : Port => match p with
        | .body => Origin.body
        | .tether => .tether
        | .relay => .tether
      let exposure := fun f : BurstFields => max 31 (min 30000000 f.exposure)
      let interval := fun f : BurstFields => max 50 (min 60000 f.interval)
      let burst := fun (who : Origin) (count exposure interval : Nat) =>
        Burst.mk true s.rsq.nextBurst who count exposure interval 0 0 false s.rsq.timeBase false
      ∃ t, exec .wakeWaitEnd s = .next t ∧ t.pwc.power = .active ∧ t.pwc.wake = none ∧
        t.pwc.held = [] ∧ t.rsq.state = (if s.rsq.fromHold then .hold else .idle) ∧
        (s.pins.lens = true → t.lnk.state = .identifying) ∧
        (s.pins.halfPress = true → t.fdr.state ≠ .off) ∧
        (s.pwc.held = [] → t.rsq.burst = s.rsq.burst) ∧
        (∀ p f, s.pwc.held = [.burst p f] →
          (s.rsq.burst.active = true → t.rsq.burst = s.rsq.burst ∧ replied t p .busy .empty) ∧
          (s.rsq.burst.active = false → s.rsq.fromHold = true →
            t.rsq.burst = s.rsq.burst ∧ replied t p .state .empty) ∧
          (s.rsq.burst.active = false → s.rsq.fromHold = false →
            t.rsq.burst = burst (origin p) f.count (exposure f) (interval f) ∧
            replied t p .ok (.burst s.rsq.nextBurst (exposure f) (interval f)))) ∧
        (∀ p f q g, s.pwc.held = [.burst p f, .burst q g] → p ≠ q → s.rsq.burst.active = false →
          s.rsq.fromHold = false →
          t.rsq.burst = burst (origin p) f.count (exposure f) (interval f) ∧
          replied t p .ok (.burst s.rsq.nextBurst (exposure f) (interval f)) ∧
          replied t q .busy .empty) ∧
        (∀ p m, s.pwc.held = [.focus p m] →
          (m = some .other → replied t p .badField (.field 1) ∧ t.fdr.mode = s.fdr.mode) ∧
          (m ≠ some .other → t.fdr.mode = pick s.fdr.mode m ∧ (s.pins.lens = true →
            t.fdr.state = .lensLost ∧ replied t p .ok (.focus (pick s.fdr.mode m) .lensLost)))) ∧
        (s.pwc.held = [.edge] →
          t.rsq.burst = (if s.rsq.syncMode = .master ∧ s.rsq.settings.trigger = true ∧
              s.rsq.burst.active = false ∧ s.rsq.fromHold = false
            then burst .trigger 1 s.rsq.settings.triggerExposure 50 else s.rsq.burst)))

/-- The half-press line (R71, R76, R165), the lens-detect line (R71, R89) and the card-detect lines
(R121). -/
def Obligations.DetectLines : Prop :=
  ∀ s : State,
    (s.pins.halfPress = false → s.pwc.power = .active → s.fdr.state = .off →
      ∃ t, exec .halfPressAsserted s = .next t ∧ t.pins = { s.pins with halfPress := true } ∧
        t.fdr.state = (if s.lnk.state = .ready then .acquiring
          else if s.lnk.state = .absent then .noLens else .lensLost)) ∧
    (s.pins.halfPress = false → s.pwc.power = .standby → s.pwc.settings.half = true →
      exec .halfPressAsserted s = .next { s with
        pins := { s.pins with halfPress := true },
        pwc := { s.pwc with power := .waking,
                            wake := some ⟨.halfPress, s.rsq.timeBase, s.pwc.settings.stabilise⟩ } }) ∧
    (s.pins.halfPress = true → ∃ t, exec .halfPressReleased s = .next t ∧
      t.pins = { s.pins with halfPress := false } ∧ t.fdr.state = .off ∧ t.fdr.target = none) ∧
    (s.pins.lens = false → s.lensDeferred = false →
      (s.lnk.state = .absent ∨ s.lnk.state = .lost) →
      ∃ t, exec .lensDetectAsserted s = .next t ∧ t.pins = { s.pins with lens := true } ∧
        t.lnk.state = .identifying ∧ t.lnk.running = some .identPage0 ∧ t.rsq = s.rsq ∧
        t.fdr = s.fdr) ∧
    (s.pins.lens = false → s.lensDeferred = true →
      exec .lensDetectAsserted s = .next { s with pins := { s.pins with lens := true } }) ∧
    (s.pins.lens = true → ∃ t, exec .lensDetectDeasserted s = .next t ∧
      t.pins = { s.pins with lens := false } ∧ t.lnk.state = .absent ∧ t.lnk.running = none ∧
      t.lnk.position = none ∧ t.lnk.descriptor = none ∧
      t.fdr.state = (if s.fdr.state = .off then .off else .noLens)) ∧
    (∀ x, s.cardDetect x = false → (s.slot x).state = .absent →
      ∃ t, exec (.cardDetectAsserted x) s = .next t ∧ t.cardDetect x = true ∧
        (t.slot x).space = [] ∧ (t.slot x).faults = [] ∧
        (s.slotWork x = [] ∨ s.pwc.power = .saving → (t.slot x).state = .ready) ∧
        ∀ y, y ≠ x → t.slot y = s.slot y) ∧
    (∀ x, s.cardDetect x = true → ∃ t, exec (.cardDetectDeasserted x) s = .next t ∧
      t.cardDetect x = false ∧ (t.slot x).state = .absent ∧ (t.slot x).space = [] ∧
      (t.slot x).flight = none ∧ ∀ y, y ≠ x → t.slot y = s.slot y)

/-- A trigger/sync edge of the polarity in force (R36, R46, R165, R166): a burst of one frame in
MASTER mode, the latch or the missed mark in SLAVE mode, a wake or a held item in STANDBY and WAKING,
nothing in SAVING; an edge of the other polarity is ignored. -/
def Obligations.TriggerEdges : Prop :=
  ∀ (s : State) (e : Edge),
    (e ≠ s.rsq.polarity → exec (.triggerEdge e) s = .next s) ∧
    (s.pwc.power = .saving → exec (.triggerEdge e) s = .next s) ∧
    (e = s.rsq.polarity → s.pwc.power = .active → s.rsq.syncMode = .master →
      s.rsq.settings.trigger = true → s.rsq.burst.active = false → s.rsq.state = .idle →
      exec (.triggerEdge e) s = .next { s with rsq := { s.rsq with
        latch := false,
        nextBurst := if 65535 ≤ s.rsq.nextBurst then 1 else s.rsq.nextBurst + 1,
        burst := { active := true, id := s.rsq.nextBurst, origin := .trigger, count := 1,
                   exposure := s.rsq.settings.triggerExposure, interval := 50, started := 0,
                   completed := 0, stopMark := false, due := s.rsq.timeBase, missed := false } } }) ∧
    (e = s.rsq.polarity → s.pwc.power = .active → s.rsq.syncMode = .slave →
      s.rsq.burst.active = true →
      exec (.triggerEdge e) s = .next (if s.rsq.state = .idle ∧ s.rsq.latch = false then
          { s with rsq := { s.rsq with latch := true } }
        else { s with rsq := { s.rsq with burst := { s.rsq.burst with missed := true } } })) ∧
    (e = s.rsq.polarity → s.pwc.power = .standby → s.pwc.settings.trigger = true →
      exec (.triggerEdge e) s = .next { s with pwc := { s.pwc with
        power := .waking, wake := some ⟨.trigger, s.rsq.timeBase, s.pwc.settings.stabilise⟩,
        held := s.pwc.held ++ [.edge] } }) ∧
    (e = s.rsq.polarity → s.pwc.power = .waking →
      exec (.triggerEdge e) s = .next (if Held.edge ∈ s.pwc.held then s else
        { s with pwc := { s.pwc with held := s.pwc.held ++ [.edge] } }))

/-- The lens link (R70 to R75). Every good reply ends its transaction and returns the run count to 0:
page 0, the descriptor and the position are stored, a reply to MOVE only ends it, a WHERE reply is
passed to FDR (R74, R79, R80), one of the frame in hand gives the position at exposure (R78), and
while READY the next pending transaction is sent: exposure WHERE, then MOVE, then poll. A single error
or a late reply counts one more, the third makes the link LOST; before that an identification
transaction is sent again and a failed MOVE stays pending. Of several errors one is kept (log entry 9),
and which command a reply names is an operand (log entry 10). A poll is sent, or waits its turn, 2,000 µs
after a transaction; that only one which ends inside the moving period starts that time is log entry 41,
that a poll already pending outlives a reply that reports the lens not moving is log entry 48, and that
nothing new is sent in STANDBY, WAKING and SAVING entered from them (`linkSilent`) is log entry 23. -/
def Obligations.LensLink : Prop :=
  ∀ s : State,
    let next : Option Transaction := match s.lnk.pendWhere, s.lnk.pendMove, s.lnk.pendPoll with
      | some f, _, _ => some (.exposureWhere f)
      | none, some m, _ => some (.move m true)
      | none, none, true => some .pollWhere
      | none, none, false => none
    let sent : Option Move := match s.lnk.pendWhere, s.lnk.pendMove with
      | none, some m => some m
      | _, _ => none
    (∀ (cs : List LinkChar) (names : Option LinkCommand) (x : Transaction),
      s.lnk.running = some x → linkErrors cs names x.command x.replyLength = [] →
      let d := linkData ((cs.filter charStarted).map charValue)
      let moves := byteAt d 2 != 0
      let where_ : Prop := x = .identWhere ∨ x = .pollWhere ∨ ∃ f, x = .exposureWhere f
      ∃ t, exec (.linkReply cs names) s = .next t ∧ t.lnk.errors = 0 ∧
        (x = .identPage0 → t.lnk.page0 = some (readPage0 d) ∧
          t.lnk.running = if s.linkSilent then none else some .identPage1) ∧
        (∀ q, x = .identPage1 → s.lnk.page0 = some q → (readDescriptor q d).valid = true →
          t.lnk.descriptor = some (readDescriptor q d) ∧
          t.lnk.running = if s.linkSilent then none else some .identWhere) ∧
        (∀ q, x = .identPage1 → s.lnk.page0 = some q → (readDescriptor q d).valid = false →
          t.lnk.state = .lost ∧ t.lnk.lostReason = some .descriptor ∧ t.lnk.running = none) ∧
        (x = .identWhere → t.lnk.state = .ready) ∧
        (where_ → t.lnk.position = some (linkWord d 0) ∧ t.lnk.movingFlag = moves) ∧
        (∀ f, x = .exposureWhere f → s.rsq.state ≠ .focusWait →
          t.fdr.exposurePos =
            if f = s.fdr.frameTag then some (linkWord d 0) else s.fdr.exposurePos) ∧
        (∀ m again, x = .move m again → t.rsq = s.rsq ∧ t.fdr = s.fdr ∧
          t.lnk.position = s.lnk.position ∧ t.lnk.timers = (if s.lnk.moving then
            s.lnk.timers ++ [s.rsq.timeBase] else s.lnk.timers) ∧
          t.lnk.running = if s.lnk.state = .ready ∧ s.linkSilent = false then next else none) ∧
        (where_ → (x = .identWhere ∨ s.lnk.state = .ready) → s.linkSilent = false →
          s.fdr.state = .off → s.rsq.state ≠ .focusWait → t.rsq = s.rsq ∧
          t.lnk.running = next ∧ t.fdr.state = .off ∧
          t.lnk.moving = (sent.isSome || (s.lnk.moving && moves)) ∧
          t.lnk.latched = (match sent with
            | some m => some m.cls
            | none => if moves then s.lnk.latched else none) ∧
          t.lnk.timers = if moves then
            (if s.lnk.moving then s.lnk.timers ++ [s.rsq.timeBase] else s.lnk.timers) else []) ∧
        let heard := fun (st : LinkState) (at_ : Option Nat) => ({ s with
          fdr := { s.fdr with exposurePos := at_ },
          lnk := { s.lnk with
            state := st, errors := 0, running := none, position := some (linkWord d 0),
            movingFlag := moves, moving := s.lnk.moving && moves,
            latched := if moves then s.lnk.latched else none,
            timers := if moves then (if s.lnk.moving then s.lnk.timers ++ [s.rsq.timeBase]
              else s.lnk.timers) else [] } } : State)
        (x = .identWhere → t = (((heard .ready s.fdr.exposurePos).focusFound).whereToFocus
          (linkWord d 0) moves).startNext) ∧
        (x = .pollWhere → t = ((heard s.lnk.state s.fdr.exposurePos).whereToFocus
          (linkWord d 0) moves).startNext) ∧
        ∀ f, x = .exposureWhere f → t = ((heard s.lnk.state (if f = s.fdr.frameTag
          then some (linkWord d 0) else s.fdr.exposurePos)).whereToFocus
            (linkWord d 0) moves).startNext) ∧
    (∀ (cs : List LinkChar) (names : Option LinkCommand) (x : Transaction) (e : LinkError)
      (rest : List LinkError),
      s.lnk.running = some x → linkErrors cs names x.command x.replyLength = e :: rest →
      ∃ t kept, kept ∈ e :: rest ∧
        exec (.linkReply cs names) s = .next t ∧ t.lnk.lastError = some kept ∧
        (s.lnk.errors < 2 → t.lnk.errors = s.lnk.errors + 1 ∧ t.lnk.state = s.lnk.state ∧
          (x = .identPage0 ∨ x = .identPage1 ∨ x = .identWhere →
            t.lnk.running = if s.linkSilent then none else some x) ∧
          (s.lnk.state = .ready → s.linkSilent = false →
            (x = .pollWhere ∨ (∃ f, x = .exposureWhere f) ∨ (∃ m, x = .move m false) →
              t.lnk.running = next) ∧
            ∀ m, x = .move m true →
              (s.lnk.pendMove.isSome = true → t.lnk.running = next) ∧
              (s.lnk.pendMove = none → ∀ f, s.lnk.pendWhere = some f →
                t.lnk.running = some (.exposureWhere f) ∧ t.lnk.pendMove = some m) ∧
              (s.lnk.pendMove = none → s.lnk.pendWhere = none →
                t.lnk.running = some (.move m true)))) ∧
        (2 ≤ s.lnk.errors → t.lnk.state = .lost ∧ t.lnk.lostReason = some .link ∧
          t.lnk.errors = 0 ∧ t.lnk.running = none)) ∧
    (∀ x : Transaction, s.lnk.running = some x →
      ∃ t, exec .linkReplyLate s = .next t ∧ t.lnk.lastError = some .late ∧
        (s.lnk.errors < 2 → t.lnk.errors = s.lnk.errors + 1 ∧ t.lnk.state = s.lnk.state) ∧
        (2 ≤ s.lnk.errors → t.lnk.state = .lost ∧ t.lnk.lostReason = some .link ∧
          t.lnk.errors = 0 ∧ t.lnk.running = none)) ∧
    (∀ (due : Time) (rest : List Time), s.lnk.timers = due :: rest → s.lnk.state = .ready →
      s.lnk.moving = true → s.linkSilent = false →
      2000 ≤ (s.rsq.timeBase - due).toNat → s.lnk.pendWhere = none → s.lnk.pendMove = none →
      exec .pollWhereDue s = .next { s with lnk := { s.lnk with
        timers := rest,
        running := if s.lnk.running = none then some .pollWhere else s.lnk.running,
        pendPoll := decide (s.lnk.running ≠ none) } })

/-! ### Frames -/

/-- FRAME_DUE (R11, R40 to R42, R46), when a frame is due: with a place in the catalog and the blocks
of a raw, the record of the next shot number is there with its raw FILLING, and the sequencer is in
FOCUS_WAIT or EXPOSE; without one it stalls with the reason. That the number after 4,294,967,295 reads 0,
standing for none, is the model's choice (log entry 8). -/
def Obligations.FrameDueTakesARecord : Prop :=
  ∀ s : State, s.rsq.burst.active = true → s.rsq.state = .idle →
    reached s.rsq.burst.due s.rsq.timeBase = true →
    (s.rsq.syncMode = .master ∨ s.rsq.latch = true) →
    (∀ es left : List Run, s.catalogRoom = true → allocate 163 s.freeRuns = .done es left →
      ∃ t f r, exec .frameDue s = .next t ∧ t.nextShot = (s.nextShot + 1) % 2 ^ 32 ∧
        t.rsq.burst = { s.rsq.burst with started := s.rsq.burst.started + 1, missed := false } ∧
        t.rsq.latch = false ∧ t.rsq.fifo = [] ∧ t.rsq.owed = [] ∧
        t.rsq.state = (if s.rsq.settings.priority = true ∧ s.fdr.mode ≠ .manual ∧
            (s.fdr.state = .acquiring ∨ s.fdr.state = .tracking) ∧ s.inPosition = false
          then .focusWait else .expose) ∧
        t.rsq.frame = some f ∧ f.kind = .still ∧ f.shot = s.nextShot ∧
        f.start = s.rsq.timeBase ∧ f.program = .exposing ∧
        r ∈ t.catalog ∧ r.shot = s.nextShot ∧ r.life = .exposing ∧ r.raw = ⟨.filling, es, none⟩ ∧
        r.burst = s.rsq.burst.id ∧ r.frame = s.rsq.burst.started ∧ r.origin = s.rsq.burst.origin ∧
        r.stamp = none ∧ r.flags = ⟨false, 0, s.rsq.burst.missed, false⟩) ∧
    (∀ why : StallReason,
      (why = .catalog ∧ s.catalogRoom = false ∨
        why = .space ∧ s.catalogRoom = true ∧ allocate 163 s.freeRuns = .space ∨
        why = .fragmented ∧ s.catalogRoom = true ∧ allocate 163 s.freeRuns = .fragmented) →
      ∃ t, exec .frameDue s = .next t ∧
        t.rsq = { s.rsq with state := .stalled why, latch := false } ∧ t.nextShot = s.nextShot)

/-- FOCUS_WAIT_TIMEOUT (R42), EXPOSURE_MIDPOINT and EXPOSURE_END (R43, R50), and VIEW_FRAME_START (R50,
R87), when they are due, a view frame once its period has passed since the last one (modulo 2^32,
R51). At EXPOSURE_END the record has its stamp (log entry 19), and the program
begins: a PD entry takes its snapshot and stands at the first pair of the area's band (R55, R57), and a
view program that begins with STOP ends the view frame. That the frame syncs and rows put out are
counted is the model's (log entry 27). -/
def Obligations.ExposureEvents : Prop :=
  ∀ (s : State) (f : Frame),
    let began := fun (t : State) (e : Entry) =>
      (e.kind ≠ .pd → t.phc = s.phc) ∧
      (e.kind = .pd → t.phc = { s.phc with
        snapshot := some ⟨s.phc.setup, s.fdr.area, spanStart s.phc.setup s.fdr.area⟩,
        pairPtr := 37 * (s.fdr.area / 15) + 14, store := [], pairs := 0 })
    (s.rsq.frame = some f → s.rsq.state = .focusWait →
      reached (f.waitStart + 60000) s.rsq.timeBase = true →
      ∃ t, exec .focusWaitTimeout s = .next t ∧
        t.rsq = { s.rsq with
          state := .expose,
          frame := some { f with
            exposureStart := s.rsq.timeBase, exposure := s.rsq.burst.exposure,
            midpoint := s.rsq.timeBase + BitVec.ofNat 32 (s.rsq.burst.exposure / 2),
            program := .exposing } } ∧
        t.catalog = (s.modRecord f.shot fun r =>
          { r with flags := { r.flags with waitExpired := true } }).catalog) ∧
    (s.rsq.frame = some f → s.rsq.state = .expose → reached f.midpoint s.rsq.timeBase = true →
      exec .exposureMidpoint s = .next (s.modRecord f.shot fun r =>
        if r.stamp = none then { r with stamp := some f.midpoint } else r)) ∧
    (∀ e : Entry, s.rsq.frame = some f → s.rsq.state = .expose → f.kind = .still →
      f.program = .exposing →
      reached (f.exposureStart + BitVec.ofNat 32 f.exposure) s.rsq.timeBase = true →
      s.rsq.program[s.rsq.stillStart]? = some e →
      ∃ t, exec .exposureEnd s = .next t ∧
        t.rsq = { s.rsq with
          state := .readout,
          frame := some { f with
            rowPtr := 0, imageRows := 0,
            program := if e.kind = .stop then .ended
              else .running s.rsq.stillStart 0 s.rsq.timeBase } } ∧ began t e ∧
        ∀ r, r ∈ t.catalog → r.shot = f.shot → r.stamp.isSome = true) ∧
    (∀ e : Entry, s.rsq.frame = some f → s.rsq.state = .view → f.kind = .view →
      f.program = .exposing →
      reached (f.exposureStart + BitVec.ofNat 32 f.exposure) s.rsq.timeBase = true →
      s.rsq.program[s.rsq.viewStart]? = some e →
      ∃ t, exec .exposureEnd s = .next t ∧ t.catalog = s.catalog ∧
        (e.kind ≠ .stop → began t e ∧ t.rsq = { s.rsq with
          frame := some { f with
            rowPtr := 0, imageRows := 0,
            program := .running s.rsq.viewStart 0 s.rsq.timeBase } }) ∧
        (e.kind = .stop → t.rsq.frame = none ∧
          t.rsq.state = if s.pwc.power = .saving then .off else .idle)) ∧
    (s.pwc.power = .active → s.rsq.state = .idle → s.rsq.burst.active = false →
      s.rsq.settings.view = true →
      (∀ u, s.rsq.lastView = some u →
        (if s.rsq.settings.rate = 60 then 16667 else 33333) ≤ (s.rsq.timeBase - u).toNat) →
      let x := s.rsq.settings.viewExposure
      ∃ t, exec .viewFrameStart s = .next t ∧
        t.rsq = { s.rsq with
          state := .view, lastView := some s.rsq.timeBase,
          frame := some ⟨.view, 0, s.rsq.timeBase, s.rsq.timeBase, s.rsq.timeBase, x,
            s.rsq.timeBase + BitVec.ofNat 32 (x / 2), s.rsq.settings.rate, .exposing, 0, 0⟩,
          viewOut := { s.rsq.viewOut with syncs := s.rsq.viewOut.syncs + 1, rows := 0 } } ∧
        t.fdr.markerShot = ⟨s.fdr.marker, s.fdr.area, s.fdr.state⟩ ∧
        t.catalog = s.catalog ∧ t.phc = s.phc ∧ t.med = s.med)

/-- ENTRY_END, PD_PAIR and IMAGE_ROW in a running entry (R30, R47, R48, R50, R55, R57, R66), and
READOUT_END once everything has been written (R13, R44): the record is HELD with its raw PRESENT, its
checksum stored and the raw copies of the slot mode PENDING (or WRITING where a slot starts at once),
and the burst goes on with its next due time or ends. That an entry takes all its rows or pairs whenever
they come is log entry 33, and the counted view rows log entry 27. -/
def Obligations.ReadoutEvents : Prop :=
  ∀ (s : State) (f : Frame) (i lines : Nat) (since : Time) (e : Entry), s.rsq.frame = some f →
    (f.program = .running i lines since → s.rsq.program[i]? = some e →
      s.entryOver e lines since = true →
      ∃ t, exec .entryEnd s = .next t ∧
        (∀ e' : Entry, s.rsq.program[i + 1]? = some e' → e'.kind ≠ .stop →
          t.rsq.frame = some { f with
            program := .running (i + 1) 0 s.rsq.timeBase,
            rowPtr := if e.kind = .skip then f.rowPtr + e.count else f.rowPtr }) ∧
        (∀ e' : Entry, s.rsq.program[i + 1]? = some e' → e'.kind = .pd →
          t.phc.snapshot =
            some ⟨s.phc.setup, s.fdr.area, spanStart s.phc.setup s.fdr.area⟩ ∧
          t.phc.pairPtr = 37 * (s.fdr.area / 15) + 14 ∧ t.phc.store = [] ∧ t.phc.pairs = 0) ∧
        (∀ e' : Entry, s.rsq.program[i + 1]? = some e' → e'.kind = .stop → f.kind = .still →
          t.rsq.frame = some { f with
            program := .ended,
            rowPtr := if e.kind = .skip then f.rowPtr + e.count else f.rowPtr }) ∧
        (∀ e' : Entry, s.rsq.program[i + 1]? = some e' → e'.kind = .stop → f.kind = .view →
          s.pwc.power ≠ .saving → t.rsq.frame = none ∧ t.rsq.state = .idle) ∧
        (∀ snap, e.kind = .pd → s.phc.snapshot = some snap →
          t.phc.number = (if 65535 ≤ s.phc.number then 1 else s.phc.number + 1) ∧
          t.phc.record = some (measure snap s.phc.store s.phc.pairs s.rsq.timeBase f.kind
            (if f.kind = .still then some f.shot else none)) ∧
          t.phc.curve = keptCurve snap s.phc.store s.phc.pairs) ∧
        (e.kind ≠ .pd → t.phc.number = s.phc.number ∧ t.phc.record = s.phc.record ∧
          t.phc.curve = s.phc.curve)) ∧
    (∀ (left right : List Sample) (snap : PdSnapshot), f.program = .running i lines since →
      s.rsq.program[i]? = some e → e.kind = .pd → lines < e.count →
      s.phc.snapshot = some snap →
      exec (.pdPair left right) s = .next { s with
        rsq := { s.rsq with frame := some { f with program := .running i (lines + 1) since } },
        phc := { s.phc with
          pairPtr := s.phc.pairPtr + 1,
          pairs := s.phc.pairs + 1,
          store := if s.phc.pairs < snap.setup.n then
              s.phc.store ++ [(spanSamples snap.setup snap.spanStart left,
                spanSamples snap.setup snap.spanStart right)]
            else s.phc.store } }) ∧
    (f.program = .running i lines since → s.rsq.program[i]? = some e → e.kind = .image →
      lines < e.count →
      let g := { f with
        program := .running i (lines + 1) since, rowPtr := f.rowPtr + 1,
        imageRows := f.imageRows + 1 }
      (∀ samples : List Sample, f.kind = .still → s.rsq.fifo.length < 64 →
        ∃ t, exec (.imageRow (.still samples)) s = .next t ∧
          t.rsq = { s.rsq with
            frame := some g, fifo := s.rsq.fifo ++ [⟨f.rowPtr, samples⟩] } ∧ t.phc = s.phc ∧
          t.med = s.med ∧ t.prt = s.prt) ∧
      (∀ samples : List Sample, f.kind = .still → 64 ≤ s.rsq.fifo.length →
        ∃ t, exec (.imageRow (.still samples)) s = .next t ∧
          t.rsq = { s.rsq with frame := some g, owed := s.rsq.owed ++ [f.rowPtr] } ∧
          ∀ r, r ∈ t.catalog → r.shot = f.shot → ∃ q, q ∈ s.catalog ∧ q.shot = f.shot ∧
            r.flags = { q.flags with damaged := true, lostRows := q.flags.lostRows + 1 }) ∧
      (∀ pixels : List Rgb, f.kind = .view →
        exec (.imageRow (.view pixels)) s = .next { s with rsq := { s.rsq with
          frame := some g,
          viewOut := { s.rsq.viewOut with
            rows := s.rsq.viewOut.rows + 1,
            last := markedRow s.fdr.markerShot (programTotals s.rsq.program
              s.rsq.viewStart).image f.imageRows 0 pixels } } })) ∧
    (∀ r : Record, s.rsq.state = .readout → f.program = .ended → s.rsq.fifo = [] →
      s.rsq.owed = [] → s.findRecord f.shot = some r →
      let b := s.rsq.burst
      let ended : Prop := s.pwc.power = .saving ∨ (if b.count = 0 then 255 else b.count) ≤ b.started ∨
        b.stopMark = true
      let asked := f.start + BitVec.ofNat 32 (b.interval * 1000)
      let required : Slot → Prop := fun x => match s.med.mode, x with
        | .mirror, _ => True
        | .split, .a => True
        | .split, .b => False
        | .overflow, .a => (s.slot .a).state ≠ .full
        | .overflow, .b => (s.slot .a).state = .full
        | .singleA, .a => True
        | .singleA, .b => False
      ∃ t, exec .readoutEnd s = .next t ∧ t.rsq.frame = none ∧
        t.rsq.burst.completed = b.completed + 1 ∧
        t.rsq.state = (if s.pwc.power = .saving then .off else .idle) ∧
        (ended → t.rsq.burst.active = false) ∧
        (¬ ended → t.rsq.burst = { b with
          completed := b.completed + 1,
          due := if (s.rsq.timeBase - asked).toNat < 2 ^ 31 then s.rsq.timeBase else asked }) ∧
        ∀ q, q ∈ t.catalog → q.shot = f.shot → q.life = .held ∧ q.raw.state = .present ∧
          q.raw.checksum = some s.rsq.rawSum ∧
          (CatalogOk s → q.raw.extents = r.raw.extents) ∧
          ∀ x, required x → (q.copies.get x .raw).attempts = 0 ∧
            (q.copies.get x .raw).placement = none ∧ (q.copies.get x .raw).unverified = false ∧
            (q.copies.get x .raw).version = none ∧
            ((q.copies.get x .raw).state = .pending ∨ (q.copies.get x .raw).state = .writing))

/-! ### Transfers, development rows and card bursts -/

/-- DRAM_TRANSFER_DONE inside the buffer (R8) ends the transfer in progress and stores or takes its
bytes for the requester (R44, R48, R49, R101, R127, R158); data no longer wanted are discarded (log entry
5). That a card is busy from the last transfer of its burst, the pad then added, is log entry 16, and
that a READ goes on gathering until its frame is formed is log entry 17. -/
def Obligations.TransfersComplete : Prop :=
  ∀ (s : State) (x : Transfer), s.arb.current = some x →
    x.addr + x.length ≤ Config.bufferBytes →
    (x.live = false → exec .dramTransferDone s =
      .next ({ s with arb := { s.arb with current := none } } : State).settle) ∧
    (∀ samples : List Sample, x.live = true → x.requester = .rsq → s.rowSource = some samples →
      ∃ t, exec .dramTransferDone s = .next t ∧
        t.dram = Memory.writeBytes s.dram x.addr
          (((packRow samples).drop s.rsq.rowBytes).take x.length) ∧
        (s.rsq.rowBytes + x.length < 10584 →
          t.rsq = { s.rsq with rowBytes := s.rsq.rowBytes + x.length }) ∧
        (10584 ≤ s.rsq.rowBytes + x.length → t.rsq.rowsWritten = s.rsq.rowsWritten + 1 ∧
          t.rsq.rowBytes = 0 ∧ t.rsq.rawSum = s.rsq.rawSum + sampleSum samples ∧
          (s.rsq.owed.head? = some s.rsq.rowsWritten →
            t.rsq.owed = s.rsq.owed.drop 1 ∧ t.rsq.fifo = s.rsq.fifo) ∧
          (s.rsq.owed.head? ≠ some s.rsq.rowsWritten →
            t.rsq.owed = s.rsq.owed ∧ t.rsq.fifo = s.rsq.fifo.drop 1))) ∧
    (∀ (y : Slot) (g : Flight) (r : Record), x.live = true → x.requester = .med y →
      (s.slot y).flight = some g → s.findRecord g.shot = some r →
      let sectors := burstLength g.planned g.sectorsDone
      let burst := g.burst ++ Memory.readBytes s.dram x.addr x.length
      let need := burstData (r.partBytes g.part g.version) g.sectorsDone sectors
      ∃ t, exec .dramTransferDone s = .next t ∧ t.dram = s.dram ∧ t.rsq = s.rsq ∧
        t.slot y = { s.slot y with flight := some (if burst.length < need then
            { g with burst := burst }
          else { g with
            burst := burst ++ List.replicate (sectors * 512 - burst.length) 0,
            phase := .cardBusy s.rsq.timeBase }) }) ∧
    (∀ (p : Port) (o : Outstanding) (g : Gather), x.live = true → x.requester = .prt p →
      (s.port p).request = some o → o.stage = .gathering g →
      ∃ t, exec .dramTransferDone s = .next t ∧ t.dram = s.dram ∧ t.rsq = s.rsq ∧ t.med = s.med ∧
        (t.port p).request = some { o with stage := .gathering { g with
          got := g.got ++ Memory.readBytes s.dram x.addr x.length } }) ∧
    (∀ j : Job, x.live = true → x.requester = .devWrite → s.runningJob = some j →
      ∃ t, exec .dramTransferDone s = .next t ∧
        t.dram = Memory.writeBytes s.dram x.addr
          ((s.dev.row.bytes.drop s.dev.row.written).take x.length) ∧
        t.dev.row = { s.dev.row with written := s.dev.row.written + x.length } ∧
        t.rsq = s.rsq ∧ t.med = s.med) ∧
    (∀ (j : Job) (rec : Recipe) (r : Record), x.live = true → x.requester = .devRead →
      s.runningJob = some j → j.snapshot = some rec →
      s.findRecord j.shot = some r →
      let read := s.dev.row.read + x.length
      let made := developRow rec s.dev.row.tone
        (rawRowsFor s.dram r.raw.extents rec.scale (j.rowsDone.getD 0))
      ∃ t, exec .dramTransferDone s = .next t ∧ t.dram = s.dram ∧ t.rsq = s.rsq ∧
        t.med = s.med ∧
        t.dev.row = (if read < rec.scale.sourceBytes then { s.dev.row with read := read }
          else { s.dev.row with read := read, bytes := made.1, saturation := made.2 }))

/-- DEV_ROW_DONE (R101 to R104), with a row read, made and written whole: before the last row the
job in its place counts the row and the next one begins, or the engine pauses while the watermark
signal is true; after the last row the version is CURRENT with its checksum, its conditions and the
first asking port as its collection port, a former CURRENT one is DRAINING (R19), the job leaves the
queue, and its result is the newest entry of the log. -/
def Obligations.DevelopmentRows : Prop :=
  ∀ (s : State) (j : Job) (rec : Recipe), s.runningJob = some j → j.snapshot = some rec →
    s.dev.engine = .running → s.dev.row.read = rec.scale.sourceBytes →
    s.dev.row.written = rec.scale.rowBytes →
    let sum := s.dev.row.checksum + byteSum s.dev.row.bytes
    let sat := addSaturation j.saturation s.dev.row.saturation
    let counted := changeJob s.dev.queue j fun k =>
      { k with rowsDone := some (j.rowsDone.getD 0 + 1), saturation := sat }
    (j.rowsDone.getD 0 + 1 < rec.scale.rows → s.watermarkSignal = false →
      ∃ t, exec .devRowDone s = .next t ∧ t.dev.engine = .running ∧
        t.dev.row = ⟨s.toneTable rec.tone, 0, [], 0, 0, sum⟩ ∧ t.rsq = s.rsq ∧ t.med = s.med ∧
        t.dev.queue = counted) ∧
    (j.rowsDone.getD 0 + 1 < rec.scale.rows → s.watermarkSignal = true →
      ∃ t, exec .devRowDone s = .next t ∧ t.dev.engine = .paused ∧ t.rsq = s.rsq ∧
        t.med = s.med ∧ t.dev.queue = counted) ∧
    (rec.scale.rows ≤ j.rowsDone.getD 0 + 1 →
      ∃ t, exec .devRowDone s = .next t ∧
        t.dev.log = logResult s.dev.log
          { number := j.number, shot := j.shot, recipe := j.recipe,
            made := some ⟨j.version, rec.scale.bytes, sum⟩, saturation := sat,
            conditions := j.conditions, aborted := none } ∧ t.phc = s.phc ∧
        (∀ q v, q ∈ t.catalog → q.shot = j.shot → v ∈ q.versions → v.state ≠ .building →
          (v.number = j.version → v.state = .current ∧ v.checksum = some sum ∧
            v.conditions = j.conditions ∧ v.collector = j.asking.head?) ∧
          (v.number ≠ j.version → v.state = .draining)) ∧
        (∀ r v, CatalogOk s → s.findRecord j.shot = some r → r.life = .held → v ∈ r.versions →
          v.number = j.version → j.asking ≠ [] →
          ∃ q w, q ∈ t.catalog ∧ q.shot = j.shot ∧ w ∈ q.versions ∧ w.number = j.version ∧
            w.state = .current) ∧
        ((s.dev.queue.filter fun k => k.state == .running).length ≤ 1 →
          ∀ k, k ∈ t.dev.queue → k.state = .running → k.rowsDone = some 0))

/-- CARD_BUSY_END (R127, R128), CARD_TIMEOUT (R130) and VERIFY_BURST_DONE (R128, R129) for the copy in
flight on a slot, in SAVING too (R137, R168). Where the wait for a read-back burst begins is log entry
16, that the bursts read back are those written log entry 28, that a burst received had begun
in time log entry 52, that a slot is READY after a copy in
SAVING log entry 42, and that a fault of a DELETING shot's copy is marked failed at its second attempt
log entry 15. -/
def Obligations.CardBursts : Prop :=
  ∀ (s : State) (x : Slot) (f : Flight) (r : Record) (since : Time), (s.slot x).flight = some f →
    s.findRecord f.shot = some r →
    let sectors := burstLength f.planned f.sectorsDone
    let waited := (s.rsq.timeBase - since).toNat
    let range := if f.timeout = .short then 250000 else 2000000
    let fault := fun (why : FaultReason) => FaultEntry.mk f.shot f.part why f.planned
      ((r.copies.get x f.part).attempts + 1) (decide (1 ≤ (r.copies.get x f.part).attempts))
    let saved := fun t : State => s.pwc.power = .saving → s.pwc.done = false →
      t.pwc.done = (t.rsq.state == .off && (t.slot .a).flight.isNone && (t.slot .b).flight.isNone)
    let written := fun (t : State) (unverified : Bool) => CatalogOk s →
      ∀ q, q ∈ t.catalog → q.shot = f.shot → (q.copies.get x f.part).state = .written ∧
        (q.copies.get x f.part).placement = some f.planned ∧
        (q.copies.get x f.part).unverified = unverified
    (f.phase = .cardBusy since → waited < range → f.sectorsDone + sectors < totalSectors f.planned →
      ∃ t, exec (.cardBusyEnd x) s = .next t ∧ t.slot x = { s.slot x with flight := some { f with
        phase := .filling, sectorsDone := f.sectorsDone + sectors, burst := [] } }) ∧
    (f.phase = .cardBusy since → waited < range → totalSectors f.planned ≤ f.sectorsDone + sectors →
      f.verify = true → s.pwc.power ≠ .saving →
      ∃ t, exec (.cardBusyEnd x) s = .next t ∧
        t.slot x = { s.slot x with flight := some { f with
          phase := .verifying s.rsq.timeBase, sectorsDone := 0, burst := [], check := .zero } } ∧
        ∀ q, q ∈ t.catalog → q.shot = f.shot → (q.copies.get x f.part).state = .verifying ∧
          (q.copies.get x f.part).placement = some f.planned) ∧
    (f.phase = .cardBusy since → waited < range → totalSectors f.planned ≤ f.sectorsDone + sectors →
      (f.verify = false ∨ s.pwc.power = .saving) →
      ∃ t, exec (.cardBusyEnd x) s = .next t ∧
        (s.pwc.power = .saving → (t.slot x).state = .ready ∧ (t.slot x).flight = none) ∧
        (t.slot x).faults = (s.slot x).faults ∧ written t true ∧ saved t) ∧
    ((f.phase = .cardBusy since ∨ f.phase = .verifying since) → range ≤ waited →
      ∃ t, exec (.cardTimeout x) s = .next t ∧
        t.slot x = { s.slot x with
          state := .fault, flight := none, faults := logFault (s.slot x).faults (fault .timeout) } ∧
        saved t ∧ (CatalogOk s → r.life ≠ .deleting → ∀ q, q ∈ t.catalog → q.shot = f.shot →
          (q.copies.get x f.part).attempts = (r.copies.get x f.part).attempts + 1 ∧
          (q.copies.get x f.part).state =
            (if 1 ≤ (r.copies.get x f.part).attempts then .failed else .pending))) ∧
    (∀ data : List Byte, f.phase = .verifying since → data.length = sectors * 512 →
      let check := CheckSum.add f.part f.check (data.take
        (burstData (r.partBytes f.part f.version) f.sectorsDone sectors))
      (f.sectorsDone + sectors < totalSectors f.planned →
        exec (.verifyBurstDone x data) s = .next (s.setSlot x { s.slot x with
          flight := some { f with
            phase := .verifying s.rsq.timeBase, sectorsDone := f.sectorsDone + sectors,
            check := check } })) ∧
      (totalSectors f.planned ≤ f.sectorsDone + sectors → s.expectedSum f = some check.sum →
        ∃ t, exec (.verifyBurstDone x data) s = .next t ∧
          (t.slot x).faults = (s.slot x).faults ∧ written t false ∧ saved t ∧
          (s.pwc.power = .saving → (t.slot x).state = .ready ∧ (t.slot x).flight = none)) ∧
      (totalSectors f.planned ≤ f.sectorsDone + sectors → s.expectedSum f ≠ some check.sum →
        ∃ t, exec (.verifyBurstDone x data) s = .next t ∧
          (t.slot x).faults = logFault (s.slot x).faults (fault .verify) ∧ saved t ∧
          (s.pwc.power = .saving → (t.slot x).state = .ready ∧ (t.slot x).flight = none)))
end

