-- ==== Sys2Proof/Laws/Blocks.lean ====
section
/-! SUPPORT. What allocation and free do to the blocks of a free-run list: the count of runs that hold
a block, and the form of the list. -/
set_option Elab.async false
namespace Sys2Proof.Machine

theorem covered_nil (n : Nat) : covered n [] = 0 := rfl

theorem covered_cons (n : Nat) (r : Run) (rs : List Run) :
    covered n (r :: rs) = covered n rs + if r.first ≤ n ∧ n < r.first + r.count then 1 else 0 := by
  simp [covered, List.countP_cons]

theorem covered_append (n : Nat) (rs es : List Run) :
    covered n (rs ++ es) = covered n rs + covered n es := by
  simp [covered]

theorem covered_one (n : Nat) (r : Run) :
    covered n [r] = if r.first ≤ n ∧ n < r.first + r.count then 1 else 0 := by
  rw [covered_cons, covered_nil, Nat.zero_add]

/-- A run of at least one block holds its first and its last. -/
theorem covered_pos_of_mem {rs : List Run} {r : Run} {n : Nat} (h : r ∈ rs) (h1 : r.first ≤ n)
    (h2 : n < r.first + r.count) : 0 < covered n rs := by
  rw [covered, List.countP_pos_iff]
  exact ⟨r, h, by simp [h1, h2]⟩

theorem runsWf_cons {low : Nat} {r : Run} {rest : List Run} :
    runsWf low (r :: rest) = true ↔
      low ≤ r.first ∧ 0 < r.count ∧ r.first + r.count ≤ Config.blockCount ∧
        runsWf (r.first + r.count + 1) rest = true := by
  simp [runsWf, and_assoc]

theorem runsWf_mono {low low' : Nat} {rs : List Run} (h : low' ≤ low) (hw : runsWf low rs = true) :
    runsWf low' rs = true := by
  cases rs with
  | nil => rfl
  | cons r rest =>
    rw [runsWf_cons] at hw ⊢
    exact ⟨Nat.le_trans h hw.1, hw.2⟩

theorem runsWf_count {low : Nat} {rs : List Run} (hw : runsWf low rs = true) :
    ∀ r, r ∈ rs → 0 < r.count := by
  induction rs generalizing low with
  | nil => intro r h; cases h
  | cons q rest ih =>
    rw [runsWf_cons] at hw
    intro r h
    cases h with
    | head => exact hw.2.1
    | tail _ h => exact ih hw.2.2.2 r h

/-! ### Allocation -/

theorem largestRun_mem {rs : List Run} {r : Run} (h : largestRun rs = some r) : r ∈ rs := by
  induction rs generalizing r with
  | nil => simp [largestRun] at h
  | cons q rest ih =>
    simp only [largestRun] at h
    split at h
    · cases h; exact List.mem_cons_self
    · rename_i x hx
      split at h <;> cases h
      · exact List.mem_cons_of_mem _ (ih hx)
      · exact List.mem_cons_self

theorem covered_takeFrom (m n : Nat) (rs : List Run) (r : Run) (h : r ∈ rs) (hn : n ≤ r.count) :
    covered m rs = covered m [⟨r.first, n⟩] + covered m (takeFrom rs r n) := by
  induction rs with
  | nil => cases h
  | cons q rest ih =>
    by_cases hq : q = r
    · subst hq
      by_cases hl : n < q.count
      · simp only [takeFrom, if_pos hl, if_true, covered_cons, covered_nil]
        split <;> split <;> split <;> omega
      · have : n = q.count := by omega
        subst this
        simp only [takeFrom, if_neg hl, if_true, covered_cons, covered_nil]
        omega
    · have hr : r ∈ rest := by
        cases h with
        | head => exact absurd rfl hq
        | tail _ h => exact h
      simp only [takeFrom, if_neg hq, covered_cons, ih hr]
      omega

theorem runsWf_takeFrom (low n : Nat) (rs : List Run) (r : Run) (hw : runsWf low rs = true)
    (h0 : 0 < n) : runsWf low (takeFrom rs r n) = true := by
  induction rs generalizing low with
  | nil => rfl
  | cons q rest ih =>
    have hw' := runsWf_cons.1 hw
    by_cases hq : q = r
    · subst hq
      by_cases hl : n < q.count
      · simp only [takeFrom, if_pos hl, if_true]
        rw [runsWf_cons]
        refine ⟨?_, ?_, ?_, runsWf_mono ?_ hw'.2.2.2⟩ <;> simp only [] <;> omega
      · simp only [takeFrom, if_neg hl, if_true]
        exact runsWf_mono (by omega) hw'.2.2.2
    · simp only [takeFrom, if_neg hq]
      rw [runsWf_cons]
      exact ⟨hw'.1, hw'.2.1, hw'.2.2.1, ih _ hw'.2.2.2⟩

theorem takeRuns_length {k need : Nat} {rs es left : List Run}
    (h : takeRuns k need rs = some (es, left)) : 1 ≤ es.length ∧ es.length ≤ k := by
  induction k generalizing need rs es left with
  | zero => simp [takeRuns] at h
  | succ k ih =>
    simp only [takeRuns] at h
    split at h
    · cases h
    · split at h
      · cases h; simp
      · split at h
        · cases h
        · rename_i he
          cases h
          have := ih he
          simp only [List.length_cons]
          omega

/-- What taking runs does: the blocks taken and those left are the blocks there were. -/
theorem takeRuns_spec {low k need : Nat} {rs es left : List Run} (hw : runsWf low rs = true)
    (h0 : 0 < need) (h : takeRuns k need rs = some (es, left)) :
    (∀ n, covered n rs = covered n es + covered n left) ∧ runsWf low left = true ∧
      ∀ e, e ∈ es → 0 < e.count := by
  induction k generalizing need rs es left with
  | zero => simp [takeRuns] at h
  | succ k ih =>
    simp only [takeRuns] at h
    split at h
    · cases h
    · rename_i r hr
      have hm := largestRun_mem hr
      have hc := runsWf_count hw r hm
      split at h
      · rename_i hn
        cases h
        refine ⟨fun n => covered_takeFrom n need rs r hm hn, runsWf_takeFrom _ _ _ _ hw h0, ?_⟩
        intro e he
        cases List.mem_singleton.1 he
        exact h0
      · split at h
        · cases h
        · rename_i hn es' left' he
          cases h
          have hi := ih (runsWf_takeFrom low r.count rs r hw hc) (by omega) he
          refine ⟨fun n => ?_, hi.2.1, ?_⟩
          · have h1 := covered_takeFrom n r.count rs r hm (Nat.le_refl _)
            have h2 := hi.1 n
            have h3 : covered n [(⟨r.first, r.count⟩ : Run)] = covered n [r] := rfl
            rw [h1, h2, h3, covered_one, covered_cons]
            omega
          · intro e hm'
            cases hm' with
            | head => exact hc
            | tail _ h => exact hi.2.2 e h

theorem allocate_length {need : Nat} {rs es left : List Run}
    (h : allocate need rs = .done es left) : 1 ≤ es.length ∧ es.length ≤ 6 := by
  simp only [allocate] at h
  split at h
  · cases h
  · split at h
    · rename_i hr
      cases h
      exact takeRuns_length hr
    · cases h

/-- What an allocation that succeeds does to the blocks (R4). -/
theorem allocate_spec {low need : Nat} {rs es left : List Run} (hw : runsWf low rs = true)
    (h0 : 0 < need) (h : allocate need rs = .done es left) :
    (∀ n, covered n rs = covered n es + covered n left) ∧ runsWf low left = true ∧
      ∀ e, e ∈ es → 0 < e.count := by
  simp only [allocate] at h
  split at h
  · cases h
  · split at h
    · rename_i hr
      cases h
      exact takeRuns_spec hw h0 hr
    · cases h

/-! ### Free -/

/-- A free adds exactly the blocks of the extent (R7). -/
theorem covered_insertRun (n : Nat) (rs : List Run) (e : Run) :
    covered n (insertRun rs e) = covered n rs + covered n [e] := by
  induction rs generalizing e with
  | nil => rw [insertRun, covered_nil]; omega
  | cons r rest ih =>
    rw [insertRun]
    split
    · simp only [covered_cons, covered_nil]; omega
    · split
      · simp only [covered_cons, covered_nil]
        split <;> split <;> split <;> omega
      · split
        · rw [ih]
          simp only [covered_cons, covered_nil]
          split <;> split <;> split <;> omega
        · simp only [covered_cons, ih, covered_nil]; omega

theorem covered_insertRuns (n : Nat) (rs es : List Run) :
    covered n (insertRuns rs es) = covered n rs + covered n es := by
  induction es generalizing rs with
  | nil => rw [insertRuns, covered_nil]; omega
  | cons e rest ih =>
    rw [insertRuns, ih, covered_insertRun, covered_one, covered_cons]; omega

theorem runsWf_insertRun {low low' : Nat} {rs : List Run} {e : Run} (hw : runsWf low' rs = true)
    (hl : low ≤ low') (he : low ≤ e.first) (h0 : 0 < e.count)
    (hb : e.first + e.count ≤ Config.blockCount)
    (hd : ∀ n, e.first ≤ n → n < e.first + e.count → covered n rs = 0) :
    runsWf low (insertRun rs e) = true := by
  induction rs generalizing low low' e with
  | nil => rw [insertRun, runsWf_cons]; exact ⟨he, h0, hb, rfl⟩
  | cons r rest ih =>
    have hw' := runsWf_cons.1 hw
    have hrest : ∀ n, e.first ≤ n → n < e.first + e.count → covered n rest = 0 := fun n h1 h2 => by
      have := hd n h1 h2
      rw [covered_cons] at this
      omega
    have hr : ∀ n, e.first ≤ n → n < e.first + e.count → ¬ (r.first ≤ n ∧ n < r.first + r.count) :=
      fun n h1 h2 h3 => by
        have := hd n h1 h2
        rw [covered_cons, if_pos h3] at this
        omega
    rw [insertRun]
    split
    · rw [runsWf_cons, runsWf_cons]
      exact ⟨he, h0, hb, by omega, hw'.2.1, hw'.2.2.1, hw'.2.2.2⟩
    · split
      · rw [runsWf_cons]
        refine ⟨he, ?_, ?_, runsWf_mono ?_ hw'.2.2.2⟩ <;> simp only [] <;> omega
      · split
        · refine ih hw'.2.2.2 (e := ⟨r.first, r.count + e.count⟩) ?_ ?_ ?_ ?_ ?_
          · omega
          · show low ≤ r.first; omega
          · show 0 < r.count + e.count; omega
          · show r.first + (r.count + e.count) ≤ _; omega
          · intro n h1 h2
            simp only [] at h1 h2
            by_cases h3 : e.first ≤ n
            · exact hrest n h3 (by omega)
            · have : ∀ q, q ∈ rest → ¬ (q.first ≤ n ∧ n < q.first + q.count) := by
                intro q hq hc
                have hlow : ∀ (l : Nat) (rs : List Run), runsWf l rs = true → ∀ q, q ∈ rs →
                    l ≤ q.first := by
                  intro l rs
                  induction rs generalizing l with
                  | nil => intro _ q h; cases h
                  | cons x xs ihx =>
                    intro hx q h
                    have hx' := runsWf_cons.1 hx
                    cases h with
                    | head => exact hx'.1
                    | tail _ h => have := ihx _ hx'.2.2.2 q h; omega
                have := hlow _ _ hw'.2.2.2 q hq
                omega
              rw [covered, List.countP_eq_zero]
              intro q hq
              have := this q hq
              simp only [Bool.and_eq_true, decide_eq_true_eq]
              exact this
        · have hgap : r.first + r.count < e.first := by
            rename_i h1 h2 h3
            apply Decidable.byContradiction
            intro hn
            have ha := hr (max r.first e.first) (by omega) (by omega)
            exact ha ⟨by omega, by omega⟩
          rw [runsWf_cons]
          exact ⟨by omega, hw'.2.1, hw'.2.2.1,
            ih hw'.2.2.2 (Nat.le_refl _) (by omega) h0 hb hrest⟩

/-- A free keeps the form of the list where no block is in two places (R2, R7). -/
theorem runsWf_insertRuns {rs es : List Run} (hw : runsWf 0 rs = true)
    (h0 : ∀ e, e ∈ es → 0 < e.count)
    (h1 : ∀ n, covered n rs + covered n es ≤ if n < Config.blockCount then 1 else 0) :
    runsWf 0 (insertRuns rs es) = true := by
  induction es generalizing rs with
  | nil => exact hw
  | cons e rest ih =>
    rw [insertRuns]
    have hc := h0 e List.mem_cons_self
    refine ih (runsWf_insertRun hw (Nat.le_refl _) (Nat.zero_le _) hc ?_ ?_)
      (fun x hx => h0 x (List.mem_cons_of_mem _ hx)) ?_
    · have := h1 (e.first + e.count - 1)
      rw [covered_cons, if_pos (by omega)] at this
      split at this <;> omega
    · intro n h2 h3
      have := h1 n
      rw [covered_cons, if_pos ⟨h2, h3⟩] at this
      split at this <;> omega
    · intro n
      have := h1 n
      rw [covered_cons] at this
      rw [covered_insertRun, covered_one]
      omega

end Sys2Proof.Machine
end

