-- ==== Sys2Proof/Laws/State.lean ====
section
/-! SUPPORT. Reading a state after one of its named updates: one small lemma per field and update. -/
set_option Elab.async false
namespace Sys2Proof.Machine.State

@[simp] theorem setPort_catalog (s : State) (p : Port) (q : PortSt) : (s.setPort p q).catalog = s.catalog := by cases p <;> rfl
@[simp] theorem setPort_nextShot (s : State) (p : Port) (q : PortSt) : (s.setPort p q).nextShot = s.nextShot := by cases p <;> rfl
@[simp] theorem setPort_freeRuns (s : State) (p : Port) (q : PortSt) : (s.setPort p q).freeRuns = s.freeRuns := by cases p <;> rfl
@[simp] theorem setPort_dram (s : State) (p : Port) (q : PortSt) : (s.setPort p q).dram = s.dram := by cases p <;> rfl
@[simp] theorem setPort_arb (s : State) (p : Port) (q : PortSt) : (s.setPort p q).arb = s.arb := by cases p <;> rfl
@[simp] theorem setPort_rsq (s : State) (p : Port) (q : PortSt) : (s.setPort p q).rsq = s.rsq := by cases p <;> rfl
@[simp] theorem setPort_phc (s : State) (p : Port) (q : PortSt) : (s.setPort p q).phc = s.phc := by cases p <;> rfl
@[simp] theorem setPort_fdr (s : State) (p : Port) (q : PortSt) : (s.setPort p q).fdr = s.fdr := by cases p <;> rfl
@[simp] theorem setPort_lnk (s : State) (p : Port) (q : PortSt) : (s.setPort p q).lnk = s.lnk := by cases p <;> rfl
@[simp] theorem setPort_dev (s : State) (p : Port) (q : PortSt) : (s.setPort p q).dev = s.dev := by cases p <;> rfl
@[simp] theorem setPort_med (s : State) (p : Port) (q : PortSt) : (s.setPort p q).med = s.med := by cases p <;> rfl
@[simp] theorem setPort_snq (s : State) (p : Port) (q : PortSt) : (s.setPort p q).snq = s.snq := by cases p <;> rfl
@[simp] theorem setPort_pwc (s : State) (p : Port) (q : PortSt) : (s.setPort p q).pwc = s.pwc := by cases p <;> rfl
@[simp] theorem setPort_pins (s : State) (p : Port) (q : PortSt) : (s.setPort p q).pins = s.pins := by cases p <;> rfl
@[simp] theorem setPort_freeCount (s : State) (p : Port) (q : PortSt) : (s.setPort p q).freeCount = s.freeCount := by cases p <;> rfl
@[simp] theorem setPort_pending (s : State) (p : Port) (q : PortSt) : (s.setPort p q).pending = s.pending := by cases p <;> rfl
@[simp] theorem setSlot_catalog (s : State) (x : Slot) (q : SlotSt) : (s.setSlot x q).catalog = s.catalog := by cases x <;> rfl
@[simp] theorem setSlot_nextShot (s : State) (x : Slot) (q : SlotSt) : (s.setSlot x q).nextShot = s.nextShot := by cases x <;> rfl
@[simp] theorem setSlot_freeRuns (s : State) (x : Slot) (q : SlotSt) : (s.setSlot x q).freeRuns = s.freeRuns := by cases x <;> rfl
@[simp] theorem setSlot_dram (s : State) (x : Slot) (q : SlotSt) : (s.setSlot x q).dram = s.dram := by cases x <;> rfl
@[simp] theorem setSlot_arb (s : State) (x : Slot) (q : SlotSt) : (s.setSlot x q).arb = s.arb := by cases x <;> rfl
@[simp] theorem setSlot_rsq (s : State) (x : Slot) (q : SlotSt) : (s.setSlot x q).rsq = s.rsq := by cases x <;> rfl
@[simp] theorem setSlot_phc (s : State) (x : Slot) (q : SlotSt) : (s.setSlot x q).phc = s.phc := by cases x <;> rfl
@[simp] theorem setSlot_fdr (s : State) (x : Slot) (q : SlotSt) : (s.setSlot x q).fdr = s.fdr := by cases x <;> rfl
@[simp] theorem setSlot_lnk (s : State) (x : Slot) (q : SlotSt) : (s.setSlot x q).lnk = s.lnk := by cases x <;> rfl
@[simp] theorem setSlot_dev (s : State) (x : Slot) (q : SlotSt) : (s.setSlot x q).dev = s.dev := by cases x <;> rfl
@[simp] theorem setSlot_snq (s : State) (x : Slot) (q : SlotSt) : (s.setSlot x q).snq = s.snq := by cases x <;> rfl
@[simp] theorem setSlot_prt (s : State) (x : Slot) (q : SlotSt) : (s.setSlot x q).prt = s.prt := by cases x <;> rfl
@[simp] theorem setSlot_pwc (s : State) (x : Slot) (q : SlotSt) : (s.setSlot x q).pwc = s.pwc := by cases x <;> rfl
@[simp] theorem setSlot_pins (s : State) (x : Slot) (q : SlotSt) : (s.setSlot x q).pins = s.pins := by cases x <;> rfl
@[simp] theorem setSlot_freeCount (s : State) (x : Slot) (q : SlotSt) : (s.setSlot x q).freeCount = s.freeCount := by cases x <;> rfl
@[simp] theorem setSlot_pending (s : State) (x : Slot) (q : SlotSt) : (s.setSlot x q).pending = s.pending := by cases x <;> rfl
@[simp] theorem modRecord_nextShot (s : State) (n : Nat) (g : Record → Record) : (s.modRecord n g).nextShot = s.nextShot := rfl
@[simp] theorem modRecord_freeRuns (s : State) (n : Nat) (g : Record → Record) : (s.modRecord n g).freeRuns = s.freeRuns := rfl
@[simp] theorem modRecord_dram (s : State) (n : Nat) (g : Record → Record) : (s.modRecord n g).dram = s.dram := rfl
@[simp] theorem modRecord_arb (s : State) (n : Nat) (g : Record → Record) : (s.modRecord n g).arb = s.arb := rfl
@[simp] theorem modRecord_rsq (s : State) (n : Nat) (g : Record → Record) : (s.modRecord n g).rsq = s.rsq := rfl
@[simp] theorem modRecord_phc (s : State) (n : Nat) (g : Record → Record) : (s.modRecord n g).phc = s.phc := rfl
@[simp] theorem modRecord_fdr (s : State) (n : Nat) (g : Record → Record) : (s.modRecord n g).fdr = s.fdr := rfl
@[simp] theorem modRecord_lnk (s : State) (n : Nat) (g : Record → Record) : (s.modRecord n g).lnk = s.lnk := rfl
@[simp] theorem modRecord_dev (s : State) (n : Nat) (g : Record → Record) : (s.modRecord n g).dev = s.dev := rfl
@[simp] theorem modRecord_med (s : State) (n : Nat) (g : Record → Record) : (s.modRecord n g).med = s.med := rfl
@[simp] theorem modRecord_snq (s : State) (n : Nat) (g : Record → Record) : (s.modRecord n g).snq = s.snq := rfl
@[simp] theorem modRecord_prt (s : State) (n : Nat) (g : Record → Record) : (s.modRecord n g).prt = s.prt := rfl
@[simp] theorem modRecord_pwc (s : State) (n : Nat) (g : Record → Record) : (s.modRecord n g).pwc = s.pwc := rfl
@[simp] theorem modRecord_pins (s : State) (n : Nat) (g : Record → Record) : (s.modRecord n g).pins = s.pins := rfl
@[simp] theorem modRecord_freeCount (s : State) (n : Nat) (g : Record → Record) : (s.modRecord n g).freeCount = s.freeCount := rfl
@[simp] theorem modRecord_pending (s : State) (n : Nat) (g : Record → Record) : (s.modRecord n g).pending = s.pending := rfl
@[simp] theorem modJob_catalog (s : State) (n : Job) (g : Job → Job) : (s.modJob n g).catalog = s.catalog := rfl
@[simp] theorem modJob_nextShot (s : State) (n : Job) (g : Job → Job) : (s.modJob n g).nextShot = s.nextShot := rfl
@[simp] theorem modJob_freeRuns (s : State) (n : Job) (g : Job → Job) : (s.modJob n g).freeRuns = s.freeRuns := rfl
@[simp] theorem modJob_dram (s : State) (n : Job) (g : Job → Job) : (s.modJob n g).dram = s.dram := rfl
@[simp] theorem modJob_arb (s : State) (n : Job) (g : Job → Job) : (s.modJob n g).arb = s.arb := rfl
@[simp] theorem modJob_rsq (s : State) (n : Job) (g : Job → Job) : (s.modJob n g).rsq = s.rsq := rfl
@[simp] theorem modJob_phc (s : State) (n : Job) (g : Job → Job) : (s.modJob n g).phc = s.phc := rfl
@[simp] theorem modJob_fdr (s : State) (n : Job) (g : Job → Job) : (s.modJob n g).fdr = s.fdr := rfl
@[simp] theorem modJob_lnk (s : State) (n : Job) (g : Job → Job) : (s.modJob n g).lnk = s.lnk := rfl
@[simp] theorem modJob_med (s : State) (n : Job) (g : Job → Job) : (s.modJob n g).med = s.med := rfl
@[simp] theorem modJob_snq (s : State) (n : Job) (g : Job → Job) : (s.modJob n g).snq = s.snq := rfl
@[simp] theorem modJob_prt (s : State) (n : Job) (g : Job → Job) : (s.modJob n g).prt = s.prt := rfl
@[simp] theorem modJob_pwc (s : State) (n : Job) (g : Job → Job) : (s.modJob n g).pwc = s.pwc := rfl
@[simp] theorem modJob_pins (s : State) (n : Job) (g : Job → Job) : (s.modJob n g).pins = s.pins := rfl
@[simp] theorem modJob_freeCount (s : State) (n : Job) (g : Job → Job) : (s.modJob n g).freeCount = s.freeCount := rfl
@[simp] theorem modJob_pending (s : State) (n : Job) (g : Job → Job) : (s.modJob n g).pending = s.pending := rfl

@[simp] theorem port_setPort_self (s : State) (p : Port) (q : PortSt) : (s.setPort p q).port p = q := by
  cases p <;> rfl

theorem port_setPort_other (s : State) (p r : Port) (q : PortSt) (h : r ≠ p) :
    (s.setPort p q).port r = s.port r := by
  cases p <;> cases r <;> first | rfl | exact absurd rfl h

@[simp] theorem slot_setSlot_self (s : State) (x : Slot) (q : SlotSt) : (s.setSlot x q).slot x = q := by
  cases x <;> rfl

theorem slot_setSlot_other (s : State) (x y : Slot) (q : SlotSt) (h : y ≠ x) :
    (s.setSlot x q).slot y = s.slot y := by
  cases x <;> cases y <;> first | rfl | exact absurd rfl h

@[simp] theorem setPort_port (s : State) (p : Port) : s.setPort p (s.port p) = s := by
  cases p <;> rfl

@[simp] theorem setSlot_slot (s : State) (x : Slot) : s.setSlot x (s.slot x) = s := by
  cases x <;> rfl

@[simp] theorem setPort_setPort (s : State) (p : Port) (q r : PortSt) :
    (s.setPort p q).setPort p r = s.setPort p r := by
  cases p <;> rfl

@[simp] theorem setPort_attached (s : State) (p : Port) (q : PortSt) :
    (s.setPort p q).prt.attached = s.prt.attached := by
  cases p <;> rfl

@[simp] theorem setPort_remoteDelete (s : State) (p : Port) (q : PortSt) :
    (s.setPort p q).prt.remoteDelete = s.prt.remoteDelete := by
  cases p <;> rfl

@[simp] theorem port_setSlot (s : State) (x : Slot) (q : SlotSt) (p : Port) :
    (s.setSlot x q).port p = s.port p := by
  cases x <;> cases p <;> rfl

@[simp] theorem slot_setPort (s : State) (p : Port) (q : PortSt) (x : Slot) :
    (s.setPort p q).slot x = s.slot x := by
  cases x <;> cases p <;> rfl

@[simp] theorem port_modRecord (s : State) (n : Nat) (g : Record → Record) (p : Port) :
    (s.modRecord n g).port p = s.port p := by
  cases p <;> rfl

@[simp] theorem changeJob_length (l : List Job) (j : Job) (g : Job → Job) :
    (changeJob l j g).length = l.length := by
  induction l with
  | nil => rfl
  | cons k rest ih => unfold changeJob; split <;> simp [ih]

/-- What a change of a job keeps of that job it keeps of the queue. -/
theorem changeJob_map {α : Type} (v : Job → α) (l : List Job) (j : Job) (g : Job → Job)
    (hg : v (g j) = v j) : (changeJob l j g).map v = l.map v := by
  induction l with
  | nil => rfl
  | cons k rest ih =>
    unfold changeJob
    split
    · rename_i h
      subst h
      simp [hg]
    · simp [ih]

@[simp] theorem port_modJob (s : State) (n : Job) (g : Job → Job) (p : Port) :
    (s.modJob n g).port p = s.port p := by
  cases p <;> rfl

end Sys2Proof.Machine.State
end

