-- ==== Sys2Proof/Laws/Books.lean ====
section
/-! SUPPORT. The laws of the records, queues and blocks under changes of the books: one lemma for each
kind of change (a record changed, added or removed; a queue, the jobs, the handles or the frame
changed). -/
set_option Elab.async false
namespace Sys2Proof.Machine

namespace Books

/-- Change the card of a shot. -/
def modCard (b : Books) (n : Nat) (g : Card → Card) : Books :=
  { b with cards := b.cards.map fun c => if c.shot = n then g c else c }

/-- Nothing refers to the shot: no entry, no job, no handle, no frame. -/
structure Unbound (b : Books) (n : Nat) : Prop where
  relay : ∀ e, e ∈ b.relay → e.shot ≠ n
  tether : ∀ e, e ∈ b.tether → e.shot ≠ n
  jobs : ∀ j, j ∈ b.jobs → j.shot ≠ n
  handles : ∀ h, h ∈ b.handles → h.shot ≠ n
  frame : b.frame ≠ some (.still, n)

end Books

/-! ### Records are found by their numbers -/

theorem pairwise_lt_inj {l : List Card} (h : (l.map Card.shot).Pairwise (fun a b => a < b))
    {c d : Card} (hc : c ∈ l) (hd : d ∈ l) (e : c.shot = d.shot) : c = d := by
  induction l with
  | nil => cases hc
  | cons x rest ih =>
    rw [List.map_cons, List.pairwise_cons] at h
    cases hc with
    | head =>
      cases hd with
      | head => rfl
      | tail _ hd => have := h.1 _ (List.mem_map_of_mem hd); omega
    | tail _ hc =>
      cases hd with
      | head => have := h.1 _ (List.mem_map_of_mem hc); omega
      | tail _ hd => exact ih h.2 hc hd

theorem Books.Ok.unique {b : Books} (h : b.Ok) {c d : Card} (hc : c ∈ b.cards) (hd : d ∈ b.cards)
    (e : c.shot = d.shot) : c = d :=
  pairwise_lt_inj h.catalog.2.1 hc hd e

/-- The list of cards around the one of a shot. -/
theorem Books.Ok.split {b : Books} (h : b.Ok) {c : Card} (hc : c ∈ b.cards) :
    ∃ l m, b.cards = l ++ c :: m ∧ (∀ x, x ∈ l → x.shot ≠ c.shot) ∧ ∀ x, x ∈ m → x.shot ≠ c.shot := by
  obtain ⟨l, m, e⟩ := List.append_of_mem hc
  refine ⟨l, m, e, fun x hx => ?_, fun x hx => ?_⟩
  · have hp := h.catalog.2.1
    rw [e, List.map_append, List.pairwise_append] at hp
    have := hp.2.2 _ (List.mem_map_of_mem hx) c.shot (by simp)
    omega
  · have hp := h.catalog.2.1
    rw [e, List.map_append, List.pairwise_append, List.map_cons, List.pairwise_cons] at hp
    have := hp.2.1.1 _ (List.mem_map_of_mem hx)
    omega

/-- A card whose shot nothing can hold on to: neither HELD nor EXPOSING. -/
theorem Books.Ok.unbound {b : Books} (h : b.Ok) {c : Card} (hc : c ∈ b.cards)
    (hh : c.life ≠ .held) (he : c.life ≠ .exposing) : b.Unbound c.shot where
  relay e hm hs := by
    obtain ⟨d, hd, hds, hf⟩ := h.relayFits e hm
    cases h.unique hc hd (by rw [hds, hs])
    exact hh hf.1
  tether e hm hs := by
    obtain ⟨d, hd, hds, hf⟩ := h.tetherFits e hm
    cases h.unique hc hd (by rw [hds, hs])
    exact hh hf.1
  jobs e hm hs := by
    obtain ⟨d, hd, hds, hf⟩ := h.jobFits e hm
    cases h.unique hc hd (by rw [hds, hs])
    exact hh hf.1
  handles e hm hs := by
    obtain ⟨d, hd, hds, hf⟩ := h.handleFits e hm
    cases h.unique hc hd (by rw [hds, hs])
    exact hh hf.1
  frame hf := by
    obtain ⟨d, hd, hds, hl⟩ := (h.frame _ _ hf).1 rfl
    cases h.unique hc hd hds.symm
    exact he hl

/-! ### A record changes -/

theorem map_if_shot (l : List Card) (n : Nat) (g : Card → Card)
    (hg : ∀ c, c ∈ l → c.shot = n → (g c).shot = n) :
    (l.map fun c => if c.shot = n then g c else c).map Card.shot = l.map Card.shot := by
  rw [List.map_map]
  refine List.map_congr_left fun c hc => ?_
  simp only [Function.comp]
  split
  · rename_i e
    rw [hg c hc e, e]
  · rfl

/-- A change of one record keeps the laws where the record keeps its own and all that refers to it
still fits. -/
theorem Books.Ok.modCard {b : Books} (h : b.Ok) (n : Nat) (g : Card → Card)
    (hok : ∀ c, c ∈ b.cards → c.shot = n → (g c).shot = n ∧ (g c).Ok)
    (htag : ∀ c, c ∈ b.cards → c.shot = n → (g c).send = true → c.send = true)
    (hrel : ∀ c, c ∈ b.cards → c.shot = n → ∀ e, e ∈ b.relay → e.shot = n → e.Fits c → e.Fits (g c))
    (htet : ∀ c, c ∈ b.cards → c.shot = n → ∀ e, e ∈ b.tether → e.shot = n → TetherFits c →
      TetherFits (g c))
    (hjob : ∀ c, c ∈ b.cards → c.shot = n → ∀ j, j ∈ b.jobs → j.shot = n → j.Fits c → j.Fits (g c))
    (hhan : ∀ c, c ∈ b.cards → c.shot = n → ∀ x, x ∈ b.handles → x.shot = n → x.Fits c →
      x.Fits (g c))
    (hfrm : ∀ c, c ∈ b.cards → c.shot = n → b.frame = some (.still, n) → c.life = .exposing →
      (g c).life = .exposing) : (b.modCard n g).Ok := by
  have mem : ∀ c, c ∈ b.cards → (if c.shot = n then g c else c) ∈ (b.modCard n g).cards :=
    fun c hc => List.mem_map_of_mem hc
  have shot : ∀ c, c ∈ b.cards → (if c.shot = n then g c else c).shot = c.shot := fun c hc => by
    split
    · rename_i e; rw [(hok c hc e).1, e]
    · rfl
  have carry : ∀ (P : Card → Prop) (k : Nat), (∃ c, c ∈ b.cards ∧ c.shot = k ∧ P c) →
      (∀ c, c ∈ b.cards → c.shot = n → k = n → P c → P (g c)) →
      ∃ c, c ∈ (b.modCard n g).cards ∧ c.shot = k ∧ P c := by
    intro P k ⟨c, hc, hs, hP⟩ hg
    refine ⟨_, mem c hc, (shot c hc).trans hs, ?_⟩
    split
    · rename_i e; exact hg c hc e (by rw [← hs, e]) hP
    · exact hP
  exact
    { h with
      catalog := by
        have : (b.modCard n g).cards.map Card.shot = b.cards.map Card.shot :=
          map_if_shot _ _ _ fun c hc e => (hok c hc e).1
        rw [this]
        exact h.catalog
      cards := by
        intro c hc
        obtain ⟨d, hd, rfl⟩ := List.mem_map.1 hc
        split
        · rename_i e; exact (hok d hd e).2
        · exact h.cards d hd
      relayFits := fun e he => carry _ _ (h.relayFits e he) fun c hc hs hk hP =>
        hrel c hc hs e he hk hP
      tagged := by
        intro c hc hs
        obtain ⟨d, hd, rfl⟩ := List.mem_map.1 hc
        have := h.tagged d hd (by
          by_cases e : d.shot = n
          · rw [if_pos e] at hs; exact htag d hd e hs
          · rw [if_neg e] at hs; exact hs)
        rw [shot d hd]
        exact this
      tetherFits := fun e he => carry _ _ (h.tetherFits e he) fun c hc hs hk hP =>
        htet c hc hs e he hk hP
      jobFits := fun e he => carry _ _ (h.jobFits e he) fun c hc hs hk hP =>
        hjob c hc hs e he hk hP
      handleFits := fun e he => carry _ _ (h.handleFits e he) fun c hc hs hk hP =>
        hhan c hc hs e he hk hP
      frame := fun k m hf => ⟨fun hk => carry (fun c => c.life = .exposing) _ ((h.frame k m hf).1 hk)
        fun c hc hs hm hP => hfrm c hc hs (by rw [← hm, ← hk]; exact hf) hP, (h.frame k m hf).2⟩ }

/-- The card keeps all that anything refers to. -/
structure Card.Le (c d : Card) : Prop where
  shot : d.shot = c.shot
  life : d.life = c.life
  raw : d.raw = c.raw
  send : d.send = c.send
  done : ∀ v, v ∈ c.versions → v.state ≠ .building →
    ∃ w, w ∈ d.versions ∧ w.number = v.number ∧ w.state ≠ .building
  building : ∀ v, v ∈ c.versions → v.state = .building →
    ∃ w, w ∈ d.versions ∧ w.number = v.number ∧ w.state = .building

theorem RelayEntry.Fits.le {e : RelayEntry} {c d : Card} (h : e.Fits c) (hl : c.Le d) : e.Fits d :=
  ⟨hl.life.trans h.1, hl.send.trans h.2.1, fun n hn => by
    obtain ⟨v, hv, hvn, hs⟩ := h.2.2 n hn
    obtain ⟨w, hw, hwn, hws⟩ := hl.done v hv hs
    exact ⟨w, hw, hwn.trans hvn, hws⟩⟩

theorem TetherFits.le {c d : Card} (h : TetherFits c) (hl : c.Le d) : TetherFits d :=
  ⟨hl.life.trans h.1, hl.raw.trans h.2⟩

theorem JobCard.Fits.le {j : JobCard} {c d : Card} (h : j.Fits c) (hl : c.Le d) : j.Fits d :=
  ⟨hl.life.trans h.1, hl.raw.trans h.2.1, fun hr => by
    obtain ⟨v, hv, hvn, hs⟩ := h.2.2 hr
    obtain ⟨w, hw, hwn, hws⟩ := hl.building v hv hs
    exact ⟨w, hw, hwn.trans hvn, hws⟩⟩

theorem Handle.Fits.le {x : Handle} {c d : Card} (h : x.Fits c) (hl : c.Le d) : x.Fits d := by
  obtain ⟨h1, h2⟩ := h
  refine ⟨hl.life.trans h1, ?_⟩
  split at h2
  · exact ⟨h2.1, hl.raw.trans h2.2⟩
  · obtain ⟨v, hv, hvn, hs⟩ := h2
    obtain ⟨w, hw, hwn, hws⟩ := hl.done v hv hs
    exact ⟨w, hw, by rw [hvn, hwn], hws⟩

/-- A change of one record that keeps all that anything refers to keeps the laws. -/
theorem Books.Ok.modCard_le {b : Books} (h : b.Ok) (n : Nat) (g : Card → Card)
    (hok : ∀ c, c ∈ b.cards → c.shot = n → c.Ok → (g c).Ok)
    (hle : ∀ c, c ∈ b.cards → c.shot = n → c.Le (g c)) : (b.modCard n g).Ok :=
  h.modCard n g
    (fun c hc hs => ⟨(hle c hc hs).shot.trans hs, hok c hc hs (h.cards c hc)⟩)
    (fun c hc hs ht => (hle c hc hs).send ▸ ht)
    (fun c hc hs _ _ _ hf => hf.le (hle c hc hs))
    (fun c hc hs _ _ _ hf => hf.le (hle c hc hs))
    (fun c hc hs _ _ _ hf => hf.le (hle c hc hs))
    (fun c hc hs _ _ _ hf => hf.le (hle c hc hs))
    (fun c hc hs _ he => (hle c hc hs).life.trans he)

/-- A change of a record that nothing refers to. -/
theorem Books.Ok.modCard_unbound {b : Books} (h : b.Ok) (n : Nat) (g : Card → Card)
    (hu : b.Unbound n) (hok : ∀ c, c ∈ b.cards → c.shot = n → (g c).shot = n ∧ (g c).Ok)
    (htag : ∀ c, c ∈ b.cards → c.shot = n → (g c).send = true → c.send = true) :
    (b.modCard n g).Ok :=
  h.modCard n g hok htag
    (fun _ _ _ e he hs => absurd hs (hu.relay e he))
    (fun _ _ _ e he hs => absurd hs (hu.tether e he))
    (fun _ _ _ e he hs => absurd hs (hu.jobs e he))
    (fun _ _ _ e he hs => absurd hs (hu.handles e he))
    (fun _ _ _ hf => absurd hf hu.frame)

/-! ### Records leave and come -/

/-- Records that nothing refers to leave the catalog. -/
theorem Books.Ok.sub {b : Books} (h : b.Ok) (l : List Card) (hl : l.Sublist b.cards)
    (hu : ∀ c, c ∈ b.cards → c ∈ l ∨ b.Unbound c.shot) : ({ b with cards := l } : Books).Ok := by
  have carry : ∀ (P : Card → Prop) (k : Nat), (∃ c, c ∈ b.cards ∧ c.shot = k ∧ P c) →
      ¬ b.Unbound k → ∃ c, c ∈ l ∧ c.shot = k ∧ P c := by
    intro P k ⟨c, hc, hs, hP⟩ hk
    rcases hu c hc with h1 | h1
    · exact ⟨c, h1, hs, hP⟩
    · exact absurd (hs ▸ h1) hk
  exact
    { h with
      catalog :=
        ⟨h.catalog.1, h.catalog.2.1.sublist (hl.map _), fun n hn =>
          h.catalog.2.2 n ((hl.map Card.shot).subset hn)⟩
      cards := fun c hc => h.cards c (hl.subset hc)
      relayFits := fun e he => carry _ _ (h.relayFits e he) fun hk => hk.relay e he rfl
      tagged := fun c hc => h.tagged c (hl.subset hc)
      tetherFits := fun e he => carry _ _ (h.tetherFits e he) fun hk => hk.tether e he rfl
      jobFits := fun e he => carry _ _ (h.jobFits e he) fun hk => hk.jobs e he rfl
      handleFits := fun e he => carry _ _ (h.handleFits e he) fun hk => hk.handles e he rfl
      frame := fun k m hf => ⟨fun hk => carry (fun c => c.life = .exposing) _ ((h.frame k m hf).1 hk)
        fun hx => hx.frame (by rw [← hk]; exact hf), (h.frame k m hf).2⟩ }

/-- A record comes with a number not issued before. -/
theorem Books.Ok.add {b : Books} (h : b.Ok) (c : Card) (next : Nat) (hc : c.Ok)
    (hs : c.send = false) (ho : ShotsOk ((b.cards ++ [c]).map Card.shot) next) :
    ({ b with cards := b.cards ++ [c], nextShot := next } : Books).Ok := by
  have carry : ∀ (P : Card → Prop) (k : Nat), (∃ c, c ∈ b.cards ∧ c.shot = k ∧ P c) →
      ∃ d, d ∈ b.cards ++ [c] ∧ d.shot = k ∧ P d :=
    fun P k ⟨d, hd, h1, h2⟩ => ⟨d, List.mem_append_left _ hd, h1, h2⟩
  exact
    { h with
      catalog := ho
      cards := fun d hd => by
        rcases List.mem_append.1 hd with h1 | h1
        · exact h.cards d h1
        · cases List.mem_singleton.1 h1; exact hc
      relayFits := fun e he => carry _ _ (h.relayFits e he)
      tagged := fun d hd ht => by
        rcases List.mem_append.1 hd with h1 | h1
        · exact h.tagged d h1 ht
        · cases List.mem_singleton.1 h1
          rw [hs] at ht
          cases ht
      tetherFits := fun e he => carry _ _ (h.tetherFits e he)
      jobFits := fun e he => carry _ _ (h.jobFits e he)
      handleFits := fun e he => carry _ _ (h.handleFits e he)
      frame := fun k m hf =>
        ⟨fun hk => carry (fun c => c.life = .exposing) _ ((h.frame k m hf).1 hk),
          (h.frame k m hf).2⟩ }

/-! ### The blocks -/

theorem covered_flatMap_append (n : Nat) (l m : List Card) :
    covered n ((l ++ m).flatMap Card.blocks) =
      covered n (l.flatMap Card.blocks) + covered n (m.flatMap Card.blocks) := by
  rw [List.flatMap_append, covered_append]

theorem covered_flatMap_cons (n : Nat) (c : Card) (m : List Card) :
    covered n ((c :: m).flatMap Card.blocks) =
      covered n c.blocks + covered n (m.flatMap Card.blocks) := by
  rw [List.flatMap_cons, covered_append]

/-- Records and free runs that hold the same blocks keep the law of the buffer. -/
theorem Books.BlocksOk.of_covered {b d : Books} (h : b.BlocksOk)
    (hr : runsWf 0 d.freeRuns = true)
    (he : ∀ c, c ∈ d.cards → ∀ e, e ∈ c.blocks → 0 < e.count)
    (hc : ∀ n, covered n d.freeRuns + covered n (d.cards.flatMap Card.blocks) =
      covered n b.freeRuns + covered n (b.cards.flatMap Card.blocks)) : d.BlocksOk where
  runs := hr
  extents := he
  once n := by rw [covered_append, hc n, ← covered_append]; exact h.once n

/-- Only the records' and the free runs' parts of the books matter to the buffer. -/
theorem Books.BlocksOk.congr {b d : Books} (h : b.BlocksOk) (hr : d.freeRuns = b.freeRuns)
    (hc : d.cards = b.cards) : d.BlocksOk where
  runs := hr ▸ h.runs
  extents := hc ▸ h.extents
  once n := by rw [hr, hc]; exact h.once n

theorem map_flatMap_blocks (l : List Card) (n : Nat) (g : Card → Card)
    (hg : ∀ c, c ∈ l → c.shot = n → (g c).blocks = c.blocks) :
    (l.map fun c => if c.shot = n then g c else c).flatMap Card.blocks = l.flatMap Card.blocks := by
  induction l with
  | nil => rfl
  | cons c rest ih =>
    rw [List.map_cons, List.flatMap_cons, List.flatMap_cons,
      ih fun d hd => hg d (List.mem_cons_of_mem _ hd)]
    split
    · rename_i e; rw [hg c List.mem_cons_self e]
    · rfl

/-- A change of a record that moves no block. -/
theorem Books.BlocksOk.modCard {b : Books} (h : b.BlocksOk) (n : Nat) (g : Card → Card)
    (hg : ∀ c, c ∈ b.cards → c.shot = n → (g c).blocks = c.blocks) : (b.modCard n g).BlocksOk where
  runs := h.runs
  extents c hc := by
    obtain ⟨d, hd, rfl⟩ := List.mem_map.1 hc
    split
    · rename_i e; rw [hg d hd e]; exact h.extents d hd
    · exact h.extents d hd
  once k := by
    have : (b.modCard n g).cards.flatMap Card.blocks = b.cards.flatMap Card.blocks :=
      map_flatMap_blocks _ _ _ hg
    show covered k (b.freeRuns ++ (b.modCard n g).cards.flatMap Card.blocks) = _
    rw [this]
    exact h.once k

theorem modCard_split {b : Books} {c : Card} {l m : List Card} (g : Card → Card)
    (e : b.cards = l ++ c :: m) (hl : ∀ x, x ∈ l → x.shot ≠ c.shot)
    (hm : ∀ x, x ∈ m → x.shot ≠ c.shot) : (b.modCard c.shot g).cards = l ++ g c :: m := by
  show b.cards.map _ = _
  have keep : ∀ k : List Card, (∀ x, x ∈ k → x.shot ≠ c.shot) →
      (k.map fun d => if d.shot = c.shot then g d else d) = k := fun k hk => by
    conv => rhs; rw [← List.map_id k]
    exact List.map_congr_left fun x hx => if_neg (hk x hx)
  rw [e, List.map_append, List.map_cons, keep l hl, keep m hm, if_pos rfl]

/-- A record gives blocks of its own back to the free-run list (R7). -/
theorem Books.BlocksOk.give {b : Books} (h : b.BlocksOk) (ho : b.Ok) {c : Card} (hc : c ∈ b.cards)
    (g : Card → Card) (es : List Run)
    (hg : ∀ n, covered n c.blocks = covered n (g c).blocks + covered n es)
    (hk : ∀ e, e ∈ (g c).blocks → e ∈ c.blocks) (hes : ∀ e, e ∈ es → e ∈ c.blocks) :
    ({ b.modCard c.shot g with freeRuns := insertRuns b.freeRuns es } : Books).BlocksOk := by
  obtain ⟨l, m, e, hl, hm⟩ := ho.split hc
  have hsplit := modCard_split g e hl hm
  have hcov : ∀ n, covered n ((b.modCard c.shot g).cards.flatMap Card.blocks) + covered n es =
      covered n (b.cards.flatMap Card.blocks) := fun n => by
    rw [hsplit, e, covered_flatMap_append, covered_flatMap_append, covered_flatMap_cons,
      covered_flatMap_cons, hg n]
    omega
  refine h.of_covered ?_ ?_ ?_
  · refine runsWf_insertRuns h.runs (fun x hx => h.extents c hc x (hes x hx)) fun n => ?_
    have h1 := h.once n
    have h2 := hcov n
    rw [covered_append] at h1
    rw [← h1]
    omega
  · intro d hd x hx
    have hd' : d ∈ (b.modCard c.shot g).cards := hd
    rw [hsplit] at hd'
    rcases List.mem_append.1 hd' with h1 | h1
    · exact h.extents d (e ▸ List.mem_append_left _ h1) x hx
    · rcases List.mem_cons.1 h1 with rfl | h1
      · exact h.extents c hc x (hk x hx)
      · exact h.extents d (e ▸ List.mem_append_right _ (List.mem_cons_of_mem _ h1)) x hx
  · intro n
    show covered n (insertRuns b.freeRuns es) + covered n ((b.modCard c.shot g).cards.flatMap _) = _
    rw [covered_insertRuns]
    have := hcov n
    omega

/-- A record takes blocks from the free-run list (R4). -/
theorem Books.BlocksOk.take {b : Books} (h : b.BlocksOk) (ho : b.Ok) {c : Card} (hc : c ∈ b.cards)
    (g : Card → Card) {need : Nat} {es left : List Run} (h0 : 0 < need)
    (ha : allocate need b.freeRuns = .done es left)
    (hg : ∀ n, covered n (g c).blocks = covered n c.blocks + covered n es)
    (hk : ∀ e, e ∈ (g c).blocks → e ∈ c.blocks ∨ e ∈ es) :
    ({ b.modCard c.shot g with freeRuns := left } : Books).BlocksOk := by
  obtain ⟨l, m, e, hl, hm⟩ := ho.split hc
  have hsplit := modCard_split g e hl hm
  have hal := allocate_spec h.runs h0 ha
  refine h.of_covered hal.2.1 ?_ ?_
  · intro d hd x hx
    have hd' : d ∈ (b.modCard c.shot g).cards := hd
    rw [hsplit] at hd'
    rcases List.mem_append.1 hd' with h1 | h1
    · exact h.extents d (e ▸ List.mem_append_left _ h1) x hx
    · rcases List.mem_cons.1 h1 with rfl | h1
      · rcases hk x hx with h2 | h2
        · exact h.extents c hc x h2
        · exact hal.2.2 x h2
      · exact h.extents d (e ▸ List.mem_append_right _ (List.mem_cons_of_mem _ h1)) x hx
  · intro n
    show covered n left + covered n ((b.modCard c.shot g).cards.flatMap _) = _
    have h1 := hal.1 n
    rw [hsplit, e, covered_flatMap_append, covered_flatMap_append, covered_flatMap_cons,
      covered_flatMap_cons, hg n, h1]
    omega

/-- A record comes with blocks from the free-run list (R11). -/
theorem Books.BlocksOk.add {b : Books} (h : b.BlocksOk) (c : Card) (next : Nat) {need : Nat}
    {es left : List Run} (h0 : 0 < need) (ha : allocate need b.freeRuns = .done es left)
    (hc : c.blocks = es) :
    ({ b with cards := b.cards ++ [c], nextShot := next, freeRuns := left } : Books).BlocksOk := by
  have hal := allocate_spec h.runs h0 ha
  refine h.of_covered hal.2.1 ?_ ?_
  · intro d hd x hx
    rcases List.mem_append.1 hd with h1 | h1
    · exact h.extents d h1 x hx
    · cases List.mem_singleton.1 h1
      exact hal.2.2 x (hc ▸ hx)
  · intro n
    show covered n left + covered n ((b.cards ++ [c]).flatMap Card.blocks) = _
    have h1 := hal.1 n
    rw [covered_flatMap_append, covered_flatMap_cons, hc, h1]
    simp only [List.flatMap_nil, covered_nil]
    omega

/-- A record leaves the catalog and its blocks go back to the free-run list (R12, R24, R25). -/
theorem Books.BlocksOk.remove {b : Books} (h : b.BlocksOk) (ho : b.Ok) {c : Card}
    (hc : c ∈ b.cards) :
    ({ b with cards := b.cards.filter fun d => d.shot != c.shot,
              freeRuns := insertRuns b.freeRuns c.blocks } : Books).BlocksOk := by
  obtain ⟨l, m, e, hl, hm⟩ := ho.split hc
  have keep : ∀ k : List Card, (∀ x, x ∈ k → x.shot ≠ c.shot) →
      (k.filter fun d => d.shot != c.shot) = k := fun k hk =>
    List.filter_eq_self.2 fun x hx => by simpa using hk x hx
  have hf : (b.cards.filter fun d => d.shot != c.shot) = l ++ m := by
    rw [e, List.filter_append, List.filter_cons, keep l hl, keep m hm]
    simp
  have hcov : ∀ n, covered n ((l ++ m).flatMap Card.blocks) + covered n c.blocks =
      covered n (b.cards.flatMap Card.blocks) := fun n => by
    rw [e, covered_flatMap_append, covered_flatMap_append, covered_flatMap_cons]
    omega
  refine h.of_covered ?_ ?_ ?_
  · refine runsWf_insertRuns h.runs (h.extents c hc) fun n => ?_
    have h1 := h.once n
    have h2 := hcov n
    rw [covered_append] at h1
    rw [← h1]
    omega
  · intro d hd
    exact h.extents d (List.mem_filter.1 hd).1
  · intro n
    show covered n (insertRuns b.freeRuns c.blocks) +
      covered n ((b.cards.filter fun d => d.shot != c.shot).flatMap _) = _
    rw [covered_insertRuns, hf]
    have := hcov n
    omega

/-- Records without blocks leave the catalog. -/
theorem Books.BlocksOk.sub {b : Books} (h : b.BlocksOk) (l m : List Card) (c : Card)
    (e : b.cards = l ++ c :: m) (hc : c.blocks = []) :
    ({ b with cards := l ++ m } : Books).BlocksOk := by
  refine h.of_covered h.runs ?_ ?_
  · intro d hd
    refine h.extents d ?_
    rw [e]
    rcases List.mem_append.1 hd with h1 | h1
    · exact List.mem_append_left _ h1
    · exact List.mem_append_right _ (List.mem_cons_of_mem _ h1)
  · intro n
    show covered n b.freeRuns + covered n ((l ++ m).flatMap Card.blocks) = _
    rw [e, covered_flatMap_append, covered_flatMap_append, covered_flatMap_cons, hc, covered_nil]
    omega

end Sys2Proof.Machine
end

