-- ==== Sys2Proof/Laws/Inner.lean ====
section
/-! SUPPORT. What the operations inside a command leave alone: `Inner s t` says that `t` has the
DRAM, the lines, the queue, the settings and everything of the ports but their notices as `s` has
them, and that no capacity is overrun. One lemma for each shared operation. -/
set_option Elab.async false
namespace Sys2Proof.Machine

/-- Two ports that differ at most in their notices and RESYNC. -/
structure SamePort (q r : PortSt) : Prop where
  request : r.request = q.request
  replies : r.replies = q.replies
  handles : r.handles = q.handles
  deaf : r.deaf = q.deaf

/-- Ports that differ at most in their notices and RESYNC. -/
structure SamePorts (s t : State) : Prop where
  body : SamePort s.prt.body t.prt.body
  tether : SamePort s.prt.tether t.prt.tether
  relay : SamePort s.prt.relay t.prt.relay
  attached : t.prt.attached = s.prt.attached

/-- What an operation inside a command leaves alone. -/
structure Inner (s t : State) : Prop where
  dram : t.dram = s.dram
  pins : t.pins = s.pins
  pending : t.pending = s.pending
  settings : settings t = settings s
  ports : SamePorts s t
  caps : Caps s → Caps t
  order : CatalogOk s → CatalogOk t

theorem SamePort.refl (q : PortSt) : SamePort q q := ⟨rfl, rfl, rfl, rfl⟩

theorem SamePort.trans {a b c : PortSt} (h : SamePort a b) (k : SamePort b c) : SamePort a c :=
  ⟨k.request.trans h.request, k.replies.trans h.replies, k.handles.trans h.handles,
    k.deaf.trans h.deaf⟩

theorem SamePorts.refl (s : State) : SamePorts s s := ⟨.refl _, .refl _, .refl _, rfl⟩

theorem SamePorts.trans {a b c : State} (h : SamePorts a b) (k : SamePorts b c) : SamePorts a c :=
  ⟨h.body.trans k.body, h.tether.trans k.tether, h.relay.trans k.relay,
    k.attached.trans h.attached⟩

theorem SamePorts.port {s t : State} (h : SamePorts s t) (p : Port) : SamePort (s.port p) (t.port p) :=
  match p with
  | .body => h.body
  | .tether => h.tether
  | .relay => h.relay

theorem Inner.refl (s : State) : Inner s s := ⟨rfl, rfl, rfl, rfl, .refl s, id, id⟩

theorem Inner.trans {a b c : State} (h : Inner a b) (k : Inner b c) : Inner a c :=
  ⟨k.dram.trans h.dram, k.pins.trans h.pins, k.pending.trans h.pending,
    k.settings.trans h.settings, h.ports.trans k.ports, fun x => k.caps (h.caps x),
    fun x => k.order (h.order x)⟩

/-- An update outside the ports that keeps the capacities. -/
theorem Inner.plain {s t : State} (hd : t.dram = s.dram) (hp : t.pins = s.pins)
    (hq : t.pending = s.pending) (hs : Machine.settings t = Machine.settings s)
    (hr : t.prt = s.prt) (hc : Caps s → Caps t)
    (ho : CatalogOk s → CatalogOk t := by exact fun h => h) : Inner s t :=
  ⟨hd, hp, hq, hs, ⟨hr ▸ .refl _, hr ▸ .refl _, hr ▸ .refl _, hr ▸ rfl⟩, hc, ho⟩

theorem Inner.of_eq {s t : State} (h : t = s) : Inner s t := h ▸ .refl s

theorem Inner.ite {s a b : State} {c : Prop} [Decidable c] (ha : Inner s a) (hb : Inner s b) :
    Inner s (if c then a else b) := by
  split <;> assumption

/-! ### Capacities under one update -/

theorem Caps.withCatalog {s : State} (h : Caps s) (c : List Record) (hc : c.length ≤ 64) :
    Caps { s with catalog := c } := { h with catalog := hc }

theorem modRecord_shots (s : State) (n : Nat) (g : Record → Record)
    (hg : ∀ r, (g r).shot = r.shot) :
    (s.modRecord n g).catalog.map Record.shot = s.catalog.map Record.shot := by
  simp only [State.modRecord, List.map_map]
  refine List.map_congr_left fun r _ => ?_
  simp only [Function.comp]
  split
  · exact hg r
  · rfl

theorem modRecord_inner (s : State) (n : Nat) (g : Record → Record)
    (hg : ∀ r, (g r).shot = r.shot := by intro r; rfl) : Inner s (s.modRecord n g) :=
  .plain rfl rfl rfl rfl rfl
    (fun h => { h with catalog := by simpa [State.modRecord] using h.catalog })
    (fun h => by rw [CatalogOk, modRecord_shots s n g hg]; exact h)

theorem modJob_inner (s : State) (n : Job) (g : Job → Job) : Inner s (s.modJob n g) :=
  .plain rfl rfl rfl rfl rfl fun h => { h with jobs := by simpa [State.modJob] using h.jobs }

/-- A slot keeps its settings and its capacities. -/
theorem setSlot_inner (s : State) (x : Slot) (q : SlotSt)
    (ht : q.timeout = (s.slot x).timeout) (hv : q.verify = (s.slot x).verify)
    (hk : (s.slot x).Ok → q.Ok) : Inner s (s.setSlot x q) := by
  cases x
  · exact .plain rfl rfl rfl (by simp_all [settings, State.setSlot, State.slot]) rfl
      fun h => { h with slotA := hk h.slotA }
  · exact .plain rfl rfl rfl (by simp_all [settings, State.setSlot, State.slot]) rfl
      fun h => { h with slotB := hk h.slotB }

/-- A slot whose list and log stay. -/
theorem setSlot_inner_same (s : State) (x : Slot) (q : SlotSt)
    (ht : q.timeout = (s.slot x).timeout) (hv : q.verify = (s.slot x).verify)
    (h1 : q.space = (s.slot x).space) (h2 : q.faults = (s.slot x).faults) :
    Inner s (s.setSlot x q) :=
  setSlot_inner s x q ht hv fun h => ⟨h1 ▸ h.space, h2 ▸ h.faults⟩

/-! ### Notices -/

theorem enqueue_same (q : PortSt) (n : Notice) : SamePort q (q.enqueue n) := by
  unfold PortSt.enqueue
  split
  · exact .refl q
  · split <;> exact ⟨rfl, rfl, rfl, rfl⟩

theorem enqueue_ok {q : PortSt} (h : q.Ok) (n : Notice) : (q.enqueue n).Ok := by
  unfold PortSt.enqueue
  split
  · exact h
  · split
    · exact ⟨h.notices, h.replies, h.handles⟩
    · exact ⟨by simp; omega, h.replies, h.handles⟩

theorem notify_inner (s : State) (p : Port) (n : Notice) : Inner s (s.notify p n) := by
  cases p
  · exact ⟨rfl, rfl, rfl, rfl, ⟨enqueue_same _ _, .refl _, .refl _, rfl⟩,
      fun h => { h with body := enqueue_ok h.body n }, id⟩
  · unfold State.notify
    simp only
    split
    · exact ⟨rfl, rfl, rfl, rfl, ⟨.refl _, enqueue_same _ _, .refl _, rfl⟩,
        fun h => { h with tetherPort := enqueue_ok h.tetherPort n }, id⟩
    · exact .refl s
  · exact ⟨rfl, rfl, rfl, rfl, ⟨.refl _, .refl _, enqueue_same _ _, rfl⟩,
      fun h => { h with relayPort := enqueue_ok h.relayPort n }, id⟩

theorem notifyBodyTether_inner (s : State) (n : Notice) : Inner s (s.notifyBodyTether n) :=
  (notify_inner s _ n).trans (notify_inner _ _ n)

theorem notifyAll_inner (s : State) (n : Notice) : Inner s (s.notifyAll n) :=
  (notifyBodyTether_inner s n).trans (notify_inner _ _ n)

theorem fresh_inner (s : State) : Inner s s.fresh := .plain rfl rfl rfl rfl rfl fun h => { h with }

/-! ### Lens link and focus drive -/

theorem startNext_inner (s : State) : Inner s s.startNext := by
  unfold State.startNext
  split
  · exact .refl s
  · split
    · exact .plain rfl rfl rfl rfl rfl fun h => { h with }
    · exact .plain rfl rfl rfl rfl rfl fun h => { h with }
    · split
      · exact .plain rfl rfl rfl rfl rfl fun h => { h with }
      · exact .refl s

theorem endTransaction_inner (s : State) : Inner s s.endTransaction := .plain rfl rfl rfl rfl rfl fun h => { h with }

theorem dropPending_inner (s : State) : Inner s s.dropPending := .plain rfl rfl rfl rfl rfl fun h => { h with }

theorem dropMove_inner (s : State) : Inner s s.dropMove := .plain rfl rfl rfl rfl rfl fun h => { h with }

theorem startIdent_inner (s : State) : Inner s s.startIdent := .plain rfl rfl rfl rfl rfl fun h => { h with }

theorem queueMove_inner (s : State) (step cls : Nat) : Inner s (s.queueMove step cls) :=
  .trans (b := { s with lnk := { s.lnk with pendMove := some ⟨step, cls⟩, latched := some cls } })
    (.plain rfl rfl rfl rfl rfl fun h => { h with }) (startNext_inner _)

theorem setTarget_inner (s : State) (d : Descriptor) (v : Int) (b : Bool) :
    Inner s (s.setTarget d v b) := by
  unfold State.setTarget
  simp only
  split
  · exact .plain rfl rfl rfl rfl rfl fun h => { h with }
  · refine .trans ?_ (queueMove_inner _ _ _)
    exact .plain rfl rfl rfl rfl rfl fun h => { h with }

theorem applyPrediction_inner (s : State) (d : Descriptor) : Inner s (s.applyPrediction d) := by
  unfold State.applyPrediction
  split
  · exact .refl s
  · exact setTarget_inner _ _ _ _

theorem giveMidpoint_inner (s : State) (mid : Time) : Inner s (s.giveMidpoint mid) := by
  have base : Inner s { s with fdr := { s.fdr with nextMid := mid } } :=
    .plain rfl rfl rfl rfl rfl fun h => { h with }
  unfold State.giveMidpoint
  simp only
  split
  · split
    · exact base.trans (applyPrediction_inner _ _)
    · exact base
  · exact base

theorem exposureStart_inner (s : State) (mid : Time) : Inner s (s.exposureStart mid) := by
  unfold State.exposureStart
  simp only
  split
  · refine .trans ?_ (startNext_inner _)
    exact .plain rfl rfl rfl rfl rfl fun h => { h with }
  · exact .plain rfl rfl rfl rfl rfl fun h => { h with }

theorem enterExpose_inner (s : State) : Inner s s.enterExpose := by
  unfold State.enterExpose
  split
  · exact .refl s
  · refine .trans ?_ ((exposureStart_inner _ _).trans (giveMidpoint_inner _ _))
    exact .plain rfl rfl rfl rfl rfl fun h => { h with }

theorem markExpired_inner (s : State) : Inner s s.markExpired := by
  unfold State.markExpired
  split
  · exact .refl s
  · exact modRecord_inner _ _ _

theorem checkFocusWait_inner (s : State) : Inner s s.checkFocusWait := by
  unfold State.checkFocusWait
  split
  · split
    · exact enterExpose_inner s
    · exact (markExpired_inner s).trans (enterExpose_inner _)
    · exact (markExpired_inner s).trans (enterExpose_inner _)
    · exact (markExpired_inner s).trans (enterExpose_inner _)
    · exact (markExpired_inner s).trans (enterExpose_inner _)
    · split
      · exact enterExpose_inner s
      · exact .refl s
    · split
      · exact enterExpose_inner s
      · exact .refl s
  · exact .refl s

theorem setFocusState_inner (s : State) (st : FocusState) : Inner s (s.setFocusState st) := by
  unfold State.setFocusState
  split
  · exact checkFocusWait_inner s
  · refine .trans (b := { s with fdr := { s.fdr with state := st } }) ?_
      ((notifyBodyTether_inner _ _).trans (checkFocusWait_inner _))
    exact .plain rfl rfl rfl rfl rfl fun h => { h with }

theorem clearFocus_inner (s : State) : Inner s s.clearFocus :=
  .plain rfl rfl rfl rfl rfl fun h => { h with history := Nat.zero_le _ }

theorem startSession_inner (s : State) : Inner s s.startSession := by
  unfold State.startSession
  refine .trans (b := if s.fdr.mode = .manual then s.dropMove else s)
    (.ite (dropMove_inner s) (.refl s)) ((clearFocus_inner _).trans ?_)
  generalize State.clearFocus _ = u
  simp only
  split <;> exact setFocusState_inner _ _

theorem endSession_inner (s : State) : Inner s s.endSession := by
  unfold State.endSession
  refine (dropMove_inner s).trans (.trans ?_ (setFocusState_inner _ _))
  exact .plain rfl rfl rfl rfl rfl fun h => { h with }

theorem focusLost_inner (s : State) (st : FocusState) : Inner s (s.focusLost st) := by
  unfold State.focusLost
  split
  · exact .refl s
  · exact (clearFocus_inner s).trans (setFocusState_inner _ _)

theorem focusFound_inner (s : State) : Inner s s.focusFound := by
  unfold State.focusFound
  split <;> first
    | exact .refl s
    | exact (clearFocus_inner s).trans (setFocusState_inner _ _)

theorem linkLost_inner (s : State) (why : LostReason) : Inner s (s.linkLost why) := by
  unfold State.linkLost
  refine (endTransaction_inner s).trans ?_
  generalize s.endTransaction = u
  dsimp only
  refine .trans ?_ (focusLost_inner _ _)
  exact .plain rfl rfl rfl rfl rfl fun h => { h with }

theorem linkAbsent_inner (s : State) : Inner s s.linkAbsent := by
  unfold State.linkAbsent
  refine .trans ?_ (focusLost_inner _ _)
  exact .plain rfl rfl rfl rfl rfl fun h => { h with }

theorem retryLost_inner (s : State) : Inner s s.retryLost := by
  unfold State.retryLost
  split
  · exact startIdent_inner s
  · exact .refl s

theorem focusProgress_inner (s : State) (pos : Nat) (moving : Bool) :
    Inner s (s.focusProgress pos moving) := by
  unfold State.focusProgress
  split
  · exact .refl s
  · simp only
    split
    · split
      · split
        · split
          · exact (dropMove_inner s).trans (setFocusState_inner _ _)
          · exact .refl s
        · exact .refl s
      · split
        · refine .trans ?_ (queueMove_inner _ _ _)
          exact .plain rfl rfl rfl rfl rfl fun h => { h with }
        · exact .refl s
      · split
        · refine .trans ?_ ((setFocusState_inner _ _).trans (queueMove_inner _ _ _))
          exact .plain rfl rfl rfl rfl rfl fun h => { h with }
        · exact .refl s
    · exact .refl s

theorem storePosition_inner (s : State) (pos : Nat) (moving : Bool) :
    Inner s (s.storePosition pos moving) := .plain rfl rfl rfl rfl rfl fun h => { h with }

theorem whereToFocus_inner (s : State) (pos : Nat) (moving : Bool) :
    Inner s (s.whereToFocus pos moving) :=
  (focusProgress_inner s pos moving).trans (checkFocusWait_inner _)

theorem beginScan_inner (s : State) (d : Descriptor) : Inner s (s.beginScan d) := by
  unfold State.beginScan
  refine .trans ?_ (queueMove_inner _ _ _)
  exact .plain rfl rfl rfl rfl rfl fun h => { h with }

theorem addHistory_length (l : List (Time × Int)) (e : Time × Int) (h : l.length ≤ 4) :
    (addHistory l e).length ≤ 4 := by
  unfold addHistory
  split <;> simp <;> omega

theorem applyValid_inner (s : State) (d : Descriptor) (p : Int) : Inner s (s.applyValid d p) := by
  unfold State.applyValid
  split
  · split
    · refine .trans ?_ ((setTarget_inner _ _ _ _).trans (checkFocusWait_inner _))
      exact .plain rfl rfl rfl rfl rfl fun h => { h with }
    · exact .refl s
  · refine .trans (b := { s with fdr := { s.fdr with
      history := addHistory s.fdr.history (s.fdr.frameMid, p), lowCount := 0 } }) ?_ ?_
    · exact .plain rfl rfl rfl rfl rfl fun h =>
        { h with history := addHistory_length _ _ h.history }
    · simp only
      split
      · exact (setFocusState_inner _ _).trans
          ((applyPrediction_inner _ _).trans (checkFocusWait_inner _))
      · exact (applyPrediction_inner _ _).trans (checkFocusWait_inner _)
  · exact setFocusState_inner _ _

theorem applyLow_inner (s : State) (d : Descriptor) : Inner s (s.applyLow d) := by
  unfold State.applyLow
  split
  · split
    · exact beginScan_inner _ _
    · exact .refl s
  · split
    · exact .plain rfl rfl rfl rfl rfl fun h => { h with }
    · refine .trans ?_ (setFocusState_inner _ _)
      exact .plain rfl rfl rfl rfl rfl fun h => { h with history := Nat.zero_le _ }
  · exact setFocusState_inner _ _

theorem writeFocusRecord_inner (s : State) (shot pos : Nat) (r : CurveResult) :
    Inner s (s.writeFocusRecord shot pos r) := modRecord_inner _ _ _

theorem applyMeasurement_inner (s : State) (m : Measurement) : Inner s (s.applyMeasurement m) := by
  unfold State.applyMeasurement
  split
  · simp only
    have base : ∀ (d : Descriptor) (p : Int), Inner s
        (if s.fdr.state = .off then s
         else if m.outcome = .valid then s.applyValid d p else s.applyLow d) := by
      intro d p
      split
      · exact .refl s
      · split
        · exact applyValid_inner _ _ _
        · exact applyLow_inner _ _
    split
    · exact (base _ _).trans (writeFocusRecord_inner _ _ _ _)
    · exact base _ _
  · exact .refl s

end Sys2Proof.Machine
end

