-- ==== Sys2Proof/Laws/InnerStore.lean ====
section
/-! SUPPORT. `Inner` for the operations of the catalog, the development engine, the media controller
and the send queues. -/
set_option Elab.async false
namespace Sys2Proof.Machine

/-! ### Catalog -/

theorem stall_inner (s : State) (r : StallReason) : Inner s (s.stall r) := by
  unfold State.stall
  split
  · exact .refl s
  · refine .trans ?_ (notify_inner _ _ _)
    exact .plain rfl rfl rfl rfl rfl fun h => { h with }

theorem markAttempt_inner (s : State) : Inner s s.markAttempt :=
  .plain rfl rfl rfl rfl rfl fun h => { h with }

theorem focusDecision_inner (s : State) : Inner s s.focusDecision := by
  unfold State.focusDecision
  split
  · exact .plain rfl rfl rfl rfl rfl fun h => { h with }
  · exact enterExpose_inner s

theorem dropOldest_length (l : List Record) (h : (l.any fun r => r.life == .cardOnly) = true) :
    (dropOldestCardOnly l).length + 1 = l.length := by
  induction l with
  | nil => simp at h
  | cons r rest ih =>
    unfold dropOldestCardOnly
    split
    · simp
    · rename_i hr
      have : (rest.any fun r => r.life == .cardOnly) = true := by simpa [hr] using h
      simp [ih this]

theorem oldest_none (l : List Record) (h : oldestCardOnly l = none) :
    (l.any fun r => r.life == .cardOnly) = false := by
  unfold oldestCardOnly at h
  simpa [List.find?_eq_none] using h

theorem ShotsOk.sublist {l m : List Nat} {n : Nat} (h : ShotsOk m n) (hs : l.Sublist m) :
    ShotsOk l n :=
  ⟨h.1, h.2.1.sublist hs, fun k hk => h.2.2 k (hs.subset hk)⟩

theorem ShotsOk.create {l : List Nat} {n : Nat} (h : ShotsOk l n) (hn : n ≠ 0) :
    ShotsOk (l ++ [n]) (State.nextShotNumber n) := by
  obtain ⟨h1, h2, h3⟩ := h
  have hnext : State.nextShotNumber n = 0 ∨ State.nextShotNumber n = n + 1 := by
    unfold State.nextShotNumber
    omega
  refine ⟨by unfold State.nextShotNumber; omega, ?_, ?_⟩
  · rw [List.pairwise_append]
    refine ⟨h2, List.pairwise_singleton _ _, fun a ha b hb => ?_⟩
    rw [List.mem_singleton] at hb
    have := h3 a ha
    omega
  · intro k hk
    rw [List.mem_append, List.mem_singleton] at hk
    rcases hk with hk | hk
    · have := h3 k hk
      omega
    · omega

theorem dropOldest_sublist (l : List Record) : (dropOldestCardOnly l).Sublist l := by
  induction l with
  | nil => exact List.Sublist.refl _
  | cons r rest ih =>
    unfold dropOldestCardOnly
    split
    · exact List.sublist_cons_self _ _
    · exact ih.cons_cons _

theorem filterCatalog_order (s : State) (f : Record → Bool) (h : CatalogOk s) :
    CatalogOk { s with catalog := s.catalog.filter f } :=
  ShotsOk.sublist h (List.filter_sublist.map _)

theorem retire_inner (s : State) : Inner s s.retire := by
  unfold State.retire
  split
  · exact .refl s
  · split
    · exact .refl s
    · rename_i r hr
      refine .trans ?_ (notifyAll_inner _ _)
      refine .plain rfl rfl rfl rfl rfl (fun h => { h with catalog := ?_ })
        fun h => ShotsOk.sublist h ((dropOldest_sublist _).map _)
      have hany : (s.catalog.any fun r => r.life == .cardOnly) = true := by
        unfold oldestCardOnly at hr
        rw [List.any_eq_true]
        exact ⟨r, List.mem_of_find?_eq_some hr, by simpa using List.find?_some hr⟩
      have := dropOldest_length _ hany
      have := h.catalog
      show (dropOldestCardOnly s.catalog).length ≤ 64
      omega

theorem notify_catalog (s : State) (p : Port) (n : Notice) : (s.notify p n).catalog = s.catalog := by
  cases p
  · rfl
  · unfold State.notify
    simp only
    split <;> rfl
  · rfl

theorem notifyAll_catalog (s : State) (n : Notice) : (s.notifyAll n).catalog = s.catalog := by
  simp [State.notifyAll, State.notifyBodyTether, notify_catalog]

theorem retire_room (s : State) (h : s.catalogRoom = true) (hc : s.catalog.length ≤ 64) :
    s.retire.catalog.length < 64 := by
  by_cases hlt : s.catalog.length < Config.catalogMax
  · have : s.retire = s := by
      unfold State.retire
      rw [if_pos hlt]
    rw [this]
    exact hlt
  · have hany : (s.catalog.any fun r => r.life == .cardOnly) = true := by
      simp only [State.catalogRoom, Bool.and_eq_true, Bool.or_eq_true, decide_eq_true_eq] at h
      rcases h.2 with k | k
      · exact absurd k hlt
      · exact k
    have hlen := dropOldest_length _ hany
    unfold State.retire
    rw [if_neg hlt]
    split
    · rename_i hn
      rw [oldest_none _ hn] at hany
      cases hany
    · rw [notifyAll_catalog]
      show (dropOldestCardOnly s.catalog).length < 64
      omega

theorem notify_nextShot (s : State) (p : Port) (n : Notice) :
    (s.notify p n).nextShot = s.nextShot := by
  cases p
  · rfl
  · unfold State.notify
    simp only
    split <;> rfl
  · rfl

theorem retire_nextShot (s : State) : s.retire.nextShot = s.nextShot := by
  unfold State.retire
  split
  · rfl
  · split
    · rfl
    · simp [State.notifyAll, State.notifyBodyTether, notify_nextShot]

theorem createRecord_inner (s : State) (es left : List Run) (hr : s.catalogRoom = true) :
    Inner s (s.createRecord es left) := by
  have h1 := retire_inner s
  unfold State.createRecord
  simp only
  refine ⟨h1.dram, h1.pins, h1.pending, ?_, ⟨h1.ports.body, h1.ports.tether, h1.ports.relay,
    h1.ports.attached⟩, fun h => ?_, fun h => ?_⟩
  · rw [← h1.settings]; rfl
  · have k := h1.caps h
    have := retire_room s hr h.catalog
    exact { k with catalog := by simp; omega, fifo := Nat.zero_le _ }
  · have k := h1.order h
    have hn : s.retire.nextShot = s.nextShot := retire_nextShot s
    have h0 : s.retire.nextShot ≠ 0 := by
      rw [hn]
      simp only [State.catalogRoom, Bool.and_eq_true, bne_iff_ne] at hr
      exact hr.1
    unfold CatalogOk at k ⊢
    rw [List.map_append]
    exact ShotsOk.create k h0

theorem requestFrame_inner (s : State) : Inner s s.requestFrame := by
  unfold State.requestFrame
  split
  · exact stall_inner _ _
  · rename_i hr
    have hr : s.catalogRoom = true := by simpa using hr
    split
    · exact stall_inner _ _
    · exact stall_inner _ _
    · simp only
      split
      · exact ((createRecord_inner _ _ _ hr).trans (focusDecision_inner _)).trans
          (markAttempt_inner _)
      · exact (createRecord_inner _ _ _ hr).trans (focusDecision_inner _)

theorem retrySpace_inner (s : State) : Inner s s.retrySpace := by
  unfold State.retrySpace
  split
  · exact requestFrame_inner s
  · exact .refl s

theorem retryCatalog_inner (s : State) : Inner s s.retryCatalog := by
  unfold State.retryCatalog
  split
  · exact requestFrame_inner s
  · exact .refl s

theorem free_inner (s : State) (es : List Run) : Inner s (s.free es) := by
  unfold State.free
  split
  · exact .refl s
  · refine .trans ?_ ((markAttempt_inner _).trans (retrySpace_inner _))
    exact .plain rfl rfl rfl rfl rfl fun h => { h with }

theorem filterCatalog_inner (s : State) (f : Record → Bool) :
    Inner s { s with catalog := s.catalog.filter f } :=
  .plain rfl rfl rfl rfl rfl
    (fun h => { h with catalog := Nat.le_trans (List.length_filter_le _ _) h.catalog })
    (filterCatalog_order s f)

theorem removeRecord_inner (s : State) (n : Nat) : Inner s (s.removeRecord n) := by
  unfold State.removeRecord
  split
  · exact .refl s
  · exact (filterCatalog_inner s _).trans ((free_inner _ _).trans (retryCatalog_inner _))

theorem filterTether_inner (s : State) (f : TetherEntry → Bool) :
    Inner s { s with snq := { s.snq with tether := s.snq.tether.filter f } } :=
  .plain rfl rfl rfl rfl rfl fun h =>
    { h with tether := Nat.le_trans (List.length_filter_le _ _) h.tether }

theorem filterRelay_inner (s : State) (f : RelayEntry → Bool) :
    Inner s { s with snq := { s.snq with relay := s.snq.relay.filter f } } :=
  .plain rfl rfl rfl rfl rfl fun h =>
    { h with relay := Nat.le_trans (List.length_filter_le _ _) h.relay }

theorem missTether_inner (s : State) (n : Nat) : Inner s (s.missTether n) := by
  unfold State.missTether
  split
  · exact .refl s
  · exact (filterTether_inner s _).trans ((modRecord_inner _ _ _).trans
      ((notify_inner _ _ _).trans (notify_inner _ _ _)))

theorem freeRaw_inner (s : State) (n : Nat) : Inner s (s.freeRaw n) := by
  unfold State.freeRaw
  split
  · exact .refl s
  · exact (modRecord_inner _ _ _).trans (free_inner _ _)

theorem rawTest_inner (s : State) (n : Nat) : Inner s (s.rawTest n) := by
  unfold State.rawTest
  split
  · exact .refl s
  · split
    · exact (missTether_inner _ _).trans (freeRaw_inner _ _)
    · exact .refl s

theorem freeVersion_inner (s : State) (n v : Nat) : Inner s (s.freeVersion n v) := by
  unfold State.freeVersion
  split
  · exact .refl s
  · exact (modRecord_inner _ _ _).trans (free_inner _ _)

theorem versionTests_inner (s : State) (n : Nat) (vs : List Nat) : Inner s (s.versionTests n vs) := by
  induction vs generalizing s with
  | nil => exact .refl s
  | cons v rest ih =>
    unfold State.versionTests
    split
    · exact .refl s
    · split
      · exact ih s
      · split
        · exact (freeVersion_inner _ _ _).trans (ih _)
        · exact ih s

theorem cardOnlyTest_inner (s : State) (n : Nat) : Inner s (s.cardOnlyTest n) := by
  unfold State.cardOnlyTest
  split
  · exact .refl s
  · split
    · exact (modRecord_inner _ _ _).trans (retryCatalog_inner _)
    · exact .refl s

theorem releaseTests_inner (s : State) (n : Nat) : Inner s (s.releaseTests n) := by
  unfold State.releaseTests
  split
  · exact .refl s
  · exact (rawTest_inner _ _).trans ((versionTests_inner _ _ _).trans (cardOnlyTest_inner _ _))

theorem releaseAll_inner (s : State) (ns : List Nat) : Inner s (s.releaseAll ns) := by
  induction ns generalizing s with
  | nil => exact .refl s
  | cons n rest ih => exact (releaseTests_inner s n).trans (ih _)

theorem settleDeleting_inner (s : State) (n : Nat) (part : Part) (v : Option Nat) :
    Inner s (s.settleDeleting n part v) := by
  unfold State.settleDeleting
  split
  · exact .refl s
  · simp only
    have base : ∀ b : Bool, Inner s
        (if b = true then s
         else match part, v with
          | .raw, _ => s.freeRaw n
          | .proof, some k => s.freeVersion n k
          | .proof, none => s) := by
      intro b
      split
      · exact .refl s
      · split
        · exact freeRaw_inner _ _
        · exact freeVersion_inner _ _ _
        · exact .refl s
    split
    · exact base _
    · exact (base _).trans (removeRecord_inner _ _)

theorem setSeq_inner (s : State) (q : SeqState) : Inner s (s.setSeq q) := by
  have base : Inner s { s with rsq := { s.rsq with state := q } } :=
    .plain rfl rfl rfl rfl rfl fun h => { h with }
  unfold State.setSeq
  simp only
  split
  · exact base.trans (markAttempt_inner _)
  · exact base

theorem endBurst_inner (s : State) (why : BurstEndReason) : Inner s (s.endBurst why) := by
  unfold State.endBurst
  split
  · refine .trans ?_ (notifyBodyTether_inner _ _)
    exact .plain rfl rfl rfl rfl rfl fun h => { h with }
  · exact .refl s

/-! ### Development -/

theorem logResult_length (l : List JobResult) (r : JobResult) (h : l.length ≤ 8) :
    (logResult l r).length ≤ 8 := by
  unfold logResult
  split <;> simp <;> omega

theorem logJob_inner (s : State) (r : JobResult) : Inner s (s.logJob r) :=
  .plain rfl rfl rfl rfl rfl fun h => { h with log := logResult_length _ _ h.log }

theorem announceJob_inner (s : State) (j : Job) (r : JobResult) : Inner s (s.announceJob j r) := by
  unfold State.announceJob
  simp only
  split
  · exact (notify_inner _ _ _).trans (notify_inner _ _ _)
  · exact notify_inner _ _ _

theorem reportJob_inner (s : State) (j : Job) (r : JobResult) : Inner s (s.reportJob j r) :=
  (logJob_inner s r).trans (announceJob_inner _ _ _)

theorem dropJob_inner (s : State) (j : Job) : Inner s (s.dropJob j) :=
  .plain rfl rfl rfl rfl rfl fun h =>
    { h with jobs := Nat.le_trans List.erase_sublist.length_le h.jobs }

theorem setWanted_inner (s : State) (n : Nat) (w : Option Wanted) : Inner s (s.setWanted n w) :=
  modRecord_inner _ _ _

theorem mergeAuto_inner (s : State) (n : Job) (p : Purpose) : Inner s (s.mergeAuto n p) :=
  modJob_inner _ _ _

theorem appendJob_inner (s : State) (shot recipe : Nat) (o : JobOrigin) (a : List Port) (c r : Bool)
    (hroom : s.dev.queue.length < 8) : Inner s (s.appendJob shot recipe o a c r) := by
  unfold State.appendJob
  refine .trans ?_ (markAttempt_inner _)
  refine .plain rfl rfl rfl rfl rfl fun h => { h with jobs := ?_ }
  simp
  omega

theorem admitFrom_inner (s : State) (ns : List Nat) : Inner s (s.admitFrom ns) := by
  induction ns generalizing s with
  | nil => exact .refl s
  | cons n rest ih =>
    unfold State.admitFrom
    split
    · exact ih s
    · split
      · exact ih s
      · split
        · exact ((mergeAuto_inner _ _ _).trans ((setWanted_inner _ _ _).trans
            (releaseTests_inner _ _))).trans (ih _)
        · split
          · rename_i h
            exact ((appendJob_inner _ _ _ _ _ _ _ h).trans ((setWanted_inner _ _ _).trans
              (releaseTests_inner _ _))).trans (ih _)
          · exact .refl s

theorem admitAuto_inner (s : State) : Inner s s.admitAuto := admitFrom_inner _ _

theorem beginRow_inner (s : State) (rec : Recipe) (c : Sum32) : Inner s (s.beginRow rec c) :=
  .plain rfl rfl rfl rfl rfl fun h => { h with }

theorem startJob_inner (s : State) (j : Job) (r : Record) (rec : Recipe) (es left : List Run) :
    Inner s (s.startJob j r rec es left) := by
  unfold State.startJob
  refine .trans (b := { s with freeRuns := left }) ?_
    ((modRecord_inner _ _ _).trans ((modJob_inner _ _ _).trans (beginRow_inner _ _ _)))
  exact .plain rfl rfl rfl rfl rfl fun h => { h with }

theorem setSpaceWait_inner (s : State) (j : Job) : Inner s (s.setSpaceWait j) := modJob_inner _ _ _

theorem tryJobs_inner (s : State) (js : List Job) : Inner s (s.tryJobs js) := by
  induction js generalizing s with
  | nil => exact .refl s
  | cons j rest ih =>
    unfold State.tryJobs
    split
    · exact ih s
    · split
      · exact ih s
      · split
        · exact ih s
        · simp only
          split
          · exact startJob_inner _ _ _ _ _ _
          · exact (setSpaceWait_inner _ _).trans (ih _)
          · exact (setSpaceWait_inner _ _).trans (ih _)

theorem attemptJob_inner (s : State) : Inner s s.attemptJob := by
  unfold State.attemptJob
  split
  · have base : Inner s { s with dev := { s.dev with attemptDue := false } } :=
      .plain rfl rfl rfl rfl rfl fun h => { h with }
    simp only
    split
    · exact base.trans (tryJobs_inner _ _)
    · exact base
  · exact .refl s

theorem signalChanged_inner (s : State) (b : Bool) : Inner s (s.signalChanged b) := by
  unfold State.signalChanged
  split
  · simp only
    split
    · split
      · exact (markAttempt_inner _).trans (beginRow_inner _ _ _)
      · exact markAttempt_inner _
    · exact markAttempt_inner _
  · exact .refl s

theorem relayWantsProof_inner (s : State) (n : Nat) : Inner s (s.relayWantsProof n) := by
  unfold State.relayWantsProof
  split
  · split
    · exact setWanted_inner _ _ _
    · exact .refl s
  · exact .refl s

theorem discardDev_inner (s : State) : Inner s s.discardDev := by
  unfold State.discardDev
  split
  · split <;> first
      | exact .refl s
      | exact .plain rfl rfl rfl rfl rfl fun h => { h with }
  · exact .refl s

theorem restoreWanted_inner (s : State) (j : Job) (why : AbortCause) :
    Inner s (s.restoreWanted j why) := by
  unfold State.restoreWanted
  split
  · split
    · exact setWanted_inner _ _ _
    · exact .refl s
  · exact .refl s

theorem abortJob_inner (s : State) (j : Job) (why : AbortCause) : Inner s (s.abortJob j why) := by
  unfold State.abortJob
  dsimp only
  refine .trans ?_ (markAttempt_inner _)
  refine .trans ?_ (freeVersion_inner _ _ _)
  refine .trans ?_ (reportJob_inner _ _ _)
  refine .trans ?_ (relayWantsProof_inner _ _)
  refine .trans ?_ (restoreWanted_inner _ _ _)
  refine .trans ((dropJob_inner s j).trans (discardDev_inner _)) ?_
  exact .plain rfl rfl rfl rfl rfl fun h => { h with }

theorem abortSave_inner (s : State) : Inner s s.abortSave := by
  unfold State.abortSave
  split
  · exact .refl s
  · exact (abortJob_inner _ _ _).trans ((releaseTests_inner _ _).trans (admitAuto_inner _))

theorem removeQueued_inner (s : State) (js : List Job) (n : Nat) : Inner s (s.removeQueued js n) := by
  induction js generalizing s with
  | nil => exact .refl s
  | cons j rest ih =>
    unfold State.removeQueued
    split
    · exact ((dropJob_inner _ _).trans (reportJob_inner _ _ _)).trans (ih _)
    · exact ih s

/-! ### Media -/

theorem modCopy_inner (s : State) (n : Nat) (x : Slot) (p : Part) (f : Copy → Copy) :
    Inner s (s.modCopy n x p f) := modRecord_inner _ _ _

theorem planRuns_left (l : List Run) (n : Nat) : (planRuns l n).2.length ≤ l.length := by
  induction l generalizing n with
  | nil => simp [planRuns]
  | cons r rest ih =>
    unfold planRuns
    split
    · simp
    · split
      · simp
      · have := ih (n - r.count)
        simp
        omega

theorem startCopy_inner (s : State) (x : Slot) (r : Record) (p : Part) :
    Inner s (s.startCopy x r p) := by
  unfold State.startCopy
  refine .trans ?_ (modCopy_inner _ _ _ _ _)
  exact setSlot_inner _ _ _ rfl rfl fun h =>
    ⟨Nat.le_trans (planRuns_left _ _) h.space, h.faults⟩

theorem chooseWork_inner (s : State) (x : Slot) : Inner s (s.chooseWork x) := by
  unfold State.chooseWork
  split
  · split
    · exact setSlot_inner_same _ _ _ rfl rfl rfl rfl
    · split
      · exact .refl s
      · split
        · exact startCopy_inner _ _ _ _
        · exact setSlot_inner_same _ _ _ rfl rfl rfl rfl
  · exact .refl s

theorem chooseBoth_inner (s : State) : Inner s s.chooseBoth :=
  (chooseWork_inner s _).trans (chooseWork_inner _ _)

theorem requireCopies_inner (s : State) (n : Nat) (p : Part) (v : Option Nat) :
    Inner s (s.requireCopies n p v) := modRecord_inner _ _ _

theorem saveTest_inner (s : State) : Inner s s.saveTest := by
  unfold State.saveTest
  split
  · refine .trans ?_ (notify_inner _ _ _)
    exact .plain rfl rfl rfl rfl rfl fun h => { h with }
  · exact .refl s

theorem discardMed_inner (s : State) (x : Slot) : Inner s (s.discardMed x) := by
  unfold State.discardMed
  split
  · split
    · exact .plain rfl rfl rfl rfl rfl fun h => { h with }
    · exact .refl s
  · exact .refl s

theorem endFlight_inner (s : State) (x : Slot) (st : SlotState) : Inner s (s.endFlight x st) :=
  setSlot_inner_same _ _ _ rfl rfl rfl rfl

theorem copyEnded_inner (s : State) (f : Flight) : Inner s (s.copyEnded f) := by
  unfold State.copyEnded
  split
  · exact .refl s
  · split
    · exact settleDeleting_inner _ _ _ _
    · exact releaseTests_inner _ _

theorem copyWritten_inner (s : State) (x : Slot) (f : Flight) (b : Bool) :
    Inner s (s.copyWritten x f b) := by
  unfold State.copyWritten
  dsimp only
  refine .trans ?_ (chooseWork_inner _ _)
  have base : Inner s (((s.endFlight x .ready).modCopy f.shot x f.part fun c =>
      { c with state := .written, placement := some f.planned, unverified := b }).copyEnded f) :=
    .trans (.trans (endFlight_inner s x .ready) (modCopy_inner _ _ _ _ _)) (copyEnded_inner _ f)
  exact .ite (.trans base (notify_inner _ _ _)) (.trans base (notify_inner _ _ _))

theorem logFault_length (l : List FaultEntry) (e : FaultEntry) (h : l.length ≤ 8) :
    (logFault l e).length ≤ 8 := by
  unfold logFault
  split <;> simp <;> omega

theorem copyFailed_inner (s : State) (x : Slot) (f : Flight) (why : FaultReason) (st : SlotState) :
    Inner s (s.copyFailed x f why st) := by
  unfold State.copyFailed
  split
  · exact endFlight_inner _ _ _
  · rename_i r _
    dsimp only
    refine .trans ?_ (chooseWork_inner _ _)
    refine .trans ?_ (notify_inner _ _ _)
    refine .trans ?_ (copyEnded_inner _ _)
    refine .trans ?_ (setSlot_inner _ x _ rfl rfl fun h => ⟨h.space, logFault_length _ _ h.faults⟩)
    refine .trans ?_ (modCopy_inner _ _ _ _ _)
    refine .trans ?_ (endFlight_inner _ _ _)
    split
    · exact fresh_inner s
    · exact .refl s

theorem writingDone_inner (s : State) (x : Slot) (f : Flight) : Inner s (s.writingDone x f) := by
  unfold State.writingDone
  split
  · exact copyWritten_inner _ _ _ _
  · refine .trans ?_ (modCopy_inner _ _ _ _ _)
    exact setSlot_inner_same _ _ _ rfl rfl rfl rfl

theorem insertCard_inner (s : State) (x : Slot) : Inner s (s.insertCard x) := by
  unfold State.insertCard
  split
  · refine .trans ?_ (chooseWork_inner _ _)
    exact setSlot_inner _ _ _ rfl rfl fun _ => ⟨Nat.zero_le _, Nat.zero_le _⟩
  · exact .refl s

/-! ### Send queues -/

theorem modRelay_inner (s : State) (n : Nat) (st : RelayState) (f : RelayEntry → RelayEntry) :
    Inner s (s.modRelay n st f) := by
  unfold State.modRelay
  refine .trans ?_ (modRecord_inner _ _ _)
  exact .plain rfl rfl rfl rfl rfl fun h =>
    { h with relay := by simpa [modRelayList] using h.relay }

theorem removeRelay_inner (s : State) (n : Nat) (st : RelayState) : Inner s (s.removeRelay n st) :=
  (filterRelay_inner s _).trans (modRecord_inner _ _ _)

theorem appendRelay_inner (s : State) (r : Record) (c : SendClass) (h : s.snq.relay.length < 32) :
    Inner s (s.appendRelay r c) := by
  unfold State.appendRelay
  simp only
  have base : ∀ e : RelayEntry, Inner s { s with snq := { s.snq with relay := s.snq.relay ++ [e] } } :=
    fun e => .plain rfl rfl rfl rfl rfl fun k => { k with relay := by simp; omega }
  split
  · exact (base _).trans ((modRecord_inner _ _ _).trans (notify_inner _ _ _))
  · exact (base _).trans ((modRecord_inner _ _ _).trans ((relayWantsProof_inner _ _).trans
      (admitAuto_inner _)))

theorem relayReady_inner (s : State) (n : Nat) : Inner s (s.relayReady n) := by
  unfold State.relayReady
  split
  · exact .refl s
  · split
    · refine .trans ?_ (notify_inner _ _ _)
      exact .plain rfl rfl rfl rfl rfl fun h =>
        { h with relay := by simpa [modRelayList] using h.relay }
    · exact .refl s

theorem removeTether_inner (s : State) (n : Nat) (st : TetherState) : Inner s (s.removeTether n st) :=
  (filterTether_inner s _).trans (modRecord_inner _ _ _)

theorem autoTransfer_inner (s : State) (n : Nat) : Inner s (s.autoTransfer n) := by
  unfold State.autoTransfer
  split
  · split
    · rename_i h
      refine .trans ?_ ((modRecord_inner _ _ _).trans (notify_inner _ _ _))
      exact .plain rfl rfl rfl rfl rfl fun k => { k with tether := by simp; omega }
    · exact (modRecord_inner _ _ _).trans ((notify_inner _ _ _).trans (notify_inner _ _ _))
  · exact .refl s

end Sys2Proof.Machine
end

