-- ==== Sys2Proof/Laws/Requests.lean ====
section
/-! SUPPORT. What taking a request does, said once: the four cases of R150 and the place of a reply. -/
set_option Elab.async false
namespace Sys2Proof.Machine

/-- Of a list without places the appended place is the one filled (R150). -/
theorem fillPlace_append (l : List ReplyEntry) (r : Reply) (h : noPlace l = true) :
    fillPlace (l ++ [.place]) r = l ++ [.formed r true] := by
  induction l with
  | nil => rfl
  | cons e rest ih =>
    cases e with
    | place => simp [noPlace] at h
    | formed q own =>
      have : noPlace rest = true := by simpa [noPlace] using h
      simp [fillPlace, ih this]

/-- A list without places is not changed by filling. -/
theorem fillPlace_none (l : List ReplyEntry) (r : Reply) (h : noPlace l = true) :
    fillPlace l r = l := by
  induction l with
  | nil => rfl
  | cons e rest ih =>
    cases e with
    | place => simp [noPlace] at h
    | formed q own =>
      have : noPlace rest = true := by simpa [noPlace] using h
      simp [fillPlace, ih this]

theorem fillPlace_length (l : List ReplyEntry) (r : Reply) : (fillPlace l r).length = l.length := by
  induction l with
  | nil => rfl
  | cons e rest ih => cases e <;> simp [fillPlace, ih]

/-- Case 4 of R150: the request is taken and served. -/
theorem takeRequest_served {s : State} {p : Port} {k : RequestKind} (h : Accepts s p k) (tag : Byte)
    (serve : State → State × Served) :
    s.takeRequest p tag k serve =
      (serve (s.openRequest p k tag)).1.settleRequest p (serve (s.openRequest p k tag)).2 := by
  have h1 : ¬ (!s.hears p) = true := by simp [h.hears]
  have h2 : ¬ 5 ≤ (s.port p).replies.length := Nat.not_le.mpr h.room
  have h3 : ¬ (s.port p).request.isSome = true := by simp [h.free]
  have h4 : ¬ (!permitted k p s.prt.remoteDelete) = true := by simp [h.may]
  unfold State.takeRequest
  rw [if_neg h1, if_neg h2, if_neg h3, if_neg h4]

/-- The reply of a request that is served at once, on the state its block leaves. -/
theorem formReply_opened (s u : State) (p : Port) (k : RequestKind) (tag : Byte) (st : Status)
    (pl : Payload) (hr : (u.port p).request = some ⟨k, tag, .answered⟩)
    (hl : (u.port p).replies = (s.port p).replies ++ [.place])
    (hp : noPlace (s.port p).replies = true) :
    u.formReply p st pl =
      u.setPort p { u.port p with
        request := some ⟨k, tag, .answered⟩,
        replies := (s.port p).replies ++ [.formed ⟨.request k, tag, st, pl⟩ true] } := by
  unfold State.formReply
  rw [hr]
  simp only
  rw [hl, fillPlace_append _ _ hp]

/-- A request whose service leaves its port's list as `openRequest` made it is replied in place. -/
theorem takeRequest_replied {s : State} {p : Port} {k : RequestKind} (h : Accepts s p k) (tag : Byte)
    (serve : State → State × Served) (u : State) (st : Status) (pl : Payload)
    (hs : serve (s.openRequest p k tag) = (u, .answer st pl))
    (hr : (u.port p).request = some ⟨k, tag, .answered⟩)
    (hl : (u.port p).replies = (s.port p).replies ++ [.place]) :
    s.takeRequest p tag k serve = u.setPort p { u.port p with
        request := some ⟨k, tag, .answered⟩,
        replies := (s.port p).replies ++ [.formed ⟨.request k, tag, st, pl⟩ true] } := by
  rw [takeRequest_served h, hs]
  exact formReply_opened s u p k tag st pl hr hl h.places

/-- A request answered with nothing else changed. -/
theorem takeRequest_plain {s : State} {p : Port} {k : RequestKind} (h : Accepts s p k) (tag : Byte)
    (serve : State → State × Served) (st : Status) (pl : Payload)
    (hs : serve (s.openRequest p k tag) = (s.openRequest p k tag, .answer st pl)) :
    s.takeRequest p tag k serve = answered s p k tag st pl := by
  rw [takeRequest_replied h tag serve _ st pl hs (by simp [State.openRequest])
    (by simp [State.openRequest])]
  simp [State.openRequest, answered]

/-- A request whose block changes the state outside the ports. -/
theorem takeRequest_updated {s : State} {p : Port} {k : RequestKind} (h : Accepts s p k) (tag : Byte)
    (serve : State → State × Served) (t : State) (st : Status) (pl : Payload)
    (hs : serve (s.openRequest p k tag) = (t.openRequest p k tag, .answer st pl))
    (hp : t.port p = s.port p) :
    s.takeRequest p tag k serve = answered t p k tag st pl := by
  rw [takeRequest_replied h tag serve _ st pl hs (by simp [State.openRequest])
    (by simp [State.openRequest, hp])]
  simp [State.openRequest, answered, hp]

/-- A request that is replied after operations that leave the ports alone but for notices. -/
theorem takeRequest_inner {s : State} {p : Port} {k : RequestKind} (h : Accepts s p k) (tag : Byte)
    (serve : State → State × Served) (u : State) (st : Status) (pl : Payload)
    (hs : serve (s.openRequest p k tag) = (u, .answer st pl))
    (hi : SamePorts (s.openRequest p k tag) u) :
    RepliedIn s (s.takeRequest p tag k serve) p k tag st pl := by
  have q := hi.port p
  have e := takeRequest_replied h tag serve u st pl hs
    (by rw [q.request]; simp [State.openRequest]) (by rw [q.replies]; simp [State.openRequest])
  rw [e]
  constructor <;> simp

/-- Case 1 of R150: a list of 5 entries drops the frame. -/
theorem takeRequest_full (s : State) (p : Port) (tag : Byte) (k : RequestKind)
    (serve : State → State × Served) (h : 5 ≤ (s.port p).replies.length) :
    s.takeRequest p tag k serve = s := by
  unfold State.takeRequest
  by_cases hh : (!s.hears p) = true
  · rw [if_pos hh]
  · rw [if_neg hh, if_pos h]

/-- A port that does not hear its master takes nothing (R147, R149). -/
theorem takeRequest_deaf (s : State) (p : Port) (tag : Byte) (k : RequestKind)
    (serve : State → State × Served) (h : s.hears p = false) : s.takeRequest p tag k serve = s := by
  unfold State.takeRequest
  rw [if_pos (by simp [h])]

/-- Case 2 of R150: BUSY while a request is outstanding. -/
theorem takeRequest_busy (s : State) (p : Port) (tag : Byte) (k : RequestKind)
    (serve : State → State × Served) (hh : s.hears p = true)
    (hl : (s.port p).replies.length < 5) (hr : (s.port p).request.isSome = true) :
    s.takeRequest p tag k serve = s.answerFrame p (.request k) tag .busy := by
  unfold State.takeRequest
  rw [if_neg (by simp [hh]), if_neg (Nat.not_le.mpr hl), if_pos hr]

/-- Case 3 of R150: DENIED for a request the port may not send. -/
theorem takeRequest_denied (s : State) (p : Port) (tag : Byte) (k : RequestKind)
    (serve : State → State × Served) (hh : s.hears p = true)
    (hl : (s.port p).replies.length < 5) (hr : (s.port p).request = none)
    (hd : permitted k p s.prt.remoteDelete = false) :
    s.takeRequest p tag k serve = s.answerFrame p (.request k) tag .denied := by
  unfold State.takeRequest
  rw [if_neg (by simp [hh]), if_neg (Nat.not_le.mpr hl), if_neg (by simp [hr]),
    if_pos (by simp [hd])]

end Sys2Proof.Machine
end

