-- ==== Sys2Proof/Laws/Calm.lean ====
section
/-! SUPPORT. What a cascade leaves alone: `Calm s t` says that releases, repeated stalls, attempts to
start a job and grants of the arbiter change no record's tags, copies or sending state, no slot, no
relay entry, no power state and no correlator register, and only remove tether entries; `Quiet s t`
adds that without a stall the sequencer, the focus drive and the link stay. One lemma for each
operation of such a cascade. -/
set_option Elab.async false
namespace Sys2Proof.Machine

/-- The fields of a record that a cascade does not change. -/
structure RecordView where
  shot : Nat
  burst : Nat
  frame : Nat
  origin : Origin
  stamp : Option Time
  wanted : Option Wanted
  focus : Option FocusRecord
  copies : Copies
  tags : Tags
  relay : RelayState
  deriving DecidableEq, Repr

def Record.view (r : Record) : RecordView :=
  ⟨r.shot, r.burst, r.frame, r.origin, r.stamp, r.wanted, r.focus, r.copies, r.tags, r.relay⟩

/-- The fields of a job that a cascade does not change. -/
structure JobView where
  number : Nat
  shot : Nat
  recipe : Nat
  origin : JobOrigin
  asking : List Port
  cardMark : Bool
  relayMark : Bool
  deriving DecidableEq, Repr

def Job.view (j : Job) : JobView :=
  ⟨j.number, j.shot, j.recipe, j.origin, j.asking, j.cardMark, j.relayMark⟩

/-- Shot numbers are only issued upward until they are exhausted. -/
def Later (a b : Nat) : Prop := a < 2 ^ 32 → b < 2 ^ 32 ∧ (b = 0 ∨ a ≠ 0 ∧ a ≤ b)

/-- Every record is one that was there, or took a number issued since. -/
def Kin (s t : State) : Prop :=
  s.nextShot < 2 ^ 32 → ∀ r, r ∈ t.catalog →
    (∃ q, q ∈ s.catalog ∧ r.view = q.view) ∨
      (s.nextShot ≠ 0 ∧ s.nextShot ≤ r.shot ∧ r.copies = Copies.none)

/-- What a cascade leaves alone. -/
structure Calm (s t : State) : Prop where
  phc : t.phc = s.phc
  med : t.med = s.med
  pwc : t.pwc = s.pwc
  relay : t.snq.relay = s.snq.relay
  auto : t.snq.auto = s.snq.auto
  policy : t.snq.policy = s.snq.policy
  tether : ∀ e, e ∈ t.snq.tether → e ∈ s.snq.tether
  freeCount : t.freeCount = s.freeCount
  jobs : t.dev.queue.map Job.view = s.dev.queue.map Job.view
  log : t.dev.log = s.dev.log
  nextJob : t.dev.nextJob = s.dev.nextJob
  timeBase : t.rsq.timeBase = s.rsq.timeBase
  later : Later s.nextShot t.nextShot
  kin : Kin s t

theorem Later.refl (n : Nat) : Later n n := fun h => ⟨h, by omega⟩

theorem Later.trans {a b c : Nat} (h : Later a b) (k : Later b c) : Later a c := fun ha => by
  have h1 := h ha
  have h2 := k h1.1
  exact ⟨h2.1, by omega⟩

theorem Calm.trans {a b c : State} (h : Calm a b) (k : Calm b c) : Calm a c where
  phc := k.phc.trans h.phc
  med := k.med.trans h.med
  pwc := k.pwc.trans h.pwc
  relay := k.relay.trans h.relay
  auto := k.auto.trans h.auto
  policy := k.policy.trans h.policy
  tether := fun e he => h.tether e (k.tether e he)
  freeCount := k.freeCount.trans h.freeCount
  jobs := k.jobs.trans h.jobs
  log := k.log.trans h.log
  nextJob := k.nextJob.trans h.nextJob
  timeBase := k.timeBase.trans h.timeBase
  later := h.later.trans k.later
  kin := fun ha r hr => by
    have h1 := h.later ha
    rcases k.kin h1.1 r hr with ⟨q, hq, e⟩ | hn
    · rcases h.kin ha q hq with ⟨q', hq', e2⟩ | hn
      · exact .inl ⟨q', hq', Eq.trans e e2⟩
      · have : r.shot = q.shot := congrArg RecordView.shot e
        have hc : r.copies = q.copies := congrArg RecordView.copies e
        exact .inr ⟨hn.1, by omega, hc.trans hn.2.2⟩
    · exact .inr ⟨by omega, by omega, hn.2.2⟩

/-- Of a catalog that loses records and changes none of the fields in view. -/
theorem Kin.of_views {s t : State} (h : ∀ r, r ∈ t.catalog → ∃ q, q ∈ s.catalog ∧ r.view = q.view) :
    Kin s t := fun _ r hr => .inl (h r hr)

theorem Kin.of_same {s t : State} (h : t.catalog = s.catalog) : Kin s t :=
  .of_views fun r hr => ⟨r, h ▸ hr, rfl⟩

/-- An update of nothing that `Calm` speaks of. -/
theorem Calm.plain {s t : State} (h1 : t.phc = s.phc := by rfl) (h2 : t.med = s.med := by rfl)
    (h3 : t.pwc = s.pwc := by rfl) (h4 : t.snq = s.snq := by rfl)
    (h5 : t.freeCount = s.freeCount := by rfl)
    (h6 : t.dev.queue.map Job.view = s.dev.queue.map Job.view := by rfl)
    (h7 : t.dev.log = s.dev.log := by rfl) (h8 : t.dev.nextJob = s.dev.nextJob := by rfl)
    (h9 : t.nextShot = s.nextShot := by rfl) (h10 : t.catalog = s.catalog := by rfl)
    (h11 : t.rsq.timeBase = s.rsq.timeBase := by rfl) :
    Calm s t :=
  ⟨h1, h2, h3, h4 ▸ rfl, h4 ▸ rfl, h4 ▸ rfl, fun _ he => h4 ▸ he, h5, h6, h7, h8, h11,
    h9 ▸ .refl _, .of_same h10⟩

theorem Calm.refl (s : State) : Calm s s := .plain

theorem Calm.ite {s a b : State} {c : Prop} [Decidable c] (ha : Calm s a) (hb : Calm s b) :
    Calm s (if c then a else b) := by
  split <;> assumption

theorem modRecord_views (s : State) (n : Nat) (g : Record → Record)
    (hg : ∀ r, (g r).view = r.view) (r : Record) (hr : r ∈ (s.modRecord n g).catalog) :
    ∃ q, q ∈ s.catalog ∧ r.view = q.view := by
  simp only [State.modRecord, List.mem_map] at hr
  obtain ⟨q, hq, e⟩ := hr
  refine ⟨q, hq, ?_⟩
  rw [← e]
  split
  · exact hg q
  · rfl

theorem modRecord_calm (s : State) (n : Nat) (g : Record → Record)
    (hg : ∀ r, (g r).view = r.view := by intro r; rfl) : Calm s (s.modRecord n g) :=
  { (Calm.plain : Calm s { s with catalog := s.catalog }) with
    kin := .of_views (modRecord_views s n g hg) }

theorem modJob_calm (s : State) (n : Job) (g : Job → Job)
    (hg : ∀ j, (g j).view = j.view := by intro j; rfl) : Calm s (s.modJob n g) :=
  .plain (h6 := State.changeJob_map Job.view _ _ _ (hg n))

theorem setPort_calm (s : State) (p : Port) (q : PortSt) : Calm s (s.setPort p q) := by
  cases p <;> exact .plain

theorem notify_calm (s : State) (p : Port) (n : Notice) : Calm s (s.notify p n) := by
  cases p
  · exact .plain
  · unfold State.notify
    simp only
    exact .ite .plain (.refl s)
  · exact .plain

theorem notifyAll_calm (s : State) (n : Notice) : Calm s (s.notifyAll n) :=
  ((notify_calm s _ n).trans (notify_calm _ _ n)).trans (notify_calm _ _ n)

/-! ### The start of a frame -/

theorem startNext_calm (s : State) : Calm s s.startNext := by
  unfold State.startNext
  split
  · exact .refl s
  · split
    · exact .plain
    · exact .plain
    · exact .ite .plain (.refl s)

theorem queueMove_calm (s : State) (step cls : Nat) : Calm s (s.queueMove step cls) := by
  unfold State.queueMove
  refine .trans ?_ (startNext_calm _)
  exact .plain

theorem setTarget_calm (s : State) (d : Descriptor) (v : Int) (b : Bool) :
    Calm s (s.setTarget d v b) := by
  unfold State.setTarget
  simp only
  split
  · exact .plain
  · refine .trans ?_ (queueMove_calm _ _ _)
    exact .plain

theorem applyPrediction_calm (s : State) (d : Descriptor) : Calm s (s.applyPrediction d) := by
  unfold State.applyPrediction
  split
  · exact .refl s
  · exact setTarget_calm _ _ _ _

theorem giveMidpoint_calm (s : State) (mid : Time) : Calm s (s.giveMidpoint mid) := by
  have base : Calm s { s with fdr := { s.fdr with nextMid := mid } } := .plain
  unfold State.giveMidpoint
  simp only
  split
  · split
    · exact base.trans (applyPrediction_calm _ _)
    · exact base
  · exact base

theorem exposureStart_calm (s : State) (mid : Time) : Calm s (s.exposureStart mid) := by
  unfold State.exposureStart
  simp only
  split
  · refine .trans ?_ (startNext_calm _)
    exact .plain
  · exact .plain

theorem enterExpose_calm (s : State) : Calm s s.enterExpose := by
  unfold State.enterExpose
  split
  · exact .refl s
  · refine .trans ?_ ((exposureStart_calm _ _).trans (giveMidpoint_calm _ _))
    exact .plain

theorem stall_calm (s : State) (r : StallReason) : Calm s (s.stall r) := by
  unfold State.stall
  split
  · exact .refl s
  · refine .trans ?_ (notify_calm _ _ _)
    exact .plain

theorem markAttempt_calm (s : State) : Calm s s.markAttempt := .plain

theorem focusDecision_calm (s : State) : Calm s s.focusDecision := by
  unfold State.focusDecision
  exact .ite .plain (enterExpose_calm s)

theorem retire_calm (s : State) : Calm s s.retire := by
  unfold State.retire
  split
  · exact .refl s
  · split
    · exact .refl s
    · refine .trans ?_ (notifyAll_calm _ _)
      exact { (Calm.plain : Calm s s) with
        kin := .of_views fun r hr => ⟨r, (dropOldest_sublist _).subset hr, rfl⟩ }

theorem createRecord_calm (s : State) (es left : List Run) (hr : s.catalogRoom = true) :
    Calm s (s.createRecord es left) := by
  have h1 := retire_calm s
  have h0 : s.nextShot ≠ 0 := by
    simp only [State.catalogRoom, Bool.and_eq_true, bne_iff_ne] at hr
    exact hr.1
  have hn := retire_nextShot s
  refine .trans h1 ?_
  have : Calm s.retire s.retire := .refl _
  unfold State.createRecord
  exact { this with
    later := fun h => by
      show State.nextShotNumber s.retire.nextShot < 2 ^ 32 ∧ _
      have : State.nextShotNumber s.retire.nextShot = 0 ∨
          State.nextShotNumber s.retire.nextShot = s.retire.nextShot + 1 := by
        unfold State.nextShotNumber
        omega
      refine ⟨by unfold State.nextShotNumber; omega, ?_⟩
      show State.nextShotNumber s.retire.nextShot = 0 ∨ _ ∧ _ ≤ State.nextShotNumber s.retire.nextShot
      omega
    kin := fun _ r hr => by
      rw [List.mem_append, List.mem_singleton] at hr
      rcases hr with hr | hr
      · exact .inl ⟨r, hr, rfl⟩
      · refine .inr ⟨hn ▸ h0, ?_⟩
        rw [hr]
        exact ⟨Nat.le_refl _, rfl⟩ }

theorem requestFrame_calm (s : State) : Calm s s.requestFrame := by
  unfold State.requestFrame
  split
  · exact stall_calm _ _
  · rename_i hr
    have hr : s.catalogRoom = true := by simpa using hr
    split
    · exact stall_calm _ _
    · exact stall_calm _ _
    · simp only
      split
      · exact ((createRecord_calm _ _ _ hr).trans (focusDecision_calm _)).trans
          (markAttempt_calm _)
      · exact (createRecord_calm _ _ _ hr).trans (focusDecision_calm _)

theorem retrySpace_calm (s : State) : Calm s s.retrySpace := by
  unfold State.retrySpace
  exact .ite (requestFrame_calm s) (.refl s)

theorem retryCatalog_calm (s : State) : Calm s s.retryCatalog := by
  unfold State.retryCatalog
  exact .ite (requestFrame_calm s) (.refl s)

/-! ### Frees and releases -/

theorem free_calm (s : State) (es : List Run) : Calm s (s.free es) := by
  unfold State.free
  split
  · exact .refl s
  · refine .trans ?_ ((markAttempt_calm _).trans (retrySpace_calm _))
    exact .plain

theorem filterCatalog_calm (s : State) (f : Record → Bool) :
    Calm s { s with catalog := s.catalog.filter f } :=
  { (Calm.plain : Calm s s) with
    kin := .of_views fun r hr => ⟨r, (List.mem_filter.mp hr).1, rfl⟩ }

theorem removeRecord_calm (s : State) (n : Nat) : Calm s (s.removeRecord n) := by
  unfold State.removeRecord
  split
  · exact .refl s
  · exact (filterCatalog_calm s _).trans ((free_calm _ _).trans (retryCatalog_calm _))

theorem filterTether_calm (s : State) (f : TetherEntry → Bool) :
    Calm s { s with snq := { s.snq with tether := s.snq.tether.filter f } } :=
  { (Calm.plain : Calm s s) with
    tether := fun _ he => (List.mem_filter.mp he).1 }

theorem missTether_calm (s : State) (n : Nat) : Calm s (s.missTether n) := by
  unfold State.missTether
  split
  · exact .refl s
  · exact (filterTether_calm s _).trans ((modRecord_calm _ _ _).trans
      ((notify_calm _ _ _).trans (notify_calm _ _ _)))

theorem freeRaw_calm (s : State) (n : Nat) : Calm s (s.freeRaw n) := by
  unfold State.freeRaw
  split
  · exact .refl s
  · exact (modRecord_calm _ _ _).trans (free_calm _ _)

theorem rawTest_calm (s : State) (n : Nat) : Calm s (s.rawTest n) := by
  unfold State.rawTest
  split
  · exact .refl s
  · exact .ite ((missTether_calm _ _).trans (freeRaw_calm _ _)) (.refl s)

theorem freeVersion_calm (s : State) (n v : Nat) : Calm s (s.freeVersion n v) := by
  unfold State.freeVersion
  split
  · exact .refl s
  · exact (modRecord_calm _ _ _).trans (free_calm _ _)

theorem versionTests_calm (s : State) (n : Nat) (vs : List Nat) : Calm s (s.versionTests n vs) := by
  induction vs generalizing s with
  | nil => exact .refl s
  | cons v rest ih =>
    unfold State.versionTests
    split
    · exact .refl s
    · split
      · exact ih s
      · exact .ite ((freeVersion_calm _ _ _).trans (ih _)) (ih s)

theorem cardOnlyTest_calm (s : State) (n : Nat) : Calm s (s.cardOnlyTest n) := by
  unfold State.cardOnlyTest
  split
  · exact .refl s
  · exact .ite ((modRecord_calm _ _ _).trans (retryCatalog_calm _)) (.refl s)

theorem releaseTests_calm (s : State) (n : Nat) : Calm s (s.releaseTests n) := by
  unfold State.releaseTests
  split
  · exact .refl s
  · exact (rawTest_calm _ _).trans ((versionTests_calm _ _ _).trans (cardOnlyTest_calm _ _))

theorem releaseAll_calm (s : State) (ns : List Nat) : Calm s (s.releaseAll ns) := by
  induction ns generalizing s with
  | nil => exact .refl s
  | cons n rest ih => exact (releaseTests_calm s n).trans (ih _)

theorem settleDeleting_calm (s : State) (n : Nat) (part : Part) (v : Option Nat) :
    Calm s (s.settleDeleting n part v) := by
  unfold State.settleDeleting
  split
  · exact .refl s
  · simp only
    have base : ∀ b : Bool, Calm s
        (if b = true then s
         else match part, v with
          | .raw, _ => s.freeRaw n
          | .proof, some k => s.freeVersion n k
          | .proof, none => s) := by
      intro b
      split
      · exact .refl s
      · split
        · exact freeRaw_calm _ _
        · exact freeVersion_calm _ _ _
        · exact .refl s
    split
    · exact base _
    · exact (base _).trans (removeRecord_calm _ _)

theorem copyEnded_calm (s : State) (f : Flight) : Calm s (s.copyEnded f) := by
  unfold State.copyEnded
  split
  · exact .refl s
  · exact .ite (settleDeleting_calm _ _ _ _) (releaseTests_calm _ _)

/-! ### The end of a change -/

theorem beginRow_calm (s : State) (rec : Recipe) (c : Sum32) : Calm s (s.beginRow rec c) := .plain

theorem startJob_calm (s : State) (j : Job) (r : Record) (rec : Recipe) (es left : List Run) :
    Calm s (s.startJob j r rec es left) := by
  unfold State.startJob
  refine .trans (b := { s with freeRuns := left }) .plain
    ((modRecord_calm _ _ _).trans ((modJob_calm _ _ _).trans (beginRow_calm _ _ _)))

theorem setSpaceWait_calm (s : State) (j : Job) : Calm s (s.setSpaceWait j) := modJob_calm _ _ _

theorem tryJobs_calm (s : State) (js : List Job) : Calm s (s.tryJobs js) := by
  induction js generalizing s with
  | nil => exact .refl s
  | cons j rest ih =>
    unfold State.tryJobs
    split
    · exact ih s
    · split
      · exact ih s
      · split
        · exact ih s
        · simp only
          split
          · exact startJob_calm _ _ _ _ _ _
          · exact (setSpaceWait_calm _ _).trans (ih _)
          · exact (setSpaceWait_calm _ _).trans (ih _)

theorem attemptJob_calm (s : State) : Calm s s.attemptJob := by
  unfold State.attemptJob
  split
  · have base : Calm s { s with dev := { s.dev with attemptDue := false } } := .plain
    exact .ite (base.trans (tryJobs_calm _ _)) base
  · exact .refl s

theorem signalChanged_calm (s : State) (b : Bool) : Calm s (s.signalChanged b) := by
  unfold State.signalChanged
  split
  · simp only
    split
    · split
      · exact (markAttempt_calm _).trans (beginRow_calm _ _ _)
      · exact markAttempt_calm _
    · exact markAttempt_calm _
  · exact .refl s

theorem grant_calm (s : State) : Calm s s.grant := by
  unfold State.grant
  split
  · exact .refl s
  · split
    · exact .refl s
    · exact .plain

theorem settle_calm (s : State) : Calm s s.settle := (attemptJob_calm s).trans (grant_calm _)

theorem grant_inner (s : State) : Inner s s.grant := by
  unfold State.grant
  split
  · exact .refl s
  · split
    · exact .refl s
    · exact .plain rfl rfl rfl rfl rfl fun h => { h with }

theorem settle_inner (s : State) : Inner s s.settle := (attemptJob_inner s).trans (grant_inner _)

end Sys2Proof.Machine
end

