-- ==== Sys2Proof/Laws/Memory.lean ====
section
/-! SUPPORT. The Shot Buffer's bytes: reading after a write, and the canonical form kept by every
memory operation. -/
set_option Elab.async false
namespace Sys2Proof.Machine

theorem Memory.wfFrom_mono (m : Memory) {low low' : Nat} (h : low' ≤ low)
    (hm : Memory.wfFrom low m = true) : Memory.wfFrom low' m = true := by
  cases m with
  | nil => rfl
  | cons c rest =>
    simp only [Memory.wfFrom, Bool.and_eq_true, decide_eq_true_eq] at hm ⊢
    exact ⟨⟨Nat.le_trans h hm.1.1, hm.1.2⟩, hm.2⟩

/-- A write keeps the canonical form. -/
theorem Memory.wfFrom_write (m : Memory) (low a : Nat) (v : Byte) (ha : low ≤ a)
    (hm : Memory.wfFrom low m = true) : Memory.wfFrom low (Memory.write m a v) = true := by
  induction m generalizing low with
  | nil =>
    unfold Memory.write
    split
    · rfl
    · rename_i hv
      simp [Memory.wfFrom, ha, hv]
  | cons c rest ih =>
    obtain ⟨b, w⟩ := c
    simp only [Memory.wfFrom, Bool.and_eq_true, decide_eq_true_eq] at hm
    unfold Memory.write
    split
    · rename_i hab
      subst hab
      split
      · exact Memory.wfFrom_mono rest (Nat.le_succ_of_le ha) hm.2
      · rename_i hv
        simp [Memory.wfFrom, ha, hv, hm.2]
    · split
      · rename_i hlt
        split
        · simp only [Memory.wfFrom, Bool.and_eq_true, decide_eq_true_eq]
          exact hm
        · rename_i hv
          simp only [Memory.wfFrom, Bool.and_eq_true, decide_eq_true_eq]
          exact ⟨⟨ha, hv⟩, ⟨hlt, hm.1.2⟩, hm.2⟩
      · rename_i hne hnl
        simp only [Memory.wfFrom, Bool.and_eq_true, decide_eq_true_eq]
        exact ⟨hm.1, ih (b + 1) (by omega) hm.2⟩

theorem Memory.wf_write (m : Memory) (a : Nat) (v : Byte) (hm : Memory.wf m = true) :
    Memory.wf (Memory.write m a v) = true := Memory.wfFrom_write m 0 a v (Nat.zero_le _) hm

/-- A write of several bytes keeps the canonical form. -/
theorem Memory.wf_writeBytes (m : Memory) (a : Nat) (bs : List Byte) (hm : Memory.wf m = true) :
    Memory.wf (Memory.writeBytes m a bs) = true := by
  induction bs generalizing m a with
  | nil => exact hm
  | cons b rest ih => exact ih _ _ (Memory.wf_write m a b hm)

/-- Below its first cell a memory reads as unlisted. -/
theorem Memory.read_below (m : Memory) (low a : Nat) (h : a < low)
    (hm : Memory.wfFrom low m = true) : Memory.read m a = Memory.unlisted := by
  cases m with
  | nil => rfl
  | cons c rest =>
    obtain ⟨b, w⟩ := c
    simp only [Memory.wfFrom, Bool.and_eq_true, decide_eq_true_eq] at hm
    unfold Memory.read
    rw [if_neg (by omega), if_pos (by omega)]

/-- The byte written is the byte read. -/
theorem Memory.read_write_same (m : Memory) (low a : Nat) (v : Byte)
    (hm : Memory.wfFrom low m = true) : Memory.read (Memory.write m a v) a = v := by
  induction m generalizing low with
  | nil =>
    unfold Memory.write
    split
    · rename_i hv
      exact hv.symm
    · simp [Memory.read]
  | cons c rest ih =>
    obtain ⟨b, w⟩ := c
    simp only [Memory.wfFrom, Bool.and_eq_true, decide_eq_true_eq] at hm
    unfold Memory.write
    split
    · rename_i hab
      split
      · rename_i hv
        rw [hv]
        exact Memory.read_below rest (b + 1) a (by omega) hm.2
      · simp [Memory.read]
    · rename_i hne
      split
      · rename_i hlt
        split
        · rename_i hv
          unfold Memory.read
          rw [if_neg hne, if_pos hlt, hv]
        · simp [Memory.read]
      · rename_i hnl
        unfold Memory.read
        rw [if_neg hne, if_neg hnl]
        exact ih (b + 1) hm.2

/-- A write changes no other byte. -/
theorem Memory.read_write_other (m : Memory) (low a c : Nat) (v : Byte) (h : c ≠ a)
    (hm : Memory.wfFrom low m = true) : Memory.read (Memory.write m a v) c = Memory.read m c := by
  induction m generalizing low with
  | nil =>
    unfold Memory.write
    split
    · rfl
    · unfold Memory.read
      rw [if_neg h]
      split <;> rfl
  | cons d rest ih =>
    obtain ⟨b, w⟩ := d
    simp only [Memory.wfFrom, Bool.and_eq_true, decide_eq_true_eq] at hm
    unfold Memory.write
    split
    · rename_i hab
      subst hab
      split
      · by_cases hc : c < a
        · rw [Memory.read_below rest (a + 1) c (by omega) hm.2]
          unfold Memory.read
          rw [if_neg h, if_pos hc]
        · conv => rhs; unfold Memory.read
          rw [if_neg h, if_neg hc]
      · conv => lhs; unfold Memory.read
        conv => rhs; unfold Memory.read
        rw [if_neg h, if_neg h]
    · split
      · rename_i hlt
        split
        · rfl
        · conv => lhs; unfold Memory.read
          rw [if_neg h]
          split
          · rename_i hc
            unfold Memory.read
            rw [if_neg (by omega), if_pos (by omega)]
          · rfl
      · conv => lhs; unfold Memory.read
        conv => rhs; unfold Memory.read
        split
        · rfl
        · split
          · rfl
          · exact ih (b + 1) hm.2

/-- A write of several bytes changes no byte outside them. -/
theorem Memory.read_writeBytes_outside (m : Memory) (a c : Nat) (bs : List Byte)
    (hm : Memory.wf m = true) (h : c < a ∨ a + bs.length ≤ c) :
    Memory.read (Memory.writeBytes m a bs) c = Memory.read m c := by
  induction bs generalizing m a with
  | nil => rfl
  | cons b rest ih =>
    unfold Memory.writeBytes
    rw [ih _ _ (Memory.wf_write m a b hm) (by simp only [List.length_cons] at h; omega)]
    exact Memory.read_write_other m 0 a c b (by simp only [List.length_cons] at h; omega) hm

/-- The bytes written are the bytes read. -/
theorem Memory.read_writeBytes_inside (m : Memory) (a : Nat) (bs : List Byte) (i : Nat)
    (hm : Memory.wf m = true) (h : i < bs.length) :
    Memory.read (Memory.writeBytes m a bs) (a + i) = bs[i] := by
  induction bs generalizing m a i with
  | nil => simp at h
  | cons b rest ih =>
    unfold Memory.writeBytes
    cases i with
    | zero =>
      rw [Memory.read_writeBytes_outside _ _ _ _ (Memory.wf_write m a b hm) (by omega)]
      exact Memory.read_write_same m 0 a b hm
    | succ j =>
      have := ih (Memory.write m a b) (a + 1) j (Memory.wf_write m a b hm)
        (by simpa using h)
      rw [show a + (j + 1) = a + 1 + j by omega, this]
      simp

end Sys2Proof.Machine
end

