-- ==== Sys2Proof/Laws/Quiet.lean ====
section
/-! SUPPORT. `Front s t` says that the sequencer, the focus drive, the lens link, the send queues and
the next shot number stay: so they do at the end of every change, and, without a stall, through every
release but for tether entries (`Quiet`). -/
set_option Elab.async false
namespace Sys2Proof.Machine

/-- The sequencer is not STALLED. -/
def NotStalled (s : State) : Prop := ∀ r, s.rsq.state ≠ .stalled r

/-- The capture side of the part stays as it is. -/
structure Front (s t : State) : Prop where
  rsq : t.rsq = s.rsq
  fdr : t.fdr = s.fdr
  lnk : t.lnk = s.lnk
  nextShot : t.nextShot = s.nextShot

theorem Front.refl (s : State) : Front s s := ⟨rfl, rfl, rfl, rfl⟩

theorem Front.trans {a b c : State} (h : Front a b) (k : Front b c) : Front a c :=
  ⟨k.rsq.trans h.rsq, k.fdr.trans h.fdr, k.lnk.trans h.lnk, k.nextShot.trans h.nextShot⟩

theorem Front.ite {s a b : State} {c : Prop} [Decidable c] (ha : Front s a) (hb : Front s b) :
    Front s (if c then a else b) := by
  split <;> assumption

theorem notify_front (s : State) (p : Port) (n : Notice) : Front s (s.notify p n) := by
  cases p
  · exact ⟨rfl, rfl, rfl, rfl⟩
  · unfold State.notify
    simp only
    exact .ite ⟨rfl, rfl, rfl, rfl⟩ (.refl s)
  · exact ⟨rfl, rfl, rfl, rfl⟩

theorem notifyBodyTether_front (s : State) (n : Notice) : Front s (s.notifyBodyTether n) :=
  (notify_front s _ n).trans (notify_front _ _ n)

theorem tryJobs_front (s : State) (js : List Job) : Front s (s.tryJobs js) := by
  induction js generalizing s with
  | nil => exact .refl s
  | cons j rest ih =>
    unfold State.tryJobs
    split
    · exact ih s
    · split
      · exact ih s
      · split
        · exact ih s
        · simp only
          split
          · exact ⟨rfl, rfl, rfl, rfl⟩
          · exact Front.trans (b := s.setSpaceWait j) ⟨rfl, rfl, rfl, rfl⟩ (ih _)
          · exact Front.trans (b := s.setSpaceWait j) ⟨rfl, rfl, rfl, rfl⟩ (ih _)

theorem attemptJob_front (s : State) : Front s s.attemptJob := by
  unfold State.attemptJob
  split
  · refine .ite (.trans (b := { s with dev := { s.dev with attemptDue := false } })
      ⟨rfl, rfl, rfl, rfl⟩ (tryJobs_front _ _)) ⟨rfl, rfl, rfl, rfl⟩
  · exact .refl s

theorem grant_front (s : State) : Front s s.grant := by
  unfold State.grant
  split
  · exact .refl s
  · split
    · exact .refl s
    · exact ⟨rfl, rfl, rfl, rfl⟩

theorem settle_front (s : State) : Front s s.settle := (attemptJob_front s).trans (grant_front _)

theorem signalChanged_front (s : State) (b : Bool) : Front s (s.signalChanged b) := by
  unfold State.signalChanged
  split
  · simp only
    split
    · split
      · exact ⟨rfl, rfl, rfl, rfl⟩
      · exact ⟨rfl, rfl, rfl, rfl⟩
    · exact ⟨rfl, rfl, rfl, rfl⟩
  · exact .refl s

/-- Without a stall the capture side stays. -/
def Quiet (s t : State) : Prop := NotStalled s → Front s t

theorem Quiet.of_front {s t : State} (h : Front s t) : Quiet s t := fun _ => h

theorem Quiet.trans {a b c : State} (h : Quiet a b) (k : Quiet b c) : Quiet a c := fun q => by
  have h1 := h q
  exact h1.trans (k fun r e => q r (h1.rsq ▸ e))

theorem Quiet.ite {s a b : State} {c : Prop} [Decidable c] (ha : Quiet s a) (hb : Quiet s b) :
    Quiet s (if c then a else b) := by
  split <;> assumption

theorem Quiet.refl (s : State) : Quiet s s := .of_front (.refl s)

theorem retrySpace_quiet (s : State) : Quiet s s.retrySpace := fun h => by
  have : s.stalledForSpace = false := by
    unfold State.stalledForSpace
    split
    · rename_i e
      exact absurd e (h _)
    · rename_i e
      exact absurd e (h _)
    · rfl
  unfold State.retrySpace
  rw [this]
  exact .refl s

theorem retryCatalog_quiet (s : State) : Quiet s s.retryCatalog := fun h => by
  unfold State.retryCatalog
  rw [if_neg (h _)]
  exact .refl s

theorem free_quiet (s : State) (es : List Run) : Quiet s (s.free es) := by
  unfold State.free
  split
  · exact .refl s
  · refine .trans (b := State.markAttempt { s with freeRuns := insertRuns s.freeRuns es }) ?_
      (retrySpace_quiet _)
    exact .of_front ⟨rfl, rfl, rfl, rfl⟩

theorem removeRecord_quiet (s : State) (n : Nat) : Quiet s (s.removeRecord n) := by
  unfold State.removeRecord
  split
  · exact .refl s
  · refine .trans ?_ (retryCatalog_quiet _)
    refine .trans ?_ (free_quiet _ _)
    exact .of_front ⟨rfl, rfl, rfl, rfl⟩

theorem missTether_quiet (s : State) (n : Nat) : Quiet s (s.missTether n) := by
  unfold State.missTether
  split
  · exact .refl s
  · refine .of_front (.trans ?_ ((notify_front _ _ _).trans (notify_front _ _ _)))
    exact ⟨rfl, rfl, rfl, rfl⟩

theorem modRecord_front (s : State) (n : Nat) (g : Record → Record) : Front s (s.modRecord n g) :=
  ⟨rfl, rfl, rfl, rfl⟩

theorem freeRaw_quiet (s : State) (n : Nat) : Quiet s (s.freeRaw n) := by
  unfold State.freeRaw
  split
  · exact .refl s
  · exact .trans (.of_front (modRecord_front _ _ _)) (free_quiet _ _)

theorem rawTest_quiet (s : State) (n : Nat) : Quiet s (s.rawTest n) := by
  unfold State.rawTest
  split
  · exact .refl s
  · exact .ite ((missTether_quiet _ _).trans (freeRaw_quiet _ _)) (.refl s)

theorem freeVersion_quiet (s : State) (n v : Nat) : Quiet s (s.freeVersion n v) := by
  unfold State.freeVersion
  split
  · exact .refl s
  · exact .trans (.of_front (modRecord_front _ _ _)) (free_quiet _ _)

theorem versionTests_quiet (s : State) (n : Nat) (vs : List Nat) :
    Quiet s (s.versionTests n vs) := by
  induction vs generalizing s with
  | nil => exact .refl s
  | cons v rest ih =>
    unfold State.versionTests
    split
    · exact .refl s
    · split
      · exact ih s
      · exact .ite ((freeVersion_quiet _ _ _).trans (ih _)) (ih s)

theorem cardOnlyTest_quiet (s : State) (n : Nat) : Quiet s (s.cardOnlyTest n) := by
  unfold State.cardOnlyTest
  split
  · exact .refl s
  · exact .ite (.trans (.of_front (modRecord_front _ _ _)) (retryCatalog_quiet _)) (.refl s)

theorem releaseTests_quiet (s : State) (n : Nat) : Quiet s (s.releaseTests n) := by
  unfold State.releaseTests
  split
  · exact .refl s
  · exact (rawTest_quiet _ _).trans ((versionTests_quiet _ _ _).trans (cardOnlyTest_quiet _ _))

theorem releaseAll_quiet (s : State) (ns : List Nat) : Quiet s (s.releaseAll ns) := by
  induction ns generalizing s with
  | nil => exact .refl s
  | cons n rest ih => exact (releaseTests_quiet s n).trans (ih _)

end Sys2Proof.Machine
end

