-- ==== Sys2Proof/Laws/Outer.lean ====
section
/-! SUPPORT. What a whole command leaves alone: `Outer k s t` says that `t` has the queue of `s`, the
DRAM, the lines and the settings where `k` says so, and that every invariant of Safety.lean is kept. -/
set_option Elab.async false
namespace Sys2Proof.Machine

/-- What a command leaves alone beside the queue. -/
structure Keeps where
  dram : Bool
  pins : Bool
  settings : Bool

/-- It leaves everything of these alone. -/
def Keeps.all : Keeps := ⟨true, true, true⟩
/-- It may change settings. -/
def Keeps.sets : Keeps := ⟨true, true, false⟩
/-- It may change a line's level. -/
def Keeps.lines : Keeps := ⟨true, false, true⟩
/-- It may write the DRAM. -/
def Keeps.writes : Keeps := ⟨false, true, true⟩

/-- What a whole command leaves alone, and the invariants it keeps. -/
structure Outer (k : Keeps) (s t : State) : Prop where
  pending : t.pending = s.pending
  dram : k.dram = true → t.dram = s.dram
  pins : k.pins = true → t.pins = s.pins
  settings : k.settings = true → settings t = settings s
  mem : DramOk s → DramOk t
  caps : Caps s → Caps t
  order : CatalogOk s → CatalogOk t
  replies : RepliesOk s → RepliesOk t

theorem Outer.refl (k : Keeps) (s : State) : Outer k s s :=
  ⟨rfl, fun _ => rfl, fun _ => rfl, fun _ => rfl, id, id, id, id⟩

theorem Outer.trans {k : Keeps} {a b c : State} (h : Outer k a b) (j : Outer k b c) : Outer k a c :=
  ⟨j.pending.trans h.pending, fun e => (j.dram e).trans (h.dram e),
    fun e => (j.pins e).trans (h.pins e), fun e => (j.settings e).trans (h.settings e),
    fun x => j.mem (h.mem x), fun x => j.caps (h.caps x), fun x => j.order (h.order x),
    fun x => j.replies (h.replies x)⟩

theorem SamePorts.repliesOk {s t : State} (h : SamePorts s t) (hs : RepliesOk s) : RepliesOk t := by
  intro p
  have q := h.port p
  have k := hs p
  unfold PortSt.RepliesOk at k ⊢
  rw [q.request, q.replies]
  exact k

theorem Inner.outer {s t : State} (h : Inner s t) (k : Keeps) : Outer k s t :=
  ⟨h.pending, fun _ => h.dram, fun _ => h.pins, fun _ => h.settings,
    fun x => by unfold DramOk; rw [h.dram]; exact x, h.caps, h.order, h.ports.repliesOk⟩

theorem Outer.ite {k : Keeps} {s a b : State} {c : Prop} [Decidable c] (ha : Outer k s a)
    (hb : Outer k s b) : Outer k s (if c then a else b) := by
  split <;> assumption

/-- An update outside catalog, DRAM and ports that keeps the capacities. -/
theorem Outer.plain {k : Keeps} {s t : State} (hc : Caps s → Caps t)
    (h1 : t.pending = s.pending := by rfl) (h2 : t.dram = s.dram := by rfl)
    (h3 : k.pins = true → t.pins = s.pins := by intro _; rfl)
    (h4 : k.settings = true → Machine.settings t = Machine.settings s := by first | (intro _; rfl) | (intro h; cases h))
    (h5 : t.prt.body = s.prt.body := by rfl) (h6 : t.prt.tether = s.prt.tether := by rfl)
    (h7 : t.prt.relay = s.prt.relay := by rfl) (h8 : CatalogOk s → CatalogOk t := by exact fun h => h) :
    Outer k s t :=
  ⟨h1, fun _ => h2, h3, h4, fun x => by unfold DramOk; rw [h2]; exact x, hc, h8, fun x p => by
    cases p
    · exact (congrArg PortSt.RepliesOk h5).mpr (x .body)
    · exact (congrArg PortSt.RepliesOk h6).mpr (x .tether)
    · exact (congrArg PortSt.RepliesOk h7).mpr (x .relay)⟩

/-! ### One port -/

theorem Caps.setPort {s : State} (h : Caps s) (p : Port) (q : PortSt) (hq : (s.port p).Ok → q.Ok) :
    Caps (s.setPort p q) := by
  cases p
  · exact { h with body := hq h.body }
  · exact { h with tetherPort := hq h.tetherPort }
  · exact { h with relayPort := hq h.relayPort }

theorem Caps.port {s : State} (h : Caps s) (p : Port) : (s.port p).Ok := by
  cases p
  · exact h.body
  · exact h.tetherPort
  · exact h.relayPort

theorem setPort_settings (s : State) (p : Port) (q : PortSt) :
    settings (s.setPort p q) = settings s := by
  cases p <;> rfl

theorem RepliesOk.setPort {s : State} (h : RepliesOk s) (p : Port) (q : PortSt)
    (hq : (s.port p).RepliesOk → q.RepliesOk) : RepliesOk (s.setPort p q) := by
  intro r
  by_cases e : r = p
  · subst e
    rw [State.port_setPort_self]
    exact hq (h r)
  · rw [State.port_setPort_other _ _ _ _ e]
    exact h r

theorem setPort_outer {k : Keeps} (s : State) (p : Port) (q : PortSt) (hq : (s.port p).Ok → q.Ok)
    (hr : (s.port p).RepliesOk → q.RepliesOk) : Outer k s (s.setPort p q) :=
  ⟨by simp, fun _ => by simp, fun _ => by simp, fun _ => setPort_settings s p q,
    fun x => by unfold DramOk; rw [State.setPort_dram]; exact x,
    fun x => x.setPort p q hq, fun x => by
      unfold CatalogOk
      rw [State.setPort_catalog, State.setPort_nextShot]
      exact x, fun x => x.setPort p q hr⟩

theorem formed_places (l : List ReplyEntry) (r : Reply) (own : Bool) :
    ((l ++ [ReplyEntry.formed r own]).filter ReplyEntry.isPlace).length =
      (l.filter ReplyEntry.isPlace).length := by
  simp [ReplyEntry.isPlace]

theorem formed_owns (l : List ReplyEntry) (r : Reply) (own : Bool) :
    ((l ++ [ReplyEntry.formed r own]).filter ReplyEntry.isOwn).length =
      (l.filter ReplyEntry.isOwn).length + (if own then 1 else 0) := by
  cases own <;> simp [List.filter_cons, ReplyEntry.isOwn]

theorem place_places (l : List ReplyEntry) :
    ((l ++ [ReplyEntry.place]).filter ReplyEntry.isPlace).length =
      (l.filter ReplyEntry.isPlace).length + 1 := by
  simp [List.filter_cons, ReplyEntry.isPlace]

theorem place_owns (l : List ReplyEntry) :
    ((l ++ [ReplyEntry.place]).filter ReplyEntry.isOwn).length = (l.filter ReplyEntry.isOwn).length := by
  simp [ReplyEntry.isOwn]

theorem answerFrame_outer {k : Keeps} (s : State) (p : Port) (c : ReplyCode) (tag : Byte)
    (st : Status) : Outer k s (s.answerFrame p c tag st) := by
  unfold State.answerFrame
  split
  · exact .refl k s
  · rename_i h
    refine setPort_outer s p _ (fun x => ⟨x.notices, ?_, x.handles⟩) (fun x => ?_)
    · simp
      omega
    · unfold PortSt.RepliesOk at x ⊢
      simp only [formed_places, formed_owns]
      exact x

/-- Filling turns one place, if there is one, into the request's formed reply. -/
theorem fillPlace_counts (l : List ReplyEntry) (r : Reply) :
    ((fillPlace l r).filter ReplyEntry.isPlace).length + ((fillPlace l r).filter
        ReplyEntry.isOwn).length =
      (l.filter ReplyEntry.isPlace).length + (l.filter ReplyEntry.isOwn).length := by
  induction l with
  | nil => rfl
  | cons e rest ih =>
    cases e with
    | place =>
      simp [fillPlace, List.filter_cons, ReplyEntry.isPlace, ReplyEntry.isOwn]
      omega
    | formed q own =>
      cases own <;> simp [fillPlace, List.filter_cons, ReplyEntry.isPlace, ReplyEntry.isOwn] at ih ⊢ <;> omega

theorem formReply_outer {k : Keeps} (s : State) (p : Port) (st : Status) (pl : Payload) :
    Outer k s (s.formReply p st pl) := by
  unfold State.formReply
  split
  · exact .refl k s
  · rename_i o ho
    refine setPort_outer s p _ (fun x => ⟨x.notices, ?_, x.handles⟩) (fun x => ?_)
    · rw [fillPlace_length]
      exact x.replies
    · refine ⟨?_, fun o' e h => ?_⟩
      · have := x.1
        rw [ho] at this
        simp only
        rw [fillPlace_counts]
        exact this
      · cases e
        exact absurd rfl h

/-- The outstanding request of a port whose list has its place begins to wait. -/
theorem setStage_outer {k : Keeps} (s : State) (p : Port) (g : Stage)
    (h : ∀ o, (s.port p).request = some o →
      ((s.port p).replies.filter ReplyEntry.isOwn).length = 0) : Outer k s (s.setStage p g) := by
  unfold State.setStage
  split
  · exact .refl k s
  · rename_i o ho
    refine setPort_outer s p _ (fun x => ⟨x.notices, x.replies, x.handles⟩) (fun x => ?_)
    refine ⟨?_, fun _ _ _ => h o ho⟩
    have := x.1
    rw [ho] at this
    exact this

/-! ### Taking a request -/

/-- A block that serves a request: what it leaves alone; and, where the request waits, the ports. -/
structure Serves (k : Keeps) (serve : State → State × Served) : Prop where
  outer : ∀ s, Outer k s (serve s).1
  waits : ∀ s g, (serve s).2 = .waits g → SamePorts s (serve s).1

theorem Serves.of_inner {k : Keeps} {serve : State → State × Served}
    (h : ∀ s, Inner s (serve s).1) : Serves k serve :=
  ⟨fun s => (h s).outer k, fun s _ _ => (h s).ports⟩

/-- Laws of taking a request with its service, whatever the block. -/
theorem takeRequest_outer {k : Keeps} (s : State) (p : Port) (tag : Byte) (q : RequestKind)
    (serve : State → State × Served) (h : Serves k serve) :
    Outer k s (s.takeRequest p tag q serve) := by
  unfold State.takeRequest
  split
  · exact .refl k s
  · split
    · exact .refl k s
    · rename_i hroom
      split
      · exact answerFrame_outer s _ _ _ _
      · rename_i hnone
        split
        · exact answerFrame_outer s _ _ _ _
        · have hn : (s.port p).request = none := by
            cases e : (s.port p).request with
            | none => rfl
            | some _ => simp [e] at hnone
          have hcaps : Caps s → Caps (s.openRequest p q tag) := fun x =>
            x.setPort p _ fun y => ⟨y.notices, by simp; omega, y.handles⟩
          have hcount : RepliesOk s → (((s.openRequest p q tag).port p).replies.filter
              ReplyEntry.isPlace).length = 1 ∧ (((s.openRequest p q tag).port p).replies.filter
              ReplyEntry.isOwn).length = 0 := by
            intro x
            have y := (x p).1
            rw [hn] at y
            simp only [State.openRequest, State.port_setPort_self, place_places, place_owns]
            simp only [Option.isSome_none, Bool.false_eq_true, if_false] at y
            omega
          have hopen : Outer k s (s.openRequest p q tag) := by
            refine ⟨by simp [State.openRequest], fun _ => by simp [State.openRequest],
              fun _ => by simp [State.openRequest], fun _ => setPort_settings s p _, fun x => ?_,
              hcaps, fun x => ?_, fun x => ?_⟩
            · unfold DramOk State.openRequest
              rw [State.setPort_dram]
              exact x
            · unfold CatalogOk State.openRequest
              rw [State.setPort_catalog, State.setPort_nextShot]
              exact x
            · have c := hcount x
              refine x.setPort p _ fun _ => ⟨?_, fun o e hs => ?_⟩
              · simp only [State.openRequest, State.port_setPort_self] at c
                simp only
                rw [c.1, c.2]
                rfl
              · cases e
                exact absurd rfl hs
          have hserve := h.outer (s.openRequest p q tag)
          simp only
          cases hv : (serve (s.openRequest p q tag)).2 with
          | answer st pl => exact (hopen.trans hserve).trans (formReply_outer _ _ _ _)
          | waits g =>
            have hsame := h.waits _ g hv
            show Outer k s (State.grant (State.setStage _ p g))
            refine Outer.trans ?_ ((grant_inner _).outer k)
            have base := hopen.trans hserve
            have hstage := fun x : RepliesOk s => setStage_outer (k := k)
              (serve (s.openRequest p q tag)).1 p g (fun _ _ => by
                rw [(hsame.port p).replies]
                exact (hcount x).2)
            have frame : ∀ u : State, u.setStage p g = u ∨ ∃ r, u.setStage p g = u.setPort p
                { u.port p with request := r } := by
              intro u
              unfold State.setStage
              split
              · exact .inl rfl
              · exact .inr ⟨_, rfl⟩
            rcases frame (serve (s.openRequest p q tag)).1 with e | ⟨r, e⟩
            · rw [e]
              exact base
            · refine ⟨?_, fun c => ?_, fun c => ?_, fun c => ?_, fun x => ?_, fun x => ?_,
                fun x => ?_, fun x => (base.trans (hstage x)).replies x⟩
              · rw [e, State.setPort_pending]
                exact base.pending
              · rw [e, State.setPort_dram]
                exact base.dram c
              · rw [e, State.setPort_pins]
                exact base.pins c
              · rw [e, setPort_settings]
                exact base.settings c
              · unfold DramOk
                rw [e, State.setPort_dram]
                exact base.mem x
              · rw [e]
                exact (base.caps x).setPort p _ fun y => ⟨y.notices, y.replies, y.handles⟩
              · unfold CatalogOk
                rw [e, State.setPort_catalog, State.setPort_nextShot]
                exact base.order x

end Sys2Proof.Machine
end

