-- ==== Sys2Proof/Laws/InnerCapture.lean ====
section
/-! SUPPORT. `Inner` for the operations of the sequencer, the correlator in a frame, and power. -/
set_option Elab.async false
namespace Sys2Proof.Machine

/-! ### Frames -/

theorem emptyStore_inner (s : State) : Inner s s.emptyStore :=
  .plain rfl rfl rfl rfl rfl fun h => { h with }

theorem startPd_inner (s : State) : Inner s s.startPd :=
  .plain rfl rfl rfl rfl rfl fun h => { h with }

theorem takePair_inner (s : State) (l r : List Sample) : Inner s (s.takePair l r) := by
  unfold State.takePair
  split
  · exact .refl s
  · exact .plain rfl rfl rfl rfl rfl fun h => { h with }

theorem pdDone_inner (s : State) (f : Frame) : Inner s (s.pdDone f) := by
  unfold State.pdDone
  split
  · exact .refl s
  · dsimp only
    refine .trans ?_ (applyMeasurement_inner _ _)
    exact .plain rfl rfl rfl rfl rfl fun h => { h with }

theorem goOff_inner (s : State) (b : Bool) : Inner s (s.goOff b) := by
  unfold State.goOff
  refine .trans ?_ (dropPending_inner _)
  refine .trans ?_ (endSession_inner _)
  refine .trans ?_ (emptyStore_inner _)
  refine .trans (setSeq_inner s .off) ?_
  exact .plain rfl rfl rfl rfl rfl fun h => { h with fifo := Nat.zero_le _ }

theorem leaveOff_inner (s : State) : Inner s s.leaveOff :=
  .plain rfl rfl rfl rfl rfl fun h => { h with }

theorem abandonView_inner (s : State) : Inner s s.abandonView := by
  unfold State.abandonView
  split
  · refine .trans ?_ (emptyStore_inner _)
    exact .plain rfl rfl rfl rfl rfl fun h => { h with }
  · exact .refl s

theorem discardRsq_inner (s : State) : Inner s s.discardRsq := by
  unfold State.discardRsq
  split
  · split
    · exact .plain rfl rfl rfl rfl rfl fun h => { h with }
    · exact .refl s
  · exact .refl s

theorem discardPrt_inner (s : State) (p : Port) : Inner s (s.discardPrt p) := by
  unfold State.discardPrt
  split
  · split
    · exact .plain rfl rfl rfl rfl rfl fun h => { h with }
    · exact .refl s
  · exact .refl s

theorem emptyFifo_inner (s : State) : Inner s s.emptyFifo := by
  unfold State.emptyFifo
  refine .trans ?_ (signalChanged_inner _ _)
  refine .trans ?_ (discardRsq_inner _)
  exact .plain rfl rfl rfl rfl rfl fun h => { h with fifo := Nat.zero_le _ }

theorem abandonStill_inner (s : State) : Inner s s.abandonStill := by
  unfold State.abandonStill
  split
  · exact .refl s
  · refine .trans ?_ (removeRecord_inner _ _)
    refine .trans ?_ (emptyFifo_inner _)
    refine .trans ?_ (emptyStore_inner _)
    exact .plain rfl rfl rfl rfl rfl fun h => { h with }

theorem endView_inner (s : State) (f : Frame) : Inner s (s.endView f) := by
  unfold State.endView
  dsimp only
  refine .ite ?_ ?_
  · refine .trans ?_ (saveTest_inner _)
    refine .trans ?_ (goOff_inner _ _)
    refine .trans ?_ (giveMidpoint_inner _ _)
    exact .plain rfl rfl rfl rfl rfl fun h => { h with }
  · refine .trans ?_ (giveMidpoint_inner _ _)
    exact .plain rfl rfl rfl rfl rfl fun h => { h with }

theorem enterEntry_inner (s : State) (f : Frame) (i : Nat) : Inner s (s.enterEntry f i) := by
  unfold State.enterEntry
  split
  · split
    · split
      · exact .plain rfl rfl rfl rfl rfl fun h => { h with }
      · exact endView_inner _ _
    · refine .trans ?_ (startPd_inner _)
      exact .plain rfl rfl rfl rfl rfl fun h => { h with }
    · exact .plain rfl rfl rfl rfl rfl fun h => { h with }
    · exact .plain rfl rfl rfl rfl rfl fun h => { h with }
    · exact .plain rfl rfl rfl rfl rfl fun h => { h with }
  · split
    · exact .plain rfl rfl rfl rfl rfl fun h => { h with }
    · exact endView_inner _ _

theorem acceptBurst_inner (s : State) (o : Origin) (c e i : Nat) :
    Inner s (s.acceptBurst o c e i) := by
  unfold State.acceptBurst
  refine (abandonView_inner s).trans ?_
  exact .plain rfl rfl rfl rfl rfl fun h => { h with }

theorem triggerShutter_inner (s : State) : Inner s s.triggerShutter := by
  unfold State.triggerShutter
  exact .ite (acceptBurst_inner _ _ _ _ _) (.refl s)

theorem slaveEdge_inner (s : State) : Inner s s.slaveEdge := by
  unfold State.slaveEdge
  refine .ite (.refl s) (.ite ?_ ?_)
  · exact .plain rfl rfl rfl rfl rfl fun h => { h with }
  · exact .plain rfl rfl rfl rfl rfl fun h => { h with }

theorem holdRecord_inner (s : State) (f : Frame) (r : Record) : Inner s (s.holdRecord f r) := by
  unfold State.holdRecord
  dsimp only
  refine .trans ?_ (chooseBoth_inner _)
  refine .trans ?_ (admitAuto_inner _)
  refine .trans ?_ (releaseTests_inner _ _)
  refine .trans ?_ (notifyBodyTether_inner _ _)
  refine .trans ?_ (autoTransfer_inner _ _)
  have base := (modRecord_inner s f.shot fun q =>
    { q with life := .held, raw := { q.raw with state := .present, checksum := some s.rsq.rawSum } }).trans
      (requireCopies_inner _ f.shot .raw none)
  exact .ite (base.trans (setWanted_inner _ _ _)) base

theorem afterFrame_inner (s : State) (f : Frame) : Inner s (s.afterFrame f) := by
  unfold State.afterFrame
  dsimp only
  refine .ite ?_ (.ite ?_ (.ite ?_ ?_))
  · exact (endBurst_inner _ _).trans ((goOff_inner _ _).trans (saveTest_inner _))
  · exact (endBurst_inner _ _).trans (setSeq_inner _ _)
  · exact (endBurst_inner _ _).trans (setSeq_inner _ _)
  · refine .trans ?_ (giveMidpoint_inner _ _)
    refine .trans (setSeq_inner s .idle) ?_
    exact .plain rfl rfl rfl rfl rfl fun h => { h with }

/-! ### The link -/

theorem afterFailure_inner (s : State) (t : Transaction) : Inner s (s.afterFailure t) := by
  unfold State.afterFailure
  refine (endTransaction_inner s).trans ?_
  generalize s.endTransaction = u
  dsimp only
  have again : Inner u (if u.linkSilent = true then u else { u with lnk := { u.lnk with
      running := some t } }) :=
    .ite (.refl u) (.plain rfl rfl rfl rfl rfl fun h => { h with })
  split
  · exact again
  · exact again
  · exact again
  · exact startNext_inner u
  · exact startNext_inner u
  · refine .ite ?_ (startNext_inner u)
    refine .trans ?_ (startNext_inner _)
    exact .plain rfl rfl rfl rfl rfl fun h => { h with }

theorem linkError_inner (s : State) (t : Transaction) (e : LinkError) :
    Inner s (s.linkError t e) := by
  unfold State.linkError
  refine .trans (b := { s with lnk := { s.lnk with
      errors := s.lnk.errors + 1, lastError := some e } }) ?_ ?_
  · exact .plain rfl rfl rfl rfl rfl fun h => { h with }
  · exact .ite (linkLost_inner _ _) (afterFailure_inner _ _)

theorem goodWhere_inner (s : State) (d : List Byte) : Inner s (s.goodWhere d) := by
  unfold State.goodWhere
  dsimp only
  exact (storePosition_inner _ _ _).trans ((endTransaction_inner _).trans
    ((whereToFocus_inner _ _ _).trans (startNext_inner _)))

theorem identNext_inner (s : State) (t : Transaction) : Inner s (s.identNext t) := by
  unfold State.identNext
  refine (endTransaction_inner s).trans ?_
  generalize s.endTransaction = u
  dsimp only
  refine .ite (.refl u) ?_
  exact .plain rfl rfl rfl rfl rfl fun h => { h with }

theorem linkGood_inner (s : State) (t : Transaction) (d : List Byte) : Inner s (s.linkGood t d) := by
  unfold State.linkGood
  refine .trans (b := { s with lnk := { s.lnk with errors := 0 } }) ?_ ?_
  · exact .plain rfl rfl rfl rfl rfl fun h => { h with }
  generalize ({ s with lnk := { s.lnk with errors := 0 } } : State) = u
  dsimp only
  split
  · refine .trans ?_ (identNext_inner _ _)
    exact .plain rfl rfl rfl rfl rfl fun h => { h with }
  · split
    · exact linkLost_inner _ _
    · refine .ite ?_ (linkLost_inner _ _)
      refine .trans ?_ (identNext_inner _ _)
      exact .plain rfl rfl rfl rfl rfl fun h => { h with }
  · refine .trans ?_ (startNext_inner _)
    refine .trans ?_ (whereToFocus_inner _ _ _)
    refine .trans ?_ (focusFound_inner _)
    refine .trans ?_ (endTransaction_inner _)
    refine .trans ?_ (storePosition_inner _ _ _)
    exact .plain rfl rfl rfl rfl rfl fun h => { h with }
  · refine .trans ?_ (goodWhere_inner _ _)
    refine .ite ?_ (.refl u)
    exact .plain rfl rfl rfl rfl rfl fun h => { h with }
  · exact (endTransaction_inner _).trans (startNext_inner _)
  · exact goodWhere_inner _ _

/-! ### Power -/

theorem enterWaking_inner (s : State) (w : WakeSource) : Inner s (s.enterWaking w) :=
  .plain rfl rfl rfl rfl rfl fun h => { h with }

theorem hold_inner (s : State) (x : Held) : Inner s (s.hold x) :=
  .plain rfl rfl rfl rfl rfl fun h => { h with }

theorem serveBurst_inner (s : State) (p : Port) (f : BurstFields) : Inner s (s.serveBurst p f).1 := by
  unfold State.serveBurst
  dsimp only
  split
  · exact .refl s
  · split
    · exact acceptBurst_inner _ _ _ _ _
    · exact .refl s

theorem serveFocus_inner (s : State) (m : Option (Choice FocusMode)) :
    Inner s (s.serveFocus m).1 := by
  unfold State.serveFocus
  split
  · exact .refl s
  · dsimp only
    refine .trans ?_ (startSession_inner _)
    refine .trans ?_ (retryLost_inner _)
    exact .plain rfl rfl rfl rfl rfl fun h => { h with }

theorem wakeRequest_inner (s : State) (x : Held) (serve : State → State × Served)
    (h : Inner s (serve s).1) : Inner s (s.wakeRequest x serve).1 := by
  unfold State.wakeRequest
  split
  · exact h
  · exact .refl s
  · exact hold_inner _ _
  · split
    · exact (enterWaking_inner _ _).trans (hold_inner _ _)
    · exact .refl s

theorem halfPress_inner (s : State) : Inner s s.halfPress := by
  unfold State.halfPress
  refine (retryLost_inner s).trans ?_
  exact .ite (startSession_inner _) (.refl _)

theorem saveCapture_inner (s : State) : Inner s s.saveCapture := by
  unfold State.saveCapture
  split
  · exact goOff_inner _ _
  · exact .ite ((endBurst_inner _ _).trans (goOff_inner _ _)) (goOff_inner _ _)
  · exact (endBurst_inner _ _).trans (goOff_inner _ _)
  · exact (markExpired_inner _).trans (enterExpose_inner _)
  · exact .refl s
  · exact .refl s
  · exact .refl s
  · exact .refl s

theorem saveSlot_inner (s : State) (x : Slot) : Inner s (s.saveSlot x) := by
  unfold State.saveSlot
  split
  · exact .refl s
  · split
    · exact copyWritten_inner _ _ _ _
    · exact .refl s
    · exact .refl s

theorem clearCollector_inner (s : State) (p : Port) : Inner s (s.clearCollector p) := by
  unfold State.clearCollector
  refine .plain rfl rfl rfl rfl rfl (fun h => { h with catalog := ?_ }) fun h => ?_
  · simpa using h.catalog
  · unfold CatalogOk
    simp only [List.map_map]
    exact h

theorem orphanReinit_inner (s : State) (p : Port) : Inner s (s.orphanReinit p) := by
  cases p
  · exact .plain rfl rfl rfl rfl rfl fun h =>
      { h with slotA := ⟨h.slotA.space, h.slotA.faults⟩, slotB := ⟨h.slotB.space, h.slotB.faults⟩ }
  · exact .refl s
  · exact .refl s

/-! ### What changes ports -/

/-- A settled request that is answered. -/
theorem settle_answer_outer {k : Keeps} (s : State) (p : Port) (v : State × Served)
    (h : Inner s v.1) (st : Status) (pl : Payload) (e : v.2 = .answer st pl) :
    Outer k s (v.1.settleRequest p v.2) := by
  rw [e]
  exact (h.outer k).trans (formReply_outer _ _ _ _)

theorem serveBurst_answers (s : State) (p : Port) (f : BurstFields) :
    ∃ st pl, (s.serveBurst p f).2 = .answer st pl := by
  unfold State.serveBurst
  dsimp only
  split
  · exact ⟨_, _, rfl⟩
  · split <;> exact ⟨_, _, rfl⟩

theorem serveFocus_answers (s : State) (m : Option (Choice FocusMode)) :
    ∃ st pl, (s.serveFocus m).2 = .answer st pl := by
  unfold State.serveFocus
  split <;> exact ⟨_, _, rfl⟩

theorem serveHeld_outer {k : Keeps} (s : State) (l : List Held) : Outer k s (s.serveHeld l) := by
  induction l generalizing s with
  | nil => exact .refl k s
  | cons x rest ih =>
    cases x with
    | burst p f =>
      obtain ⟨st, pl, e⟩ := serveBurst_answers s p f
      exact (settle_answer_outer s p _ (serveBurst_inner s p f) st pl e).trans (ih _)
    | focus p m =>
      obtain ⟨st, pl, e⟩ := serveFocus_answers s m
      exact (settle_answer_outer s p _ (serveFocus_inner s m) st pl e).trans (ih _)
    | edge => exact ((triggerShutter_inner s).outer k).trans (ih _)

theorem refuseHeld_outer {k : Keeps} (s : State) (l : List Held) : Outer k s (s.refuseHeld l) := by
  induction l generalizing s with
  | nil => exact .refl k s
  | cons x rest ih =>
    cases x with
    | burst p f => exact (formReply_outer s p _ _).trans (ih _)
    | focus p m => exact (formReply_outer s p _ _).trans (ih _)
    | edge => exact ih s

theorem enterSaving_outer {k : Keeps} (s : State) : Outer k s s.enterSaving := by
  unfold State.enterSaving
  dsimp only
  have h1 : Inner s { s with pwc := { s.pwc with
      power := .saving, savedFrom := s.pwc.power, done := false, wake := none, held := [] } } :=
    .plain rfl rfl rfl rfl rfl fun h => { h with }
  refine .trans (h1.outer k) (.trans (refuseHeld_outer _ s.pwc.held) ?_)
  refine Inner.outer ?_ k
  exact (saveCapture_inner _).trans ((abortSave_inner _).trans ((saveSlot_inner _ _).trans
    ((saveSlot_inner _ _).trans (saveTest_inner _))))

theorem resetPort_outer {k : Keeps} (s : State) (p : Port) : Outer k s (s.resetPort p) := by
  unfold State.resetPort
  dsimp only
  refine .trans ?_ (setPort_outer _ _ _ (fun x => ⟨Nat.zero_le _, Nat.zero_le _, rfl⟩) (fun x => ?_))
  · refine .trans (setPort_outer s p { s.port p with handles := [none, none, none, none] }
      (fun x => ⟨x.notices, x.replies, rfl⟩) (fun x => x)) ?_
    refine Inner.outer ?_ k
    refine .trans (clearCollector_inner _ p) ?_
    refine .trans (releaseAll_inner _ (s.touchedBy p)) ?_
    refine .trans (discardPrt_inner _ p) ?_
    refine .trans (orphanReinit_inner _ p) ?_
    exact .plain rfl rfl rfl rfl rfl fun h => { h with }
  · refine ⟨rfl, fun o e => ?_⟩
    cases e

theorem endReinit_outer {k : Keeps} (s : State) (x : Slot) (st : Status) :
    Outer k s (s.endReinit x st) := by
  unfold State.endReinit
  split
  · exact .refl k s
  · have base : Inner s (s.setSlot x { s.slot x with reinit := none }) :=
      setSlot_inner_same _ _ _ rfl rfl rfl rfl
    exact .ite ((base.outer k).trans (formReply_outer _ _ _ _)) (base.outer k)

theorem removeCard_outer {k : Keeps} (s : State) (x : Slot) : Outer k s (s.removeCard x) := by
  unfold State.removeCard
  refine (endReinit_outer s x .state).trans ?_
  generalize s.endReinit x .state = u
  refine Inner.outer ?_ k
  dsimp only
  split
  · exact setSlot_inner _ _ _ rfl rfl fun h => ⟨Nat.zero_le _, h.faults⟩
  · have hslot : (u.discardMed x).slot x = u.slot x := by
      unfold State.discardMed
      split
      · split <;> rfl
      · rfl
    have base : Inner u ((u.discardMed x).setSlot x
        { u.slot x with state := .absent, space := [], flight := none }) :=
      (discardMed_inner u x).trans (setSlot_inner _ _ _ (by rw [hslot]) (by rw [hslot])
        fun h => ⟨Nat.zero_le _, by rw [hslot] at h; exact h.faults⟩)
    split
    · exact base
    · refine .ite ?_ ?_
      · refine .trans ?_ (settleDeleting_inner _ _ _ _)
        refine .trans ?_ (modCopy_inner _ _ _ _ _)
        exact base.trans (fresh_inner _)
      · exact base.trans (modCopy_inner _ _ _ _ _)

end Sys2Proof.Machine
end

