-- ==== Sys2Proof/Laws/Serves.lean ====
section
/-! SUPPORT. One lemma for each block's service of each request: what it leaves alone (`Serves`). -/
set_option Elab.async false
namespace Sys2Proof.Machine

/-! ### Services that change nothing but what is inside the part -/

theorem unlessSaving_inner (s : State) (f : State → State × Served) (h : Inner s (f s).1) :
    Inner s (unlessSaving s f).1 := by
  unfold unlessSaving
  split
  · exact .refl s
  · exact h

theorem withSlot_inner (s : State) (c : Choice Slot) (f : Slot → State × Served)
    (h : ∀ x, Inner s (f x).1) : Inner s (withSlot s c f).1 := by
  unfold withSlot
  split
  · exact .refl s
  · exact h _

theorem serveBurstStart_serves (p : Port) (f : BurstFields) {k : Keeps} :
    Serves k (serveBurstStart p f) :=
  .of_inner fun _ => wakeRequest_inner _ _ _ (serveBurst_inner _ _ _)

theorem serveBurstStop_serves {k : Keeps} : Serves k serveBurstStop :=
  .of_inner fun s => unlessSaving_inner _ _ (by
    dsimp only
    split
    · exact .refl s
    · split
      · exact endBurst_inner _ _
      · exact (endBurst_inner _ _).trans ((setSeq_inner _ _).trans (settle_inner _))
      · exact .plain rfl rfl rfl rfl rfl fun h => { h with })

theorem serveProgramRead_serves {k : Keeps} : Serves k serveProgramRead := .of_inner fun s => .refl s

theorem serveSeqHold_serves {k : Keeps} : Serves k serveSeqHold :=
  .of_inner fun s => unlessSaving_inner _ _ (by
    split
    · exact .refl s
    · exact .refl s
    · exact (endBurst_inner _ _).trans (setSeq_inner _ _)
    · exact (abandonView_inner _).trans (setSeq_inner _ _)
    · exact (endBurst_inner _ _).trans ((setSeq_inner _ _).trans (settle_inner _))
    · exact (setSeq_inner _ _).trans ((abandonStill_inner _).trans ((endBurst_inner _ _).trans
        (settle_inner _)))
    · exact (setSeq_inner _ _).trans ((abandonStill_inner _).trans ((endBurst_inner _ _).trans
        (settle_inner _)))
    · exact (setSeq_inner _ _).trans ((abandonStill_inner _).trans ((endBurst_inner _ _).trans
        (settle_inner _))))

theorem serveSeqRun_serves {k : Keeps} : Serves k serveSeqRun :=
  .of_inner fun s => unlessSaving_inner _ _ (by
    split
    · exact .refl s
    · split
      · exact .refl s
      · split
        · exact .refl s
        · exact setSeq_inner _ _)

theorem serveFocusStart_serves (p : Port) (m : Option (Choice FocusMode)) {k : Keeps} :
    Serves k (serveFocusStart p m) :=
  .of_inner fun _ => wakeRequest_inner _ _ _ (serveFocus_inner _ _)

theorem serveFocusStop_serves {k : Keeps} : Serves k serveFocusStop :=
  .of_inner fun s => endSession_inner s

theorem serveFocusResult_serves {k : Keeps} : Serves k serveFocusResult := .of_inner fun s => .refl s

theorem serveList_serves (n : Option Nat) {k : Keeps} : Serves k (serveList n) :=
  .of_inner fun s => .refl s

theorem serveInfo_serves (n : Nat) {k : Keeps} : Serves k (serveInfo n) :=
  .of_inner fun s => by
    unfold serveInfo
    split <;> exact .refl s

theorem serveRead_serves (p : Port) (h off len : Nat) {k : Keeps} : Serves k (serveRead p h off len) :=
  .of_inner fun s => by
    unfold serveRead
    split
    · exact .refl s
    · split
      · exact .refl s
      · split
        · exact .refl s
        · split <;> exact .refl s

theorem tagged_inner (s : State) (r : Record) (f : TagFields)
    (h : tagAdds (s.relayEntry r.shot) f = true → s.snq.relay.length < 32) :
    Inner s (s.tagRelay r (s.relayEntry r.shot) f) := by
  unfold State.tagRelay
  split
  · rename_i ha
    exact (appendRelay_inner _ _ _ (h ha)).trans (settle_inner _)
  · split
    · exact .refl s
    · refine .ite ?_ ?_
      · unfold State.untag
        dsimp only
        refine .trans ?_ (settle_inner _)
        refine .trans ?_ (releaseTests_inner _ _)
        exact (removeRelay_inner _ _ _).trans (modRecord_inner _ _ _)
      · exact .plain rfl rfl rfl rfl rfl fun k =>
          { k with relay := by simpa [modRelayList] using k.relay }

theorem findRecord_shot {s : State} {n : Nat} {r : Record} (h : s.findRecord n = some r) :
    r.shot = n := by
  have := List.find?_some h
  simpa using this

theorem namedRecord_shot {s : State} {n : Nat} {r : Record} (h : s.namedRecord n = some r) :
    r.shot = n := by
  unfold State.namedRecord at h
  split at h
  · rename_i q hq
    split at h
    · cases h
    · cases h
      exact findRecord_shot hq
  · cases h

theorem serveTag_serves (n : Nat) (f : TagFields) {k : Keeps} : Serves k (serveTag n f) :=
  .of_inner fun s => by
    unfold serveTag
    split
    · exact .refl s
    · split
      · exact .refl s
      · rename_i r hr
        split
        · exact .refl s
        · rename_i hnone
          have e := namedRecord_shot hr
          subst e
          dsimp only
          have step := modRecord_inner s r.shot fun q =>
            { q with tags := tagsAfter r.tags (s.relayEntry r.shot) f }
          have he : (s.modRecord r.shot fun q =>
              { q with tags := tagsAfter r.tags (s.relayEntry r.shot) f }).relayEntry r.shot =
              s.relayEntry r.shot := rfl
          rw [← he]
          refine step.trans (tagged_inner _ r f fun ha => ?_)
          rw [he] at ha
          unfold State.tagRefusal at hnone
          dsimp only at hnone
          rw [if_pos ha] at hnone
          split at hnone
          · cases hnone
          · split at hnone
            · cases hnone
            · split at hnone
              · cases hnone
              · show s.snq.relay.length < 32
                omega

theorem freeVersions_inner (s : State) (r : Record) (ns : List Nat) : Inner s (s.freeVersions r ns) := by
  induction ns generalizing s with
  | nil => exact .refl s
  | cons n rest ih =>
    unfold State.freeVersions
    exact (Inner.ite (.refl s) (freeVersion_inner _ _ _)).trans (ih _)

theorem dropEntries_inner (s : State) (n : Nat) : Inner s (s.dropEntries n) := by
  unfold State.dropEntries
  dsimp only
  have base : Inner s (if (s.relayEntry n).isSome = true then s.removeRelay n .none else s) :=
    .ite (removeRelay_inner _ _ _) (.refl s)
  exact .ite (base.trans (removeTether_inner _ _ _)) base

theorem abortDeleted_inner (s : State) (n : Nat) : Inner s (s.abortDeleted n) := by
  unfold State.abortDeleted
  split
  · exact .ite (abortJob_inner _ _ _) (.refl s)
  · exact .refl s

theorem deleteShot_inner (s : State) (r : Record) : Inner s (s.deleteShot r) := by
  unfold State.deleteShot
  dsimp only
  refine .trans ?_ (settle_inner _)
  refine .trans ?_ (saveTest_inner _)
  refine .trans ?_ (chooseBoth_inner _)
  refine .trans ?_ (admitAuto_inner _)
  refine .trans ?_ (notifyAll_inner _ _)
  have h1 := (modRecord_inner s r.shot deletedRecord).trans (dropEntries_inner _ r.shot)
  have h2 := h1.trans ((removeQueued_inner _ (((s.modRecord r.shot deletedRecord).dropEntries
    r.shot)).dev.queue r.shot).trans (abortDeleted_inner _ r.shot))
  have h3 : ∀ u : State, Inner u (u.freeDeletedRaw r) := fun u =>
    .ite (.refl u) (freeRaw_inner _ _)
  have h4 : ∀ u : State, Inner u (u.endRecord r) := fun u =>
    .ite (modRecord_inner _ _ _) (removeRecord_inner _ _)
  refine .trans ?_ (h4 _)
  refine .trans ?_ (freeVersions_inner _ _ _)
  exact h2.trans (h3 _)

theorem serveDelete_serves (n : Nat) {k : Keeps} : Serves k (serveDelete n) :=
  .of_inner fun s => by
    unfold serveDelete
    split
    · exact .refl s
    · split
      · exact .refl s
      · split
        · exact .refl s
        · split
          · exact .refl s
          · exact deleteShot_inner _ _

theorem serveDevelop_serves (p : Port) (n i : Nat) {k : Keeps} : Serves k (serveDevelop p n i) :=
  .of_inner fun s => by
    unfold serveDevelop
    split
    · exact .refl s
    · split
      · exact .refl s
      · split
        · exact .refl s
        · split
          · exact .refl s
          · split
            · exact .refl s
            · split
              · exact modJob_inner _ _ _
              · split
                · exact .refl s
                · rename_i h
                  exact (appendJob_inner _ _ _ _ _ _ _ (by omega)).trans (settle_inner _)

theorem serveDevStatus_serves (j : Option Nat) {k : Keeps} : Serves k (serveDevStatus j) :=
  .of_inner fun s => by
    unfold serveDevStatus
    split
    · exact .refl s
    · split
      · exact .refl s
      · split <;> exact .refl s

theorem serveToneRead_serves (i : Nat) {k : Keeps} : Serves k (serveToneRead i) :=
  .of_inner fun s => by
    unfold serveToneRead
    split <;> exact .refl s

theorem serveRecipeRead_serves (i : Nat) {k : Keeps} : Serves k (serveRecipeRead i) :=
  .of_inner fun s => by
    unfold serveRecipeRead
    split <;> exact .refl s

theorem serveCardSpace_serves (x : Choice Slot) (f c : Nat) {k : Keeps} :
    Serves k (serveCardSpace x f c) :=
  .of_inner fun s => withSlot_inner _ _ _ fun x => by
    split
    · exact .refl s
    · exact .refl s
    · exact .refl s
    · split
      · exact .refl s
      · split
        · exact .refl s
        · rename_i h
          refine .trans ?_ (settle_inner _)
          refine .trans ?_ (chooseWork_inner _ _)
          exact setSlot_inner _ _ _ rfl rfl fun k => ⟨by simp; omega, k.faults⟩

theorem serveCardSpaceClear_serves (x : Choice Slot) {k : Keeps} : Serves k (serveCardSpaceClear x) :=
  .of_inner fun s => withSlot_inner _ _ _ fun x => by
    split
    · exact .refl s
    · refine .trans ?_ (settle_inner _)
      refine .trans ?_ (chooseWork_inner _ _)
      exact setSlot_inner _ _ _ rfl rfl fun k => ⟨Nat.zero_le _, k.faults⟩

theorem serveSlotReset_serves (x : Choice Slot) {k : Keeps} : Serves k (serveSlotReset x) :=
  .of_inner fun s => withSlot_inner _ _ _ fun x => by
    split
    · exact .refl s
    · exact .refl s
    · exact setSlot_inner _ _ _ rfl rfl fun k => ⟨Nat.zero_le _, k.faults⟩

theorem mapCatalog_inner (s : State) (g : Record → Record) (hg : ∀ r, (g r).shot = r.shot) :
    Inner s { s with catalog := s.catalog.map g } := by
  refine .plain rfl rfl rfl rfl rfl (fun h => { h with catalog := by simpa using h.catalog })
    fun h => ?_
  unfold CatalogOk
  have : (s.catalog.map g).map Record.shot = s.catalog.map Record.shot := by
    rw [List.map_map]
    exact List.map_congr_left fun r _ => hg r
  rw [this]
  exact h

theorem dropCopies_shot (r : Record) (x : Slot) : (State.dropCopies r x).shot = r.shot := rfl

theorem moveCopies_shot (r : Record) : (State.moveCopies r).shot = r.shot := rfl

theorem serveSlotDrop_serves (x : Choice Slot) {k : Keeps} : Serves k (serveSlotDrop x) :=
  .of_inner fun s => withSlot_inner _ _ _ fun x => by
    refine .trans ?_ (settle_inner _)
    refine .trans ?_ (chooseWork_inner _ _)
    refine .trans ?_ (releaseAll_inner _ _)
    exact mapCatalog_inner _ _ fun r => dropCopies_shot r x

theorem serveSlotFull_serves (x : Choice Slot) {k : Keeps} : Serves k (serveSlotFull x) :=
  .of_inner fun s => withSlot_inner _ _ _ fun x => by
    have base : Inner s (s.setSlot x { s.slot x with state := .full }) :=
      setSlot_inner_same _ _ _ rfl rfl rfl rfl
    split
    · exact .refl s
    · exact .refl s
    · exact .refl s
    · exact .refl s
    · dsimp only
      split
      · refine .trans base ?_
        refine .trans ?_ (settle_inner _)
        refine .trans ?_ (chooseWork_inner _ _)
        exact mapCatalog_inner _ _ moveCopies_shot
      · exact base

theorem servePlacement_serves (n : Nat) {k : Keeps} : Serves k (servePlacement n) :=
  .of_inner fun s => by
    unfold servePlacement
    split <;> exact .refl s

theorem serveMediaStatus_serves {k : Keeps} : Serves k serveMediaStatus := .of_inner fun s => .refl s

theorem serveSendNext_serves {k : Keeps} : Serves k serveSendNext :=
  .of_inner fun s => by
    unfold serveSendNext
    split
    · exact .refl s
    · split
      · exact .refl s
      · split
        · exact .refl s
        · exact modRelay_inner _ _ _ _

theorem settleRelay_inner (n : Nat) (s : State) (act : RelayEntry → State)
    (h : ∀ e, Inner s (act e)) : Inner s (settleRelay n s act).1 := by
  unfold settleRelay
  split
  · exact .refl s
  · split
    · exact h _
    · exact .refl s

theorem settleTether_inner (n : Nat) (s : State) (act : TetherEntry → State)
    (h : ∀ e, Inner s (act e)) : Inner s (settleTether n s act).1 := by
  unfold settleTether
  split
  · exact .refl s
  · split
    · exact h _
    · exact .refl s

theorem serveSendDone_serves (n : Nat) {k : Keeps} : Serves k (serveSendDone n) :=
  .of_inner fun _ => settleRelay_inner _ _ _ fun _ =>
    (removeRelay_inner _ _ _).trans ((releaseTests_inner _ _).trans (settle_inner _))

theorem serveSendFail_serves (n : Nat) {k : Keeps} : Serves k (serveSendFail n) :=
  .of_inner fun _ => settleRelay_inner _ _ _ fun _ => .ite
    ((modRelay_inner _ _ _ _).trans ((notify_inner _ _ _).trans ((releaseTests_inner _ _).trans
      (settle_inner _))))
    ((removeRelay_inner _ _ _).trans ((notify_inner _ _ _).trans ((releaseTests_inner _ _).trans
      (settle_inner _))))

theorem modTether_inner (s : State) (n : Nat) (st : TetherState) (f : TetherEntry → TetherEntry) :
    Inner s (s.modTether n st f) := by
  unfold State.modTether
  refine .trans ?_ (modRecord_inner _ _ _)
  exact .plain rfl rfl rfl rfl rfl fun h =>
    { h with tether := by simpa [modTetherList] using h.tether }

theorem serveTransferNext_serves {k : Keeps} : Serves k serveTransferNext :=
  .of_inner fun s => by
    unfold serveTransferNext
    split
    · exact .refl s
    · split
      · exact .refl s
      · exact modTether_inner _ _ _ _

theorem serveTransferDone_serves (n : Nat) {k : Keeps} : Serves k (serveTransferDone n) :=
  .of_inner fun _ => settleTether_inner _ _ _ fun _ =>
    (removeTether_inner _ _ _).trans ((releaseTests_inner _ _).trans (settle_inner _))

theorem serveTransferFail_serves (n : Nat) {k : Keeps} : Serves k (serveTransferFail n) :=
  .of_inner fun _ => settleTether_inner _ _ _ fun _ => .ite
    ((modTether_inner _ _ _ _).trans ((notify_inner _ _ _).trans ((releaseTests_inner _ _).trans
      (settle_inner _))))
    ((removeTether_inner _ _ _).trans ((notify_inner _ _ _).trans ((notify_inner _ _ _).trans
      ((releaseTests_inner _ _).trans (settle_inner _)))))

theorem serveTetherQueueClear_serves {k : Keeps} : Serves k serveTetherQueueClear :=
  .of_inner fun s => by
    unfold serveTetherQueueClear
    dsimp only
    refine .trans ?_ (settle_inner _)
    refine .trans ?_ (releaseAll_inner _ _)
    refine .trans (b := { s with snq := { s.snq with tether := [] } }) ?_ ?_
    · exact .plain rfl rfl rfl rfl rfl fun h => { h with tether := Nat.zero_le _ }
    · refine mapCatalog_inner _ _ fun r => ?_
      split <;> rfl

theorem serveStandby_serves {k : Keeps} : Serves k serveStandby :=
  .of_inner fun s => by
    unfold serveStandby
    split
    · split
      · exact .refl s
      · dsimp only
        refine .trans (goOff_inner s (s.rsq.state == .hold)) ?_
        exact .plain rfl rfl rfl rfl rfl fun h => { h with }
    · exact .refl s
    · exact .refl s
    · exact .refl s

theorem resumed_inner (s : State) : Inner s s.resumed := by
  unfold State.resumed
  dsimp only
  refine .trans ?_ (settle_inner _)
  refine .trans ?_ (markAttempt_inner _)
  refine .trans ?_ (chooseBoth_inner _)
  refine .ite ?_ ?_
  · have base : Inner s ({ s with pwc := { s.pwc with power := .active, done := false } } :
        State).leaveOff := .plain rfl rfl rfl rfl rfl fun h => { h with }
    exact .ite (base.trans (startIdent_inner _)) base
  · refine .trans ?_ (enterWaking_inner _ _)
    exact .plain rfl rfl rfl rfl rfl fun h => { h with }

theorem serveResume_serves {k : Keeps} : Serves k serveResume :=
  .of_inner fun s => by
    unfold serveResume
    split
    · exact .refl s
    · exact .refl s
    · exact .refl s
    · split
      · exact .refl s
      · split
        · exact .refl s
        · exact resumed_inner s

/-! ### Services that change handles or ports -/

/-- Of a service that never waits, what it leaves alone. -/
theorem Serves.of_outer {k : Keeps} {serve : State → State × Served}
    (h : ∀ s, Outer k s (serve s).1) (hw : ∀ s g, (serve s).2 ≠ .waits g) : Serves k serve :=
  ⟨h, fun s g e => absurd e (hw s g)⟩

theorem serveStatus_serves (p : Port) {k : Keeps} : Serves k (serveStatus p) :=
  .of_outer
    (fun s => setPort_outer s p _ (fun x => ⟨x.notices, x.replies, x.handles⟩) fun x => x)
    (fun s g => by simp [serveStatus, okWith])

theorem openHandle_outer {k : Keeps} (s : State) (p : Port) (h : Handle) (c : Option Sum32) :
    Outer k s (s.openHandle p h c).1 := by
  unfold State.openHandle
  split
  · exact .refl k s
  · exact setPort_outer s p _ (fun x => ⟨x.notices, x.replies, by simpa using x.handles⟩) fun x => x

theorem openHandle_answers (s : State) (p : Port) (h : Handle) (c : Option Sum32) (g : Stage) :
    (s.openHandle p h c).2 ≠ .waits g := by
  unfold State.openHandle
  split <;> simp [refuse, okWith]

theorem collect_inner (s : State) (n v : Nat) (p : Port) : Inner s (s.collect n v p) :=
  modRecord_inner _ _ _

theorem serveOpen_serves (p : Port) (n : Nat) (part : Choice Part) {k : Keeps} :
    Serves k (serveOpen p n part) := by
  refine .of_outer (fun s => ?_) fun s g => ?_
  · unfold serveOpen
    split
    · exact .refl k s
    · split
      · exact .refl k s
      · split
        · exact .refl k s
        · split
          · split
            · exact openHandle_outer _ _ _ _
            · exact .refl k s
          · split
            · exact .refl k s
            · split
              · exact ((collect_inner _ _ _ _).outer k).trans (openHandle_outer _ _ _ _)
              · exact .refl k s
  · unfold serveOpen
    repeat' split
    all_goals first
      | exact openHandle_answers _ _ _ _ _
      | simp [refuse, badField]

theorem serveClose_serves (p : Port) (h : Nat) {k : Keeps} : Serves k (serveClose p h) := by
  refine .of_outer (fun s => ?_) fun s g => ?_
  · unfold serveClose
    split
    · exact .refl k s
    · split
      · exact .refl k s
      · refine .trans (setPort_outer s p
          { s.port p with handles := (s.port p).handles.set h none }
          (fun x => ⟨x.notices, x.replies, by simpa using x.handles⟩) fun x => x) ?_
        exact ((releaseTests_inner _ _).trans (settle_inner _)).outer k
  · unfold serveClose
    repeat' split
    all_goals simp [refuse, badField, okWith]

theorem servePortReset_serves (q : Choice Port) {k : Keeps} : Serves k (servePortReset q) := by
  refine .of_outer (fun s => ?_) fun s g => ?_
  · unfold servePortReset
    split
    · exact .refl k s
    · exact (resetPort_outer s _).trans ((settle_inner _).outer k)
  · unfold servePortReset
    split <;> simp [badField, okWith]

/-! ### Services that change settings -/

theorem writeEntries_length (l : List Entry) (i : Nat) (es : List Entry) :
    (writeEntries l i es).length = l.length := by
  induction es generalizing l i with
  | nil => rfl
  | cons e rest ih => simp [writeEntries, ih]

theorem unlessSaving_answers (s : State) (f : State → State × Served) (g : Stage)
    (h : (f s).2 ≠ .waits g) : (unlessSaving s f).2 ≠ .waits g := by
  unfold unlessSaving
  split
  · simp [refuse]
  · exact h

theorem serveProgramWrite_serves (f : ProgramFields) : Serves .sets (serveProgramWrite f) := by
  refine .of_outer (fun s => ?_) fun s g => ?_
  · unfold serveProgramWrite unlessSaving
    split
    · exact .refl _ s
    · dsimp only
      split
      · exact .refl _ s
      · split
        · exact .refl _ s
        · exact .plain fun h =>
            { h with program := (writeEntries_length _ _ _).trans h.program }
  · refine unlessSaving_answers _ _ _ ?_
    dsimp only
    repeat' split
    all_goals simp [refuse, badField, okWith]

theorem serveSyncMode_serves (f : SyncFields) : Serves .sets (serveSyncMode f) := by
  refine .of_outer (fun s => ?_) fun s g => ?_
  · unfold serveSyncMode
    split
    · exact .refl _ s
    · dsimp only
      split
      · exact .refl _ s
      · exact .plain fun h => { h with }
  · unfold serveSyncMode
    repeat' split
    all_goals first
      | (simp [refuse, badField, okWith]; done)
      | (dsimp only; split <;> simp [refuse, okWith])

theorem serveCaptureSet_serves (f : CaptureFields) : Serves .sets (serveCaptureSet f) := by
  refine .of_outer (fun s => ?_) fun s g => ?_
  · unfold serveCaptureSet
    split
    · exact .refl _ s
    · dsimp only
      have base : Outer .sets s { s with rsq := { s.rsq with
          settings := captureSettings s.rsq.settings f } } := .plain fun h => { h with }
      exact .ite (base.trans ((enterExpose_inner _).outer _)) base
  · unfold serveCaptureSet
    split <;> simp [badField, okWith]

theorem watermarkOf_low (v : Nat) : 8 ≤ watermarkOf v := by
  unfold watermarkOf clamp
  omega

theorem watermarkOf_high (v : Nat) : watermarkOf v ≤ 56 := by
  unfold watermarkOf clamp
  omega

theorem serveWatermark_serves (v : Nat) : Serves .sets (serveWatermark v) := by
  refine .of_outer (fun s => ?_) fun s g => by simp [serveWatermark, okWith]
  unfold serveWatermark
  refine .trans (b := { s with rsq := { s.rsq with watermark := watermarkOf v } }) ?_ ?_
  · exact .plain fun h =>
      { h with watermarkLow := watermarkOf_low v, watermarkHigh := watermarkOf_high v }
  · exact ((signalChanged_inner _ _).trans (settle_inner _)).outer _

theorem serveFocusArea_serves (i : Nat) : Serves .sets (serveFocusArea i) := by
  refine .of_outer (fun s => ?_) fun s g => ?_
  · unfold serveFocusArea
    split
    · exact .refl _ s
    · rename_i hi
      dsimp only
      refine .trans (b := { s with fdr := { s.fdr with area := i } }) ?_ ?_
      · exact .plain fun h => { h with area := Nat.le_of_not_lt hi }
      · refine Inner.outer ?_ _
        split
        · refine .ite (.refl _) ?_
          dsimp only
          have base : Inner { s with fdr := { s.fdr with area := i } }
              { s with fdr := { s.fdr with area := i, history := [], lowCount := 0 } } :=
            .plain rfl rfl rfl rfl rfl fun h => { h with history := Nat.zero_le _ }
          exact .ite (base.trans (setFocusState_inner _ _)) base
        · refine .ite ?_ (.refl _)
          refine .trans ?_ (checkFocusWait_inner _)
          exact .plain rfl rfl rfl rfl rfl fun h => { h with }
        · exact .refl _
  · unfold serveFocusArea
    split <;> simp [badField, okWith]

theorem serveFocusSetup_serves (f : SetupFields) : Serves .sets (serveFocusSetup f) := by
  refine .of_outer (fun s => ?_) fun s g => ?_
  · unfold serveFocusSetup
    split
    · exact .refl _ s
    · exact .plain fun h => { h with }
  · unfold serveFocusSetup
    split <;> simp [badField, okWith]

theorem serveMarkerWrite_serves (f : MarkerFields) : Serves .sets (serveMarkerWrite f) := by
  refine .of_outer (fun s => ?_) fun s g => ?_
  · unfold serveMarkerWrite
    split
    · exact .refl _ s
    · exact .plain fun h => { h with }
  · unfold serveMarkerWrite
    split <;> simp [badField, okWith]

theorem serveToneWrite_serves (i first : Nat) (vs : List Nat) :
    Serves .sets (serveToneWrite i first vs) := by
  refine .of_outer (fun s => ?_) fun s g => ?_
  · unfold serveToneWrite
    split
    · exact .refl _ s
    · exact .plain fun h =>
        { h with tones := by simpa [okWith] using h.tones, jobs := by simpa [okWith] using h.jobs }
  · unfold serveToneWrite
    split <;> simp [badField, okWith]

theorem serveRecipeWrite_serves (p : Port) (i : Nat) (f : RecipeFields) :
    Serves .sets (serveRecipeWrite p i f) := by
  refine .of_outer (fun s => ?_) fun s g => ?_
  · unfold serveRecipeWrite
    split
    · exact .refl _ s
    · split
      · exact .refl _ s
      · exact .plain fun h => { h with recipes := by simpa [okWith] using h.recipes }
  · unfold serveRecipeWrite
    repeat' split
    all_goals simp [refuse, badField, okWith]

theorem serveDevSet_serves (c r : Option Nat) : Serves .sets (serveDevSet c r) := by
  refine .of_outer (fun s => ?_) fun s g => ?_
  · unfold serveDevSet
    split
    · exact .refl _ s
    · exact .plain fun h => { h with }
  · unfold serveDevSet
    split <;> simp [badField, okWith]

theorem serveSlotMode_serves (m : Choice SlotMode) : Serves .sets (serveSlotMode m) := by
  refine .of_outer (fun s => ?_) fun s g => ?_
  · unfold serveSlotMode
    split
    · exact .refl _ s
    · split
      · exact .refl _ s
      · exact .plain fun h => { h with }
  · unfold serveSlotMode
    repeat' split
    all_goals simp [refuse, badField, okWith]

theorem serveMediaSet_serves (f : MediaFields) : Serves .sets (serveMediaSet f) := by
  refine .of_outer (fun s => ?_) fun s g => ?_
  · unfold serveMediaSet
    split
    · exact .refl _ s
    · exact .plain fun h =>
        { h with slotA := ⟨h.slotA.space, h.slotA.faults⟩, slotB := ⟨h.slotB.space, h.slotB.faults⟩ }
  · unfold serveMediaSet
    split <;> simp [badField, okWith]

theorem serveSendSet_serves (f : SendSetFields) : Serves .sets (serveSendSet f) := by
  refine .of_outer (fun s => ?_) fun s g => ?_
  · unfold serveSendSet
    split
    · exact .refl _ s
    · dsimp only
      have base : Outer .sets s { s with snq := { s.snq with
          auto := pick s.snq.auto f.auto, policy := pick s.snq.policy f.policy } } :=
        .plain fun h => { h with }
      exact .ite (base.trans (((releaseAll_inner _ _).trans (settle_inner _)).outer _)) base
  · unfold serveSendSet
    split <;> simp [badField, okWith]

theorem servePortSet_serves (b : Choice Bool) : Serves .sets (servePortSet b) := by
  refine .of_outer (fun s => ?_) fun s g => ?_
  · unfold servePortSet
    split
    · exact .refl _ s
    · exact .plain fun h => { h with }
  · unfold servePortSet
    split <;> simp [badField, okWith]

theorem serveWakeSet_serves (f : WakeFields) : Serves .sets (serveWakeSet f) := by
  refine .of_outer (fun s => ?_) fun s g => ?_
  · unfold serveWakeSet
    split
    · exact .refl _ s
    · exact .plain fun h => { h with }
  · unfold serveWakeSet
    split <;> simp [badField, okWith]

end Sys2Proof.Machine
end

