-- ==== Sys2Proof/Laws/Execs.lean ====
section
/-! SUPPORT. One lemma for each command's meaning: it goes on, and what it leaves alone (`Leaves`). -/
set_option Elab.async false
namespace Sys2Proof.Machine

/-- The meaning answers a next state, and leaves alone what `k` says. -/
def Leaves (k : Keeps) (s : State) (r : Result) : Prop := ∃ t, r = .next t ∧ Outer k s t

theorem Leaves.next {k : Keeps} {s t : State} (h : Outer k s t) : Leaves k s (.next t) :=
  ⟨t, rfl, h⟩

theorem Leaves.inner {k : Keeps} {s t : State} (h : Inner s t) : Leaves k s (.next t) :=
  ⟨t, rfl, h.outer k⟩

theorem Leaves.same (k : Keeps) (s : State) : Leaves k s (.next s) := ⟨s, rfl, .refl k s⟩

theorem Leaves.ite {k : Keeps} {s : State} {a b : Result} {c : Prop} [Decidable c]
    (ha : Leaves k s a) (hb : Leaves k s b) : Leaves k s (if c then a else b) := by
  split <;> assumption

theorem Leaves.request {k : Keeps} (s : State) (p : Port) (tag : Byte) (q : RequestKind)
    {serve : State → State × Served} (h : Serves k serve) :
    Leaves k s (.next (s.takeRequest p tag q serve)) := ⟨_, rfl, takeRequest_outer s p tag q serve h⟩

/-! ### Frames of the ports -/

/-- A request named by a frame is taken: settings stay unless the request sets them. -/
theorem takeNamed_outer (s : State) (p : Port) (tag : Byte) (r : Request) :
    Outer ⟨true, true, !r.kind.sets⟩ s (s.takeNamed p tag r) := by
  cases r
  case burstStart => exact takeRequest_outer _ _ _ _ _ (serveBurstStart_serves _ _)
  case burstStop => exact takeRequest_outer _ _ _ _ _ serveBurstStop_serves
  case programWrite => exact takeRequest_outer _ _ _ _ _ (serveProgramWrite_serves _)
  case programRead => exact takeRequest_outer _ _ _ _ _ serveProgramRead_serves
  case seqHold => exact takeRequest_outer _ _ _ _ _ serveSeqHold_serves
  case seqRun => exact takeRequest_outer _ _ _ _ _ serveSeqRun_serves
  case syncMode => exact takeRequest_outer _ _ _ _ _ (serveSyncMode_serves _)
  case captureSet => exact takeRequest_outer _ _ _ _ _ (serveCaptureSet_serves _)
  case watermark => exact takeRequest_outer _ _ _ _ _ (serveWatermark_serves _)
  case focusStart => exact takeRequest_outer _ _ _ _ _ (serveFocusStart_serves _ _)
  case focusStop => exact takeRequest_outer _ _ _ _ _ serveFocusStop_serves
  case focusArea => exact takeRequest_outer _ _ _ _ _ (serveFocusArea_serves _)
  case focusSetup => exact takeRequest_outer _ _ _ _ _ (serveFocusSetup_serves _)
  case focusResult => exact takeRequest_outer _ _ _ _ _ serveFocusResult_serves
  case markerWrite => exact takeRequest_outer _ _ _ _ _ (serveMarkerWrite_serves _)
  case status => exact takeRequest_outer _ _ _ _ _ (serveStatus_serves _)
  case listRecords => exact takeRequest_outer _ _ _ _ _ (serveList_serves _)
  case info => exact takeRequest_outer _ _ _ _ _ (serveInfo_serves _)
  case openPart => exact takeRequest_outer _ _ _ _ _ (serveOpen_serves _ _ _)
  case readPart => exact takeRequest_outer _ _ _ _ _ (serveRead_serves _ _ _ _)
  case closeHandle => exact takeRequest_outer _ _ _ _ _ (serveClose_serves _ _)
  case tag => exact takeRequest_outer _ _ _ _ _ (serveTag_serves _ _)
  case delete => exact takeRequest_outer _ _ _ _ _ (serveDelete_serves _)
  case develop => exact takeRequest_outer _ _ _ _ _ (serveDevelop_serves _ _ _)
  case devStatus => exact takeRequest_outer _ _ _ _ _ (serveDevStatus_serves _)
  case toneRead => exact takeRequest_outer _ _ _ _ _ (serveToneRead_serves _)
  case toneWrite => exact takeRequest_outer _ _ _ _ _ (serveToneWrite_serves _ _ _)
  case recipeWrite => exact takeRequest_outer _ _ _ _ _ (serveRecipeWrite_serves _ _ _)
  case recipeRead => exact takeRequest_outer _ _ _ _ _ (serveRecipeRead_serves _)
  case devSet => exact takeRequest_outer _ _ _ _ _ (serveDevSet_serves _ _)
  case slotMode => exact takeRequest_outer _ _ _ _ _ (serveSlotMode_serves _)
  case mediaSet => exact takeRequest_outer _ _ _ _ _ (serveMediaSet_serves _)
  case cardSpace => exact takeRequest_outer _ _ _ _ _ (serveCardSpace_serves _ _ _)
  case cardSpaceClear => exact takeRequest_outer _ _ _ _ _ (serveCardSpaceClear_serves _)
  case slotReset => exact takeRequest_outer _ _ _ _ _ (serveSlotReset_serves _)
  case slotDrop => exact takeRequest_outer _ _ _ _ _ (serveSlotDrop_serves _)
  case slotFull => exact takeRequest_outer _ _ _ _ _ (serveSlotFull_serves _)
  case placement => exact takeRequest_outer _ _ _ _ _ (servePlacement_serves _)
  case mediaStatus => exact takeRequest_outer _ _ _ _ _ serveMediaStatus_serves
  case sendNext => exact takeRequest_outer _ _ _ _ _ serveSendNext_serves
  case sendDone => exact takeRequest_outer _ _ _ _ _ (serveSendDone_serves _)
  case sendFail => exact takeRequest_outer _ _ _ _ _ (serveSendFail_serves _)
  case transferNext => exact takeRequest_outer _ _ _ _ _ serveTransferNext_serves
  case transferDone => exact takeRequest_outer _ _ _ _ _ (serveTransferDone_serves _)
  case transferFail => exact takeRequest_outer _ _ _ _ _ (serveTransferFail_serves _)
  case sendSet => exact takeRequest_outer _ _ _ _ _ (serveSendSet_serves _)
  case tetherQueueClear => exact takeRequest_outer _ _ _ _ _ serveTetherQueueClear_serves
  case portSet => exact takeRequest_outer _ _ _ _ _ (servePortSet_serves _)
  case portReset => exact takeRequest_outer _ _ _ _ _ (servePortReset_serves _)
  case standby => exact takeRequest_outer _ _ _ _ _ serveStandby_serves
  case resume => exact takeRequest_outer _ _ _ _ _ serveResume_serves
  case wakeSet => exact takeRequest_outer _ _ _ _ _ (serveWakeSet_serves _)

theorem setDeaf_outer {k : Keeps} (s : State) (p : Port) (b : Bool) : Outer k s (s.setDeaf p b) :=
  setPort_outer s p _ (fun x => ⟨x.notices, x.replies, x.handles⟩) fun x => x

theorem answerBad_outer {k : Keeps} (s : State) (p : Port) (bs : List Byte) :
    Outer k s (s.answerBad p bs) := answerFrame_outer s _ _ _ _

theorem oversizeFrame_outer {k : Keeps} (s : State) (p : Port) (bs : List Byte) :
    Outer k s (s.oversizeFrame p bs) := (answerBad_outer s p bs).trans (setDeaf_outer _ _ _)

/-- What a frame that spells `asks` leaves alone. -/
def Keeps.frame (asks : Option Request) : Keeps :=
  ⟨true, true, match asks with
    | some r => !r.kind.sets
    | none => true⟩

theorem goodFrame_outer (s : State) (p : Port) (bs : List Byte) (asks : Option Request) :
    Outer (.frame asks) s (s.goodFrame p bs asks) := by
  unfold State.goodFrame
  split
  · exact takeNamed_outer s p _ _
  · exact answerFrame_outer s _ _ _ _

theorem execFrameReceived_leaves (s : State) (p : Port) (bs : List Byte) (asks : Option Request) :
    Leaves (.frame asks) s (execFrameReceived p bs asks s) := by
  have serial : ∀ q cs, Outer (.frame asks) s (s.serialFrame q cs asks) := fun q cs =>
    .ite (.refl _ s) (.ite (oversizeFrame_outer s q cs) (.ite (.refl _ s)
      (.ite (answerBad_outer s q cs) (goodFrame_outer s q cs asks))))
  unfold execFrameReceived
  split
  · cases p
    · exact .next (serial _ _)
    · exact .next (.ite (answerBad_outer s _ _) (goodFrame_outer s _ _ _))
    · exact .next (serial _ _)
  · exact .same _ s

theorem execSelectDeasserted_leaves {k : Keeps} (s : State) (p : Port) (bs : List Byte) :
    Leaves k s (execSelectDeasserted p bs s) := by
  unfold execSelectDeasserted
  split
  · exact .same k s
  · dsimp only
    exact .ite (.next ((setDeaf_outer s p false).trans (answerBad_outer _ _ _)))
      (.next (setDeaf_outer s p false))

theorem execOversizeHeaderReceived_leaves {k : Keeps} (s : State) (p : Port) (bs : List Byte) :
    Leaves k s (execOversizeHeaderReceived p bs s) := by
  unfold execOversizeHeaderReceived
  split
  · exact .same k s
  · exact .ite (.next (oversizeFrame_outer s p _)) (.same k s)

theorem deliverReply_ok {q : PortSt} (h : q.Ok) : q.deliverReply.Ok := by
  unfold PortSt.deliverReply
  split
  · rename_i hq
    have := h.replies
    rw [hq, List.length_cons] at this
    exact ⟨h.notices, Nat.le_of_succ_le this, h.handles⟩
  · exact h
  · exact h

theorem deliverReply_replies {q : PortSt} (h : q.RepliesOk) : q.deliverReply.RepliesOk := by
  unfold PortSt.deliverReply
  split
  · rename_i own rest hq
    obtain ⟨h1, h2⟩ := h
    rw [hq] at h1 h2
    cases own
    · exact ⟨h1, h2⟩
    · have h3 : (rest.filter ReplyEntry.isPlace).length +
          ((rest.filter ReplyEntry.isOwn).length + 1) = _ := h1
      refine ⟨?_, fun o e => ?_⟩
      · show (rest.filter ReplyEntry.isPlace).length + (rest.filter ReplyEntry.isOwn).length = 0
        split at h3 <;> omega
      · cases e
  · exact h
  · exact h

theorem execFrameDelivered_leaves {k : Keeps} (s : State) (p : Port) (w : Sent) :
    Leaves k s (execFrameDelivered p w s) := by
  unfold execFrameDelivered
  have drop : ∀ q, Outer k s (s.setPort q { s.port q with notices := (s.port q).notices.drop 1 }) :=
    fun q => setPort_outer s q _ (fun x => ⟨by simp; have := x.notices; omega, x.replies, x.handles⟩)
      fun x => x
  split
  · exact .next (setPort_outer s p _ deliverReply_ok deliverReply_replies)
  · split
    · exact .same k s
    · exact .next (drop _)

theorem execNoticeAcknowledged_leaves {k : Keeps} (s : State) :
    Leaves k s (execNoticeAcknowledged s) :=
  .next (setPort_outer s .tether _
    (fun x => ⟨by simp; have := x.notices; omega, x.replies, x.handles⟩) fun x => x)

theorem setAttached_outer {k : Keeps} (s : State) (b : Bool) :
    Outer k s { s with prt := { s.prt with attached := b } } := .plain fun h => { h with }

theorem resetTether_outer {k : Keeps} (s : State) : Outer k s (s.resetPort .tether).settle :=
  (resetPort_outer s _).trans ((settle_inner _).outer k)

theorem execTetherAttach_leaves {k : Keeps} (s : State) : Leaves k s (execTetherAttach s) := by
  unfold execTetherAttach
  split
  · exact .same k s
  · dsimp only
    have base := (resetTether_outer (k := k) s).trans (setAttached_outer _ true)
    exact .ite (.next (base.trans ((enterWaking_inner _ _).outer k))) (.next base)

theorem execTetherDetach_leaves {k : Keeps} (s : State) : Leaves k s (execTetherDetach s) := by
  unfold execTetherDetach
  exact .ite (.next ((resetTether_outer s).trans (setAttached_outer _ false))) (.same k s)

theorem execReadGathered_leaves {k : Keeps} (s : State) (p : Port) :
    Leaves k s (execReadGathered p s) := by
  unfold execReadGathered
  split
  · exact .same k s
  · split
    · exact .ite (.next (formReply_outer s p _ _)) (.same k s)
    · exact .same k s
    · exact .same k s
    · exact .same k s

/-! ### Lines and power -/

/-- A line takes a level. -/
theorem setPins_outer (s : State) (p : Pins) : Outer .lines s { s with pins := p } :=
  .plain (fun h => { h with }) (h3 := fun h => by cases h)

theorem execHalfPressAsserted_leaves (s : State) : Leaves .lines s (execHalfPressAsserted s) := by
  unfold execHalfPressAsserted
  split
  · exact .same _ s
  · dsimp only
    have base := setPins_outer s { s.pins with halfPress := true }
    split
    · exact .next (base.trans ((halfPress_inner _).outer _))
    · exact .ite (.next (base.trans ((enterWaking_inner _ _).outer _))) (.next base)
    · exact .next base
    · exact .next base

theorem execHalfPressReleased_leaves (s : State) : Leaves .lines s (execHalfPressReleased s) := by
  unfold execHalfPressReleased
  exact .ite (.next ((setPins_outer s { s.pins with halfPress := false }).trans
    ((endSession_inner _).outer _))) (.same _ s)

theorem execLensDetectAsserted_leaves (s : State) : Leaves .lines s (execLensDetectAsserted s) := by
  unfold execLensDetectAsserted
  split
  · exact .same _ s
  · dsimp only
    have base := setPins_outer s { s.pins with lens := true }
    have ident := base.trans ((startIdent_inner _).outer _)
    split
    · exact .next base
    · split
      · exact .next ident
      · exact .next ident
      · exact .next base
      · exact .next base

theorem execLensDetectDeasserted_leaves (s : State) :
    Leaves .lines s (execLensDetectDeasserted s) := by
  unfold execLensDetectDeasserted
  exact .ite (.next ((setPins_outer s { s.pins with lens := false }).trans
    ((linkAbsent_inner _).outer _))) (.same _ s)

theorem execPowerLowAsserted_leaves (s : State) : Leaves .lines s (execPowerLowAsserted s) := by
  unfold execPowerLowAsserted
  split
  · exact .same _ s
  · dsimp only
    have base := setPins_outer s { s.pins with powerLow := true }
    exact .ite (.next base) (.next (base.trans ((enterSaving_outer _).trans
      ((settle_inner _).outer _))))

theorem execPowerLowDeasserted_leaves (s : State) : Leaves .lines s (execPowerLowDeasserted s) :=
  .next (setPins_outer s { s.pins with powerLow := false })

theorem setDetect_outer (s : State) (x : Slot) (b : Bool) : Outer .lines s (s.setDetect x b) := by
  cases x <;> exact setPins_outer s _

theorem cardGone_outer (s : State) (x : Slot) : Outer .lines s (s.cardGone x) := by
  unfold State.cardGone
  exact (setDetect_outer s x false).trans ((removeCard_outer _ _).trans
    (((saveTest_inner _).trans (settle_inner _)).outer _))

theorem execCardDetectAsserted_leaves (s : State) (x : Slot) :
    Leaves .lines s (execCardDetectAsserted x s) := by
  unfold execCardDetectAsserted
  exact .ite (.same _ s) (.next ((setDetect_outer s x true).trans
    (((insertCard_inner _ _).trans (settle_inner _)).outer _)))

theorem execCardDetectDeasserted_leaves (s : State) (x : Slot) :
    Leaves .lines s (execCardDetectDeasserted x s) := by
  unfold execCardDetectDeasserted
  exact .ite (.next (cardGone_outer s x)) (.same _ s)

theorem slot_formReply (s : State) (p : Port) (st : Status) (pl : Payload) (x : Slot) :
    (s.formReply p st pl).slot x = s.slot x := by
  unfold State.formReply
  split
  · rfl
  · exact State.slot_setPort _ _ _ _

theorem resetAnswered_outer {k : Keeps} (s : State) (x : Slot) : Outer k s (s.resetAnswered x) := by
  unfold State.resetAnswered
  dsimp only
  refine (endReinit_outer s x .ok).trans ?_
  generalize s.endReinit x .ok = u
  refine Inner.outer ?_ k
  refine .trans ?_ (settle_inner _)
  refine .trans ?_ (chooseWork_inner _ _)
  exact setSlot_inner_same _ _ _ rfl rfl rfl rfl

theorem resetFailed_outer {k : Keeps} (s : State) (x : Slot) : Outer k s (s.resetFailed x) := by
  unfold State.resetFailed
  dsimp only
  refine (endReinit_outer s x .state).trans ?_
  generalize s.endReinit x .state = u
  refine Inner.outer ?_ k
  exact setSlot_inner_same _ _ _ rfl rfl rfl rfl

theorem Outer.weaken {s t : State} (h : Outer .all s t) (k : Keeps) : Outer k s t :=
  ⟨h.pending, fun _ => h.dram rfl, fun _ => h.pins rfl, fun _ => h.settings rfl, h.mem, h.caps,
    h.order, h.replies⟩

/-- What the end of a re-initialisation leaves alone: the lines but where the card is removed. -/
def Keeps.ofReset (o : ResetOutcome) : Keeps :=
  match o with
  | .answered => .all
  | .timedOut => .all
  | .removed => .lines

theorem execSlotResetDone_leaves (s : State) (x : Slot) (o : ResetOutcome) :
    Leaves (.ofReset o) s (execSlotResetDone x o s) := by
  unfold execSlotResetDone
  split
  · exact .same _ s
  · dsimp only
    split
    · exact .ite (.next (resetAnswered_outer s x)) (.next (resetFailed_outer s x))
    · exact .ite (.next (resetFailed_outer s x)) (.same _ s)
    · exact .next (cardGone_outer s x)

theorem execWakeWaitEnd_leaves {k : Keeps} (s : State) : Leaves k s (execWakeWaitEnd s) := by
  unfold execWakeWaitEnd
  split
  · rename_i w _ _
    refine .ite (.next ?_) (.same k s)
    unfold State.wakeEnded
    dsimp only
    refine .trans (b := ({ s with pwc := { s.pwc with power := .active, wake := none, held := [] } } :
      State).leaveOff) ?_ ?_
    · exact .plain fun h => { h with }
    · generalize ({ s with pwc := { s.pwc with power := .active, wake := none, held := [] } } :
        State).leaveOff = u
      have h1 : Inner u (if u.pins.lens = true then u.startIdent else u) :=
        .ite (startIdent_inner u) (.refl u)
      refine .trans (h1.outer k) ?_
      generalize (if u.pins.lens = true then u.startIdent else u) = v
      refine .trans (((notifyBodyTether_inner v (.wakeDone w.source)).outer k).trans
        (serveHeld_outer _ s.pwc.held)) ?_
      exact .ite ((halfPress_inner _).outer k) (.refl k _)
  · exact .same k s

/-! ### Link events -/

theorem execLinkReply_leaves {k : Keeps} (s : State) (cs : List LinkChar) (n : Option LinkCommand) :
    Leaves k s (execLinkReply cs n s) := by
  unfold execLinkReply
  split
  · exact .same k s
  · split
    · exact .inner (linkGood_inner _ _ _)
    · exact .inner (linkError_inner _ _ _)
    · exact .inner ((fresh_inner _).trans (linkError_inner _ _ _))

theorem execLinkReplyLate_leaves {k : Keeps} (s : State) : Leaves k s (execLinkReplyLate s) := by
  unfold execLinkReplyLate
  split
  · exact .same k s
  · exact .inner (linkError_inner _ _ _)

theorem execPollWhereDue_leaves {k : Keeps} (s : State) : Leaves k s (execPollWhereDue s) := by
  unfold execPollWhereDue
  split
  · exact .same k s
  · refine .ite (.inner (.trans ?_ (startNext_inner _))) (.same k s)
    exact .plain rfl rfl rfl rfl rfl fun h => { h with }

/-! ### Frames of the sensor -/

theorem execFrameDue_leaves {k : Keeps} (s : State) : Leaves k s (execFrameDue s) := by
  unfold execFrameDue
  refine .ite (.inner (.trans ?_ ((requestFrame_inner _).trans (settle_inner _)))) (.same k s)
  exact .plain rfl rfl rfl rfl rfl fun h => { h with }

theorem execFocusWaitTimeout_leaves {k : Keeps} (s : State) :
    Leaves k s (execFocusWaitTimeout s) := by
  unfold execFocusWaitTimeout
  split
  · exact .same k s
  · exact .ite (.inner ((markExpired_inner _).trans (enterExpose_inner _))) (.same k s)

theorem stamp_inner (s : State) (f : Frame) : Inner s (s.stamp f) := modRecord_inner _ _ _

theorem execExposureMidpoint_leaves {k : Keeps} (s : State) :
    Leaves k s (execExposureMidpoint s) := by
  unfold execExposureMidpoint
  split
  · exact .same k s
  · exact .ite (.inner (stamp_inner _ _)) (.same k s)

theorem execExposureEnd_leaves {k : Keeps} (s : State) : Leaves k s (execExposureEnd s) := by
  unfold execExposureEnd
  split
  · exact .same k s
  · split
    · dsimp only
      split
      · rename_i f _ _ _ _
        refine .inner (.trans (stamp_inner s f) ?_)
        generalize s.stamp f = u
        refine .trans ?_ (enterEntry_inner _ _ _)
        exact .plain rfl rfl rfl rfl rfl fun h => { h with }
      · exact .inner (enterEntry_inner _ _ _)
      · exact .same k s
    · exact .same k s

theorem execViewFrameStart_leaves {k : Keeps} (s : State) : Leaves k s (execViewFrameStart s) := by
  unfold execViewFrameStart
  dsimp only
  refine .ite (.inner (.trans ?_ (exposureStart_inner _ _))) (.same k s)
  exact .plain rfl rfl rfl rfl rfl fun h => { h with }

theorem execEntryEnd_leaves {k : Keeps} (s : State) : Leaves k s (execEntryEnd s) := by
  unfold execEntryEnd
  split
  · exact .same k s
  · split
    · split
      · exact .same k s
      · exact .ite (.inner (.trans (.ite (pdDone_inner _ _) (.refl s))
          ((enterEntry_inner _ _ _).trans (settle_inner _)))) (.same k s)
    · exact .same k s
    · exact .same k s

theorem execPdPair_leaves {k : Keeps} (s : State) (l r : List Sample) :
    Leaves k s (execPdPair l r s) := by
  unfold execPdPair
  split
  · exact .same k s
  · split
    · split
      · exact .same k s
      · refine .ite (.inner (.trans ?_ (takePair_inner _ _ _))) (.same k s)
        exact .plain rfl rfl rfl rfl rfl fun h => { h with }
    · exact .same k s
    · exact .same k s

theorem stillRow_inner (s : State) (f : Frame) (n : Nat) (ss : List Sample) :
    Inner s (s.stillRow f n ss) := by
  unfold State.stillRow
  split
  · rename_i h
    exact .plain rfl rfl rfl rfl rfl fun k =>
      { k with fifo := by simp only [List.length_append, List.length_singleton]
                          simp only [Config.fifoMax] at h
                          omega }
  · refine .trans (b := { s with rsq := { s.rsq with owed := s.rsq.owed ++ [n] } }) ?_
      (modRecord_inner _ _ _)
    exact .plain rfl rfl rfl rfl rfl fun h => { h with }

theorem execImageRow_leaves {k : Keeps} (s : State) (row : SensorRow) :
    Leaves k s (execImageRow row s) := by
  unfold execImageRow
  split
  · exact .same k s
  · split
    · split
      · exact .same k s
      · split
        · dsimp only
          split
          · refine .inner (.trans ?_ ((stillRow_inner _ _ _ _).trans (settle_inner _)))
            exact .plain rfl rfl rfl rfl rfl fun h => { h with }
          · exact .inner (.plain rfl rfl rfl rfl rfl fun h => { h with })
          · exact .same k s
          · exact .same k s
        · exact .same k s
    · exact .same k s
    · exact .same k s

theorem execReadoutEnd_leaves {k : Keeps} (s : State) : Leaves k s (execReadoutEnd s) := by
  unfold execReadoutEnd
  split
  · exact .same k s
  · split
    · split
      · exact .same k s
      · refine .inner (.trans ?_ ((holdRecord_inner _ _ _).trans ((afterFrame_inner _ _).trans
          (settle_inner _))))
        exact .plain rfl rfl rfl rfl rfl fun h => { h with }
    · exact .same k s

theorem execTriggerEdge_leaves {k : Keeps} (s : State) (e : Edge) :
    Leaves k s (execTriggerEdge e s) := by
  unfold execTriggerEdge
  split
  · exact .same k s
  · split
    · exact .same k s
    · exact .ite (.inner ((enterWaking_inner _ _).trans (hold_inner _ _))) (.same k s)
    · exact .ite (.same k s) (.inner (hold_inner _ _))
    · split
      · exact .inner (triggerShutter_inner s)
      · exact .inner (slaveEdge_inner s)

/-! ### Development rows -/

theorem idleEngine_inner (s : State) :
    Inner s { s with dev := { s.dev with engine := .idle, row := RowWork.none } } :=
  .plain rfl rfl rfl rfl rfl fun h => { h with }

theorem completeJob_inner (s : State) (j : Job) (rec : Recipe) (c : Sum32) :
    Inner s (s.completeJob j rec c) := by
  unfold State.completeJob
  dsimp only
  refine .trans ?_ (chooseBoth_inner _)
  refine .trans ?_ (markAttempt_inner _)
  refine .trans ?_ (admitAuto_inner _)
  refine .trans ?_ (announceJob_inner _ _ _)
  refine .trans ?_ (releaseTests_inner _ _)
  refine .trans ?_ (idleEngine_inner _)
  refine .trans ?_ (logJob_inner _ _)
  refine .trans ?_ (dropJob_inner _ _)
  have h2 : ∀ g : Record → Record, (∀ r, (g r).shot = r.shot) →
      Inner s ((s.modRecord j.shot g).relayReady j.shot) := fun g hg =>
    (modRecord_inner s j.shot g hg).trans (relayReady_inner _ _)
  refine .ite (.trans ?_ (requireCopies_inner _ _ _ _)) ?_
  · exact h2 _ fun _ => rfl
  · exact h2 _ fun _ => rfl

theorem rowOver_inner (s : State) (j : Job) (rec : Recipe) : Inner s (s.rowOver j rec) := by
  unfold State.rowOver
  dsimp only
  refine .trans (modJob_inner s j fun _ => { j with
    rowsDone := some (j.rows + 1),
    saturation := addSaturation j.saturation s.dev.row.saturation }) ?_
  refine .ite (completeJob_inner _ _ _ _) (.ite ?_ (beginRow_inner _ _ _))
  exact .plain rfl rfl rfl rfl rfl fun h => { h with }

theorem execDevRowDone_leaves {k : Keeps} (s : State) : Leaves k s (execDevRowDone s) := by
  unfold execDevRowDone
  split
  · exact .same k s
  · split
    · exact .same k s
    · exact .ite (.inner ((rowOver_inner _ _ _).trans (settle_inner _))) (.same k s)

/-! ### Card events -/

theorem slotTimeout_inner (s : State) (x : Slot) (f : Flight) : Inner s (s.slotTimeout x f) :=
  (copyFailed_inner _ _ _ _ _).trans ((saveTest_inner _).trans (settle_inner _))

theorem burstStored_inner (s : State) (x : Slot) (f : Flight) : Inner s (s.burstStored x f) := by
  unfold State.burstStored
  dsimp only
  refine .ite ((writingDone_inner _ _ _).trans ((saveTest_inner _).trans (settle_inner _))) ?_
  refine .trans ?_ (settle_inner _)
  exact setSlot_inner_same _ _ _ rfl rfl rfl rfl

theorem burstRead_inner (s : State) (x : Slot) (f : Flight) (d : List Byte) :
    Inner s (s.burstRead x f d) := by
  unfold State.burstRead
  dsimp only
  refine .ite (.ite ?_ ?_) ?_
  · exact (copyWritten_inner _ _ _ _).trans ((saveTest_inner _).trans (settle_inner _))
  · exact (copyFailed_inner _ _ _ _ _).trans ((saveTest_inner _).trans (settle_inner _))
  · exact setSlot_inner_same _ _ _ rfl rfl rfl rfl

theorem execCardBusyEnd_leaves {k : Keeps} (s : State) (x : Slot) :
    Leaves k s (execCardBusyEnd x s) := by
  unfold execCardBusyEnd
  split
  · exact .same k s
  · split
    · exact .ite (.inner (burstStored_inner _ _ _)) (.inner (slotTimeout_inner _ _ _))
    · exact .same k s
    · exact .same k s

theorem execCardTimeout_leaves {k : Keeps} (s : State) (x : Slot) :
    Leaves k s (execCardTimeout x s) := by
  unfold execCardTimeout
  split
  · exact .same k s
  · split
    · exact .ite (.inner (slotTimeout_inner _ _ _)) (.same k s)
    · exact .ite (.inner (slotTimeout_inner _ _ _)) (.same k s)
    · exact .same k s

theorem execVerifyBurstDone_leaves {k : Keeps} (s : State) (x : Slot) (d : List Byte) :
    Leaves k s (execVerifyBurstDone x d s) := by
  unfold execVerifyBurstDone
  split
  · exact .same k s
  · split
    · exact .ite (.inner (burstRead_inner _ _ _ _)) (.same k s)
    · exact .same k s
    · exact .same k s

/-! ### Full reset and the DRAM -/

/-- FULL_RESET leaves the lines and the queue alone, and keeps every invariant. -/
theorem execFullReset_leaves (s : State) : Leaves ⟨false, true, false⟩ s (execFullReset s) := by
  have base : Outer ⟨false, true, false⟩ s
      { State.reset with pins := s.pins, freeCount := s.freeCount, pending := s.pending } := by
    refine ⟨rfl, (fun h => by cases h), fun _ => rfl, (fun h => by cases h), fun _ => rfl, fun _ => ?_,
      fun _ => ?_, fun _ p => ?_⟩
    · have h : Caps State.reset :=
        ⟨by decide, by decide, by decide, by decide, rfl, by decide, by decide, rfl, rfl,
          by decide, by decide, by decide, by decide, ⟨by decide, by decide⟩,
          ⟨by decide, by decide⟩, ⟨by decide, by decide, rfl⟩, ⟨by decide, by decide, rfl⟩,
          ⟨by decide, by decide, rfl⟩⟩
      exact { h with }
    · exact (⟨by decide, List.Pairwise.nil, fun n h => by cases h⟩ : CatalogOk State.reset)
    · cases p <;> exact ⟨rfl, fun o e => by cases e⟩
  unfold execFullReset
  dsimp only
  have card : ∀ (u : State) (b : Bool) (x : Slot), Outer ⟨false, true, false⟩ s u →
      Outer ⟨false, true, false⟩ s (if b = true then u.insertCard x else u) := fun u b x h =>
    .ite (h.trans ((insertCard_inner u x).outer _)) h
  have lens : ∀ (u : State) (b : Bool), Outer ⟨false, true, false⟩ s u →
      Outer ⟨false, true, false⟩ s (if b = true then u.startIdent else u) := fun u b h =>
    .ite (h.trans ((startIdent_inner u).outer _)) h
  have low : ∀ (u : State) (b : Bool), Outer ⟨false, true, false⟩ s u →
      Outer ⟨false, true, false⟩ s (if b = true then u.enterSaving.settle else u) := fun u b h =>
    .ite (h.trans ((enterSaving_outer u).trans ((settle_inner _).outer _))) h
  exact .next (low _ _ (lens _ _ (card _ _ _ (card _ _ _ base))))

theorem rowWritten_inner (s : State) (ss : List Sample) : Inner s (s.rowWritten ss) := by
  refine .plain rfl rfl rfl rfl rfl fun h => { h with fifo := ?_ }
  have := h.fifo
  unfold State.rowWritten
  dsimp only
  split
  · exact this
  · simp only [List.length_drop]
    omega

/-- Bytes written into the DRAM. -/
theorem writeDram_outer (s : State) (a : Nat) (bs : List Byte) :
    Outer .writes s { s with dram := Memory.writeBytes s.dram a bs } :=
  ⟨rfl, (fun h => by cases h), fun _ => rfl, fun _ => rfl, fun h => Memory.wf_writeBytes _ _ _ h,
    fun h => { h with }, id, id⟩

theorem doneRsq_outer (s : State) (t : Transfer) : Outer .writes s (s.doneRsq t) := by
  unfold State.doneRsq
  split
  · exact .refl _ s
  · rename_i samples _
    dsimp only
    refine (writeDram_outer s t.addr (((packRow samples).drop s.rsq.rowBytes).take
      t.length)).trans (Inner.outer (.ite ?_ ?_) _)
    · exact .plain rfl rfl rfl rfl rfl fun h => { h with }
    · exact (rowWritten_inner _ _).trans (signalChanged_inner _ _)

theorem doneMed_inner (s : State) (x : Slot) (t : Transfer) : Inner s (s.doneMed x t) := by
  unfold State.doneMed
  split
  · exact .refl s
  · split
    · exact .refl s
    · exact .ite (setSlot_inner_same _ _ _ rfl rfl rfl rfl) (setSlot_inner_same _ _ _ rfl rfl rfl rfl)

theorem doneDevRead_inner (s : State) (t : Transfer) : Inner s (s.doneDevRead t) := by
  unfold State.doneDevRead
  split
  · exact .refl s
  · split
    · exact .ite (.plain rfl rfl rfl rfl rfl fun h => { h with })
        (.plain rfl rfl rfl rfl rfl fun h => { h with })
    · exact .refl s

theorem doneDevWrite_outer (s : State) (t : Transfer) : Outer .writes s (s.doneDevWrite t) := by
  unfold State.doneDevWrite
  dsimp only
  refine (writeDram_outer s t.addr ((s.dev.row.bytes.drop s.dev.row.written).take
    t.length)).trans (Inner.outer ?_ _)
  exact .plain rfl rfl rfl rfl rfl fun h => { h with }

/-- A transfer for a READ changes its port's stage only, and only while the request gathers. -/
theorem donePrt_outer (s : State) (p : Port) (t : Transfer) : Outer .writes s (s.donePrt p t) := by
  unfold State.donePrt
  split
  · rename_i o ho
    split
    · rename_i g hg
      unfold State.setStage
      rw [ho]
      refine setPort_outer s p _ (fun x => ⟨x.notices, x.replies, x.handles⟩) fun x => ?_
      refine ⟨?_, fun _ _ _ => x.2 o ho (by rw [hg]; intro h; cases h)⟩
      have := x.1
      rw [ho] at this
      exact this
    · exact .refl _ s
    · exact .refl _ s
    · exact .refl _ s
  · exact .refl _ s

theorem transferDone_outer (s : State) (t : Transfer) : Outer .writes s (s.transferDone t) := by
  unfold State.transferDone
  have base : Outer .writes s { s with arb := { s.arb with current := none } } :=
    .plain fun h => { h with }
  refine base.trans ?_
  generalize ({ s with arb := { s.arb with current := none } } : State) = u
  refine .ite ?_ (.refl _ u)
  split
  · exact doneRsq_outer u t
  · exact (doneMed_inner u _ t).outer _
  · exact donePrt_outer u _ t
  · exact (doneDevRead_inner u t).outer _
  · exact doneDevWrite_outer u t

/-- A completed transfer writes at most its own bytes of the DRAM. -/
theorem transferDone_dram (s : State) (t : Transfer) :
    ∃ bs : List Byte, bs.length ≤ t.length ∧
      (s.transferDone t).dram = Memory.writeBytes s.dram t.addr bs := by
  unfold State.transferDone
  dsimp only
  have base : s.dram = ({ s with arb := { s.arb with current := none } } : State).dram := rfl
  rw [base]
  generalize ({ s with arb := { s.arb with current := none } } : State) = u
  have same : ∀ v : State, v.dram = u.dram → ∃ bs : List Byte, bs.length ≤ t.length ∧
      v.dram = Memory.writeBytes u.dram t.addr bs := fun v h => ⟨[], Nat.zero_le _, h⟩
  split
  · split
    · unfold State.doneRsq
      split
      · exact same u rfl
      · rename_i samples _
        refine ⟨((packRow samples).drop u.rsq.rowBytes).take t.length, List.length_take_le _ _, ?_⟩
        dsimp only
        split
        · rfl
        · exact (signalChanged_inner _ _).dram
    · exact same _ (doneMed_inner u _ t).dram
    · refine same _ ?_
      unfold State.donePrt
      split
      · split
        · unfold State.setStage
          split
          · rfl
          · exact State.setPort_dram _ _ _
        · rfl
        · rfl
        · rfl
      · rfl
    · exact same _ (doneDevRead_inner u t).dram
    · exact ⟨_, List.length_take_le _ _, rfl⟩
  · exact same u rfl

/-- DRAM_TRANSFER_DONE goes on unless the transfer passes the end of the buffer. -/
theorem execDramTransferDone_leaves (s : State)
    (h : ∀ t, s.arb.current = some t → t.addr + t.length ≤ Config.bufferBytes) :
    Leaves .writes s (execDramTransferDone s) := by
  unfold execDramTransferDone
  split
  · exact .same _ s
  · rename_i t ht
    rw [if_pos (h t ht)]
    exact .next ((transferDone_outer s t).trans ((settle_inner _).outer _))

end Sys2Proof.Machine
end

