-- ==== Sys2Proof/Laws/SameBooks.lean ====
section
/-! SUPPORT. The operations that leave the books alone (`books`, Safety.lean): the records' cards, the
free runs, the send queues, the jobs' cards, the open handles and the frame in progress. One lemma for
each operation. -/
set_option Elab.async false
namespace Sys2Proof.Machine

/-- The books stay. -/
def SameBooks (s t : State) : Prop := books t = books s

theorem SameBooks.plain {s t : State} (h : books t = books s := by rfl) : SameBooks s t := h

theorem SameBooks.refl (s : State) : SameBooks s s := rfl

theorem SameBooks.trans {a b c : State} (h : SameBooks a b) (k : SameBooks b c) : SameBooks a c :=
  Eq.trans k h

theorem SameBooks.ite {s a b : State} {c : Prop} [Decidable c] (ha : SameBooks s a)
    (hb : SameBooks s b) : SameBooks s (if c then a else b) := by
  split <;> assumption

/-- A change of a record that its card does not show. -/
theorem modRecord_books (s : State) (n : Nat) (g : Record → Record)
    (hg : ∀ r, (g r).card = r.card := by intro r; rfl) : SameBooks s (s.modRecord n g) := by
  have : (s.modRecord n g).catalog.map Record.card = s.catalog.map Record.card := by
    simp only [State.modRecord, List.map_map]
    refine List.map_congr_left fun r _ => ?_
    simp only [Function.comp]
    split
    · exact hg r
    · rfl
  show books _ = books _
  simp only [books, this]
  rfl

/-- A change of records that their cards do not show. -/
theorem mapCatalog_books (s : State) (g : Record → Record) (hg : ∀ r, (g r).card = r.card) :
    SameBooks s { s with catalog := s.catalog.map g } := by
  have : (s.catalog.map g).map Record.card = s.catalog.map Record.card := by
    rw [List.map_map]
    exact List.map_congr_left fun r _ => hg r
  show books _ = books _
  simp only [books, this]

theorem changeJob_map (l : List Job) (j : Job) (g : Job → Job) (hg : ∀ k, (g k).card = k.card) :
    (changeJob l j g).map Job.card = l.map Job.card := by
  induction l with
  | nil => rfl
  | cons k rest ih =>
    unfold changeJob
    split
    · rw [List.map_cons, List.map_cons, hg]
    · rw [List.map_cons, List.map_cons, ih]

/-- A change of a job that its card does not show. -/
theorem modJob_books (s : State) (j : Job) (g : Job → Job)
    (hg : ∀ k, (g k).card = k.card := by intro k; rfl) : SameBooks s (s.modJob j g) := by
  show books _ = books _
  simp only [books, State.modJob, changeJob_map _ _ _ hg]

/-- A port that keeps its handles. -/
theorem setPort_books (s : State) (p : Port) (q : PortSt)
    (h : q.handles = (s.port p).handles := by rfl) : SameBooks s (s.setPort p q) := by
  show books _ = books _
  cases p <;> simp only [State.port] at h <;> simp only [books, State.setPort, h]

theorem setSlot_books (s : State) (x : Slot) (q : SlotSt) : SameBooks s (s.setSlot x q) := by
  cases x <;> exact .plain

/-- The frame in progress keeps its kind and its shot. -/
theorem setFrame_books (s : State) {f g : Frame} (q : Rsq) (hf : s.rsq.frame = some f)
    (hq : q.frame = some g) (hk : g.kind = f.kind := by rfl) (hs : g.shot = f.shot := by rfl) :
    SameBooks s { s with rsq := q } := by
  show books _ = books _
  simp only [books, hf, hq, Option.map_some, hk, hs]

/-! ### Notices -/

theorem notify_books (s : State) (p : Port) (n : Notice) : SameBooks s (s.notify p n) := by
  cases p
  · exact setPort_books s .body _ (enqueue_same _ _).handles
  · unfold State.notify
    simp only
    split
    · exact setPort_books s .tether _ (enqueue_same _ _).handles
    · exact .refl s
  · exact setPort_books s .relay _ (enqueue_same _ _).handles

theorem notifyBodyTether_books (s : State) (n : Notice) : SameBooks s (s.notifyBodyTether n) :=
  (notify_books s _ n).trans (notify_books _ _ n)

theorem notifyAll_books (s : State) (n : Notice) : SameBooks s (s.notifyAll n) :=
  (notifyBodyTether_books s n).trans (notify_books _ _ n)

theorem fresh_books (s : State) : SameBooks s s.fresh := .plain

/-! ### Lens link and focus drive -/

theorem startNext_books (s : State) : SameBooks s s.startNext := by
  unfold State.startNext
  split
  · exact .refl s
  · split
    · exact .plain
    · exact .plain
    · split
      · exact .plain
      · exact .refl s

theorem endTransaction_books (s : State) : SameBooks s s.endTransaction := .plain

theorem dropPending_books (s : State) : SameBooks s s.dropPending := .plain

theorem dropMove_books (s : State) : SameBooks s s.dropMove := .plain

theorem startIdent_books (s : State) : SameBooks s s.startIdent := .plain

theorem queueMove_books (s : State) (step cls : Nat) : SameBooks s (s.queueMove step cls) :=
  .trans (b := { s with lnk := { s.lnk with pendMove := some ⟨step, cls⟩, latched := some cls } })
    (.plain) (startNext_books _)

theorem setTarget_books (s : State) (d : Descriptor) (v : Int) (b : Bool) :
    SameBooks s (s.setTarget d v b) := by
  unfold State.setTarget
  simp only
  split
  · exact .plain
  · refine .trans ?_ (queueMove_books _ _ _)
    exact .plain

theorem applyPrediction_books (s : State) (d : Descriptor) : SameBooks s (s.applyPrediction d) := by
  unfold State.applyPrediction
  split
  · exact .refl s
  · exact setTarget_books _ _ _ _

theorem giveMidpoint_books (s : State) (mid : Time) : SameBooks s (s.giveMidpoint mid) := by
  have base : SameBooks s { s with fdr := { s.fdr with nextMid := mid } } :=
    .plain
  unfold State.giveMidpoint
  simp only
  split
  · split
    · exact base.trans (applyPrediction_books _ _)
    · exact base
  · exact base

theorem exposureStart_books (s : State) (mid : Time) : SameBooks s (s.exposureStart mid) := by
  unfold State.exposureStart
  simp only
  split
  · refine .trans ?_ (startNext_books _)
    exact .plain
  · exact .plain

theorem enterExpose_books (s : State) : SameBooks s s.enterExpose := by
  unfold State.enterExpose
  split
  · exact .refl s
  · rename_i f hf
    refine .trans ?_ ((exposureStart_books _ _).trans (giveMidpoint_books _ _))
    exact setFrame_books s _ hf rfl

theorem markExpired_books (s : State) : SameBooks s s.markExpired := by
  unfold State.markExpired
  split
  · exact .refl s
  · exact modRecord_books _ _ _

theorem checkFocusWait_books (s : State) : SameBooks s s.checkFocusWait := by
  unfold State.checkFocusWait
  split
  · split
    · exact enterExpose_books s
    · exact (markExpired_books s).trans (enterExpose_books _)
    · exact (markExpired_books s).trans (enterExpose_books _)
    · exact (markExpired_books s).trans (enterExpose_books _)
    · exact (markExpired_books s).trans (enterExpose_books _)
    · split
      · exact enterExpose_books s
      · exact .refl s
    · split
      · exact enterExpose_books s
      · exact .refl s
  · exact .refl s

theorem setFocusState_books (s : State) (st : FocusState) : SameBooks s (s.setFocusState st) := by
  unfold State.setFocusState
  split
  · exact checkFocusWait_books s
  · refine .trans (b := { s with fdr := { s.fdr with state := st } }) ?_
      ((notifyBodyTether_books _ _).trans (checkFocusWait_books _))
    exact .plain

theorem clearFocus_books (s : State) : SameBooks s s.clearFocus :=
  .plain

theorem startSession_books (s : State) : SameBooks s s.startSession := by
  unfold State.startSession
  refine .trans (b := if s.fdr.mode = .manual then s.dropMove else s)
    (.ite (dropMove_books s) (.refl s)) ((clearFocus_books _).trans ?_)
  generalize State.clearFocus _ = u
  simp only
  split <;> exact setFocusState_books _ _

theorem endSession_books (s : State) : SameBooks s s.endSession := by
  unfold State.endSession
  refine (dropMove_books s).trans (.trans ?_ (setFocusState_books _ _))
  exact .plain

theorem focusLost_books (s : State) (st : FocusState) : SameBooks s (s.focusLost st) := by
  unfold State.focusLost
  split
  · exact .refl s
  · exact (clearFocus_books s).trans (setFocusState_books _ _)

theorem focusFound_books (s : State) : SameBooks s s.focusFound := by
  unfold State.focusFound
  split <;> first
    | exact .refl s
    | exact (clearFocus_books s).trans (setFocusState_books _ _)

theorem linkLost_books (s : State) (why : LostReason) : SameBooks s (s.linkLost why) := by
  unfold State.linkLost
  refine (endTransaction_books s).trans ?_
  generalize s.endTransaction = u
  dsimp only
  refine .trans ?_ (focusLost_books _ _)
  exact .plain

theorem linkAbsent_books (s : State) : SameBooks s s.linkAbsent := by
  unfold State.linkAbsent
  refine .trans ?_ (focusLost_books _ _)
  exact .plain

theorem retryLost_books (s : State) : SameBooks s s.retryLost := by
  unfold State.retryLost
  split
  · exact startIdent_books s
  · exact .refl s

theorem focusProgress_books (s : State) (pos : Nat) (moving : Bool) :
    SameBooks s (s.focusProgress pos moving) := by
  unfold State.focusProgress
  split
  · exact .refl s
  · simp only
    split
    · split
      · split
        · split
          · exact (dropMove_books s).trans (setFocusState_books _ _)
          · exact .refl s
        · exact .refl s
      · split
        · refine .trans ?_ (queueMove_books _ _ _)
          exact .plain
        · exact .refl s
      · split
        · refine .trans ?_ ((setFocusState_books _ _).trans (queueMove_books _ _ _))
          exact .plain
        · exact .refl s
    · exact .refl s

theorem storePosition_books (s : State) (pos : Nat) (moving : Bool) :
    SameBooks s (s.storePosition pos moving) := .plain

theorem whereToFocus_books (s : State) (pos : Nat) (moving : Bool) :
    SameBooks s (s.whereToFocus pos moving) :=
  (focusProgress_books s pos moving).trans (checkFocusWait_books _)

theorem beginScan_books (s : State) (d : Descriptor) : SameBooks s (s.beginScan d) := by
  unfold State.beginScan
  refine .trans ?_ (queueMove_books _ _ _)
  exact .plain

theorem applyValid_books (s : State) (d : Descriptor) (p : Int) : SameBooks s (s.applyValid d p) := by
  unfold State.applyValid
  split
  · split
    · refine .trans ?_ ((setTarget_books _ _ _ _).trans (checkFocusWait_books _))
      exact .plain
    · exact .refl s
  · refine .trans (b := { s with fdr := { s.fdr with
      history := addHistory s.fdr.history (s.fdr.frameMid, p), lowCount := 0 } }) ?_ ?_
    · exact .plain
    · simp only
      split
      · exact (setFocusState_books _ _).trans
          ((applyPrediction_books _ _).trans (checkFocusWait_books _))
      · exact (applyPrediction_books _ _).trans (checkFocusWait_books _)
  · exact setFocusState_books _ _

theorem applyLow_books (s : State) (d : Descriptor) : SameBooks s (s.applyLow d) := by
  unfold State.applyLow
  split
  · split
    · exact beginScan_books _ _
    · exact .refl s
  · split
    · exact .plain
    · refine .trans ?_ (setFocusState_books _ _)
      exact .plain
  · exact setFocusState_books _ _

theorem writeFocusRecord_books (s : State) (shot pos : Nat) (r : CurveResult) :
    SameBooks s (s.writeFocusRecord shot pos r) := modRecord_books _ _ _

theorem applyMeasurement_books (s : State) (m : Measurement) : SameBooks s (s.applyMeasurement m) := by
  unfold State.applyMeasurement
  split
  · simp only
    have base : ∀ (d : Descriptor) (p : Int), SameBooks s
        (if s.fdr.state = .off then s
         else if m.outcome = .valid then s.applyValid d p else s.applyLow d) := by
      intro d p
      split
      · exact .refl s
      · split
        · exact applyValid_books _ _ _
        · exact applyLow_books _ _
    split
    · exact (base _ _).trans (writeFocusRecord_books _ _ _ _)
    · exact base _ _
  · exact .refl s

theorem stall_books (s : State) (r : StallReason) : SameBooks s (s.stall r) := by
  unfold State.stall
  split
  · exact .refl s
  · refine .trans ?_ (notify_books _ _ _)
    exact .plain

theorem markAttempt_books (s : State) : SameBooks s s.markAttempt :=
  .plain

theorem focusDecision_books (s : State) : SameBooks s s.focusDecision := by
  unfold State.focusDecision
  split
  · show books _ = books _
    simp only [books, Option.map_map]
    rfl
  · exact enterExpose_books s

theorem setSeq_books (s : State) (q : SeqState) : SameBooks s (s.setSeq q) := by
  have base : SameBooks s { s with rsq := { s.rsq with state := q } } :=
    .plain
  unfold State.setSeq
  simp only
  split
  · exact base.trans (markAttempt_books _)
  · exact base

theorem endBurst_books (s : State) (why : BurstEndReason) : SameBooks s (s.endBurst why) := by
  unfold State.endBurst
  split
  · refine .trans ?_ (notifyBodyTether_books _ _)
    exact .plain
  · exact .refl s

theorem logJob_books (s : State) (r : JobResult) : SameBooks s (s.logJob r) :=
  .plain

theorem announceJob_books (s : State) (j : Job) (r : JobResult) : SameBooks s (s.announceJob j r) := by
  unfold State.announceJob
  simp only
  split
  · exact (notify_books _ _ _).trans (notify_books _ _ _)
  · exact notify_books _ _ _

theorem reportJob_books (s : State) (j : Job) (r : JobResult) : SameBooks s (s.reportJob j r) :=
  (logJob_books s r).trans (announceJob_books _ _ _)

theorem mergeAuto_books (s : State) (j : Job) (p : Purpose) : SameBooks s (s.mergeAuto j p) :=
  modJob_books _ _ _ fun k => by cases p <;> rfl

theorem beginRow_books (s : State) (rec : Recipe) (c : Sum32) : SameBooks s (s.beginRow rec c) :=
  .plain

theorem setSpaceWait_books (s : State) (j : Job) : SameBooks s (s.setSpaceWait j) := modJob_books _ _ _

theorem signalChanged_books (s : State) (b : Bool) : SameBooks s (s.signalChanged b) := by
  unfold State.signalChanged
  split
  · simp only
    split
    · split
      · exact (markAttempt_books _).trans (beginRow_books _ _ _)
      · exact markAttempt_books _
    · exact markAttempt_books _
  · exact .refl s

theorem discardDev_books (s : State) : SameBooks s s.discardDev := by
  unfold State.discardDev
  split
  · split <;> exact .refl s
  · exact .refl s

theorem modCopy_books (s : State) (n : Nat) (x : Slot) (p : Part) (f : Copy → Copy) :
    SameBooks s (s.modCopy n x p f) := modRecord_books _ _ _

theorem startCopy_books (s : State) (x : Slot) (r : Record) (p : Part) :
    SameBooks s (s.startCopy x r p) := by
  unfold State.startCopy
  refine .trans ?_ (modCopy_books _ _ _ _ _)
  exact setSlot_books _ _ _

theorem chooseWork_books (s : State) (x : Slot) : SameBooks s (s.chooseWork x) := by
  unfold State.chooseWork
  split
  · split
    · exact setSlot_books _ _ _
    · split
      · exact .refl s
      · split
        · exact startCopy_books _ _ _ _
        · exact setSlot_books _ _ _
  · exact .refl s

theorem chooseBoth_books (s : State) : SameBooks s s.chooseBoth :=
  (chooseWork_books s _).trans (chooseWork_books _ _)

theorem requireCopies_books (s : State) (n : Nat) (p : Part) (v : Option Nat) :
    SameBooks s (s.requireCopies n p v) := modRecord_books _ _ _

theorem saveTest_books (s : State) : SameBooks s s.saveTest := by
  unfold State.saveTest
  split
  · refine .trans ?_ (notify_books _ _ _)
    exact .plain
  · exact .refl s

theorem discardMed_books (s : State) (x : Slot) : SameBooks s (s.discardMed x) := by
  unfold State.discardMed
  split
  · split
    · exact .plain
    · exact .refl s
  · exact .refl s

theorem endFlight_books (s : State) (x : Slot) (st : SlotState) : SameBooks s (s.endFlight x st) :=
  setSlot_books _ _ _

theorem insertCard_books (s : State) (x : Slot) : SameBooks s (s.insertCard x) := by
  unfold State.insertCard
  split
  · refine .trans ?_ (chooseWork_books _ _)
    exact setSlot_books _ _ _
  · exact .refl s

theorem emptyStore_books (s : State) : SameBooks s s.emptyStore :=
  .plain

theorem startPd_books (s : State) : SameBooks s s.startPd :=
  .plain

theorem takePair_books (s : State) (l r : List Sample) : SameBooks s (s.takePair l r) := by
  unfold State.takePair
  split
  · exact .refl s
  · exact .plain

theorem pdDone_books (s : State) (f : Frame) : SameBooks s (s.pdDone f) := by
  unfold State.pdDone
  split
  · exact .refl s
  · dsimp only
    refine .trans ?_ (applyMeasurement_books _ _)
    exact .plain

theorem leaveOff_books (s : State) : SameBooks s s.leaveOff :=
  .plain

theorem discardRsq_books (s : State) : SameBooks s s.discardRsq := by
  unfold State.discardRsq
  split
  · split
    · exact .plain
    · exact .refl s
  · exact .refl s

theorem discardPrt_books (s : State) (p : Port) : SameBooks s (s.discardPrt p) := by
  unfold State.discardPrt
  split
  · split
    · exact .plain
    · exact .refl s
  · exact .refl s

theorem emptyFifo_books (s : State) : SameBooks s s.emptyFifo := by
  unfold State.emptyFifo
  refine .trans ?_ (signalChanged_books _ _)
  refine .trans ?_ (discardRsq_books _)
  exact .plain

theorem slaveEdge_books (s : State) : SameBooks s s.slaveEdge := by
  unfold State.slaveEdge
  refine .ite (.refl s) (.ite ?_ ?_)
  · exact .plain
  · exact .plain

theorem afterFailure_books (s : State) (t : Transaction) : SameBooks s (s.afterFailure t) := by
  unfold State.afterFailure
  refine (endTransaction_books s).trans ?_
  generalize s.endTransaction = u
  dsimp only
  have again : SameBooks u (if u.linkSilent = true then u else { u with lnk := { u.lnk with
      running := some t } }) :=
    .ite (.refl u) (.plain)
  split
  · exact again
  · exact again
  · exact again
  · exact startNext_books u
  · exact startNext_books u
  · refine .ite ?_ (startNext_books u)
    refine .trans ?_ (startNext_books _)
    exact .plain

theorem linkError_books (s : State) (t : Transaction) (e : LinkError) :
    SameBooks s (s.linkError t e) := by
  unfold State.linkError
  refine .trans (b := { s with lnk := { s.lnk with
      errors := s.lnk.errors + 1, lastError := some e } }) ?_ ?_
  · exact .plain
  · exact .ite (linkLost_books _ _) (afterFailure_books _ _)

theorem goodWhere_books (s : State) (d : List Byte) : SameBooks s (s.goodWhere d) := by
  unfold State.goodWhere
  dsimp only
  exact (storePosition_books _ _ _).trans ((endTransaction_books _).trans
    ((whereToFocus_books _ _ _).trans (startNext_books _)))

theorem identNext_books (s : State) (t : Transaction) : SameBooks s (s.identNext t) := by
  unfold State.identNext
  refine (endTransaction_books s).trans ?_
  generalize s.endTransaction = u
  dsimp only
  refine .ite (.refl u) ?_
  exact .plain

theorem linkGood_books (s : State) (t : Transaction) (d : List Byte) : SameBooks s (s.linkGood t d) := by
  unfold State.linkGood
  refine .trans (b := { s with lnk := { s.lnk with errors := 0 } }) ?_ ?_
  · exact .plain
  generalize ({ s with lnk := { s.lnk with errors := 0 } } : State) = u
  dsimp only
  split
  · refine .trans ?_ (identNext_books _ _)
    exact .plain
  · split
    · exact linkLost_books _ _
    · refine .ite ?_ (linkLost_books _ _)
      refine .trans ?_ (identNext_books _ _)
      exact .plain
  · refine .trans ?_ (startNext_books _)
    refine .trans ?_ (whereToFocus_books _ _ _)
    refine .trans ?_ (focusFound_books _)
    refine .trans ?_ (endTransaction_books _)
    refine .trans ?_ (storePosition_books _ _ _)
    exact .plain
  · refine .trans ?_ (goodWhere_books _ _)
    refine .ite ?_ (.refl u)
    exact .plain
  · exact (endTransaction_books _).trans (startNext_books _)
  · exact goodWhere_books _ _

theorem enterWaking_books (s : State) (w : WakeSource) : SameBooks s (s.enterWaking w) :=
  .plain

theorem hold_books (s : State) (x : Held) : SameBooks s (s.hold x) :=
  .plain

theorem halfPress_books (s : State) : SameBooks s s.halfPress := by
  unfold State.halfPress
  refine (retryLost_books s).trans ?_
  exact .ite (startSession_books _) (.refl _)

theorem clearCollector_books (s : State) (p : Port) : SameBooks s (s.clearCollector p) :=
  mapCatalog_books s _ fun r => by
    simp only [Record.card, List.map_map]
    congr 1
    refine List.map_congr_left fun v _ => ?_
    simp only [Function.comp]
    split <;> rfl

theorem orphanReinit_books (s : State) (p : Port) : SameBooks s (s.orphanReinit p) := by
  cases p
  · exact .plain
  · exact .refl s
  · exact .refl s

theorem serveFocus_books (s : State) (m : Option (Choice FocusMode)) :
    SameBooks s (s.serveFocus m).1 := by
  unfold State.serveFocus
  split
  · exact .refl s
  · dsimp only
    refine .trans ?_ (startSession_books _)
    refine .trans ?_ (retryLost_books _)
    exact .plain

theorem grant_books (s : State) : SameBooks s s.grant := by
  unfold State.grant
  split
  · exact .refl s
  · split
    · exact .refl s
    · exact .plain


/-! ### Requests and replies -/

theorem formReply_books (s : State) (p : Port) (st : Status) (pl : Payload) :
    SameBooks s (s.formReply p st pl) := by
  unfold State.formReply
  split
  · exact .refl s
  · exact setPort_books _ _ _

theorem setStage_books (s : State) (p : Port) (g : Stage) : SameBooks s (s.setStage p g) := by
  unfold State.setStage
  split
  · exact .refl s
  · exact setPort_books _ _ _

theorem openRequest_books (s : State) (p : Port) (k : RequestKind) (tag : Byte) :
    SameBooks s (s.openRequest p k tag) := setPort_books _ _ _

theorem answerFrame_books (s : State) (p : Port) (c : ReplyCode) (tag : Byte) (st : Status) :
    SameBooks s (s.answerFrame p c tag st) := by
  unfold State.answerFrame
  exact .ite (.refl s) (setPort_books _ _ _)

theorem settleRequest_books (s : State) (p : Port) (v : Served) :
    SameBooks s (s.settleRequest p v) := by
  cases v
  · exact formReply_books _ _ _ _
  · exact (setStage_books _ _ _).trans (grant_books _)

theorem endReinit_books (s : State) (x : Slot) (st : Status) : SameBooks s (s.endReinit x st) := by
  unfold State.endReinit
  split
  · exact .refl s
  · exact .ite ((setSlot_books _ _ _).trans (formReply_books _ _ _ _)) (setSlot_books _ _ _)

theorem refuseHeld_books (s : State) (l : List Held) : SameBooks s (s.refuseHeld l) := by
  induction l generalizing s with
  | nil => exact .refl s
  | cons h rest ih =>
    cases h
    · exact (formReply_books _ _ _ _).trans (ih _)
    · exact (formReply_books _ _ _ _).trans (ih _)
    · exact ih s

end Sys2Proof.Machine
end

