-- ==== Sys2Proof/Laws/Lawful.lean ====
section
/-! SUPPORT. `Lawful s t`: the laws of the records hold of `t` where they hold of `s`, and with them the
law of the Shot Buffer (RecordsOk and BlocksOk, Safety.lean). One lemma for each operation of the
catalog. -/
set_option Elab.async false
namespace Sys2Proof.Machine

/-- The laws of the records are kept, and under them the law of the Shot Buffer. -/
def Lawful (s t : State) : Prop := RecordsOk s → RecordsOk t ∧ (BlocksOk s → BlocksOk t)

theorem Lawful.refl (s : State) : Lawful s s := fun h => ⟨h, id⟩

theorem Lawful.trans {a b c : State} (h : Lawful a b) (k : Lawful b c) : Lawful a c := fun ha =>
  have h1 := h ha
  have h2 := k h1.1
  ⟨h2.1, fun hb => h2.2 (h1.2 hb)⟩

theorem SameBooks.lawful {s t : State} (h : SameBooks s t) : Lawful s t := fun ho =>
  ⟨by rw [RecordsOk, h]; exact ho, fun hb => by rw [BlocksOk, h]; exact hb⟩

theorem Lawful.ite {s a b : State} {c : Prop} [Decidable c] (ha : Lawful s a) (hb : Lawful s b) :
    Lawful s (if c then a else b) := by
  split <;> assumption

/-- A step of a chain may use that the laws hold there. -/
theorem Lawful.under {s t : State} (h : RecordsOk s → Lawful s t) : Lawful s t := fun ho => h ho ho

/-! ### The books of a state -/

theorem card_mem {s : State} {r : Record} (h : r ∈ s.catalog) : r.card ∈ (books s).cards :=
  List.mem_map_of_mem h

theorem mem_card {s : State} {c : Card} (h : c ∈ (books s).cards) : ∃ r, r ∈ s.catalog ∧ r.card = c :=
  List.mem_map.1 h

theorem findRecord_mem {s : State} {n : Nat} {r : Record} (h : s.findRecord n = some r) :
    r ∈ s.catalog :=
  List.mem_of_find?_eq_some h

theorem findRecord_card {s : State} {n : Nat} {r : Record} (h : s.findRecord n = some r) :
    r.card ∈ (books s).cards ∧ r.card.shot = n :=
  ⟨card_mem (findRecord_mem h), findRecord_shot h⟩

theorem findRecord_none {s : State} {n : Nat} (h : s.findRecord n = none) :
    ∀ r, r ∈ s.catalog → r.shot ≠ n := fun r hr e => by
  have := List.find?_eq_none.1 h r hr
  simp [e] at this

/-- A shot has one record. -/
theorem RecordsOk.find {s : State} (h : RecordsOk s) {n : Nat} {r q : Record}
    (hr : s.findRecord n = some r) (hq : q ∈ s.catalog) (e : q.shot = n) : q = r := by
  have hp : (s.catalog.map Record.shot).Pairwise (fun a b => a < b) := by
    have := h.catalog.2.1
    simpa [books, List.map_map, Function.comp_def, Record.card] using this
  have hm := findRecord_mem hr
  have hs := findRecord_shot hr
  generalize s.catalog = l at hp hq hm
  induction l with
  | nil => cases hq
  | cons x rest ih =>
    rw [List.map_cons, List.pairwise_cons] at hp
    cases hq with
    | head =>
      cases hm with
      | head => rfl
      | tail _ hm => have := hp.1 _ (List.mem_map_of_mem hm); omega
    | tail _ hq =>
      cases hm with
      | head => have := hp.1 _ (List.mem_map_of_mem hq); omega
      | tail _ hm => exact ih hp.2 hq hm

theorem RecordsOk.findCard {s : State} (h : RecordsOk s) {n : Nat} {r : Record} {c : Card}
    (hr : s.findRecord n = some r) (hc : c ∈ (books s).cards) (e : c.shot = n) : c = r.card := by
  obtain ⟨q, hq, rfl⟩ := mem_card hc
  rw [h.find hr hq e]

/-- The card of a shot is the card of the record that is found. -/
theorem RecordsOk.found {s : State} (h : RecordsOk s) {c : Card} (hc : c ∈ (books s).cards) :
    ∃ r, s.findRecord c.shot = some r ∧ r.card = c := by
  obtain ⟨q, hq, rfl⟩ := mem_card hc
  cases hf : s.findRecord q.card.shot with
  | none => exact absurd rfl (findRecord_none hf q hq)
  | some r => exact ⟨r, rfl, by rw [h.find hf hq rfl]⟩

theorem books_modRecord (s : State) (n : Nat) (g : Record → Record) (k : Card → Card)
    (h : ∀ r, r ∈ s.catalog → r.shot = n → (g r).card = k r.card) :
    books (s.modRecord n g) = (books s).modCard n k := by
  have : (s.modRecord n g).catalog.map Record.card =
      (s.catalog.map Record.card).map fun c => if c.shot = n then k c else c := by
    simp only [State.modRecord, List.map_map]
    refine List.map_congr_left fun r hr => ?_
    simp only [Function.comp]
    by_cases e : r.shot = n
    · rw [if_pos e, if_pos (show r.card.shot = n from e), h r hr e]
    · rw [if_neg e, if_neg (show ¬ r.card.shot = n from e)]
  show Books.mk _ _ _ _ _ _ _ _ = _
  rw [this]
  rfl

/-! ### Laws under parts of the books that no record shows -/

theorem Books.Ok.withRuns {b : Books} (h : b.Ok) (rs : List Run) : ({ b with freeRuns := rs } : Books).Ok :=
  { h with }

theorem Books.Ok.noFrame {b : Books} (h : b.Ok) : ({ b with frame := none } : Books).Ok :=
  { h with frame := fun _ _ hf => nomatch hf }

theorem Books.Ok.viewFrame {b : Books} (h : b.Ok) : ({ b with frame := some (.view, 0) } : Books).Ok :=
  { h with frame := fun k n hf => by cases hf; exact ⟨(fun h => nomatch h), fun _ => rfl⟩ }

theorem Books.Ok.stillFrame {b : Books} (h : b.Ok) {c : Card} (hc : c ∈ b.cards)
    (hl : c.life = .exposing) : ({ b with frame := some (.still, c.shot) } : Books).Ok :=
  { h with frame := fun k n hf => by cases hf; exact ⟨fun _ => ⟨c, hc, rfl, hl⟩, fun h => nomatch h⟩ }

theorem Books.Ok.handlesSub {b : Books} (h : b.Ok) (l : List Handle) (hl : ∀ x, x ∈ l → x ∈ b.handles) :
    ({ b with handles := l } : Books).Ok :=
  { h with handleFits := fun x hx => h.handleFits x (hl x hx) }

theorem Books.Ok.jobsSub {b : Books} (h : b.Ok) (l : List JobCard) (hl : l.Sublist b.jobs) :
    ({ b with jobs := l } : Books).Ok :=
  { h with
    running := Nat.le_trans ((hl.filter _).length_le) h.running
    begun := fun j hj => h.begun j (hl.subset hj)
    jobFits := fun j hj => h.jobFits j (hl.subset hj) }

theorem Books.Ok.tetherSub {b : Books} (h : b.Ok) (l : List TetherEntry) (hl : l.Sublist b.tether) :
    ({ b with tether := l } : Books).Ok :=
  { h with
    tetherOnce := (hl.map _).nodup h.tetherOnce
    tetherFlight := Nat.le_trans ((hl.filter _).length_le) h.tetherFlight
    tetherFits := fun j hj => h.tetherFits j (hl.subset hj) }

/-! ### Nothing refers to the shot -/

/-- Nothing refers to the shot, which is not a number still to be issued, and its record is neither
EXPOSING nor waiting for a proof. -/
structure Loose (n : Nat) (s : State) : Prop where
  unbound : (books s).Unbound n
  issued : s.nextShot < 2 ^ 32 ∧ (s.nextShot = 0 ∨ n < s.nextShot)
  cards : ∀ c, c ∈ (books s).cards → c.shot = n → c.life ≠ .exposing ∧ c.wanted = false

theorem SameBooks.loose {n : Nat} {s t : State} (h : SameBooks s t) (hl : Loose n s) : Loose n t where
  unbound := by rw [h]; exact hl.unbound
  issued := by
    have : t.nextShot = s.nextShot := congrArg Books.nextShot h
    rw [this]
    exact hl.issued
  cards := by rw [h]; exact hl.cards

theorem RecordsOk.issued {s : State} (h : RecordsOk s) {c : Card} (hc : c ∈ (books s).cards) :
    s.nextShot < 2 ^ 32 ∧ (s.nextShot = 0 ∨ c.shot < s.nextShot) :=
  ⟨h.catalog.1, (h.catalog.2.2 _ (List.mem_map_of_mem hc)).2.2⟩

/-- A record that is neither HELD nor EXPOSING is loose. -/
theorem RecordsOk.loose {s : State} (h : RecordsOk s) {n : Nat} {r : Record}
    (hr : s.findRecord n = some r) (h1 : r.life ≠ .held) (h2 : r.life ≠ .exposing) : Loose n s := by
  have hc := findRecord_card hr
  have hs : r.card.shot = n := hc.2
  exact
    { unbound := hs ▸ h.unbound hc.1 h1 h2
      issued := hs ▸ h.issued hc.1
      cards := fun c hm e => by
        cases h.findCard hr hm e
        refine ⟨h2, ?_⟩
        cases hw : r.card.wanted with
        | false => rfl
        | true => exact absurd ((h.cards _ hc.1).wanted hw).1 h1 }

/-! ### A frame takes its record -/

theorem dropOldest_split {l : List Record} {r : Record} (h : oldestCardOnly l = some r) :
    ∃ a b, l = a ++ r :: b ∧ dropOldestCardOnly l = a ++ b ∧ r.life = .cardOnly := by
  induction l with
  | nil => cases h
  | cons x rest ih =>
    unfold oldestCardOnly at h
    rw [List.find?_cons] at h
    unfold dropOldestCardOnly
    by_cases hx : x.life = .cardOnly
    · simp only [hx, beq_self_eq_true, Option.some.injEq] at h
      subst h
      exact ⟨[], rest, rfl, by simp [hx], hx⟩
    · have : (x.life == Life.cardOnly) = false := by simpa using hx
      rw [this] at h
      obtain ⟨a, b, e1, e2, e3⟩ := ih h
      exact ⟨x :: a, b, by rw [e1]; rfl, by rw [if_neg hx, e2]; rfl, e3⟩

theorem retire_lawful (s : State) : Lawful s s.retire := by
  unfold State.retire
  split
  · exact .refl s
  · split
    · exact .refl s
    · rename_i r hr
      refine .trans ?_ (SameBooks.lawful ((notifyBodyTether_books _ _).trans (notify_books _ _ _)))
      obtain ⟨a, b, e1, e2, e3⟩ := dropOldest_split hr
      intro ho
      have hm : r ∈ s.catalog := by rw [e1]; simp
      have hc := ho.cards _ (card_mem hm)
      have hcards : (books s).cards = a.map Record.card ++ r.card :: b.map Record.card := by
        simp [books, e1]
      have hnew : books { s with catalog := dropOldestCardOnly s.catalog } =
          { books s with cards := a.map Record.card ++ b.map Record.card } := by
        simp [books, e2]
      have hu := ho.unbound (card_mem hm) (by simp [Record.card, e3]) (by simp [Record.card, e3])
      have hsub : (a.map Record.card ++ b.map Record.card).Sublist (books s).cards := by
        rw [hcards]
        exact List.Sublist.append_left (List.sublist_cons_self _ _) _
      refine ⟨?_, fun hb => ?_⟩
      · rw [RecordsOk, hnew]
        refine Books.Ok.sub ho _ hsub fun c hcm => ?_
        rw [hcards] at hcm
        rcases List.mem_append.1 hcm with h1 | h1
        · exact .inl (List.mem_append_left _ h1)
        · rcases List.mem_cons.1 h1 with rfl | h1
          · exact .inr hu
          · exact .inl (List.mem_append_right _ h1)
      · rw [BlocksOk, hnew]
        refine Books.BlocksOk.sub hb _ _ r.card hcards ?_
        have h1 := hc.cardOnly e3
        have h2 : r.card.extents = [] := hc.released.1 h1.1
        rw [Card.blocks, h2, h1.2]
        rfl

theorem retire_loose {n : Nat} {s : State} (h : Loose n s) : Loose n s.retire := by
  unfold State.retire
  split
  · exact h
  · split
    · exact h
    · refine SameBooks.loose ((notifyBodyTether_books _ _).trans (notify_books _ _ _)) ?_
      exact
        { unbound := { h.unbound with }
          issued := h.issued
          cards := fun c hc => h.cards c (((dropOldest_sublist _).map Record.card).subset hc) }

theorem retire_freeRuns (s : State) : s.retire.freeRuns = s.freeRuns := by
  unfold State.retire
  split
  · rfl
  · split
    · rfl
    · rename_i r _
      have h : SameBooks { s with catalog := dropOldestCardOnly s.catalog } _ :=
        (notifyBodyTether_books _ (.shotRetired r.shot)).trans (notify_books _ .relay (.shotRetired r.shot))
      exact congrArg Books.freeRuns h

theorem books_createRecord (s : State) (es left : List Run) :
    books (s.createRecord es left) =
      { books s.retire with
        cards := (books s.retire).cards ++ [(newRecord s.retire.nextShot s.retire.rsq.burst es).card]
        nextShot := State.nextShotNumber s.retire.nextShot
        freeRuns := left
        frame := some (.still, s.retire.nextShot) } := by
  simp [books, State.createRecord]

theorem createRecord_lawful (s : State) (es left : List Run) (hr : s.catalogRoom = true)
    (ha : allocate Config.rawBlocks s.freeRuns = .done es left) : Lawful s (s.createRecord es left) := by
  refine (retire_lawful s).trans ?_
  have hn : s.retire.nextShot ≠ 0 := by
    rw [retire_nextShot]
    intro e
    simp [State.catalogRoom, e] at hr
  have ha' : allocate Config.rawBlocks s.retire.freeRuns = .done es left := by rw [retire_freeRuns]; exact ha
  have hlen := allocate_length ha'
  intro ho
  unfold RecordsOk BlocksOk
  rw [books_createRecord]
  generalize s.retire = t at *
  have hb0 : 0 < Config.rawBlocks := by decide
  have hc : (newRecord t.nextShot t.rsq.burst es).card.Ok :=
    { versions := by simp [newRecord, Record.card]
      numbers := by simp [newRecord, Record.card]
      current := by simp [newRecord, Record.card]
      versionExtents := by simp [newRecord, Record.card]
      rawExtents := hlen.2
      released := by
        have : es ≠ [] := fun e => by
          rw [e] at hlen
          exact absurd hlen.1 (by decide)
        simp [newRecord, Record.card, this]
      filling := by simp [newRecord, Record.card]
      exposing := by simp [newRecord, Record.card]
      cardOnly := by simp [newRecord, Record.card]
      wanted := by simp [newRecord, Record.card] }
  have hadd := Books.Ok.add ho _ (State.nextShotNumber t.nextShot) hc rfl (by
    rw [List.map_append]
    exact ho.catalog.create hn)
  refine ⟨?_, fun hb => ?_⟩
  · exact (hadd.withRuns left).stillFrame (c := (newRecord t.nextShot t.rsq.burst es).card)
      (List.mem_append_right _ List.mem_cons_self) rfl
  · have h := Books.BlocksOk.add hb (newRecord t.nextShot t.rsq.burst es).card
      (State.nextShotNumber t.nextShot) hb0 ha'
      (by simp [Card.blocks, newRecord, Record.card])
    exact ⟨h.runs, h.extents, h.once⟩

theorem createRecord_loose {n : Nat} {s : State} (h : Loose n s) (es left : List Run)
    (hr : s.catalogRoom = true) : Loose n (s.createRecord es left) := by
  have h1 := retire_loose h
  have hn : s.retire.nextShot ≠ 0 := by
    rw [retire_nextShot]
    intro e
    simp [State.catalogRoom, e] at hr
  have hb := books_createRecord s es left
  have hx : (s.createRecord es left).nextShot = State.nextShotNumber s.retire.nextShot := rfl
  generalize s.createRecord es left = u at *
  generalize s.retire = t at *
  have hi := h1.issued
  exact
    { unbound := by
        rw [hb]
        exact { h1.unbound with
          frame := fun e => by
            simp only [Option.some.injEq, Prod.mk.injEq, true_and] at e
            omega }
      issued := by
        rw [hx, State.nextShotNumber]
        omega
      cards := fun c hc e => by
        rw [hb] at hc
        rcases List.mem_append.1 hc with h2 | h2
        · exact h1.cards c h2 e
        · cases List.mem_singleton.1 h2
          have : t.nextShot = n := e
          omega }

theorem requestFrame_lawful (s : State) : Lawful s s.requestFrame := by
  unfold State.requestFrame
  split
  · exact (stall_books _ _).lawful
  · rename_i hr
    split
    · exact (stall_books _ _).lawful
    · exact (stall_books _ _).lawful
    · rename_i es left ha
      have h := (createRecord_lawful s es left (by simpa using hr) ha).trans
        (focusDecision_books _).lawful
      dsimp only
      split
      · exact h.trans (markAttempt_books _).lawful
      · exact h

theorem requestFrame_loose {n : Nat} {s : State} (h : Loose n s) : Loose n s.requestFrame := by
  unfold State.requestFrame
  split
  · exact (stall_books _ _).loose h
  · rename_i hr
    split
    · exact (stall_books _ _).loose h
    · exact (stall_books _ _).loose h
    · rename_i es left ha
      have h := (focusDecision_books _).loose (createRecord_loose h es left (by simpa using hr))
      dsimp only
      split
      · exact (markAttempt_books _).loose h
      · exact h

theorem retrySpace_lawful (s : State) : Lawful s s.retrySpace :=
  .ite (requestFrame_lawful s) (.refl s)

theorem retryCatalog_lawful (s : State) : Lawful s s.retryCatalog :=
  .ite (requestFrame_lawful s) (.refl s)

theorem retrySpace_loose {n : Nat} {s : State} (h : Loose n s) : Loose n s.retrySpace := by
  unfold State.retrySpace
  split
  · exact requestFrame_loose h
  · exact h

theorem retryCatalog_loose {n : Nat} {s : State} (h : Loose n s) : Loose n s.retryCatalog := by
  unfold State.retryCatalog
  split
  · exact requestFrame_loose h
  · exact h

/-! ### Frees -/

/-- A free keeps the laws where the blocks it gives back were taken off a record (R7). -/
theorem free_lawful {s u : State} {es : List Run}
    (h : Lawful s { u with freeRuns := insertRuns u.freeRuns es }) : Lawful s (u.free es) := by
  unfold State.free
  split
  · rename_i e
    subst e
    exact h
  · exact (h.trans (markAttempt_books _).lawful).trans (retrySpace_lawful _)

theorem free_loose {n : Nat} {s : State} (h : Loose n s) (es : List Run) : Loose n (s.free es) := by
  unfold State.free
  split
  · exact h
  · refine retrySpace_loose ((markAttempt_books _).loose ?_)
    exact ⟨{ h.unbound with }, h.issued, h.cards⟩

/-- A raw that nothing needs any more is freed (R17, R24). -/
theorem freeRaw_lawful {s : State} {n : Nat}
    (hr : ∀ c, c ∈ (books s).cards → c.shot = n → c.raw ≠ .filling ∧ c.wanted = false)
    (ht : ∀ e, e ∈ (books s).tether → e.shot ≠ n) (hj : ∀ j, j ∈ (books s).jobs → j.shot ≠ n)
    (hh : ∀ x, x ∈ (books s).handles → x.shot = n → x.part ≠ .raw) : Lawful s (s.freeRaw n) := by
  unfold State.freeRaw
  split
  · exact .refl s
  · rename_i r hf
    have hr := hr r.card (findRecord_card hf).1 (findRecord_card hf).2
    refine free_lawful fun ho => ?_
    let g : Card → Card := fun c => { c with raw := .released, extents := [] }
    have hb : books { s.modRecord n (fun q => { q with raw := { q.raw with state := .released, extents := [] } })
        with freeRuns := insertRuns s.freeRuns r.raw.extents } =
        { (books s).modCard n g with freeRuns := insertRuns s.freeRuns r.raw.extents } := by
      rw [← books_modRecord s n
        (fun q => { q with raw := { q.raw with state := .released, extents := [] } }) g
        fun _ _ _ => rfl]
      rfl
    have hc := findRecord_card hf
    have hcard : ∀ c, c ∈ (books s).cards → c.shot = n → c = r.card := fun c hm e =>
      ho.findCard hf hm e
    have hok := ho.cards _ hc.1
    have hl : r.card.life ≠ .exposing := fun e => hr.1 (hok.filling.2 e)
    unfold RecordsOk BlocksOk
    erw [hb]
    refine ⟨Books.Ok.withRuns (Books.Ok.modCard ho n g ?_ ?_ ?_ ?_ ?_ ?_ ?_) _, fun hk => ?_⟩
    · intro c hm e
      cases hcard c hm e
      refine ⟨e, { hok with
        rawExtents := Nat.zero_le _
        released := ⟨fun _ => rfl, fun _ => rfl⟩
        filling := ⟨fun h => (by cases h), fun h => absurd h hl⟩
        cardOnly := fun h => ⟨rfl, (hok.cardOnly h).2⟩
        wanted := fun h => ?_ }⟩
      have h : r.card.wanted = true := h
      rw [hr.2] at h
      cases h
    · intro c _ _ h
      exact h
    · intro c _ _ e _ _ hf
      exact hf
    · intro c _ _ e he hs
      exact absurd hs (ht e he)
    · intro c _ _ j hm hs
      exact absurd hs (hj j hm)
    · intro c _ _ x hm hs hf
      have := hh x hm hs
      refine ⟨hf.1, ?_⟩
      have h2 := hf.2
      cases hp : x.part with
      | raw => exact absurd hp this
      | proof => rw [hp] at h2; exact h2
    · intro c _ _ _ hl
      exact hl
    · have := Books.BlocksOk.give hk ho hc.1 g r.raw.extents
        (fun k => by
          show covered k (r.card.extents ++ _) = covered k ([] ++ _) + _
          rw [covered_append, List.nil_append, Nat.add_comm]
          rfl)
        (fun e he => List.mem_append_right _ he)
        (fun e he => List.mem_append_left _ he)
      rw [hc.2] at this
      exact this

theorem Loose.mod {n : Nat} {s : State} (h : Loose n s) (m : Nat) (g : Record → Record)
    (hg : ∀ r, (g r).shot = r.shot ∧ (r.life ≠ .exposing → (g r).life ≠ .exposing) ∧
      (r.wanted = none → (g r).wanted = none)) : Loose n (s.modRecord m g) where
  unbound := { h.unbound with }
  issued := h.issued
  cards c hc e := by
    obtain ⟨q, hq, rfl⟩ := mem_card hc
    obtain ⟨r, hr, rfl⟩ := List.mem_map.1 hq
    by_cases hm : r.shot = m
    · rw [if_pos hm] at e ⊢
      have hs : r.shot = n := by rw [← (hg r).1]; exact e
      have h1 := h.cards r.card (card_mem hr) hs
      have h2 : r.wanted = none := by
        have : r.wanted.isSome = false := h1.2
        cases hw : r.wanted with
        | none => rfl
        | some w => rw [hw] at this; cases this
      refine ⟨(hg r).2.1 h1.1, ?_⟩
      show (g r).wanted.isSome = false
      rw [(hg r).2.2 h2]
      rfl
    · rw [if_neg hm] at e ⊢
      exact h.cards r.card (card_mem hr) e

theorem freeRaw_loose {n : Nat} {s : State} (h : Loose n s) (m : Nat) : Loose n (s.freeRaw m) := by
  unfold State.freeRaw
  split
  · exact h
  · refine free_loose (Loose.mod h m _ ?_) _
    intro r
    exact ⟨rfl, fun h => h, fun h => h⟩

/-! ### Release tests -/

theorem books_missTether (s : State) (n : Nat) :
    books (s.missTether n) =
      { books s with tether := (books s).tether.filter fun e => e.shot != n } := by
  unfold State.missTether
  split
  · rename_i h
    have : (books s).tether.filter (fun e => e.shot != n) = (books s).tether :=
      List.filter_eq_self.2 fun e he => by
        have := List.find?_eq_none.1 h e he
        simpa using this
    rw [this]
  · exact Eq.trans (notify_books _ _ _) (Eq.trans (notify_books _ _ _)
      (Eq.trans (modRecord_books _ _ _) rfl))

theorem filterTether_lawful {s t : State} (f : TetherEntry → Bool)
    (h : books t = { books s with tether := (books s).tether.filter f }) : Lawful s t := fun ho => by
  unfold RecordsOk BlocksOk
  rw [h]
  exact ⟨Books.Ok.tetherSub ho _ List.filter_sublist, fun hb => ⟨hb.runs, hb.extents, hb.once⟩⟩

theorem missTether_lawful (s : State) (n : Nat) : Lawful s (s.missTether n) :=
  filterTether_lawful _ (books_missTether s n)

theorem openOn_none {s : State} {n : Nat} {p : Part} {v : Option Nat} (h : s.openOn n p v = false)
    {x : Handle} (hx : x ∈ (books s).handles) : x.reads n p v = false := by
  have key : ∀ q : PortSt, 0 < q.handleCount n p v ∨ (some x ∈ q.handles → x.reads n p v = false) := by
    intro q
    by_cases h0 : 0 < q.handleCount n p v
    · exact .inl h0
    · refine .inr fun hm => ?_
      have := List.filter_eq_nil_iff.1 (List.eq_nil_of_length_eq_zero (Nat.eq_zero_of_not_pos h0))
        (some x) hm
      simpa using this
  simp only [State.openOn, Bool.or_eq_false_iff, decide_eq_false_iff_not] at h
  simp only [books, List.filterMap_append, List.mem_append, List.mem_filterMap, id] at hx
  rcases hx with (⟨y, hy, rfl⟩ | ⟨y, hy, rfl⟩) | ⟨y, hy, rfl⟩
  · exact (key _).resolve_left h.1.1 hy
  · exact (key _).resolve_left h.1.2 hy
  · exact (key _).resolve_left h.2 hy

theorem hasJob_none {s : State} {n : Nat} (h : s.hasJob n = false) {j : JobCard}
    (hj : j ∈ (books s).jobs) : j.shot ≠ n := by
  obtain ⟨k, hk, rfl⟩ := List.mem_map.1 hj
  have : ¬ k.shot = n := by simpa using List.any_eq_false.1 h k hk
  exact this

theorem rawTest_lawful (s : State) (n : Nat) : Lawful s (s.rawTest n) := by
  refine Lawful.under fun ho => ?_
  unfold State.rawTest
  split
  · exact .refl s
  · rename_i r hf
    split
    · rename_i h
      simp only [State.rawReleasable, Bool.and_eq_true, beq_iff_eq, Bool.not_eq_true',
        Option.isNone_iff_eq_none] at h
      obtain ⟨hl, ⟨⟨⟨⟨⟨hp, _⟩, ho1⟩, _⟩, hj⟩, hw⟩⟩ := h
      have hs := findRecord_shot hf
      rw [hs] at ho1 hj
      have hb := books_missTether s n
      refine (missTether_lawful s n).trans (freeRaw_lawful ?_ ?_ ?_ ?_)
      · intro c hc e
        rw [hb] at hc
        cases ho.findCard hf hc e
        exact ⟨by simp [Record.card, hp], by simp [Record.card, hw]⟩
      · intro e he
        rw [hb] at he
        simpa using (List.mem_filter.1 he).2
      · intro j hm
        rw [hb] at hm
        exact hasJob_none hj hm
      · intro x hx e hpart
        rw [hb] at hx
        have h1 := openOn_none ho1 hx
        obtain ⟨c, hc, hcs, hfit⟩ := ho.handleFits x hx
        have h2 := hfit.2
        rw [hpart] at h2
        simp [Handle.reads, e, hpart, h2.1] at h1
    · exact .refl s

/-- The version of a number and the others hold the blocks of all. -/
theorem covered_versions (k m : Nat) (vs : List Version) (h : (vs.map Version.number).Nodup) :
    covered k (vs.flatMap Version.extents) =
      covered k ((vs.filter fun v => v.number != m).flatMap Version.extents) +
        covered k (match vs.find? fun v => v.number == m with
          | some v => v.extents
          | none => []) := by
  induction vs with
  | nil => rfl
  | cons v rest ih =>
    rw [List.map_cons, List.nodup_cons] at h
    have ih := ih h.2
    rw [List.flatMap_cons, covered_append, ih, List.filter_cons, List.find?_cons]
    by_cases e : v.number = m
    · have h1 : rest.find? (fun v => v.number == m) = none := List.find?_eq_none.2 fun w hw he => by
        have hm : w.number = m := by simpa using he
        exact h.1 (List.mem_map.2 ⟨w, hw, hm.trans e.symm⟩)
      rw [h1]
      simp only [e, bne_self_eq_false, Bool.false_eq_true, if_false, beq_self_eq_true, covered_nil]
      omega
    · have h2 : (v.number != m) = true := by simpa using e
      have h3 : (v.number == m) = false := by simpa using e
      rw [h2, h3, if_pos rfl, List.flatMap_cons, covered_append]
      dsimp only
      omega

theorem card_blocks (r : Record) : r.card.blocks = r.blocks := by
  simp [Card.blocks, Record.blocks, Record.card, List.flatMap_map, Version.card]

theorem version_inj {l : List VersionCard} (h : (l.map VersionCard.number).Nodup) {v w : VersionCard}
    (hv : v ∈ l) (hw : w ∈ l) (e : v.number = w.number) : v = w := by
  induction l with
  | nil => cases hv
  | cons x rest ih =>
    rw [List.map_cons, List.nodup_cons] at h
    cases hv with
    | head =>
      cases hw with
      | head => rfl
      | tail _ hw => exact absurd (List.mem_map.2 ⟨w, hw, e.symm⟩) h.1
    | tail _ hv =>
      cases hw with
      | head => exact absurd (List.mem_map.2 ⟨v, hv, e⟩) h.1
      | tail _ hw => exact ih h.2 hv hw

/-- A version that nothing needs any more is freed (R20, R21, R24). -/
theorem freeVersion_lawful {s : State} {n m : Nat}
    (hr : ∀ e, e ∈ (books s).relay → e.shot = n → e.version ≠ some m)
    (hj : ∀ j, j ∈ (books s).jobs → j.shot = n → j.state = .running → j.version ≠ m)
    (hh : ∀ x, x ∈ (books s).handles → x.shot = n → x.part = .proof → x.version ≠ some m) :
    Lawful s (s.freeVersion n m) := by
  unfold State.freeVersion
  split
  · exact .refl s
  · rename_i r hf
    refine free_lawful fun ho => ?_
    let g : Card → Card := fun c => { c with versions := c.versions.filter fun v => v.number != m }
    let gr : Record → Record := fun q => { q with versions := q.versions.filter fun v => v.number != m }
    have hg : ∀ q : Record, (gr q).card = g q.card := fun q => by
      show Card.mk _ _ _ _ ((q.versions.filter _).map Version.card) _ _ =
        Card.mk _ _ _ _ ((q.versions.map Version.card).filter _) _ _
      rw [List.filter_map]
      rfl
    have hb : books { s.modRecord n gr with
          freeRuns := insertRuns s.freeRuns (r.extents .proof (some m)) } =
        { (books s).modCard n g with
          freeRuns := insertRuns s.freeRuns (r.extents .proof (some m)) } := by
      rw [← books_modRecord s n gr g fun q _ _ => hg q]
      rfl
    have hc := findRecord_card hf
    have hcard : ∀ c, c ∈ (books s).cards → c.shot = n → c = r.card := fun c hm e =>
      ho.findCard hf hm e
    have hok := ho.cards _ hc.1
    have hsub : (g r.card).versions.Sublist r.card.versions := List.filter_sublist
    have keep : ∀ v, v ∈ r.card.versions → v.number ≠ m → v ∈ (g r.card).versions := fun v hv e =>
      List.mem_filter.2 ⟨hv, by simpa using e⟩
    unfold RecordsOk BlocksOk
    erw [hb]
    refine ⟨Books.Ok.withRuns (Books.Ok.modCard ho n g ?_ ?_ ?_ ?_ ?_ ?_ ?_) _, fun hk => ?_⟩
    · intro c hm e
      cases hcard c hm e
      exact ⟨e, { hok with
        versions := Nat.le_trans hsub.length_le hok.versions
        numbers := (hsub.map _).nodup hok.numbers
        current := Nat.le_trans (hsub.filter _).length_le hok.current
        versionExtents := fun v hv => hok.versionExtents v (hsub.subset hv)
        exposing := fun h => by
          have := hok.exposing h
          refine ⟨?_, this.2⟩
          show (r.card.versions.filter _) = []
          rw [this.1]
          rfl
        cardOnly := fun h => by
          have := hok.cardOnly h
          refine ⟨this.1, ?_⟩
          show (r.card.versions.filter _) = []
          rw [this.2]
          rfl }⟩
    · intro c _ _ h
      exact h
    · intro c hm hs e he hes hfit
      cases hcard c hm hs
      refine ⟨hfit.1, hfit.2.1, fun k hk => ?_⟩
      obtain ⟨v, hv, hvn, hvs⟩ := hfit.2.2 k hk
      refine ⟨v, keep v hv fun e2 => hr e he hes ?_, hvn, hvs⟩
      rw [hk, ← hvn, e2]
    · intro c _ _ e _ _ hf
      exact hf
    · intro c hm hs j hjm hjs hfit
      cases hcard c hm hs
      refine ⟨hfit.1, hfit.2.1, fun hrun => ?_⟩
      obtain ⟨v, hv, hvn, hvs⟩ := hfit.2.2 hrun
      exact ⟨v, keep v hv fun e2 => hj j hjm hjs hrun (by rw [← hvn, e2]), hvn, hvs⟩
    · intro c hm hs x hx hxs hfit
      cases hcard c hm hs
      refine ⟨hfit.1, ?_⟩
      have h2 := hfit.2
      cases hp : x.part with
      | raw => rw [hp] at h2; exact h2
      | proof =>
        rw [hp] at h2
        obtain ⟨v, hv, hvn, hvs⟩ := h2
        exact ⟨v, keep v hv fun e2 => hh x hx hxs hp (by rw [hvn, e2]), hvn, hvs⟩
    · intro c _ _ _ hl
      exact hl
    · have hnum : (r.versions.map Version.number).Nodup := by
        have := hok.numbers
        simpa [Record.card, List.map_map, Function.comp_def, Version.card] using this
      have hext : ∀ k, covered k (r.extents .proof (some m)) =
          covered k (match r.versions.find? fun v => v.number == m with
            | some v => v.extents
            | none => []) := fun _ => rfl
      have := Books.BlocksOk.give hk ho hc.1 g (r.extents .proof (some m))
        (fun k => by
          rw [← hg r, card_blocks, card_blocks]
          show covered k (r.raw.extents ++ _) = covered k (r.raw.extents ++ _) + _
          rw [covered_append, covered_append, hext k, covered_versions k m _ hnum]
          exact (Nat.add_assoc _ _ _).symm)
        (fun e he => by
          rcases List.mem_append.1 he with h1 | h1
          · exact List.mem_append_left _ h1
          · obtain ⟨v, hv, hve⟩ := List.mem_flatMap.1 h1
            exact List.mem_append_right _ (List.mem_flatMap.2 ⟨v, hsub.subset hv, hve⟩))
        (fun e he => by
          rw [card_blocks]
          refine List.mem_append_right _ ?_
          simp only [Record.extents, Record.version] at he
          split at he
          · rename_i v hv
            exact List.mem_flatMap.2 ⟨v, List.mem_of_find?_eq_some hv, he⟩
          · cases he)
      rw [hc.2] at this
      exact this

theorem freeVersion_loose {n : Nat} {s : State} (h : Loose n s) (k m : Nat) :
    Loose n (s.freeVersion k m) := by
  unfold State.freeVersion
  split
  · exact h
  · refine free_loose (Loose.mod h k _ ?_) _
    intro r
    exact ⟨rfl, fun h => h, fun h => h⟩

theorem relayEntry_none {s : State} {n : Nat} (h : s.relayEntry n = none) {e : RelayEntry}
    (he : e ∈ (books s).relay) : e.shot ≠ n := by
  have := List.find?_eq_none.1 h e he
  simpa using this

theorem tetherEntry_none {s : State} {n : Nat} (h : s.tetherEntry n = none) {e : TetherEntry}
    (he : e ∈ (books s).tether) : e.shot ≠ n := by
  have := List.find?_eq_none.1 h e he
  simpa using this

theorem openOn_proof {s : State} {n m : Nat} (h : s.openOn n .proof (some m) = false) {x : Handle}
    (hx : x ∈ (books s).handles) (e : x.shot = n) (hp : x.part = .proof) : x.version ≠ some m := by
  intro hv
  have := openOn_none h hx
  simp [Handle.reads, e, hp, hv] at this

/-- A version found by its number is that version (R18). -/
theorem RecordsOk.version {s : State} (h : RecordsOk s) {n m : Nat} {r : Record} {v : Version}
    (hr : s.findRecord n = some r) (hv : r.version m = some v) {w : VersionCard}
    (hw : w ∈ r.card.versions) (e : w.number = m) : w = v.card := by
  have hm : v ∈ r.versions := List.mem_of_find?_eq_some hv
  have hn : v.number = m := by
    have := List.find?_some hv
    simpa using this
  exact version_inj (h.cards _ (findRecord_card hr).1).numbers hw (List.mem_map_of_mem hm)
    (e.trans hn.symm)

theorem versionReleasable_lawful {s : State} {n m : Nat} {r : Record} {v : Version}
    (hr : s.findRecord n = some r) (hv : r.version m = some v)
    (h : s.versionReleasable r v = true) : Lawful s (s.freeVersion n m) := by
  refine Lawful.under fun ho => ?_
  have hs := findRecord_shot hr
  have hn : v.number = m := by
    have := List.find?_some hv
    simpa using this
  have hc := findRecord_card hr
  have building : ∀ j, j ∈ (books s).jobs → j.shot = n → j.state = .running → j.version = m →
      v.state = .building := by
    intro j hj e hrun hjv
    obtain ⟨c, hcm, hcs, hfit⟩ := ho.jobFits j hj
    cases ho.findCard hr hcm (hcs.trans e)
    obtain ⟨w, hw, hwn, hws⟩ := hfit.2.2 hrun
    rw [ho.version hr hv hw (hwn.trans hjv)] at hws
    exact hws
  rw [State.versionReleasable, Bool.or_eq_true] at h
  rcases h with h | h
  · simp only [State.drainingReleasable, Bool.and_eq_true, beq_iff_eq, Bool.not_eq_true'] at h
    obtain ⟨⟨⟨h1, h2⟩, _⟩, h4⟩ := h
    rw [hs, hn] at h2
    refine freeVersion_lawful ?_ ?_ ?_
    · intro e he hes hev
      have hfl := (ho.relayBound e he).1 (by rw [hev]; rfl)
      have := List.any_eq_false.1 h4 e he
      simp [hs, hes, hfl, hn, hev] at this
    · intro j hj e hrun hjv
      rw [building j hj e hrun hjv] at h1
      cases h1
    · intro x hx e hp
      exact openOn_proof h2 hx e hp
  · simp only [State.currentReleasable, Bool.and_eq_true, beq_iff_eq, Bool.not_eq_true',
      Option.isNone_iff_eq_none] at h
    obtain ⟨⟨⟨⟨h1, _⟩, h3⟩, _⟩, h5⟩ := h
    rw [hs, hn] at h3
    rw [hs] at h5
    refine freeVersion_lawful ?_ ?_ ?_
    · intro e he hes
      exact absurd hes (relayEntry_none h5 he)
    · intro j hj e hrun hjv
      rw [building j hj e hrun hjv] at h1
      cases h1
    · intro x hx e hp
      exact openOn_proof h3 hx e hp

theorem versionTests_lawful (s : State) (n : Nat) (ms : List Nat) : Lawful s (s.versionTests n ms) := by
  induction ms generalizing s with
  | nil => exact .refl s
  | cons m rest ih =>
    unfold State.versionTests
    split
    · exact .refl s
    · rename_i r hr
      split
      · exact ih s
      · rename_i v hv
        split
        · rename_i h
          simp only [Bool.and_eq_true] at h
          exact (versionReleasable_lawful hr hv h.2).trans (ih _)
        · exact ih s

theorem cardOnlyTest_lawful (s : State) (n : Nat) : Lawful s (s.cardOnlyTest n) := by
  refine Lawful.under fun ho => ?_
  unfold State.cardOnlyTest
  split
  · exact .refl s
  · rename_i r hr
    split
    · rename_i h
      refine .trans ?_ (retryCatalog_lawful _)
      simp only [State.hasHold, Bool.and_eq_true, beq_iff_eq, Bool.not_eq_true', Bool.or_eq_false_iff,
        bne_eq_false_iff_eq, Bool.not_eq_false', List.isEmpty_iff, Option.isSome_eq_false_iff,
        Option.isNone_iff_eq_none] at h
      obtain ⟨hl, ⟨⟨⟨⟨h1, h2⟩, h3⟩, h4⟩, h5⟩, h6⟩ := h
      have hs := findRecord_shot hr
      rw [hs] at h3 h4 h5
      have hcard : ∀ c, c ∈ (books s).cards → c.shot = n → c = r.card := fun c hm e =>
        ho.findCard hr hm e
      have hok := ho.cards _ (findRecord_card hr).1
      have hv : r.card.versions = [] := by simp [Record.card, h2]
      let g : Card → Card := fun c => { c with life := .cardOnly }
      have hu : (books s).Unbound n :=
        { relay := fun e he => relayEntry_none h3 he
          tether := fun e he => tetherEntry_none h4 he
          jobs := fun j hj => hasJob_none h5 hj
          handles := fun x hx e => by
            obtain ⟨c, hc, hcs, hfit⟩ := ho.handleFits x hx
            cases hcard c hc (hcs.trans e)
            have h7 := hfit.2
            cases hp : x.part with
            | raw =>
              rw [hp] at h7
              have : r.raw.state = .present := h7.2
              rw [h1] at this
              cases this
            | proof =>
              rw [hp, hv] at h7
              obtain ⟨v, hm, _⟩ := h7
              cases hm
          frame := fun e => by
            obtain ⟨c, hc, hcs, hce⟩ := (ho.frame _ _ e).1 rfl
            cases hcard c hc hcs
            have : r.life = .exposing := hce
            rw [hl] at this
            cases this }
      intro _
      unfold RecordsOk BlocksOk
      rw [books_modRecord s n _ g fun _ _ _ => rfl]
      refine ⟨Books.Ok.modCard_unbound ho n g hu ?_ fun _ _ _ h => h,
        fun hb => Books.BlocksOk.modCard hb n g fun _ _ _ => rfl⟩
      intro c hm e
      cases hcard c hm e
      exact ⟨e, { hok with
        filling := ⟨fun h => (by
          have : r.raw.state = .filling := h
          rw [h1] at this
          cases this), fun h => (by cases h)⟩
        exposing := fun h => (by cases h)
        cardOnly := fun _ => ⟨h1, hv⟩
        wanted := fun h => (by
          have : r.wanted.isSome = true := h
          rw [h6] at this
          cases this) }⟩
    · exact .refl s

theorem releaseTests_lawful (s : State) (n : Nat) : Lawful s (s.releaseTests n) := by
  unfold State.releaseTests
  split
  · exact .refl s
  · exact ((rawTest_lawful _ _).trans (versionTests_lawful _ _ _)).trans (cardOnlyTest_lawful _ _)

theorem releaseAll_lawful (s : State) (ns : List Nat) : Lawful s (s.releaseAll ns) := by
  induction ns generalizing s with
  | nil => exact .refl s
  | cons n rest ih => exact (releaseTests_lawful s n).trans (ih _)

/-! ### Records that go -/

theorem removeRecord_lawful {s : State} {n : Nat} (hu : (books s).Unbound n) :
    Lawful s (s.removeRecord n) := by
  unfold State.removeRecord
  split
  · exact .refl s
  · rename_i r hr
    refine .trans (free_lawful fun ho => ?_) (retryCatalog_lawful _)
    have hc := findRecord_card hr
    have hb : books { s with
          catalog := s.catalog.filter fun q => q.shot != n
          freeRuns := insertRuns s.freeRuns r.blocks } =
        { books s with
          cards := (books s).cards.filter fun d => d.shot != n
          freeRuns := insertRuns s.freeRuns r.blocks } := by
      show Books.mk ((s.catalog.filter _).map Record.card) _ _ _ _ _ _ _ =
        Books.mk ((s.catalog.map Record.card).filter _) _ _ _ _ _ _ _
      rw [List.filter_map]
      rfl
    unfold RecordsOk BlocksOk
    erw [hb]
    refine ⟨Books.Ok.withRuns (Books.Ok.sub ho _ List.filter_sublist fun c hm => ?_) _, fun hk => ?_⟩
    · by_cases e : c.shot = n
      · exact .inr (e ▸ hu)
      · exact .inl (List.mem_filter.2 ⟨hm, by simpa using e⟩)
    · have := Books.BlocksOk.remove hk ho hc.1
      rw [hc.2, card_blocks] at this
      exact this

theorem Loose.freeRaw {n : Nat} {s : State} (h : Loose n s) : Lawful s (s.freeRaw n) :=
  Lawful.under fun ho => freeRaw_lawful
    (fun c hc e => ⟨fun hf => (h.cards c hc e).1 ((ho.cards c hc).filling.1 hf), (h.cards c hc e).2⟩)
    h.unbound.tether h.unbound.jobs fun x hx e _ => absurd e (h.unbound.handles x hx)

theorem Loose.freeVersion {n : Nat} {s : State} (h : Loose n s) (m : Nat) :
    Lawful s (s.freeVersion n m) :=
  freeVersion_lawful (fun e he hs => absurd hs (h.unbound.relay e he))
    (fun j hj hs => absurd hs (h.unbound.jobs j hj))
    fun x hx e _ => absurd e (h.unbound.handles x hx)

/-- A copy of a DELETING shot has ended (R25). -/
theorem settleDeleting_lawful (s : State) (n : Nat) (part : Part) (v : Option Nat)
    (hd : ∀ r, s.findRecord n = some r → r.life = .deleting) : Lawful s (s.settleDeleting n part v) := by
  refine Lawful.under fun ho => ?_
  unfold State.settleDeleting
  split
  · exact .refl s
  · rename_i r hr
    have hl : Loose n s := ho.loose hr (by rw [hd r hr]; decide) (by rw [hd r hr]; decide)
    dsimp only
    generalize hh : (((r.copies.get .a part).inFlight && (r.copies.get .a part).version == v) ||
      ((r.copies.get .b part).inFlight && (r.copies.get .b part).version == v)) = held
    have hfree : ∀ u : State, (u = s ∨ (part = .raw ∧ u = s.freeRaw n) ∨
        (∃ m, part = .proof ∧ v = some m ∧ u = s.freeVersion n m)) → Lawful s u ∧ Loose n u := by
      intro u hu
      rcases hu with rfl | ⟨_, rfl⟩ | ⟨m, _, _, rfl⟩
      · exact ⟨.refl _, hl⟩
      · exact ⟨hl.freeRaw, freeRaw_loose hl n⟩
      · exact ⟨hl.freeVersion m, freeVersion_loose hl n m⟩
    have key : ∀ u : State, (u = s ∨ (part = .raw ∧ u = s.freeRaw n) ∨
        (∃ m, part = .proof ∧ v = some m ∧ u = s.freeVersion n m)) →
        Lawful s (if r.anyInFlight then u else u.removeRecord n) := by
      intro u hu
      obtain ⟨h1, h2⟩ := hfree u hu
      split
      · exact h1
      · exact h1.trans (removeRecord_lawful h2.unbound)
    refine key _ ?_
    cases held
    · cases part
      · exact .inr (.inl ⟨rfl, rfl⟩)
      · cases v
        · exact .inl rfl
        · exact .inr (.inr ⟨_, rfl, rfl, rfl⟩)
    · exact .inl rfl

theorem removeRecord_loose {n : Nat} {s : State} (h : Loose n s) (m : Nat) :
    Loose n (s.removeRecord m) := by
  unfold State.removeRecord
  split
  · exact h
  · refine retryCatalog_loose
      (free_loose (s := { s with catalog := s.catalog.filter fun q => q.shot != m }) ?_ _)
    exact ⟨{ h.unbound with }, h.issued,
      fun c hc => h.cards c ((List.filter_sublist.map Record.card).subset hc)⟩

end Sys2Proof.Machine
end

