-- ==== Sys2Proof/Laws/LawfulJobs.lean ====
section
/-! SUPPORT. `Lawful` (Lawful.lean) for the operations of the Development Engine: proof wanted, the job
queue, starts and aborts. -/
set_option Elab.async false
namespace Sys2Proof.Machine

/-- The shot has a HELD record whose raw is PRESENT. -/
def HoldsRaw (n : Nat) (s : State) : Prop := ∃ c, c ∈ (books s).cards ∧ c.shot = n ∧ TetherFits c

theorem SameBooks.holdsRaw {n : Nat} {s t : State} (h : SameBooks s t) (k : HoldsRaw n s) :
    HoldsRaw n t := by
  unfold HoldsRaw at *
  rw [h]
  exact k

/-- The record found is the one that is HELD with its raw. -/
theorem HoldsRaw.find {n : Nat} {s : State} (k : HoldsRaw n s) (ho : RecordsOk s) :
    ∃ r, s.findRecord n = some r ∧ TetherFits r.card := by
  obtain ⟨c, hc, rfl, hf⟩ := k
  obtain ⟨r, hr, rfl⟩ := ho.found hc
  exact ⟨r, hr, hf⟩

theorem HoldsRaw.cards {n : Nat} {s : State} (k : HoldsRaw n s) (ho : RecordsOk s) {c : Card}
    (hc : c ∈ (books s).cards) (e : c.shot = n) : TetherFits c := by
  obtain ⟨d, hd, hs, hf⟩ := k
  cases Books.Ok.unique ho hc hd (e.trans hs.symm)
  exact hf

theorem holdsRaw_find {n : Nat} {s : State} {r : Record} (h : s.findRecord n = some r)
    (h1 : r.life = .held) (h2 : r.raw.state = .present) : HoldsRaw n s :=
  ⟨r.card, (findRecord_card h).1, (findRecord_card h).2, h1, h2⟩

/-- A job of the queue has its raw. -/
theorem RecordsOk.jobRaw {s : State} (ho : RecordsOk s) {j : Job} (hj : j ∈ s.dev.queue) :
    HoldsRaw j.shot s := by
  obtain ⟨c, hc, hs, hf⟩ := ho.jobFits j.card (List.mem_map_of_mem hj)
  exact ⟨c, hc, hs, hf.1, hf.2.1⟩

/-- A proof wanted has its raw. -/
theorem RecordsOk.wantedRaw {s : State} (ho : RecordsOk s) {n : Nat} {r : Record} {w : Wanted}
    (h : s.findRecord n = some r) (hw : r.wanted = some w) : HoldsRaw n s := by
  have := (ho.cards _ (findRecord_card h).1).wanted (by simp [Record.card, hw])
  exact holdsRaw_find h this.1 this.2

/-! ### Proof wanted -/

/-- Set the wanted mark of a card. -/
def Card.want (w : Bool) (c : Card) : Card := { c with wanted := w }

theorem books_setWanted (s : State) (n : Nat) (w : Option Wanted) :
    books (s.setWanted n w) = (books s).modCard n (Card.want w.isSome) :=
  books_modRecord s n _ _ fun _ _ _ => rfl

theorem Card.le_want (w : Bool) (c : Card) : c.Le (c.want w) :=
  ⟨rfl, rfl, rfl, rfl, fun v hv hs => ⟨v, hv, rfl, hs⟩, fun v hv hs => ⟨v, hv, rfl, hs⟩⟩

theorem setWanted_lawful {s : State} {n : Nat} {w : Option Wanted}
    (hw : w = none ∨ HoldsRaw n s) : Lawful s (s.setWanted n w) := fun ho => by
  unfold RecordsOk BlocksOk
  rw [books_setWanted]
  refine ⟨Books.Ok.modCard_le ho n _ (fun c hc e hk => ?_) fun c _ _ => c.le_want _,
    fun hb => Books.BlocksOk.modCard hb n _ fun _ _ _ => rfl⟩
  exact { hk with
    wanted := fun h => by
      rcases hw with rfl | hw
      · cases h
      · exact HoldsRaw.cards (c := c) hw ho hc e }

theorem setWanted_raw {n m : Nat} {s : State} (w : Option Wanted) (k : HoldsRaw n s) :
    HoldsRaw n (s.setWanted m w) := by
  obtain ⟨c, hc, hs, hf⟩ := k
  unfold HoldsRaw
  rw [books_setWanted]
  by_cases e : c.shot = m
  · exact ⟨c.want w.isSome, List.mem_map.2 ⟨c, hc, if_pos e⟩, hs, hf⟩
  · exact ⟨c, List.mem_map.2 ⟨c, hc, if_neg e⟩, hs, hf⟩

/-! ### The queue -/

theorem dropJob_lawful (s : State) (j : Job) : Lawful s (s.dropJob j) := fun ho => by
  have hb : books (s.dropJob j) =
      { books s with jobs := (s.dev.queue.erase j).map Job.card } := rfl
  unfold RecordsOk BlocksOk
  rw [hb]
  exact ⟨Books.Ok.jobsSub ho _ (List.erase_sublist.map _), fun hk => ⟨hk.runs, hk.extents, hk.once⟩⟩

theorem appendJob_lawful {s : State} {n : Nat} (hr : HoldsRaw n s) (i : Nat) (o : JobOrigin)
    (ask : List Port) (c l : Bool) : Lawful s (s.appendJob n i o ask c l) := fun ho => by
  have hb : books (s.appendJob n i o ask c l) =
      { books s with jobs := (books s).jobs ++ [⟨n, .queued, 0, false, false⟩] } := by
    simp only [State.appendJob, books, State.markAttempt, List.map_append]
    rfl
  unfold RecordsOk BlocksOk
  rw [hb]
  refine ⟨{ ho with running := ?_, begun := ?_, jobFits := ?_ },
    fun hk => ⟨hk.runs, hk.extents, hk.once⟩⟩
  · have := ho.running
    simp only [List.filter_append, List.length_append]
    exact this
  · intro j hj
    rcases List.mem_append.1 hj with h | h
    · exact ho.begun j h
    · cases List.mem_singleton.1 h
      exact ⟨⟨fun h => (nomatch h), fun h => (nomatch h)⟩, ⟨fun h => (nomatch h), fun h => (nomatch h)⟩⟩
  · intro j hj
    rcases List.mem_append.1 hj with h | h
    · exact ho.jobFits j h
    · cases List.mem_singleton.1 h
      obtain ⟨d, hd, hs, hf⟩ := hr
      exact ⟨d, hd, hs, hf.1, hf.2, fun h => (nomatch h)⟩

theorem admitFrom_lawful (s : State) (ns : List Nat) : Lawful s (s.admitFrom ns) := by
  induction ns generalizing s with
  | nil => exact .refl s
  | cons n rest ih =>
    refine Lawful.under fun ho => ?_
    unfold State.admitFrom
    split
    · exact ih s
    · rename_i r hr
      split
      · exact ih s
      · rename_i w hw
        have hraw := ho.wantedRaw hr hw
        split
        · exact (((mergeAuto_books _ _ _).lawful.trans (setWanted_lawful (.inl rfl))).trans
            (releaseTests_lawful _ _)).trans (ih _)
        · split
          · exact (((appendJob_lawful hraw _ _ _ _ _).trans (setWanted_lawful (.inl rfl))).trans
              (releaseTests_lawful _ _)).trans (ih _)
          · exact .refl s

theorem admitAuto_lawful (s : State) : Lawful s s.admitAuto := admitFrom_lawful _ _

/-! ### Starts -/

theorem changeJob_eq (l : List Job) (j : Job) (f : Job → Job) :
    changeJob l j f = l ∨ ∃ a b, l = a ++ j :: b ∧ changeJob l j f = a ++ f j :: b := by
  induction l with
  | nil => exact .inl rfl
  | cons k rest ih =>
    unfold changeJob
    split
    · rename_i e
      subst e
      exact .inr ⟨[], rest, rfl, rfl⟩
    · rcases ih with h | ⟨a, b, h1, h2⟩
      · exact .inl (by rw [h])
      · exact .inr ⟨k :: a, b, by rw [h1]; rfl, by rw [h2]; rfl⟩

theorem nextVersionNumber_ne (n : Nat) : nextVersionNumber n ≠ n := by
  unfold nextVersionNumber
  split <;> omega

/-- A new version's number is none the shot has (R18). -/
theorem newVersionNumber_fresh {r : Record} (h : r.versions.length < 2) :
    newVersionNumber r ∉ r.versions.map Version.number := by
  unfold newVersionNumber
  dsimp only
  generalize nextVersionNumber r.lastVersion = n
  generalize r.versions = l at *
  match l, h with
  | [], _ => simp
  | [v], _ =>
    by_cases e : v.number = n
    · simp [e, nextVersionNumber_ne]
    · simp [e, Ne.symm e]

theorem runningJob_none {s : State} (h : s.runningJob = none) {j : JobCard}
    (hj : j ∈ (books s).jobs) : j.state ≠ .running := by
  obtain ⟨k, hk, rfl⟩ := List.mem_map.1 hj
  have := List.find?_eq_none.1 h k hk
  simpa [Job.card] using this

/-- The card with a version added. -/
def Card.build (v : VersionCard) (c : Card) : Card := { c with versions := c.versions ++ [v] }

theorem Card.le_build (v : VersionCard) (c : Card) : c.Le (c.build v) :=
  ⟨rfl, rfl, rfl, rfl, fun w hw hs => ⟨w, List.mem_append_left _ hw, rfl, hs⟩,
    fun w hw hs => ⟨w, List.mem_append_left _ hw, rfl, hs⟩⟩

theorem scale_blocks (x : Scale) : 0 < blocksFor x.bytes := by cases x <;> decide

theorem startJob_lawful {s : State} {j : Job} {r : Record} {rec : Recipe} {es left : List Run}
    (hn : s.runningJob = none) (hr : s.findRecord j.shot = some r) (hh : HoldsRaw j.shot s)
    (h2 : r.versions.length < 2)
    (ha : allocate (blocksFor rec.scale.bytes) s.freeRuns = .done es left) :
    Lawful s (s.startJob j r rec es left) := fun ho => by
  have h0 := scale_blocks rec.scale
  have hlen := allocate_length ha
  have hc := findRecord_card hr
  have hcard : ∀ c, c ∈ (books s).cards → c.shot = j.shot → c = r.card := fun c hm e =>
    ho.findCard hr hm e
  have hf := hh.cards ho hc.1 hc.2
  let v : VersionCard := ⟨newVersionNumber r, .building, es⟩
  let b : Books := { (books s).modCard j.shot (Card.build v) with freeRuns := left }
  have hvers : r.card.versions.length < 2 := by simpa [Record.card] using h2
  have hfresh : v.number ∉ r.card.versions.map VersionCard.number := by
    have := newVersionNumber_fresh h2
    simpa [Record.card, Version.card] using this
  have hb : b.Ok := by
    refine Books.Ok.withRuns (Books.Ok.modCard_le ho _ _ ?_ fun c _ _ => c.le_build v) _
    intro c hm e hok
    cases hcard c hm e
    exact { hok with
      versions := by
        simp only [Card.build, List.length_append, List.length_singleton]
        omega
      numbers := by
        simp only [Card.build, List.map_append, List.map_cons, List.map_nil]
        exact List.nodup_append.2 ⟨hok.numbers, by simp, by
          intro a ha b hb e
          cases List.mem_singleton.1 hb
          exact hfresh (e ▸ ha)⟩
      current := by
        have : [v].filter (fun v => v.state == .current) = [] := rfl
        simp only [Card.build, List.filter_append, this, List.append_nil]
        exact hok.current
      versionExtents := by
        intro w hw
        rcases List.mem_append.1 hw with h | h
        · exact hok.versionExtents w h
        · cases List.mem_singleton.1 h
          have : es ≠ [] := fun e => by
            rw [e] at hlen
            exact absurd hlen.1 (by decide)
          exact ⟨List.length_pos_iff.2 this, hlen.2⟩
      exposing := fun h => by
        have : r.card.life = .exposing := h
        rw [hf.1] at this
        cases this
      cardOnly := fun h => by
        have : r.card.life = .cardOnly := h
        rw [hf.1] at this
        cases this }
  have hblocks : (books s).BlocksOk → b.BlocksOk := fun hk => by
    have := Books.BlocksOk.take hk ho hc.1 (Card.build v) h0 ha
      (fun k => by
        simp only [Card.blocks, Card.build, List.flatMap_append, covered_append, List.flatMap_cons,
          List.flatMap_nil, List.append_nil, v]
        omega)
      (fun e he => by
        simp only [Card.blocks, Card.build, List.flatMap_append, List.mem_append, List.flatMap_cons,
          List.flatMap_nil, List.append_nil] at he
        rcases he with he | he | he
        · exact .inl (List.mem_append_left _ he)
        · exact .inl (List.mem_append_right _ he)
        · exact .inr he)
    rw [hc.2] at this
    exact this
  have key : ∀ q : List Job, ∀ s2 : State,
      books s2 = { b with jobs := q.map Job.card } →
      (q = s.dev.queue ∨ ∃ x y k, s.dev.queue = x ++ j :: y ∧ q = x ++ k :: y ∧
        k.card = ⟨j.shot, .running, newVersionNumber r, true, true⟩) →
      RecordsOk s2 ∧ (BlocksOk s → BlocksOk s2) := by
    intro q s2 e hq
    unfold RecordsOk BlocksOk
    rw [e]
    refine ⟨?_, fun hk => ⟨(hblocks hk).runs, (hblocks hk).extents, (hblocks hk).once⟩⟩
    rcases hq with rfl | ⟨x, y, k, h1, rfl, h3⟩
    · exact hb
    · have hrun : ∀ d : JobCard, d ∈ x.map Job.card ∨ d ∈ y.map Job.card →
          d ∈ (books s).jobs := fun d hd => by
        show d ∈ s.dev.queue.map Job.card
        rw [h1, List.map_append, List.map_cons]
        rcases hd with hd | hd
        · exact List.mem_append_left _ hd
        · exact List.mem_append_right _ (List.mem_cons_of_mem _ hd)
      have quiet : ∀ l : List Job, (∀ d, d ∈ l.map Job.card → d ∈ (books s).jobs) →
          ((l.map Job.card).filter fun d => d.state == .running) = [] := fun l hl =>
        List.filter_eq_nil_iff.2 fun d hd => by simpa using runningJob_none hn (hl d hd)
      have split : ∀ d : JobCard, d ∈ (x ++ k :: y).map Job.card → d ∈ (books s).jobs ∨ d = k.card := by
        intro d hd
        rw [List.map_append, List.map_cons] at hd
        rcases List.mem_append.1 hd with hd | hd
        · exact .inl (hrun d (.inl hd))
        · rcases List.mem_cons.1 hd with hd | hd
          · exact .inr hd
          · exact .inl (hrun d (.inr hd))
      refine { hb with running := ?_, begun := ?_, jobFits := ?_ }
      · dsimp only
        rw [List.map_append, List.map_cons, List.filter_append, List.filter_cons,
          quiet x fun d hd => hrun d (.inl hd), quiet y fun d hd => hrun d (.inr hd)]
        split <;> simp
      · intro d hd
        rcases split d hd with hd | rfl
        · exact ho.begun d hd
        · rw [h3]
          exact ⟨⟨fun _ => rfl, fun _ => rfl⟩, ⟨fun _ => rfl, fun _ => rfl⟩⟩
      · intro d hd
        rcases split d hd with hd | rfl
        · exact hb.jobFits d hd
        · rw [h3]
          refine ⟨r.card.build v, List.mem_map.2 ⟨r.card, hc.1, if_pos hc.2⟩, hc.2, hf.1, hf.2,
            fun _ => ⟨v, List.mem_append_right _ List.mem_cons_self, rfl, rfl⟩⟩
  let w : Version :=
    { number := newVersionNumber r, recipe := j.recipe, scale := rec.scale, size := rec.scale.bytes,
      extents := es, checksum := none, state := .building, conditions := .clear, collector := none }
  let f : Job → Job := fun k =>
    let c := { k.conditions with rawDamaged := r.flags.damaged }
    { k with state := .running, snapshot := some rec, version := newVersionNumber r,
             rowsDone := some 0, conditions := c, saturation := 0 }
  refine key (changeJob s.dev.queue j f) _ ?_ ?_
  · refine Eq.trans (beginRow_books _ _ _) ?_
    have hm := books_modRecord s j.shot
      (fun q => { q with versions := q.versions ++ [w], lastVersion := newVersionNumber r })
      (Card.build v) fun q _ _ => by simp [Record.card, Card.build, Version.card, v, w]
    simp only [b, ← hm]
    rfl
  · rcases changeJob_eq s.dev.queue j f with h | ⟨x, y, h1, h2⟩
    · exact .inl h
    · exact .inr ⟨x, y, _, h1, h2, rfl⟩

theorem tryJobs_lawful (s : State) (js : List Job) (hn : s.runningJob = none)
    (hj : ∀ j, j ∈ js → HoldsRaw j.shot s) : Lawful s (s.tryJobs js) := by
  induction js generalizing s with
  | nil => exact .refl s
  | cons j rest ih =>
    have hrest : ∀ k, k ∈ rest → HoldsRaw k.shot s := fun k hk => hj k (List.mem_cons_of_mem _ hk)
    have wait : Lawful s (State.tryJobs (s.setSpaceWait j) rest) := by
      have hs := setSpaceWait_books s j
      refine hs.lawful.trans (ih _ ?_ fun k hk => hs.holdsRaw (hrest k hk))
      refine List.find?_eq_none.2 fun k hk => ?_
      have hm : k.card ∈ (books (s.setSpaceWait j)).jobs := List.mem_map_of_mem hk
      rw [hs] at hm
      simpa [Job.card] using runningJob_none hn hm
    unfold State.tryJobs
    split
    · exact ih s hn hrest
    · split
      · exact ih s hn hrest
      · rename_i r hr
        split
        · exact ih s hn hrest
        · rename_i h2
          dsimp only
          split
          · rename_i es left ha
            exact startJob_lawful hn hr (hj j List.mem_cons_self) (by omega) ha
          · exact wait
          · exact wait

theorem attemptJob_lawful (s : State) : Lawful s s.attemptJob := by
  refine Lawful.under fun ho => ?_
  unfold State.attemptJob
  split
  · dsimp only
    refine Lawful.trans (b := { s with dev := { s.dev with attemptDue := false } })
      (SameBooks.plain).lawful ?_
    split
    · rename_i h
      simp only [State.mayStart, Bool.and_eq_true, Option.isNone_iff_eq_none] at h
      exact tryJobs_lawful _ _ h.1.1.1 fun j hj => ho.jobRaw hj
    · exact .refl _
  · exact .refl s

theorem settle_lawful (s : State) : Lawful s s.settle :=
  (attemptJob_lawful s).trans (grant_books _).lawful

end Sys2Proof.Machine
end

