-- ==== Sys2Proof/Laws/LawfulQueues.lean ====
section
/-! SUPPORT. `Lawful` (Lawful.lean) for the send queues, the handles and the end of a job. -/
set_option Elab.async false
namespace Sys2Proof.Machine

/-! ### The relay queue -/

/-- Set the send mark of a card. -/
def Card.mark (b : Bool) (c : Card) : Card := { c with send := b }

theorem Card.Ok.mark {c : Card} (h : c.Ok) (b : Bool) (hb : b = true → c.life ≠ .exposing) :
    (c.mark b).Ok :=
  { h with
    exposing := fun e => ⟨(h.exposing e).1, by
      cases b
      · rfl
      · exact absurd e (hb rfl)⟩ }

/-- An entry leaves the relay queue with the mark (R138). -/
theorem Books.Ok.removeRelay {b : Books} (h : b.Ok) (n : Nat) :
    ({ b.modCard n (Card.mark false) with relay := b.relay.filter fun e => e.shot != n } :
      Books).Ok := by
  have carry : ∀ (P : Card → Prop) (k : Nat), (∃ c, c ∈ b.cards ∧ c.shot = k ∧ P c) →
      (∀ c, c.shot = n → k = n → P c → P (c.mark false)) →
      ∃ c, c ∈ (b.modCard n (Card.mark false)).cards ∧ c.shot = k ∧ P c := by
    intro P k ⟨c, hc, hs, hP⟩ hg
    by_cases e : c.shot = n
    · exact ⟨c.mark false, List.mem_map.2 ⟨c, hc, if_pos e⟩, hs, hg c e (hs ▸ e) hP⟩
    · exact ⟨c, List.mem_map.2 ⟨c, hc, if_neg e⟩, hs, hP⟩
  have hsub : (b.relay.filter fun e => e.shot != n).Sublist b.relay := List.filter_sublist
  exact
    { h with
      catalog := by
        have : (b.modCard n (Card.mark false)).cards.map Card.shot = b.cards.map Card.shot :=
          map_if_shot _ _ _ fun c _ e => e
        show ShotsOk ((b.modCard n (Card.mark false)).cards.map Card.shot) _
        rw [this]
        exact h.catalog
      cards := by
        intro c hc
        obtain ⟨d, hd, rfl⟩ := List.mem_map.1 hc
        split
        · exact (h.cards d hd).mark false fun e => nomatch e
        · exact h.cards d hd
      relayOnce := (hsub.map _).nodup h.relayOnce
      relayFlight := Nat.le_trans (hsub.filter _).length_le h.relayFlight
      relayBound := fun e he => h.relayBound e (hsub.subset he)
      relayFits := fun e he => by
        obtain ⟨h1, h2⟩ := List.mem_filter.1 he
        exact carry _ _ (h.relayFits e h1) fun c _ hk => by simp [hk] at h2
      tagged := by
        intro c hc hs
        obtain ⟨d, hd, rfl⟩ := List.mem_map.1 hc
        by_cases e : d.shot = n
        · rw [if_pos e] at hs
          cases hs
        · rw [if_neg e] at hs ⊢
          obtain ⟨x, hx, hxs⟩ := h.tagged d hd hs
          exact ⟨x, List.mem_filter.2 ⟨hx, by simpa [hxs] using e⟩, hxs⟩
      tetherFits := fun e he => carry _ _ (h.tetherFits e he) fun _ _ _ hP => hP
      jobFits := fun e he => carry _ _ (h.jobFits e he) fun _ _ _ hP => hP
      handleFits := fun e he => carry _ _ (h.handleFits e he) fun _ _ _ hP => hP
      frame := fun k m hf => ⟨fun hk => carry (fun c => c.life = .exposing) _ ((h.frame k m hf).1 hk)
        fun _ _ _ hP => hP, (h.frame k m hf).2⟩ }

/-- A change of an entry in its place. -/
theorem Books.Ok.modRelay {b : Books} (h : b.Ok) (n : Nat) (f : RelayEntry → RelayEntry)
    (hs : ∀ e, (f e).shot = e.shot)
    (hb : ∀ e, e ∈ b.relay → e.shot = n → ((f e).version.isSome = true ↔ (f e).state = .inFlight))
    (hf : ∀ e, e ∈ b.relay → e.shot = n → ∀ c, c ∈ b.cards → c.shot = n → e.Fits c → (f e).Fits c)
    (hc : ((modRelayList b.relay n f).filter fun e => e.state == .inFlight).length ≤ 2) :
    ({ b with relay := modRelayList b.relay n f } : Books).Ok := by
  have split : ∀ e, e ∈ modRelayList b.relay n f →
      e ∈ b.relay ∨ ∃ d, d ∈ b.relay ∧ d.shot = n ∧ e = f d := by
    intro e he
    obtain ⟨d, hd, rfl⟩ := List.mem_map.1 he
    split
    · rename_i e
      exact .inr ⟨d, hd, e, rfl⟩
    · exact .inl hd
  have hshots : (modRelayList b.relay n f).map RelayEntry.shot = b.relay.map RelayEntry.shot := by
    rw [modRelayList, List.map_map]
    refine List.map_congr_left fun e _ => ?_
    simp only [Function.comp]
    split
    · exact hs e
    · rfl
  exact
    { h with
      relayOnce := by rw [hshots]; exact h.relayOnce
      relayFlight := hc
      relayBound := fun e he => by
        rcases split e he with h1 | ⟨d, h1, h2, rfl⟩
        · exact h.relayBound e h1
        · exact hb d h1 h2
      relayFits := fun e he => by
        rcases split e he with h1 | ⟨d, h1, h2, rfl⟩
        · exact h.relayFits e h1
        · obtain ⟨c, hc, hcs, hfit⟩ := h.relayFits d h1
          exact ⟨c, hc, hcs.trans (hs d).symm, hf d h1 h2 c hc (hcs.trans h2) hfit⟩
      tagged := fun c hc ht => by
        obtain ⟨e, he, hes⟩ := h.tagged c hc ht
        refine ⟨_, List.mem_map_of_mem he, ?_⟩
        split
        · exact (hs e).trans hes
        · exact hes }

/-- An entry joins the relay queue with the mark (R139). -/
theorem Books.Ok.appendRelay {b : Books} (h : b.Ok) (n : Nat) (e : RelayEntry) (he : e.shot = n)
    (hv : e.version = none) (hst : e.state ≠ .inFlight) (hnew : ∀ d, d ∈ b.relay → d.shot ≠ n)
    (hh : ∃ c, c ∈ b.cards ∧ c.shot = n ∧ c.life = .held) :
    ({ b.modCard n (Card.mark true) with relay := b.relay ++ [e] } : Books).Ok := by
  obtain ⟨c0, hc0, hs0, hl0⟩ := hh
  have hlife : ∀ c, c ∈ b.cards → c.shot = n → c.life = .held := fun c hc e => by
    cases h.unique hc hc0 (e.trans hs0.symm)
    exact hl0
  have carry : ∀ (P : Card → Prop) (k : Nat), (∃ c, c ∈ b.cards ∧ c.shot = k ∧ P c) →
      (∀ c, P c → P (c.mark true)) →
      ∃ c, c ∈ (b.modCard n (Card.mark true)).cards ∧ c.shot = k ∧ P c := by
    intro P k ⟨c, hc, hs, hP⟩ hg
    by_cases e : c.shot = n
    · exact ⟨c.mark true, List.mem_map.2 ⟨c, hc, if_pos e⟩, hs, hg c hP⟩
    · exact ⟨c, List.mem_map.2 ⟨c, hc, if_neg e⟩, hs, hP⟩
  exact
    { h with
      catalog := by
        have : (b.modCard n (Card.mark true)).cards.map Card.shot = b.cards.map Card.shot :=
          map_if_shot _ _ _ fun c _ e => e
        show ShotsOk ((b.modCard n (Card.mark true)).cards.map Card.shot) _
        rw [this]
        exact h.catalog
      cards := by
        intro c hc
        obtain ⟨d, hd, rfl⟩ := List.mem_map.1 hc
        split
        · rename_i e
          exact (h.cards d hd).mark true fun _ hx => by
            rw [hlife d hd e] at hx
            cases hx
        · exact h.cards d hd
      relayOnce := by
        rw [List.map_append]
        refine List.nodup_append.2 ⟨h.relayOnce, by simp, ?_⟩
        intro a ha d hd e2
        obtain ⟨x, hx, rfl⟩ := List.mem_map.1 ha
        cases List.mem_singleton.1 hd
        exact hnew x hx (e2.trans he)
      relayFlight := by
        have : [e].filter (fun e => e.state == .inFlight) = [] := by simpa using hst
        rw [List.filter_append, this, List.append_nil]
        exact h.relayFlight
      relayBound := fun d hd => by
        rcases List.mem_append.1 hd with h1 | h1
        · exact h.relayBound d h1
        · cases List.mem_singleton.1 h1
          rw [hv]
          exact ⟨fun h => (nomatch h), fun h => absurd h hst⟩
      relayFits := fun d hd => by
        rcases List.mem_append.1 hd with h1 | h1
        · exact carry _ _ (h.relayFits d h1) fun c hf => ⟨hf.1, rfl, hf.2.2⟩
        · cases List.mem_singleton.1 h1
          exact ⟨c0.mark true, List.mem_map.2 ⟨c0, hc0, if_pos hs0⟩, hs0.trans he.symm, hl0, rfl,
            fun k hk => by rw [hv] at hk; cases hk⟩
      tagged := by
        intro c hc hs
        obtain ⟨d, hd, rfl⟩ := List.mem_map.1 hc
        by_cases e2 : d.shot = n
        · rw [if_pos e2]
          exact ⟨e, List.mem_append_right _ List.mem_cons_self, he.trans e2.symm⟩
        · rw [if_neg e2] at hs ⊢
          obtain ⟨x, hx, hxs⟩ := h.tagged d hd hs
          exact ⟨x, List.mem_append_left _ hx, hxs⟩
      tetherFits := fun e he => carry _ _ (h.tetherFits e he) fun _ hP => hP
      jobFits := fun e he => carry _ _ (h.jobFits e he) fun _ hP => hP
      handleFits := fun e he => carry _ _ (h.handleFits e he) fun _ hP => hP
      frame := fun k m hf => ⟨fun hk => carry (fun c => c.life = .exposing) _ ((h.frame k m hf).1 hk)
        fun _ hP => hP, (h.frame k m hf).2⟩ }

theorem books_removeRelay (s : State) (n : Nat) (st : RelayState) :
    books (s.removeRelay n st) =
      { (books s).modCard n (Card.mark false) with
        relay := (books s).relay.filter fun e => e.shot != n } := by
  have h := books_modRecord s n
    (fun r => { r with relay := st, tags := { r.tags with send := false, priority := false } })
    (Card.mark false) fun _ _ _ => rfl
  rw [← h]
  rfl

theorem Lawful.of_books {s t : State} {b : Books} (e : books t = b)
    (h : RecordsOk s → b.Ok ∧ ((books s).BlocksOk → b.BlocksOk)) : Lawful s t := fun ho => by
  unfold RecordsOk BlocksOk
  rw [e]
  exact h ho

theorem removeRelay_lawful (s : State) (n : Nat) (st : RelayState) : Lawful s (s.removeRelay n st) :=
  .of_books (books_removeRelay s n st) fun ho => ⟨Books.Ok.removeRelay ho n, fun hb => by
    have := Books.BlocksOk.modCard hb n (Card.mark false) fun _ _ _ => rfl
    exact ⟨this.runs, this.extents, this.once⟩⟩

theorem books_modRelay (s : State) (n : Nat) (st : RelayState) (f : RelayEntry → RelayEntry) :
    books (s.modRelay n st f) = { books s with relay := modRelayList (books s).relay n f } :=
  modRecord_books { s with snq := { s.snq with relay := modRelayList s.snq.relay n f } } _ _

theorem relay_unique {b : Books} (h : b.Ok) {d e : RelayEntry} (hd : d ∈ b.relay) (he : e ∈ b.relay)
    (hs : d.shot = e.shot) : d = e := by
  have := h.relayOnce
  generalize b.relay = l at *
  induction l with
  | nil => cases hd
  | cons x rest ih =>
    rw [List.map_cons, List.nodup_cons] at this
    cases hd with
    | head =>
      cases he with
      | head => rfl
      | tail _ he => exact absurd (List.mem_map.2 ⟨e, he, hs.symm⟩) this.1
    | tail _ hd =>
      cases he with
      | head => exact absurd (List.mem_map.2 ⟨d, hd, hs⟩) this.1
      | tail _ he => exact ih hd he this.2

theorem relayEntry_mem {s : State} {n : Nat} {e : RelayEntry} (h : s.relayEntry n = some e) :
    e ∈ (books s).relay ∧ e.shot = n := by
  refine ⟨List.mem_of_find?_eq_some h, ?_⟩
  have := List.find?_some h
  simpa using this

theorem filter_cons_length {α : Type} (p : α → Bool) (x : α) (l : List α) :
    ((x :: l).filter p).length = (l.filter p).length + (p x).toNat := by
  cases h : p x <;> simp [h]

/-- Where a change of an entry keeps what is counted, no more are counted. -/
theorem count_le {α : Type} (p : α → Bool) (c : α → Prop) [DecidablePred c] (f : α → α) (l : List α)
    (hf : ∀ e, p (f e) = true → p e = true) :
    ((l.map fun e => if c e then f e else e).filter p).length ≤ (l.filter p).length := by
  induction l with
  | nil => exact Nat.le_refl _
  | cons e rest ih =>
    rw [List.map_cons, filter_cons_length, filter_cons_length]
    have : (p (if c e then f e else e)).toNat ≤ (p e).toNat := by
      split
      · cases h : p (f e)
        · exact Nat.zero_le _
        · exact Nat.le_of_eq (by rw [hf e h])
      · exact Nat.le_refl _
    omega

/-- A change of one entry counts at most one more. -/
theorem count_succ {α : Type} (p : α → Bool) (g : α → Nat) (n : Nat) (f : α → α) (l : List α)
    (h : (l.map g).Nodup) :
    ((l.map fun e => if g e = n then f e else e).filter p).length ≤ (l.filter p).length + 1 := by
  induction l with
  | nil => exact Nat.zero_le _
  | cons e rest ih =>
    rw [List.map_cons, List.nodup_cons] at h
    have ih := ih h.2
    rw [List.map_cons, filter_cons_length, filter_cons_length]
    by_cases hs : g e = n
    · have : (rest.map fun e => if g e = n then f e else e) = rest := by
        conv => rhs; rw [← List.map_id rest]
        refine List.map_congr_left fun x hx => if_neg fun hxs => h.1 ?_
        exact List.mem_map.2 ⟨x, hx, hxs.trans hs.symm⟩
      rw [this]
      have := Bool.toNat_le (p (if g e = n then f e else e))
      omega
    · rw [if_neg hs]
      omega

theorem relayReady_lawful (s : State) (n : Nat) : Lawful s (s.relayReady n) := by
  unfold State.relayReady
  split
  · exact .refl s
  · rename_i e he
    split
    · rename_i hw
      refine .trans (.of_books (b := { books s with
        relay := modRelayList (books s).relay n fun e => { e with state := .ready } }) rfl
        fun ho => ⟨?_, fun hb => ⟨hb.runs, hb.extents, hb.once⟩⟩) (notify_books _ _ _).lawful
      refine Books.Ok.modRelay ho n _ (fun _ => rfl) ?_ (fun _ _ _ _ _ _ hf => hf) ?_
      · intro d hd hs
        have := relay_unique ho hd (relayEntry_mem he).1 (hs.trans (relayEntry_mem he).2.symm)
        subst this
        exact ⟨fun h => absurd ((ho.relayBound d hd).1 h) (by rw [hw]; decide), fun h => (nomatch h)⟩
      · exact Nat.le_trans (count_le _ _ _ _ fun _ h => nomatch h) ho.relayFlight
    · exact .refl s

theorem relayWantsProof_lawful {s : State} {n : Nat} (hr : HoldsRaw n s) :
    Lawful s (s.relayWantsProof n) := by
  unfold State.relayWantsProof
  split
  · split
    · exact setWanted_lawful (.inr hr)
    · exact .refl s
  · exact .refl s

/-! ### The tether queue -/

theorem books_removeTether (s : State) (n : Nat) (st : TetherState) :
    books (s.removeTether n st) =
      { books s with tether := (books s).tether.filter fun e => e.shot != n } :=
  modRecord_books { s with snq := { s.snq with tether := s.snq.tether.filter fun e => e.shot != n } } _ _

theorem removeTether_lawful (s : State) (n : Nat) (st : TetherState) :
    Lawful s (s.removeTether n st) :=
  filterTether_lawful _ (books_removeTether s n st)


theorem modTether_lawful {s : State} {n : Nat} {st : TetherState} {f : TetherEntry → TetherEntry}
    (hs : ∀ e, (f e).shot = e.shot)
    (hc : RecordsOk s →
      ((modTetherList (books s).tether n f).filter fun e => e.inFlight).length ≤ 2) :
    Lawful s (s.modTether n st f) := by
  have hb : books (s.modTether n st f) =
      { books s with tether := modTetherList (books s).tether n f } :=
    modRecord_books { s with snq := { s.snq with tether := modTetherList s.snq.tether n f } } _ _
  refine .of_books hb fun ho => ⟨?_, fun hk => ⟨hk.runs, hk.extents, hk.once⟩⟩
  have hshots : (modTetherList (books s).tether n f).map TetherEntry.shot =
      (books s).tether.map TetherEntry.shot := by
    rw [modTetherList, List.map_map]
    refine List.map_congr_left fun e _ => ?_
    simp only [Function.comp]
    split
    · exact hs e
    · rfl
  exact
    { ho with
      tetherOnce := by rw [hshots]; exact ho.tetherOnce
      tetherFlight := hc ho
      tetherFits := fun e he => by
        obtain ⟨d, hd, rfl⟩ := List.mem_map.1 he
        obtain ⟨c, hc, hcs, hf⟩ := ho.tetherFits d hd
        refine ⟨c, hc, ?_, hf⟩
        split
        · exact hcs.trans (hs d).symm
        · exact hcs }

theorem autoTransfer_lawful {s : State} {n : Nat} (hr : HoldsRaw n s)
    (hnew : ∀ e, e ∈ (books s).tether → e.shot ≠ n) : Lawful s (s.autoTransfer n) := by
  unfold State.autoTransfer
  split
  · split
    · refine .trans ?_ (notify_books _ _ _).lawful
      have hb := modRecord_books
        { s with snq := { s.snq with tether := s.snq.tether ++ [⟨n, false, 0⟩] } } n
        (fun r => { r with tether := .queued })
      refine .of_books (b := { books s with tether := (books s).tether ++ [⟨n, false, 0⟩] }) hb
        fun ho => ⟨?_, fun hk => ⟨hk.runs, hk.extents, hk.once⟩⟩
      exact
        { ho with
          tetherOnce := by
            rw [List.map_append]
            refine List.nodup_append.2 ⟨ho.tetherOnce, by simp, ?_⟩
            intro a ha d hd e2
            obtain ⟨x, hx, rfl⟩ := List.mem_map.1 ha
            cases List.mem_singleton.1 hd
            exact hnew x hx e2
          tetherFlight := by
            rw [List.filter_append]
            simpa using ho.tetherFlight
          tetherFits := fun e he => by
            rcases List.mem_append.1 he with h | h
            · exact ho.tetherFits e h
            · cases List.mem_singleton.1 h
              exact hr }
    · exact (((modRecord_books _ _ _).trans (notify_books _ _ _)).trans (notify_books _ _ _)).lawful
  · exact .refl s

/-! ### Aborts -/

theorem runningJob_mem {s : State} {j : Job} (h : s.runningJob = some j) :
    j ∈ s.dev.queue ∧ j.state = .running := by
  refine ⟨List.mem_of_find?_eq_some h, ?_⟩
  have := List.find?_some h
  simpa using this

/-- No other job runs beside the running one (R95). -/
theorem RecordsOk.aloneOf {s : State} (ho : RecordsOk s) {j : Job} (hm : j ∈ s.dev.queue)
    (hr : j.state = .running) {d : JobCard} (hd : d ∈ (s.dev.queue.erase j).map Job.card) : d.state ≠ .running := by
  have h1 : (s.dev.queue.map Job.card).Perm (j.card :: (s.dev.queue.erase j).map Job.card) := by
    have := (List.perm_cons_erase hm).map Job.card
    exact this
  have h2 := (h1.filter fun d => d.state == .running).length_eq
  have h3 := ho.running
  rw [List.filter_cons, if_pos (by simpa [Job.card] using hr)] at h2
  simp only [List.length_cons] at h2
  have h4 : (((s.dev.queue.erase j).map Job.card).filter fun d => d.state == .running).length = 0 := by
    have : ((books s).jobs.filter fun d => d.state == .running).length ≤ 1 := h3
    have e : (books s).jobs = s.dev.queue.map Job.card := rfl
    rw [e] at this
    omega
  intro e
  have := List.filter_eq_nil_iff.1 (List.eq_nil_of_length_eq_zero h4) d hd
  simp [e] at this

theorem RecordsOk.alone {s : State} (ho : RecordsOk s) {j : Job} (h : s.runningJob = some j)
    {d : JobCard} (hd : d ∈ (s.dev.queue.erase j).map Job.card) : d.state ≠ .running :=
  ho.aloneOf (runningJob_mem h).1 (runningJob_mem h).2 hd

/-- The lists of the books beside the records. -/
def Books.rest (b : Books) : List RelayEntry × List JobCard × List Handle := (b.relay, b.jobs, b.handles)

theorem SameBooks.rest {s t : State} (h : SameBooks s t) : (books t).rest = (books s).rest := by rw [h]

theorem setWanted_rest (s : State) (n : Nat) (w : Option Wanted) :
    (books (s.setWanted n w)).rest = (books s).rest := rfl

theorem restoreWanted_lawful {s : State} {j : Job} (hr : HoldsRaw j.shot s) (why : AbortCause) :
    Lawful s (s.restoreWanted j why) ∧ HoldsRaw j.shot (s.restoreWanted j why) ∧
      (books (s.restoreWanted j why)).rest = (books s).rest := by
  unfold State.restoreWanted
  split
  · split
    · exact ⟨setWanted_lawful (.inr hr), setWanted_raw _ hr, rfl⟩
    · exact ⟨.refl s, hr, rfl⟩
  · exact ⟨.refl s, hr, rfl⟩

theorem relayWantsProof_rest (s : State) (n : Nat) :
    (books (s.relayWantsProof n)).rest = (books s).rest := by
  unfold State.relayWantsProof
  split
  · split <;> rfl
  · rfl

/-- What refers to the running job's version is the job alone (R18, R20, R159). -/
theorem RecordsOk.building {s : State} (ho : RecordsOk s) {j : Job} (h : s.runningJob = some j) :
    (∀ e, e ∈ (books s).relay → e.shot = j.shot → e.version ≠ some j.version) ∧
      (∀ x, x ∈ (books s).handles → x.shot = j.shot → x.part = .proof →
        x.version ≠ some j.version) := by
  obtain ⟨hm, hr⟩ := runningJob_mem h
  obtain ⟨c, hc, hcs, hf⟩ := ho.jobFits j.card (List.mem_map_of_mem hm)
  obtain ⟨v, hv, hvn, hvs⟩ := hf.2.2 hr
  have key : ∀ d, d ∈ (books s).cards → d.shot = j.shot → ∀ w, w ∈ d.versions →
      w.number = j.version → w.state = .building := by
    intro d hd hds w hw hwn
    have e := Books.Ok.unique ho hd hc (hds.trans hcs.symm)
    subst e
    rw [version_inj (ho.cards d hd).numbers hw hv (hwn.trans hvn.symm)]
    exact hvs
  constructor
  · intro e he hes hev
    obtain ⟨d, hd, hds, hfit⟩ := ho.relayFits e he
    obtain ⟨w, hw, hwn, hws⟩ := hfit.2.2 _ hev
    exact hws (key d hd (hds.trans hes) w hw hwn)
  · intro x hx hxs hp hxv
    obtain ⟨d, hd, hds, hfit⟩ := ho.handleFits x hx
    have h2 := hfit.2
    rw [hp] at h2
    obtain ⟨w, hw, hwn, hws⟩ := h2
    rw [hxv] at hwn
    exact hws (key d hd (hds.trans hxs) w hw (Option.some.inj hwn).symm)

theorem abortJob_lawful {s : State} {j : Job} (h : s.runningJob = some j) (why : AbortCause) :
    Lawful s (s.abortJob j why) := by
  refine Lawful.under fun ho => ?_
  have hraw := ho.jobRaw (runningJob_mem h).1
  have hb := ho.building h
  have ha : ∀ d, d ∈ (s.dev.queue.erase j).map Job.card → d.state ≠ .running :=
    fun _ hd => ho.alone h hd
  unfold State.abortJob
  dsimp only
  refine .trans ?_ (markAttempt_books _).lawful
  have h2 : SameBooks (s.dropJob j) { (s.dropJob j).discardDev with
      dev := { (s.dropJob j).discardDev.dev with engine := .idle, row := RowWork.none } } :=
    (discardDev_books _).trans .plain
  refine ((dropJob_lawful s j).trans h2.lawful).trans ?_
  have hraw2 : HoldsRaw j.shot { (s.dropJob j).discardDev with
      dev := { (s.dropJob j).discardDev.dev with engine := .idle, row := RowWork.none } } :=
    h2.holdsRaw hraw
  have hrest : (books { (s.dropJob j).discardDev with
      dev := { (s.dropJob j).discardDev.dev with engine := .idle, row := RowWork.none } }).rest =
      ((books s).relay, (s.dev.queue.erase j).map Job.card, (books s).handles) := h2.rest
  generalize ({ (s.dropJob j).discardDev with
      dev := { (s.dropJob j).discardDev.dev with engine := .idle, row := RowWork.none } } : State) = u
    at *
  obtain ⟨h3, h4, h5⟩ := restoreWanted_lawful hraw2 why
  have h6 := relayWantsProof_lawful h4
  have h7 := relayWantsProof_rest (u.restoreWanted j why) j.shot
  have h8 := reportJob_books ((u.restoreWanted j why).relayWantsProof j.shot) j (abortedResult j why)
  refine ((h3.trans h6).trans h8.lawful).trans ?_
  have h9 := h8.rest.trans (h7.trans (h5.trans hrest))
  simp only [Books.rest, Prod.mk.injEq] at h9
  obtain ⟨e1, e2, e3⟩ := h9
  refine freeVersion_lawful ?_ ?_ ?_
  · rw [e1]; exact hb.1
  · rw [e2]; exact fun _ hd _ hr => absurd hr (ha _ hd)
  · rw [e3]; exact hb.2

theorem abortSave_lawful (s : State) : Lawful s s.abortSave := by
  unfold State.abortSave
  split
  · exact .refl s
  · rename_i j hj
    exact ((abortJob_lawful hj _).trans (releaseTests_lawful _ _)).trans (admitAuto_lawful _)

theorem removeQueued_lawful (s : State) (js : List Job) (n : Nat) :
    Lawful s (s.removeQueued js n) := by
  induction js generalizing s with
  | nil => exact .refl s
  | cons j rest ih =>
    unfold State.removeQueued
    split
    · exact ((dropJob_lawful _ _).trans (reportJob_books _ _ _).lawful).trans (ih _)
    · exact ih s

end Sys2Proof.Machine
end

