-- ==== Sys2Proof/Laws/LawfulCapture.lean ====
section
/-! SUPPORT. `Lawful` (Lawful.lean) for the ends of copies, the sequencer, power and the resets of a
port. -/
set_option Elab.async false
namespace Sys2Proof.Machine

/-! ### Copies -/

/-- A record that is DELETING stays so where the books stay. -/
theorem SameBooks.deleting {s t : State} (h : SameBooks s t) (ho : RecordsOk s) {n : Nat} {r : Record}
    (hr : s.findRecord n = some r) (hd : r.life = .deleting) :
    ∀ q, t.findRecord n = some q → q.life = .deleting := by
  intro q hq
  have hc := findRecord_card hq
  rw [h] at hc
  have := ho.findCard hr hc.1 hc.2
  have e : q.card.life = r.card.life := by rw [this]
  exact e.trans hd

theorem copyEnded_lawful (s : State) (f : Flight) : Lawful s (s.copyEnded f) := by
  unfold State.copyEnded
  split
  · exact .refl s
  · rename_i r hr
    split
    · rename_i hd
      refine settleDeleting_lawful _ _ _ _ fun q hq => ?_
      rw [hr] at hq
      cases hq
      exact hd
    · exact releaseTests_lawful _ _

theorem copyWritten_lawful (s : State) (x : Slot) (f : Flight) (u : Bool) :
    Lawful s (s.copyWritten x f u) := by
  unfold State.copyWritten
  dsimp only
  refine .trans ?_ (chooseWork_books _ _).lawful
  have h := ((endFlight_books s x .ready).trans (modCopy_books _ f.shot x f.part fun c =>
    { c with state := .written, placement := some f.planned, unverified := u })).lawful.trans
    (copyEnded_lawful _ f)
  exact .ite (h.trans (notify_books _ _ _).lawful) (h.trans (notify_books _ _ _).lawful)

theorem copyFailed_lawful (s : State) (x : Slot) (f : Flight) (why : FaultReason) (a : SlotState) :
    Lawful s (s.copyFailed x f why a) := by
  unfold State.copyFailed
  split
  · exact (endFlight_books _ _ _).lawful
  · dsimp only
    refine .trans ?_ (chooseWork_books _ _).lawful
    refine .trans ?_ (notify_books _ _ _).lawful
    refine .trans ?_ (copyEnded_lawful _ _)
    refine .trans ?_ (setSlot_books _ _ _).lawful
    refine .trans ?_ (modCopy_books _ _ _ _ _).lawful
    refine .trans ?_ (endFlight_books _ _ _).lawful
    exact .ite (fresh_books s).lawful (.refl s)

theorem writingDone_lawful (s : State) (x : Slot) (f : Flight) : Lawful s (s.writingDone x f) := by
  unfold State.writingDone
  exact .ite (copyWritten_lawful _ _ _ _) ((setSlot_books _ _ _).trans (modCopy_books _ _ _ _ _)).lawful

theorem removeCard_lawful (s : State) (x : Slot) : Lawful s (s.removeCard x) := by
  refine Lawful.under fun ho => ?_
  unfold State.removeCard
  dsimp only
  have h0 := endReinit_books s x .state
  split
  · exact (h0.trans (setSlot_books _ _ _)).lawful
  · rename_i f _
    have h1 := h0.trans ((discardMed_books _ x).trans (setSlot_books _ x
      { ((s.endReinit x .state).slot x) with state := .absent, space := [], flight := none }))
    generalize ((s.endReinit x .state).discardMed x).setSlot x
      { ((s.endReinit x .state).slot x) with state := .absent, space := [], flight := none } = u at *
    split
    · exact h1.lawful
    · rename_i r hr
      split
      · rename_i hd
        have h2 := (fresh_books u).trans (modCopy_books u.fresh f.shot x f.part fun c =>
          { c with state := discardedCopyState u.freeCount, placement := none })
        refine (h1.trans h2).lawful.trans (settleDeleting_lawful _ _ _ _ ?_)
        exact h2.deleting (h1.lawful ho).1 hr hd
      · exact (h1.trans (modCopy_books _ _ _ _ _)).lawful

/-! ### Frames -/

theorem noFrame_lawful {s t : State} (h : books t = { books s with frame := none }) : Lawful s t :=
  .of_books h fun ho => ⟨Books.Ok.noFrame ho, fun hb => ⟨hb.runs, hb.extents, hb.once⟩⟩

theorem goOff_lawful (s : State) (b : Bool) : Lawful s (s.goOff b) := by
  unfold State.goOff
  refine .trans ?_ (dropPending_books _).lawful
  refine .trans ?_ (endSession_books _).lawful
  refine .trans ?_ (emptyStore_books _).lawful
  exact (setSeq_books s .off).lawful.trans (noFrame_lawful rfl)

theorem abandonView_lawful (s : State) : Lawful s s.abandonView := by
  unfold State.abandonView
  split
  · exact .trans (noFrame_lawful (s := s) rfl) (emptyStore_books _).lawful
  · exact .refl s

theorem acceptBurst_lawful (s : State) (o : Origin) (c e i : Nat) :
    Lawful s (s.acceptBurst o c e i) :=
  (abandonView_lawful s).trans (SameBooks.plain (s := s.abandonView)).lawful

theorem triggerShutter_lawful (s : State) : Lawful s s.triggerShutter :=
  .ite (acceptBurst_lawful _ _ _ _ _) (.refl s)

/-- An EXPOSING record is bound by its frame alone. -/
theorem RecordsOk.exposing {s : State} (ho : RecordsOk s) {c : Card} (hc : c ∈ (books s).cards)
    (hl : c.life = .exposing) : ({ books s with frame := none } : Books).Unbound c.shot where
  relay e hm hs := by
    obtain ⟨d, hd, hds, hf⟩ := ho.relayFits e hm
    have := Books.Ok.unique ho hc hd (by rw [hds, hs])
    rw [this] at hl
    rw [hf.1] at hl
    cases hl
  tether e hm hs := by
    obtain ⟨d, hd, hds, hf⟩ := ho.tetherFits e hm
    have := Books.Ok.unique ho hc hd (by rw [hds, hs])
    rw [this, hf.1] at hl
    cases hl
  jobs e hm hs := by
    obtain ⟨d, hd, hds, hf⟩ := ho.jobFits e hm
    have := Books.Ok.unique ho hc hd (by rw [hds, hs])
    rw [this, hf.1] at hl
    cases hl
  handles e hm hs := by
    obtain ⟨d, hd, hds, hf⟩ := ho.handleFits e hm
    have := Books.Ok.unique ho hc hd (by rw [hds, hs])
    rw [this, hf.1] at hl
    cases hl
  frame := fun h => nomatch h

/-- The record of the frame in progress, if it has one, is bound by the frame alone. -/
theorem RecordsOk.framed {s : State} (ho : RecordsOk s) {f : Frame} (hf : s.rsq.frame = some f)
    {r : Record} (hr : s.findRecord f.shot = some r) :
    r.life = .exposing ∧ ({ books s with frame := none } : Books).Unbound f.shot := by
  have hb : (books s).frame = some (f.kind, f.shot) := by simp [books, hf]
  have hc := findRecord_card hr
  cases hk : f.kind with
  | view =>
    have := (ho.frame _ _ hb).2 hk
    have h1 := (ho.catalog.2.2 r.card.shot (List.mem_map_of_mem hc.1)).1
    rw [hc.2, this] at h1
    omega
  | still =>
    obtain ⟨c, hm, hs, hl⟩ := (ho.frame _ _ hb).1 hk
    have e := ho.findCard hr hm hs
    have h2 := ho.exposing hm hl
    rw [hs] at h2
    rw [e] at hl
    exact ⟨hl, h2⟩

theorem SameBooks.unbound {n : Nat} {s t : State} (h : SameBooks s t) (k : (books s).Unbound n) :
    (books t).Unbound n := by rw [h]; exact k

theorem abandonStill_lawful (s : State) : Lawful s s.abandonStill := by
  refine Lawful.under fun ho => ?_
  unfold State.abandonStill
  split
  · exact .refl s
  · rename_i f hf
    have hb : books { s with rsq := { s.rsq with frame := none } } =
        { books s with frame := none } := rfl
    have h2 := (emptyStore_books { s with rsq := { s.rsq with frame := none } }).trans
      (emptyFifo_books _)
    have h3 : Lawful s _ := (noFrame_lawful hb).trans h2.lawful
    refine h3.trans ?_
    have hc := congrArg Books.cards h2
    have hu : ∀ r, s.findRecord f.shot = some r →
        (books ({ s with rsq := { s.rsq with frame := none } } : State).emptyStore.emptyFifo).Unbound
          f.shot := fun r hr => by
      refine h2.unbound ?_
      rw [hb]
      exact (ho.framed hf hr).2
    generalize ({ s with rsq := { s.rsq with frame := none } } : State).emptyStore.emptyFifo = u at *
    cases hq : u.findRecord f.shot with
    | none =>
      unfold State.removeRecord
      rw [hq]
      exact .refl u
    | some q =>
      have hm := findRecord_card hq
      rw [hc] at hm
      obtain ⟨r, hr, _⟩ := ho.found (c := q.card) hm.1
      rw [hm.2] at hr
      exact removeRecord_lawful (hu r hr)

theorem endView_lawful (s : State) (f : Frame) : Lawful s (s.endView f) := by
  unfold State.endView
  dsimp only
  have h := (noFrame_lawful (s := s) (t := { s with rsq := { s.rsq with state := .idle, frame := none } })
    rfl).trans (giveMidpoint_books _
      (f.start + BitVec.ofNat 32 (viewPeriod f.rate) + BitVec.ofNat 32 (f.exposure / 2))).lawful
  exact .ite ((h.trans (goOff_lawful _ _)).trans (saveTest_books _).lawful) h

theorem enterEntry_lawful {s : State} {f g : Frame} (i : Nat) (hf : s.rsq.frame = some f)
    (hk : g.kind = f.kind) (hs : g.shot = f.shot) : Lawful s (s.enterEntry g i) := by
  have key : ∀ h : Frame, h.kind = g.kind → h.shot = g.shot →
      SameBooks s { s with rsq := { s.rsq with frame := some h } } := fun h h1 h2 => by
    show books _ = books _
    simp [books, hf, h1, h2, hk, hs]
  unfold State.enterEntry
  split
  · split
    · split
      · exact (key _ rfl rfl).lawful
      · exact endView_lawful _ _
    · refine Lawful.trans ?_ (startPd_books _).lawful
      exact (key _ rfl rfl).lawful
    · exact (key _ rfl rfl).lawful
    · exact (key _ rfl rfl).lawful
    · exact (key _ rfl rfl).lawful
  · split
    · exact (key _ rfl rfl).lawful
    · exact endView_lawful _ _

theorem afterFrame_lawful (s : State) (f : Frame) : Lawful s (s.afterFrame f) := by
  unfold State.afterFrame
  dsimp only
  refine .ite (((endBurst_books _ _).lawful.trans (goOff_lawful _ _)).trans (saveTest_books _).lawful)
    (.ite ((endBurst_books _ _).trans (setSeq_books _ _)).lawful
      (.ite ((endBurst_books _ _).trans (setSeq_books _ _)).lawful ?_))
  refine .trans ?_ (giveMidpoint_books _ _).lawful
  exact ((setSeq_books s .idle).trans .plain).lawful

/-- The card as the record becomes HELD. -/
def Card.hold (c : Card) : Card := { c with life := .held, raw := .present }

/-- The end of a readout (R13): the frame is over and its record was EXPOSING. -/
theorem holdRecord_lawful {s : State} {f : Frame} {r : Record} (hr : s.findRecord f.shot = some r)
    (hl : r.life = .exposing) (hu : (books s).Unbound f.shot) : Lawful s (s.holdRecord f r) := by
  refine Lawful.under fun ho => ?_
  have hc := findRecord_card hr
  have hok := ho.cards _ hc.1
  have hb : books (s.modRecord f.shot fun q =>
      { q with life := .held,
               raw := { q.raw with state := .present, checksum := some s.rsq.rawSum } }) =
      (books s).modCard f.shot Card.hold :=
    books_modRecord _ _ _ _ fun _ _ _ => rfl
  have hfill : r.card.raw = .filling := hok.filling.2 hl
  have h1 : Lawful s (s.modRecord f.shot fun q =>
      { q with life := .held,
               raw := { q.raw with state := .present, checksum := some s.rsq.rawSum } }) := by
    refine .of_books hb fun _ => ⟨Books.Ok.modCard_unbound ho _ _ hu ?_ fun _ _ _ h => h,
      fun hk => Books.BlocksOk.modCard hk _ _ fun _ _ _ => rfl⟩
    intro c hm e
    have e2 := ho.findCard hr hm e
    subst e2
    refine ⟨e, { hok with
      released := ⟨fun h => (nomatch h), fun h => ?_⟩
      filling := ⟨fun h => (nomatch h), fun h => (nomatch h)⟩
      exposing := fun h => (nomatch h)
      cardOnly := fun h => (nomatch h)
      wanted := fun _ => ⟨rfl, rfl⟩ }⟩
    have := hok.released.2 h
    rw [hfill] at this
    cases this
  have h2 : HoldsRaw f.shot (s.modRecord f.shot fun q =>
      { q with life := .held,
               raw := { q.raw with state := .present, checksum := some s.rsq.rawSum } }) := by
    unfold HoldsRaw
    rw [hb]
    exact ⟨r.card.hold, List.mem_map.2 ⟨r.card, hc.1, if_pos hc.2⟩, hc.2, rfl, rfl⟩
  have h3 : ∀ e, e ∈ (books (s.modRecord f.shot fun q =>
      { q with life := .held,
               raw := { q.raw with state := .present, checksum := some s.rsq.rawSum } })).tether →
      e.shot ≠ f.shot := hu.tether
  unfold State.holdRecord
  dsimp only
  generalize (s.modRecord f.shot fun q =>
      { q with life := .held,
               raw := { q.raw with state := .present, checksum := some s.rsq.rawSum } }) = a at *
  have h4 := requireCopies_books a f.shot .raw none
  have k2 := h4.holdsRaw h2
  have k3 : ∀ e, e ∈ (books (a.requireCopies f.shot .raw none)).tether → e.shot ≠ f.shot := by
    rw [h4]; exact h3
  have k1 := h1.trans h4.lawful
  generalize a.requireCopies f.shot .raw none = b at *
  have step : ∀ u : State, Lawful b u → HoldsRaw f.shot u →
      (∀ e, e ∈ (books u).tether → e.shot ≠ f.shot) →
      Lawful s ((((u.autoTransfer f.shot).notifyBodyTether
        (.shotCaptured f.shot r.burst r.frame)).releaseTests f.shot).admitAuto).chooseBoth := by
    intro u g1 g2 g3
    refine .trans ?_ (chooseBoth_books _).lawful
    refine .trans ?_ (admitAuto_lawful _)
    refine .trans ?_ (releaseTests_lawful _ _)
    refine .trans ?_ (notifyBodyTether_books _ _).lawful
    exact (k1.trans g1).trans (autoTransfer_lawful g2 g3)
  split
  · exact step _ (setWanted_lawful (.inr k2)) (setWanted_raw _ k2) k3
  · exact step _ (.refl b) k2 k3

/-! ### Power -/

theorem saveCapture_lawful (s : State) : Lawful s s.saveCapture := by
  unfold State.saveCapture
  split
  · exact goOff_lawful _ _
  · exact .ite ((endBurst_books _ _).lawful.trans (goOff_lawful _ _)) (goOff_lawful _ _)
  · exact (endBurst_books _ _).lawful.trans (goOff_lawful _ _)
  · exact ((markExpired_books _).trans (enterExpose_books _)).lawful
  · exact .refl s
  · exact .refl s
  · exact .refl s
  · exact .refl s

theorem saveSlot_lawful (s : State) (x : Slot) : Lawful s (s.saveSlot x) := by
  unfold State.saveSlot
  split
  · exact .refl s
  · split
    · exact copyWritten_lawful _ _ _ _
    · exact .refl s
    · exact .refl s

theorem enterSaving_lawful (s : State) : Lawful s s.enterSaving := by
  unfold State.enterSaving
  dsimp only
  refine .trans ?_ (saveTest_books _).lawful
  refine .trans ?_ (saveSlot_lawful _ _)
  refine .trans ?_ (saveSlot_lawful _ _)
  refine .trans ?_ (abortSave_lawful _)
  refine .trans ?_ (saveCapture_lawful _)
  refine .trans ?_ (refuseHeld_books _ _).lawful
  exact (SameBooks.plain).lawful

theorem handles_lawful {s t : State} (l : List Handle) (h : books t = { books s with handles := l })
    (hl : ∀ x, x ∈ l → x ∈ (books s).handles) : Lawful s t :=
  .of_books h fun ho => ⟨Books.Ok.handlesSub ho _ hl, fun hb => ⟨hb.runs, hb.extents, hb.once⟩⟩

/-- A port that opens no handle. -/
theorem setPort_lawful (s : State) (p : Port) (q : PortSt)
    (h : ∀ x, some x ∈ q.handles → some x ∈ (s.port p).handles) : Lawful s (s.setPort p q) := by
  cases p
  · refine handles_lawful _ rfl fun x hx => ?_
    simp only [books, List.filterMap_append, List.mem_append, List.mem_filterMap, id,
      exists_eq_right] at hx ⊢
    exact hx.imp (fun h1 => h1.imp (h x) id) id
  · refine handles_lawful _ rfl fun x hx => ?_
    simp only [books, List.filterMap_append, List.mem_append, List.mem_filterMap, id,
      exists_eq_right] at hx ⊢
    exact hx.imp (fun h1 => h1.imp id (h x)) id
  · refine handles_lawful _ rfl fun x hx => ?_
    simp only [books, List.filterMap_append, List.mem_append, List.mem_filterMap, id,
      exists_eq_right] at hx ⊢
    exact hx.imp id (h x)

theorem resetPort_lawful (s : State) (p : Port) : Lawful s (s.resetPort p) := by
  unfold State.resetPort
  dsimp only
  refine .trans ?_ (setPort_lawful _ p _ (fun x h => by simp [PortSt.reset] at h))
  refine .trans (b := State.orphanReinit (State.discardPrt (State.releaseAll _ _) p) p) ?_
    (SameBooks.plain).lawful
  refine .trans ?_ (orphanReinit_books _ _).lawful
  refine .trans ?_ (discardPrt_books _ _).lawful
  refine .trans ?_ (releaseAll_lawful _ _)
  refine .trans ?_ (clearCollector_books _ _).lawful
  exact setPort_lawful _ _ _ fun x h => by simp at h

theorem serveBurst_lawful (s : State) (p : Port) (f : BurstFields) : Lawful s (s.serveBurst p f).1 := by
  unfold State.serveBurst
  dsimp only
  split
  · exact .refl s
  · split
    · exact acceptBurst_lawful _ _ _ _ _
    · exact .refl s

theorem serveHeld_lawful (s : State) (l : List Held) : Lawful s (s.serveHeld l) := by
  induction l generalizing s with
  | nil => exact .refl s
  | cons h rest ih =>
    cases h with
    | burst p f =>
      exact ((serveBurst_lawful _ _ _).trans (settleRequest_books _ _ _).lawful).trans (ih _)
    | focus p m =>
      exact ((serveFocus_books _ _).trans (settleRequest_books _ _ _)).lawful.trans (ih _)
    | edge => exact (triggerShutter_lawful _).trans (ih _)

end Sys2Proof.Machine
end

