-- ==== Sys2Proof/Laws/LawfulServes.lean ====
section
/-! SUPPORT. `Lawful` (Lawful.lean) for each block's service of each request. -/
set_option Elab.async false
namespace Sys2Proof.Machine

/-- A service keeps the laws. -/
def Serving (serve : State → State × Served) : Prop := ∀ s, Lawful s (serve s).1

theorem takeRequest_lawful {serve : State → State × Served} (h : Serving serve) (s : State) (p : Port)
    (tag : Byte) (k : RequestKind) : Lawful s (s.takeRequest p tag k serve) := by
  unfold State.takeRequest
  dsimp only
  refine .ite (.refl s) (.ite (.refl s) (.ite (answerFrame_books _ _ _ _ _).lawful
    (.ite (answerFrame_books _ _ _ _ _).lawful ?_)))
  exact ((openRequest_books _ _ _ _).lawful.trans (h _)).trans (settleRequest_books _ _ _).lawful

theorem wakeRequest_lawful (s : State) (h : Held) {serve : State → State × Served}
    (hs : Lawful s (serve s).1) : Lawful s (s.wakeRequest h serve).1 := by
  unfold State.wakeRequest
  split
  · exact hs
  · exact .refl s
  · exact (hold_books _ _).lawful
  · split
    · exact ((enterWaking_books _ _).trans (hold_books _ _)).lawful
    · exact .refl s

theorem unlessSaving_lawful (s : State) {f : State → State × Served} (h : Lawful s (f s).1) :
    Lawful s (unlessSaving s f).1 := by
  unfold unlessSaving
  split
  · exact .refl s
  · exact h

theorem withSlot_lawful (s : State) (c : Choice Slot) {f : Slot → State × Served}
    (h : ∀ x, Lawful s (f x).1) : Lawful s (withSlot s c f).1 := by
  unfold withSlot
  split
  · exact .refl s
  · exact h _

/-! ### Capture and focus -/

theorem serveBurstStart_lawful (p : Port) (f : BurstFields) : Serving (serveBurstStart p f) :=
  fun s => wakeRequest_lawful _ _ (serveBurst_lawful s _ _)

theorem serveBurstStop_lawful : Serving serveBurstStop := fun s => unlessSaving_lawful _ (by
  dsimp only
  split
  · exact .refl s
  · split
    · exact (endBurst_books _ _).lawful
    · exact ((endBurst_books _ _).trans (setSeq_books _ _)).lawful.trans (settle_lawful _)
    · exact (SameBooks.plain).lawful)

theorem serveProgramWrite_lawful (f : ProgramFields) : Serving (serveProgramWrite f) :=
  fun s => unlessSaving_lawful _ (by
    split
    · exact .refl s
    · split
      · exact .refl s
      · exact (SameBooks.plain).lawful)

theorem serveProgramRead_lawful : Serving serveProgramRead := fun s => .refl s

theorem serveSeqHold_lawful : Serving serveSeqHold := fun s => unlessSaving_lawful _ (by
  have still : Lawful s (((s.setSeq .hold).abandonStill.endBurst .hold).settle) :=
    (((setSeq_books _ _).lawful.trans (abandonStill_lawful _)).trans (endBurst_books _ _).lawful).trans
      (settle_lawful _)
  split
  · exact .refl s
  · exact .refl s
  · exact ((endBurst_books _ _).trans (setSeq_books _ _)).lawful
  · exact (abandonView_lawful _).trans (setSeq_books _ _).lawful
  · exact ((endBurst_books _ _).trans (setSeq_books _ _)).lawful.trans (settle_lawful _)
  · exact still
  · exact still
  · exact still)

theorem serveSeqRun_lawful : Serving serveSeqRun := fun s => unlessSaving_lawful _ (by
  split
  · exact .refl s
  · split
    · exact .refl s
    · split
      · exact .refl s
      · exact (setSeq_books _ _).lawful)

theorem serveSyncMode_lawful (f : SyncFields) : Serving (serveSyncMode f) := fun s => by
  unfold serveSyncMode
  split
  · exact .refl s
  · dsimp only
    split
    · exact .refl s
    · exact (SameBooks.plain).lawful

theorem serveCaptureSet_lawful (f : CaptureFields) : Serving (serveCaptureSet f) := fun s => by
  unfold serveCaptureSet
  split
  · exact .refl s
  · dsimp only
    refine Lawful.trans (b := { s with rsq := { s.rsq with
      settings := captureSettings s.rsq.settings f } }) (SameBooks.plain).lawful ?_
    exact .ite (enterExpose_books _).lawful (.refl _)

theorem serveWatermark_lawful (v : Nat) : Serving (serveWatermark v) := fun s => by
  refine .trans ?_ (settle_lawful _)
  refine .trans ?_ (signalChanged_books _ _).lawful
  exact (SameBooks.plain (s := s)).lawful

theorem serveFocusStart_lawful (p : Port) (m : Option (Choice FocusMode)) :
    Serving (serveFocusStart p m) :=
  fun s => wakeRequest_lawful _ _ (serveFocus_books s _).lawful

theorem serveFocusStop_lawful : Serving serveFocusStop := fun s => (endSession_books s).lawful

theorem serveFocusArea_lawful (i : Nat) : Serving (serveFocusArea i) := fun s => by
  unfold serveFocusArea
  split
  · exact .refl s
  · dsimp only
    split
    · split
      · exact (SameBooks.plain).lawful
      · split
        · exact (SameBooks.trans .plain (setFocusState_books _ _)).lawful
        · exact (SameBooks.plain).lawful
    · split
      · exact (SameBooks.trans .plain (checkFocusWait_books _)).lawful
      · exact (SameBooks.plain).lawful
    · exact (SameBooks.plain).lawful

theorem serveFocusSetup_lawful (f : SetupFields) : Serving (serveFocusSetup f) := fun s => by
  unfold serveFocusSetup
  split
  · exact .refl s
  · exact (SameBooks.plain).lawful

theorem serveFocusResult_lawful : Serving serveFocusResult := fun s => .refl s

theorem serveMarkerWrite_lawful (f : MarkerFields) : Serving (serveMarkerWrite f) := fun s => by
  unfold serveMarkerWrite
  split
  · exact .refl s
  · exact (SameBooks.plain).lawful

/-! ### The catalog -/

theorem serveStatus_lawful (p : Port) : Serving (serveStatus p) := fun _ =>
  (setPort_books _ _ _).lawful

theorem serveList_lawful (n : Option Nat) : Serving (serveList n) := fun s => .refl s

theorem serveInfo_lawful (n : Nat) : Serving (serveInfo n) := fun s => by
  unfold serveInfo
  split <;> exact .refl s

theorem setPort_handles {s : State} {p : Port} {q : PortSt} {x : Handle}
    (hx : x ∈ (books (s.setPort p q)).handles) : some x ∈ q.handles ∨ x ∈ (books s).handles := by
  cases p
  all_goals
    simp only [books, State.setPort, List.filterMap_append, List.mem_append, List.mem_filterMap, id,
      exists_eq_right] at hx ⊢
  · exact hx.elim (fun h => h.elim .inl fun h => .inr (.inl (.inr h))) fun h => .inr (.inr h)
  · exact hx.elim (fun h => h.elim (fun h => .inr (.inl (.inl h))) .inl) fun h => .inr (.inr h)
  · exact hx.elim (fun h => .inr (.inl h)) .inl

theorem port_handles {s : State} {p : Port} {x : Handle} (h : some x ∈ (s.port p).handles) :
    x ∈ (books s).handles := by
  cases p
  all_goals
    simp only [books, State.port, List.filterMap_append, List.mem_append, List.mem_filterMap, id,
      exists_eq_right] at h ⊢
  · exact .inl (.inl h)
  · exact .inl (.inr h)
  · exact .inr h

/-- A handle opens on a part that is there (R157). -/
theorem openHandle_lawful (s : State) (p : Port) (h : Handle) (sum : Option Sum32)
    (hf : ∃ c, c ∈ (books s).cards ∧ c.shot = h.shot ∧ h.Fits c) :
    Lawful s (s.openHandle p h sum).1 := by
  unfold State.openHandle
  split
  · exact .refl s
  · rename_i i _
    have key : ∀ x, x ∈ (books (s.setPort p { s.port p with
        handles := (s.port p).handles.set i (some h) })).handles → x = h ∨ x ∈ (books s).handles := by
      intro x hx
      rcases setPort_handles hx with h1 | h1
      · rcases List.mem_or_eq_of_mem_set h1 with h2 | h2
        · exact .inr (port_handles h2)
        · exact .inl (Option.some.inj h2)
      · exact .inr h1
    have hb : books (s.setPort p { s.port p with
        handles := (s.port p).handles.set i (some h) }) =
        { books s with handles := (books (s.setPort p { s.port p with
          handles := (s.port p).handles.set i (some h) })).handles } := by
      cases p <;> rfl
    refine .of_books hb fun ho => ⟨{ ho with handleFits := fun x hx => ?_ },
      fun hk => ⟨hk.runs, hk.extents, hk.once⟩⟩
    rcases key x hx with rfl | hx
    · exact hf
    · exact ho.handleFits x hx

theorem collect_books (s : State) (n v : Nat) (p : Port) : SameBooks s (s.collect n v p) :=
  modRecord_books _ _ _ fun r => by
    simp only [Record.card, List.map_map]
    congr 1
    refine List.map_congr_left fun w _ => ?_
    simp only [Function.comp]
    split <;> rfl

theorem namedRecord_find {s : State} {n : Nat} {r : Record} (h : s.namedRecord n = some r) :
    s.findRecord n = some r ∧ r.life ≠ .deleting := by
  unfold State.namedRecord at h
  split at h
  · rename_i q hq
    split at h
    · cases h
    · rename_i hd
      cases h
      exact ⟨hq, hd⟩
  · cases h

/-- A named record that is not EXPOSING and has its raw or a version is HELD (R11, R15). -/
theorem RecordsOk.held {s : State} (ho : RecordsOk s) {n : Nat} {r : Record}
    (h : s.namedRecord n = some r) (he : r.life ≠ .exposing)
    (hp : r.raw.state ≠ .released ∨ r.versions ≠ []) : r.life = .held := by
  obtain ⟨hf, hd⟩ := namedRecord_find h
  have hc := findRecord_card hf
  cases hl : r.life with
  | exposing => exact absurd hl he
  | held => rfl
  | cardOnly =>
    have := (ho.cards _ hc.1).cardOnly hl
    rcases hp with hp | hp
    · exact absurd this.1 hp
    · exact absurd (List.map_eq_nil_iff.1 this.2) hp
  | deleting => exact absurd hl hd

theorem serveOpen_lawful (p : Port) (n : Nat) (part : Choice Part) : Serving (serveOpen p n part) :=
  fun s => by
    refine Lawful.under fun ho => ?_
    unfold serveOpen
    split
    · exact .refl s
    · split
      · exact .refl s
      · rename_i r hr
        have hf := findRecord_card (namedRecord_find hr).1
        split
        · exact .refl s
        · rename_i he
          split
          · split
            · rename_i hp
              exact openHandle_lawful _ _ _ _ ⟨r.card, hf.1, hf.2,
                ho.held hr he (.inl (by rw [hp]; decide)), rfl, hp⟩
            · exact .refl s
          · split
            · exact .refl s
            · rename_i v hv
              have hm : v ∈ r.versions := List.mem_of_find?_eq_some hv
              have hs : v.state = .current := by simpa using List.find?_some hv
              split
              · have h1 := collect_books s n v.number p
                refine h1.lawful.trans (openHandle_lawful _ _ _ _ ?_)
                rw [h1]
                refine ⟨r.card, hf.1, hf.2,
                  ho.held hr he (.inr (List.ne_nil_of_mem hm)), v.card, List.mem_map_of_mem hm, rfl, ?_⟩
                show v.state ≠ .building
                rw [hs]
                decide
              · exact .refl s

theorem serveRead_lawful (p : Port) (h off len : Nat) : Serving (serveRead p h off len) := fun s => by
  unfold serveRead
  split
  · exact .refl s
  · split
    · exact .refl s
    · split
      · exact .refl s
      · split <;> exact .refl s

theorem serveClose_lawful (p : Port) (h : Nat) : Serving (serveClose p h) := fun s => by
  unfold serveClose
  split
  · exact .refl s
  · split
    · exact .refl s
    · refine .trans ?_ (settle_lawful _)
      refine .trans ?_ (releaseTests_lawful _ _)
      refine setPort_lawful _ _ _ fun x hx => ?_
      rcases List.mem_or_eq_of_mem_set hx with h1 | h1
      · exact h1
      · cases h1

/-! ### TAG -/

theorem books_tags {s : State} (n : Nat) (t : Tags) :
    books (s.modRecord n fun q => { q with tags := t }) = (books s).modCard n (Card.mark t.send) :=
  books_modRecord _ _ _ _ fun _ _ _ => rfl

/-- Tags that leave the SEND tag as it is. -/
theorem sameTags_books {s : State} (ho : RecordsOk s) {n : Nat} {r : Record}
    (hr : s.findRecord n = some r) {t : Tags} (ht : t.send = r.tags.send) :
    SameBooks s (s.modRecord n fun q => { q with tags := t }) := by
  show books _ = _
  rw [books_tags]
  have : (books s).cards.map (fun c => if c.shot = n then c.mark t.send else c) = (books s).cards := by
    conv => rhs; rw [← List.map_id (books s).cards]
    refine List.map_congr_left fun c hc => ?_
    split
    · rename_i e
      have := ho.findCard hr hc e
      subst this
      rw [ht]
      rfl
    · rfl
  show Books.mk _ _ _ _ _ _ _ _ = _
  rw [this]

theorem modCard_modCard (b : Books) (n : Nat) (g h : Card → Card) (hg : ∀ c, (g c).shot = c.shot) :
    (b.modCard n g).modCard n h = b.modCard n fun c => h (g c) := by
  simp only [Books.modCard, List.map_map]
  congr 1
  refine List.map_congr_left fun c _ => ?_
  simp only [Function.comp]
  by_cases e : c.shot = n
  · rw [if_pos e, if_pos ((hg c).trans e), if_pos e]
  · rw [if_neg e, if_neg e, if_neg e]

/-- A TAG that adds an entry (R139). -/
theorem tagAdd_lawful {s : State} {n : Nat} {r : Record} (hr : s.namedRecord n = some r) {t : Tags}
    (hn : s.relayEntry n = none) (he : r.life ≠ .exposing)
    (hp : r.current.isSome = true ∨ r.raw.state = .present) (cls : SendClass) :
    Lawful s ((s.modRecord n fun q => { q with tags := t }).appendRelay r cls) := by
  refine Lawful.under fun ho => ?_
  obtain ⟨hf, _⟩ := namedRecord_find hr
  have hs := findRecord_shot hf
  have hc := findRecord_card hf
  have hl : r.life = .held := ho.held hr he (by
    rcases hp with hp | hp
    · right
      intro e
      simp [Record.current, e] at hp
    · left
      rw [hp]
      decide)
  subst hs
  let e : RelayEntry :=
    { shot := r.shot, cls := cls, state := if r.current.isSome then .ready else .waiting, failures := 0,
      version := none }
  let u : State := s.modRecord r.shot fun q => { q with tags := t }
  let w : State := ({ u with snq := { u.snq with relay := u.snq.relay ++ [e] } } : State).modRecord
    r.shot fun q => { q with relay := .queued,
                             tags := { q.tags with send := true, priority := cls == .priority } }
  have hb : books w = { (books s).modCard r.shot (Card.mark true) with
      relay := (books s).relay ++ [e] } := by
    have h1 : books w = (books { u with snq := { u.snq with relay := u.snq.relay ++ [e] } }).modCard
        r.shot (Card.mark true) := books_modRecord _ _ _ _ fun _ _ _ => rfl
    have h2 : books { u with snq := { u.snq with relay := u.snq.relay ++ [e] } } =
        { books u with relay := (books s).relay ++ [e] } := rfl
    have h3 : (books u).modCard r.shot (Card.mark true) = (books s).modCard r.shot (Card.mark true) := by
      rw [books_tags]
      exact modCard_modCard _ _ _ _ fun _ => rfl
    rw [h1, h2, ← h3]
    rfl
  have h1 : Lawful s w := by
    refine .of_books hb fun _ => ⟨Books.Ok.appendRelay ho r.shot e rfl rfl ?_ ?_ ⟨r.card, hc.1, rfl, hl⟩,
      fun hk => ?_⟩
    · show (if r.current.isSome then RelayEntryState.ready else .waiting) ≠ .inFlight
      split <;> decide
    · exact fun d hd => relayEntry_none hn hd
    · have := Books.BlocksOk.modCard hk r.shot (Card.mark true) fun _ _ _ => rfl
      exact ⟨this.runs, this.extents, this.once⟩
  have happ : (s.modRecord r.shot fun q => { q with tags := t }).appendRelay r cls =
      if r.current.isSome then w.notify .relay (.sendReady r.shot false)
      else (w.relayWantsProof r.shot).admitAuto := rfl
  rw [happ]
  split
  · exact h1.trans (notify_books _ _ _).lawful
  · rename_i hcur
    refine (h1.trans (relayWantsProof_lawful ?_)).trans (admitAuto_lawful _)
    show HoldsRaw r.shot w
    unfold HoldsRaw
    rw [hb]
    refine ⟨r.card.mark true, List.mem_map.2 ⟨r.card, hc.1, if_pos rfl⟩, rfl, hl, ?_⟩
    rcases hp with hp | hp
    · exact absurd hp (by simpa using hcur)
    · exact hp

theorem untag_lawful (s : State) (n : Nat) (t : Tags) :
    Lawful s ((s.modRecord n fun q => { q with tags := t }).untag n) := by
  let u : State := s.modRecord n fun q => { q with tags := t }
  have hb : books (u.removeRelay n .none) = { (books s).modCard n (Card.mark false) with
      relay := (books s).relay.filter fun e => e.shot != n } := by
    rw [books_removeRelay]
    have h3 : (books u).modCard n (Card.mark false) = (books s).modCard n (Card.mark false) := by
      rw [books_tags]
      exact modCard_modCard _ _ _ _ fun _ => rfl
    rw [h3]
    rfl
  have h1 : Lawful s (u.removeRelay n .none) :=
    .of_books hb fun ho => ⟨Books.Ok.removeRelay ho n, fun hk => by
      have := Books.BlocksOk.modCard hk n (Card.mark false) fun _ _ _ => rfl
      exact ⟨this.runs, this.extents, this.once⟩⟩
  unfold State.untag
  dsimp only
  refine .trans ?_ (settle_lawful _)
  refine .trans ?_ (releaseTests_lawful _ _)
  refine h1.trans ?_
  generalize u.removeRelay n .none = v
  let g : Record → Record := fun r => { r with wanted := match r.wanted with
        | some ⟨i, .card⟩ => some ⟨i, .card⟩
        | some ⟨_, .relay⟩ => none
        | none => none }
  have hg : ∀ r : Record, (g r).wanted = r.wanted ∨ (g r).wanted = none := by
    intro r
    simp only [g]
    split
    · rename_i h; exact .inl h.symm
    · exact .inr rfl
    · rename_i h; exact .inl h.symm
  intro ho
  by_cases hw : ∃ r, v.findRecord n = some r ∧ (g r).wanted = none
  · obtain ⟨r, hr, hn⟩ := hw
    have hb2 : books (v.modRecord n g) = (books v).modCard n (Card.want false) :=
      books_modRecord _ _ _ _ fun q hq e => by
        have := ho.find hr hq e
        subst this
        show Card.mk _ _ _ _ _ (g q).wanted.isSome _ = _
        rw [hn]
        rfl
    have h2 := setWanted_lawful (s := v) (n := n) (w := none) (.inl rfl) ho
    unfold RecordsOk BlocksOk at h2 ⊢
    rw [books_setWanted] at h2
    erw [hb2]
    exact h2
  · have hb2 : books (v.modRecord n g) = (books v).modCard n id :=
      books_modRecord _ _ _ _ fun q hq e => by
        obtain ⟨r, hr, _⟩ := ho.found (card_mem hq)
        have hs : q.card.shot = n := e
        rw [hs] at hr
        have := ho.find hr hq e
        subst this
        rcases hg q with h | h
        · show Card.mk _ _ _ _ _ (g q).wanted.isSome _ = _
          rw [h]
          rfl
        · exact absurd ⟨q, hr, h⟩ hw
    have hid : (books v).modCard n id = books v := by
      have : (books v).cards.map (fun c => if c.shot = n then id c else c) = (books v).cards := by
        conv => rhs; rw [← List.map_id (books v).cards]
        refine List.map_congr_left fun c _ => ?_
        split <;> rfl
      show Books.mk _ _ _ _ _ _ _ _ = _
      rw [this]
    rw [hid] at hb2
    exact SameBooks.lawful (s := v) (t := v.modRecord n g) hb2 ho

theorem reclass_lawful (s : State) (n : Nat) (f : TagFields) :
    Lawful s { s with snq := { s.snq with relay := modRelayList s.snq.relay n (reclass f) } } := by
  have h1 : ∀ e, (reclass f e).shot = e.shot ∧ (reclass f e).state = e.state ∧
      (reclass f e).version = e.version := fun e => by
    unfold reclass
    split <;> exact ⟨rfl, rfl, rfl⟩
  refine .of_books (b := { books s with relay := modRelayList (books s).relay n (reclass f) }) rfl
    fun ho => ⟨Books.Ok.modRelay ho n _ (fun e => (h1 e).1) ?_ ?_ ?_,
      fun hk => ⟨hk.runs, hk.extents, hk.once⟩⟩
  · intro e he _
    rw [(h1 e).2.1, (h1 e).2.2]
    exact ho.relayBound e he
  · intro e _ _ c _ _ hfit
    refine ⟨hfit.1, hfit.2.1, fun k hk => hfit.2.2 k ?_⟩
    rw [← (h1 e).2.2]
    exact hk
  · refine Nat.le_trans (count_le _ _ _ _ fun e he => ?_) ho.relayFlight
    rw [(h1 e).2.1] at he
    exact he

theorem serveTag_lawful (n : Nat) (f : TagFields) : Serving (serveTag n f) := fun s => by
  refine Lawful.under fun ho => ?_
  unfold serveTag
  split
  · exact .refl s
  · split
    · exact .refl s
    · rename_i r hr
      split
      · exact .refl s
      · rename_i hnone
        obtain ⟨hf, _⟩ := namedRecord_find hr
        have hs := findRecord_shot hf
        subst hs
        show Lawful s ((s.modRecord r.shot fun q =>
          { q with tags := tagsAfter r.tags (s.relayEntry r.shot) f }).tagRelay r
            (s.relayEntry r.shot) f)
        unfold State.tagRelay
        cases ha : tagAdds (s.relayEntry r.shot) f with
        | true =>
          rw [if_pos rfl]
          refine .trans ?_ (settle_lawful _)
          unfold State.tagRefusal at hnone
          dsimp only at hnone
          rw [ha, if_pos rfl] at hnone
          have hno : s.relayEntry r.shot = none := by
            simp only [tagAdds, Bool.and_eq_true, Option.isNone_iff_eq_none] at ha
            exact ha.1
          split at hnone
          · cases hnone
          · rename_i he
            split at hnone
            · cases hnone
            · rename_i hp
              refine tagAdd_lawful hr hno he ?_ _
              simp only [Bool.or_eq_true, Bool.and_eq_true, decide_eq_true_eq, not_or, not_and,
                Option.isNone_iff_eq_none, bne_iff_ne, ne_eq, Decidable.not_not] at hp
              cases hcur : r.current with
              | none => exact .inr (hp.2 hcur)
              | some v => exact .inl rfl
        | false =>
          rw [if_neg Bool.false_ne_true]
          have keep : ∀ k, (s.relayEntry r.shot = none ∨ f.send ≠ some false) →
              tagsAfter r.tags (s.relayEntry r.shot) f = k → k.send = r.tags.send := by
            intro k hk e
            subst e
            unfold tagsAfter
            rw [ha]
            dsimp only
            rw [if_neg Bool.false_ne_true]
            split
            · rfl
            · rename_i hsome
              rcases hk with hk | hk
              · rw [hk] at hsome
                cases hsome
              · rw [if_neg hk]
          split
          · rename_i hno
            refine (sameTags_books ho hf (keep _ (.inl hno) ?_)).lawful
            rw [hno]
          · rename_i e hsome
            split
            · exact untag_lawful _ _ _
            · rename_i hsend
              exact (sameTags_books ho hf (keep _ (.inr hsend) (by rw [hsome]))).lawful.trans
                (reclass_lawful _ _ _)

/-! ### DELETE -/

/-- Nothing but jobs refers to the shot (`Loose`, Lawful.lean). -/
structure Freed (n : Nat) (s : State) : Prop where
  relay : ∀ e, e ∈ (books s).relay → e.shot ≠ n
  tether : ∀ e, e ∈ (books s).tether → e.shot ≠ n
  handles : ∀ h, h ∈ (books s).handles → h.shot ≠ n
  frame : (books s).frame ≠ some (.still, n)
  issued : s.nextShot < 2 ^ 32 ∧ (s.nextShot = 0 ∨ n < s.nextShot)
  cards : ∀ c, c ∈ (books s).cards → c.shot = n → c.life ≠ .exposing ∧ c.wanted = false

theorem SameBooks.freed {n : Nat} {s t : State} (h : SameBooks s t) (k : Freed n s) : Freed n t where
  relay := by rw [h]; exact k.relay
  tether := by rw [h]; exact k.tether
  handles := by rw [h]; exact k.handles
  frame := by rw [h]; exact k.frame
  issued := by
    have : t.nextShot = s.nextShot := congrArg Books.nextShot h
    rw [this]
    exact k.issued
  cards := by rw [h]; exact k.cards

theorem Freed.loose {n : Nat} {s : State} (k : Freed n s)
    (hj : ∀ j, j ∈ (books s).jobs → j.shot ≠ n) : Loose n s where
  unbound := ⟨k.relay, k.tether, hj, k.handles, k.frame⟩
  issued := k.issued
  cards := k.cards

theorem Freed.jobs {n : Nat} {s : State} (k : Freed n s) (l : List Job) :
    Freed n { s with dev := { s.dev with queue := l } } := { k with }

theorem Freed.dropJob {n : Nat} {s : State} (k : Freed n s) (j : Job) : Freed n (s.dropJob j) :=
  k.jobs _

theorem removeQueued_freed {n : Nat} {s : State} (k : Freed n s) (js : List Job) (m : Nat) :
    Freed n (s.removeQueued js m) := by
  induction js generalizing s with
  | nil => exact k
  | cons j rest ih =>
    unfold State.removeQueued
    split
    · exact ih ((reportJob_books _ _ _).freed (k.dropJob j))
    · exact ih k

theorem logJob_queue (s : State) (r : JobResult) : (s.logJob r).dev.queue = s.dev.queue := rfl

theorem notify_dev (s : State) (p : Port) (n : Notice) : (s.notify p n).dev = s.dev := by
  cases p
  · rfl
  · unfold State.notify
    dsimp only
    split <;> rfl
  · rfl

theorem reportJob_queue (s : State) (j : Job) (r : JobResult) :
    (s.reportJob j r).dev.queue = s.dev.queue := by
  unfold State.reportJob State.announceJob
  dsimp only
  split
  · rw [notify_dev, notify_dev]
    rfl
  · rw [notify_dev]
    rfl

/-- What a removal of queued jobs leaves: the jobs of the list that are the shot's are running, and any
other was not in the list. -/
theorem removeQueued_left {s : State} {n : Nat} (js : List Job) {k : Job}
    (h : k ∈ (s.removeQueued js n).dev.queue) (hs : k.shot = n) (hq : k.state = .queued) :
    k ∈ s.dev.queue ∧ js.count k < s.dev.queue.count k := by
  induction js generalizing s with
  | nil => exact ⟨h, by rw [List.count_nil]; exact List.count_pos_iff.2 h⟩
  | cons j rest ih =>
    unfold State.removeQueued at h
    by_cases hj : j.shot = n ∧ j.state = .queued
    · rw [if_pos (by simp [hj])] at h
      have := ih h
      rw [reportJob_queue] at this
      have hm : k ∈ s.dev.queue.erase j := this.1
      have hc : rest.count k < (s.dev.queue.erase j).count k := this.2
      refine ⟨List.mem_of_mem_erase hm, ?_⟩
      rw [List.count_erase] at hc
      rw [List.count_cons]
      by_cases e : j = k
      · subst e
        simp only [beq_self_eq_true, if_true] at hc ⊢
        omega
      · have e2 : (j == k) = false := by simpa using e
        simp only [e2, Bool.false_eq_true, if_false] at hc ⊢
        omega
    · rw [if_neg (by simpa using hj)] at h
      obtain ⟨h1, h2⟩ := ih h
      refine ⟨h1, ?_⟩
      rw [List.count_cons]
      have e : j ≠ k := fun e => hj (by rw [e]; exact ⟨hs, hq⟩)
      have e2 : (j == k) = false := by simpa using e
      simp only [e2, Bool.false_eq_true, if_false]
      omega

theorem dropEntries_lawful (s : State) (n : Nat) : Lawful s (s.dropEntries n) := by
  unfold State.dropEntries
  dsimp only
  have base : Lawful s (if (s.relayEntry n).isSome = true then s.removeRelay n .none else s) :=
    .ite (removeRelay_lawful _ _ _) (.refl s)
  exact .ite (base.trans (removeTether_lawful _ _ _)) base

theorem dropEntries_freed {s : State} {n : Nat} (hh : ∀ h, h ∈ (books s).handles → h.shot ≠ n)
    (hf : (books s).frame ≠ some (.still, n))
    (hi : s.nextShot < 2 ^ 32 ∧ (s.nextShot = 0 ∨ n < s.nextShot))
    (hc : ∀ c, c ∈ (books s).cards → c.shot = n → c.life ≠ .exposing ∧ c.wanted = false) :
    Freed n (s.dropEntries n) := by
  have base : ∃ u, u = (if (s.relayEntry n).isSome = true then s.removeRelay n .none else s) ∧
      (∀ e, e ∈ (books u).relay → e.shot ≠ n) ∧ (∀ h, h ∈ (books u).handles → h.shot ≠ n) ∧
      (books u).frame ≠ some (.still, n) ∧
      (u.nextShot < 2 ^ 32 ∧ (u.nextShot = 0 ∨ n < u.nextShot)) ∧
      (∀ c, c ∈ (books u).cards → c.shot = n → c.life ≠ .exposing ∧ c.wanted = false) := by
    refine ⟨_, rfl, ?_⟩
    split
    · refine ⟨?_, hh, hf, hi, ?_⟩
      · rw [books_removeRelay]
        intro e he
        simpa using (List.mem_filter.1 he).2
      · rw [books_removeRelay]
        intro c hm e
        obtain ⟨d, hd, rfl⟩ := List.mem_map.1 hm
        by_cases h : d.shot = n
        · rw [if_pos h]
          exact hc d hd h
        · rw [if_neg h] at e ⊢
          exact hc d hd e
    · rename_i hnone
      refine ⟨fun e he => relayEntry_none ?_ he, hh, hf, hi, hc⟩
      simpa using hnone
  obtain ⟨u, hu, h1, h2, h3, h4, h5⟩ := base
  unfold State.dropEntries
  dsimp only
  rw [← hu]
  split
  · have hb := books_removeTether u n .none
    exact
      { relay := by rw [hb]; exact h1
        tether := by
          rw [hb]
          intro e he
          simpa using (List.mem_filter.1 he).2
        handles := by rw [hb]; exact h2
        frame := by rw [hb]; exact h3
        issued := h4
        cards := by rw [hb]; exact h5 }
  · rename_i hnone
    exact ⟨h1, fun e he => tetherEntry_none (by simpa using hnone) he, h2, h3, h4, h5⟩

theorem relayWantsProof_none {s : State} {n : Nat} (h : ∀ e, e ∈ (books s).relay → e.shot ≠ n) :
    s.relayWantsProof n = s := by
  unfold State.relayWantsProof
  split
  · rename_i e _ he
    exact absurd (relayEntry_mem he).2 (h _ (relayEntry_mem he).1)
  · rfl

/-- After the queued jobs of the shot have gone, the running one goes, and none is left (R24). -/
theorem abortDeleted_loose {s : State} {n : Nat} (ho : RecordsOk s) (k : Freed n s)
    (hq : ∀ j, j ∈ s.dev.queue → j.shot = n → j.state = .running) :
    Lawful s (s.abortDeleted n) ∧ Loose n (s.abortDeleted n) := by
  unfold State.abortDeleted
  split
  · rename_i j hj
    split
    · rename_i hs
      refine ⟨abortJob_lawful hj _, ?_⟩
      unfold State.abortJob
      dsimp only
      refine (markAttempt_books _).loose ?_
      have h2 : SameBooks (s.dropJob j) { (s.dropJob j).discardDev with
          dev := { (s.dropJob j).discardDev.dev with engine := .idle, row := RowWork.none } } :=
        (discardDev_books _).trans .plain
      have k2 : Freed n { (s.dropJob j).discardDev with
          dev := { (s.dropJob j).discardDev.dev with engine := .idle, row := RowWork.none } } :=
        h2.freed (k.dropJob j)
      have j2 : ∀ d, d ∈ (books { (s.dropJob j).discardDev with
          dev := { (s.dropJob j).discardDev.dev with engine := .idle, row := RowWork.none } }).jobs →
          d.shot ≠ n := by
        rw [h2]
        intro d hd e
        have hd2 : d ∈ (s.dev.queue.erase j).map Job.card := hd
        obtain ⟨q, hm, rfl⟩ := List.mem_map.1 hd2
        have h3 := hq q (List.mem_of_mem_erase hm) e
        exact ho.alone hj (List.mem_map_of_mem hm) h3
      generalize ({ (s.dropJob j).discardDev with
          dev := { (s.dropJob j).discardDev.dev with engine := .idle, row := RowWork.none } } :
          State) = u at *
      have e1 : u.restoreWanted j .delete = u := by
        unfold State.restoreWanted
        split
        · rename_i h _
          cases h
        · rfl
      rw [e1, relayWantsProof_none (by rw [hs]; exact k2.relay)]
      exact freeVersion_loose ((reportJob_books _ _ _).loose (k2.loose j2)) _ _
    · rename_i hs
      refine ⟨.refl s, k.loose ?_⟩
      intro d hd e
      obtain ⟨q, hm, rfl⟩ := List.mem_map.1 hd
      have hr := hq q hm e
      have hne : q ≠ j := fun e2 => hs (by rw [← e2]; exact e)
      exact ho.alone hj (List.mem_map_of_mem ((List.mem_erase_of_ne hne).2 hm)) hr
  · rename_i hnone
    refine ⟨.refl s, k.loose ?_⟩
    intro d hd e
    obtain ⟨q, hm, rfl⟩ := List.mem_map.1 hd
    exact runningJob_none hnone hd (hq q hm e)

theorem freeVersions_lawful {s : State} {r : Record} (h : Loose r.shot s) (ns : List Nat) :
    Lawful s (s.freeVersions r ns) ∧ Loose r.shot (s.freeVersions r ns) := by
  induction ns generalizing s with
  | nil => exact ⟨.refl s, h⟩
  | cons n rest ih =>
    unfold State.freeVersions
    split
    · exact ih h
    · obtain ⟨h1, h2⟩ := ih (freeVersion_loose h r.shot n)
      exact ⟨(h.freeVersion n).trans h1, h2⟩

theorem endRecord_lawful {s : State} {r : Record} (h : Loose r.shot s) :
    Lawful s (s.endRecord r) := by
  unfold State.endRecord
  split
  · have hb : books (s.modRecord r.shot fun q => { q with life := .deleting }) =
        (books s).modCard r.shot fun c => { c with life := .deleting } :=
      books_modRecord _ _ _ _ fun _ _ _ => rfl
    refine .of_books hb fun ho => ⟨Books.Ok.modCard_unbound ho _ _ h.unbound ?_ fun _ _ _ h => h,
      fun hk => Books.BlocksOk.modCard hk _ _ fun _ _ _ => rfl⟩
    intro c hc e
    have hk := h.cards c hc e
    have hok := ho.cards c hc
    refine ⟨e, { hok with
      filling := ⟨fun hx => absurd (hok.filling.1 hx) hk.1, fun hx => (nomatch hx)⟩
      exposing := fun hx => (nomatch hx)
      cardOnly := fun hx => (nomatch hx)
      wanted := fun hx => ?_ }⟩
    have hx : c.wanted = true := hx
    rw [hk.2] at hx
    cases hx
  · exact removeRecord_lawful h.unbound

theorem openOnShot_none {s : State} {n : Nat} (h : s.openOnShot n = false) {x : Handle}
    (hx : x ∈ (books s).handles) : x.shot ≠ n := by
  intro e
  have hx : some x ∈ s.prt.body.handles ++ s.prt.tether.handles ++ s.prt.relay.handles := by
    simp only [books, List.mem_filterMap, id, exists_eq_right] at hx
    exact hx
  have := List.any_eq_false.1 h _ hx
  simp [e] at this

theorem deleteShot_lawful {s : State} {r : Record} (hr : s.findRecord r.shot = some r)
    (he : r.life ≠ .exposing) (hopen : s.openOnShot r.shot = false) :
    Lawful s (s.deleteShot r) := by
  refine Lawful.under fun ho => ?_
  have hc := findRecord_card hr
  unfold State.deleteShot
  dsimp only
  refine .trans ?_ (settle_lawful _)
  refine .trans ?_ (saveTest_books _).lawful
  refine .trans ?_ (chooseBoth_books _).lawful
  refine .trans ?_ (admitAuto_lawful _)
  refine .trans ?_ (notifyAll_books _ _).lawful
  have hb : books (s.modRecord r.shot deletedRecord) = books (s.setWanted r.shot none) := by
    rw [books_setWanted]
    exact books_modRecord _ _ _ _ fun _ _ _ => rfl
  have h0 : Lawful s (s.modRecord r.shot deletedRecord) := fun k => by
    have := setWanted_lawful (s := s) (n := r.shot) (w := none) (.inl rfl) k
    unfold RecordsOk BlocksOk at this ⊢
    rw [hb]
    exact this
  have k0 : Freed r.shot ((s.modRecord r.shot deletedRecord).dropEntries r.shot) := by
    refine dropEntries_freed (fun x hx => openOnShot_none hopen hx) ?_ (ho.issued hc.1) ?_
    · intro hf
      obtain ⟨c, hm, hs, hl⟩ := (ho.frame _ _ hf).1 rfl
      have := ho.findCard hr hm hs
      rw [this] at hl
      exact he hl
    · rw [hb, books_setWanted]
      intro c hm e
      obtain ⟨d, hd, rfl⟩ := List.mem_map.1 hm
      by_cases h : d.shot = r.shot
      · rw [if_pos h]
        have := ho.findCard hr hd h
        subst this
        exact ⟨he, rfl⟩
      · rw [if_neg h] at e
        exact absurd e h
  have h1 := h0.trans (dropEntries_lawful _ r.shot)
  generalize (s.modRecord r.shot deletedRecord).dropEntries r.shot = a at *
  have h2 := h1.trans (removeQueued_lawful a a.dev.queue r.shot)
  have k2 := removeQueued_freed k0 a.dev.queue r.shot
  have q2 : ∀ j, j ∈ (a.removeQueued a.dev.queue r.shot).dev.queue → j.shot = r.shot →
      j.state = .running := by
    intro j hj hs
    cases hq : j.state with
    | running => rfl
    | queued =>
      have := (removeQueued_left a.dev.queue hj hs hq).2
      omega
  generalize a.removeQueued a.dev.queue r.shot = b at *
  obtain ⟨h3, k3⟩ := abortDeleted_loose (h2 ho).1 k2 q2
  have h4 := h2.trans h3
  generalize b.abortDeleted r.shot = c at *
  have h5 : Lawful c (c.freeDeletedRaw r) ∧ Loose r.shot (c.freeDeletedRaw r) := by
    unfold State.freeDeletedRaw
    split
    · exact ⟨.refl c, k3⟩
    · exact ⟨k3.freeRaw, freeRaw_loose k3 _⟩
  obtain ⟨h6, k6⟩ := freeVersions_lawful h5.2 (r.versions.map Version.number)
  exact ((h4.trans h5.1).trans h6).trans (endRecord_lawful k6)

theorem serveDelete_lawful (n : Nat) : Serving (serveDelete n) := fun s => by
  unfold serveDelete
  split
  · exact .refl s
  · rename_i r hr
    split
    · exact .refl s
    · rename_i he
      split
      · exact .refl s
      · split
        · exact .refl s
        · rename_i hopen
          have hf := (namedRecord_find hr).1
          have hs := findRecord_shot hf
          subst hs
          exact deleteShot_lawful hf he (by simpa using hopen)

/-! ### Development -/

theorem serveDevelop_lawful (p : Port) (n i : Nat) : Serving (serveDevelop p n i) := fun s => by
  refine Lawful.under fun ho => ?_
  unfold serveDevelop
  split
  · exact .refl s
  · split
    · exact .refl s
    · split
      · exact .refl s
      · rename_i r hr
        split
        · exact .refl s
        · rename_i hg
          split
          · exact .refl s
          · rename_i he
            split
            · refine (modJob_books _ _ _ fun k => ?_).lawful
              unfold addAsking
              split <;> rfl
            · split
              · exact .refl s
              · simp only [Bool.or_eq_true, decide_eq_true_eq, not_or] at hg
                have hf := (namedRecord_find hr).1
                have hl := ho.held hr he (.inl hg.2)
                have hp : r.raw.state = .present := by
                  cases hs : r.raw.state with
                  | present => rfl
                  | released => exact absurd hs hg.2
                  | filling =>
                    have := (ho.cards _ (findRecord_card hf).1).filling.1 hs
                    exact absurd this he
                exact (appendJob_lawful (holdsRaw_find hf hl hp) _ _ _ _ _).trans (settle_lawful _)

theorem serveDevStatus_lawful (j : Option Nat) : Serving (serveDevStatus j) := fun s => by
  unfold serveDevStatus
  split
  · exact .refl s
  · split
    · exact .refl s
    · split <;> exact .refl s

theorem serveToneRead_lawful (i : Nat) : Serving (serveToneRead i) := fun s => by
  unfold serveToneRead
  split <;> exact .refl s

theorem serveToneWrite_lawful (i first : Nat) (vs : List Nat) : Serving (serveToneWrite i first vs) :=
  fun s => by
    unfold serveToneWrite
    split
    · exact .refl s
    · refine SameBooks.lawful ?_
      have : (s.dev.queue.map (markMixed i)).map Job.card = s.dev.queue.map Job.card := by
        rw [List.map_map]
        refine List.map_congr_left fun j _ => ?_
        simp only [Function.comp, markMixed]
        split
        · split <;> rfl
        · rfl
      show Books.mk _ _ _ _ _ ((s.dev.queue.map (markMixed i)).map Job.card) _ _ = _
      rw [this]
      rfl

theorem serveRecipeWrite_lawful (p : Port) (i : Nat) (f : RecipeFields) :
    Serving (serveRecipeWrite p i f) := fun s => by
  unfold serveRecipeWrite
  split
  · exact .refl s
  · split
    · exact .refl s
    · exact (SameBooks.plain).lawful

theorem serveRecipeRead_lawful (i : Nat) : Serving (serveRecipeRead i) := fun s => by
  unfold serveRecipeRead
  split <;> exact .refl s

theorem serveDevSet_lawful (c r : Option Nat) : Serving (serveDevSet c r) := fun s => by
  unfold serveDevSet
  split
  · exact .refl s
  · exact (SameBooks.plain).lawful

/-! ### Cards -/

theorem serveSlotMode_lawful (m : Choice SlotMode) : Serving (serveSlotMode m) := fun s => by
  unfold serveSlotMode
  split
  · exact .refl s
  · split
    · exact .refl s
    · exact (SameBooks.plain).lawful

theorem serveMediaSet_lawful (f : MediaFields) : Serving (serveMediaSet f) := fun s => by
  unfold serveMediaSet
  split
  · exact .refl s
  · exact (SameBooks.plain).lawful

theorem serveCardSpace_lawful (x : Choice Slot) (f c : Nat) : Serving (serveCardSpace x f c) :=
  fun s => withSlot_lawful _ _ fun y => by
    dsimp only
    split
    · exact .refl s
    · exact .refl s
    · exact .refl s
    · split
      · exact .refl s
      · split
        · exact .refl s
        · exact ((setSlot_books _ _ _).trans (chooseWork_books _ _)).lawful.trans (settle_lawful _)

theorem serveCardSpaceClear_lawful (x : Choice Slot) : Serving (serveCardSpaceClear x) :=
  fun s => withSlot_lawful _ _ fun y => by
    split
    · exact .refl s
    · exact ((setSlot_books _ _ _).trans (chooseWork_books _ _)).lawful.trans (settle_lawful _)

theorem serveSlotReset_lawful (x : Choice Slot) : Serving (serveSlotReset x) :=
  fun s => withSlot_lawful _ _ fun y => by
    dsimp only
    split
    · exact .refl s
    · exact .refl s
    · exact (setSlot_books _ _ _).lawful

theorem dropCopies_card (r : Record) (x : Slot) : (State.dropCopies r x).card = r.card := rfl

theorem moveCopies_card (r : Record) : (State.moveCopies r).card = r.card := rfl

theorem serveSlotDrop_lawful (x : Choice Slot) : Serving (serveSlotDrop x) :=
  fun s => withSlot_lawful _ _ fun y => by
    refine .trans ?_ (settle_lawful _)
    refine .trans ?_ (chooseWork_books _ _).lawful
    refine .trans ?_ (releaseAll_lawful _ _)
    exact (mapCatalog_books s _ fun r => dropCopies_card r y).lawful

theorem serveSlotFull_lawful (x : Choice Slot) : Serving (serveSlotFull x) :=
  fun s => withSlot_lawful _ _ fun y => by
    dsimp only
    split
    · exact .refl s
    · exact .refl s
    · exact .refl s
    · exact .refl s
    · split
      · refine .trans ?_ (settle_lawful _)
        refine .trans ?_ (chooseWork_books _ _).lawful
        refine (setSlot_books s y { s.slot y with state := .full }).lawful.trans ?_
        exact (mapCatalog_books _ _ moveCopies_card).lawful
      · exact (setSlot_books _ _ _).lawful

theorem servePlacement_lawful (n : Nat) : Serving (servePlacement n) := fun s => by
  unfold servePlacement
  split <;> exact .refl s

theorem serveMediaStatus_lawful : Serving serveMediaStatus := fun s => .refl s

/-! ### Send queues -/

theorem nextRelay_mem {s : State} {e : RelayEntry} (h : s.nextRelay = some e) :
    e ∈ (books s).relay ∧ e.state = .ready := by
  unfold State.nextRelay at h
  split at h
  · rename_i d hd
    cases h
    have := List.find?_some hd
    simp only [Bool.and_eq_true, beq_iff_eq] at this
    exact ⟨List.mem_of_find?_eq_some hd, this.1⟩
  · have := List.find?_some h
    exact ⟨List.mem_of_find?_eq_some h, by simpa using this⟩

theorem serveSendNext_lawful : Serving serveSendNext := fun s => by
  refine Lawful.under fun ho => ?_
  unfold serveSendNext
  split
  · exact .refl s
  · rename_i h2
    split
    · exact .refl s
    · rename_i e he
      split
      · exact .refl s
      · rename_i v hv
        obtain ⟨r, hr, hcur⟩ := Option.bind_eq_some_iff.1 hv
        have hm : v ∈ r.versions := List.mem_of_find?_eq_some hcur
        have hs : v.state = .current := by simpa using List.find?_some hcur
        refine .of_books (books_modRelay _ _ _ _) fun _ => ⟨Books.Ok.modRelay ho _ _ (fun _ => rfl) ?_ ?_ ?_,
          fun hk => ⟨hk.runs, hk.extents, hk.once⟩⟩
        · intro d _ _
          exact ⟨fun _ => rfl, fun _ => rfl⟩
        · intro d hd _ c hc hcs hfit
          refine ⟨hfit.1, hfit.2.1, fun k hk => ?_⟩
          have hk : v.number = k := Option.some.inj hk
          have := ho.findCard hr hc hcs
          subst this
          refine ⟨v.card, List.mem_map_of_mem hm, hk, ?_⟩
          show v.state ≠ .building
          rw [hs]
          decide
        · refine Nat.le_trans (count_succ _ RelayEntry.shot _ _ _ ho.relayOnce) ?_
          have : ((books s).relay.filter fun e => e.state == .inFlight).length = s.relayInFlight := rfl
          omega

theorem serveSendDone_lawful (n : Nat) : Serving (serveSendDone n) := fun s => by
  unfold serveSendDone settleRelay
  split
  · exact .refl s
  · split
    · exact ((removeRelay_lawful _ _ _).trans (releaseTests_lawful _ _)).trans (settle_lawful _)
    · exact .refl s

theorem serveSendFail_lawful (n : Nat) : Serving (serveSendFail n) := fun s => by
  unfold serveSendFail settleRelay
  split
  · exact .refl s
  · split
    · refine Lawful.ite (s := s) ?_ ?_
      · refine .trans ?_ (settle_lawful _)
        refine .trans ?_ (releaseTests_lawful _ _)
        refine .trans ?_ (notify_books _ _ _).lawful
        refine .of_books (books_modRelay _ _ _ _) fun ho => ⟨Books.Ok.modRelay ho _ _ (fun _ => rfl) ?_ ?_ ?_,
          fun hk => ⟨hk.runs, hk.extents, hk.once⟩⟩
        · intro d _ _
          exact ⟨fun h => (nomatch h), fun h => (nomatch h)⟩
        · intro d _ _ c _ _ hfit
          exact ⟨hfit.1, hfit.2.1, fun k hk => (nomatch hk)⟩
        · exact Nat.le_trans (count_le _ _ _ _ fun _ h => nomatch h) ho.relayFlight
      · exact (((removeRelay_lawful _ _ _).trans (notify_books _ _ _).lawful).trans
          (releaseTests_lawful _ _)).trans (settle_lawful _)
    · exact .refl s

theorem serveTransferNext_lawful : Serving serveTransferNext := fun s => by
  unfold serveTransferNext
  split
  · exact .refl s
  · rename_i h2
    split
    · exact .refl s
    · refine modTether_lawful (fun _ => rfl) fun ho => ?_
      refine Nat.le_trans (count_succ _ TetherEntry.shot _ _ _ ho.tetherOnce) ?_
      have : ((books s).tether.filter fun e => e.inFlight).length = s.tetherInFlight := rfl
      omega

theorem serveTransferDone_lawful (n : Nat) : Serving (serveTransferDone n) := fun s => by
  unfold serveTransferDone settleTether
  split
  · exact .refl s
  · split
    · exact ((removeTether_lawful _ _ _).trans (releaseTests_lawful _ _)).trans (settle_lawful _)
    · exact .refl s

theorem serveTransferFail_lawful (n : Nat) : Serving (serveTransferFail n) := fun s => by
  unfold serveTransferFail settleTether
  split
  · exact .refl s
  · split
    · refine Lawful.ite (s := s) ?_ ?_
      · refine .trans ?_ (settle_lawful _)
        refine .trans ?_ (releaseTests_lawful _ _)
        refine .trans ?_ (notify_books _ _ _).lawful
        refine modTether_lawful (fun _ => rfl) fun ho => ?_
        exact Nat.le_trans (count_le _ _ _ _ fun _ h => nomatch h) ho.tetherFlight
      · refine .trans ?_ (settle_lawful _)
        refine .trans ?_ (releaseTests_lawful _ _)
        refine .trans ?_ (notify_books _ _ _).lawful
        refine .trans ?_ (notify_books _ _ _).lawful
        exact removeTether_lawful _ _ _
    · exact .refl s

theorem serveSendSet_lawful (f : SendSetFields) : Serving (serveSendSet f) := fun s => by
  unfold serveSendSet
  split
  · exact .refl s
  · dsimp only
    refine Lawful.trans (b := { s with snq := { s.snq with
      auto := pick s.snq.auto f.auto, policy := pick s.snq.policy f.policy } })
      (SameBooks.plain).lawful ?_
    exact .ite ((releaseAll_lawful _ _).trans (settle_lawful _)) (.refl _)

theorem serveTetherQueueClear_lawful : Serving serveTetherQueueClear := fun s => by
  refine .trans ?_ (settle_lawful _)
  refine .trans ?_ (releaseAll_lawful _ _)
  have h1 : Lawful s { s with snq := { s.snq with tether := [] } } :=
    filterTether_lawful (fun _ => false) (by
      have : (books s).tether.filter (fun _ => false) = [] := by simp
      rw [this]
      rfl)
  refine h1.trans (mapCatalog_books _ _ fun r => ?_).lawful
  split <;> rfl

/-! ### Ports and power -/

theorem servePortSet_lawful (b : Choice Bool) : Serving (servePortSet b) := fun s => by
  unfold servePortSet
  split
  · exact .refl s
  · exact (SameBooks.plain).lawful

theorem servePortReset_lawful (q : Choice Port) : Serving (servePortReset q) := fun s => by
  unfold servePortReset
  split
  · exact .refl s
  · exact (resetPort_lawful _ _).trans (settle_lawful _)

theorem serveStandby_lawful : Serving serveStandby := fun s => by
  unfold serveStandby
  split
  · split
    · exact .refl s
    · exact (goOff_lawful s _).trans (SameBooks.plain).lawful
  · exact .refl s
  · exact .refl s
  · exact .refl s

theorem resumed_lawful (s : State) : Lawful s s.resumed := by
  unfold State.resumed
  dsimp only
  refine .trans ?_ (settle_lawful _)
  refine .trans ?_ (markAttempt_books _).lawful
  refine .trans ?_ (chooseBoth_books _).lawful
  split
  · have h : SameBooks s ({ s with pwc := { s.pwc with power := .active, done := false } } :
        State).leaveOff := .trans .plain (leaveOff_books _)
    exact .ite (h.trans (startIdent_books _)).lawful h.lawful
  · exact (SameBooks.trans .plain (enterWaking_books _ _)).lawful

theorem serveResume_lawful : Serving serveResume := fun s => by
  unfold serveResume
  split
  · exact .refl s
  · exact .refl s
  · exact .refl s
  · split
    · exact .refl s
    · split
      · exact .refl s
      · exact resumed_lawful s

theorem serveWakeSet_lawful (f : WakeFields) : Serving (serveWakeSet f) := fun s => by
  unfold serveWakeSet
  split
  · exact .refl s
  · exact (SameBooks.plain).lawful

end Sys2Proof.Machine
end

