-- ==== Sys2Proof/Laws/LawfulExecs.lean ====
section
/-! SUPPORT. `Lawful` (Lawful.lean) for the meaning of each command that is not a request, and for the
frames that carry requests. -/
set_option Elab.async false
namespace Sys2Proof.Machine

/-- Where the outcome goes on, the laws are kept. -/
def Keeping (s : State) (r : Result) : Prop := ∀ t, r = .next t → Lawful s t

theorem Keeping.next {s t : State} (h : Lawful s t) : Keeping s (.next t) := fun u e => by
  cases e
  exact h

theorem Keeping.books {s t : State} (h : SameBooks s t) : Keeping s (.next t) := .next h.lawful

theorem Keeping.same (s : State) : Keeping s (.next s) := .next (.refl s)

theorem Keeping.ite {s : State} {a b : Result} {c : Prop} [Decidable c] (ha : Keeping s a)
    (hb : Keeping s b) : Keeping s (if c then a else b) := by
  split <;> assumption

theorem Keeping.under {s : State} {r : Result} (h : RecordsOk s → Keeping s r) : Keeping s r :=
  fun t e ho => h ho t e ho

/-! ### Ports -/

theorem takeNamed_lawful (s : State) (p : Port) (tag : Byte) (r : Request) :
    Lawful s (s.takeNamed p tag r) := by
  cases r <;> unfold State.takeNamed <;> dsimp only
  case burstStart f => exact takeRequest_lawful (serveBurstStart_lawful p f) _ _ _ _
  case burstStop => exact takeRequest_lawful serveBurstStop_lawful _ _ _ _
  case programWrite f => exact takeRequest_lawful (serveProgramWrite_lawful f) _ _ _ _
  case programRead => exact takeRequest_lawful serveProgramRead_lawful _ _ _ _
  case seqHold => exact takeRequest_lawful serveSeqHold_lawful _ _ _ _
  case seqRun => exact takeRequest_lawful serveSeqRun_lawful _ _ _ _
  case syncMode f => exact takeRequest_lawful (serveSyncMode_lawful f) _ _ _ _
  case captureSet f => exact takeRequest_lawful (serveCaptureSet_lawful f) _ _ _ _
  case watermark v => exact takeRequest_lawful (serveWatermark_lawful v) _ _ _ _
  case focusStart m => exact takeRequest_lawful (serveFocusStart_lawful p m) _ _ _ _
  case focusStop => exact takeRequest_lawful serveFocusStop_lawful _ _ _ _
  case focusArea i => exact takeRequest_lawful (serveFocusArea_lawful i) _ _ _ _
  case focusSetup f => exact takeRequest_lawful (serveFocusSetup_lawful f) _ _ _ _
  case focusResult => exact takeRequest_lawful serveFocusResult_lawful _ _ _ _
  case markerWrite f => exact takeRequest_lawful (serveMarkerWrite_lawful f) _ _ _ _
  case status => exact takeRequest_lawful (serveStatus_lawful p) _ _ _ _
  case listRecords n => exact takeRequest_lawful (serveList_lawful n) _ _ _ _
  case info n => exact takeRequest_lawful (serveInfo_lawful n) _ _ _ _
  case openPart n part => exact takeRequest_lawful (serveOpen_lawful p n part) _ _ _ _
  case readPart h off len => exact takeRequest_lawful (serveRead_lawful p h off len) _ _ _ _
  case closeHandle h => exact takeRequest_lawful (serveClose_lawful p h) _ _ _ _
  case tag n f => exact takeRequest_lawful (serveTag_lawful n f) _ _ _ _
  case delete n => exact takeRequest_lawful (serveDelete_lawful n) _ _ _ _
  case develop n i => exact takeRequest_lawful (serveDevelop_lawful p n i) _ _ _ _
  case devStatus j => exact takeRequest_lawful (serveDevStatus_lawful j) _ _ _ _
  case toneRead i => exact takeRequest_lawful (serveToneRead_lawful i) _ _ _ _
  case toneWrite i first vs => exact takeRequest_lawful (serveToneWrite_lawful i first vs) _ _ _ _
  case recipeWrite i f => exact takeRequest_lawful (serveRecipeWrite_lawful p i f) _ _ _ _
  case recipeRead i => exact takeRequest_lawful (serveRecipeRead_lawful i) _ _ _ _
  case devSet c l => exact takeRequest_lawful (serveDevSet_lawful c l) _ _ _ _
  case slotMode m => exact takeRequest_lawful (serveSlotMode_lawful m) _ _ _ _
  case mediaSet f => exact takeRequest_lawful (serveMediaSet_lawful f) _ _ _ _
  case cardSpace x first count => exact takeRequest_lawful (serveCardSpace_lawful x first count) _ _ _ _
  case cardSpaceClear x => exact takeRequest_lawful (serveCardSpaceClear_lawful x) _ _ _ _
  case slotReset x => exact takeRequest_lawful (serveSlotReset_lawful x) _ _ _ _
  case slotDrop x => exact takeRequest_lawful (serveSlotDrop_lawful x) _ _ _ _
  case slotFull x => exact takeRequest_lawful (serveSlotFull_lawful x) _ _ _ _
  case placement n => exact takeRequest_lawful (servePlacement_lawful n) _ _ _ _
  case mediaStatus => exact takeRequest_lawful serveMediaStatus_lawful _ _ _ _
  case sendNext => exact takeRequest_lawful serveSendNext_lawful _ _ _ _
  case sendDone n => exact takeRequest_lawful (serveSendDone_lawful n) _ _ _ _
  case sendFail n => exact takeRequest_lawful (serveSendFail_lawful n) _ _ _ _
  case transferNext => exact takeRequest_lawful serveTransferNext_lawful _ _ _ _
  case transferDone n => exact takeRequest_lawful (serveTransferDone_lawful n) _ _ _ _
  case transferFail n => exact takeRequest_lawful (serveTransferFail_lawful n) _ _ _ _
  case sendSet f => exact takeRequest_lawful (serveSendSet_lawful f) _ _ _ _
  case tetherQueueClear => exact takeRequest_lawful serveTetherQueueClear_lawful _ _ _ _
  case portSet b => exact takeRequest_lawful (servePortSet_lawful b) _ _ _ _
  case portReset q => exact takeRequest_lawful (servePortReset_lawful q) _ _ _ _
  case standby => exact takeRequest_lawful serveStandby_lawful _ _ _ _
  case resume => exact takeRequest_lawful serveResume_lawful _ _ _ _
  case wakeSet f => exact takeRequest_lawful (serveWakeSet_lawful f) _ _ _ _

theorem setDeaf_books (s : State) (p : Port) (b : Bool) : SameBooks s (s.setDeaf p b) :=
  setPort_books _ _ _

theorem answerBad_books (s : State) (p : Port) (bs : List Byte) : SameBooks s (s.answerBad p bs) :=
  answerFrame_books _ _ _ _ _

theorem oversizeFrame_books (s : State) (p : Port) (bs : List Byte) :
    SameBooks s (s.oversizeFrame p bs) :=
  (answerBad_books _ _ _).trans (setDeaf_books _ _ _)

theorem goodFrame_lawful (s : State) (p : Port) (bs : List Byte) (asks : Option Request) :
    Lawful s (s.goodFrame p bs asks) := by
  unfold State.goodFrame
  split
  · exact takeNamed_lawful _ _ _ _
  · exact (answerFrame_books _ _ _ _ _).lawful

theorem serialFrame_lawful (s : State) (p : Port) (bs : List Byte) (asks : Option Request) :
    Lawful s (s.serialFrame p bs asks) := by
  unfold State.serialFrame
  exact .ite (.refl s) (.ite (oversizeFrame_books _ _ _).lawful (.ite (.refl s)
    (.ite (answerBad_books _ _ _).lawful (goodFrame_lawful _ _ _ _))))

theorem execFrameReceived_keeping (s : State) (p : Port) (bs : List Byte) (asks : Option Request) :
    Keeping s (execFrameReceived p bs asks s) := by
  unfold execFrameReceived
  split
  · split
    · refine .next ?_
      unfold State.tetherFrame
      exact .ite (answerBad_books _ _ _).lawful (goodFrame_lawful _ _ _ _)
    · exact .next (serialFrame_lawful _ _ _ _)
    · exact .next (serialFrame_lawful _ _ _ _)
  · exact .same s

theorem execSelectDeasserted_keeping (s : State) (p : Port) (bs : List Byte) :
    Keeping s (execSelectDeasserted p bs s) := by
  unfold execSelectDeasserted
  split
  · exact .same s
  · exact .ite (.books ((setDeaf_books _ _ _).trans (answerBad_books _ _ _)))
      (.books (setDeaf_books _ _ _))

theorem execOversizeHeaderReceived_keeping (s : State) (p : Port) (bs : List Byte) :
    Keeping s (execOversizeHeaderReceived p bs s) := by
  unfold execOversizeHeaderReceived
  split
  · exact .same s
  · exact .ite (.books (oversizeFrame_books _ _ _)) (.same s)

theorem execFrameDelivered_keeping (s : State) (p : Port) (w : Sent) :
    Keeping s (execFrameDelivered p w s) := by
  unfold execFrameDelivered
  split
  · refine .books (setPort_books _ _ _ ?_)
    unfold PortSt.deliverReply
    split <;> rfl
  · split
    · exact .same s
    · exact .books (setPort_books _ _ _)

theorem execNoticeAcknowledged_keeping (s : State) : Keeping s (execNoticeAcknowledged s) :=
  .books (setPort_books _ _ _)

theorem execTetherAttach_keeping (s : State) : Keeping s (execTetherAttach s) := by
  unfold execTetherAttach
  refine .ite (.same s) ?_
  dsimp only
  have h : Lawful s { ((s.resetPort .tether).settle) with
      prt := { ((s.resetPort .tether).settle).prt with attached := true } } :=
    ((resetPort_lawful _ _).trans (settle_lawful _)).trans (SameBooks.plain).lawful
  exact .ite (.next (h.trans (enterWaking_books _ _).lawful)) (.next h)

theorem execTetherDetach_keeping (s : State) : Keeping s (execTetherDetach s) := by
  unfold execTetherDetach
  refine .ite (.next ?_) (.same s)
  exact ((resetPort_lawful s .tether).trans (settle_lawful _)).trans (SameBooks.plain).lawful

theorem execReadGathered_keeping (s : State) (p : Port) : Keeping s (execReadGathered p s) := by
  unfold execReadGathered
  split
  · exact .same s
  · split
    · exact .ite (.books (formReply_books _ _ _ _)) (.same s)
    · exact .same s
    · exact .same s
    · exact .same s

/-! ### Lines and power -/

theorem execHalfPressAsserted_keeping (s : State) : Keeping s (execHalfPressAsserted s) := by
  unfold execHalfPressAsserted
  refine .ite (.same s) ?_
  dsimp only
  split
  · exact .books (SameBooks.trans .plain (halfPress_books _))
  · exact .ite (.books (SameBooks.trans .plain (enterWaking_books _ _))) (.books .plain)
  · exact .books .plain
  · exact .books .plain

theorem execHalfPressReleased_keeping (s : State) : Keeping s (execHalfPressReleased s) := by
  unfold execHalfPressReleased
  exact .ite (.books (SameBooks.trans .plain (endSession_books _))) (.same s)

theorem execLensDetectAsserted_keeping (s : State) : Keeping s (execLensDetectAsserted s) := by
  unfold execLensDetectAsserted
  refine .ite (.same s) ?_
  dsimp only
  refine .ite (.books .plain) ?_
  split
  · exact .books (SameBooks.trans .plain (startIdent_books _))
  · exact .books (SameBooks.trans .plain (startIdent_books _))
  · exact .books .plain
  · exact .books .plain

theorem execLensDetectDeasserted_keeping (s : State) : Keeping s (execLensDetectDeasserted s) := by
  unfold execLensDetectDeasserted
  exact .ite (.books (SameBooks.trans .plain (linkAbsent_books _))) (.same s)

theorem execPowerLowAsserted_keeping (s : State) : Keeping s (execPowerLowAsserted s) := by
  unfold execPowerLowAsserted
  refine .ite (.same s) ?_
  dsimp only
  refine .ite (.books .plain) (.next ?_)
  have h : SameBooks s { s with pins := { s.pins with powerLow := true } } := .plain
  exact (h.lawful.trans (enterSaving_lawful _)).trans (settle_lawful _)

theorem execPowerLowDeasserted_keeping (s : State) : Keeping s (execPowerLowDeasserted s) :=
  .books .plain

theorem setDetect_books (s : State) (x : Slot) (b : Bool) : SameBooks s (s.setDetect x b) := by
  cases x <;> exact .plain

theorem cardGone_lawful (s : State) (x : Slot) : Lawful s (s.cardGone x) :=
  (((setDetect_books _ _ _).lawful.trans (removeCard_lawful _ _)).trans (saveTest_books _).lawful).trans
    (settle_lawful _)

theorem execCardDetectAsserted_keeping (s : State) (x : Slot) :
    Keeping s (execCardDetectAsserted x s) := by
  unfold execCardDetectAsserted
  exact .ite (.same s) (.next (((setDetect_books _ _ _).trans (insertCard_books _ _)).lawful.trans
    (settle_lawful _)))

theorem execCardDetectDeasserted_keeping (s : State) (x : Slot) :
    Keeping s (execCardDetectDeasserted x s) := by
  unfold execCardDetectDeasserted
  exact .ite (.next (cardGone_lawful _ _)) (.same s)

theorem execSlotResetDone_keeping (s : State) (x : Slot) (o : ResetOutcome) :
    Keeping s (execSlotResetDone x o s) := by
  have failed : Keeping s (.next (s.resetFailed x)) :=
    .books ((endReinit_books s x .state).trans (setSlot_books _ _ _))
  unfold execSlotResetDone
  split
  · exact .same s
  · dsimp only
    split
    · refine .ite (.next ?_) failed
      exact ((endReinit_books s x .ok).trans ((setSlot_books _ _ _).trans
        (chooseWork_books _ _))).lawful.trans (settle_lawful _)
    · exact .ite failed (.same s)
    · exact .next (cardGone_lawful _ _)

theorem execWakeWaitEnd_keeping (s : State) : Keeping s (execWakeWaitEnd s) := by
  unfold execWakeWaitEnd
  split
  · refine .ite (.next ?_) (.same s)
    unfold State.wakeEnded
    dsimp only
    have h1 : SameBooks s ({ s with pwc := { s.pwc with power := .active, wake := none, held := [] } } :
        State).leaveOff := .trans .plain (leaveOff_books _)
    generalize ({ s with pwc := { s.pwc with power := .active, wake := none, held := [] } } :
        State).leaveOff = u at *
    have h2 : SameBooks u (if u.pins.lens = true then u.startIdent else u) :=
      .ite (startIdent_books _) (.refl u)
    generalize (if u.pins.lens = true then u.startIdent else u) = v at *
    rename_i w _ _
    have h3 := ((h1.trans h2).trans (notifyBodyTether_books v (.wakeDone w.source))).lawful.trans
      (serveHeld_lawful _ s.pwc.held)
    exact .ite (h3.trans (halfPress_books _).lawful) h3
  · exact .same s

/-! ### The lens link -/

theorem execLinkReply_keeping (s : State) (cs : List LinkChar) (n : Option LinkCommand) :
    Keeping s (execLinkReply cs n s) := by
  unfold execLinkReply
  split
  · exact .same s
  · split
    · exact .books (linkGood_books _ _ _)
    · exact .books (linkError_books _ _ _)
    · exact .books ((fresh_books _).trans (linkError_books _ _ _))

theorem execLinkReplyLate_keeping (s : State) : Keeping s (execLinkReplyLate s) := by
  unfold execLinkReplyLate
  split
  · exact .same s
  · exact .books (linkError_books _ _ _)

theorem execPollWhereDue_keeping (s : State) : Keeping s (execPollWhereDue s) := by
  unfold execPollWhereDue
  split
  · exact .same s
  · exact .ite (.books (SameBooks.trans .plain (startNext_books _))) (.same s)

/-! ### Frames -/

theorem execFrameDue_keeping (s : State) : Keeping s (execFrameDue s) := by
  unfold execFrameDue
  refine .ite (.next ?_) (.same s)
  have h : SameBooks s { s with rsq := { s.rsq with latch := false } } := .plain
  exact (h.lawful.trans (requestFrame_lawful _)).trans (settle_lawful _)

theorem execFocusWaitTimeout_keeping (s : State) : Keeping s (execFocusWaitTimeout s) := by
  unfold execFocusWaitTimeout
  split
  · exact .same s
  · exact .ite (.books ((markExpired_books _).trans (enterExpose_books _))) (.same s)

theorem stamp_books (s : State) (f : Frame) : SameBooks s (s.stamp f) := modRecord_books _ _ _

theorem execExposureMidpoint_keeping (s : State) : Keeping s (execExposureMidpoint s) := by
  unfold execExposureMidpoint
  split
  · exact .same s
  · exact .ite (.books (stamp_books _ _)) (.same s)

theorem execExposureEnd_keeping (s : State) : Keeping s (execExposureEnd s) := by
  unfold execExposureEnd
  split
  · exact .same s
  · rename_i f hf
    refine .ite ?_ (.same s)
    dsimp only
    split
    · have h : SameBooks s { (s.stamp f) with rsq := { (s.stamp f).rsq with state := .readout } } :=
        (stamp_books s f).trans .plain
      exact .next (h.lawful.trans (enterEntry_lawful (f := f) _ hf rfl rfl))
    · exact .next (enterEntry_lawful (f := f) _ hf rfl rfl)
    · exact .same s

theorem execViewFrameStart_keeping (s : State) : Keeping s (execViewFrameStart s) := by
  unfold execViewFrameStart
  dsimp only
  refine .ite (.next ?_) (.same s)
  refine .trans ?_ (exposureStart_books _ _).lawful
  refine .of_books (b := { books s with frame := some (.view, 0) }) rfl fun ho =>
    ⟨Books.Ok.viewFrame ho, fun hb => ⟨hb.runs, hb.extents, hb.once⟩⟩

theorem pdDone_frame (s : State) (f : Frame) {g : Frame} (hg : s.rsq.frame = some g) :
    ∃ h, (s.pdDone f).rsq.frame = some h ∧ h.kind = g.kind ∧ h.shot = g.shot := by
  have hb := congrArg Books.frame (pdDone_books s f)
  simp only [books, hg, Option.map_some] at hb
  cases hf : (s.pdDone f).rsq.frame with
  | none => rw [hf] at hb; cases hb
  | some h =>
    rw [hf] at hb
    simp only [Option.map_some, Option.some.injEq, Prod.mk.injEq] at hb
    exact ⟨h, rfl, hb.1, hb.2⟩

theorem skipRows_same (f : Frame) (e : Entry) :
    (skipRows f e).kind = f.kind ∧ (skipRows f e).shot = f.shot := by
  unfold skipRows
  split <;> exact ⟨rfl, rfl⟩

theorem execEntryEnd_keeping (s : State) : Keeping s (execEntryEnd s) := by
  unfold execEntryEnd
  split
  · exact .same s
  · rename_i f hf
    split
    · split
      · exact .same s
      · rename_i e _
        refine .ite (.next ?_) (.same s)
        refine .trans ?_ (settle_lawful _)
        obtain ⟨k1, k2⟩ := skipRows_same f e
        split
        · obtain ⟨h, h1, h2, h3⟩ := pdDone_frame s f hf
          exact (pdDone_books _ _).lawful.trans
            (enterEntry_lawful (f := h) _ h1 (k1.trans h2.symm) (k2.trans h3.symm))
        · exact enterEntry_lawful (f := f) _ hf k1 k2
    · exact .same s
    · exact .same s

theorem execPdPair_keeping (s : State) (l r : List Sample) : Keeping s (execPdPair l r s) := by
  unfold execPdPair
  split
  · exact .same s
  · rename_i f hf
    split
    · split
      · exact .same s
      · refine .ite ?_ (.same s)
        refine .books (.trans ?_ (takePair_books _ _ _))
        exact setFrame_books (f := f) _ _ hf rfl rfl rfl
    · exact .same s
    · exact .same s

theorem stillRow_books (s : State) (f : Frame) (n : Nat) (ss : List Sample) :
    SameBooks s (s.stillRow f n ss) := by
  unfold State.stillRow
  refine .ite .plain ?_
  exact SameBooks.trans (b := { s with rsq := { s.rsq with owed := s.rsq.owed ++ [n] } }) .plain
    (modRecord_books _ _ _)

theorem viewRow_books (s : State) (f : Frame) (px : List Rgb) : SameBooks s (s.viewRow f px) := .plain

theorem execImageRow_keeping (s : State) (row : SensorRow) : Keeping s (execImageRow row s) := by
  unfold execImageRow
  split
  · exact .same s
  · rename_i f hf
    split
    · split
      · exact .same s
      · refine .ite ?_ (.same s)
        dsimp only
        split
        · refine .next (.trans (.trans (SameBooks.lawful ?_) (stillRow_books _ _ _ _).lawful)
            (settle_lawful _))
          exact setFrame_books (f := f) _ _ hf rfl rfl rfl
        · refine .books (.trans ?_ (viewRow_books _ _ _))
          exact setFrame_books (f := f) _ _ hf rfl rfl rfl
        · exact .same s
        · exact .same s
    · exact .same s
    · exact .same s

theorem execReadoutEnd_keeping (s : State) : Keeping s (execReadoutEnd s) := by
  refine Keeping.under fun ho => ?_
  unfold execReadoutEnd
  split
  · exact .same s
  · rename_i f hf
    refine .ite ?_ (.same s)
    split
    · exact .same s
    · rename_i r hr
      refine .next ?_
      dsimp only
      refine .trans ?_ (settle_lawful _)
      refine .trans ?_ (afterFrame_lawful _ _)
      obtain ⟨hl, hu⟩ := ho.framed hf hr
      refine (noFrame_lawful (s := s) rfl).trans (holdRecord_lawful (r := r) ?_ hl hu)
      exact hr

theorem execTriggerEdge_keeping (s : State) (e : Edge) : Keeping s (execTriggerEdge e s) := by
  unfold execTriggerEdge
  refine .ite (.same s) ?_
  split
  · exact .same s
  · exact .ite (.books ((enterWaking_books _ _).trans (hold_books _ _))) (.same s)
  · exact .ite (.same s) (.books (hold_books _ _))
  · split
    · exact .next (triggerShutter_lawful s)
    · exact .books (slaveEdge_books s)

/-! ### The DRAM -/

theorem rowWritten_books (s : State) (ss : List Sample) : SameBooks s (s.rowWritten ss) := .plain

theorem transferDone_books (s : State) (t : Transfer) : SameBooks s (s.transferDone t) := by
  unfold State.transferDone
  have base : SameBooks s { s with arb := { s.arb with current := none } } := .plain
  refine base.trans ?_
  generalize ({ s with arb := { s.arb with current := none } } : State) = u
  refine .ite ?_ (.refl u)
  split
  · unfold State.doneRsq
    split
    · exact .refl u
    · rename_i samples _
      dsimp only
      refine .ite .plain ?_
      refine .trans ?_ (signalChanged_books _ _)
      let d := Memory.writeBytes u.dram t.addr (((packRow samples).drop u.rsq.rowBytes).take t.length)
      exact SameBooks.trans (b := { u with dram := d }) .plain (rowWritten_books _ _)
  · unfold State.doneMed
    split
    · exact .refl u
    · split
      · exact .refl u
      · exact .ite (setSlot_books _ _ _) (setSlot_books _ _ _)
  · unfold State.donePrt
    split
    · split
      · exact setStage_books _ _ _
      · exact .refl u
      · exact .refl u
      · exact .refl u
    · exact .refl u
  · unfold State.doneDevRead
    split
    · exact .refl u
    · split
      · exact .ite .plain .plain
      · exact .refl u
  · exact .plain

theorem execDramTransferDone_keeping (s : State) : Keeping s (execDramTransferDone s) := by
  unfold execDramTransferDone
  split
  · exact .same s
  · split
    · exact .next ((transferDone_books _ _).lawful.trans (settle_lawful _))
    · intro t e
      cases e

/-! ### Development rows -/

/-- Change the state of a waiting entry of the shot. -/
def readyList (l : List RelayEntry) (n : Nat) : List RelayEntry :=
  match l.find? fun e => e.shot == n with
  | none => l
  | some e => if e.state = .waiting then modRelayList l n fun e => { e with state := .ready } else l

theorem books_relayReady (s : State) (n : Nat) :
    books (s.relayReady n) = { books s with relay := readyList (books s).relay n } := by
  unfold State.relayReady readyList
  split
  · rename_i h
    have h : (books s).relay.find? (fun e => e.shot == n) = none := h
    rw [h]
  · rename_i e h
    have h : (books s).relay.find? (fun e => e.shot == n) = some e := h
    rw [h]
    dsimp only
    split
    · exact notify_books _ _ _
    · rfl

theorem relayReady_dev (s : State) (n : Nat) : (s.relayReady n).dev = s.dev := by
  unfold State.relayReady
  split
  · rfl
  · split
    · exact notify_dev _ _ _
    · rfl

/-- The card as the job that made version `n` completes (R19, R103). -/
def Card.complete (n : Nat) (c : Card) : Card :=
  { c with versions := c.versions.map fun v =>
      if v.number = n then { v with state := .current }
      else if v.state = .current then { v with state := .draining } else v }

theorem completeVersion_card (n : Nat) (sum : Sum32) (c : Conditions) (p : Option Port) (v : Version) :
    (completeVersion n sum c p v).card =
      if v.card.number = n then { v.card with state := .current }
      else if v.card.state = .current then { v.card with state := .draining } else v.card := by
  unfold completeVersion
  by_cases h : v.number = n
  · rw [if_pos h, if_pos (show v.card.number = n from h)]
    rfl
  · rw [if_neg h, if_neg (show ¬ v.card.number = n from h)]
    by_cases h2 : v.state = .current
    · rw [if_pos h2, if_pos (show v.card.state = .current from h2)]
      rfl
    · rw [if_neg h2, if_neg (show ¬ v.card.state = .current from h2)]

theorem Card.Ok.complete {c : Card} (h : c.Ok) (n : Nat) : (c.complete n).Ok := by
  have hnum : (c.complete n).versions.map VersionCard.number = c.versions.map VersionCard.number := by
    simp only [Card.complete, List.map_map]
    refine List.map_congr_left fun v _ => ?_
    simp only [Function.comp]
    split
    · rfl
    · split <;> rfl
  have hext : ∀ v, v ∈ (c.complete n).versions → ∃ w, w ∈ c.versions ∧ v.extents = w.extents := by
    intro v hv
    obtain ⟨w, hw, rfl⟩ := List.mem_map.1 hv
    refine ⟨w, hw, ?_⟩
    split
    · rfl
    · split <;> rfl
  have hnil : c.versions = [] → (c.complete n).versions = [] := fun e => by
    simp [Card.complete, e]
  exact
    { h with
      versions := by simpa [Card.complete] using h.versions
      numbers := by rw [hnum]; exact h.numbers
      current := by
        have : ∀ l : List VersionCard, (l.map VersionCard.number).Nodup →
            ((l.map fun v => if v.number = n then { v with state := .current }
              else if v.state = .current then { v with state := .draining } else v).filter
                fun v => v.state == .current).length ≤ 1 ∧
            (n ∉ l.map VersionCard.number →
              ((l.map fun v => if v.number = n then { v with state := .current }
                else if v.state = .current then { v with state := .draining } else v).filter
                  fun v => v.state == .current).length = 0) := by
          intro l hl
          induction l with
          | nil => exact ⟨Nat.zero_le _, fun _ => rfl⟩
          | cons v rest ih =>
            rw [List.map_cons, List.nodup_cons] at hl
            obtain ⟨h1, h2⟩ := ih hl.2
            rw [List.map_cons, filter_cons_length]
            by_cases e : v.number = n
            · have h3 := h2 (e ▸ hl.1)
              have h4 := Bool.toNat_le ((if v.number = n then { v with state := .current }
                else if v.state = .current then { v with state := .draining } else v).state == .current)
              refine ⟨by omega, fun hx => absurd ?_ hx⟩
              rw [← e]
              exact List.mem_cons_self
            · have h4 : ((if v.number = n then { v with state := .current }
                else if v.state = .current then { v with state := .draining } else v).state ==
                  VersionState.current) = false := by
                rw [if_neg e]
                split
                · rfl
                · rename_i hs
                  simpa using hs
              rw [h4]
              refine ⟨by simpa using h1, fun hx => ?_⟩
              have := h2 fun hm => hx (List.mem_cons_of_mem _ hm)
              simpa using this
        exact (this c.versions h.numbers).1
      versionExtents := fun v hv => by
        obtain ⟨w, hw, e⟩ := hext v hv
        rw [e]
        exact h.versionExtents w hw
      exposing := fun e => ⟨hnil (h.exposing e).1, (h.exposing e).2⟩
      cardOnly := fun e => ⟨(h.cardOnly e).1, hnil (h.cardOnly e).2⟩ }

theorem complete_done {c : Card} {n : Nat} {v : VersionCard} (hv : v ∈ c.versions)
    (hs : v.state ≠ .building) :
    ∃ w, w ∈ (c.complete n).versions ∧ w.number = v.number ∧ w.state ≠ .building := by
  refine ⟨_, List.mem_map_of_mem hv, ?_⟩
  split
  · exact ⟨rfl, fun h => nomatch h⟩
  · split
    · exact ⟨rfl, fun h => nomatch h⟩
    · exact ⟨rfl, hs⟩

theorem complete_blocks (c : Card) (n : Nat) : (c.complete n).blocks = c.blocks := by
  simp only [Card.blocks, Card.complete, List.flatMap_map]
  congr 1
  refine congrArg (fun f => List.flatMap f c.versions) (funext fun v => ?_)
  split
  · rfl
  · split <;> rfl

/-- A version becomes CURRENT while no job runs (R103). -/
theorem complete_lawful {s t : State} {n m : Nat}
    (hb : books t = (books s).modCard n (Card.complete m))
    (hj : ∀ j, j ∈ (books s).jobs → j.state ≠ .running) : Lawful s t := by
  refine .of_books hb fun ho => ⟨Books.Ok.modCard ho n _ ?_ ?_ ?_ ?_ ?_ ?_ ?_,
    fun hk => Books.BlocksOk.modCard hk n _ fun c _ _ => complete_blocks c m⟩
  · intro c hc e
    exact ⟨e, (ho.cards c hc).complete m⟩
  · intro c _ _ h
    exact h
  · intro c _ _ e _ _ hf
    refine ⟨hf.1, hf.2.1, fun k hk => ?_⟩
    obtain ⟨v, hv, hvn, hvs⟩ := hf.2.2 k hk
    obtain ⟨w, hw, hwn, hws⟩ := complete_done (n := m) hv hvs
    exact ⟨w, hw, hwn.trans hvn, hws⟩
  · intro c _ _ e _ _ hf
    exact hf
  · intro c _ _ j hm _ hf
    exact ⟨hf.1, hf.2.1, fun hr => absurd hr (hj j hm)⟩
  · intro c _ _ x _ _ hf
    refine ⟨hf.1, ?_⟩
    have h2 := hf.2
    cases hp : x.part with
    | raw => rw [hp] at h2; exact h2
    | proof =>
      rw [hp] at h2
      obtain ⟨v, hv, hvn, hvs⟩ := h2
      obtain ⟨w, hw, hwn, hws⟩ := complete_done (n := m) hv hvs
      exact ⟨w, hw, by rw [hvn, hwn], hws⟩
  · intro c _ _ _ hl
    exact hl

theorem completeJob_lawful {s : State} {j : Job} (hm : j ∈ s.dev.queue) (hr : j.state = .running)
    (rec : Recipe) (sum : Sum32) : Lawful s (s.completeJob j rec sum) := by
  refine Lawful.under fun ho => ?_
  unfold State.completeJob
  dsimp only
  refine .trans ?_ (chooseBoth_books _).lawful
  refine .trans ?_ (markAttempt_books _).lawful
  refine .trans ?_ (admitAuto_lawful _)
  refine .trans ?_ (announceJob_books _ _ _).lawful
  refine .trans ?_ (releaseTests_lawful _ _)
  let g : Record → Record := fun q =>
    { q with versions := q.versions.map (completeVersion j.version sum j.conditions j.asking.head?) }
  have hg : ∀ u : State, books (u.modRecord j.shot g) =
      (books u).modCard j.shot (Card.complete j.version) := fun u =>
    books_modRecord _ _ _ _ fun q _ _ => by
      simp only [Record.card, Card.complete, List.map_map, g]
      congr 1
      refine List.map_congr_left fun v _ => ?_
      exact completeVersion_card _ _ _ _ v
  have h1 := dropJob_lawful s j
  have h2 : Lawful (s.dropJob j) ((s.dropJob j).modRecord j.shot g) :=
    complete_lawful (hg _) fun d hd => by
      have hd : d ∈ (s.dev.queue.erase j).map Job.card := hd
      exact ho.aloneOf hm hr hd
  have h3 := (h1.trans h2).trans (relayReady_lawful _ j.shot)
  generalize hw : ((s.dropJob j).modRecord j.shot g).relayReady j.shot = w at h3
  have hbw : books w = { (books s).modCard j.shot (Card.complete j.version) with
      relay := readyList (books s).relay j.shot
      jobs := (s.dev.queue.erase j).map Job.card } := by
    rw [← hw, books_relayReady, hg]
    rfl
  have hq : ((s.modRecord j.shot g).relayReady j.shot).dev.queue = s.dev.queue := by
    rw [relayReady_dev]
    rfl
  have hbu := books_relayReady (s.modRecord j.shot g) j.shot
  rw [hg] at hbu
  have hv : ∀ v : State, v.dev.queue = s.dev.queue →
      books v = books ((s.modRecord j.shot g).relayReady j.shot) →
      ∀ r : JobResult, SameBooks w { ((v.dropJob j).logJob r) with
        dev := { ((v.dropJob j).logJob r).dev with engine := .idle, row := RowWork.none } } := by
    intro v hvq hvb r
    have hv2 : books { ((v.dropJob j).logJob r) with
        dev := { ((v.dropJob j).logJob r).dev with engine := .idle, row := RowWork.none } } =
        { books v with jobs := (v.dev.queue.erase j).map Job.card } := rfl
    show books _ = _
    rw [hv2, hvb, hbw, hbu, hvq]
    rfl
  refine h3.trans ?_
  split
  · refine (hv _ ?_ ?_ _).lawful
    · exact hq
    · exact requireCopies_books _ _ _ _
  · exact (hv _ hq rfl _).lawful

theorem changeJob_mem {l : List Job} {j : Job} (h : j ∈ l) (f : Job → Job) :
    ∃ a b, l = a ++ j :: b ∧ changeJob l j f = a ++ f j :: b := by
  induction l with
  | nil => cases h
  | cons k rest ih =>
    unfold changeJob
    by_cases e : k = j
    · rw [if_pos e]
      subst e
      exact ⟨[], rest, rfl, rfl⟩
    · rw [if_neg e]
      obtain ⟨a, b, h1, h2⟩ := ih ((List.mem_cons.1 h).resolve_left (Ne.symm e))
      exact ⟨k :: a, b, by rw [h1]; rfl, by rw [h2]; rfl⟩

theorem rowOver_lawful {s : State} {j : Job} (hj : s.runningJob = some j) (rec : Recipe) :
    Lawful s (s.rowOver j rec) := by
  refine Lawful.under fun ho => ?_
  obtain ⟨hm, hr⟩ := runningJob_mem hj
  have hrows : j.rowsDone.isSome = true :=
    (ho.begun j.card (List.mem_map_of_mem hm)).2.2 hr
  unfold State.rowOver
  dsimp only
  generalize hk : ({ j with
    rowsDone := some (j.rows + 1),
    saturation := addSaturation j.saturation s.dev.row.saturation } : Job) = k
  have hc : k.card = j.card := by
    subst hk
    simp [Job.card, hrows]
  obtain ⟨a, b, h1, h2⟩ := changeJob_mem hm fun _ => k
  have h3 : SameBooks s (s.modJob j fun _ => k) := by
    show Books.mk _ _ _ _ _ ((changeJob s.dev.queue j fun _ => k).map Job.card) _ _ = _
    have : (changeJob s.dev.queue j fun _ => k).map Job.card = s.dev.queue.map Job.card := by
      rw [h2, h1, List.map_append, List.map_append, List.map_cons, List.map_cons, hc]
    rw [this]
    rfl
  have hmk : k ∈ (s.modJob j fun _ => k).dev.queue := by
    show k ∈ changeJob s.dev.queue j fun _ => k
    rw [h2]
    simp
  have hrk : k.state = .running := by
    have : k.card.state = j.card.state := by rw [hc]
    exact this.trans hr
  refine h3.lawful.trans ?_
  exact .ite (completeJob_lawful hmk hrk _ _) (.ite (SameBooks.plain).lawful
    (beginRow_books _ _ _).lawful)

theorem execDevRowDone_keeping (s : State) : Keeping s (execDevRowDone s) := by
  unfold execDevRowDone
  split
  · exact .same s
  · rename_i j hj
    split
    · exact .same s
    · exact .ite (.next ((rowOver_lawful hj _).trans (settle_lawful _))) (.same s)

/-! ### Card events -/

theorem slotTimeout_lawful (s : State) (x : Slot) (f : Flight) : Lawful s (s.slotTimeout x f) :=
  (copyFailed_lawful _ _ _ _ _).trans ((saveTest_books _).lawful.trans (settle_lawful _))

theorem burstStored_lawful (s : State) (x : Slot) (f : Flight) : Lawful s (s.burstStored x f) := by
  unfold State.burstStored
  dsimp only
  refine .ite ((writingDone_lawful _ _ _).trans ((saveTest_books _).lawful.trans (settle_lawful _))) ?_
  exact (setSlot_books _ _ _).lawful.trans (settle_lawful _)

theorem burstRead_lawful (s : State) (x : Slot) (f : Flight) (d : List Byte) :
    Lawful s (s.burstRead x f d) := by
  unfold State.burstRead
  dsimp only
  refine .ite (.ite ?_ ?_) ?_
  · exact (copyWritten_lawful _ _ _ _).trans ((saveTest_books _).lawful.trans (settle_lawful _))
  · exact (copyFailed_lawful _ _ _ _ _).trans ((saveTest_books _).lawful.trans (settle_lawful _))
  · exact (setSlot_books _ _ _).lawful

theorem execCardBusyEnd_keeping (s : State) (x : Slot) : Keeping s (execCardBusyEnd x s) := by
  unfold execCardBusyEnd
  split
  · exact .same s
  · split
    · exact .ite (.next (burstStored_lawful _ _ _)) (.next (slotTimeout_lawful _ _ _))
    · exact .same s
    · exact .same s

theorem execCardTimeout_keeping (s : State) (x : Slot) : Keeping s (execCardTimeout x s) := by
  unfold execCardTimeout
  split
  · exact .same s
  · split
    · exact .ite (.next (slotTimeout_lawful _ _ _)) (.same s)
    · exact .ite (.next (slotTimeout_lawful _ _ _)) (.same s)
    · exact .same s

theorem execVerifyBurstDone_keeping (s : State) (x : Slot) (d : List Byte) :
    Keeping s (execVerifyBurstDone x d s) := by
  unfold execVerifyBurstDone
  split
  · exact .same s
  · split
    · exact .ite (.next (burstRead_lawful _ _ _ _)) (.same s)
    · exact .same s
    · exact .same s

/-! ### Full reset -/

theorem books_reset : books State.reset =
    ⟨[], 1, [⟨0, Config.blockCount⟩], [], [], [], [], none⟩ := rfl

theorem reset_lawful {s t : State} (h : books t = books State.reset) : Lawful s t := by
  rw [books_reset] at h
  refine .of_books h fun _ => ⟨?_, fun _ => ?_⟩
  · exact
      { catalog := ⟨by decide, List.Pairwise.nil, fun n h => nomatch h⟩
        cards := fun c h => nomatch h
        relayOnce := List.Pairwise.nil
        relayFlight := by decide
        relayBound := fun c h => nomatch h
        relayFits := fun c h => nomatch h
        tagged := fun c h => nomatch h
        tetherOnce := List.Pairwise.nil
        tetherFlight := by decide
        tetherFits := fun c h => nomatch h
        running := by decide
        begun := fun c h => nomatch h
        jobFits := fun c h => nomatch h
        handleFits := fun c h => nomatch h
        frame := fun k n h => nomatch h }
  · exact
      { runs := by decide
        extents := fun c h => nomatch h
        once := fun n => by simp [covered] }

theorem execFullReset_keeping (s : State) : Keeping s (execFullReset s) := by
  unfold execFullReset
  dsimp only
  have card : ∀ (u : State) (b : Bool) (x : Slot), Lawful s u →
      Lawful s (if b = true then u.insertCard x else u) := fun u b x h =>
    .ite (h.trans (insertCard_books u x).lawful) h
  have lens : ∀ (u : State) (b : Bool), Lawful s u →
      Lawful s (if b = true then u.startIdent else u) := fun u b h =>
    .ite (h.trans (startIdent_books u).lawful) h
  have low : ∀ (u : State) (b : Bool), Lawful s u →
      Lawful s (if b = true then u.enterSaving.settle else u) := fun u b h =>
    .ite (h.trans ((enterSaving_lawful u).trans (settle_lawful _))) h
  exact .next (low _ _ (lens _ _ (card _ _ _ (card _ _ _ (reset_lawful rfl)))))

end Sys2Proof.Machine
end

