-- ==== Sys2Proof/Laws/PerInstr.lean ====
section
/-! SUPPORT. The family of lemmas over all commands: a command that a request's frame spells is well
formed exactly when the request is, and may change a setting exactly when the request may. -/
set_option Elab.async false
namespace Sys2Proof.Laws

/-- The row of a request is as well formed as the request, and sets what the request may set. -/
theorem row_wellFormed_sets (r : Request) (p : Port) (tag : Byte) :
    (r.row p tag).wellFormed = r.ok ∧ (r.row p tag).sets = r.kind.sets := by
  cases r <;> exact ⟨rfl, rfl⟩

/-- What the family says of a command: whichever request spells it, the checks of the two agree. -/
def Carries.Statement (i : Instr) : Prop :=
  ∀ (r : Request) (p : Port) (tag : Byte), r.row p tag = i →
    i.wellFormed = r.ok ∧ i.sets = r.kind.sets

/-- The family holds of every command. -/
theorem carries_all (i : Instr) : Carries.Statement i :=
  fun r p tag h => h ▸ row_wellFormed_sets r p tag

namespace Carries

theorem fullReset : Statement .fullReset := carries_all _
theorem frameReceived (p : Port) (bytes : List Byte) (asks : Option Request) :
    Statement (.frameReceived p bytes asks) :=
  carries_all _
theorem selectDeasserted (p : Port) (received : List Byte) :
    Statement (.selectDeasserted p received) :=
  carries_all _
theorem frameDelivered (p : Port) (what : Sent) :
    Statement (.frameDelivered p what) :=
  carries_all _
theorem noticeAcknowledged : Statement .noticeAcknowledged := carries_all _
theorem burstStart (p : Port) (tag : Byte) (f : BurstFields) :
    Statement (.burstStart p tag f) :=
  carries_all _
theorem burstStop (p : Port) (tag : Byte) : Statement (.burstStop p tag) := carries_all _
theorem programWrite (p : Port) (tag : Byte) (f : ProgramFields) :
    Statement (.programWrite p tag f) :=
  carries_all _
theorem programRead (p : Port) (tag : Byte) : Statement (.programRead p tag) := carries_all _
theorem seqHold (p : Port) (tag : Byte) : Statement (.seqHold p tag) := carries_all _
theorem seqRun (p : Port) (tag : Byte) : Statement (.seqRun p tag) := carries_all _
theorem syncMode (p : Port) (tag : Byte) (f : SyncFields) :
    Statement (.syncMode p tag f) :=
  carries_all _
theorem captureSet (p : Port) (tag : Byte) (f : CaptureFields) :
    Statement (.captureSet p tag f) :=
  carries_all _
theorem watermark (p : Port) (tag : Byte) (value : Nat) :
    Statement (.watermark p tag value) :=
  carries_all _
theorem focusStart (p : Port) (tag : Byte) (mode : Option (Choice FocusMode)) :
    Statement (.focusStart p tag mode) :=
  carries_all _
theorem focusStop (p : Port) (tag : Byte) : Statement (.focusStop p tag) := carries_all _
theorem focusArea (p : Port) (tag : Byte) (index : Nat) :
    Statement (.focusArea p tag index) :=
  carries_all _
theorem focusSetup (p : Port) (tag : Byte) (f : SetupFields) :
    Statement (.focusSetup p tag f) :=
  carries_all _
theorem focusResult (p : Port) (tag : Byte) : Statement (.focusResult p tag) := carries_all _
theorem markerWrite (p : Port) (tag : Byte) (f : MarkerFields) :
    Statement (.markerWrite p tag f) :=
  carries_all _
theorem status (p : Port) (tag : Byte) : Statement (.status p tag) := carries_all _
theorem listRecords (p : Port) (tag : Byte) (first : Option Nat) :
    Statement (.listRecords p tag first) :=
  carries_all _
theorem info (p : Port) (tag : Byte) (shot : Nat) : Statement (.info p tag shot) := carries_all _
theorem openPart (p : Port) (tag : Byte) (shot : Nat) (part : Choice Part) :
    Statement (.openPart p tag shot part) :=
  carries_all _
theorem readPart (p : Port) (tag : Byte) (handle offset length : Nat) :
    Statement (.readPart p tag handle offset length) :=
  carries_all _
theorem readGathered (p : Port) : Statement (.readGathered p) := carries_all _
theorem closeHandle (p : Port) (tag : Byte) (handle : Nat) :
    Statement (.closeHandle p tag handle) :=
  carries_all _
theorem tag (p : Port) (tag : Byte) (shot : Nat) (f : TagFields) :
    Statement (.tag p tag shot f) :=
  carries_all _
theorem delete (p : Port) (tag : Byte) (shot : Nat) :
    Statement (.delete p tag shot) :=
  carries_all _
theorem develop (p : Port) (tag : Byte) (shot recipe : Nat) :
    Statement (.develop p tag shot recipe) :=
  carries_all _
theorem devStatus (p : Port) (tag : Byte) (job : Option Nat) :
    Statement (.devStatus p tag job) :=
  carries_all _
theorem toneRead (p : Port) (tag : Byte) (table : Nat) :
    Statement (.toneRead p tag table) :=
  carries_all _
theorem toneWrite (p : Port) (tag : Byte) (table first : Nat) (values : List Nat) :
    Statement (.toneWrite p tag table first values) :=
  carries_all _
theorem recipeWrite (p : Port) (tag : Byte) (index : Nat) (f : RecipeFields) :
    Statement (.recipeWrite p tag index f) :=
  carries_all _
theorem recipeRead (p : Port) (tag : Byte) (index : Nat) :
    Statement (.recipeRead p tag index) :=
  carries_all _
theorem devSet (p : Port) (tag : Byte) (card relay : Option Nat) :
    Statement (.devSet p tag card relay) :=
  carries_all _
theorem slotMode (p : Port) (tag : Byte) (mode : Choice SlotMode) :
    Statement (.slotMode p tag mode) :=
  carries_all _
theorem mediaSet (p : Port) (tag : Byte) (f : MediaFields) :
    Statement (.mediaSet p tag f) :=
  carries_all _
theorem cardSpace (p : Port) (tag : Byte) (slot : Choice Slot) (first count : Nat) :
    Statement (.cardSpace p tag slot first count) :=
  carries_all _
theorem cardSpaceClear (p : Port) (tag : Byte) (slot : Choice Slot) :
    Statement (.cardSpaceClear p tag slot) :=
  carries_all _
theorem slotReset (p : Port) (tag : Byte) (slot : Choice Slot) :
    Statement (.slotReset p tag slot) :=
  carries_all _
theorem slotResetDone (slot : Slot) (outcome : ResetOutcome) :
    Statement (.slotResetDone slot outcome) :=
  carries_all _
theorem slotDrop (p : Port) (tag : Byte) (slot : Choice Slot) :
    Statement (.slotDrop p tag slot) :=
  carries_all _
theorem slotFull (p : Port) (tag : Byte) (slot : Choice Slot) :
    Statement (.slotFull p tag slot) :=
  carries_all _
theorem placement (p : Port) (tag : Byte) (shot : Nat) :
    Statement (.placement p tag shot) :=
  carries_all _
theorem mediaStatus (p : Port) (tag : Byte) : Statement (.mediaStatus p tag) := carries_all _
theorem sendNext (p : Port) (tag : Byte) : Statement (.sendNext p tag) := carries_all _
theorem sendDone (p : Port) (tag : Byte) (shot : Nat) :
    Statement (.sendDone p tag shot) :=
  carries_all _
theorem sendFail (p : Port) (tag : Byte) (shot : Nat) :
    Statement (.sendFail p tag shot) :=
  carries_all _
theorem transferNext (p : Port) (tag : Byte) : Statement (.transferNext p tag) := carries_all _
theorem transferDone (p : Port) (tag : Byte) (shot : Nat) :
    Statement (.transferDone p tag shot) :=
  carries_all _
theorem transferFail (p : Port) (tag : Byte) (shot : Nat) :
    Statement (.transferFail p tag shot) :=
  carries_all _
theorem sendSet (p : Port) (tag : Byte) (f : SendSetFields) :
    Statement (.sendSet p tag f) :=
  carries_all _
theorem tetherQueueClear (p : Port) (tag : Byte) :
    Statement (.tetherQueueClear p tag) :=
  carries_all _
theorem portSet (p : Port) (tag : Byte) (remoteDelete : Choice Bool) :
    Statement (.portSet p tag remoteDelete) :=
  carries_all _
theorem portReset (p : Port) (tag : Byte) (port : Choice Port) :
    Statement (.portReset p tag port) :=
  carries_all _
theorem standby (p : Port) (tag : Byte) : Statement (.standby p tag) := carries_all _
theorem resume (p : Port) (tag : Byte) : Statement (.resume p tag) := carries_all _
theorem wakeSet (p : Port) (tag : Byte) (f : WakeFields) :
    Statement (.wakeSet p tag f) :=
  carries_all _
theorem tetherAttach : Statement .tetherAttach := carries_all _
theorem tetherDetach : Statement .tetherDetach := carries_all _
theorem halfPressAsserted : Statement .halfPressAsserted := carries_all _
theorem halfPressReleased : Statement .halfPressReleased := carries_all _
theorem triggerEdge (edge : Edge) : Statement (.triggerEdge edge) := carries_all _
theorem powerLowAsserted : Statement .powerLowAsserted := carries_all _
theorem powerLowDeasserted : Statement .powerLowDeasserted := carries_all _
theorem wakeWaitEnd : Statement .wakeWaitEnd := carries_all _
theorem cardDetectAsserted (slot : Slot) : Statement (.cardDetectAsserted slot) := carries_all _
theorem cardDetectDeasserted (slot : Slot) : Statement (.cardDetectDeasserted slot) := carries_all _
theorem lensDetectAsserted : Statement .lensDetectAsserted := carries_all _
theorem lensDetectDeasserted : Statement .lensDetectDeasserted := carries_all _
theorem linkReply (chars : List LinkChar) (names : Option LinkCommand) :
    Statement (.linkReply chars names) :=
  carries_all _
theorem linkReplyLate : Statement .linkReplyLate := carries_all _
theorem pollWhereDue : Statement .pollWhereDue := carries_all _
theorem frameDue : Statement .frameDue := carries_all _
theorem focusWaitTimeout : Statement .focusWaitTimeout := carries_all _
theorem exposureMidpoint : Statement .exposureMidpoint := carries_all _
theorem exposureEnd : Statement .exposureEnd := carries_all _
theorem viewFrameStart : Statement .viewFrameStart := carries_all _
theorem entryEnd : Statement .entryEnd := carries_all _
theorem pdPair (left right : List Sample) : Statement (.pdPair left right) := carries_all _
theorem imageRow (row : SensorRow) : Statement (.imageRow row) := carries_all _
theorem dramTransferDone : Statement .dramTransferDone := carries_all _
theorem readoutEnd : Statement .readoutEnd := carries_all _
theorem devRowDone : Statement .devRowDone := carries_all _
theorem cardBusyEnd (slot : Slot) : Statement (.cardBusyEnd slot) := carries_all _
theorem cardTimeout (slot : Slot) : Statement (.cardTimeout slot) := carries_all _
theorem verifyBurstDone (slot : Slot) (data : List Byte) :
    Statement (.verifyBurstDone slot data) :=
  carries_all _
theorem oversizeHeaderReceived (p : Port) (header : List Byte) :
    Statement (.oversizeHeaderReceived p header) :=
  carries_all _

end Carries

end Sys2Proof.Laws
end

