-- ==== Sys2Proof/Laws/Steps.lean ====
section
/-! SUPPORT. What every command leaves alone, said once for all commands (`keepsOf`): it goes on,
but for a transfer past the end of the buffer, and its next state keeps every invariant. -/
set_option Elab.async false
namespace Sys2Proof.Machine

/-- What a command leaves alone. -/
def keepsOf (i : Instr) : Keeps :=
  match i with
  | .fullReset => ⟨false, true, false⟩
  | .dramTransferDone => .writes
  | .halfPressAsserted => .lines
  | .halfPressReleased => .lines
  | .lensDetectAsserted => .lines
  | .lensDetectDeasserted => .lines
  | .powerLowAsserted => .lines
  | .powerLowDeasserted => .lines
  | .cardDetectAsserted _ => .lines
  | .cardDetectDeasserted _ => .lines
  | .slotResetDone _ o => .ofReset o
  | i => ⟨true, true, !i.sets⟩

/-- Every command goes on, but for a transfer past the end of the buffer. -/
theorem exec_leaves (i : Instr) (s : State) (h : i = .dramTransferDone → ∀ t, s.arb.current = some t → t.addr + t.length ≤ Config.bufferBytes) :
    Leaves (keepsOf i) s (exec i s) := by
  cases i
  case fullReset => exact execFullReset_leaves s
  case dramTransferDone => exact execDramTransferDone_leaves s (h rfl)
  case frameReceived p bs asks =>
    have := execFrameReceived_leaves s p bs asks
    cases asks with
    | none => exact this
    | some r => exact this
  case selectDeasserted => exact execSelectDeasserted_leaves _ _ _
  case oversizeHeaderReceived => exact execOversizeHeaderReceived_leaves _ _ _
  case frameDelivered => exact execFrameDelivered_leaves _ _ _
  case noticeAcknowledged => exact execNoticeAcknowledged_leaves _
  case readGathered => exact execReadGathered_leaves _ _
  case tetherAttach => exact execTetherAttach_leaves _
  case tetherDetach => exact execTetherDetach_leaves _
  case halfPressAsserted => exact execHalfPressAsserted_leaves _
  case halfPressReleased => exact execHalfPressReleased_leaves _
  case triggerEdge => exact execTriggerEdge_leaves _ _
  case powerLowAsserted => exact execPowerLowAsserted_leaves _
  case powerLowDeasserted => exact execPowerLowDeasserted_leaves _
  case wakeWaitEnd => exact execWakeWaitEnd_leaves _
  case cardDetectAsserted => exact execCardDetectAsserted_leaves _ _
  case cardDetectDeasserted => exact execCardDetectDeasserted_leaves _ _
  case lensDetectAsserted => exact execLensDetectAsserted_leaves _
  case lensDetectDeasserted => exact execLensDetectDeasserted_leaves _
  case slotResetDone => exact execSlotResetDone_leaves _ _ _
  case linkReply => exact execLinkReply_leaves _ _ _
  case linkReplyLate => exact execLinkReplyLate_leaves _
  case pollWhereDue => exact execPollWhereDue_leaves _
  case frameDue => exact execFrameDue_leaves _
  case focusWaitTimeout => exact execFocusWaitTimeout_leaves _
  case exposureMidpoint => exact execExposureMidpoint_leaves _
  case exposureEnd => exact execExposureEnd_leaves _
  case viewFrameStart => exact execViewFrameStart_leaves _
  case entryEnd => exact execEntryEnd_leaves _
  case pdPair => exact execPdPair_leaves _ _ _
  case imageRow => exact execImageRow_leaves _ _
  case readoutEnd => exact execReadoutEnd_leaves _
  case devRowDone => exact execDevRowDone_leaves _
  case cardBusyEnd => exact execCardBusyEnd_leaves _ _
  case cardTimeout => exact execCardTimeout_leaves _ _
  case verifyBurstDone => exact execVerifyBurstDone_leaves _ _ _
  all_goals first
    | exact Leaves.request _ _ _ _ (serveBurstStart_serves _ _)
    | exact Leaves.request _ _ _ _ serveBurstStop_serves
    | exact Leaves.request _ _ _ _ (serveProgramWrite_serves _)
    | exact Leaves.request _ _ _ _ serveProgramRead_serves
    | exact Leaves.request _ _ _ _ serveSeqHold_serves
    | exact Leaves.request _ _ _ _ serveSeqRun_serves
    | exact Leaves.request _ _ _ _ (serveSyncMode_serves _)
    | exact Leaves.request _ _ _ _ (serveCaptureSet_serves _)
    | exact Leaves.request _ _ _ _ (serveWatermark_serves _)
    | exact Leaves.request _ _ _ _ (serveFocusStart_serves _ _)
    | exact Leaves.request _ _ _ _ serveFocusStop_serves
    | exact Leaves.request _ _ _ _ (serveFocusArea_serves _)
    | exact Leaves.request _ _ _ _ (serveFocusSetup_serves _)
    | exact Leaves.request _ _ _ _ serveFocusResult_serves
    | exact Leaves.request _ _ _ _ (serveMarkerWrite_serves _)
    | exact Leaves.request _ _ _ _ (serveStatus_serves _)
    | exact Leaves.request _ _ _ _ (serveList_serves _)
    | exact Leaves.request _ _ _ _ (serveInfo_serves _)
    | exact Leaves.request _ _ _ _ (serveOpen_serves _ _ _)
    | exact Leaves.request _ _ _ _ (serveRead_serves _ _ _ _)
    | exact Leaves.request _ _ _ _ (serveClose_serves _ _)
    | exact Leaves.request _ _ _ _ (serveTag_serves _ _)
    | exact Leaves.request _ _ _ _ (serveDelete_serves _)
    | exact Leaves.request _ _ _ _ (serveDevelop_serves _ _ _)
    | exact Leaves.request _ _ _ _ (serveDevStatus_serves _)
    | exact Leaves.request _ _ _ _ (serveToneRead_serves _)
    | exact Leaves.request _ _ _ _ (serveToneWrite_serves _ _ _)
    | exact Leaves.request _ _ _ _ (serveRecipeWrite_serves _ _ _)
    | exact Leaves.request _ _ _ _ (serveRecipeRead_serves _)
    | exact Leaves.request _ _ _ _ (serveDevSet_serves _ _)
    | exact Leaves.request _ _ _ _ (serveSlotMode_serves _)
    | exact Leaves.request _ _ _ _ (serveMediaSet_serves _)
    | exact Leaves.request _ _ _ _ (serveCardSpace_serves _ _ _)
    | exact Leaves.request _ _ _ _ (serveCardSpaceClear_serves _)
    | exact Leaves.request _ _ _ _ (serveSlotReset_serves _)
    | exact Leaves.request _ _ _ _ (serveSlotDrop_serves _)
    | exact Leaves.request _ _ _ _ (serveSlotFull_serves _)
    | exact Leaves.request _ _ _ _ (servePlacement_serves _)
    | exact Leaves.request _ _ _ _ serveMediaStatus_serves
    | exact Leaves.request _ _ _ _ serveSendNext_serves
    | exact Leaves.request _ _ _ _ (serveSendDone_serves _)
    | exact Leaves.request _ _ _ _ (serveSendFail_serves _)
    | exact Leaves.request _ _ _ _ serveTransferNext_serves
    | exact Leaves.request _ _ _ _ (serveTransferDone_serves _)
    | exact Leaves.request _ _ _ _ (serveTransferFail_serves _)
    | exact Leaves.request _ _ _ _ (serveSendSet_serves _)
    | exact Leaves.request _ _ _ _ serveTetherQueueClear_serves
    | exact Leaves.request _ _ _ _ (servePortSet_serves _)
    | exact Leaves.request _ _ _ _ (servePortReset_serves _)
    | exact Leaves.request _ _ _ _ serveStandby_serves
    | exact Leaves.request _ _ _ _ serveResume_serves
    | exact Leaves.request _ _ _ _ (serveWakeSet_serves _)

/-- A transfer past the end of the buffer stops the machine. -/
theorem exec_transferPast (s : State) (t : Transfer) (h : s.arb.current = some t) (hp : Config.bufferBytes < t.addr + t.length) :
   exec .dramTransferDone s = .fault (.noSuchAddress t.addr) := by
  show execDramTransferDone s = _
  unfold execDramTransferDone
  rw [h]
  simp only
  rw [if_neg (by omega)]

/-- What a next state keeps. -/
theorem exec_outer (i : Instr) (s t : State) (h : exec i s = .next t) : Outer (keepsOf i) s t := by
  have hf : i = .dramTransferDone → ∀ t, s.arb.current = some t → t.addr + t.length ≤ Config.bufferBytes := by
    intro hi x hx
    apply Nat.le_of_not_lt
    intro hl
    subst hi
    rw [exec_transferPast s x hx hl] at h
    cases h
  obtain ⟨u, e, o⟩ := exec_leaves i s hf
  rw [e] at h
  cases h
  exact o

end Sys2Proof.Machine
end

