-- ==== Sys2Proof/Tests/Slice0.lean ====
section
/-! SUPPORT. Tests: the checks of WellFormed refuse ill-formed commands; the manual's worked examples
on the model's functions; and for every statement with hypotheses a state that meets them. -/
set_option Elab.async false
namespace Sys2Proof.Tests
open Sys2Proof Sys2Proof.Machine

/-! ### WellFormed: an ill-formed command for each check, which the check refuses -/

theorem test_ill_shot_number : (Instr.info .body 0 (2 ^ 32)).wellFormed = false := by decide
theorem test_ill_frame_request :
    (Instr.frameReceived .body [] (some (.delete (2 ^ 32)))).wellFormed = false := by decide
theorem test_ill_select_on_tether : (Instr.selectDeasserted .tether []).wellFormed = false := by
  decide
theorem test_ill_notice_delivered_on_tether :
    (Instr.frameDelivered .tether .notice).wellFormed = false := by decide
theorem test_ill_short_header : (Instr.oversizeHeaderReceived .body [1]).wellFormed = false := by
  decide
theorem test_ill_burst_count : (Instr.burstStart .body 0 ⟨256, 1000, 50⟩).wellFormed = false := by
  decide
theorem test_ill_marker_pattern :
    (Instr.markerWrite .body 0
      ⟨some ([], []), none, none, none, none, none⟩).wellFormed = false := by
  decide
theorem test_ill_matrix :
    (Instr.recipeWrite .body 0 2
      ⟨none, none, none, none, none, none, none, some [1], none, none⟩).wellFormed = false := by
  decide
theorem test_ill_link_char :
    (Instr.linkReply [⟨⟨false, false, false⟩, [], ⟨true, true, true⟩, ⟨true, true, true⟩⟩]
      none).wellFormed = false := by decide
theorem test_ill_sensor_row : (Instr.imageRow (.still [])).wellFormed = false := by decide
theorem test_ill_view_row : (Instr.imageRow (.view [])).wellFormed = false := by decide
theorem test_ill_pd_pair : (Instr.pdPair [] []).wellFormed = false := by decide
theorem test_ill_empty_read_burst : (Instr.verifyBurstDone .a []).wellFormed = false := by decide
theorem test_ill_split_sector : (Instr.verifyBurstDone .a [0]).wellFormed = false := by decide
theorem test_ill_card_run :
    (Instr.cardSpace .body 0 (.is .a) 0 (2 ^ 32)).wellFormed = false := by decide
theorem test_well_formed : (Instr.burstStart .body 0 ⟨255, 1000, 50⟩).wellFormed = true := by decide

/-! ### The manual's worked examples -/

/-- 1.8, steps 1 to 3: each allocation takes the low end of the one run. -/
theorem test_buffer_example_takes :
    allocate 163 [⟨0, 8192⟩] = .done [⟨0, 163⟩] [⟨163, 8029⟩] ∧
      allocate 18 [⟨163, 8029⟩] = .done [⟨163, 18⟩] [⟨181, 8011⟩] := by decide

/-- 1.8, steps 9 to 11: what is freed joins its neighbours. -/
theorem test_buffer_example_frees :
    insertRuns [⟨543, 7649⟩] [⟨0, 163⟩] = [⟨0, 163⟩, ⟨543, 7649⟩] ∧
      insertRuns [⟨0, 163⟩, ⟨543, 7649⟩] [⟨163, 18⟩] = [⟨0, 181⟩, ⟨543, 7649⟩] ∧
      insertRuns [⟨0, 181⟩, ⟨543, 7649⟩] [⟨181, 163⟩] = [⟨0, 344⟩, ⟨543, 7649⟩] := by decide

/-- The free-run list of 1.9. -/
def cutUp : List Run :=
  [⟨1000, 25⟩, ⟨1188, 25⟩, ⟨2400, 25⟩, ⟨3100, 18⟩, ⟨4000, 25⟩, ⟨5200, 5⟩, ⟨6100, 25⟩, ⟨7000, 25⟩]

/-- 1.9: the fragmented buffer, the free that joins three runs, and the allocations after it. -/
theorem test_fragmented_example :
    allocate 163 cutUp = .fragmented ∧
      insertRuns cutUp [⟨1025, 163⟩] =
        [⟨1000, 213⟩, ⟨2400, 25⟩, ⟨3100, 18⟩, ⟨4000, 25⟩, ⟨5200, 5⟩, ⟨6100, 25⟩, ⟨7000, 25⟩] ∧
      allocate 70
        [⟨1168, 45⟩, ⟨2400, 25⟩, ⟨3100, 18⟩, ⟨4000, 25⟩, ⟨5200, 5⟩, ⟨6100, 25⟩, ⟨7000, 25⟩] =
        .done [⟨1168, 45⟩, ⟨2400, 25⟩]
          [⟨3100, 18⟩, ⟨4000, 25⟩, ⟨5200, 5⟩, ⟨6100, 25⟩, ⟨7000, 25⟩] := by decide

/-- The curve of 3.7. -/
def curve37 : List (Int × Nat) :=
  [(-4, 2600), (-3, 2200), (-2, 1800), (-1, 1400), (0, 900), (1, 300), (2, 500), (3, 1100), (4, 1700)]

/-- 3.7, FULL mode. -/
theorem test_correlation_example :
    curveResult ⟨1, 32, 4, .full, 4096⟩ curve37 =
      some ⟨9, [(1, 300), (2, 500), (0, 900), (3, 1100)], 1388, 1, some 4, 20, 1088⟩ := by decide

/-- 3.7, COARSE mode: the seven shifts evaluated. -/
theorem test_correlation_coarse :
    curveResult ⟨1, 32, 4, .coarse, 4096⟩
        (curve37.filter fun p => p.1 != -3 && p.1 != -1) =
      some ⟨7, [(1, 300), (2, 500), (0, 900), (3, 1100)], 1271, 1, some 4, 20, 971⟩ := by decide

/-- 3.2: the bands and spans of areas 67, 134 and 0 under the setup after reset. -/
theorem test_area_examples :
    bandStart 67 = 162 ∧ spanStart ⟨2, 128, 16, .full, 4096⟩ 67 = 675 ∧ bandStart 134 = 310 ∧
      spanStart ⟨2, 128, 16, .full, 4096⟩ 134 = 1352 ∧
      spanStart ⟨2, 128, 16, .full, 4096⟩ 0 = 0 := by decide

/-- 4.7: the steps of phase 80, the prediction after frames 2 and 3, and its limit by Vlim. -/
theorem test_tracking_example :
    phaseSteps 80 320 = 100 ∧ predict [(1001000, 3100)] 1051000 600 = some (3100, false) ∧
      predict [(1001000, 3100), (1051000, 3179)] 1101000 600 = some (3258, true) ∧
      predict [(1001000, 3100), (1051000, 3179), (1101000, 3287)] 1151000 600 =
        some (3380, true) ∧
      predict [(1001000, 3100), (1051000, 3179), (1101000, 3287)] 1151000 60 =
        some (3347, true) := by decide

/-- R82: a receding subject, 3200 − 50.5, is truncated toward zero as a whole. -/
theorem test_prediction_truncates :
    predict [(0, 3301), (100, 3200)] 150 600 = some (3149, true) := by decide

/-- The snapshot of 6.7 and 6.8. -/
def recipe67 : Recipe :=
  { blackR := 512, blackG1 := 512, blackG2 := 512, blackB := 512, gainR := 2048, gainG := 1024,
    gainB := 1638, matrix := [1536, -384, -128, -256, 1408, -128, -64, -448, 1536], tone := 0,
    scale := .s2 }

/-- 6.7: one quad at scale 2. -/
theorem test_pixel_example :
    developCell recipe67
      ((((((List.replicate 65 0).set 5 88).set 6 98).set 19 170).set 20 175).set 21 180 |>.set 22 185)
      (CellSums.addQuad ⟨0, 0, 0, 0⟩ recipe67 3000 5200 5210 2100) =
      ([180, 171, 94], 0) := by decide +kernel

/-- 6.8: a clipped highlight and a negative matrix sum. -/
theorem test_pixel_limits :
    developCell recipe67 toneReset
        (CellSums.addQuad ⟨0, 0, 0, 0⟩ recipe67 16383 16383 16383 16383) = ([255, 245, 255], 4) ∧
      developCell recipe67 toneReset
        (CellSums.addQuad ⟨0, 0, 0, 0⟩ recipe67 500 8512 8512 300) = ([0, 172, 0], 2) := by
  decide +kernel

/-- 7.10: placements of a raw and of a proof at scale 4. -/
theorem test_placement_example :
    sectorsFor Config.rawBytes = 83184 ∧ sectorsFor Scale.s4.bytes = 8913 ∧
      planRuns [⟨40960, 1000000⟩] 83184 = ([⟨40960, 83184⟩], [⟨124144, 916816⟩]) ∧
      planRuns [⟨2048, 200000⟩, ⟨500000, 300000⟩] 83184 =
        ([⟨2048, 83184⟩], [⟨85232, 116816⟩, ⟨500000, 300000⟩]) := by decide

/-- R148: the check value of the CRC. -/
theorem test_crc_check_value :
    crc16 [0x31, 0x32, 0x33, 0x34, 0x35, 0x36, 0x37, 0x38, 0x39] = 0x29B1#16 := by decide +kernel

/-- R107: the seven bytes of a group of four samples. -/
theorem test_packed_group :
    packGroup 0x3FFF 0 0x3FFF 0 = [0xFF, 0x3F, 0x00, 0xF0, 0xFF, 0x03, 0x00] := by decide

/-- R69: a byte of the lens link, with one wrong sample in three. -/
theorem test_link_char :
    let bit := fun b : Bool => (⟨b, b, !b⟩ : Triple)
    let c : LinkChar :=
      ⟨bit false, [true, false, true, false, false, false, false, false].map bit, bit true, bit true⟩
    charValue c = 5 ∧ charStarted c = true ∧ charParityError c = false ∧
      charFramingError c = false := by decide

/-! ### States for the statements: each one `State.reset` but for the fields named -/

/-- A request is taken on a port, as a test that can be evaluated. -/
def accepts (s : State) (p : Port) (k : RequestKind) : Bool :=
  s.hears p && decide ((s.port p).replies.length < 5) && (s.port p).request.isNone &&
    noPlace (s.port p).replies && permitted k p s.prt.remoteDelete

theorem accepts_of {s : State} {p : Port} {k : RequestKind} (h : accepts s p k = true) :
    Accepts s p k := by
  simp only [accepts, Bool.and_eq_true, decide_eq_true_eq, Option.isNone_iff_eq_none] at h
  exact ⟨h.1.1.1.1, h.1.1.1.2, h.1.1.2, h.1.2, h.2⟩

/-- Some record's request is taken on the body port after reset. -/
theorem test_accepts_after_reset : Accepts State.reset .body .burstStart := accepts_of (by decide)

def base : State := State.reset
def withRsq (f : Rsq → Rsq) : State := { base with rsq := f base.rsq }
def seqIn (q : SeqState) (b : Bool) : State :=
  withRsq fun r => { r with state := q, burst := { r.burst with active := b } }
def powered (q : Power) : State := { base with pwc := { base.pwc with power := q } }
def linkIn (q : LinkState) : State := { base with lnk := { base.lnk with state := q } }

/-- A still frame of shot 1 at a place of its program. -/
def still (at_ : ProgramAt) : Frame := ⟨.still, 1, 0, 0, 0, 0, 0, 0, at_, 0, 0⟩
/-- A view frame at a place of its program. -/
def viewing (at_ : ProgramAt) : Frame := ⟨.view, 0, 0, 0, 0, 0, 0, 30, at_, 0, 0⟩

def frameIn (q : SeqState) (f : Frame) : State := withRsq fun r =>
  { r with state := q, frame := some f, timeBase := 60000 }

/-- A proof version of 18 blocks, CURRENT. -/
def proof1 : Version :=
  ⟨1, 0, .s4, 4563216, [⟨163, 18⟩], some 0, .current, ⟨false, false, false⟩, none⟩

/-- Shot 1, HELD with its raw and a proof. -/
def shot1 : Record :=
  { newRecord 1 { base.rsq.burst with id := 1 } [⟨0, 163⟩] with
    life := .held, raw := ⟨.present, [⟨0, 163⟩], some 0⟩, versions := [proof1], lastVersion := 1 }

def keeping (r : Record) : State :=
  { base with catalog := [r], nextShot := 2, freeRuns := [⟨181, 8011⟩] }
def kept : State := keeping shot1
def exposing1 : Record := { shot1 with life := .exposing, raw := ⟨.filling, [⟨0, 163⟩], none⟩,
                                       versions := [], lastVersion := 0 }
def frameOf (q : SeqState) (f : Frame) : State :=
  { frameIn q f with catalog := [exposing1], nextShot := 2, freeRuns := [⟨163, 8029⟩] }

def handled : State :=
  { kept with prt := { base.prt with body :=
      { PortSt.reset with handles := [some ⟨1, .raw, none, 42590016⟩, none, none, none] } } }
def full4 : State :=
  { kept with prt := { base.prt with body :=
      { PortSt.reset with handles := List.replicate 4 (some ⟨1, .raw, none, 42590016⟩) } } }
def gathered : Gather := ⟨0, 1, .raw, none, 0, 1, [7]⟩
def reading (g : Gather) : State :=
  { handled with prt := { handled.prt with body :=
      { handled.prt.body with request := some ⟨.readPart, 0, .gathering g⟩, replies := [.place] } } }

def relayed (st : RelayEntryState) (failures : Nat) : State :=
  { kept with snq := { base.snq with relay := [⟨1, .normal, st, failures, some 1⟩] } }
def relayReadyNow : State := relayed .ready 0
def tethered (flying : Bool) (failures : Nat) : State :=
  { kept with snq := { base.snq with tether := [⟨1, flying, failures⟩] },
              prt := { base.prt with attached := true } }

def inSlot (f : SlotSt → SlotSt) : State := { base with med := { base.med with a := f base.med.a } }
def slotIn (q : SlotState) : State := inSlot fun x => { x with state := q }

def pendingRaw : Record :=
  { shot1 with copies := { Copies.none with aRaw := .pendingFor none } }
def starved : State :=
  { keeping pendingRaw with med := { base.med with a := { base.med.a with state := .starved } } }

def flight1 (ph : FlightPhase) (planned : List Run) (done : Nat) (verify : Bool) : Flight :=
  ⟨1, .raw, none, planned, .short, verify, ph, done, [], .zero⟩
def flying (f : Flight) : State :=
  { keeping { shot1 with copies := { Copies.none with
      aRaw := { Copy.pendingFor none with state := .writing } } } with
    med := { base.med with a := { base.med.a with state := .busy, flight := some f } } }

/-- A job of shot 1: running with so many rows done, or queued. -/
def running1 (rows : Nat) : Job :=
  ⟨1, 1, 0, .body, [.body], false, false, .running, some Recipe.reset, 1, some rows, .clear, 0⟩
def queued1 : Job := ⟨1, 1, 0, .body, [.body], false, false, .queued, none, 0, none, .clear, 0⟩
def developing (rows read written : Nat) : State :=
  { kept with dev := { base.dev with
      queue := [running1 rows], engine := .running, nextJob := 2,
      row := { RowWork.none with read := read, written := written } } }

def transfer (q : Requester) (n : Nat) (live : Bool) : Transfer := ⟨q, 0, n, live⟩
def moving (s : State) (x : Transfer) : State := { s with arb := ⟨some x, .b, .relay⟩ }

/-! ### For every statement with hypotheses, a state and operands that meet them -/

theorem test_queue_empty : base.pending = [] := by decide

/-- FULL_RESET: all four lines deasserted. -/
theorem test_lines_low :
    base.pins.cardA = false ∧ base.pins.cardB = false ∧ base.pins.lens = false ∧
      base.pins.powerLow = false := by decide

/-- OnlyATransferPastTheBufferStops: the transfer that stops the machine, by one byte. -/
theorem test_transfer_past_the_end :
    exec .dramTransferDone (moving base ⟨.rsq, 2147483647, 2, true⟩) =
      .fault (.noSuchAddress 2147483647) := rfl

/-- The steps of the invariants: a step from a state that has them. -/
theorem test_invariant_steps :
    step kept = .next kept.tick ∧ CatalogOk kept ∧ DramOk kept ∧ RepliesOk kept := by
  refine ⟨rfl, ⟨by decide, by decide, by decide⟩, rfl, fun p => ?_⟩
  cases p <;> exact ⟨rfl, fun _ h => by cases h⟩

theorem test_capacities : Caps kept :=
  ⟨by decide, by decide, by decide, by decide, rfl, by decide, by decide, rfl, rfl, by decide,
    by decide, by decide, by decide, ⟨by decide, by decide⟩, ⟨by decide, by decide⟩,
    ⟨by decide, by decide, rfl⟩, ⟨by decide, by decide, rfl⟩, ⟨by decide, by decide, rfl⟩⟩

/-- DramFrame: the three clauses. -/
theorem test_dram_frame :
    exec .noticeAcknowledged base = .next base ∧ base.arb.current = none ∧
      (∃ t, exec .dramTransferDone base = .next t) ∧
      (moving base (transfer .devWrite 1 false)).arb.current = some (transfer .devWrite 1 false) ∧
      (∃ t, exec .dramTransferDone (moving base (transfer .devWrite 1 false)) = .next t) :=
  ⟨rfl, rfl, ⟨_, rfl⟩, rfl, ⟨_, rfl⟩⟩

theorem test_settings_frame :
    Instr.sets .noticeAcknowledged = false ∧ exec .noticeAcknowledged base = .next base := ⟨rfl, rfl⟩

def asking : State := reading gathered
def crowded : State :=
  { base with prt := { base.prt with body := { PortSt.reset with
      replies := List.replicate 5 (.formed ⟨.received 0, 0, .busy, .empty⟩ false) } } }

/-- RequestsTurnedAway: a detached tether, a full list, a request outstanding, a request denied. -/
theorem test_turned_away :
    base.hears .tether = false ∧ 5 ≤ (crowded.port .body).replies.length ∧
      asking.hears .body = true ∧ (asking.port .body).replies.length < 5 ∧
      (asking.port .body).request.isSome = true ∧ base.hears .relay = true ∧
      (base.port .relay).replies.length < 5 ∧ (base.port .relay).request = none ∧
      permitted .delete .relay base.prt.remoteDelete = false := by decide

/-- A request frame of tag 9 without payload. -/
def frame9 : List Byte := frameBytes 1 5 9 0 []

/-- FramesReceived: a good frame, a bad one, a part of one, an oversize header. -/
theorem test_frames :
    base.hears .body = true ∧ GoodFrame (dropFill .body (0 :: frame9)) ∧
      BadFrame (dropFill .body (0 :: frame9.set 2 8)) ∧
      partFrame (dropFill .body (frame9.take 7)) = true ∧
      partFrame (dropFill .body frame9) = false ∧
      (dropFill .body [1, 5, 9, 0, 0x11, 0x40, 0, 0]).length = 8 ∧
      oversize (dropFill .body [1, 5, 9, 0, 0x11, 0x40, 0, 0]) = true ∧
      oversize (dropFill .body [1, 5, 9, 0, 0x10, 0x40, 0, 0]) = false := by
  refine ⟨by decide, ⟨by decide +kernel, by decide +kernel, by decide +kernel, by decide +kernel⟩,
    ⟨by decide +kernel, by decide +kernel, by decide +kernel, by decide +kernel⟩, ?_⟩
  decide +kernel

/-- NoticesAndDelivery: a formed reply at the head, a place at the head, an empty list. -/
theorem test_delivery :
    (crowded.port .body).replies =
        .formed ⟨.received 0, 0, .busy, .empty⟩ false ::
          List.replicate 4 (.formed ⟨.received 0, 0, .busy, .empty⟩ false) ∧
      (asking.port .body).replies = .place :: [] ∧ (base.port .body).replies = [] := by decide

/-- NoticesAndDelivery: a notice merged, dropped, appended, and discarded. -/
theorem test_notices :
    Notice.merges (.transferReady 1) [.transferReady 1] = true ∧
      Notice.merges (.wakeDone .request) (List.replicate 16 (.wakeDone .request)) = false ∧
      16 ≤ (List.replicate 16 (Notice.wakeDone .request)).length ∧
      Notice.merges (.wakeDone .request) (List.replicate 15 (.wakeDone .request)) = false ∧
      (List.replicate 15 (Notice.wakeDone .request)).length < 16 ∧
      base.prt.attached = false := by decide

/-- AllocationAndFree. -/
theorem test_allocation_cases :
    runsWf 0 cutUp = true ∧ allocate 174 cutUp = .space ∧ allocate 163 cutUp = .fragmented ∧
      (∃ es left, allocate 150 cutUp = .done es left) ∧
      (∀ r, r ∈ cutUp → overlaps r ⟨1025, 163⟩ = false) :=
  ⟨by decide, by decide, by decide, ⟨_, _, rfl⟩, by decide⟩

theorem test_frame_payload : ([] : List Byte).length ≤ 16400 := by decide
theorem test_packed_length : ([1, 2, 3, 4] : List Sample).length % 4 = 0 := by decide
theorem test_area_bounds : (134 ≤ 134 ∧ 32 ≤ 32 ∧ 256 ≤ 256 ∧ 1 ≤ 1 ∧ 31 ≤ 31) := by decide

/-- BestShift and PlannedPlacement. -/
theorem test_best_and_plan :
    curve37 ≠ [] ∧
      fits [⟨0, 2048⟩] 2048 = true ∧ fits [⟨0, 2048⟩] 0 = true := by decide

/-! Chapter 2 -/

theorem test_burst_start_hyps :
    accepts (seqIn .idle false) .tether .burstStart = false ∧
      accepts (seqIn .idle false) .body .burstStart = true ∧
      (seqIn .idle false).pwc.power = .active ∧ (seqIn .idle false).rsq.burst.active = false ∧
      (seqIn .idle false).rsq.state = .idle ∧ accepts (seqIn .view false) .body .burstStart = true ∧
      (seqIn .view false).rsq.state = .view := by decide

theorem test_wake_request_hyps :
    accepts (powered .saving) .body .burstStart = true ∧ (powered .saving).pwc.power = .saving ∧
      accepts (powered .waking) .body .focusStart = true ∧ (powered .waking).pwc.power = .waking ∧
      accepts (powered .standby) .body .burstStart = true ∧
      (powered .standby).pwc.power = .standby ∧ (powered .standby).pwc.settings.request = true ∧
      ({ (powered .standby).pwc.settings with request := false } : WakeSettings).request =
        false := by decide

theorem test_burst_stop_hyps :
    accepts (seqIn .idle true) .body .burstStop = true ∧ (seqIn .idle true).pwc.power ≠ .saving ∧
      base.rsq.burst.active = false ∧ (seqIn .idle true).rsq.burst.active = true ∧
      accepts (seqIn (.stalled .space) true) .body .burstStop = true ∧
      (seqIn (.stalled .space) true).rsq.state = .stalled .space ∧
      accepts (seqIn .expose true) .body .burstStop = true ∧
      (seqIn .expose true).rsq.state = .expose := by decide

/-- Fields of PROGRAM_WRITE at the ends of their ranges, and one past them. -/
def fields31 : ProgramFields := ⟨31, [(.is .image, 4024)], some 31, none⟩
def fields32 : ProgramFields := ⟨32, [(.is .image, 1)], none, none⟩
/-- A program that passes R29 for both starts. -/
def program1 : List Entry :=
  [⟨.pd, 2⟩, ⟨.image, 4024⟩, ⟨.stop, 0⟩, ⟨.image, 100⟩, ⟨.stop, 0⟩] ++ List.replicate 27 ⟨.stop, 0⟩
def programmed : State := withRsq fun r => { r with program := program1, viewStart := 3 }

theorem test_program_hyps :
    accepts base .body .programWrite = true ∧ base.pwc.power ≠ .saving ∧ base.rsq.state = .hold ∧
      programBad fields31 = none ∧ programBad fields32 = some 1 ∧
      accepts (seqIn .idle false) .body .programWrite = true ∧
      (seqIn .idle false).rsq.state ≠ .hold ∧ accepts base .body .programRead = true ∧
      accepts programmed .body .seqRun = true ∧ programmed.rsq.state = .hold ∧
      stillPasses programmed.rsq.program programmed.rsq.stillStart = true ∧
      viewPasses programmed.rsq.program programmed.rsq.viewStart = true := by decide

theorem test_seq_hold_hyps :
    accepts (seqIn .off false) .body .seqHold = true ∧ (seqIn .off false).rsq.state = .off ∧
      accepts base .body .seqHold = true ∧ base.rsq.state = .hold ∧
      accepts (seqIn .view false) .body .seqHold = true ∧
      accepts (frameOf .expose (still .exposing)) .body .seqHold = true ∧
      (frameOf .expose (still .exposing)).rsq.frame = some (still .exposing) ∧
      (frameOf .expose (still .exposing)).rsq.state = .expose := by decide

/-- CAPTURE_SET with focus priority on and off, and with nothing given. -/
def captureOf (b : Option (Choice Bool)) : CaptureFields := ⟨none, some 60, some 0, b, none, none⟩

theorem test_capture_set_hyps :
    accepts base .body .syncMode = true ∧ base.rsq.burst.active = false ∧
      accepts (seqIn .idle true) .body .syncMode = true ∧
      (seqIn .idle true).rsq.burst.active = true ∧
      SyncMode.slave ≠ (seqIn .idle true).rsq.syncMode ∧
      accepts base .body .captureSet = true ∧ captureBad (captureOf none) = none ∧
      base.rsq.state ≠ .focusWait ∧
      accepts (frameOf .focusWait (still .exposing)) .body .captureSet = true ∧
      captureBad (captureOf (some (.is true))) = none ∧
      (captureSettings (frameOf .focusWait (still .exposing)).rsq.settings
        (captureOf (some (.is true)))).priority = true ∧
      captureBad (captureOf (some (.is false))) = none ∧
      (frameOf .focusWait (still .exposing)).rsq.state = .focusWait ∧
      (frameOf .focusWait (still .exposing)).rsq.frame.isSome = true ∧
      (captureSettings (frameOf .focusWait (still .exposing)).rsq.settings
        (captureOf (some (.is false)))).priority = false ∧
      accepts base .body .watermark = true := by decide

/-! Chapters 3 and 4 -/

theorem test_focus_hyps :
    accepts base .body .focusStart = true ∧ base.pwc.power = .active ∧
      (some (.is FocusMode.manual) : Option (Choice FocusMode)) ≠ some .other ∧
      accepts (linkIn .lost) .body .focusStart = true ∧ (linkIn .lost).lnk.state = .lost ∧
      accepts base .body .focusStop = true ∧ accepts base .body .focusArea = true ∧
      134 < 135 ∧ 134 ≤ 134 ∧ base.fdr.area = 67 ∧ base.fdr.mode ≠ .continuous ∧
      accepts base .body .focusSetup = true ∧ accepts base .body .focusResult = true ∧
      accepts base .body .markerWrite = true ∧
      setupBad ⟨some 8, some 256, some 31, none, some 16777215⟩ = none ∧
      setupBad ⟨some 1, some 32, some 1, none, some 0⟩ = none ∧
      setupBad ⟨none, some 31, none, none, none⟩ = some 2 ∧
      setupBad ⟨none, none, some 32, none, none⟩ = some 3 := by decide

/-- FocusSettings: a session in MANUAL mode, and one in CONTINUOUS mode with a new area. -/
theorem test_area_modes :
    ({ base.fdr with mode := .manual } : Fdr).mode = .manual ∧
      ({ base.fdr with mode := .continuous } : Fdr).mode = .continuous ∧ 0 ≠ base.fdr.area := by
  decide

/-! Chapters 1 and 9 -/

theorem test_report_hyps :
    accepts base .relay .status = true ∧ accepts base .relay .listRecords = true ∧
      accepts kept .relay .info = true ∧ kept.namedRecord 1 = some shot1 ∧
      kept.namedRecord 2 = none ∧ accepts kept .body .placement = true ∧
      kept.findRecord 1 = some shot1 ∧ kept.findRecord 2 = none ∧
      accepts base .body .mediaStatus = true := by decide

theorem test_open_hyps :
    accepts kept .body .openPart = true ∧ kept.namedRecord 1 = some shot1 ∧
      shot1.life ≠ .exposing ∧ shot1.raw.state = .present ∧
      freeHandle 0 (kept.port .body).handles = some 0 ∧ shot1.current = some proof1 ∧
      accepts full4 .body .openPart = true ∧ full4.namedRecord 1 = some shot1 ∧
      freeHandle 0 (full4.port .body).handles = none ∧
      ({ shot1.raw with state := .released } : RawPart).state ≠ .present := by decide

theorem test_handle_hyps :
    accepts handled .body .readPart = true ∧
      handled.handle .body 0 = some ⟨1, .raw, none, 42590016⟩ ∧ 1 ≤ 16384 ∧ 42590015 < 42590016 ∧
      (reading gathered |>.port .body).request = some ⟨.readPart, 0, .gathering gathered⟩ ∧
      gathered.length ≤ gathered.got.length ∧ accepts handled .body .closeHandle = true ∧
      handled.handle .body 3 = none ∧ 3 < 4 := by decide

theorem test_tag_hyps :
    accepts kept .body .tag = true ∧ kept.namedRecord 1 = some shot1 ∧ kept.relayEntry 1 = none ∧
      shot1.life = .held ∧ shot1.raw.state = .present ∧ kept.snq.relay.length < 32 ∧
      accepts relayReadyNow .body .tag = true ∧
      relayReadyNow.relayEntry 1 = some ⟨1, .normal, .ready, 0, some 1⟩ ∧
      (relayed .inFlight 0).relayEntry 1 = some ⟨1, .normal, .inFlight, 0, some 1⟩ := by decide

def protected1 : Record := { shot1 with tags := ⟨true, false, false, 0⟩ }

theorem test_delete_hyps :
    accepts kept .body .delete = true ∧ shot1.tags.protect = false ∧ kept.openOnShot 1 = false ∧
      shot1.anyInFlight = false ∧ accepts (keeping exposing1) .body .delete = true ∧
      (keeping exposing1).namedRecord 1 = some exposing1 ∧ exposing1.life = .exposing ∧
      accepts (keeping protected1) .body .delete = true ∧
      (keeping protected1).namedRecord 1 = some protected1 ∧ protected1.tags.protect = true ∧
      accepts handled .body .delete = true ∧ handled.openOnShot 1 = true := by decide

/-! Chapters 5 to 8 -/

theorem test_develop_hyps :
    accepts kept .body .develop = true ∧ kept.pwc.power ≠ .saving ∧ 3 ≤ 3 ∧
      kept.queuedJob 1 3 = none ∧ kept.dev.queue.length < 8 ∧ shot1.raw.state ≠ .released ∧
      ({ kept with dev := { kept.dev with queue := [queued1] } } : State).queuedJob 1 0 =
        some queued1 ∧
      8 ≤ ({ kept with dev := { kept.dev with
        queue := List.replicate 8 queued1 } } : State).dev.queue.length ∧
      ({ kept with dev := { kept.dev with
        queue := List.replicate 8 queued1 } } : State).queuedJob 1 1 = none ∧
      accepts kept .body .devStatus = true ∧
      ((developing 0 0 0).dev.queue.find? fun j => j.number == 1) = some (running1 0) ∧
      (kept.dev.queue.find? fun j => j.number == 1) = none ∧
      (([abortedResult queued1 .save] : List JobResult).find? fun r => r.number == 1) =
        some (abortedResult queued1 .save) := by decide

theorem test_development_setting_hyps :
    accepts base .body .toneRead = true ∧ accepts base .body .toneWrite = true ∧
      toneBad 3 64 [255] = none ∧ toneBad 0 0 (List.replicate 65 0) = none ∧
      accepts base .body .recipeWrite = true ∧
      recipeBad 3 ⟨some 4095, none, none, none, some 16383, none, none, none, some 3, some 8⟩ =
        none ∧
      accepts { base with prt := { base.prt with attached := true } } .tether .recipeWrite = true ∧
      accepts base .body .recipeRead = true ∧ accepts base .body .devSet = true := by decide

theorem test_card_setting_hyps :
    accepts base .body .slotMode = true ∧ base.anyCopyNeeds = false ∧
      accepts starved .body .slotMode = true ∧ starved.anyCopyNeeds = true ∧
      accepts base .body .mediaSet = true ∧ accepts (slotIn .ready) .body .slotFull = true ∧
      ((slotIn .ready).slot .a).state = .ready ∧ (slotIn .ready).med.mode ≠ .overflow ∧
      ((slotIn .starved).slot .a).state = .starved ∧
      ({ (slotIn .starved).med with mode := .overflow } : Med).mode = .overflow ∧
      accepts (slotIn .busy) .body .slotFull = true ∧ ((slotIn .busy).slot .a).state = .busy := by
  decide

/-- CARD_SPACE: a list of 15 runs takes one more; the smallest run; the last sector. -/
theorem test_card_space_hyps :
    accepts starved .body .cardSpace = true ∧ starved.badRun .a ⟨0, 2048⟩ = false ∧
      starved.badRun .a ⟨0, 2047⟩ = true ∧ starved.badRun .a ⟨4294965248, 2048⟩ = false ∧
      starved.badRun .a ⟨4294965249, 2048⟩ = true ∧ (starved.slot .a).space.length < 16 ∧
      starved.slotWork .a = [(1, .raw)] ∧ starved.findRecord 1 = some pendingRaw ∧
      0 < pendingRaw.partBytes .raw none ∧ fits [⟨0, 83184⟩] (sectorsFor Config.rawBytes) = true ∧
      accepts (slotIn .ready) .body .cardSpace = true ∧ (slotIn .ready).slotWork .a = [] ∧
      accepts (slotIn .fault) .body .cardSpace = true ∧ ((slotIn .fault).slot .a).state = .fault ∧
      accepts starved .body .cardSpaceClear = true ∧ (starved.slot .a).state ≠ .busy ∧
      accepts (slotIn .busy) .body .cardSpaceClear = true ∧
      accepts starved .body .slotDrop = true ∧ starved.nextShot < 2 ^ 32 := by decide

def resetting (since : Time) : State :=
  { inSlot fun x => { x with state := .ready, reinit := some ⟨0, .short, true⟩ } with
    rsq := { base.rsq with timeBase := since } }

theorem test_slot_reset_hyps :
    accepts (slotIn .fault) .body .slotReset = true ∧ ((slotIn .fault).slot .a).state ≠ .busy ∧
      ((slotIn .fault).slot .a).state ≠ .absent ∧
      ((resetting 250000).slot .a).reinit = some ⟨0, .short, true⟩ ∧
      ((resetting 250000).rsq.timeBase - 0).toNat ≤ 250000 ∧
      250000 < ((resetting 250001).rsq.timeBase - 0).toNat ∧
      250000 ≤ ((resetting 250000).rsq.timeBase - 0).toNat := by decide

/-- A machine with two records on the relay link. -/
def relayFull : State :=
  let relay := List.replicate 2 (⟨1, .normal, .inFlight, 0, some 1⟩ : RelayEntry)
  { kept with snq := { kept.snq with relay := relay } }

/-- A machine with two records on the tether link. -/
def tetherFull : State :=
  let tether := List.replicate 2 (⟨1, true, 0⟩ : TetherEntry)
  { kept with snq := { kept.snq with tether := tether } }

theorem test_relay_hyps :
    accepts relayReadyNow .relay .sendNext = true ∧ relayReadyNow.relayInFlight < 2 ∧
      relayReadyNow.nextRelay = some ⟨1, .normal, .ready, 0, some 1⟩ ∧
      relayReadyNow.findRecord 1 = some shot1 ∧ shot1.current = some proof1 ∧
      accepts kept .relay .sendNext = true ∧ kept.nextRelay = none ∧
      2 ≤ relayFull.relayInFlight ∧
      accepts (relayed .inFlight 1) .relay .sendFail = true ∧
      (relayed .inFlight 1).relayEntry 1 = some ⟨1, .normal, .inFlight, 1, some 1⟩ ∧
      (relayed .inFlight 2).relayEntry 1 = some ⟨1, .normal, .inFlight, 2, some 1⟩ ∧
      ((relayed .inFlight 1).findRecord 1).isSome = true ∧
      accepts kept .relay .sendDone = true ∧ kept.relayEntry 1 = none ∧
      RelayEntryState.ready ≠ .inFlight := by decide

theorem test_tether_hyps :
    accepts (tethered false 0) .tether .transferNext = true ∧ (tethered false 0).tetherInFlight < 2 ∧
      ((tethered false 0).snq.tether.find? fun e => !e.inFlight) = some ⟨1, false, 0⟩ ∧
      2 ≤ tetherFull.tetherInFlight ∧
      accepts (tethered true 1) .tether .transferDone = true ∧
      (tethered true 1).tetherEntry 1 = some ⟨1, true, 1⟩ ∧
      accepts (tethered true 2) .tether .transferFail = true ∧
      (tethered true 2).tetherEntry 1 = some ⟨1, true, 2⟩ ∧
      accepts (tethered true 1) .body .sendSet = true ∧ (tethered true 1).snq.policy = .hold ∧
      ({ base.snq with policy := .loose } : Snq).policy = .loose ∧
      accepts (tethered true 1) .body .tetherQueueClear = true := by decide

/-! Ports, power and lines -/

theorem test_port_hyps :
    accepts base .body .portSet = true ∧ accepts base .body .wakeSet = true ∧
      accepts base .body .portReset = true ∧ Port.tether ≠ Port.body ∧
      base.prt.attached = false ∧ (tethered false 0).prt.attached = true := by decide

def lowDone (low : Bool) (from_ : Power) : State :=
  { base with pwc := { base.pwc with power := .saving, done := true, savedFrom := from_ },
              pins := { base.pins with powerLow := low } }

theorem test_standby_hyps :
    accepts base .body .standby = true ∧ base.pwc.power = .active ∧
      base.rsq.burst.active = false ∧ accepts (seqIn .idle true) .body .standby = true ∧
      (seqIn .idle true).rsq.burst.active = true ∧ (seqIn .idle true).pwc.power = .active ∧
      accepts (powered .standby) .body .standby = true ∧
      accepts (powered .waking) .body .standby = true ∧
      accepts (powered .saving) .body .standby = true ∧
      accepts (lowDone false .active) .body .resume = true ∧
      (lowDone false .active).pwc.power = .saving ∧ (lowDone false .active).pwc.done = true ∧
      (lowDone false .active).pins.powerLow = false ∧
      (lowDone false .active).pwc.savedFrom = .active ∧
      (lowDone false .standby).pwc.savedFrom ≠ .active ∧
      (lowDone true .active).pins.powerLow = true ∧ accepts base .body .resume = true := by decide

def wakingAt (t : Time) : State :=
  { base with pwc := { base.pwc with power := .waking, wake := some ⟨.request, 0, 5⟩ },
              rsq := { base.rsq with timeBase := t } }

theorem test_power_line_hyps :
    base.pins.powerLow = false ∧ base.pwc.power ≠ .saving ∧ base.rsq.state = .hold ∧
      (powered .saving).pwc.power = .saving ∧ (powered .saving).pins.powerLow = false ∧
      (wakingAt 5000).pwc.power = .waking ∧ (wakingAt 5000).pwc.wake = some ⟨.request, 0, 5⟩ ∧
      (wakingAt 5000).pwc.held = [] ∧
      reached ((0 : Time) + BitVec.ofNat 32 (5 * 1000)) (wakingAt 5000).rsq.timeBase = true ∧
      reached ((0 : Time) + BitVec.ofNat 32 (5 * 1000)) (wakingAt 4999).rsq.timeBase = false := by
  decide

def pressed : State := { base with pins := { base.pins with halfPress := true, lens := true } }
def carded : State := { slotIn .ready with pins := { base.pins with cardA := true } }

theorem test_line_hyps :
    base.pins.halfPress = false ∧ base.fdr.state = .off ∧
      (powered .standby).pwc.settings.half = true ∧ pressed.pins.halfPress = true ∧
      base.pins.lens = false ∧ base.lensDeferred = false ∧ base.lnk.state = .absent ∧
      (powered .standby).lensDeferred = true ∧ pressed.pins.lens = true ∧
      base.cardDetect .a = false ∧ (base.slot .a).state = .absent ∧ base.slotWork .a = [] ∧
      carded.cardDetect .a = true := by decide

def triggered (m : SyncMode) (q : SeqState) (b : Bool) : State := withRsq fun r =>
  { r with state := q, burst := { r.burst with active := b }, syncMode := m,
           settings := { r.settings with trigger := true } }

theorem test_trigger_hyps :
    Edge.falling ≠ base.rsq.polarity ∧ (powered .saving).pwc.power = .saving ∧
      Edge.rising = base.rsq.polarity ∧ (triggered .master .idle false).pwc.power = .active ∧
      (triggered .master .idle false).rsq.syncMode = .master ∧
      (triggered .master .idle false).rsq.settings.trigger = true ∧
      (triggered .master .idle false).rsq.burst.active = false ∧
      (triggered .master .idle false).rsq.state = .idle ∧
      (triggered .slave .idle true).rsq.syncMode = .slave ∧
      (triggered .slave .idle true).rsq.burst.active = true ∧
      ({ (powered .standby).pwc.settings with trigger := true } : WakeSettings).trigger = true ∧
      (powered .waking).pwc.power = .waking := by decide

/-- A byte on the link, each bit as three equal samples (R69). -/
def linkByte (b : Byte) : LinkChar :=
  let bit := fun i : Nat => (fun v : Bool => Triple.mk v v v) ((linkBits b).getD i false)
  ⟨bit 0, (List.range 8).map fun i => bit (i + 1), bit 9, bit 10⟩
/-- The characters of a reply: command byte, length, data, and the byte that makes the sum 0. -/
def replyChars (cmd : Byte) (data : List Byte) : List LinkChar :=
  (linkFrame cmd data).map linkByte

def talking (x : Transaction) (errors : Nat) : State :=
  { linkIn .ready with lnk := { base.lnk with
      state := .ready, running := some x, errors := errors, page0 := some ⟨0, 8000, 320, 4, 3⟩ } }

/-- Replies without an error to each kind of transaction, a valid and an invalid descriptor, a reply
with one error, and a poll that is due. -/
theorem test_link_hyps :
    (talking .identPage0 0).lnk.running = some .identPage0 ∧
      linkErrors (replyChars 1 [0, 0, 0x40, 0x1F, 0x40, 1, 4, 3]) (some .ident)
        Transaction.identPage0.command Transaction.identPage0.replyLength = [] ∧
      (talking .identPage0 0).linkSilent = false ∧
      (talking .identPage1 0).lnk.page0 = some ⟨0, 8000, 320, 4, 3⟩ ∧
      (readDescriptor ⟨0, 8000, 320, 4, 3⟩ [50, 0, 0x90, 1, 0, 0, 0x58, 2]).valid = true ∧
      (readDescriptor ⟨0, 8000, 320, 4, 3⟩ [50, 0, 50, 0, 0, 0, 0x58, 2]).valid = false ∧
      linkErrors (replyChars 2 [0, 0, 0]) (some .whereIs) Transaction.pollWhere.command
        Transaction.pollWhere.replyLength = [] ∧
      linkErrors (replyChars 2 [0, 0, 0]) (some .move) Transaction.pollWhere.command
        Transaction.pollWhere.replyLength = [.framing] ∧
      (talking .pollWhere 1).lnk.errors < 2 ∧ 2 ≤ (talking .pollWhere 2).lnk.errors := by
  decide +kernel

def pollDue : State :=
  { linkIn .ready with lnk := { base.lnk with state := .ready, moving := true, timers := [0] },
                       rsq := { base.rsq with timeBase := 2000 } }

theorem test_poll_hyps :
    pollDue.lnk.timers = 0 :: [] ∧ pollDue.lnk.state = .ready ∧ pollDue.lnk.moving = true ∧
      pollDue.linkSilent = false ∧ 2000 ≤ (pollDue.rsq.timeBase - (0 : Time)).toNat ∧
      pollDue.lnk.pendWhere = none ∧ pollDue.lnk.pendMove = none := by decide

/-- A MOVE to 3000 waits behind a MOVE being sent when a session starts. -/
def moveWaits (m : FocusMode) : State :=
  { linkIn .ready with
      fdr := { base.fdr with mode := m, state := .tracking },
      lnk := { base.lnk with state := .ready, running := some (.move ⟨2000, 0⟩ true),
                             pendMove := some ⟨3000, 0⟩, moving := true } }

/-- The waiting MOVE and the one being sent after a FOCUS_START without a mode. -/
def movesAfter (m : FocusMode) : Option (Option Move × Option Transaction) :=
  match exec (.focusStart .body 1 none) (moveWaits m) with
  | .next t => some (t.lnk.pendMove, t.lnk.running)
  | _ => none

theorem test_manual_session_drops_move :
    movesAfter .manual = some (none, some (.move ⟨2000, 0⟩ false)) ∧
      movesAfter .continuous = some (some ⟨3000, 0⟩, some (.move ⟨2000, 0⟩ true)) ∧
      accepts (moveWaits .manual) .body .focusStart = true := by decide

/-! Frames -/

theorem test_frame_due_hyps :
    (seqIn .idle true).rsq.burst.active = true ∧ (seqIn .idle true).rsq.state = .idle ∧
      reached (seqIn .idle true).rsq.burst.due (seqIn .idle true).rsq.timeBase = true ∧
      (seqIn .idle true).rsq.syncMode = .master ∧ (seqIn .idle true).catalogRoom = true ∧
      allocate 163 (seqIn .idle true).freeRuns = .done [⟨0, 163⟩] [⟨163, 8029⟩] ∧
      ({ seqIn .idle true with nextShot := 0 } : State).catalogRoom = false ∧
      allocate 163 ([⟨0, 162⟩] : List Run) = .space ∧ allocate 163 cutUp = .fragmented := by decide

theorem test_exposure_hyps :
    (frameOf .focusWait (still .exposing)).rsq.frame = some (still .exposing) ∧
      reached ((still .exposing).waitStart + 60000)
        (frameOf .focusWait (still .exposing)).rsq.timeBase = true ∧
      (frameOf .expose (still .exposing)).rsq.state = .expose ∧
      reached (still .exposing).midpoint (frameOf .expose (still .exposing)).rsq.timeBase = true ∧
      (still .exposing).kind = .still ∧ (still .exposing).program = .exposing ∧
      (frameOf .expose (still .exposing)).rsq.program[0]? = some ⟨.stop, 0⟩ ∧
      (seqIn .idle false).pwc.power = .active ∧
      ({ (seqIn .idle false).rsq.settings with view := true } : CaptureSettings).view = true ∧
      (seqIn .idle false).rsq.lastView = none := by decide

/-- A frame in an entry of a program. -/
def running (f : Frame) (q : SeqState) : State :=
  { frameOf q f with
    rsq := { (frameOf q f).rsq with program := program1 },
    phc := { base.phc with snapshot := some ⟨base.phc.setup, 67, 675⟩ } }

theorem test_readout_hyps :
    (running (still (.running 0 2 0)) .readout).rsq.program[0]? = some ⟨.pd, 2⟩ ∧
      (running (still (.running 0 2 0)) .readout).entryOver ⟨.pd, 2⟩ 2 0 = true ∧
      (running (still (.running 0 2 0)) .readout).rsq.program[0 + 1]? = some ⟨.image, 4024⟩ ∧
      (running (still (.running 0 1 0)) .readout).phc.snapshot =
        some ⟨base.phc.setup, 67, 675⟩ ∧
      (running (still (.running 1 4023 0)) .readout).rsq.program[1]? = some ⟨.image, 4024⟩ ∧
      4023 < 4024 ∧ (running (still (.running 1 4023 0)) .readout).rsq.fifo.length < 64 ∧
      64 ≤ (List.replicate 64 (⟨0, []⟩ : FifoRow)).length ∧
      (running (viewing (.running 3 99 0)) .view).rsq.program[3]? = some ⟨.image, 100⟩ ∧
      (running (viewing (.running 3 100 0)) .view).entryOver ⟨.image, 100⟩ 100 0 = true ∧
      (running (viewing (.running 3 100 0)) .view).rsq.program[3 + 1]? = some ⟨.stop, 0⟩ ∧
      (frameOf .readout (still .ended)).rsq.state = .readout ∧
      (frameOf .readout (still .ended)).rsq.fifo = [] ∧
      (frameOf .readout (still .ended)).rsq.owed = [] ∧
      (frameOf .readout (still .ended)).findRecord 1 = some exposing1 := by decide

/-! Transfers, rows and cards -/

def fifoed : State :=
  { frameOf .readout (still (.running 1 1 0)) with
    rsq := { (frameOf .readout (still (.running 1 1 0))).rsq with fifo := [⟨0, []⟩] } }

theorem test_transfer_hyps :
    (moving fifoed (transfer .rsq 1 true)).arb.current = some (transfer .rsq 1 true) ∧
      0 + 1 ≤ Config.bufferBytes ∧ fifoed.rowSource = some [] ∧
      fifoed.rsq.rowBytes + 10583 < 10584 ∧ 10584 ≤ fifoed.rsq.rowBytes + 10584 ∧
      ((flying (flight1 .filling [⟨0, 83184⟩] 0 true)).slot .a).flight =
        some (flight1 .filling [⟨0, 83184⟩] 0 true) ∧
      ((flying (flight1 .filling [⟨0, 83184⟩] 0 true)).findRecord 1).isSome = true ∧
      ((reading gathered).port .body).request = some ⟨.readPart, 0, .gathering gathered⟩ ∧
      (developing 0 0 0).runningJob = some (running1 0) ∧
      (running1 0).snapshot = some Recipe.reset ∧
      (developing 0 0 0).findRecord 1 = some shot1 := by decide

theorem test_row_hyps :
    (developing 0 42336 4536).runningJob = some (running1 0) ∧
      (developing 0 42336 4536).dev.engine = .running ∧
      (developing 0 42336 4536).dev.row.read = Recipe.reset.scale.sourceBytes ∧
      (developing 0 42336 4536).dev.row.written = Recipe.reset.scale.rowBytes ∧
      1004 + 1 < Recipe.reset.scale.rows ∧ Recipe.reset.scale.rows ≤ 1005 + 1 ∧
      (developing 0 42336 4536).watermarkSignal = false ∧
      ({ developing 0 42336 4536 with rsq := { base.rsq with
        fifo := List.replicate 32 ⟨0, []⟩ } } : State).watermarkSignal = true := by decide

theorem test_card_burst_hyps :
    ((flying (flight1 (.cardBusy 0) [⟨0, 512⟩] 0 true)).slot .a).flight =
        some (flight1 (.cardBusy 0) [⟨0, 512⟩] 0 true) ∧
      ((flying (flight1 (.cardBusy 0) [⟨0, 512⟩] 0 true)).findRecord 1).isSome = true ∧
      0 + burstLength [⟨0, 512⟩] 0 < totalSectors [⟨0, 512⟩] ∧
      totalSectors [⟨0, 512⟩] ≤ 256 + burstLength [⟨0, 512⟩] 256 ∧
      (flying (flight1 (.cardBusy 0) [⟨0, 512⟩] 256 true)).pwc.power ≠ .saving ∧
      (flight1 (.cardBusy 0) [⟨0, 512⟩] 256 false).verify = false ∧
      ((0 : Time) - 0).toNat < 250000 ∧ 250000 ≤ ((250000 : Time) - 0).toNat ∧
      (flight1 (.verifying 0) [⟨0, 512⟩] 0 true).phase = .verifying 0 ∧
      (List.replicate 512 (0 : Byte)).length = burstLength [⟨0, 1⟩] 0 * 512 ∧
      (flying (flight1 (.verifying 0) [⟨0, 1⟩] 0 true)).expectedSum
        (flight1 (.verifying 0) [⟨0, 1⟩] 0 true) = some 0 ∧
      totalSectors [⟨0, 1⟩] ≤ 0 + burstLength [⟨0, 1⟩] 0 := by decide +kernel

/-! ### Clauses whose states differ from those above by one field: all hypotheses together -/

def sleepyNoRequest : State :=
  { base with pwc := { base.pwc with
      power := .standby, settings := { base.pwc.settings with request := false } } }
def sleepyTrigger : State :=
  { base with pwc := { base.pwc with
      power := .standby, settings := { base.pwc.settings with trigger := true } } }
def focusing (m : FocusMode) : State := { base with fdr := { base.fdr with mode := m } }
def released1 : Record := { shot1 with raw := ⟨.released, [], some 0⟩ }
def overflowing : State := { slotIn .starved with med := { (slotIn .starved).med with
  mode := .overflow } }
def looseTether : State := { base with snq := { base.snq with policy := .loose } }
def logged : State := { kept with dev := { kept.dev with log := [abortedResult queued1 .save] } }
def queued (n : Nat) : State :=
  { kept with dev := { kept.dev with queue := List.replicate n queued1 } }
def viewOn : State := withRsq fun r =>
  { r with state := .idle, settings := { r.settings with view := true } }
def tetherOn : State := { base with prt := { base.prt with attached := true } }

theorem test_request_clauses_together :
    accepts sleepyNoRequest .body .burstStart = true ∧ sleepyNoRequest.pwc.power = .standby ∧
      sleepyNoRequest.pwc.settings.request = false ∧
      accepts (focusing .manual) .body .focusArea = true ∧
      (focusing .manual).fdr.mode = .manual ∧
      accepts (focusing .continuous) .body .focusArea = true ∧
      (focusing .continuous).fdr.mode = .continuous ∧ 134 ≠ (focusing .continuous).fdr.area ∧
      accepts (keeping released1) .body .openPart = true ∧
      (keeping released1).namedRecord 1 = some released1 ∧ released1.life ≠ .exposing ∧
      released1.raw.state ≠ .present ∧ accepts overflowing .body .slotFull = true ∧
      (overflowing.slot .a).state = .starved ∧ overflowing.med.mode = .overflow ∧
      accepts looseTether .body .sendSet = true ∧ looseTether.snq.policy = .loose ∧
      accepts (powered .waking) .body .standby = true ∧
      accepts tetherOn .tether .recipeWrite = true ∧ 1 < 2 := by decide

theorem test_job_clauses_together :
    accepts (queued 1) .body .develop = true ∧ (queued 1).pwc.power ≠ .saving ∧
      (queued 1).namedRecord 1 = some shot1 ∧ shot1.life = .held ∧ shot1.raw.state ≠ .released ∧
      (queued 1).queuedJob 1 0 = some queued1 ∧
      accepts (queued 8) .body .develop = true ∧ (queued 8).namedRecord 1 = some shot1 ∧
      (queued 8).queuedJob 1 1 = none ∧ 8 ≤ (queued 8).dev.queue.length ∧
      accepts logged .body .devStatus = true ∧
      (logged.dev.queue.find? fun j => j.number == 1) = none ∧
      (logged.dev.log.find? fun r => r.number == 1) = some (abortedResult queued1 .save) := by
  decide

theorem test_event_clauses_together :
    Edge.rising = sleepyTrigger.rsq.polarity ∧ sleepyTrigger.pwc.power = .standby ∧
      sleepyTrigger.pwc.settings.trigger = true ∧ viewOn.pwc.power = .active ∧
      viewOn.rsq.state = .idle ∧ viewOn.rsq.burst.active = false ∧
      viewOn.rsq.settings.view = true ∧ viewOn.rsq.lastView = none := by decide

/-- `viewOn` with the last view frame started at 0 and the time base at `n`. -/
def viewedAt (n : Nat) : State :=
  { viewOn with rsq := { viewOn.rsq with lastView := some 0, timeBase := BitVec.ofNat 32 n } }

/-- What VIEW_FRAME_START answers there: in VIEW or not. -/
def startsView (n : Nat) : Bool :=
  match exec .viewFrameStart (viewedAt n) with
  | .next t => t.rsq.state == .view
  | _ => false

theorem test_view_period_modulo :
    startsView 33332 = false ∧ startsView 33333 = true ∧ startsView (2 ^ 31 + 33333) = true ∧
      startsView (2 ^ 32 - 1) = true ∧
      33333 ≤ ((viewedAt 33333).rsq.timeBase - (0 : Time)).toNat := by decide

/-- The third error in a row ends its transaction: the link is LOST and the 2,000 µs run. -/
theorem test_lost_starts_poll_time :
    (match exec .linkReplyLate { pollDue with lnk := { pollDue.lnk with
        running := some .pollWhere, errors := 2 } } with
      | .next t => t.lnk.state == .lost && t.lnk.running.isNone && t.lnk.timers == [0, 2000]
      | _ => false) = true := by decide

/-- A machine in a still frame's IMAGE entry with the FIFO full. -/
def fullFifo : State :=
  let s := running (still (.running 1 64 0)) .readout
  { s with rsq := { s.rsq with fifo := List.replicate 64 ⟨0, []⟩ } }

/-- A development row that is over, with the FIFO above the watermark. -/
def crowdedRow : State :=
  let s := developing 0 42336 4536
  { s with rsq := { s.rsq with fifo := List.replicate 32 ⟨0, []⟩ } }

theorem test_row_clauses_together :
    fullFifo.rsq.frame = some (still (.running 1 64 0)) ∧
      fullFifo.rsq.program[1]? = some ⟨.image, 4024⟩ ∧ 64 < 4024 ∧
      64 ≤ fullFifo.rsq.fifo.length ∧ crowdedRow.runningJob = some (running1 0) ∧
      crowdedRow.dev.engine = .running ∧ crowdedRow.dev.row.read = Recipe.reset.scale.sourceBytes ∧
      crowdedRow.dev.row.written = Recipe.reset.scale.rowBytes ∧ crowdedRow.watermarkSignal = true ∧
      (developing 1005 42336 4536).runningJob = some (running1 1005) ∧
      (developing 1005 42336 4536).dev.engine = .running ∧
      (developing 1005 42336 4536).dev.row.read = Recipe.reset.scale.sourceBytes ∧
      (developing 1005 42336 4536).dev.row.written = Recipe.reset.scale.rowBytes := by decide +kernel

/-- CardBursts: the last burst stored with verify off, and a last read-back burst that agrees and
one that does not. -/
theorem test_card_clauses_together :
    let off := flight1 (.cardBusy 0) [⟨0, 512⟩] 256 false
    let back := flight1 (.verifying 0) [⟨0, 1⟩] 0 true
    let zeros := List.replicate 512 (0 : Byte)
    let ones := List.replicate 512 (255 : Byte)
    let sum := fun d : List Byte => (CheckSum.add .raw .zero (d.take (burstData 42590016 0 1))).sum
    ((flying off).slot .a).flight = some off ∧ ((flying off).findRecord 1).isSome = true ∧
      ((flying off).rsq.timeBase - 0).toNat < 250000 ∧
      totalSectors off.planned ≤ 256 + burstLength off.planned 256 ∧ off.verify = false ∧
      ((flying back).slot .a).flight = some back ∧ zeros.length = burstLength back.planned 0 * 512 ∧
      ones.length = burstLength back.planned 0 * 512 ∧
      totalSectors back.planned ≤ 0 + burstLength back.planned 0 ∧
      (flying back).expectedSum back = some (sum zeros) ∧
      (flying back).expectedSum back ≠ some (sum ones) := by decide +kernel

/-- RequestsRefused: a request of each family that is taken, and its refusal. -/
theorem test_refusals :
    accepts kept .body .openPart = true ∧
      refusal kept .body (.openPart 2 (.is .raw)) = some (.gone, .empty) ∧
      refusal kept .body (.openPart 1 .other) = some (.badField, .field 2) ∧
      refusal full4 .body (.openPart 1 (.is .proof)) = some (.full, .empty) ∧
      refusal kept .body (.openPart 1 (.is .raw)) = none ∧
      accepts handled .body .readPart = true ∧
      refusal handled .body (.readPart 0 42590016 1) = some (.badField, .field 2) ∧
      refusal handled .body (.readPart 0 0 16385) = some (.badField, .field 3) ∧
      refusal handled .body (.readPart 4 0 1) = some (.badField, .field 1) ∧
      refusal handled .body (.readPart 0 42590015 16384) = none := by decide +kernel

theorem test_refusals_2 :
    accepts (powered .saving) .body .seqRun = true ∧
      refusal (powered .saving) .body .seqRun = some (.saving, .empty) ∧
      refusal base .body .seqRun = some (.badField, .field 1) ∧
      refusal programmed .body .seqRun = none ∧
      accepts tetherOn .tether .recipeWrite = true ∧
      refusal tetherOn .tether (.recipeWrite 1 ⟨none, none, none, none, none, none, none, none,
        none, some 3⟩) = some (.denied, .empty) ∧
      refusal tetherOn .tether (.recipeWrite 2 ⟨none, none, none, none, none, none, none, none,
        none, some 3⟩) = some (.badField, .field 6) := by decide +kernel

theorem test_refusals_3 :
    accepts relayFull .relay .sendNext = true ∧
      refusal relayFull .relay .sendNext = some (.busy, .empty) ∧
      refusal (relayed .ready 0) .relay (.sendDone 1) = some (.state, .empty) ∧
      refusal (relayed .inFlight 0) .body (.tag 1 ⟨none, none, some false, none⟩) =
        some (.busy, .empty) ∧
      refusal kept .body (.tag 1 ⟨none, some 6, none, none⟩) = some (.badField, .field 3) ∧
      refusal kept .body (.tag 1 ⟨none, some 5, some true, none⟩) = none ∧
      accepts (slotIn .busy) .body .slotReset = true ∧
      refusal (slotIn .busy) .body (.slotReset (.is .a)) = some (.busy, .empty) ∧
      refusal (slotIn .busy) .body (.slotReset .other) = some (.badField, .field 1) ∧
      refusal base .body (.devSet (some 3) (some 4)) = some (.badField, .field 2) ∧
      accepts (lowDone true .active) .body .resume = true ∧
      refusal (lowDone true .active) .body .resume = some (.state, .empty) := by decide +kernel

/-- CaptureSettingRequests, CardSettings, PortRequests and the other settings, with no field given
and with every field given, and a slot that is FULL. -/
theorem test_given_fields :
    (none : Option (Choice SyncMode)) ≠ some .other ∧
      pick (seqIn .idle true).rsq.syncMode none = (seqIn .idle true).rsq.syncMode ∧
      mediaBad ⟨none, none, none, none, none⟩ = none ∧
      mediaBad ⟨some (.is false), some (.is .long), some (.is false), some (.is .long),
        some (.is false)⟩ = none ∧
      wakeBad ⟨none, none, none, none, some 101⟩ = none ∧
      pick looseTether.snq.policy none = .loose ∧
      pick base.snq.policy (some (.is .loose)) = .loose ∧ base.snq.policy = .hold ∧
      (some 3 : Option Nat).getD 0 ≤ 3 ∧ (none : Option Nat).getD 0 ≤ 3 ∧
      accepts (slotIn .full) .body .slotFull = true ∧ ((slotIn .full).slot .a).state = .full := by
  decide

/-- TagTaken: every clause at fields that pass, and FOCUS_AREA of a TRACKING session. -/
theorem test_tag_clauses_together :
    tagBad ⟨some true, some 5, some false, some false⟩ = none ∧
      tagBad ⟨none, none, none, some true⟩ = none ∧ tagBad ⟨none, some 0, none, none⟩ = none ∧
      tagBad ⟨none, some 6, none, none⟩ = some 3 ∧
      accepts kept .body .tag = true ∧ kept.namedRecord 1 = some shot1 ∧
      kept.relayEntry 1 = none ∧ shot1.life = .held ∧ shot1.current.isSome = true ∧
      accepts relayReadyNow .body .tag = true ∧ relayReadyNow.namedRecord 1 = some shot1 ∧
      relayReadyNow.relayEntry 1 = some ⟨1, .normal, .ready, 0, some 1⟩ ∧
      ({ (focusing .continuous).fdr with state := .tracking } : Fdr).state = .tracking := by decide

/-! ### The invariants of the records and the blocks -/

/-- RecordLawsKept and EveryBlockInOnePlace: a state with a record that has the laws, and its step. -/
theorem test_record_laws : step kept = .next kept.tick ∧ RecordsOk kept := by
  refine ⟨rfl, ?_⟩
  unfold RecordsOk
  exact
    { catalog := ⟨by decide, by decide, by decide⟩
      cards := fun c h => by
        obtain rfl | h := List.mem_cons.1 h
        · exact ⟨by decide, by decide, by decide, by decide, by decide, by decide, by decide,
            by decide, by decide, by decide⟩
        · cases h
      relayOnce := by decide
      relayFlight := by decide
      relayBound := fun e h => by cases h
      relayFits := fun e h => by cases h
      tagged := by decide
      tetherOnce := by decide
      tetherFlight := by decide
      tetherFits := fun e h => by cases h
      running := by decide
      begun := fun j h => by cases h
      jobFits := fun j h => by cases h
      handleFits := fun x h => by cases h
      frame := fun k n h => by cases h }

theorem test_block_law : BlocksOk kept := by
  unfold BlocksOk
  refine ⟨by decide, by decide, fun n => ?_⟩
  have h : (books kept).freeRuns ++ (books kept).cards.flatMap Card.blocks =
      [⟨181, 8011⟩, ⟨0, 163⟩, ⟨163, 18⟩] := by decide
  rw [h]
  simp only [covered, List.countP_cons, List.countP_nil]
  simp only [Bool.and_eq_true, decide_eq_true_eq]
  have size : Config.blockCount = 8192 := rfl
  by_cases hn : n < Config.blockCount
  · rw [if_pos hn]
    repeat' split
    all_goals omega
  · rw [if_neg hn]
    repeat' split
    all_goals omega

/-! ### Outputs, frames and the lens link -/

def noticed : State :=
  { tetherOn with prt := { tetherOn.prt with
      body := { PortSt.reset with notices := [.wakeDone .request] },
      tether := { PortSt.reset with notices := [.wakeDone .request] } } }

/-- NoticesAndDelivery: the outputs of a port with a formed reply, with a notice, with neither, and of
the tether; and a notice that is appended, merged and dropped. -/
theorem test_outputs :
    (crowded.output .body = .reply ⟨.received 0, 0, .busy, .empty⟩) ∧
      noticed.output .body = .notice (.wakeDone .request) ∧ base.output .body = .nothing ∧
      base.outputBytes .body = [0] ∧ noticed.output .tether = .nothing ∧
      noticed.outputBytes .tether = [] ∧ noticed.interruptBytes.isSome = true ∧
      noticed.attention .body = true ∧ noticed.attention .tether = false ∧
      ((noticed.notify .tether (.wakeDone .resume)).port .tether).notices.length = 2 ∧
      (base.notify .tether (.wakeDone .resume)) = base ∧
      noticed.prt.attached = true := by decide +kernel

/-- R160, R161: the frame that the body port puts out for its notice: kind 3, tag 0, status 0. -/
theorem test_notice_frame :
    noticed.outputBytes .body = Notice.frame (.wakeDone .request) ∧
      byteAt (Notice.frame (.wakeDone .request)) 0 = 3 ∧
      byteAt (Notice.frame (.wakeDone .request)) 2 = 0 ∧
      byteAt (Notice.frame (.wakeDone .request)) 3 = 0 := ⟨rfl, rfl, rfl, rfl⟩

/-- R69: the bits of one byte, and a frame whose sum is 0. -/
theorem test_link_bits :
    linkBits 5 = [false, true, false, true, false, false, false, false, false, true, true] ∧
      linkFrame 2 [0x34, 0x12, 1] = [2, 3, 0x34, 0x12, 1, 0xB4] ∧
      (Transaction.move ⟨0x1234, 1⟩ true).data = [0x34, 0x12, 1] ∧
      ({ talking .pollWhere 0 with lnk := { (talking .pollWhere 0).lnk with
        running := none } } : State).linkOutput = [] := by decide +kernel

/-- R55: the pairs of a PD entry start at the area's band and count up. -/
theorem test_pair_pointer :
    let s := running (still (.running 0 0 0)) .readout
    let t := s.startPd
    t.phc.pairPtr = 162 ∧
      (match exec (.pdPair [] []) t with
      | .next u => u.phc.pairPtr == 163
      | _ => false) = true := by decide +kernel

/-- LensLink: good replies while READY to each transaction and in identification, a pending MOVE and
WHERE, a session that is OFF, and the next transaction. -/
theorem test_link_clauses_together :
    let s := talking .pollWhere 0
    let m := talking (.move ⟨7, 1⟩ true) 1
    let busy : State := { s with lnk := { s.lnk with
      running := some (.exposureWhere 3), pendWhere := some 4, pendMove := some ⟨7, 1⟩ } }
    let data : List Byte := [0x34, 0x12, 0]
    let cs := replyChars 2 data
    linkErrors cs (some .whereIs) Transaction.pollWhere.command 3 = [] ∧
      linkErrors (replyChars 3 []) (some .move) (Transaction.move ⟨7, 1⟩ true).command 0 = [] ∧
      linkErrors (replyChars 1 [50, 0, 0x90, 1, 0, 0, 0x58, 2]) (some .ident)
        Transaction.identPage1.command 8 = [] ∧
      s.lnk.state = .ready ∧ s.linkSilent = false ∧ s.fdr.state = .off ∧
      s.rsq.state ≠ .focusWait ∧ 3 ≠ busy.fdr.frameTag ∧
      m.lnk.running = some (.move ⟨7, 1⟩ true) ∧ m.lnk.errors < 2 ∧ m.lnk.pendMove = none ∧
      m.lnk.pendWhere = none ∧ busy.lnk.pendMove.isSome = true ∧
      linkErrors [] (some .whereIs) Transaction.pollWhere.command 3 = [.check, .framing] := by
  decide +kernel

/-- LensLink: the commands of the link complete. -/
theorem test_link_completes :
    let s := talking .pollWhere 2
    let left := fun (r : Result) (q : LinkState) => (match r with
      | .next t => decide (t.lnk.state = q) && t.lnk.running.isNone
      | _ => false) = true
    left (exec (.linkReply (replyChars 2 [0x34, 0x12, 0]) (some .whereIs)) s) .ready ∧
      left (exec .linkReplyLate s) .lost ∧
      (match exec .pollWhereDue pollDue with
      | .next t => t.lnk.running == some .pollWhere
      | _ => false) = true := by decide +kernel

/-! ### The DRAM grants -/

def filling : State := flying (flight1 .filling [⟨0, 83184⟩] 0 true)
def gathering : State := reading { gathered with got := [], length := 1 }

/-- DramGrants: a transfer in progress; each class alone; nothing wanted; and turns taken. -/
theorem test_grant_hyps :
    (moving base (transfer .rsq 1 true)).arb.current.isSome = true ∧ base.arb.current = none ∧
      fifoed.wantRsq.isSome = true ∧ filling.wantRsq = none ∧ (filling.wantMed .a).isSome = true ∧
      filling.arb.lastSlot ≠ .a ∧ filling.wantMed .b = none ∧
      (gathering.wantPrt .body).isSome = true ∧ gathering.wantRsq = none ∧
      gathering.wantMed .a = none ∧ gathering.wantMed .b = none ∧
      gathering.arb.lastPort = .relay ∧ (developing 0 0 0).wantDev.isSome = true ∧
      (∀ p, p ∈ [Port.body, .tether, .relay] → (developing 0 0 0).wantPrt p = none) ∧
      base.wantDev = none ∧ filling.grant.arb.current.isSome = true := by decide +kernel

/-! ### Measurements and what FDR does with them -/

def snap1 : PdSnapshot := ⟨⟨1, 32, 4, .full, 0⟩, 67, 0⟩
/-- A span of 40 samples, a step at sample k. -/
def spanOf (k : Nat) : List Nat := (List.range 40).map fun i => if i < k then 0 else 16383

/-- FocusMeasurement: fewer pairs than N; a best shift inside the range; one at its end. -/
theorem test_measurement_hyps :
    0 < snap1.setup.n ∧ snap1.setup.n ≤ 1 ∧ 1 ≤ snap1.setup.smax ∧
      (measure snap1 [(spanOf 20, spanOf 21)] 1 0 .still (some 1)).result.map CurveResult.shift =
        some 1 ∧
      (measure snap1 [(spanOf 20, spanOf 24)] 1 0 .still (some 1)).edge = true ∧
      (measure snap1 [] 0 0 .still (some 1)).outcome = .short := by decide +kernel

def descr1 : Descriptor := ⟨⟨100, 8000, 320, 4, 3⟩, 50, 400, 0, 600⟩
def curve1 (phase : Int) : CurveResult := ⟨3, [], 900, 1, none, phase, 800⟩
def measured (o : PhaseOutcome) (shot : Option Nat) : Measurement :=
  ⟨0, .still, shot, 67, snap1.setup, 0, 1, o, false, some (curve1 80), ⟩
def session (m : FocusMode) (q : FocusState) (f : Fdr → Fdr) : State :=
  { kept with fdr := f { base.fdr with mode := m, state := q },
              lnk := { base.lnk with state := .ready, descriptor := some descr1, position := some 3000 } }
def asIs (m : FocusMode) (q : FocusState) : State := session m q id
def aimedAt (n : Nat) (scan : ScanPhase) : State :=
  session .single .acquiring fun f => { f with target := some ⟨n, false, false⟩, scan := scan }
def scanning (scan : ScanPhase) : State :=
  session .single .acquiring fun f => { f with scan := scan, scanStart := 3000 }

/-- FocusApplication: a link that is not READY and a measurement without a curve; then the common
hypotheses and those of each mode. -/
theorem test_application_hyps :
    (linkIn .lost).lnk.state ≠ .ready ∧
      (asIs .single .acquiring).lnk.state = .ready ∧
      (asIs .single .acquiring).lnk.descriptor = some descr1 ∧
      (asIs .single .acquiring).rsq.state ≠ .focusWait ∧
      (measured .valid (some 1)).result = some (curve1 80) ∧
      descr1.page0.pmin ≤ descr1.page0.pmax ∧ (asIs .single .off).fdr.state = .off ∧
      (asIs .single .acquiring).fdr.scan = .none ∧ (asIs .single .acquiring).fdr.target = none ∧
      (measured .low none).outcome ≠ .valid ∧ (measured .low none).shot = none ∧
      (asIs .continuous .acquiring).fdr.mode = .continuous ∧
      (predict [((asIs .continuous .acquiring).fdr.frameMid, 3100)] 0 600).isSome = true ∧
      (asIs .continuous .tracking).fdr.lowCount < 7 ∧
      7 ≤ (session .continuous .tracking fun f => { f with lowCount := 7 }).fdr.lowCount ∧
      (asIs .manual .acquiring).fdr.mode = .manual := by decide +kernel

/-- FocusApplication: the result of a VALID measurement in SINGLE mode and in CONTINUOUS mode. -/
theorem test_application_results :
    ((asIs .single .acquiring).applyMeasurement (measured .valid (some 1))).fdr.target =
        some ⟨3100, false, false⟩ ∧
      ((asIs .single .acquiring).applyMeasurement (measured .low none)).fdr.scan = .up ∧
      ((asIs .continuous .acquiring).applyMeasurement (measured .valid none)).fdr.state =
        .tracking := by decide +kernel

/-- FocusApplication: WHERE replies at and off the target, and at both ends of a scan. -/
theorem test_where_hyps :
    let near := fun pos n : Nat => pos ≤ n + descr1.page0.tolerance ∧ n ≤ pos + descr1.page0.tolerance
    (aimedAt 3000 .none).fdr.scan = .none ∧
      (aimedAt 3000 .none).fdr.target = some ⟨3000, false, false⟩ ∧ near 2996 3000 ∧
      ¬ near 2995 3000 ∧ (scanning .up).fdr.scan = .up ∧ near 8000 8000 ∧ ¬ near 7995 8000 ∧
      (scanning .down).fdr.scan = .down ∧ near 104 100 ∧ ¬ near 105 100 ∧
      ((aimedAt 3000 .none).whereToFocus 2996 false).fdr.state = .locked ∧
      ((scanning .down).whereToFocus 104 false).fdr.state = .failed := by decide +kernel

/-- FOCUS_AREA of the area in force: in SINGLE mode it ends a scan, in CONTINUOUS nothing changes. -/
theorem test_area_in_force :
    (match exec (.focusArea .body 1 (scanning .up).fdr.area) (scanning .up) with
      | .next t => t.fdr.scan == .none && t.fdr.target.isNone && t.fdr.state == .acquiring
      | _ => false) = true ∧
      accepts (focusing .continuous) .body .focusArea = true ∧
      (focusing .continuous).fdr.mode = .continuous ∧ (focusing .continuous).fdr.area = 67 := by
  decide +kernel

/-- FocusSettings: a new area in SINGLE mode while ACQUIRING. -/
theorem test_single_area :
    accepts (scanning .up) .body .focusArea = true ∧ (scanning .up).fdr.mode = .single ∧
      (scanning .up).fdr.state = .acquiring ∧ 3 ≠ (scanning .up).fdr.area := by decide +kernel

/-! ### Releases, jobs and copies -/

def tetheredUnder (p : TetherPolicy) : State :=
  { tethered false 0 with snq := { (tethered false 0).snq with policy := p } }
def deleting1 (flying : Bool) : Record :=
  { shot1 with
    life := .deleting,
    copies := { Copies.none with aRaw :=
      { Copy.notRequired with state := if flying then .writing else .abandoned } } }

/-- ReleaseDecisions: a record that lets everything go, one whose tether entry holds the raw, one that
lets raw and entry go; and a DELETING record with a copy in flight and without. -/
theorem test_release_hyps :
    CatalogOk kept ∧ kept.findRecord 1 = some shot1 ∧ shot1.life = .held ∧
      (shot1.versions.map Version.number).Nodup ∧
      ((kept.releaseTests 1).findRecord 1).map Record.life = some .cardOnly ∧
      (((tetheredUnder .hold).releaseTests 1).findRecord 1).map (fun r => r.raw.state) =
        some .present ∧
      (((tetheredUnder .loose).releaseTests 1).findRecord 1).map Record.tether = some .missed ∧
      CatalogOk (keeping (deleting1 true)) ∧
      (keeping (deleting1 true)).findRecord 1 = some (deleting1 true) ∧
      (deleting1 true).anyInFlight = true ∧ (deleting1 false).anyInFlight = false ∧
      ((keeping (deleting1 true)).settleDeleting 1 .proof (some 1)).findRecord 1 ≠ none ∧
      ((keeping (deleting1 false)).settleDeleting 1 .raw none).findRecord 1 = none := by
  refine ⟨⟨by decide, by decide, by decide⟩, by decide, by decide, by decide, ?_, ?_, ?_,
    ⟨by decide, by decide, by decide⟩, by decide, by decide, by decide, ?_, ?_⟩ <;> decide +kernel

/-- R155: the INFO payload of a shot with one version and no placement, and its first bytes. -/
theorem test_info_layout :
    (kept.infoBytes shot1).length = 64 + 42 + 4 * 5 ∧
      (kept.infoBytes shot1).take 6 = [1, 0, 0, 0, 1, 0] ∧
      ((kept.infoBytes shot1).drop 64).take 4 = [1, 0, 4, 1] := by decide +kernel

/-- DeleteTaken: a shot that is free to go, and one with a copy in flight. -/
theorem test_delete_clauses :
    let r := { shot1 with copies := (deleting1 true).copies }
    accepts (keeping r) .body .delete = true ∧ (keeping r).namedRecord 1 = some r ∧
      r.life = .held ∧ r.tags.protect = false ∧ (keeping r).openOnShot 1 = false ∧
      r.anyInFlight = true ∧
      ((keeping r).dev.queue.filter fun j => j.state == .running).length ≤ 1 := by decide

def wanting1 : Record :=
  { shot1 with versions := [], lastVersion := 0, wanted := some ⟨0, .card⟩ }
def wantingWith (q : List Job) : State :=
  { keeping wanting1 with dev := { base.dev with queue := q, attemptDue := true } }
def fullQueue : List Job := List.replicate 8 { queued1 with recipe := 3 }
def noBlocks (q : List Job) : State := { wantingWith q with freeRuns := [] }

/-- JobsStartAndAbort: admission of a proof wanted alone, merged, and with 8 jobs queued. -/
theorem test_admission_hyps :
    CatalogOk (wantingWith []) ∧ wanting1.wanted = some ⟨0, .card⟩ ∧
      (∀ q, q ∈ (wantingWith []).catalog → q.wanted ≠ none → q = wanting1) ∧
      (wantingWith []).queuedJob 1 0 = none ∧ (wantingWith []).dev.queue.length < 8 ∧
      (wantingWith [queued1]).queuedJob 1 0 = some queued1 ∧
      (wantingWith fullQueue).queuedJob 1 0 = none ∧ 8 ≤ (wantingWith fullQueue).dev.queue.length ∧
      (wantingWith []).admitAuto.dev.queue.length = 1 :=
  ⟨⟨by decide, by decide, by decide⟩, by decide, by decide, by decide, by decide, by decide,
    by decide, by decide, by decide +kernel⟩

/-- JobsStartAndAbort: an attempt that is not due, one that is held back, one that finds no space, and
one that starts a job; and a running job of a HELD shot that is aborted. -/
theorem test_attempt_hyps :
    kept.dev.attemptDue = false ∧ (wantingWith [running1 0]).dev.attemptDue = true ∧
      (running1 0).state = .running ∧ (wantingWith [queued1]).dev.attemptDue = true ∧
      (wantingWith [queued1]).pwc.power ≠ .saving ∧
      (wantingWith [queued1]).rsq.fifo.length < (wantingWith [queued1]).rsq.watermark ∧
      (wantingWith [queued1]).rsq.state = .hold ∧
      (wantingWith [queued1]).dev.queue = [] ++ queued1 :: [] ∧
      (wantingWith [queued1]).findRecord 1 = some wanting1 ∧ wanting1.versions.length < 2 ∧
      allocate 18 (wantingWith [queued1]).freeRuns = .done [⟨181, 18⟩] [⟨199, 7993⟩] ∧
      allocate 18 (noBlocks [queued1]).freeRuns = .space ∧
      (wantingWith [queued1]).attemptJob.dev.engine = .running ∧
      (noBlocks [queued1]).attemptJob.dev.engine = .idle ∧
      (developing 0 0 0).runningJob = some (running1 0) ∧
      (developing 0 0 0).findRecord 1 = some shot1 ∧ CatalogOk (developing 0 0 0) :=
  ⟨by decide, by decide, by decide, by decide, by decide, by decide, by decide, by decide,
    by decide, by decide, by decide +kernel, by decide, by decide +kernel, by decide +kernel,
    by decide, by decide, ⟨by decide, by decide, by decide⟩⟩

/-- DevelopmentRows: the last row of a job with an asking port, whose version is there. -/
theorem test_completion_hyps :
    CatalogOk (developing 1005 0 0) ∧ shot1.life = .held ∧ proof1 ∈ shot1.versions ∧
      proof1.number = (running1 1005).version ∧ (running1 1005).asking ≠ [] ∧
      ((developing 1005 0 0).dev.queue.filter fun k => k.state == .running).length ≤ 1 :=
  ⟨⟨by decide, by decide, by decide⟩, by decide, by decide, by decide, by decide, by decide⟩

/-- PlannedPlacement: a size that the first two runs hold, the last one whole and in part. -/
theorem test_plan_hyps :
    fits [⟨0, 2048⟩, ⟨4096, 2048⟩] 4096 = true ∧ 0 < 4096 ∧
      planRuns [⟨0, 2048⟩, ⟨4096, 2048⟩] 4096 = ([⟨0, 2048⟩, ⟨4096, 2048⟩], []) ∧
      planRuns [⟨0, 2048⟩, ⟨4096, 2048⟩] 3000 =
        ([⟨0, 2048⟩, ⟨4096, 952⟩], [⟨5048, 1096⟩]) := by decide

def overflowed : State := { starved with med := { starved.med with mode := .overflow } }

/-- CardSettings and CardSpaceRequests: a copy PENDING on A in OVERFLOW; a slot that chooses its work
and one that does not; a head that cannot be placed; a copy that SLOT_DROP abandons. -/
theorem test_card_clauses :
    accepts overflowed .body .slotFull = true ∧ (overflowed.slot .a).state = .starved ∧
      overflowed.med.mode = .overflow ∧ overflowed.catalog[0]? = some pendingRaw ∧
      (pendingRaw.copies.get .a .raw).state = .pending ∧
      (pendingRaw.copies.get .a .proof).state ≠ .pending ∧
      fits [⟨0, 2048⟩] (sectorsFor (pendingRaw.partBytes .raw none)) = false ∧
      starved.pwc.power ≠ .saving ∧ (starved.slot .a).reinit = none ∧
      (slotIn .busy).badRun .a ⟨0, 2048⟩ = false ∧ accepts (slotIn .busy) .body .cardSpace = true ∧
      ((slotIn .busy).slot .a).state ≠ .ready ∧ ((slotIn .busy).slot .a).state ≠ .starved ∧
      starved.slotWork .a ≠ [] ∧ (slotIn .ready).slotWork .a = [] := by decide +kernel

def savingNow (s : State) (done : Bool) : State :=
  { s with pwc := { s.pwc with power := .saving, done := done }, rsq := { s.rsq with state := .off } }

/-- CardBursts in SAVING: a last burst stored, and a fault of a shot that is not DELETING. -/
theorem test_card_saving_hyps :
    let f := flight1 (.cardBusy 0) [⟨0, 512⟩] 256 true
    (savingNow (flying f) false).pwc.power = .saving ∧
      (savingNow (flying f) false).pwc.done = false ∧
      ((savingNow (flying f) false).slot .a).flight = some f ∧
      ((savingNow (flying f) false).findRecord 1).isSome = true ∧ CatalogOk (flying f) ∧
      shot1.life ≠ .deleting :=
  ⟨by decide, by decide, by decide, by decide, ⟨by decide, by decide, by decide⟩, by decide⟩

/-! ### Send queues -/

def urgent : State :=
  { kept with snq := { base.snq with relay :=
      [⟨2, .normal, .ready, 0, none⟩, ⟨1, .priority, .ready, 0, none⟩] } }

/-- RelayQueueRequests: a PRIORITY entry behind a NORMAL one, no PRIORITY entry, no READY entry, two
IN_FLIGHT, and the failures. -/
theorem test_relay_clauses :
    accepts urgent .relay .sendNext = true ∧
      (urgent.snq.relay.filter fun q => q.state == .inFlight).length < 2 ∧
      (urgent.snq.relay.find? fun q => q.state == .ready && q.cls == .priority) =
        some ⟨1, .priority, .ready, 0, none⟩ ∧
      (∀ q, q ∈ relayReadyNow.snq.relay → q.state = .ready → q.cls ≠ .priority) ∧
      (relayReadyNow.snq.relay.find? fun q => q.state == .ready) =
        some ⟨1, .normal, .ready, 0, some 1⟩ ∧
      accepts (relayed .inFlight 0) .relay .sendNext = true ∧
      (∀ q, q ∈ (relayed .inFlight 0).snq.relay → q.state ≠ .ready) ∧
      2 ≤ (relayFull.snq.relay.filter fun q => q.state == .inFlight).length ∧
      accepts (relayed .inFlight 1) .relay .sendDone = true ∧
      accepts (relayed .ready 0) .relay .sendDone = true := by decide

/-- TetherQueueRequests: each request completes. -/
theorem test_tether_clauses :
    let next := fun (r : Result) (f : State → Bool) => (match r with
      | .next t => f t
      | _ => false) = true
    accepts (tethered true 0) .tether .transferNext = true ∧
      (∀ q, q ∈ (tethered true 0).snq.tether → q.inFlight = true) ∧
      next (exec (.transferNext .tether 0) (tethered false 0)) (fun t => t.tetherInFlight == 1) ∧
      next (exec (.transferDone .tether 0 1) (tethered true 0)) (fun t => t.snq.tether.isEmpty) ∧
      next (exec (.transferFail .tether 0 1) (tethered true 1))
        (fun t => t.snq.tether == [⟨1, false, 2⟩]) ∧
      next (exec (.transferFail .tether 0 1) (tethered true 2)) (fun t => t.snq.tether.isEmpty) ∧
      next (exec (.sendSet .body 0 ⟨none, some (.is .loose)⟩) (tethered false 0))
        (fun t => t.snq.policy == .loose) ∧
      next (exec (.tetherQueueClear .body 0) (tethered true 0)) (fun t => t.snq.tether.isEmpty) ∧
      CatalogOk (tethered true 0) ∧ ((tethered true 0).findRecord 1).isSome = true := by
  refine ⟨by decide, by decide, ?_, ?_, ?_, ?_, ?_, ?_, ⟨by decide, by decide, by decide⟩,
    by decide⟩ <;> decide +kernel

/-! ### Power -/

def heldOn (s : State) (h : List Held) : State :=
  { s with
    pwc := { s.pwc with held := h },
    prt := { s.prt with
      body := { PortSt.reset with
        request := some ⟨.burstStart, 4, .wakeHeld⟩, replies := [.place] },
      tether := { PortSt.reset with
        request := some ⟨.burstStart, 5, .wakeHeld⟩, replies := [.place] } } }
def burst1 : BurstFields := ⟨3, 1000, 100⟩

/-- PowerLine, the assertion: each sequencer state, a running job, a VERIFYING copy, a held request. -/
theorem test_power_low_hyps :
    (seqIn .idle true).rsq.state = .idle ∧ (seqIn (.stalled .space) true).pwc.power ≠ .saving ∧
      (frameOf .focusWait (still .exposing)).rsq.frame = some (still .exposing) ∧
      (frameOf .focusWait (still .exposing)).pins.powerLow = false ∧
      (frameIn .view (viewing .exposing)).rsq.state = .view ∧
      (developing 0 0 0).runningJob = some (running1 0) ∧
      ((flying (flight1 (.verifying 0) [⟨0, 512⟩] 0 true)).slot .a).flight =
        some (flight1 (.verifying 0) [⟨0, 512⟩] 0 true) ∧
      (heldOn (powered .waking) [.burst .body burst1]).pwc.held = [.burst .body burst1] ∧
      ((heldOn (powered .waking) [.burst .body burst1]).port .body).request =
        some ⟨.burstStart, 4, .wakeHeld⟩ := by decide

/-- PowerLine: the commands complete; SAVING is done at once in HOLD with no copy in flight. -/
theorem test_power_line_completes :
    let next := fun (r : Result) (f : State → Bool) => (match r with
      | .next t => f t
      | _ => false) = true
    next (exec .powerLowAsserted base) (fun t => t.pwc.power == .saving && t.pwc.done) ∧
      next (exec .powerLowDeasserted (lowDone true .active)) (fun t => t.pwc.power == .saving) ∧
      next (exec .wakeWaitEnd (wakingAt 5000)) (fun t => t.pwc.power == .active) ∧
      next (exec .wakeWaitEnd (heldOn (wakingAt 5000) [.burst .body burst1, .burst .tether burst1]))
        (fun t => t.rsq.burst.active && t.pwc.held.isEmpty) := by decide +kernel

/-- PowerLine, the end of a wake: held items of each kind, a burst active and not, HOLD before OFF. -/
theorem test_wake_end_hyps :
    (heldOn (wakingAt 5000) [.burst .body burst1]).pwc.power = .waking ∧
      (heldOn (wakingAt 5000) [.burst .body burst1]).rsq.burst.active = false ∧
      (heldOn (wakingAt 5000) [.burst .body burst1]).rsq.fromHold = false ∧
      (heldOn (wakingAt 5000) [.burst .body burst1, .burst .tether burst1]).pwc.held =
        [.burst .body burst1, .burst .tether burst1] ∧ Port.body ≠ .tether ∧
      (heldOn (wakingAt 5000) [.focus .body (some .other)]).pwc.held =
        [.focus .body (some .other)] ∧
      (heldOn (wakingAt 5000) [.focus .body none]).pwc.held = [.focus .body none] ∧
      (heldOn (wakingAt 5000) [.edge]).pwc.held = [.edge] ∧
      (heldOn (wakingAt 5000) [.edge]).pwc.wake = some ⟨.request, 0, 5⟩ ∧
      ({ (wakingAt 5000).rsq with fromHold := true } : Rsq).fromHold = true ∧
      pressed.pins.lens = true ∧ pressed.pins.halfPress = true := by decide

/-! ### Frames that end -/

/-- ExposureEvents: a view frame whose program begins with an IMAGE entry, and with STOP. -/
theorem test_view_exposure_hyps :
    let f := viewing .exposing
    let s := frameIn .view f
    let t := { s with rsq := { s.rsq with program := program1, viewStart := 3 } }
    s.rsq.frame = some f ∧ s.rsq.state = .view ∧ f.kind = .view ∧ f.program = .exposing ∧
      reached (f.exposureStart + BitVec.ofNat 32 f.exposure) s.rsq.timeBase = true ∧
      s.rsq.program[s.rsq.viewStart]? = some ⟨.stop, 0⟩ ∧ t.rsq.frame = some f ∧
      t.rsq.program[t.rsq.viewStart]? = some ⟨.image, 100⟩ := by decide

def readOut (b : Burst → Burst) : State :=
  let s := frameOf .readout (still .ended)
  { s with rsq := { s.rsq with burst := b s.rsq.burst } }

/-- ReadoutEvents: READOUT_END with a burst that goes on, and with one that is over; a PD entry that
ends, and one that begins. -/
theorem test_readout_end_hyps :
    (readOut id).pwc.power ≠ .saving ∧ (readOut id).rsq.burst.count = 0 ∧
      (readOut id).rsq.burst.started < 255 ∧ (readOut id).rsq.burst.stopMark = false ∧
      (readOut fun b => { b with stopMark := true }).rsq.burst.stopMark = true ∧
      (readOut id).findRecord 1 = some exposing1 ∧ CatalogOk (readOut id) ∧
      (readOut id).med.mode = .mirror ∧
      (running (still (.running 0 2 0)) .readout).phc.snapshot =
        some ⟨base.phc.setup, 67, 675⟩ ∧
      ({ running (still (.running 1 4024 0)) .readout with
        rsq := { (running (still (.running 1 4024 0)) .readout).rsq with
          program := [⟨.pd, 2⟩, ⟨.image, 4024⟩, ⟨.pd, 2⟩] } } : State).rsq.program[1 + 1]? =
        some ⟨.pd, 2⟩ :=
  ⟨by decide, by decide, by decide, by decide, by decide, by decide,
    ⟨by decide, by decide, by decide⟩, by decide, by decide, by decide⟩

end Sys2Proof.Tests
end

section
/-! PROOFS. The order of the evaluated shifts (R61): what `insertShift` and `sortShifts` make, and
what a curve's results take from it. -/
namespace Sys2Proof.Machine

/-- The order of R61 with equal entries allowed: lower SAD, then smaller |s|, then the lower shift.
`shiftBefore` is its strict part (`notAfter_of_shiftBefore`, `notAfter_of_not_shiftBefore`). -/
def NotAfter (a b : Int × Nat) : Prop :=
  a.2 < b.2 ∨ (a.2 = b.2 ∧ (a.1.natAbs < b.1.natAbs ∨ (a.1.natAbs = b.1.natAbs ∧ a.1 ≤ b.1)))

theorem shiftBefore_iff {a b : Int × Nat} : shiftBefore a b = true ↔
    a.2 < b.2 ∨ (a.2 = b.2 ∧ (a.1.natAbs < b.1.natAbs ∨
      (a.1.natAbs = b.1.natAbs ∧ a.1 < b.1))) := by
  simp [shiftBefore]

theorem notAfter_of_shiftBefore {a b : Int × Nat} (h : shiftBefore a b = true) :
    NotAfter a b := by
  rw [shiftBefore_iff] at h
  unfold NotAfter
  omega

theorem notAfter_of_not_shiftBefore {a b : Int × Nat} (h : ¬ shiftBefore a b = true) :
    NotAfter b a := by
  rw [shiftBefore_iff] at h
  unfold NotAfter
  omega

theorem NotAfter.trans {a b c : Int × Nat} (hab : NotAfter a b) (hbc : NotAfter b c) :
    NotAfter a c := by
  unfold NotAfter at *
  omega

theorem insertShift_perm (x : Int × Nat) (l : List (Int × Nat)) :
    (insertShift x l).Perm (x :: l) := by
  induction l with
  | nil => exact .refl _
  | cons y rest ih =>
    rw [insertShift]
    split
    case isTrue => exact .refl _
    case isFalse => exact (ih.cons y).trans (.swap x y rest)

theorem insertShift_pairwise (x : Int × Nat) {l : List (Int × Nat)} (hl : l.Pairwise NotAfter) :
    (insertShift x l).Pairwise NotAfter := by
  induction l with
  | nil => exact List.pairwise_singleton _ _
  | cons y rest ih =>
    obtain ⟨hy, hrest⟩ := List.pairwise_cons.mp hl
    rw [insertShift]
    split
    case isTrue hxy =>
      have hx : NotAfter x y := notAfter_of_shiftBefore hxy
      exact hl.cons (List.forall_mem_cons.mpr ⟨hx, fun z hz => hx.trans (hy z hz)⟩)
    case isFalse hxy =>
      have hyx : ∀ z ∈ x :: rest, NotAfter y z :=
        List.forall_mem_cons.mpr ⟨notAfter_of_not_shiftBefore hxy, hy⟩
      exact (ih hrest).cons fun z hz => hyx z ((insertShift_perm x rest).mem_iff.mp hz)

theorem sortShifts_perm (l : List (Int × Nat)) : (sortShifts l).Perm l := by
  induction l with
  | nil => exact .refl _
  | cons x rest ih => exact (insertShift_perm x (sortShifts rest)).trans (ih.cons x)

theorem sortShifts_pairwise (l : List (Int × Nat)) : (sortShifts l).Pairwise NotAfter := by
  induction l with
  | nil => exact .nil
  | cons x rest ih => exact insertShift_pairwise x ih

/-- What the results of a curve take from the order of R61. -/
theorem curveResult_of_sortShifts (u : Setup) {l : List (Int × Nat)} {best : Int × Nat}
    {rest : List (Int × Nat)} (h : sortShifts l = best :: rest) :
    ∃ r, curveResult u l = some r ∧ r.best = (sortShifts l).take 4 ∧ r.shift = best.1 ∧
      r.mean = (l.map Prod.snd).sum / l.length := by
  unfold curveResult
  rw [h]
  exact ⟨_, rfl, rfl, rfl, rfl⟩

/-- Settles O22: the order is `sortShifts l`, a rearrangement of `l` that insertion keeps sorted. -/
theorem bestShift : Obligations.BestShift := by
  intro u l hl
  obtain ⟨best, rest, h⟩ : ∃ best rest, sortShifts l = best :: rest :=
    List.exists_cons_of_ne_nil fun hnil => hl (hnil ▸ sortShifts_perm l).nil_eq.symm
  obtain ⟨r, hr, hbest, hshift, hmean⟩ := curveResult_of_sortShifts u h
  exact ⟨r, sortShifts l, hr, sortShifts_perm l, sortShifts_pairwise l, hbest, by simp [h, hshift],
    hmean⟩

end Sys2Proof.Machine
end

section
/-! PROOFS. The gain stage (R110) as one clamp with its count, and the sums of a quad through it. -/
namespace Sys2Proof.Machine

theorem gainStage_of_clamps {gain v : Nat} (h : 16383 < (v * gain + 512) / 1024) :
    gainStage gain v = (16383, 1) :=
  if_pos h

theorem gainStage_of_not_clamps {gain v : Nat} (h : ¬ 16383 < (v * gain + 512) / 1024) :
    gainStage gain v = ((v * gain + 512) / 1024, 0) :=
  if_neg h

/-- Both cases of R110 at once: the value is a minimum, and the count tells whether it cut. -/
theorem gainStage_eq (gain v : Nat) :
    gainStage gain v = (min 16383 ((v * gain + 512) / 1024),
      if 16383 < (v * gain + 512) / 1024 then 1 else 0) := by
  by_cases h : 16383 < (v * gain + 512) / 1024
  · rw [gainStage_of_clamps h, if_pos h, Nat.min_eq_left (Nat.le_of_lt h)]
  · rw [gainStage_of_not_clamps h, if_neg h, Nat.min_eq_right (Nat.le_of_not_lt h)]

/-- Settles O20: each of the quad's four samples passes the black stage, whose floor at 0 is the
subtraction of `Nat`, and then the gain stage in the form of `gainStage_eq`. -/
theorem blackAndGainStages : Obligations.BlackAndGainStages := by
  intro c rec r g1 g2 b
  simp only [CellSums.addQuad, blackStage, gainStage_eq]

end Sys2Proof.Machine
end

section
/-! PROOFS. Requests as rows of the table, and the invariants of Safety.lean along a step: what
`exec_outer` and `Keeping` say of a command, said of `step`. -/
namespace Sys2Proof

/-- The service of a request by the block that owns it (`State.takeNamed`), by itself. -/
def Request.service (r : Request) (p : Port) : Machine.State → Machine.State × Machine.Served :=
  match r with
  | .burstStart f => Machine.serveBurstStart p f
  | .burstStop => Machine.serveBurstStop
  | .programWrite f => Machine.serveProgramWrite f
  | .programRead => Machine.serveProgramRead
  | .seqHold => Machine.serveSeqHold
  | .seqRun => Machine.serveSeqRun
  | .syncMode f => Machine.serveSyncMode f
  | .captureSet f => Machine.serveCaptureSet f
  | .watermark v => Machine.serveWatermark v
  | .focusStart m => Machine.serveFocusStart p m
  | .focusStop => Machine.serveFocusStop
  | .focusArea i => Machine.serveFocusArea i
  | .focusSetup f => Machine.serveFocusSetup f
  | .focusResult => Machine.serveFocusResult
  | .markerWrite f => Machine.serveMarkerWrite f
  | .status => Machine.serveStatus p
  | .listRecords n => Machine.serveList n
  | .info n => Machine.serveInfo n
  | .openPart n part => Machine.serveOpen p n part
  | .readPart h off len => Machine.serveRead p h off len
  | .closeHandle h => Machine.serveClose p h
  | .tag n f => Machine.serveTag n f
  | .delete n => Machine.serveDelete n
  | .develop n i => Machine.serveDevelop p n i
  | .devStatus j => Machine.serveDevStatus j
  | .toneRead i => Machine.serveToneRead i
  | .toneWrite i first vs => Machine.serveToneWrite i first vs
  | .recipeWrite i f => Machine.serveRecipeWrite p i f
  | .recipeRead i => Machine.serveRecipeRead i
  | .devSet c l => Machine.serveDevSet c l
  | .slotMode m => Machine.serveSlotMode m
  | .mediaSet f => Machine.serveMediaSet f
  | .cardSpace x first count => Machine.serveCardSpace x first count
  | .cardSpaceClear x => Machine.serveCardSpaceClear x
  | .slotReset x => Machine.serveSlotReset x
  | .slotDrop x => Machine.serveSlotDrop x
  | .slotFull x => Machine.serveSlotFull x
  | .placement n => Machine.servePlacement n
  | .mediaStatus => Machine.serveMediaStatus
  | .sendNext => Machine.serveSendNext
  | .sendDone n => Machine.serveSendDone n
  | .sendFail n => Machine.serveSendFail n
  | .transferNext => Machine.serveTransferNext
  | .transferDone n => Machine.serveTransferDone n
  | .transferFail n => Machine.serveTransferFail n
  | .sendSet f => Machine.serveSendSet f
  | .tetherQueueClear => Machine.serveTetherQueueClear
  | .portSet b => Machine.servePortSet b
  | .portReset q => Machine.servePortReset q
  | .standby => Machine.serveStandby
  | .resume => Machine.serveResume
  | .wakeSet f => Machine.serveWakeSet f

end Sys2Proof

namespace Sys2Proof.Machine

/-! ### Requests -/

theorem takeNamed_service (s : State) (p : Port) (tag : Byte) (r : Request) :
    s.takeNamed p tag r = s.takeRequest p tag r.kind (r.service p) := by
  cases r <;> rfl

theorem exec_row_named (r : Request) (p : Port) (tag : Byte) (s : State) :
    exec (r.row p tag) s = .next (s.takeNamed p tag r) := by
  cases r <;> rfl

/-- The command of a request takes it under R150, with the service of its block. -/
theorem exec_row (r : Request) (p : Port) (tag : Byte) (s : State) :
    exec (r.row p tag) s = .next (s.takeRequest p tag r.kind (r.service p)) := by
  rw [exec_row_named, takeNamed_service]

theorem row_keeping (s : State) (p : Port) (tag : Byte) (r : Request) :
    Keeping s (exec (r.row p tag) s) := by
  rw [exec_row_named]
  exact .next (takeNamed_lawful s p tag r)

/-- Every command that goes on keeps the laws of the records and of the Shot Buffer. -/
theorem exec_keeping (i : Instr) (s : State) : Keeping s (exec i s) := by
  cases i with
  | fullReset => exact execFullReset_keeping s
  | frameReceived p bs asks => exact execFrameReceived_keeping s p bs asks
  | selectDeasserted p bs => exact execSelectDeasserted_keeping s p bs
  | oversizeHeaderReceived p bs => exact execOversizeHeaderReceived_keeping s p bs
  | frameDelivered p w => exact execFrameDelivered_keeping s p w
  | noticeAcknowledged => exact execNoticeAcknowledged_keeping s
  | readGathered p => exact execReadGathered_keeping s p
  | slotResetDone x o => exact execSlotResetDone_keeping s x o
  | tetherAttach => exact execTetherAttach_keeping s
  | tetherDetach => exact execTetherDetach_keeping s
  | halfPressAsserted => exact execHalfPressAsserted_keeping s
  | halfPressReleased => exact execHalfPressReleased_keeping s
  | triggerEdge e => exact execTriggerEdge_keeping s e
  | powerLowAsserted => exact execPowerLowAsserted_keeping s
  | powerLowDeasserted => exact execPowerLowDeasserted_keeping s
  | wakeWaitEnd => exact execWakeWaitEnd_keeping s
  | cardDetectAsserted x => exact execCardDetectAsserted_keeping s x
  | cardDetectDeasserted x => exact execCardDetectDeasserted_keeping s x
  | lensDetectAsserted => exact execLensDetectAsserted_keeping s
  | lensDetectDeasserted => exact execLensDetectDeasserted_keeping s
  | linkReply cs n => exact execLinkReply_keeping s cs n
  | linkReplyLate => exact execLinkReplyLate_keeping s
  | pollWhereDue => exact execPollWhereDue_keeping s
  | frameDue => exact execFrameDue_keeping s
  | focusWaitTimeout => exact execFocusWaitTimeout_keeping s
  | exposureMidpoint => exact execExposureMidpoint_keeping s
  | exposureEnd => exact execExposureEnd_keeping s
  | viewFrameStart => exact execViewFrameStart_keeping s
  | entryEnd => exact execEntryEnd_keeping s
  | pdPair l r => exact execPdPair_keeping s l r
  | imageRow row => exact execImageRow_keeping s row
  | dramTransferDone => exact execDramTransferDone_keeping s
  | readoutEnd => exact execReadoutEnd_keeping s
  | devRowDone => exact execDevRowDone_keeping s
  | cardBusyEnd x => exact execCardBusyEnd_keeping s x
  | cardTimeout x => exact execCardTimeout_keeping s x
  | verifyBurstDone x d => exact execVerifyBurstDone_keeping s x d
  | burstStart p tag f => exact row_keeping s p tag (.burstStart f)
  | burstStop p tag => exact row_keeping s p tag .burstStop
  | programWrite p tag f => exact row_keeping s p tag (.programWrite f)
  | programRead p tag => exact row_keeping s p tag .programRead
  | seqHold p tag => exact row_keeping s p tag .seqHold
  | seqRun p tag => exact row_keeping s p tag .seqRun
  | syncMode p tag f => exact row_keeping s p tag (.syncMode f)
  | captureSet p tag f => exact row_keeping s p tag (.captureSet f)
  | watermark p tag v => exact row_keeping s p tag (.watermark v)
  | focusStart p tag m => exact row_keeping s p tag (.focusStart m)
  | focusStop p tag => exact row_keeping s p tag .focusStop
  | focusArea p tag i => exact row_keeping s p tag (.focusArea i)
  | focusSetup p tag f => exact row_keeping s p tag (.focusSetup f)
  | focusResult p tag => exact row_keeping s p tag .focusResult
  | markerWrite p tag f => exact row_keeping s p tag (.markerWrite f)
  | status p tag => exact row_keeping s p tag .status
  | listRecords p tag n => exact row_keeping s p tag (.listRecords n)
  | info p tag n => exact row_keeping s p tag (.info n)
  | openPart p tag n part => exact row_keeping s p tag (.openPart n part)
  | readPart p tag h off len => exact row_keeping s p tag (.readPart h off len)
  | closeHandle p tag h => exact row_keeping s p tag (.closeHandle h)
  | tag p tag n f => exact row_keeping s p tag (.tag n f)
  | delete p tag n => exact row_keeping s p tag (.delete n)
  | develop p tag n i => exact row_keeping s p tag (.develop n i)
  | devStatus p tag j => exact row_keeping s p tag (.devStatus j)
  | toneRead p tag i => exact row_keeping s p tag (.toneRead i)
  | toneWrite p tag i first vs => exact row_keeping s p tag (.toneWrite i first vs)
  | recipeWrite p tag i f => exact row_keeping s p tag (.recipeWrite i f)
  | recipeRead p tag i => exact row_keeping s p tag (.recipeRead i)
  | devSet p tag c l => exact row_keeping s p tag (.devSet c l)
  | slotMode p tag m => exact row_keeping s p tag (.slotMode m)
  | mediaSet p tag f => exact row_keeping s p tag (.mediaSet f)
  | cardSpace p tag x first count => exact row_keeping s p tag (.cardSpace x first count)
  | cardSpaceClear p tag x => exact row_keeping s p tag (.cardSpaceClear x)
  | slotReset p tag x => exact row_keeping s p tag (.slotReset x)
  | slotDrop p tag x => exact row_keeping s p tag (.slotDrop x)
  | slotFull p tag x => exact row_keeping s p tag (.slotFull x)
  | placement p tag n => exact row_keeping s p tag (.placement n)
  | mediaStatus p tag => exact row_keeping s p tag .mediaStatus
  | sendNext p tag => exact row_keeping s p tag .sendNext
  | sendDone p tag n => exact row_keeping s p tag (.sendDone n)
  | sendFail p tag n => exact row_keeping s p tag (.sendFail n)
  | transferNext p tag => exact row_keeping s p tag .transferNext
  | transferDone p tag n => exact row_keeping s p tag (.transferDone n)
  | transferFail p tag n => exact row_keeping s p tag (.transferFail n)
  | sendSet p tag f => exact row_keeping s p tag (.sendSet f)
  | tetherQueueClear p tag => exact row_keeping s p tag .tetherQueueClear
  | portSet p tag b => exact row_keeping s p tag (.portSet b)
  | portReset p tag q => exact row_keeping s p tag (.portReset q)
  | standby p tag => exact row_keeping s p tag .standby
  | resume p tag => exact row_keeping s p tag .resume
  | wakeSet p tag f => exact row_keeping s p tag (.wakeSet f)

/-! ### Steps -/

theorem step_of_pending {s : State} {c : Instr} {rest : List Instr} (h : s.pending = c :: rest) :
    step s = exec c { s with pending := rest } := by
  unfold step
  rw [h]

theorem step_of_empty {s : State} (h : s.pending = []) : step s = .next s.tick := by
  unfold step
  rw [h]

/-- What a tick and every command from the shortened queue keep, a step keeps. The invariants do not
read the queue and the time base, which is what the first two hypotheses ask. -/
theorem step_preserves {P : State → Prop} (hpop : ∀ s rest, P s → P { s with pending := rest })
    (htick : ∀ s, P s → P s.tick) (hexec : ∀ i s t, exec i s = .next t → P s → P t) {s t : State}
    (h : step s = .next t) (hs : P s) : P t := by
  cases hp : s.pending with
  | nil =>
    rw [step_of_empty hp] at h
    cases h
    exact htick s hs
  | cons c rest =>
    rw [step_of_pending hp] at h
    exact hexec c _ t h (hpop s rest hs)

/-- Settles O1. -/
theorem stepTakesTheFront : Obligations.StepTakesTheFront :=
  ⟨fun _ _ _ => step_of_pending rfl, fun _ h => step_of_empty h⟩

/-- Settles O5: what a command keeps is `exec_outer`. -/
theorem capacitiesKept : Obligations.CapacitiesKept := fun _ _ h =>
  step_preserves (fun _ _ c => { c with }) (fun _ c => { c with })
    (fun i s t e => (exec_outer i s t e).caps) h

/-- Settles O6. -/
theorem catalogOrderKept : Obligations.CatalogOrderKept := fun _ _ h =>
  step_preserves (fun _ _ c => c) (fun _ c => c) (fun i s t e => (exec_outer i s t e).order) h

/-- Settles O7. -/
theorem replyListsKept : Obligations.ReplyListsKept := fun _ _ h =>
  step_preserves (fun _ _ c => c) (fun _ c => c) (fun i s t e => (exec_outer i s t e).replies) h

/-- Settles O8. -/
theorem dramFormKept : Obligations.DramFormKept := fun _ _ h =>
  step_preserves (fun _ _ c => c) (fun _ c => c) (fun i s t e => (exec_outer i s t e).mem) h

/-- Settles O9: the laws of the records are the first half of `Lawful`. -/
theorem recordLawsKept : Obligations.RecordLawsKept := fun _ _ h =>
  step_preserves (fun _ _ c => c) (fun _ c => c) (fun i s t e c => (exec_keeping i s t e c).1) h

/-- Runs in order with a gap between them are at most half of the blocks, rounded up. -/
theorem runsWf_length {low : Nat} {rs : List Run} (h : runsWf low rs = true)
    (hl : low ≤ Config.blockCount + 1) : low + 2 * rs.length ≤ Config.blockCount + 1 := by
  induction rs generalizing low with
  | nil => simpa using hl
  | cons r rest ih =>
    obtain ⟨hlow, hcount, hend, hrest⟩ := runsWf_cons.1 h
    have := ih hrest (by omega)
    simp only [List.length_cons]
    omega

/-- Settles O10: the second half of `Lawful`, and the bound on the runs is `runsWf_length`. -/
theorem everyBlockInOnePlace : Obligations.EveryBlockInOnePlace := by
  intro s t h hr hb
  have kept : RecordsOk t ∧ BlocksOk t :=
    step_preserves (P := fun u => RecordsOk u ∧ BlocksOk u) (fun _ _ c => c) (fun _ c => c)
      (fun i u v e c => ⟨(exec_keeping i u v e c.1).1, (exec_keeping i u v e c.1).2 c.2⟩) h ⟨hr, hb⟩
  have bound := runsWf_length kept.2.runs (Nat.zero_le _)
  refine ⟨kept.2, ?_⟩
  have hruns : (books t).freeRuns = t.freeRuns := rfl
  rw [hruns] at bound
  have hcount : Config.blockCount = 8192 := rfl
  omega

end Sys2Proof.Machine
end

section
/-! PROOFS. Full reset, and what commands leave alone: the statements that `exec_outer` gives. -/
namespace Sys2Proof.Machine

/-! ### Full reset -/

theorem caps_reset : Caps State.reset where
  catalog := by decide
  fifo := by decide
  watermarkLow := by decide
  watermarkHigh := by decide
  program := rfl
  history := by decide
  area := by decide
  recipes := rfl
  tones := rfl
  jobs := by decide
  log := by decide
  relay := by decide
  tether := by decide
  slotA := ⟨by decide, by decide⟩
  slotB := ⟨by decide, by decide⟩
  body := ⟨by decide, by decide, rfl⟩
  tetherPort := ⟨by decide, by decide, rfl⟩
  relayPort := ⟨by decide, by decide, rfl⟩

theorem catalogOk_reset : CatalogOk State.reset :=
  ⟨by decide, .nil, fun _ h => nomatch h⟩

theorem repliesOk_reset : RepliesOk State.reset := fun p => by
  cases p <;> exact ⟨rfl, fun _ h => nomatch h⟩

theorem recordsOk_reset : RecordsOk State.reset := by
  rw [RecordsOk, books_reset]
  exact
    { catalog := ⟨by decide, .nil, fun _ h => nomatch h⟩
      cards := fun _ h => nomatch h
      relayOnce := .nil
      relayFlight := by decide
      relayBound := fun _ h => nomatch h
      relayFits := fun _ h => nomatch h
      tagged := fun _ h => nomatch h
      tetherOnce := .nil
      tetherFlight := by decide
      tetherFits := fun _ h => nomatch h
      running := by decide
      begun := fun _ h => nomatch h
      jobFits := fun _ h => nomatch h
      handleFits := fun _ h => nomatch h
      frame := fun _ _ h => nomatch h }

theorem blocksOk_reset : BlocksOk State.reset := by
  rw [BlocksOk, books_reset]
  exact
    { runs := by decide
      extents := fun _ h => nomatch h
      once := fun n => by simp [covered] }

/-- Settles O2: the fields of `State.reset` one block after another, and the six invariants there. -/
theorem resetValues : Obligations.ResetValues := by
  refine ⟨?catalog, ?rsq, ?phc, ?fdr, ?lnk, ?dev, ?med, ?snq, ?prt, ?pwc, ?invariants⟩
  case catalog => exact ⟨rfl, rfl, rfl⟩
  case rsq => exact ⟨rfl, rfl, rfl, rfl, rfl, rfl, rfl, rfl, rfl, rfl, rfl, rfl, rfl⟩
  case phc => exact ⟨rfl, rfl, rfl, rfl, rfl⟩
  case fdr => exact ⟨rfl, rfl, rfl, rfl, rfl, rfl, rfl, rfl⟩
  case lnk => exact ⟨rfl, rfl, rfl, rfl, rfl, rfl⟩
  case dev => exact ⟨rfl, rfl, rfl, rfl, rfl, rfl, rfl, rfl⟩
  case med => exact ⟨rfl, rfl, fun x => by cases x <;> exact ⟨rfl, rfl, rfl, rfl, rfl⟩⟩
  case snq => exact ⟨rfl, rfl, rfl, rfl⟩
  case prt => exact ⟨rfl, fun p => by cases p <;> exact ⟨rfl, rfl, rfl, rfl, rfl⟩⟩
  case pwc => exact ⟨rfl, rfl, rfl, rfl⟩
  case invariants =>
    exact ⟨caps_reset, catalogOk_reset, repliesOk_reset, rfl, recordsOk_reset, blocksOk_reset⟩

/-- The state after reset that keeps the lines, the counter of free values and the queue. -/
def State.wiped (s : State) : State :=
  { State.reset with pins := s.pins, freeCount := s.freeCount, pending := s.pending }

/-- The state after reset once the card-detect and lens-detect lines have been read. -/
def State.detected (s : State) : State :=
  { s.wiped with
    med := { s.wiped.med with
      a := { s.wiped.med.a with state := if s.pins.cardA then .ready else .absent }
      b := { s.wiped.med.b with state := if s.pins.cardB then .ready else .absent } }
    lnk := if s.pins.lens then { s.wiped.lnk with state := .identifying, running := some .identPage0 }
      else s.wiped.lnk }

/-- The same with the supply low: the part is saved at once, with nothing left to write. -/
def State.detectedLow (s : State) : State :=
  { s.detected with
    rsq := { s.detected.rsq with state := .off, fromHold := true }
    pwc := { s.detected.pwc with power := .saving, done := true }
    prt := { s.detected.prt with
      body := { s.detected.prt.body with notices := [.saveDone 0 0] } } }

theorem detected_enterSaving (s : State) : s.detected.enterSaving = s.detectedLow := by
  obtain ⟨_, _, _, _, _, _, _, _, _, _, _, _, _, _, ⟨low, a, b, lens, half⟩, _, _⟩ := s
  cases lens <;> rfl

theorem detectedLow_settle (s : State) : s.detectedLow.settle = s.detectedLow := rfl

/-- Full reset reads the lines: a card found makes its slot READY with nothing to write, a lens is
identified, and a low supply enters SAVING. -/
theorem execFullReset_eq (s : State) :
    execFullReset s = .next (if s.pins.powerLow then s.detectedLow else s.detected) := by
  rw [← detectedLow_settle, ← detected_enterSaving]
  obtain ⟨_, _, _, _, _, _, _, _, _, _, _, _, _, _, ⟨low, a, b, lens, half⟩, _, _⟩ := s
  cases a <;> cases b <;> cases lens <;> rfl

/-- Settles O3. -/
theorem fullResetRestores : Obligations.FullResetRestores := by
  intro s
  refine ⟨_, execFullReset_eq s, ?_⟩
  have lensState : s.detected.lnk.state = if s.pins.lens then .identifying else .absent := by
    unfold State.detected
    cases s.pins.lens <;> rfl
  cases hlow : s.pins.powerLow
  case false =>
    refine ⟨fun ha hb hl _ => ?_, rfl, rfl, rfl, rfl, rfl, rfl, rfl, rfl, lensState, rfl, rfl⟩
    simp [State.detected, State.wiped, ha, hb, hl]
    rfl
  case true =>
    exact ⟨fun _ _ _ h => Bool.noConfusion h, rfl, rfl, rfl, rfl, rfl, rfl, rfl, rfl, lensState, rfl,
      rfl⟩

/-! ### What commands leave alone -/

/-- Settles O4: a command that does not go on is a transfer past the end of the buffer. -/
theorem onlyATransferPastTheBufferStops : Obligations.OnlyATransferPastTheBufferStops := by
  intro i s
  by_cases h : i = .dramTransferDone ∧
      ∃ t, s.arb.current = some t ∧ Config.bufferBytes < t.addr + t.length
  case neg =>
    have fits : i = .dramTransferDone → ∀ t, s.arb.current = some t →
        t.addr + t.length ≤ Config.bufferBytes := fun hi t ht =>
      Nat.le_of_not_lt fun past => h ⟨hi, t, ht, past⟩
    obtain ⟨t, ht, -⟩ := exec_leaves i s fits
    exact .inl ⟨t, ht⟩
  case pos =>
    obtain ⟨rfl, x, hx, hpast⟩ := h
    exact .inr ⟨rfl, x, hx, hpast, exec_transferPast s x hx hpast⟩

theorem keepsOf_dram {i : Instr} (h1 : i ≠ .dramTransferDone) (h2 : i ≠ .fullReset) :
    (keepsOf i).dram = true := by
  unfold keepsOf
  split
  · exact absurd rfl h2
  · exact absurd rfl h1
  all_goals first | rfl | skip
  unfold Keeps.ofReset
  split <;> rfl

theorem keepsOf_settings {i : Instr} (h : i.sets = false) : (keepsOf i).settings = true := by
  unfold keepsOf
  split
  · cases h
  all_goals first | rfl | skip
  · unfold Keeps.ofReset
    split <;> rfl
  · simp [h]

/-- The commands that may change a line are those of the lines. -/
theorem keepsOf_pins (i : Instr) : (keepsOf i).pins = true ∨ i = .halfPressAsserted ∨
    i = .halfPressReleased ∨ i = .lensDetectAsserted ∨ i = .lensDetectDeasserted ∨
    i = .powerLowAsserted ∨ i = .powerLowDeasserted ∨ (∃ x, i = .cardDetectAsserted x) ∨
    (∃ x, i = .cardDetectDeasserted x) ∨ ∃ x, i = .slotResetDone x .removed := by
  unfold keepsOf
  split
  case h_11 x o => cases o <;> simp [Keeps.ofReset, Keeps.all]
  all_goals simp [Keeps.writes]

/-- A transfer that completes changes no byte outside itself. -/
theorem execDramTransferDone_outside {s t : State} {x : Transfer} {a : Nat}
    (h : exec .dramTransferDone s = .next t) (hx : s.arb.current = some x) (hd : DramOk s)
    (ha : a < x.addr ∨ x.addr + x.length ≤ a) :
    Memory.read t.dram a = Memory.read s.dram a := by
  by_cases hpast : Config.bufferBytes < x.addr + x.length
  · rw [exec_transferPast s x hx hpast] at h
    cases h
  · have e : exec .dramTransferDone s = .next (s.transferDone x).settle := by
      show execDramTransferDone s = _
      unfold execDramTransferDone
      rw [hx]
      exact if_pos (Nat.le_of_not_lt hpast)
    rw [e] at h
    cases h
    obtain ⟨bs, hlen, hdram⟩ := transferDone_dram s x
    rw [(settle_inner _).dram, hdram]
    exact Memory.read_writeBytes_outside _ _ _ _ hd (by omega)

/-- Settles O11. -/
theorem dramFrame : Obligations.DramFrame := by
  refine ⟨?others, ?idle, ?inside⟩
  case others =>
    intro i s t a h h1 h2
    rw [(exec_outer i s t h).dram (keepsOf_dram h1 h2)]
  case idle =>
    intro s t h hi
    have e : exec .dramTransferDone s = .next s := by
      show execDramTransferDone s = _
      unfold execDramTransferDone
      rw [hi]
    rw [e] at h
    cases h
    rfl
  case inside =>
    intro s t x a h hx hd ha
    exact execDramTransferDone_outside h hx hd ha

/-- Settles O12. -/
theorem settingsLinesAndQueueFrame : Obligations.SettingsLinesAndQueueFrame := by
  intro i s t h
  have k := exec_outer i s t h
  refine ⟨fun hs => k.settings (keepsOf_settings hs), k.pending, ?_⟩
  exact (keepsOf_pins i).imp_left k.pins

end Sys2Proof.Machine
end

section
/-! PROOFS. What becomes of a request's frame: turned away (R150), refused (`refusal`, Safety.lean),
delivered, and received (R148, R149). -/
namespace Sys2Proof.Machine

/-! ### Turned away -/

theorem answerFrame_turnedAway {s : State} {p : Port} (h : (s.port p).replies.length < 5)
    (code : ReplyCode) (tag : Byte) (st : Status) :
    s.answerFrame p code tag st = turnedAway s p code tag st :=
  if_neg (Nat.not_le.mpr h)

/-- Settles O13: the table by its rows, and the three cases of R150 for every request's row. -/
theorem requestsTurnedAway : Obligations.RequestsTurnedAway := by
  refine ⟨fun k b => ⟨rfl, ?relay, ?tether⟩, fun r p tag s => ?cases⟩
  case relay => cases k <;> rfl
  case tether => cases k <;> cases b <;> rfl
  case cases =>
    rw [exec_row]
    refine ⟨fun hd => ?_, fun hl => ?_, fun hh hl hr => ?_, fun hh hl hr hd => ?_⟩
    · rw [takeRequest_deaf _ _ _ _ _ hd]
    · rw [takeRequest_full _ _ _ _ _ hl]
    · rw [takeRequest_busy _ _ _ _ _ hh hl hr, answerFrame_turnedAway hl]
    · rw [takeRequest_denied _ _ _ _ _ hh hl hr hd, answerFrame_turnedAway hl]

/-! ### Refused -/

@[simp] theorem firstCase_nil : firstCase [] = none := rfl

@[simp] theorem firstCase_cons (b : Bool) (reply : Status × Payload)
    (rest : List (Bool × Status × Payload)) :
    firstCase ((b, reply) :: rest) = if b then some reply else firstCase rest := rfl

/-- Taking a request changes nothing that a refusal reads. -/
theorem refusal_openRequest (s : State) (p : Port) (k : RequestKind) (tag : Byte) (r : Request) :
    refusal (s.openRequest p k tag) p r = refusal s p r := by
  cases p <;> cases r <;> rfl

theorem openPart_refused {s : State} {p : Port} {n : Nat} {part : Choice Part} {st : Status}
    {pl : Payload} (hf : refusal s p (.openPart n part) = some (st, pl)) :
    serveOpen p n part s = (s, .answer st pl) := by
  rcases part with (_ | _) | _ <;> simp only [refusal, shotCase] at hf <;>
    simp only [serveOpen, State.openHandle, refuse, badField]
  case other => simp_all
  case is.raw =>
    split at hf
    · simp_all
    · rename_i r _
      by_cases hl : r.life = .exposing <;> by_cases hs : r.raw.state = .present <;>
        cases hh : freeHandle 0 (s.port p).handles <;> simp_all
  case is.proof =>
    split at hf
    · simp_all
    · rename_i r _
      by_cases hl : r.life = .exposing <;> cases hs : r.current <;>
        cases hh : freeHandle 0 (s.port p).handles <;> simp_all

theorem readPart_refused {s : State} {p : Port} {h off len : Nat} {st : Status}
    {pl : Payload} (hf : refusal s p (.readPart h off len) = some (st, pl)) :
    serveRead p h off len s = (s, .answer st pl) := by
  simp only [refusal] at hf
  simp only [serveRead, refuse, badField]
  by_cases hn : 3 < h
  · simp_all
  · rw [if_neg hn] at hf ⊢
    cases hx : s.handle p h with
    | none => simp_all
    | some x =>
      have bad : (len = 0 || decide (16384 < len)) = (decide (len < 1) || decide (16384 < len)) := by
        simp
      simp only [hx, firstCase_cons, firstCase_nil, ← bad] at hf ⊢
      (repeat' split at hf) <;> simp_all [Nat.not_lt_of_le]

theorem tag_refused {s : State} {p : Port} {n : Nat} {f : TagFields} {st : Status}
    {pl : Payload} (hf : refusal s p (.tag n f) = some (st, pl)) :
    serveTag n f s = (s, .answer st pl) := by
  simp only [refusal] at hf
  simp only [serveTag, refuse, badField]
  cases hb : tagBad f with
  | some k => simp_all
  | none =>
    cases hr : s.namedRecord n with
    | none => simp_all [shotCase]
    | some r =>
      cases he : s.relayEntry n with
      | some e =>
        simp only [hb, hr, he, shotCase] at hf ⊢
        simp_all [State.tagRefusal, tagAdds, namedRecord_shot hr]
      | none =>
        simp only [hb, hr, he, shotCase] at hf ⊢
        by_cases ha : f.send = some true ∨ f.priority = some true
        · have hx : (f.send != some true && f.priority != some true) = false := by
            rcases ha with ha | ha <;> simp [ha]
          simp [hx] at hf
          simp only [State.tagRefusal, tagAdds, namedRecord_shot hr, he]
          by_cases hc : r.current = none <;> (repeat' split at hf) <;> simp_all
        · simp_all

/-- Where `refusal` names a reply, the block's own checks give it, and the block changes nothing. -/
theorem service_refused {s : State} {p : Port} {r : Request} {st : Status} {pl : Payload}
    (hf : refusal s p r = some (st, pl)) : r.service p s = (s, .answer st pl) := by
  cases r with
  | burstStart f =>
    simp [refusal] at hf
    simp only [Request.service, serveBurstStart, State.wakeRequest, State.serveBurst, State.burstReady, refuse]
    (repeat' split at hf) <;> simp_all
  | burstStop =>
    simp_all [refusal, Request.service, serveBurstStop, unlessSaving, refuse]
  | programWrite f =>
    simp [refusal, fieldCase] at hf
    simp only [Request.service, serveProgramWrite, unlessSaving, refuse, badField]
    (repeat' split at hf) <;> (repeat' split) <;> simp_all
  | programRead =>
    cases hf
  | seqHold =>
    simp only [refusal, firstCase_cons, firstCase_nil] at hf
    split at hf <;> simp_all [Request.service, serveSeqHold, unlessSaving, refuse]
  | seqRun =>
    simp [refusal] at hf
    simp only [Request.service, serveSeqRun, unlessSaving, refuse, badField]
    (repeat' split at hf) <;> simp_all
  | syncMode f =>
    simp [refusal] at hf
    simp only [Request.service, serveSyncMode, firstBad, refuse, badField]
    (repeat' split at hf) <;> simp_all
  | captureSet f =>
    simp [refusal, fieldCase] at hf
    simp only [Request.service, serveCaptureSet, badField]
    (repeat' split) <;> simp_all
  | watermark v =>
    cases hf
  | focusStart m =>
    simp [refusal] at hf
    simp only [Request.service, serveFocusStart, State.wakeRequest, State.serveFocus, refuse, badField]
    (repeat' split at hf) <;> simp_all
  | focusStop =>
    cases hf
  | focusArea i =>
    simp_all [refusal, Request.service, serveFocusArea, badField]
  | focusSetup f =>
    simp [refusal, fieldCase] at hf
    simp only [Request.service, serveFocusSetup, badField]
    (repeat' split) <;> simp_all
  | focusResult =>
    cases hf
  | markerWrite f =>
    simp_all [refusal, Request.service, serveMarkerWrite, badField]
  | status =>
    cases hf
  | listRecords n =>
    cases hf
  | info n =>
    simp only [refusal, shotCase] at hf
    split at hf <;> simp_all [Request.service, serveInfo, refuse]
  | openPart n part => exact openPart_refused hf
  | readPart h off len => exact readPart_refused hf
  | closeHandle h =>
    simp only [refusal, firstCase_cons, firstCase_nil] at hf
    split at hf <;> simp_all [Request.service, serveClose, refuse, badField, Nat.not_lt_of_le]
  | tag n f => exact tag_refused hf
  | delete n =>
    simp [refusal, shotCase] at hf
    simp only [Request.service, serveDelete, refuse]
    (repeat' split at hf) <;> simp_all
  | develop n i =>
    simp [refusal, shotCase] at hf
    simp only [Request.service, serveDevelop, refuse, badField]
    (repeat' split at hf) <;> simp_all [Nat.not_lt_of_le]
  | devStatus j =>
    cases j with
    | none => cases hf
    | some n =>
      simp only [refusal, firstCase_cons, firstCase_nil] at hf
      simp only [Request.service, serveDevStatus, refuse]
      cases hq : s.dev.queue.find? (fun j => j.number == n) <;>
        cases hl : s.dev.log.find? (fun r => r.number == n) <;> simp_all
  | toneRead i =>
    simp_all [refusal, Request.service, serveToneRead, badField]
  | toneWrite i first vs =>
    simp [refusal, fieldCase] at hf
    simp only [Request.service, serveToneWrite, badField]
    (repeat' split) <;> simp_all
  | recipeWrite i f =>
    simp only [refusal, fieldCase, Bool.beq_eq_decide_eq] at hf
    simp only [Request.service, serveRecipeWrite, refuse, badField]
    split at hf
    · rename_i hd
      rw [if_pos hd]
      simp_all
    · rename_i hd
      rw [if_neg hd]
      cases hb : recipeBad i f <;> simp_all
  | recipeRead i =>
    simp_all [refusal, Request.service, serveRecipeRead, badField]
  | devSet c l =>
    have range : ∀ o : Option Nat, badRange 0 3 o = decide (3 < o.getD 0) := fun o => by
      cases o <;> simp [badRange]
    simp only [refusal, firstCase_cons, firstCase_nil] at hf
    simp only [Request.service, serveDevSet, firstBad, range, badField]
    generalize decide (3 < c.getD 0) = badCard at hf ⊢
    generalize decide (3 < l.getD 0) = badRelay at hf ⊢
    cases badCard <;> cases badRelay <;> simp_all
  | slotMode m =>
    simp only [refusal, firstCase_cons, firstCase_nil] at hf
    split at hf <;> simp_all [Request.service, serveSlotMode, refuse, badField]
  | mediaSet f =>
    simp [refusal, fieldCase] at hf
    simp only [Request.service, serveMediaSet, badField]
    (repeat' split) <;> simp_all
  | cardSpace x first count =>
    simp [refusal, slotCase, fieldCase] at hf
    simp only [Request.service, serveCardSpace, withSlot, refuse, badField]
    (repeat' split at hf) <;> (repeat' split) <;> simp_all [Nat.not_le_of_lt]
  | cardSpaceClear x =>
    simp only [refusal, firstCase_cons, firstCase_nil, slotCase, fieldCase] at hf
    split at hf <;> simp_all [Request.service, serveCardSpaceClear, withSlot, refuse, badField]
  | slotReset x =>
    simp [refusal, slotCase, fieldCase] at hf
    simp only [Request.service, serveSlotReset, withSlot, refuse, badField]
    (repeat' split at hf) <;> simp_all
  | slotDrop x =>
    simp only [refusal, slotCase, fieldCase] at hf
    split at hf <;> simp_all [Request.service, serveSlotDrop, withSlot, badField]
  | slotFull x =>
    simp [refusal, slotCase, fieldCase] at hf
    simp only [Request.service, serveSlotFull, withSlot, refuse, badField]
    (repeat' split at hf) <;> (repeat' split) <;> simp_all
  | placement n =>
    simp only [refusal, shotCase] at hf
    split at hf <;> simp_all [Request.service, servePlacement, refuse]
  | mediaStatus =>
    cases hf
  | sendNext =>
    simp_all [refusal, Request.service, serveSendNext, refuse]
  | sendDone n =>
    simp only [refusal, firstCase_cons, firstCase_nil, refusal.relayCase] at hf
    split at hf <;> simp_all [Request.service, serveSendDone, settleRelay, refuse]
  | sendFail n =>
    simp only [refusal, firstCase_cons, firstCase_nil, refusal.relayCase] at hf
    split at hf <;> simp_all [Request.service, serveSendFail, settleRelay, refuse]
  | transferNext =>
    simp_all [refusal, Request.service, serveTransferNext, refuse]
  | transferDone n =>
    simp only [refusal, firstCase_cons, firstCase_nil, refusal.tetherCase] at hf
    split at hf <;> simp_all [Request.service, serveTransferDone, settleTether, refuse]
  | transferFail n =>
    simp only [refusal, firstCase_cons, firstCase_nil, refusal.tetherCase] at hf
    split at hf <;> simp_all [Request.service, serveTransferFail, settleTether, refuse]
  | sendSet f =>
    simp only [refusal, firstCase_cons, firstCase_nil] at hf
    split at hf <;> simp_all [Request.service, serveSendSet, firstBad, badField]
  | tetherQueueClear =>
    cases hf
  | portSet b =>
    simp only [refusal, firstCase_cons, firstCase_nil] at hf
    split at hf <;> simp_all [Request.service, servePortSet, badField]
  | portReset q =>
    simp only [refusal, firstCase_cons, firstCase_nil] at hf
    split at hf <;> simp_all [Request.service, servePortReset, badField]
  | standby =>
    simp [refusal] at hf
    simp only [Request.service, serveStandby, refuse]
    (repeat' split at hf) <;> simp_all
  | resume =>
    simp [refusal] at hf
    simp only [Request.service, serveResume, refuse]
    (repeat' split at hf) <;> (repeat' split) <;> simp_all
  | wakeSet f =>
    simp [refusal, fieldCase] at hf
    simp only [Request.service, serveWakeSet, badField]
    (repeat' split) <;> simp_all

/-- Settles O14. -/
theorem requestsRefused : Obligations.RequestsRefused := by
  intro r p tag s st pl ha hf
  rw [exec_row, takeRequest_plain ha tag _ st pl]
  exact service_refused ((refusal_openRequest s p r.kind tag r).trans hf)

/-! ### Delivered -/

theorem deliverReply_formed {q : PortSt} {r : Reply} {own : Bool} {rest : List ReplyEntry}
    (h : q.replies = .formed r own :: rest) :
    q.deliverReply = { q with replies := rest, request := if own then none else q.request } := by
  unfold PortSt.deliverReply
  rw [h]

theorem deliverReply_place {q : PortSt} {rest : List ReplyEntry} (h : q.replies = .place :: rest) :
    q.deliverReply = q := by
  unfold PortSt.deliverReply
  rw [h]

theorem deliverReply_nil {q : PortSt} (h : q.replies = []) : q.deliverReply = q := by
  unfold PortSt.deliverReply
  rw [h]

theorem exec_frameDelivered_reply (s : State) (p : Port) :
    exec (.frameDelivered p .reply) s = .next (s.setPort p (s.port p).deliverReply) := rfl

theorem enqueue_merged {q : PortSt} {n : Notice} (h : n.merges q.notices = true) :
    q.enqueue n = q := if_pos h

theorem enqueue_full {q : PortSt} {n : Notice} (h : n.merges q.notices = false)
    (hl : 16 ≤ q.notices.length) : q.enqueue n = { q with resync := true } := by
  unfold PortSt.enqueue
  rw [if_neg (by simp [h]), if_pos hl]

theorem enqueue_room {q : PortSt} {n : Notice} (h : n.merges q.notices = false)
    (hl : q.notices.length < 16) : q.enqueue n = { q with notices := q.notices ++ [n] } := by
  unfold PortSt.enqueue
  rw [if_neg (by simp [h]), if_neg (Nat.not_le.mpr hl)]

theorem notify_detached {s : State} (h : s.prt.attached = false) (n : Notice) :
    s.notify .tether n = s := if_neg (by simp [h])

/-- A port that is there queues the notice. -/
theorem notify_queues {s : State} {p : Port} (h : p = .tether → s.prt.attached = true) (n : Notice) :
    s.notify p n = s.setPort p ((s.port p).enqueue n) := by
  cases p with
  | body => rfl
  | relay => rfl
  | tether => exact if_pos (h rfl)

theorem output_formed {s : State} {p : Port} {r : Reply} {own : Bool} {rest : List ReplyEntry}
    (h : (s.port p).replies = .formed r own :: rest) : s.output p = .reply r := by
  unfold State.output
  rw [h]

/-- Without a formed reply at the head, a serial port sends its oldest notice. -/
theorem output_unformed {s : State} {p : Port}
    (h : ∀ r own rest, (s.port p).replies ≠ .formed r own :: rest) :
    s.output p = if p = .tether then .nothing
      else ((s.port p).notices.head?.map Output.notice).getD .nothing := by
  unfold State.output
  split
  · rename_i r own rest e
    exact absurd e (h r own rest)
  · cases p <;> cases (State.port s _).notices <;> rfl

theorem outputBytes_reply {s : State} {p : Port} {r : Reply} (h : s.output p = .reply r) :
    s.outputBytes p = r.frame := by
  unfold State.outputBytes
  rw [h]

theorem outputBytes_notice {s : State} {p : Port} {n : Notice} (h : s.output p = .notice n) :
    s.outputBytes p = n.frame := by
  unfold State.outputBytes
  rw [h]

theorem outputBytes_nothing {s : State} {p : Port} (h : s.output p = .nothing) :
    s.outputBytes p = if p = .tether then [] else [0] := by
  unfold State.outputBytes
  rw [h]

/-- Settles O15. -/
theorem noticesAndDelivery : Obligations.NoticesAndDelivery := by
  refine ⟨fun p s => ?delivered, fun s p n => ?queued, fun s p => ?sent⟩
  case delivered =>
    simp only [exec_frameDelivered_reply]
    refine ⟨fun r own rest h => ?_, fun rest h => ?_, fun h => ?_, fun hp => ?_, rfl⟩
    · rw [deliverReply_formed h]
    · rw [deliverReply_place h, State.setPort_port]
    · rw [deliverReply_nil h, State.setPort_port]
    · cases p with
      | tether => exact absurd rfl hp
      | body => rfl
      | relay => rfl
  case queued =>
    refine ⟨fun hp hd => ?_, fun ha => ?_⟩
    · subst hp
      exact notify_detached hd n
    · rw [notify_queues ha]
      refine ⟨fun h => ?_, fun h hl => ?_, fun h hl => ?_⟩
      · rw [enqueue_merged h, State.setPort_port]
      · rw [enqueue_full h hl]
      · rw [enqueue_room h hl]
  case sent =>
    refine ⟨fun r own rest h => ?_, fun n rest hp hu hn => ?_, fun hp hu hn => ?_, fun hp hu => ?_,
      rfl, ?_⟩
    · exact ⟨output_formed h, outputBytes_reply (output_formed h)⟩
    · have e : s.output p = .notice n := by rw [output_unformed hu, if_neg hp, hn]; rfl
      exact ⟨e, outputBytes_notice e⟩
    · have e : s.output p = .nothing := by rw [output_unformed hu, if_neg hp, hn]; rfl
      exact ⟨e, (outputBytes_nothing e).trans (if_neg hp)⟩
    · have e : s.output p = .nothing := by rw [output_unformed hu, if_pos hp]
      exact ⟨e, (outputBytes_nothing e).trans (if_pos hp)⟩
    · cases p <;> simp [State.attention]

/-! ### Received -/

theorem goodFrame_service (s : State) (p : Port) (bs : List Byte) (r : Request) :
    s.goodFrame p bs (some r) = s.takeNamed p (byteAt bs 2) r := rfl

/-- What a port makes of a whole frame (R149, R150). -/
theorem execFrameReceived_whole {s : State} {p : Port} {bytes bs : List Byte} (asks : Option Request)
    (hh : s.hears p = true) (hbs : dropFill p bytes = bs) (hlen : 8 ≤ bs.length)
    (hover : oversize bs = false) (hwhole : bs.length = 8 + frameLength bs) :
    exec (.frameReceived p bytes asks) s =
      .next (if frameBad bs then s.answerBad p bs else s.goodFrame p bs asks) := by
  have serial : ∀ q, s.serialFrame q bs asks =
      if frameBad bs then s.answerBad q bs else s.goodFrame q bs asks := fun q => by
    unfold State.serialFrame
    rw [if_neg (Nat.not_lt.mpr hlen), if_neg (by simp [hover]), if_neg (by simp [← hwhole])]
  have tether : s.tetherFrame bs asks =
      if frameBad bs then s.answerBad .tether bs else s.goodFrame .tether bs asks := by
    unfold State.tetherFrame
    simp [hover, ← hwhole, Nat.not_lt.mpr hlen]
  show execFrameReceived p bytes asks s = _
  unfold execFrameReceived
  rw [if_pos hh]
  cases p with
  | body => rw [hbs, serial]
  | relay => rw [hbs, serial]
  | tether =>
    cases hbs
    exact congrArg _ tether

theorem execFrameReceived_good {s : State} {p : Port} {bytes : List Byte} (asks : Option Request)
    (hh : s.hears p = true) (hg : GoodFrame (dropFill p bytes)) :
    exec (.frameReceived p bytes asks) s = .next (s.goodFrame p (dropFill p bytes) asks) := by
  obtain ⟨hlen, hover, hwhole, hgood⟩ := hg
  rw [execFrameReceived_whole asks hh rfl hlen hover hwhole, if_neg (by simp [hgood])]

theorem execFrameReceived_bad {s : State} {p : Port} {bytes : List Byte} (asks : Option Request)
    (hh : s.hears p = true) (hb : BadFrame (dropFill p bytes)) :
    exec (.frameReceived p bytes asks) s = .next (s.answerBad p (dropFill p bytes)) := by
  obtain ⟨hlen, hover, hwhole, hbad⟩ := hb
  rw [execFrameReceived_whole asks hh rfl hlen hover hwhole, if_pos hbad]

theorem answerBad_whole {s : State} {p : Port} {bs : List Byte} (hl : (s.port p).replies.length < 5)
    (h8 : 8 ≤ bs.length) : s.answerBad p bs =
      turnedAway s p (.received (byteAt bs 1)) (byteAt bs 2) .frameBad := by
  unfold State.answerBad badCode badTag
  rw [if_neg (by omega), if_neg (by omega), answerFrame_turnedAway hl]

/-- A serial port that hears is not deaf. -/
theorem setDeaf_hearing {s : State} {p : Port} (hp : p ≠ .tether) (hh : s.hears p = true) :
    s.setDeaf p false = s := by
  have hd : (s.port p).deaf = false := by
    cases p with
    | tether => exact absurd rfl hp
    | body => simpa [State.hears, State.port] using hh
    | relay => simpa [State.hears, State.port] using hh
  unfold State.setDeaf
  rw [← hd, State.setPort_port]

theorem execSelectDeasserted_serial {p : Port} (hp : p ≠ .tether) (bytes : List Byte) (s : State) :
    exec (.selectDeasserted p bytes) s = if s.hears p && partFrame (dropFill p bytes)
      then .next ((s.setDeaf p false).answerBad p (dropFill p bytes))
      else .next (s.setDeaf p false) := by
  cases p with
  | tether => exact absurd rfl hp
  | body => rfl
  | relay => rfl

theorem execOversizeHeaderReceived_serial {p : Port} (hp : p ≠ .tether) (bytes : List Byte)
    (s : State) : exec (.oversizeHeaderReceived p bytes) s =
      if s.hears p && (dropFill p bytes).length == 8 && oversize (dropFill p bytes)
        then .next (s.oversizeFrame p (dropFill p bytes)) else .next s := by
  cases p with
  | tether => exact absurd rfl hp
  | body => rfl
  | relay => rfl

/-- Settles O16. -/
theorem framesReceived : Obligations.FramesReceived := by
  refine ⟨fun p bytes s hh hg => ⟨fun r => ?request, fun hl => ?unnamed⟩,
    fun p bytes asks s => ⟨fun hh hl hb => ?bad, fun hp hh hl hpart => ?short,
      fun hp hn => ?rest, fun hp hh hl h8 ho => ?oversize⟩⟩
  case request =>
    exact ⟨_, execFrameReceived_good (some r) hh hg, exec_row_named r p _ s⟩
  case unnamed =>
    rw [execFrameReceived_good none hh hg]
    exact congrArg _ (answerFrame_turnedAway hl _ _ _)
  case bad =>
    rw [execFrameReceived_bad asks hh hb, answerBad_whole hl hb.1]
  case short =>
    rw [execSelectDeasserted_serial hp, if_pos (by simp [hh, hpart]), setDeaf_hearing hp hh]
    exact congrArg _ (answerFrame_turnedAway hl _ _ _)
  case rest =>
    rw [execSelectDeasserted_serial hp, if_neg (by simpa using fun h => hn.resolve_left (by simp [h]))]
    rfl
  case oversize =>
    rw [execOversizeHeaderReceived_serial hp, if_pos (by simp [hh, h8, ho])]
    unfold State.oversizeFrame
    rw [answerBad_whole hl (by omega)]
    rfl

end Sys2Proof.Machine
end

section
/-! PROOFS. A request that is taken and served: what its command answers, from its service alone. -/
namespace Sys2Proof.Machine

/-! ### Taking a request leaves everything but its port alone -/

@[simp] theorem openRequest_catalog (s : State) (p : Port) (k : RequestKind) (tag : Byte) : (s.openRequest p k tag).catalog = s.catalog := s.setPort_catalog p _
@[simp] theorem openRequest_nextShot (s : State) (p : Port) (k : RequestKind) (tag : Byte) : (s.openRequest p k tag).nextShot = s.nextShot := s.setPort_nextShot p _
@[simp] theorem openRequest_freeRuns (s : State) (p : Port) (k : RequestKind) (tag : Byte) : (s.openRequest p k tag).freeRuns = s.freeRuns := s.setPort_freeRuns p _
@[simp] theorem openRequest_dram (s : State) (p : Port) (k : RequestKind) (tag : Byte) : (s.openRequest p k tag).dram = s.dram := s.setPort_dram p _
@[simp] theorem openRequest_arb (s : State) (p : Port) (k : RequestKind) (tag : Byte) : (s.openRequest p k tag).arb = s.arb := s.setPort_arb p _
@[simp] theorem openRequest_rsq (s : State) (p : Port) (k : RequestKind) (tag : Byte) : (s.openRequest p k tag).rsq = s.rsq := s.setPort_rsq p _
@[simp] theorem openRequest_phc (s : State) (p : Port) (k : RequestKind) (tag : Byte) : (s.openRequest p k tag).phc = s.phc := s.setPort_phc p _
@[simp] theorem openRequest_fdr (s : State) (p : Port) (k : RequestKind) (tag : Byte) : (s.openRequest p k tag).fdr = s.fdr := s.setPort_fdr p _
@[simp] theorem openRequest_lnk (s : State) (p : Port) (k : RequestKind) (tag : Byte) : (s.openRequest p k tag).lnk = s.lnk := s.setPort_lnk p _
@[simp] theorem openRequest_dev (s : State) (p : Port) (k : RequestKind) (tag : Byte) : (s.openRequest p k tag).dev = s.dev := s.setPort_dev p _
@[simp] theorem openRequest_med (s : State) (p : Port) (k : RequestKind) (tag : Byte) : (s.openRequest p k tag).med = s.med := s.setPort_med p _
@[simp] theorem openRequest_snq (s : State) (p : Port) (k : RequestKind) (tag : Byte) : (s.openRequest p k tag).snq = s.snq := s.setPort_snq p _
@[simp] theorem openRequest_pwc (s : State) (p : Port) (k : RequestKind) (tag : Byte) : (s.openRequest p k tag).pwc = s.pwc := s.setPort_pwc p _
@[simp] theorem openRequest_pins (s : State) (p : Port) (k : RequestKind) (tag : Byte) : (s.openRequest p k tag).pins = s.pins := s.setPort_pins p _
@[simp] theorem openRequest_attached (s : State) (p : Port) (k : RequestKind) (tag : Byte) : (s.openRequest p k tag).prt.attached = s.prt.attached := s.setPort_attached p _
@[simp] theorem openRequest_slot (s : State) (p : Port) (k : RequestKind) (tag : Byte) (x : Slot) : (s.openRequest p k tag).slot x = s.slot x := s.slot_setPort p _ x
@[simp] theorem openRequest_handles (s : State) (p q : Port) (k : RequestKind) (tag : Byte) : ((s.openRequest p k tag).port q).handles = (s.port q).handles := by
  cases p <;> cases q <;> rfl

@[simp] theorem openRequest_request (s : State) (p : Port) (k : RequestKind) (tag : Byte) :
    ((s.openRequest p k tag).port p).request = some ⟨k, tag, .answered⟩ := by
  simp [State.openRequest]

@[simp] theorem openRequest_replies (s : State) (p : Port) (k : RequestKind) (tag : Byte) :
    ((s.openRequest p k tag).port p).replies = (s.port p).replies ++ [.place] := by
  simp [State.openRequest]

theorem openRequest_port_other (s : State) {p q : Port} (h : q ≠ p) (k : RequestKind) (tag : Byte) :
    (s.openRequest p k tag).port q = s.port q :=
  s.port_setPort_other p q _ h

/-- A notice and the taking of a request touch different fields of a port. -/
theorem openRequest_notify (s : State) (p q : Port) (k : RequestKind) (tag : Byte) (n : Notice) :
    (s.openRequest p k tag).notify q n = (s.notify q n).openRequest p k tag := by
  have opened : ∀ r : PortSt, ({ r with
      request := some ⟨k, tag, .answered⟩, replies := r.replies ++ [.place] } : PortSt).enqueue n =
      { r.enqueue n with
        request := some ⟨k, tag, .answered⟩, replies := (r.enqueue n).replies ++ [.place] } := by
    intro r
    unfold PortSt.enqueue
    dsimp only
    split
    · rfl
    · split <;> rfl
  cases ha : s.prt.attached <;> cases p <;> cases q <;>
    simp [State.notify, State.openRequest, State.setPort, State.port, opened, ha]

/-! ### The command of a request from its service -/

/-- A request whose service commutes with the taking of it, the port's list apart. -/
theorem exec_answered {s : State} {p : Port} {r : Request} (ha : Accepts s p r.kind) {tag : Byte}
    {t : State} {st : Status} {pl : Payload}
    (hs : r.service p (s.openRequest p r.kind tag) = (t.openRequest p r.kind tag, .answer st pl))
    (hl : (t.port p).replies = (s.port p).replies := by rfl) :
    exec (r.row p tag) s = .next (answered t p r.kind tag st pl) := by
  rw [exec_row, takeRequest_replied ha tag _ _ st pl hs (by simp) (by simp [hl])]
  simp [State.openRequest, answered, hl]

/-- A request whose service is made of operations that touch only the notices of the ports. -/
theorem exec_replied {s u : State} {p : Port} {r : Request} (ha : Accepts s p r.kind) {tag : Byte}
    {st : Status} {pl : Payload}
    (hs : r.service p (s.openRequest p r.kind tag) = (u, .answer st pl))
    (hi : SamePorts (s.openRequest p r.kind tag) u) :
    ∃ t, exec (r.row p tag) s = .next t ∧ RepliedIn s t p r.kind tag st pl ∧ OthersKept s t p ∧
      (t.port p).handles = (s.port p).handles ∧ ∃ q, t = u.setPort p q := by
  have same := hi.port p
  refine ⟨_, by rw [exec_row, takeRequest_replied ha tag _ u st pl hs (by simp [same.request])
    (by simp [same.replies])], by constructor <;> simp, fun q hq => ?_, by simp [same.handles], _, rfl⟩
  have other := hi.port q
  rw [State.port_setPort_other _ _ _ _ hq, other.request, other.replies, other.handles,
    openRequest_port_other s hq]
  exact ⟨rfl, rfl, rfl⟩

/-- A request whose service waits. -/
theorem exec_waits {s : State} {p : Port} {r : Request} (ha : Accepts s p r.kind) {tag : Byte}
    {t : State} {g : Stage}
    (hs : r.service p (s.openRequest p r.kind tag) = (t.openRequest p r.kind tag, .waits g)) :
    exec (r.row p tag) s = .next (waiting t p r.kind tag g).grant := by
  rw [exec_row, takeRequest_served ha, hs]
  simp [State.settleRequest, State.setStage, State.openRequest, waiting]

end Sys2Proof.Machine
end

section
/-! PROOFS. The requests of bursts, the readout program and the capture settings (chapter 2). -/
namespace Sys2Proof.Machine

theorem unlessSaving_awake {s : State} (h : s.pwc.power ≠ .saving) (f : State → State × Served) :
    unlessSaving s f = f s := if_neg h

theorem port_of_prt {s t : State} (h : t.prt = s.prt) (p : Port) : t.port p = s.port p := by
  cases p <;> simp [State.port, h]

/-! ### BURST_START -/

theorem wakeRequest_active {s : State} (h : s.pwc.power = .active) (x : Held)
    (serve : State → State × Served) : s.wakeRequest x serve = serve s := by
  unfold State.wakeRequest
  rw [h]

/-- The origin of a burst that a port asks for (R34). -/
def burstOrigin (p : Port) : Origin := if p = .body then .body else .tether

theorem serveBurst_ready {s : State} (ha : s.rsq.burst.active = false)
    (hs : s.rsq.state = .idle ∨ s.rsq.state = .view) (p : Port) (f : BurstFields) :
    s.serveBurst p f =
      (s.acceptBurst (burstOrigin p) f.count (clamp 31 30000000 f.exposure)
        (clamp 50 60000 f.interval),
      .answer .ok (.burst s.rsq.nextBurst (clamp 31 30000000 f.exposure)
        (clamp 50 60000 f.interval))) := by
  have ready : s.burstReady = true := by
    unfold State.burstReady
    rcases hs with h | h <;> simp [ha, h]
  unfold State.serveBurst
  rw [if_neg (by simp [ha]), if_pos ready]
  cases p <;> rfl

theorem openRequest_acceptBurst (s : State) (p : Port) (k : RequestKind) (tag : Byte) (o : Origin)
    (count exposure interval : Nat) :
    (s.openRequest p k tag).acceptBurst o count exposure interval =
      (s.acceptBurst o count exposure interval).openRequest p k tag := by
  unfold State.acceptBurst State.abandonView
  rw [openRequest_rsq]
  split <;> cases p <;> rfl

/-- A burst accepted, with the burst identifiers and the time base as they stood before (R34). -/
theorem acceptBurst_eq (s : State) (o : Origin) (count exposure interval : Nat) :
    s.acceptBurst o count exposure interval =
      { s.abandonView with rsq := { s.abandonView.rsq with
          latch := false,
          nextBurst := if 65535 ≤ s.rsq.nextBurst then 1 else s.rsq.nextBurst + 1,
          burst := { active := true, id := s.rsq.nextBurst, origin := o, count := count,
                     exposure := exposure, interval := interval, started := 0, completed := 0,
                     stopMark := false, due := s.rsq.timeBase, missed := false } } } := by
  unfold State.acceptBurst State.abandonView
  split <;> rfl

theorem acceptBurst_prt (s : State) (o : Origin) (count exposure interval : Nat) :
    (s.acceptBurst o count exposure interval).prt = s.prt := by
  unfold State.acceptBurst State.abandonView
  dsimp only
  split <;> rfl

/-- Settles O25. -/
theorem burstStartTaken : Obligations.BurstStartTaken := by
  intro s p tag f ha hpow hact hstate e i v
  have served : (Request.burstStart f).service p (s.openRequest p .burstStart tag) =
      ((s.acceptBurst (burstOrigin p) f.count e i).openRequest p .burstStart tag,
        .answer .ok (.burst s.rsq.nextBurst e i)) := by
    show serveBurstStart p f _ = _
    rw [serveBurstStart, wakeRequest_active (by simpa using hpow),
      serveBurst_ready (by simpa using hact) (by simpa using hstate), openRequest_acceptBurst,
      openRequest_rsq]
    rfl
  have taken := exec_answered ha served
    (congrArg PortSt.replies (port_of_prt (acceptBurst_prt s _ _ _ _) p))
  rw [acceptBurst_eq] at taken
  exact taken

/-! ### Wakes -/

theorem openRequest_hold (s : State) (p : Port) (k : RequestKind) (tag : Byte) (x : Held) :
    (s.openRequest p k tag).hold x = (s.hold x).openRequest p k tag := by
  cases p <;> rfl

theorem openRequest_enterWaking (s : State) (p : Port) (k : RequestKind) (tag : Byte)
    (w : WakeSource) :
    (s.openRequest p k tag).enterWaking w = (s.enterWaking w).openRequest p k tag := by
  cases p <;> rfl

theorem wakeRequest_waking {s : State} (h : s.pwc.power = .waking) (x : Held)
    (serve : State → State × Served) : s.wakeRequest x serve = (s.hold x, .waits .wakeHeld) := by
  unfold State.wakeRequest
  rw [h]

theorem wakeRequest_standby {s : State} (h : s.pwc.power = .standby)
    (hr : s.pwc.settings.request = true) (x : Held) (serve : State → State × Served) :
    s.wakeRequest x serve = ((s.enterWaking .request).hold x, .waits .wakeHeld) := by
  unfold State.wakeRequest
  rw [h]
  exact if_pos hr

/-- A wake source's request while the part is WAKING, or in STANDBY with the enable on, is held. -/
theorem exec_wakeHeld {s : State} {p : Port} {r : Request} {x : Held}
    {serve : State → State × Served} (ha : Accepts s p r.kind) (tag : Byte)
    (hs : ∀ u, r.service p u = u.wakeRequest x serve) :
    (s.pwc.power = .waking → exec (r.row p tag) s =
      .next (waiting (s.hold x) p r.kind tag .wakeHeld).grant) ∧
    (s.pwc.power = .standby → s.pwc.settings.request = true → exec (r.row p tag) s =
      .next (waiting ((s.enterWaking .request).hold x) p r.kind tag .wakeHeld).grant) := by
  refine ⟨fun h => exec_waits ha ?_, fun h hr => exec_waits ha ?_⟩
  · rw [hs, wakeRequest_waking (by simpa using h), openRequest_hold]
  · rw [hs, wakeRequest_standby (by simpa using h) (by simpa using hr), openRequest_enterWaking,
      openRequest_hold]

/-- Settles O26: the refusals are `requestsRefused`, the rest is `exec_wakeHeld`. -/
theorem wakeRequests : Obligations.WakeRequests := by
  intro s p tag held woken i k h hi ha
  have both : ∀ {r : Request} {x : Held} {serve : State → State × Served}, Accepts s p r.kind →
      (∀ u, r.service p u = u.wakeRequest x serve) →
      (s.pwc.power = .saving → refusal s p r = some (.saving, .empty)) →
      (s.pwc.power = .standby → s.pwc.settings.request = false →
        refusal s p r = some (.state, .empty)) →
      (s.pwc.power = .saving → exec (r.row p tag) s =
        .next (answered s p r.kind tag .saving .empty)) ∧
      (s.pwc.power = .waking → exec (r.row p tag) s = .next (held r.kind x s)) ∧
      (s.pwc.power = .standby → s.pwc.settings.request = true →
        exec (r.row p tag) s = .next (held r.kind x woken)) ∧
      (s.pwc.power = .standby → s.pwc.settings.request = false → exec (r.row p tag) s =
        .next (answered s p r.kind tag .state .empty)) := by
    intro r x serve ha hs hsaving hasleep
    exact ⟨fun hp => requestsRefused r p tag s _ _ ha (hsaving hp), (exec_wakeHeld ha tag hs).1,
      (exec_wakeHeld ha tag hs).2,
      fun hp hr => requestsRefused r p tag s _ _ ha (hasleep hp hr)⟩
  rcases hi with ⟨f, rfl, rfl, rfl⟩ | ⟨m, rfl, rfl, rfl⟩
  · exact both (r := .burstStart f) ha (fun _ => rfl) (fun hp => by simp [refusal, hp])
      (fun hp hr => by simp [refusal, hp, hr])
  · exact both (r := .focusStart m) ha (fun _ => rfl) (fun hp => by simp [refusal, hp])
      (fun hp hr => by simp [refusal, hp, hr])

end Sys2Proof.Machine
end

section
/-! PROOFS. The other requests of the sequencer (chapter 2). -/
namespace Sys2Proof.Machine

/-! ### The records at the end of a change -/

/-- A record without its proof versions: the start of a job changes nothing else of it. -/
def Record.bare (r : Record) : Record := { r with versions := [], lastVersion := 0 }

/-- The catalogs agree but for versions. -/
def SameBare (s t : State) : Prop := t.catalog.map Record.bare = s.catalog.map Record.bare

theorem SameBare.trans {a b c : State} (h : SameBare a b) (k : SameBare b c) : SameBare a c :=
  Eq.trans k h

theorem modRecord_bare (s : State) (n : Nat) (g : Record → Record)
    (hg : ∀ r, (g r).bare = r.bare := by intro r; rfl) : SameBare s (s.modRecord n g) := by
  show List.map _ (List.map _ _) = _
  rw [List.map_map]
  refine List.map_congr_left fun r _ => ?_
  simp only [Function.comp]
  split
  · exact hg r
  · rfl

theorem tryJobs_bare (s : State) (js : List Job) : SameBare s (s.tryJobs js) := by
  induction js generalizing s with
  | nil => rfl
  | cons j rest ih =>
    unfold State.tryJobs
    split
    · exact ih s
    · split
      · exact ih s
      · split
        · exact ih s
        · dsimp only
          split
          · exact modRecord_bare s _ _
          · exact SameBare.trans (b := s.setSpaceWait j) rfl (ih _)
          · exact SameBare.trans (b := s.setSpaceWait j) rfl (ih _)

theorem grant_catalog (s : State) : s.grant.catalog = s.catalog := by
  unfold State.grant
  split
  · rfl
  · split <;> rfl

theorem settle_bare (s : State) : SameBare s s.settle := by
  show s.attemptJob.grant.catalog.map _ = _
  rw [grant_catalog]
  unfold State.attemptJob
  split
  · dsimp only
    split
    · exact SameBare.trans (b := { s with dev := { s.dev with attemptDue := false } }) rfl
        (tryJobs_bare _ _)
    · rfl
  · rfl

theorem SameBare.find {s t : State} (h : SameBare s t) (n : Nat) :
    (t.findRecord n).map Record.bare = (s.findRecord n).map Record.bare := by
  have found : ∀ l : List Record, (l.find? fun r => r.shot == n).map Record.bare =
      (l.map Record.bare).find? fun r => r.shot == n := by
    intro l
    rw [List.find?_map]
    rfl
  show (t.catalog.find? _).map _ = (s.catalog.find? _).map _
  rw [found, found, h]

theorem SameBare.find_none {s t : State} (h : SameBare s t) {n : Nat}
    (hn : s.findRecord n = none) : t.findRecord n = none := by
  have found := h.find n
  rw [hn] at found
  exact Option.map_eq_none_iff.mp found

/-! ### A request that leaves the rest of the part aside -/

theorem Aside.trans {a b c : State} (h : Aside a b) (k : Aside b c) : Aside a c :=
  ⟨k.phc.trans h.phc, k.med.trans h.med, k.pwc.trans h.pwc, k.relay.trans h.relay,
    k.dram.trans h.dram, k.pins.trans h.pins, k.settings.trans h.settings⟩

theorem setPort_aside (s : State) (p : Port) (q : PortSt) : Aside s (s.setPort p q) :=
  ⟨by simp, by simp, by simp, by simp, by simp, by simp, setPort_settings s p q⟩

theorem Calm.aside {s t : State} (h : Calm s t) (i : Inner s t) : Aside s t :=
  ⟨h.phc, h.med, h.pwc, h.relay, i.dram, i.pins, i.settings⟩

/-- A served request that touches only what releases, starts of jobs and notices reach. -/
theorem exec_replied_aside {s u : State} {p : Port} {r : Request} (ha : Accepts s p r.kind)
    {tag : Byte} {st : Status} {pl : Payload}
    (hs : r.service p (s.openRequest p r.kind tag) = (u, .answer st pl))
    (hi : Inner (s.openRequest p r.kind tag) u) (hc : Calm (s.openRequest p r.kind tag) u) :
    ∃ t, exec (r.row p tag) s = .next t ∧ RepliedIn s t p r.kind tag st pl ∧ OthersKept s t p ∧
      Aside s t ∧ t.rsq = u.rsq ∧ t.fdr = u.fdr ∧ t.lnk = u.lnk := by
  obtain ⟨t, he, hr, ho, -, q, rfl⟩ := exec_replied ha hs hi.ports
  exact ⟨_, he, hr, ho, ((setPort_aside s p _).trans (hc.aside hi)).trans (setPort_aside u p q),
    by simp, by simp, by simp⟩

/-! ### The end of a burst -/

@[simp] theorem setSeq_rsq (s : State) (q : SeqState) :
    (s.setSeq q).rsq = { s.rsq with state := q } := by
  unfold State.setSeq
  split <;> rfl

@[simp] theorem setSeq_catalog (s : State) (q : SeqState) : (s.setSeq q).catalog = s.catalog := by
  unfold State.setSeq
  split <;> rfl

theorem setSeq_fdr_lnk (s : State) (q : SeqState) :
    (s.setSeq q).fdr = s.fdr ∧ (s.setSeq q).lnk = s.lnk := by
  unfold State.setSeq
  split <;> exact ⟨rfl, rfl⟩

theorem setSeq_calm (s : State) (q : SeqState) : Calm s (s.setSeq q) := by
  unfold State.setSeq
  split <;> exact .plain

theorem notifyBodyTether_calm (s : State) (n : Notice) : Calm s (s.notifyBodyTether n) :=
  (notify_calm s _ n).trans (notify_calm _ _ n)

theorem endBurst_calm (s : State) (why : BurstEndReason) : Calm s (s.endBurst why) := by
  unfold State.endBurst
  split
  · refine .trans ?_ (notifyBodyTether_calm _ _)
    exact .plain
  · exact .refl s

theorem endBurst_rsq {s : State} (h : s.rsq.burst.active = true) (why : BurstEndReason) :
    (s.endBurst why).rsq = { s.rsq with
      burst := { s.rsq.burst with active := false, missed := false }, latch := false } := by
  unfold State.endBurst
  rw [if_pos h, (notifyBodyTether_front _ _).rsq]

theorem endBurst_inactive (s : State) (why : BurstEndReason) :
    (s.endBurst why).rsq.burst.active = false := by
  by_cases h : s.rsq.burst.active = true
  · rw [endBurst_rsq h]
  · unfold State.endBurst
    rw [if_neg h]
    simpa using h

theorem endBurst_fdr_lnk (s : State) (why : BurstEndReason) :
    (s.endBurst why).fdr = s.fdr ∧ (s.endBurst why).lnk = s.lnk := by
  unfold State.endBurst
  split
  · exact ⟨(notifyBodyTether_front _ _).fdr, (notifyBodyTether_front _ _).lnk⟩
  · exact ⟨rfl, rfl⟩

theorem openRequest_notifyBodyTether (s : State) (p : Port) (k : RequestKind) (tag : Byte)
    (n : Notice) :
    (s.openRequest p k tag).notifyBodyTether n = (s.notifyBodyTether n).openRequest p k tag := by
  unfold State.notifyBodyTether
  rw [openRequest_notify, openRequest_notify]

theorem openRequest_setRsq (s : State) (p : Port) (k : RequestKind) (tag : Byte) (q : Rsq) :
    ({ s.openRequest p k tag with rsq := q } : State) =
      ({ s with rsq := q } : State).openRequest p k tag := by
  cases p <;> rfl

theorem openRequest_endBurst (s : State) (p : Port) (k : RequestKind) (tag : Byte)
    (why : BurstEndReason) :
    (s.openRequest p k tag).endBurst why = (s.endBurst why).openRequest p k tag := by
  unfold State.endBurst
  rw [openRequest_rsq, openRequest_setRsq, openRequest_notifyBodyTether]
  split <;> rfl

theorem serveBurstStop_awake {s : State} (h : s.pwc.power ≠ .saving) :
    serveBurstStop s = if !s.rsq.burst.active then okWith s .empty
      else match s.rsq.state with
        | .idle => okWith (s.endBurst .stop) .empty
        | .stalled _ => okWith ((s.endBurst .stop).setSeq .idle).settle .empty
        | _ => okWith { s with rsq := { s.rsq with
            burst := { s.rsq.burst with stopMark := true } } } .empty :=
  unlessSaving_awake h _

/-- Settles O27. -/
theorem burstStopTaken : Obligations.BurstStopTaken := by
  intro s p tag ha hpow
  let o := s.openRequest p .burstStop tag
  have served := serveBurstStop_awake (s := o) (by simpa [o] using hpow)
  refine ⟨fun hb => ?_, fun hb hi => ?_, fun r hb hr => ?_, fun hb hf => ?_⟩
  · exact exec_answered (r := .burstStop) ha (served.trans (by simp [o, hb, okWith, Request.kind]))
  · refine Eq.trans (exec_answered (r := .burstStop) (t := s.endBurst .stop) (st := .ok)
      (pl := .empty) ha (served.trans ?_) ((endBurst_inner s .stop).ports.port p).replies) ?_
    · simp only [o, openRequest_rsq, hb, hi, openRequest_endBurst]
      rfl
    · unfold State.endBurst
      rw [if_pos hb]
      rfl
  · obtain ⟨t, he, hrep, ho, hside, hq, hf, hl⟩ := exec_replied_aside (r := .burstStop)
      (u := ((o.endBurst .stop).setSeq .idle).settle) (st := .ok) (pl := .empty) ha
      (served.trans (by simp [o, hb, hr, okWith]))
      (((endBurst_inner o .stop).trans (setSeq_inner _ _)).trans (settle_inner _))
      (((endBurst_calm o .stop).trans (setSeq_calm _ _)).trans (settle_calm _))
    refine ⟨t, he, hrep, ?_, hside, ho, ?_, ?_⟩
    · rw [hq, (settle_front _).rsq, setSeq_rsq, endBurst_rsq (by simpa [o] using hb)]
      simp [o]
    · rw [hf, (settle_front _).fdr, (setSeq_fdr_lnk _ _).1, (endBurst_fdr_lnk _ _).1]
      simp [o]
    · rw [hl, (settle_front _).lnk, (setSeq_fdr_lnk _ _).2, (endBurst_fdr_lnk _ _).2]
      simp [o]
  · refine exec_answered (r := .burstStop) ha (served.trans ?_)
    rcases hf with h | h | h <;> simp only [o, openRequest_rsq, hb, h, openRequest_setRsq] <;> rfl

/-! ### The readout program -/

/-- Settles O28. -/
theorem readoutProgramRequests : Obligations.ReadoutProgramRequests := by
  intro s p tag
  refine ⟨fun f ha hpow hh hb => ?_, fun f n ha hpow hh hb => ?_, fun f ha hpow hh => ?_,
    fun ha => ?_, fun ha hpow hh hstill hview => ?_⟩
  · refine exec_answered (r := .programWrite f) ha ?_
    show serveProgramWrite f _ = _
    rw [serveProgramWrite, unlessSaving_awake (by simpa using hpow)]
    simp only [openRequest_rsq, hh, hb, openRequest_setRsq, okWith]
    rfl
  · exact requestsRefused (.programWrite f) p tag s _ _ ha (by simp [refusal, hpow, hh, hb, fieldCase])
  · exact requestsRefused (.programWrite f) p tag s _ _ ha (by simp [refusal, hpow, hh])
  · exact exec_answered (r := .programRead) ha (by
      show serveProgramRead _ = _
      rw [serveProgramRead, openRequest_rsq]
      rfl)
  · refine exec_answered (r := .seqRun) ha ?_
    show serveSeqRun _ = _
    rw [serveSeqRun, unlessSaving_awake (by simpa using hpow)]
    simp only [openRequest_rsq, hh, hstill, hview]
    unfold State.setSeq
    simp only [openRequest_rsq, hh, openRequest_setRsq, okWith]
    rfl

/-! ### SEQ_HOLD -/

theorem retrySpace_eq_self {s : State} (h : NotStalled s) : s.retrySpace = s := by
  have awake : s.stalledForSpace = false := by
    unfold State.stalledForSpace
    split
    case h_1 e => exact absurd e (h _)
    case h_2 e => exact absurd e (h _)
    case h_3 => rfl
  unfold State.retrySpace
  rw [awake]
  rfl

theorem retryCatalog_eq_self {s : State} (h : NotStalled s) : s.retryCatalog = s := if_neg (h _)

/-- A free outside a stall gives the blocks back and makes an attempt due (R7, R99). -/
theorem free_eq {s : State} (h : NotStalled s) (es : List Run) :
    s.free es = if es = [] then s
      else { s with freeRuns := insertRuns s.freeRuns es, dev := { s.dev with attemptDue := true } } := by
  unfold State.free
  split
  · rfl
  · exact retrySpace_eq_self h

theorem free_catalog {s : State} (h : NotStalled s) (es : List Run) :
    (s.free es).catalog = s.catalog := by
  rw [free_eq h]
  split <;> rfl

theorem filter_shot_find (l : List Record) (n : Nat) :
    ((l.filter fun q => q.shot != n).find? fun r => r.shot == n) = none := by
  simp [List.find?_eq_none]

/-- Outside a stall a removed record is gone. -/
theorem removeRecord_gone {s : State} (h : NotStalled s) (n : Nat) :
    (s.removeRecord n).findRecord n = none := by
  unfold State.removeRecord
  split
  · assumption
  · next r hr =>
    have still : NotStalled (({ s with catalog := s.catalog.filter fun q => q.shot != n } :
        State).free r.blocks) := fun x hx => h x (by
      rw [(free_quiet { s with catalog := s.catalog.filter fun q => q.shot != n } r.blocks
        (h : NotStalled { s with catalog := s.catalog.filter fun q => q.shot != n })).rsq] at hx
      exact hx)
    rw [retryCatalog_eq_self still]
    show List.find? _ (State.catalog _) = none
    rw [free_catalog (s := { s with catalog := s.catalog.filter fun q => q.shot != n }) h]
    exact filter_shot_find _ n

theorem discardRsq_rsq (s : State) : s.discardRsq.rsq = s.rsq := by
  unfold State.discardRsq
  split
  · split <;> rfl
  · rfl

theorem emptyFifo_rsq (s : State) :
    s.emptyFifo.rsq = { s.rsq with fifo := [], owed := [], rowBytes := 0 } := by
  unfold State.emptyFifo
  rw [(signalChanged_front _ _).rsq, discardRsq_rsq]

theorem discardRsq_calm (s : State) : Calm s s.discardRsq := by
  unfold State.discardRsq
  split
  · exact .ite .plain (.refl s)
  · exact .refl s

theorem emptyFifo_calm (s : State) : Calm s s.emptyFifo := by
  refine .trans ?_ (signalChanged_calm _ _)
  exact .trans (b := { s with rsq := { s.rsq with fifo := [], owed := [], rowBytes := 0 } })
    .plain (discardRsq_calm _)

/-- A still frame abandoned outside a stall (R31): nothing of it is left. -/
theorem abandonStill_facts {s : State} (h : NotStalled s) {f : Frame} (hf : s.rsq.frame = some f) :
    s.abandonStill.rsq = { s.rsq with frame := none, fifo := [], owed := [], rowBytes := 0 } ∧
      s.abandonStill.findRecord f.shot = none ∧ s.abandonStill.med = s.med ∧
      s.abandonStill.pwc = s.pwc := by
  let u : State := ({ s with rsq := { s.rsq with frame := none } } : State).emptyStore.emptyFifo
  have opened : s.abandonStill = u.removeRecord f.shot := by
    unfold State.abandonStill
    rw [hf]
  have urs : u.rsq = { s.rsq with frame := none, fifo := [], owed := [], rowBytes := 0 } :=
    emptyFifo_rsq _
  have calm : Calm (State.emptyStore { s with rsq := { s.rsq with frame := none } })
      (u.removeRecord f.shot) := (emptyFifo_calm _).trans (removeRecord_calm _ _)
  have still : NotStalled u := fun x hx => h x (by rw [urs] at hx; exact hx)
  rw [opened]
  exact ⟨(removeRecord_quiet u f.shot still).rsq.trans urs, removeRecord_gone still f.shot, calm.med,
    calm.pwc⟩

theorem endBurst_frame (s : State) (why : BurstEndReason) :
    (s.endBurst why).rsq.state = s.rsq.state ∧ (s.endBurst why).rsq.frame = s.rsq.frame ∧
      (s.endBurst why).rsq.fifo = s.rsq.fifo ∧ (s.endBurst why).rsq.owed = s.rsq.owed := by
  by_cases h : s.rsq.burst.active = true
  · rw [endBurst_rsq h]
    exact ⟨rfl, rfl, rfl, rfl⟩
  · unfold State.endBurst
    rw [if_neg h]
    exact ⟨rfl, rfl, rfl, rfl⟩

theorem notifyBodyTether_catalog (s : State) (n : Notice) :
    (s.notifyBodyTether n).catalog = s.catalog := by
  unfold State.notifyBodyTether
  rw [notify_catalog, notify_catalog]

theorem endBurst_catalog (s : State) (why : BurstEndReason) :
    (s.endBurst why).catalog = s.catalog := by
  unfold State.endBurst
  split
  · exact notifyBodyTether_catalog _ _
  · rfl

theorem findRecord_congr {s t : State} (h : t.catalog = s.catalog) (n : Nat) :
    t.findRecord n = s.findRecord n := congrArg (List.find? _) h

/-- What SEQ_HOLD leaves of the capture side (R31). -/
structure HoldReached (s u : State) : Prop where
  inner : Inner s u
  state : u.rsq.state = .hold
  med : u.med = s.med
  pwc : u.pwc = s.pwc
  burst : s.rsq.state ≠ .hold → s.rsq.state ≠ .view → u.rsq.burst.active = false
  gone : ∀ f, s.rsq.frame = some f →
    (s.rsq.state = .focusWait ∨ s.rsq.state = .expose ∨ s.rsq.state = .readout) →
    u.rsq.frame = none ∧ u.rsq.fifo = [] ∧ u.rsq.owed = [] ∧ u.findRecord f.shot = none

/-- A still frame in progress is abandoned and its burst ends. -/
theorem holdReached_still {s : State} : HoldReached s
    ((s.setSeq .hold).abandonStill.endBurst .hold).settle := by
  have still : NotStalled (s.setSeq .hold) := fun r hr => by simp at hr
  have calm := setSeq_calm s .hold
  have last := settle_calm ((s.setSeq .hold).abandonStill.endBurst .hold)
  have ended := endBurst_calm (s.setSeq .hold).abandonStill .hold
  have rsq := (settle_front ((s.setSeq .hold).abandonStill.endBurst .hold)).rsq
  obtain ⟨bstate, bframe, bfifo, bowed⟩ := endBurst_frame (s.setSeq .hold).abandonStill .hold
  have inner : Inner s ((s.setSeq .hold).abandonStill.endBurst .hold).settle :=
    (((setSeq_inner s .hold).trans (abandonStill_inner _)).trans (endBurst_inner _ _)).trans
      (settle_inner _)
  have burst : ((s.setSeq .hold).abandonStill.endBurst .hold).settle.rsq.burst.active = false := by
    rw [rsq]
    exact endBurst_inactive _ _
  cases hf : s.rsq.frame with
  | none =>
    have kept : (s.setSeq .hold).abandonStill = s.setSeq .hold := by
      unfold State.abandonStill
      simp [hf]
    refine ⟨inner, ?_, ?_, ?_, fun _ _ => burst, fun f h => ?_⟩
    · rw [rsq, bstate, kept, setSeq_rsq]
    · rw [last.med, ended.med, kept, calm.med]
    · rw [last.pwc, ended.pwc, kept, calm.pwc]
    · rw [hf] at h
      cases h
  | some f =>
    obtain ⟨arsq, agone, amed, apwc⟩ := abandonStill_facts still (f := f) (by simp [hf])
    refine ⟨inner, ?_, ?_, ?_, fun _ _ => burst, fun g hg _ => ?_⟩
    · rw [rsq, bstate, arsq, setSeq_rsq]
    · rw [last.med, ended.med, amed, calm.med]
    · rw [last.pwc, ended.pwc, apwc, calm.pwc]
    · rw [hf] at hg
      cases hg
      rw [rsq, bframe, bfifo, bowed, arsq]
      refine ⟨rfl, rfl, rfl, (settle_bare _).find_none ?_⟩
      rw [findRecord_congr (endBurst_catalog _ _)]
      exact agone

/-- A burst between frames or in a stall ends. -/
theorem endBurst_setSeq_reached (s : State) :
    Inner s ((s.endBurst .hold).setSeq .hold) ∧ Calm s ((s.endBurst .hold).setSeq .hold) ∧
      ((s.endBurst .hold).setSeq .hold).rsq.state = .hold ∧
      ((s.endBurst .hold).setSeq .hold).rsq.burst.active = false :=
  ⟨(endBurst_inner s _).trans (setSeq_inner _ _), (endBurst_calm s _).trans (setSeq_calm _ _),
    by simp, by rw [setSeq_rsq]; exact endBurst_inactive s .hold⟩

theorem serveSeqHold_view {s : State} (hp : s.pwc.power ≠ .saving) (h : s.rsq.state = .view) :
    serveSeqHold s = okWith
      { s with rsq := { s.rsq with state := .hold, frame := none },
               phc := { s.phc with snapshot := none, store := [] } } .empty := by
  unfold serveSeqHold
  rw [unlessSaving_awake hp]
  simp only [h]
  unfold State.abandonView
  rw [if_pos h]
  rfl

theorem serveSeqHold_reached {s : State} (hp : s.pwc.power ≠ .saving) (hoff : s.rsq.state ≠ .off) :
    ∃ u, serveSeqHold s = okWith u .empty ∧ HoldReached s u := by
  have idle := endBurst_setSeq_reached s
  cases h : s.rsq.state with
  | off => exact absurd h hoff
  | hold =>
    refine ⟨s, ?_, .refl s, h, rfl, rfl, by simp [h], by simp [h]⟩
    rw [serveSeqHold, unlessSaving_awake hp]
    simp only [h]
  | view =>
    exact ⟨_, serveSeqHold_view hp h, .plain rfl rfl rfl rfl rfl fun c => { c with }, rfl, rfl, rfl,
      by simp [h], by simp [h]⟩
  | idle =>
    obtain ⟨inner, calm, state, burst⟩ := idle
    refine ⟨_, ?_, inner, state, calm.med, calm.pwc, fun _ _ => burst, by simp [h]⟩
    rw [serveSeqHold, unlessSaving_awake hp]
    simp only [h]
  | stalled r =>
    obtain ⟨inner, calm, state, burst⟩ := idle
    have rsq := (settle_front ((s.endBurst .hold).setSeq .hold)).rsq
    refine ⟨((s.endBurst .hold).setSeq .hold).settle, ?_, inner.trans (settle_inner _),
      rsq ▸ state, ((settle_calm _).med).trans calm.med, ((settle_calm _).pwc).trans calm.pwc,
      fun _ _ => rsq ▸ burst, by simp [h]⟩
    rw [serveSeqHold, unlessSaving_awake hp]
    simp only [h]
  | focusWait | expose | readout =>
    refine ⟨_, ?_, holdReached_still⟩
    rw [serveSeqHold, unlessSaving_awake hp]
    simp only [h]

/-- Settles O29. -/
theorem seqHoldTaken : Obligations.SeqHoldTaken := by
  intro s p tag ha hpow
  refine ⟨fun h => ?_, fun h => ?_, fun h => ?_, fun h => ?_⟩
  · exact requestsRefused .seqHold p tag s _ _ ha (by simp [refusal, hpow, h])
  · refine exec_answered (r := .seqHold) ha ?_
    show serveSeqHold _ = _
    rw [serveSeqHold, unlessSaving_awake (by simpa using hpow), openRequest_rsq]
    simp only [h]
    rfl
  · refine exec_answered (r := .seqHold) ha ?_
    show serveSeqHold _ = _
    rw [serveSeqHold_view (by simpa using hpow) (by simpa using h)]
    cases p <;> rfl
  · obtain ⟨u, hu, reached⟩ := serveSeqHold_reached (s := s.openRequest p .seqHold tag)
      (by simpa using hpow) (by simpa using h)
    obtain ⟨t, he, hr, ho, -, q, rfl⟩ := exec_replied (r := .seqHold) ha hu reached.inner.ports
    refine ⟨_, he, hr, ?_, ho, ?_, ?_, ?_, ?_⟩
    · simpa using reached.state
    · simpa using reached.med
    · simpa using reached.pwc
    · simpa using reached.burst
    · simpa [State.findRecord] using reached.gone

/-! ### Sync, capture settings and the watermark -/

theorem checkFocusWait_of_ne {s : State} (h : s.rsq.state ≠ .focusWait) : s.checkFocusWait = s :=
  if_neg h

theorem startNext_rsq (s : State) : s.startNext.rsq = s.rsq := by
  unfold State.startNext
  split
  · rfl
  · split
    · rfl
    · rfl
    · split <;> rfl

end Sys2Proof.Machine
end

section
/-! PROOFS. The focus drive's operations on the link, and the capture settings that end a focus
wait. -/
namespace Sys2Proof.Machine

/-! ### What the drive's operations reach -/

/-- Only the lens link differs, and neither its state nor what identification learnt, nor the position. -/
structure LinkOnly (s t : State) : Prop where
  rest : { t with lnk := s.lnk } = s
  state : t.lnk.state = s.lnk.state
  descriptor : t.lnk.descriptor = s.lnk.descriptor
  position : t.lnk.position = s.lnk.position

theorem LinkOnly.refl (s : State) : LinkOnly s s := ⟨rfl, rfl, rfl, rfl⟩

theorem LinkOnly.trans {a b c : State} (h : LinkOnly a b) (k : LinkOnly b c) : LinkOnly a c :=
  ⟨by
    have hb := h.rest
    have hc := congrArg (fun u : State => { u with lnk := a.lnk }) k.rest
    exact Eq.trans hc hb,
    k.state.trans h.state, k.descriptor.trans h.descriptor, k.position.trans h.position⟩

theorem LinkOnly.rsq {s t : State} (h : LinkOnly s t) : t.rsq = s.rsq :=
  (congrArg State.rsq h.rest :)

theorem LinkOnly.fdr {s t : State} (h : LinkOnly s t) : t.fdr = s.fdr :=
  (congrArg State.fdr h.rest :)

theorem startNext_link (s : State) : LinkOnly s s.startNext := by
  unfold State.startNext
  split
  · exact .refl s
  · split
    · exact ⟨rfl, rfl, rfl, rfl⟩
    · exact ⟨rfl, rfl, rfl, rfl⟩
    · split
      · exact ⟨rfl, rfl, rfl, rfl⟩
      · exact .refl s

theorem queueMove_link (s : State) (step cls : Nat) : LinkOnly s (s.queueMove step cls) :=
  .trans (b := { s with lnk := { s.lnk with pendMove := some ⟨step, cls⟩, latched := some cls } })
    ⟨rfl, rfl, rfl, rfl⟩ (startNext_link _)

/-- The target of a computed step (R75, R78). -/
def targetOf (d : Descriptor) (v : Int) (predicted : Bool) : Target :=
  ⟨clampInt d.page0.pmin d.page0.pmax v, predicted,
    decide (v < d.page0.pmin) || decide ((d.page0.pmax : Int) < v)⟩

theorem setTarget_link (s : State) (d : Descriptor) (v : Int) (b : Bool) :
    LinkOnly { s with fdr := { s.fdr with target := some (targetOf d v b) } }
      (s.setTarget d v b) := by
  unfold State.setTarget
  dsimp only
  split
  · exact .refl _
  · exact queueMove_link _ _ _

/-- No prediction is due (R81, R82). -/
def Unpredicted (s : State) : Prop :=
  s.fdr.mode ≠ .continuous ∨ s.fdr.history = [] ∨
    (s.fdr.state ≠ .acquiring ∧ s.fdr.state ≠ .tracking)

/-- No MOVE waits or is to be sent again (R83). -/
def Unmoved (l : Lnk) : Prop := l.pendMove = none ∧ ∀ m, l.running ≠ some (.move m true)

/-- The beginning of an exposure leaves a session as it stands, but for its prediction. -/
structure SameSession (s t : State) : Prop where
  linkState : t.lnk.state = s.lnk.state
  asleep : s.lnk.state ≠ .ready → t.lnk = s.lnk
  mode : t.fdr.mode = s.fdr.mode
  state : t.fdr.state = s.fdr.state
  history : t.fdr.history = s.fdr.history
  lowCount : t.fdr.lowCount = s.fdr.lowCount
  scan : t.fdr.scan = s.fdr.scan
  area : t.fdr.area = s.fdr.area
  target : Unpredicted s → t.fdr.target = s.fdr.target
  noMove : Unpredicted s → s.lnk.pendMove = none → t.lnk.pendMove = none
  unmoved : Unpredicted s → Unmoved s.lnk → Unmoved t.lnk

/-- An update of nothing that `SameSession` speaks of. -/
theorem SameSession.plain {s t : State} (hl : t.lnk = s.lnk := by rfl)
    (hm : t.fdr.mode = s.fdr.mode := by rfl) (hs : t.fdr.state = s.fdr.state := by rfl)
    (hh : t.fdr.history = s.fdr.history := by rfl) (hc : t.fdr.lowCount = s.fdr.lowCount := by rfl)
    (hn : t.fdr.scan = s.fdr.scan := by rfl) (ha : t.fdr.area = s.fdr.area := by rfl)
    (ht : t.fdr.target = s.fdr.target := by rfl) : SameSession s t :=
  ⟨hl ▸ rfl, fun _ => hl, hm, hs, hh, hc, hn, ha, fun _ => ht, fun _ h => hl ▸ h, fun _ h => hl ▸ h⟩

theorem SameSession.refl (s : State) : SameSession s s := .plain

theorem SameSession.unpredicted {s t : State} (h : SameSession s t) (hu : Unpredicted s) :
    Unpredicted t := by
  unfold Unpredicted
  rw [h.mode, h.history, h.state]
  exact hu

theorem SameSession.trans {a b c : State} (h : SameSession a b) (k : SameSession b c) :
    SameSession a c where
  linkState := k.linkState.trans h.linkState
  asleep := fun hr => (k.asleep (h.linkState.symm ▸ hr)).trans (h.asleep hr)
  mode := k.mode.trans h.mode
  state := k.state.trans h.state
  history := k.history.trans h.history
  lowCount := k.lowCount.trans h.lowCount
  scan := k.scan.trans h.scan
  area := k.area.trans h.area
  target := fun hu => (k.target (h.unpredicted hu)).trans (h.target hu)
  noMove := fun hu hm => k.noMove (h.unpredicted hu) (h.noMove hu hm)
  unmoved := fun hu hm => k.unmoved (h.unpredicted hu) (h.unmoved hu hm)

theorem startNext_session (s : State) : SameSession s s.startNext := by
  unfold State.startNext
  split
  case isTrue => exact .refl s
  case isFalse hr =>
    have ready : s.lnk.state = .ready := by
      cases h : s.lnk.state <;> simp_all
    split
    case h_1 =>
      exact ⟨rfl, fun h => absurd ready h, rfl, rfl, rfl, rfl, rfl, rfl, fun _ => rfl, fun _ h => h,
        fun _ h => ⟨h.1, nofun⟩⟩
    case h_2 m _ hm =>
      exact ⟨rfl, fun h => absurd ready h, rfl, rfl, rfl, rfl, rfl, rfl, fun _ => rfl, fun _ _ => rfl,
        fun _ h => nomatch h.1.symm.trans hm⟩
    case h_3 =>
      split
      · exact ⟨rfl, fun h => absurd ready h, rfl, rfl, rfl, rfl, rfl, rfl, fun _ => rfl, fun _ h => h,
          fun _ h => ⟨h.1, nofun⟩⟩
      · exact .refl s

theorem applyPrediction_session {s : State} (d : Descriptor) (hm : s.fdr.mode = .continuous)
    (hs : s.fdr.state = .acquiring ∨ s.fdr.state = .tracking) (hr : s.lnk.state = .ready) :
    SameSession s (s.applyPrediction d) := by
  unfold State.applyPrediction
  split
  case h_1 => exact .refl s
  case h_2 v two hp =>
    have link := setTarget_link s d v two
    have some : ¬ Unpredicted s := by
      rintro (h | h | ⟨h, k⟩)
      · exact h hm
      · rw [h] at hp
        cases hp
      · exact hs.elim h k
    refine ⟨link.state, fun h => absurd hr h, ?_, ?_, ?_, ?_, ?_, ?_, fun h => absurd h some,
      fun h => absurd h some, fun h => absurd h some⟩ <;> rw [link.fdr]

theorem giveMidpoint_session (s : State) (mid : Time) : SameSession s (s.giveMidpoint mid) := by
  have base : SameSession s { s with fdr := { s.fdr with nextMid := mid } } := .plain
  unfold State.giveMidpoint
  dsimp only
  split
  case h_1 hm hl _ =>
    split
    case isTrue hs => exact base.trans (applyPrediction_session _ hm (by simpa using hs) hl)
    case isFalse => exact base
  case h_2 => exact base

theorem applyPrediction_rsq (s : State) (d : Descriptor) : (s.applyPrediction d).rsq = s.rsq := by
  unfold State.applyPrediction
  split
  · rfl
  · exact (setTarget_link s d _ _).rsq

theorem giveMidpoint_rsq (s : State) (mid : Time) : (s.giveMidpoint mid).rsq = s.rsq := by
  unfold State.giveMidpoint
  dsimp only
  split
  · split
    · exact applyPrediction_rsq _ _
    · rfl
  · rfl

theorem exposureStart_session (s : State) (mid : Time) : SameSession s (s.exposureStart mid) := by
  unfold State.exposureStart
  dsimp only
  split
  case isTrue hr =>
    refine .trans ?_ (startNext_session _)
    exact ⟨rfl, fun h => absurd hr h, rfl, rfl, rfl, rfl, rfl, rfl, fun _ => rfl, fun _ h => h,
      fun _ h => h⟩
  case isFalse => exact .plain

theorem exposureStart_rsq (s : State) (mid : Time) : (s.exposureStart mid).rsq = s.rsq := by
  unfold State.exposureStart
  dsimp only
  split
  · exact (startNext_link _).rsq
  · rfl

/-- The frame that an exposure begins (R43). -/
def exposedFrame (s : State) (f : Frame) : Frame :=
  { f with exposureStart := s.now, exposure := s.rsq.burst.exposure,
           midpoint := s.now + BitVec.ofNat 32 (s.rsq.burst.exposure / 2), program := .exposing }

theorem enterExpose_rsq {s : State} {f : Frame} (hf : s.rsq.frame = some f) :
    s.enterExpose.rsq = { s.rsq with state := .expose, frame := some (exposedFrame s f) } := by
  unfold State.enterExpose
  rw [hf]
  dsimp only
  rw [giveMidpoint_rsq, exposureStart_rsq]
  rfl

theorem enterExpose_session (s : State) : SameSession s s.enterExpose := by
  unfold State.enterExpose
  split
  · exact .refl s
  · refine .trans ?_ ((exposureStart_session _ _).trans (giveMidpoint_session _ _))
    exact .plain

/-! ### Sync, capture settings and the watermark -/

theorem openRequest_setPhc (s : State) (p : Port) (k : RequestKind) (tag : Byte) (q : Phc) :
    ({ s.openRequest p k tag with phc := q } : State) =
      ({ s with phc := q } : State).openRequest p k tag := by
  cases p <;> rfl

theorem openRequest_setFdr (s : State) (p : Port) (k : RequestKind) (tag : Byte) (q : Fdr) :
    ({ s.openRequest p k tag with fdr := q } : State) =
      ({ s with fdr := q } : State).openRequest p k tag := by
  cases p <;> rfl

theorem SamePorts.of_prt {s t : State} (h : t.prt = s.prt) : SamePorts s t := by
  constructor <;> rw [h]
  all_goals exact .refl _

theorem badChoice_of_ne {α : Type} {c : Option (Choice α)} (h : c ≠ some .other) :
    badChoice c = false := by
  unfold badChoice
  split <;> simp_all

theorem serveSyncMode_ok {s : State} {f : SyncFields} (hm : f.mode ≠ some .other)
    (hp : f.polarity ≠ some .other)
    (hb : s.rsq.burst.active = false ∨ pick s.rsq.syncMode f.mode = s.rsq.syncMode) :
    serveSyncMode f s = okWith { s with rsq := { s.rsq with
        syncMode := pick s.rsq.syncMode f.mode, polarity := pick s.rsq.polarity f.polarity,
        latch := s.rsq.latch && (pick s.rsq.syncMode f.mode == s.rsq.syncMode &&
          pick s.rsq.polarity f.polarity == s.rsq.polarity) } }
      (.sync (pick s.rsq.syncMode f.mode) (pick s.rsq.polarity f.polarity)) := by
  have free : (s.rsq.burst.active && pick s.rsq.syncMode f.mode != s.rsq.syncMode) = false := by
    rcases hb with h | h <;> simp [h]
  unfold serveSyncMode
  simp only [badChoice_of_ne hm, badChoice_of_ne hp, free]
  rfl

theorem serveCaptureSet_ok {s : State} {f : CaptureFields} (hb : captureBad f = none) :
    serveCaptureSet f s = okWith
      (if s.rsq.state = .focusWait && !(captureSettings s.rsq.settings f).priority then
        State.enterExpose { s with rsq := { s.rsq with settings := captureSettings s.rsq.settings f } }
      else { s with rsq := { s.rsq with settings := captureSettings s.rsq.settings f } })
      (.capture (captureSettings s.rsq.settings f)) := by
  unfold serveCaptureSet
  simp only [hb]

/-- Settles O30. -/
theorem captureSettingRequests : Obligations.CaptureSettingRequests := by
  intro s p tag
  refine ⟨?_, fun f ha hbad hw => ?_, fun f ha hbad hst hfr hprio => ?_,
    fun v ha => ?_⟩
  · intro f ha hm hp m e hb
    refine exec_answered (r := .syncMode f) ha ?_
    show serveSyncMode f _ = _
    rw [serveSyncMode_ok hm hp (by simpa using hb), openRequest_rsq, openRequest_setRsq]
    rfl
  · refine exec_answered (r := .captureSet f) ha ?_
    show serveCaptureSet f _ = _
    rw [serveCaptureSet_ok hbad, openRequest_rsq, openRequest_setRsq, if_neg (by
      rcases hw with h | h <;> simp [h])]
    rfl
  · let o := s.openRequest p .captureSet tag
    let u : State := { o with rsq := { o.rsq with settings := captureSettings o.rsq.settings f } }
    obtain ⟨g, hg⟩ := Option.isSome_iff_exists.mp hfr
    have drive := enterExpose_rsq (s := u) (f := g) (by simpa [u, o] using hg)
    have served : serveCaptureSet f o = okWith u.enterExpose
        (.capture (captureSettings s.rsq.settings f)) := by
      rw [serveCaptureSet_ok hbad, openRequest_rsq, if_pos (by simp [hst, hprio])]
      simp only [u, o, openRequest_rsq]
    obtain ⟨t, he, hr, -, -, q, rfl⟩ := exec_replied (r := .captureSet f) ha served
      ((SamePorts.of_prt rfl : SamePorts o u).trans (enterExpose_inner u).ports)
    exact ⟨_, he, by rw [State.setPort_rsq, drive], hr⟩
  · let o := s.openRequest p .watermark tag
    let u : State := { o with rsq := { o.rsq with watermark := watermarkOf v } }
    let w : State := (u.signalChanged o.watermarkSignal).settle
    have front : Front u w := (signalChanged_front u _).trans (settle_front _)
    have calm : Calm o w :=
      (.trans (b := u) .plain ((signalChanged_calm u _).trans (settle_calm _)))
    obtain ⟨t, he, hr, ho, -, q, rfl⟩ := exec_replied (r := .watermark v) (u := w) (st := .ok)
      (pl := .watermark (watermarkOf v)) ha rfl
      ((SamePorts.of_prt rfl : SamePorts o u).trans
        ((signalChanged_inner u _).trans (settle_inner _)).ports)
    refine ⟨_, he, hr, ?_, ?_, ?_, ?_, ?_, ?_, ?_, ho⟩
    · rw [State.setPort_rsq, front.rsq]
      simp only [u, o, openRequest_rsq]
      rfl
    · rw [State.setPort_fdr, front.fdr]
      exact openRequest_fdr ..
    · rw [State.setPort_lnk, front.lnk]
      exact openRequest_lnk ..
    · rw [State.setPort_phc, calm.phc]
      exact openRequest_phc ..
    · rw [State.setPort_med, calm.med]
      exact openRequest_med ..
    · rw [State.setPort_pwc, calm.pwc]
      exact openRequest_pwc ..
    · rw [State.setPort_snq, calm.relay]
      exact congrArg Snq.relay (openRequest_snq ..)

end Sys2Proof.Machine
end

section
/-! PROOFS. Focus sessions and settings (chapters 3 and 4). -/
namespace Sys2Proof.Machine

/-! ### Changes of the focus state -/

theorem checkFocusWait_session (s : State) : SameSession s s.checkFocusWait := by
  have expired : SameSession s s.markExpired.enterExpose := by
    refine .trans ?_ (enterExpose_session _)
    unfold State.markExpired
    split
    · exact .refl s
    · exact .plain
  unfold State.checkFocusWait
  split
  case isFalse => exact .refl s
  case isTrue =>
    split
    case h_1 => exact enterExpose_session s
    case h_2 | h_3 | h_4 | h_5 => exact expired
    case h_6 | h_7 =>
      split
      · exact enterExpose_session s
      · exact .refl s

theorem setFocusState_session (s : State) (st : FocusState) :
    SameSession { s with fdr := { s.fdr with state := st } } (s.setFocusState st) := by
  unfold State.setFocusState
  split
  case isTrue h =>
    subst h
    exact checkFocusWait_session s
  case isFalse =>
    refine .trans ?_ (checkFocusWait_session _)
    have front := notifyBodyTether_front { s with fdr := { s.fdr with state := st } }
      (.focusState st s.fdr.mode)
    exact .plain (hl := front.lnk) (hm := congrArg Fdr.mode front.fdr)
      (hs := congrArg Fdr.state front.fdr) (hh := congrArg Fdr.history front.fdr)
      (hc := congrArg Fdr.lowCount front.fdr) (hn := congrArg Fdr.scan front.fdr)
      (ha := congrArg Fdr.area front.fdr) (ht := congrArg Fdr.target front.fdr)

/-! ### Sessions -/

/-- The focus state that the link gives a new session (R76). -/
def sessionState (l : LinkState) : FocusState :=
  match l with
  | .ready => .acquiring
  | .lost => .lensLost
  | .identifying => .lensLost
  | .absent => .noLens

/-- The state of a new session before the state of the focus is set. -/
def cleared (s : State) : State :=
  (if s.fdr.mode = .manual then s.dropMove else s).clearFocus

theorem startSession_session (s : State) :
    SameSession { cleared s with fdr := { (cleared s).fdr with state := sessionState s.lnk.state } }
      s.startSession := by
  have link : (cleared s).lnk.state = s.lnk.state := by
    unfold cleared
    split <;> rfl
  unfold State.startSession
  change SameSession _ (match (cleared s).lnk.state with
    | .ready => (cleared s).setFocusState .acquiring
    | .lost => (cleared s).setFocusState .lensLost
    | .identifying => (cleared s).setFocusState .lensLost
    | .absent => (cleared s).setFocusState .noLens)
  rw [link]
  cases s.lnk.state <;> exact setFocusState_session _ _

theorem dropMove_unmoved (s : State) : Unmoved s.dropMove.lnk := by
  refine ⟨rfl, fun m h => ?_⟩
  unfold State.dropMove at h
  dsimp only at h
  split at h
  · cases h
  · next hn => exact hn m true h

/-- What a new session begins with (R76). -/
structure NewSession (s w : State) : Prop where
  mode : w.fdr.mode = s.fdr.mode
  state : w.fdr.state = sessionState s.lnk.state
  history : w.fdr.history = []
  lowCount : w.fdr.lowCount = 0
  scan : w.fdr.scan = .none
  target : w.fdr.target = none
  manual : s.fdr.mode = .manual → Unmoved w.lnk
  ident : s.lnk.state = .identifying → s.lnk.running = some .identPage0 →
    w.lnk.state = .identifying ∧ w.lnk.running = some .identPage0

theorem cleared_mode (s : State) : (cleared s).fdr.mode = s.fdr.mode := by
  unfold cleared
  split <;> rfl

theorem startSession_new (s : State) : NewSession s s.startSession := by
  have same := startSession_session s
  have quiet : Unpredicted
      { cleared s with fdr := { (cleared s).fdr with state := sessionState s.lnk.state } } :=
    .inr (.inl rfl)
  refine ⟨same.mode.trans (cleared_mode s), same.state, same.history, same.lowCount, same.scan,
    same.target quiet, fun hm => same.unmoved quiet ?_, fun hl hr => ?_⟩
  · show Unmoved (cleared s).lnk
    unfold cleared
    rw [if_pos hm]
    exact dropMove_unmoved s
  · have kept : (cleared s).lnk.state = .identifying ∧ (cleared s).lnk.running = some .identPage0 := by
      unfold cleared State.dropMove
      split <;> simp [State.clearFocus, hl, hr]
    have link : s.startSession.lnk = (cleared s).lnk := same.asleep (by simp [kept.1])
    rw [link]
    exact kept

/-- FOCUS_START served in ACTIVE: a new session after a LOST link began its identification. -/
theorem serveFocus_new {s : State} {m : Option (Choice FocusMode)} (hm : m ≠ some .other) :
    s.serveFocus m = okWith
      (State.retryLost { s with fdr := { s.fdr with mode := pick s.fdr.mode m } }).startSession
      (.focus (State.retryLost
          { s with fdr := { s.fdr with mode := pick s.fdr.mode m } }).startSession.fdr.mode
        (State.retryLost
          { s with fdr := { s.fdr with mode := pick s.fdr.mode m } }).startSession.fdr.state) := by
  unfold State.serveFocus
  rw [if_neg (by simp [badChoice_of_ne hm])]

/-- The link state that a FOCUS_START finds once a LOST link is retried (R71). -/
theorem retryLost_state (s : State) : s.retryLost.lnk.state =
    (if s.lnk.state = .lost then .identifying else s.lnk.state) := by
  unfold State.retryLost
  split <;> rfl

theorem retryLost_fdr (s : State) : s.retryLost.fdr = s.fdr := by
  unfold State.retryLost
  split <;> rfl

theorem endSession_session (s : State) : SameSession
    { s.dropMove with fdr := { s.fdr with target := none, scan := .none, state := .off } }
    s.endSession :=
  setFocusState_session { s.dropMove with fdr := { s.fdr with target := none, scan := .none } } .off

/-- Settles O31. -/
theorem focusSessions : Obligations.FocusSessions := by
  intro s p tag
  refine ⟨?_, fun ha hpow => ?_, fun ha => ?_⟩
  · intro m ha hpow hm st
    let o := s.openRequest p .focusStart tag
    let v : State := { o with fdr := { o.fdr with mode := pick o.fdr.mode m } }
    let u := v.retryLost
    have served : serveFocusStart p m o =
        okWith u.startSession (.focus u.startSession.fdr.mode u.startSession.fdr.state) := by
      rw [serveFocusStart, wakeRequest_active (by simpa [o] using hpow), serveFocus_new hm]
    have new := startSession_new u
    have inner : SamePorts o u.startSession :=
      ((SamePorts.of_prt rfl : SamePorts o v).trans (retryLost_inner v).ports).trans (startSession_inner u).ports
    have linkState : u.lnk.state = if s.lnk.state = .lost then .identifying else s.lnk.state := by
      rw [retryLost_state]
      simp only [v, o, openRequest_lnk]
    obtain ⟨t, he, hr, ho, -, q, rfl⟩ := exec_replied (r := .focusStart m) ha served inner
    have mode : u.fdr.mode = pick s.fdr.mode m := by
      show (State.retryLost _).fdr.mode = _
      rw [retryLost_fdr]
      simp only [v, o, openRequest_fdr]
    refine ⟨_, he, ?_, ?_, ?_, ?_, ?_, ?_, ?_, ho, ?_, fun hl => ?_⟩
    · rw [State.setPort_fdr]
      exact hr
    · rw [State.setPort_fdr, new.mode, mode]
      unfold pick
      split <;> simp_all
    · rw [State.setPort_fdr, new.state, linkState]
      cases h : s.lnk.state <;> simp [st, h, sessionState]
    · rw [State.setPort_fdr, new.history]
    · rw [State.setPort_fdr, new.lowCount]
    · rw [State.setPort_fdr, new.scan]
    · rw [State.setPort_fdr, new.target]
    · rw [State.setPort_fdr, State.setPort_lnk, new.mode]
      exact new.manual
    · have began : u.lnk.state = .identifying ∧ u.lnk.running = some .identPage0 := by
        show (State.retryLost _).lnk.state = _ ∧ (State.retryLost _).lnk.running = _
        unfold State.retryLost
        rw [if_pos (by simpa [v, o] using hl)]
        exact ⟨rfl, rfl⟩
      rw [State.setPort_lnk]
      exact new.ident began.1 began.2
  · refine exec_answered (r := .focusStart (some .other)) ha ?_
    show serveFocusStart p (some .other) _ = _
    rw [serveFocusStart, wakeRequest_active (by simpa using hpow)]
    rfl
  · have same := endSession_session (s.openRequest p .focusStop tag)
    obtain ⟨t, he, hr, ho, -, q, rfl⟩ := exec_replied (r := .focusStop) (tag := tag) ha rfl
      (endSession_inner (s.openRequest p .focusStop tag)).ports
    have quiet : Unpredicted { (s.openRequest p .focusStop tag).dropMove with
        fdr := { (s.openRequest p .focusStop tag).fdr with
          target := none, scan := .none, state := .off } } := .inr (.inr ⟨nofun, nofun⟩)
    refine ⟨_, he, hr, ?_, ?_, ?_, ?_, ho⟩
    · rw [State.setPort_fdr]
      exact same.state
    · rw [State.setPort_fdr]
      exact same.target quiet
    · rw [State.setPort_fdr]
      exact same.scan
    · rw [State.setPort_lnk]
      exact same.noMove quiet rfl

/-! ### FOCUS_AREA, FOCUS_SETUP, FOCUS_RESULT, MARKER_WRITE -/

theorem serveFocusArea_ok {s : State} {i : Nat} (h : i ≤ 134) :
    serveFocusArea i s = okWith (match s.fdr.mode with
      | .continuous =>
        if i = s.fdr.area then { s with fdr := { s.fdr with area := i } }
        else if s.fdr.state = .tracking then
          State.setFocusState
            { s with fdr := { s.fdr with area := i, history := [], lowCount := 0 } } .acquiring
        else { s with fdr := { s.fdr with area := i, history := [], lowCount := 0 } }
      | .single =>
        if s.fdr.state = .acquiring then
          State.checkFocusWait
            { s with fdr := { s.fdr with area := i, scan := .none, target := none } }
        else { s with fdr := { s.fdr with area := i } }
      | .manual => { s with fdr := { s.fdr with area := i } }) (.area i) := by
  unfold serveFocusArea
  exact if_neg (by omega)

/-- What FOCUS_AREA leaves of the session (R80, R86). -/
structure AreaSet (s u : State) (i : Nat) : Prop where
  ports : SamePorts s u
  area : u.fdr.area = i
  moved : s.fdr.mode = .continuous → i ≠ s.fdr.area → u.fdr.history = [] ∧ u.fdr.lowCount = 0 ∧
    (s.fdr.state = .tracking → u.fdr.state = .acquiring)
  single : s.fdr.mode = .single → u.fdr.state = s.fdr.state ∧
    (s.fdr.state = .acquiring → u.fdr.scan = .none ∧ u.fdr.target = none) ∧
    (s.fdr.state ≠ .acquiring → u.fdr.scan = s.fdr.scan ∧ u.fdr.target = s.fdr.target)

theorem serveFocusArea_set (s : State) {i : Nat} (h : i ≤ 134) :
    ∃ u, serveFocusArea i s = okWith u (.area i) ∧ AreaSet s u i := by
  refine ⟨_, serveFocusArea_ok h, ?_⟩
  cases hm : s.fdr.mode with
  | manual => exact ⟨.of_prt rfl, rfl, by simp [hm], by simp [hm]⟩
  | continuous =>
    dsimp only
    by_cases hi : i = s.fdr.area
    · rw [if_pos hi]
      exact ⟨.of_prt rfl, rfl, fun _ h => absurd hi h, by simp [hm]⟩
    · rw [if_neg hi]
      split
      · have same := setFocusState_session
          { s with fdr := { s.fdr with area := i, history := [], lowCount := 0 } } .acquiring
        exact ⟨(SamePorts.of_prt (s := s) (t := { s with
            fdr := { s.fdr with area := i, history := [], lowCount := 0 } }) rfl).trans
            (setFocusState_inner _ _).ports,
          same.area, fun _ _ => ⟨same.history, same.lowCount, fun _ => same.state⟩, by simp [hm]⟩
      · next hs => exact ⟨.of_prt rfl, rfl, fun _ _ => ⟨rfl, rfl, fun h => absurd h hs⟩, by simp [hm]⟩
  | single =>
    dsimp only
    split
    · next hs =>
      have same := checkFocusWait_session
        { s with fdr := { s.fdr with area := i, scan := .none, target := none } }
      exact ⟨(SamePorts.of_prt (s := s) (t := { s with
          fdr := { s.fdr with area := i, scan := .none, target := none } }) rfl).trans
          (checkFocusWait_inner _).ports,
        same.area, by simp [hm],
        fun _ => ⟨same.state, fun _ => ⟨same.scan, same.target (.inl (by simp [hm]))⟩,
          fun h => absurd hs h⟩⟩
    · next hs =>
      exact ⟨.of_prt rfl, rfl, by simp [hm], fun _ => ⟨rfl, fun h => absurd h hs, fun _ => ⟨rfl, rfl⟩⟩⟩

theorem badRange_of_mem {lo hi v : Nat} (hl : lo ≤ v) (hh : v ≤ hi) :
    badRange lo hi (some v) = false := by
  simp only [badRange, Bool.or_eq_false_iff, decide_eq_false_iff_not]
  omega

theorem exec_focusSetup {s : State} {p : Port} {tag : Byte} {f : SetupFields}
    (ha : Accepts s p .focusSetup) (hb : setupBad f = none) :
    exec (.focusSetup p tag f) s = .next (answered
      { s with phc := { s.phc with setup := setupAfter s.phc.setup f } }
      p .focusSetup tag .ok (.setup (setupAfter s.phc.setup f))) := by
  refine exec_answered (r := .focusSetup f) ha ?_
  show serveFocusSetup f _ = _
  simp only [serveFocusSetup, hb, openRequest_phc, openRequest_setPhc]
  rfl

/-- Settles O32. -/
theorem focusSettings : Obligations.FocusSettings := by
  intro s p tag
  refine ⟨fun i ha hi => ?_, fun i ha hi hm => ?_, fun i ha hi => ?_,
    fun n w x c m ha hn hn' hw hw' hx hx' hc => ?_, fun f ha hb => exec_focusSetup ha hb,
    fun f n ha hb => ?_, fun ha => ?_, fun f ha hf => ?_⟩
  · exact requestsRefused (.focusArea i) p tag s _ _ ha (by simp [refusal, hi])
  · refine exec_answered (r := .focusArea i) ha ?_
    show serveFocusArea i _ = _
    rw [serveFocusArea_ok hi, openRequest_fdr, openRequest_setFdr]
    rcases hm with hm | ⟨hm, rfl⟩ <;> simp only [hm] <;> rfl
  · obtain ⟨u, served, set⟩ := serveFocusArea_set (s.openRequest p .focusArea tag) hi
    obtain ⟨t, he, hr, ho, -, q, rfl⟩ := exec_replied (r := .focusArea i) ha served set.ports
    refine ⟨_, he, hr, ?_, ho, ?_, ?_⟩
    · simpa using set.area
    · simpa using set.moved
    · simpa using set.single
  · exact exec_focusSetup ha (by
      simp [setupBad, firstBad, badChoice, badRange_of_mem hn hn', badRange_of_mem hw hw',
        badRange_of_mem hx hx', badRange_of_mem (Nat.zero_le c) hc])
  · exact requestsRefused (.focusSetup f) p tag s _ _ ha (by simp [refusal, hb, fieldCase])
  · refine exec_answered (r := .focusResult) ha ?_
    show serveFocusResult _ = _
    simp only [serveFocusResult, openRequest_phc, List.isEmpty_iff]
    rfl
  · refine exec_answered (r := .markerWrite f) ha ?_
    show serveMarkerWrite f _ = _
    rw [serveMarkerWrite, if_neg (by simp [badChoice_of_ne hf]), openRequest_fdr, openRequest_setFdr]
    rfl

end Sys2Proof.Machine
end

section
/-! PROOFS. A measurement and a WHERE reply applied by the focus drive (R74, R78 to R85). -/
namespace Sys2Proof.Machine

/-! ### A change of the focus state while no focus wait runs -/

/-- No focus wait runs. -/
def NotWaiting (s : State) : Prop := s.rsq.state ≠ .focusWait

/-- The capture side and the catalog are those of another state. -/
structure SameFront (s t : State) : Prop where
  rsq : t.rsq = s.rsq
  fdr : t.fdr = s.fdr
  lnk : t.lnk = s.lnk
  catalog : t.catalog = s.catalog

theorem SameFront.refl (s : State) : SameFront s s := ⟨rfl, rfl, rfl, rfl⟩

/-- Only the focus state changes, with its notices. -/
theorem setFocusState_front {s : State} (h : NotWaiting s) (st : FocusState) :
    SameFront { s with fdr := { s.fdr with state := st } } (s.setFocusState st) := by
  unfold State.setFocusState
  split
  case isTrue e =>
    subst e
    rw [checkFocusWait_of_ne h]
    exact .refl s
  case isFalse =>
    have front := notifyBodyTether_front { s with fdr := { s.fdr with state := st } }
      (.focusState st s.fdr.mode)
    rw [checkFocusWait_of_ne (by rw [front.rsq]; exact h)]
    exact ⟨front.rsq, front.fdr, front.lnk, notifyBodyTether_catalog _ _⟩

/-! ### Targets -/

theorem lastTarget_congr {s t : State} (h : t.lnk = s.lnk) : t.lastTarget = s.lastTarget := by
  unfold State.lastTarget
  rw [h]

theorem startNext_lastTarget (s : State) : s.startNext.lastTarget = s.lastTarget := by
  unfold State.startNext
  split
  · rfl
  · split
    case h_1 => rfl
    case h_2 m hm => simp [State.lastTarget, hm]
    case h_3 hm =>
      split
      · rfl
      · rfl

theorem queueMove_lastTarget (s : State) (step cls : Nat) :
    (s.queueMove step cls).lastTarget = some step :=
  startNext_lastTarget _

theorem startNext_latched (s : State) (cls step : Nat) (hm : s.lnk.pendMove = some ⟨step, cls⟩)
    (hl : s.lnk.latched = some cls) : s.startNext.lnk.latched = some cls := by
  unfold State.startNext
  split
  · exact hl
  · split
    case h_1 => exact hl
    case h_2 m _ he =>
      rw [hm] at he
      cases he
      rfl
    case h_3 he =>
      rw [hm] at he
      cases he

theorem queueMove_latched (s : State) (step cls : Nat) :
    (s.queueMove step cls).lnk.latched = some cls :=
  startNext_latched _ cls step rfl rfl

/-- `d` clamped to the range of the lens. -/
def lensClamp (d : Descriptor) (v : Int) : Int :=
  max (d.page0.pmin : Int) (min (d.page0.pmax : Int) v)

/-- A new target, the one that is sent or waits from now on (R75, R78). -/
def AimedAt (s t : State) (d : Descriptor) (v : Int) (predicted : Bool) : Prop :=
  ∃ g : Target, t.fdr.target = some g ∧ (g.step : Int) = lensClamp d v ∧ g.predicted = predicted ∧
    g.clamped = decide (lensClamp d v ≠ v) ∧
    (s.lastTarget = some g.step → t.lnk = s.lnk) ∧ t.lastTarget = some g.step

theorem AimedAt.congr {s u t : State} {d : Descriptor} {v : Int} {b : Bool}
    (h : AimedAt s t d v b) (hf : u.fdr = t.fdr) (hl : u.lnk = t.lnk) : AimedAt s u d v b := by
  obtain ⟨g, ht, hstep, hp, hc, hs, hlast⟩ := h
  exact ⟨g, hf ▸ ht, hstep, hp, hc, fun e => hl.trans (hs e), (lastTarget_congr hl).trans hlast⟩

theorem targetOf_step (d : Descriptor) (v : Int) (b : Bool) :
    ((targetOf d v b).step : Int) = lensClamp d v := by
  show (((lensClamp d v).toNat : Nat) : Int) = _
  unfold lensClamp
  omega

theorem targetOf_clamped {d : Descriptor} (h : d.page0.pmin ≤ d.page0.pmax) (v : Int) (b : Bool) :
    (targetOf d v b).clamped = decide (lensClamp d v ≠ v) := by
  unfold targetOf lensClamp
  rw [← Bool.decide_or, decide_eq_decide]
  omega

theorem setTarget_aimed {s : State} {d : Descriptor} (h : d.page0.pmin ≤ d.page0.pmax) (v : Int)
    (b : Bool) : AimedAt s (s.setTarget d v b) d v b := by
  refine ⟨targetOf d v b, congrArg Fdr.target (setTarget_link s d v b).fdr, targetOf_step d v b, rfl,
    targetOf_clamped h v b, fun hs => ?_, ?_⟩
  · unfold State.setTarget
    dsimp only
    split
    case isTrue => rfl
    case isFalse hn => exact absurd hs hn
  · unfold State.setTarget
    dsimp only
    split
    case isTrue hs => exact hs
    case isFalse => exact queueMove_lastTarget _ _ _

/-! ### The drive's part of a measurement -/

/-- The drive's part of a measurement whose position, with the steps of the phase, is `p`. -/
def steered (s : State) (m : Measurement) (d : Descriptor) (p : Int) : State :=
  if s.fdr.state = .off then s
  else if m.outcome = .valid then s.applyValid d p else s.applyLow d

/-- The position at exposure (R78). -/
def exposedAt (s : State) : Nat := (s.fdr.exposurePos.orElse fun _ => s.lnk.position).getD 0

theorem applyMeasurement_eq {s : State} {m : Measurement} {r : CurveResult} {d : Descriptor}
    (hr : m.result = some r) (hl : s.lnk.state = .ready) (hd : s.lnk.descriptor = some d) :
    s.applyMeasurement m =
      let u := steered s m d (exposedAt s + phaseSteps r.phase d.page0.k)
      match m.shot with
      | some n => u.writeFocusRecord n (exposedAt s) r
      | none => u := by
  unfold State.applyMeasurement
  rw [hr, hl, hd]
  rfl

theorem applyMeasurement_idle {s : State} {m : Measurement}
    (h : m.result = none ∨ s.lnk.state ≠ .ready) : s.applyMeasurement m = s := by
  unfold State.applyMeasurement
  split
  case h_1 r d hr hl _ => exact (h.elim (fun e => nomatch hr.symm.trans e) (fun e => absurd hl e))
  case h_2 => rfl

/-- A step of the drive that a measurement makes. -/
structure Steady (s u : State) : Prop where
  catalog : u.catalog = s.catalog
  aim : u.fdr.aim = s.fdr.aim
  session : s.fdr.state ≠ .off → u.fdr.state ≠ .off

/-- A VALID measurement in SINGLE mode while ACQUIRING. -/
theorem applyValid_single {s : State} (hw : NotWaiting s) (d : Descriptor) (p : Int)
    (hm : s.fdr.mode = .single) (ha : s.fdr.state = .acquiring) :
    s.applyValid d p =
      State.setTarget { s with fdr := { s.fdr with scan := .none } } d p false := by
  unfold State.applyValid
  split
  case h_1 =>
    rw [if_pos ha]
    exact checkFocusWait_of_ne (by rw [(setTarget_link _ _ _ _).rsq]; exact hw)
  case h_2 h | h_3 h => cases hm.symm.trans h

/-- The history of CONTINUOUS mode with a new position, before the prediction. -/
def remembered (s : State) (p : Int) : State :=
  { s with fdr := { s.fdr with
      history := addHistory s.fdr.history (s.fdr.frameMid, p), lowCount := 0 } }

/-- The state in which a VALID measurement of CONTINUOUS mode is predicted from. -/
def tracked (s : State) (p : Int) : State :=
  if s.fdr.state = .acquiring then (remembered s p).setFocusState .tracking else remembered s p

theorem tracked_front {s : State} (hw : NotWaiting s) (p : Int) :
    SameFront { remembered s p with fdr := { (remembered s p).fdr with
      state := if s.fdr.state = .acquiring then .tracking else s.fdr.state } } (tracked s p) := by
  unfold tracked
  split
  · exact setFocusState_front (s := remembered s p) hw .tracking
  · exact .refl _

theorem applyValid_continuous {s : State} (hw : NotWaiting s) (d : Descriptor) (p : Int)
    (hm : s.fdr.mode = .continuous) : s.applyValid d p = (tracked s p).applyPrediction d := by
  unfold State.applyValid
  split
  case h_1 h | h_3 h => cases hm.symm.trans h
  case h_2 =>
  refine checkFocusWait_of_ne ?_
  have rsq : ((tracked s p).applyPrediction d).rsq = s.rsq := by
    rw [applyPrediction_rsq, (tracked_front hw p).rsq]
    rfl
  exact fun e => hw (rsq ▸ e)

theorem applyPrediction_link (s : State) (d : Descriptor) :
    ∃ t, LinkOnly { s with fdr := { s.fdr with target := t } } (s.applyPrediction d) := by
  unfold State.applyPrediction
  split
  · exact ⟨s.fdr.target, .refl s⟩
  · exact ⟨_, setTarget_link s d _ _⟩

theorem LinkOnly.catalog {s t : State} (h : LinkOnly s t) : t.catalog = s.catalog :=
  (congrArg State.catalog h.rest :)

theorem applyValid_steady {s : State} (hw : NotWaiting s) (d : Descriptor) (p : Int) :
    Steady s (s.applyValid d p) := by
  cases hm : s.fdr.mode with
  | single =>
    by_cases ha : s.fdr.state = .acquiring
    · rw [applyValid_single hw d p hm ha]
      have link := setTarget_link { s with fdr := { s.fdr with scan := .none } } d p false
      exact ⟨link.catalog, by rw [link.fdr], by rw [link.fdr]; exact id⟩
    · have kept : s.applyValid d p = s := by
        unfold State.applyValid
        simp only [hm]
        exact if_neg ha
      rw [kept]
      exact ⟨rfl, rfl, id⟩
  | continuous =>
    have front := tracked_front hw p
    obtain ⟨t, link⟩ := applyPrediction_link (tracked s p) d
    rw [applyValid_continuous hw d p hm]
    refine ⟨link.catalog.trans front.catalog, ?_, fun h => ?_⟩
    · rw [link.fdr]
      exact (congrArg Fdr.aim front.fdr :)
    · rw [link.fdr]
      show (tracked s p).fdr.state ≠ .off
      rw [front.fdr]
      dsimp only
      split
      · nofun
      · exact h
  | manual =>
    have front := setFocusState_front hw .tracking
    have eq : s.applyValid d p = s.setFocusState .tracking := by
      unfold State.applyValid
      simp only [hm]
    rw [eq]
    exact ⟨front.catalog, by rw [front.fdr], fun _ => by rw [front.fdr]; nofun⟩

/-- A LOW measurement in SINGLE mode begins a scan while ACQUIRING without a scan or a target. -/
theorem applyLow_single {s : State} (d : Descriptor) (hm : s.fdr.mode = .single) :
    s.applyLow d =
      if s.fdr.state = .acquiring ∧ s.fdr.scan = .none ∧ s.fdr.target = none then s.beginScan d
      else s := by
  unfold State.applyLow
  split
  case h_1 => simp [and_assoc]
  case h_2 h | h_3 h => cases hm.symm.trans h

theorem applyLow_continuous {s : State} (d : Descriptor) (hm : s.fdr.mode = .continuous) :
    s.applyLow d =
      if s.fdr.lowCount < 7 then
        { s with fdr := { s.fdr with lowCount := s.fdr.lowCount + 1 } }
      else
        State.setFocusState { s with fdr := { s.fdr with lowCount := 0, history := [] } }
          .acquiring := by
  unfold State.applyLow
  split
  case h_1 h | h_3 h => cases hm.symm.trans h
  case h_2 => simp only [Nat.add_lt_iff_lt_sub_right, Nat.reduceSub]

theorem applyLow_manual {s : State} (d : Descriptor) (hm : s.fdr.mode = .manual) :
    s.applyLow d = s.setFocusState .acquiring := by
  unfold State.applyLow
  split
  case h_1 h | h_2 h => cases hm.symm.trans h
  case h_3 => rfl

theorem applyValid_manual {s : State} (d : Descriptor) (p : Int) (hm : s.fdr.mode = .manual) :
    s.applyValid d p = s.setFocusState .tracking := by
  unfold State.applyValid
  split
  case h_1 h | h_2 h => cases hm.symm.trans h
  case h_3 => rfl

theorem applyValid_single_idle {s : State} (d : Descriptor) (p : Int) (hm : s.fdr.mode = .single)
    (ha : s.fdr.state ≠ .acquiring) : s.applyValid d p = s := by
  unfold State.applyValid
  split
  case h_1 => exact if_neg ha
  case h_2 h | h_3 h => cases hm.symm.trans h

theorem beginScan_link (s : State) (d : Descriptor) :
    LinkOnly { s with fdr := { s.fdr with
        scan := .up, scanStart := clamp d.page0.pmin d.page0.pmax (s.lnk.position.getD 0) } }
      (s.beginScan d) :=
  queueMove_link _ _ _

theorem setFocusState_steady {s : State} (hw : NotWaiting s) {st : FocusState} (h : st ≠ .off) :
    Steady s (s.setFocusState st) := by
  have front := setFocusState_front hw st
  exact ⟨front.catalog, by rw [front.fdr], fun _ => by rw [front.fdr]; exact h⟩

theorem applyLow_steady {s : State} (hw : NotWaiting s) (d : Descriptor) :
    Steady s (s.applyLow d) := by
  cases hm : s.fdr.mode with
  | single =>
    rw [applyLow_single d hm]
    split
    · have link := beginScan_link s d
      exact ⟨link.catalog, by rw [link.fdr], by rw [link.fdr]; exact id⟩
    · exact ⟨rfl, rfl, id⟩
  | continuous =>
    rw [applyLow_continuous d hm]
    split
    · exact ⟨rfl, rfl, id⟩
    · have steady := setFocusState_steady
        (s := { s with fdr := { s.fdr with lowCount := 0, history := [] } }) hw
        (st := .acquiring) nofun
      exact ⟨steady.catalog, steady.aim, steady.session⟩
  | manual =>
    rw [applyLow_manual d hm]
    exact setFocusState_steady hw nofun

theorem steered_off {s : State} (m : Measurement) (d : Descriptor) (p : Int)
    (h : s.fdr.state = .off) : steered s m d p = s := if_pos h

theorem steered_valid {s : State} {m : Measurement} (d : Descriptor) (p : Int)
    (h : s.fdr.state ≠ .off) (hv : m.outcome = .valid) : steered s m d p = s.applyValid d p := by
  unfold steered
  rw [if_neg h, if_pos hv]

theorem steered_low {s : State} {m : Measurement} (d : Descriptor) (p : Int)
    (h : s.fdr.state ≠ .off) (hv : m.outcome ≠ .valid) : steered s m d p = s.applyLow d := by
  unfold steered
  rw [if_neg h, if_neg hv]

theorem steered_steady {s : State} (hw : NotWaiting s) (m : Measurement) (d : Descriptor) (p : Int) :
    Steady s (steered s m d p) := by
  unfold steered
  split
  · exact ⟨rfl, rfl, id⟩
  · split
    · exact applyValid_steady hw d p
    · exact applyLow_steady hw d

/-- The drive stays as it is. -/
structure Undriven (s u : State) : Prop where
  target : u.fdr.target = s.fdr.target
  lnk : u.lnk = s.lnk
  history : u.fdr.history = s.fdr.history
  scan : u.fdr.scan = s.fdr.scan

theorem Undriven.refl (s : State) : Undriven s s := ⟨rfl, rfl, rfl, rfl⟩

/-- SINGLE mode (R79, R80). -/
structure SteeredSingle (s u : State) (m : Measurement) (d : Descriptor) (p : Int) : Prop where
  valid : s.fdr.state = .acquiring → m.outcome = .valid →
    AimedAt s u d p false ∧ u.fdr.scan = .none ∧ u.fdr.state = .acquiring
  scans : s.fdr.state = .acquiring → m.outcome ≠ .valid → s.fdr.scan = .none →
    s.fdr.target = none → u.fdr.scan = .up ∧ u.fdr.target = none ∧
    (u.fdr.scanStart : Int) = lensClamp d (s.lnk.position.getD 0) ∧ u.fdr.state = .acquiring ∧
    u.lastTarget = some d.page0.pmax ∧ u.lnk.latched = some 0
  kept : s.fdr.state ≠ .acquiring ∨ (m.outcome ≠ .valid ∧
    (s.fdr.scan ≠ .none ∨ s.fdr.target ≠ none)) → Undriven s u ∧ u.fdr.state = s.fdr.state

theorem steered_single {s : State} (hw : NotWaiting s) {d : Descriptor}
    (hd : d.page0.pmin ≤ d.page0.pmax) (m : Measurement) (p : Int) (hm : s.fdr.mode = .single) :
    SteeredSingle s (steered s m d p) m d p := by
  refine ⟨fun ha hv => ?_, fun ha hv hs ht => ?_, fun h => ?_⟩
  · have link := setTarget_link { s with fdr := { s.fdr with scan := .none } } d p false
    rw [steered_valid d p (by simp [ha]) hv, applyValid_single hw d p hm ha]
    exact ⟨setTarget_aimed (s := { s with fdr := { s.fdr with scan := .none } }) hd p false,
      by rw [link.fdr], by rw [link.fdr]; exact ha⟩
  · have link := beginScan_link s d
    rw [steered_low d p (by simp [ha]) hv, applyLow_single d hm, if_pos ⟨ha, hs, ht⟩]
    refine ⟨by rw [link.fdr], by rw [link.fdr]; exact ht, ?_, by rw [link.fdr]; exact ha,
      queueMove_lastTarget _ _ _, queueMove_latched _ _ _⟩
    rw [link.fdr]
    unfold clamp lensClamp
    dsimp only
    omega
  · have kept : steered s m d p = s := by
      by_cases hoff : s.fdr.state = .off
      · exact steered_off m d p hoff
      · by_cases hv : m.outcome = .valid
        · rw [steered_valid d p hoff hv]
          exact applyValid_single_idle d p hm (h.elim id fun e => absurd hv e.1)
        · rw [steered_low d p hoff hv, applyLow_single d hm]
          refine if_neg fun ⟨ha, hs, ht⟩ => ?_
          rcases h with h | ⟨-, h | h⟩
          · exact h ha
          · exact h hs
          · exact h ht
    rw [kept]
    exact ⟨.refl s, rfl⟩

/-- CONTINUOUS mode (R81, R82). -/
structure SteeredContinuous (s u : State) (m : Measurement) (d : Descriptor) (p : Int) : Prop where
  valid : m.outcome = .valid →
    u.fdr.history = addHistory s.fdr.history (s.fdr.frameMid, p) ∧ u.fdr.lowCount = 0 ∧
    u.fdr.state = (if s.fdr.state = .acquiring then .tracking else s.fdr.state) ∧
    ∀ v two, predict (addHistory s.fdr.history (s.fdr.frameMid, p)) s.fdr.nextMid d.vlim =
      some (v, two) → AimedAt s u d v two
  low : m.outcome ≠ .valid → u.fdr.target = s.fdr.target ∧ u.lnk = s.lnk ∧
    (s.fdr.lowCount < 7 → u.fdr.lowCount = s.fdr.lowCount + 1 ∧
      u.fdr.history = s.fdr.history ∧ u.fdr.state = s.fdr.state) ∧
    (7 ≤ s.fdr.lowCount → u.fdr.lowCount = 0 ∧ u.fdr.history = [] ∧ u.fdr.state = .acquiring)

theorem steered_continuous {s : State} (hw : NotWaiting s) {d : Descriptor}
    (hd : d.page0.pmin ≤ d.page0.pmax) (m : Measurement) (p : Int) (hm : s.fdr.mode = .continuous)
    (hoff : s.fdr.state ≠ .off) : SteeredContinuous s (steered s m d p) m d p := by
  refine ⟨fun hv => ?_, fun hv => ?_⟩
  · have front := tracked_front hw p
    obtain ⟨g, link⟩ := applyPrediction_link (tracked s p) d
    rw [steered_valid d p hoff hv, applyValid_continuous hw d p hm]
    refine ⟨?_, ?_, ?_, fun v two hp => ?_⟩
    · rw [link.fdr]
      exact (congrArg Fdr.history front.fdr :)
    · rw [link.fdr]
      exact (congrArg Fdr.lowCount front.fdr :)
    · rw [link.fdr]
      exact (congrArg Fdr.state front.fdr :)
    · have due : predict (tracked s p).fdr.history (tracked s p).fdr.nextMid d.vlim =
          some (v, two) := by
        rw [front.fdr]
        exact hp
      have aimed := setTarget_aimed (s := tracked s p) hd v two
      unfold State.applyPrediction
      rw [due]
      obtain ⟨g, ht, hstep, hpr, hc, hs, hlast⟩ := aimed
      have lnk : (tracked s p).lnk = s.lnk := front.lnk
      exact ⟨g, ht, hstep, hpr, hc, fun e => (hs ((lastTarget_congr lnk).trans e)).trans lnk, hlast⟩
  · rw [steered_low d p hoff hv, applyLow_continuous d hm]
    by_cases hc : s.fdr.lowCount < 7
    · rw [if_pos hc]
      exact ⟨rfl, rfl, fun _ => ⟨rfl, rfl, rfl⟩, fun h => by omega⟩
    · have front := setFocusState_front
        (s := { s with fdr := { s.fdr with lowCount := 0, history := [] } }) hw .acquiring
      rw [if_neg hc, front.fdr, front.lnk]
      exact ⟨rfl, rfl, fun h => absurd h hc, fun _ => ⟨rfl, rfl, rfl⟩⟩

theorem steered_manual {s : State} (hw : NotWaiting s) (d : Descriptor) (m : Measurement) (p : Int)
    (hm : s.fdr.mode = .manual) (hoff : s.fdr.state ≠ .off) :
    Undriven s (steered s m d p) ∧ (steered s m d p).fdr.state =
      if m.outcome = .valid then .tracking else .acquiring := by
  by_cases hv : m.outcome = .valid
  · have front := setFocusState_front hw .tracking
    rw [steered_valid d p hoff hv, applyValid_manual d p hm, if_pos hv]
    exact ⟨⟨by rw [front.fdr], front.lnk, by rw [front.fdr], by rw [front.fdr]⟩, by rw [front.fdr]⟩
  · have front := setFocusState_front hw .acquiring
    rw [steered_low d p hoff hv, applyLow_manual d hm, if_neg hv]
    exact ⟨⟨by rw [front.fdr], front.lnk, by rw [front.fdr], by rw [front.fdr]⟩, by rw [front.fdr]⟩

theorem roundAway_sign (x : Int) (n : Nat) :
    roundAway x n = x.sign * ((2 * x.natAbs + n) / (2 * n) : Nat) ∨ x = 0 := by
  unfold roundAway
  rcases Int.lt_trichotomy x 0 with h | h | h
  · exact .inl (by rw [Int.sign_eq_neg_one_of_neg h]; simp [h])
  · exact .inr h
  · exact .inl (by rw [Int.sign_eq_one_of_pos h]; simp [Int.not_lt.mpr (Int.le_of_lt h)])

theorem phaseSteps_sign (d16 k : Int) :
    phaseSteps d16 k = (d16 * k).sign * ((2 * (d16 * k).natAbs + 256) / 512 : Nat) := by
  unfold phaseSteps
  rcases roundAway_sign (d16 * k) 256 with h | h
  · exact h
  · rw [h]
    rfl

theorem predict_two (h : List (Time × Int)) (tn t0 t1 : Time) (p0 p1 : Int) (vlim : Nat) :
    predict ((t0, p0) :: h ++ [(t1, p1)]) tn vlim = some (p1 + max (-(vlim : Int)) (min vlim
      ((if timeAhead t1 t0 = 0 then p1 else
        (p1 * timeAhead t1 t0 + (p1 - p0) * timeAhead tn t1).tdiv (timeAhead t1 t0)) - p1)),
      true) := by
  have last : ((t0, p0) :: h ++ [(t1, p1)]).getLast? = some (t1, p1) := List.getLast?_concat
  unfold predict
  rw [last]
  exact if_neg (by simp)

/-! ### A WHERE reply -/

/-- A WHERE reply that stands still near a step of the scan or of the target (R79, R80). -/
def StandsNear (pos : Nat) (d : Descriptor) (n : Nat) : Prop :=
  pos ≤ n + d.page0.tolerance ∧ n ≤ pos + d.page0.tolerance

theorem standsNear_iff (pos : Nat) (d : Descriptor) (n : Nat) :
    StandsNear pos d n ↔ absDiff pos n ≤ d.page0.tolerance := by
  unfold StandsNear absDiff
  omega

/-- The progress of a SINGLE session that is ACQUIRING. -/
theorem focusProgress_eq {s : State} {d : Descriptor} (hd : s.lnk.descriptor = some d)
    (hm : s.fdr.mode = .single) (ha : s.fdr.state = .acquiring) (pos : Nat) (moving : Bool) :
    s.focusProgress pos moving = match s.fdr.scan with
      | .none => match s.fdr.target with
        | some t => if !moving && decide (absDiff pos t.step ≤ d.page0.tolerance) then
            s.dropMove.setFocusState .locked else s
        | none => s
      | .up => if !moving && decide (absDiff pos d.page0.pmax ≤ d.page0.tolerance) then
          State.queueMove { s with fdr := { s.fdr with scan := .down } } d.page0.pmin 0 else s
      | .down => if !moving && decide (absDiff pos d.page0.pmin ≤ d.page0.tolerance) then
          (State.setFocusState { s with fdr := { s.fdr with scan := .none } } .failed).queueMove
            s.fdr.scanStart 0 else s := by
  unfold State.focusProgress
  rw [hd]
  exact if_pos (by simp [hm, ha])

theorem focusProgress_moving {s : State} {d : Descriptor} (hd : s.lnk.descriptor = some d)
    (hm : s.fdr.mode = .single) (ha : s.fdr.state = .acquiring) (pos : Nat) :
    s.focusProgress pos true = s := by
  rw [focusProgress_eq hd hm ha]
  split
  · split <;> rfl
  · rfl
  · rfl

theorem whereToFocus_eq {s : State} (hw : NotWaiting s) (pos : Nat) (moving : Bool)
    (hr : (s.focusProgress pos moving).rsq = s.rsq) :
    s.whereToFocus pos moving = s.focusProgress pos moving :=
  checkFocusWait_of_ne (by rw [hr]; exact hw)

/-- A WHERE reply that stands still, to a SINGLE session that is ACQUIRING. -/
theorem whereToFocus_still {s : State} {d : Descriptor} (hw : NotWaiting s)
    (hd : s.lnk.descriptor = some d) (hm : s.fdr.mode = .single) (ha : s.fdr.state = .acquiring)
    (pos : Nat) :
    (∀ g, s.fdr.scan = .none → s.fdr.target = some g → StandsNear pos d g.step →
      (s.whereToFocus pos false).fdr.state = .locked ∧
      (s.whereToFocus pos false).lnk.pendMove = none ∧
      (s.whereToFocus pos false).fdr.target = some g) ∧
    (∀ g, s.fdr.scan = .none → s.fdr.target = some g → ¬ StandsNear pos d g.step →
      s.whereToFocus pos false = s) ∧
    (s.fdr.scan = .up → StandsNear pos d d.page0.pmax →
      (s.whereToFocus pos false).fdr.scan = .down ∧
      (s.whereToFocus pos false).lastTarget = some d.page0.pmin ∧
      (s.whereToFocus pos false).fdr.state = .acquiring) ∧
    (s.fdr.scan = .up → ¬ StandsNear pos d d.page0.pmax → s.whereToFocus pos false = s) ∧
    (s.fdr.scan = .down → StandsNear pos d d.page0.pmin →
      (s.whereToFocus pos false).fdr.scan = .none ∧
      (s.whereToFocus pos false).fdr.state = .failed ∧
      (s.whereToFocus pos false).lastTarget = some s.fdr.scanStart) ∧
    (s.fdr.scan = .down → ¬ StandsNear pos d d.page0.pmin → s.whereToFocus pos false = s) ∧
    s.whereToFocus pos true = s := by
  have progress := focusProgress_eq hd hm ha pos false
  have idle : s.focusProgress pos false = s → s.whereToFocus pos false = s := fun h =>
    (whereToFocus_eq hw pos false (congrArg State.rsq h)).trans h
  simp only [standsNear_iff]
  refine ⟨fun g hs ht hn => ?_, fun g hs ht hn => ?_, fun hs hn => ?_, fun hs hn => ?_,
    fun hs hn => ?_, fun hs hn => ?_, ?_⟩
  · have front := setFocusState_front (s := s.dropMove) hw .locked
    have eq : s.focusProgress pos false = s.dropMove.setFocusState .locked := by
      simp [progress, hs, ht, hn]
    rw [whereToFocus_eq hw pos false (by rw [eq, front.rsq]; rfl), eq, front.fdr, front.lnk]
    exact ⟨rfl, rfl, ht⟩
  · exact idle (by simp [progress, hs, ht, hn])
  · have link := queueMove_link { s with fdr := { s.fdr with scan := .down } } d.page0.pmin 0
    have eq : s.focusProgress pos false =
        State.queueMove { s with fdr := { s.fdr with scan := .down } } d.page0.pmin 0 := by
      simp [progress, hs, hn]
    rw [whereToFocus_eq hw pos false (by rw [eq, link.rsq]), eq, link.fdr]
    exact ⟨rfl, queueMove_lastTarget _ _ _, ha⟩
  · exact idle (by simp [progress, hs, hn])
  · have front := setFocusState_front (s := { s with fdr := { s.fdr with scan := .none } }) hw .failed
    have link := queueMove_link
      (State.setFocusState { s with fdr := { s.fdr with scan := .none } } .failed) s.fdr.scanStart 0
    have eq : s.focusProgress pos false =
        (State.setFocusState { s with fdr := { s.fdr with scan := .none } } .failed).queueMove
          s.fdr.scanStart 0 := by
      simp [progress, hs, hn]
    rw [whereToFocus_eq hw pos false (by rw [eq, link.rsq, front.rsq]), eq, link.fdr, front.fdr]
    exact ⟨rfl, rfl, queueMove_lastTarget _ _ _⟩
  · exact idle (by simp [progress, hs, hn])
  · have eq := focusProgress_moving hd hm ha pos
    exact (whereToFocus_eq hw pos true (congrArg State.rsq eq)).trans eq

/-! ### The records that a measurement writes -/

/-- Settles O33: the drive by its mode (`steered_single`, `steered_continuous`, `steered_manual`),
the record by `Steady`, the WHERE reply by `whereToFocus_still`. -/
theorem focusApplication : Obligations.FocusApplication := by
  refine ⟨fun s m => ⟨applyMeasurement_idle, ?_⟩, fun h tn t0 t1 p0 p1 vlim =>
    ⟨rfl, rfl, predict_two h tn t0 t1 p0 p1 vlim⟩,
    fun s pos d hd hw hm ha => whereToFocus_still hw hd hm ha pos⟩
  intro r d hr hl hd hw pos x p t clamped aimed record driven hle
  have position : exposedAt s = pos := by
    show (s.fdr.exposurePos.orElse _).getD 0 = _
    unfold pos
    cases s.fdr.exposurePos <;> rfl
  have place : (exposedAt s : Int) + phaseSteps r.phase d.page0.k = p := by
    rw [position, phaseSteps_sign]
  let u := steered s m d p
  have taken : t = match m.shot with
      | some n => u.writeFocusRecord n pos r
      | none => u := by
    show s.applyMeasurement m = _
    rw [applyMeasurement_eq hr hl hd, place, position]
  have fdr : t.fdr = u.fdr := by
    rw [taken]
    split <;> rfl
  have lnk : t.lnk = u.lnk := by
    rw [taken]
    split <;> rfl
  have last : t.lastTarget = u.lastTarget := lastTarget_congr lnk
  have steady : Steady s u := steered_steady hw m d p
  have undriven : Undriven s u → driven := fun h =>
    ⟨fdr ▸ h.target, lnk.trans h.lnk, fdr ▸ h.history, fdr ▸ h.scan⟩
  refine ⟨fun hoff => ?_, fun hm ha hv => ?_, fun hm ha hv hs ht => ?_, fun hm h => ?_,
    fun hm hoff hv => ?_, fun hm hoff hv => ?_, fun hm hoff => ?_, fun n hn => ?_, fun hn => ?_⟩
  · have kept : u = s := steered_off m d p hoff
    exact ⟨undriven (kept ▸ .refl s), by rw [fdr, kept, hoff], by rw [fdr, kept]⟩
  · obtain ⟨haim, hscan, hstate⟩ := (steered_single hw hle m p hm).valid ha hv
    exact ⟨haim.congr fdr lnk, fdr ▸ hscan, fdr ▸ hstate⟩
  · rw [fdr, lnk, last]
    exact (steered_single hw hle m p hm).scans ha hv hs ht
  · obtain ⟨hu, hst⟩ := (steered_single hw hle m p hm).kept h
    exact ⟨undriven hu, fdr ▸ hst⟩
  · obtain ⟨hh, hc, hst, haim⟩ := (steered_continuous hw hle m p hm hoff).valid hv
    exact ⟨fdr ▸ hh, fdr ▸ hc, fdr ▸ hst, fun v two hp => (haim v two hp).congr fdr lnk⟩
  · rw [fdr, lnk]
    exact (steered_continuous hw hle m p hm hoff).low hv
  · obtain ⟨hu, hst⟩ := steered_manual hw d m p hm hoff
    exact ⟨undriven hu, fdr ▸ hst⟩
  · have written : record = ⟨clamp 0 65535 pos, r.phase, r.confidence, u.fdr.state,
        (u.fdr.aim.getD ⟨false, false, false⟩).predicted && u.fdr.state != .off,
        (u.fdr.aim.getD ⟨false, false, false⟩).clamped⟩ := by
      have off : (u.fdr.state != .off) = decide (s.fdr.state ≠ .off) := by
        by_cases h : s.fdr.state = .off
        · have kept : u = s := steered_off m d p h
          simp [kept, h]
        · simp [h, steady.session h]
      simp only [record, fdr, off, steady.aim, clamp, Nat.zero_max]
      cases s.fdr.aim <;> simp [Bool.and_comm]
    have eq : t = u.writeFocusRecord n pos r := by rw [taken, hn]
    rw [eq, written, ← steady.catalog]
    rfl
  · have eq : t = u := by rw [taken, hn]
    rw [eq]
    exact steady.catalog

end Sys2Proof.Machine
end

section
/-! PROOFS. Output pixels (R111 to R115). -/
namespace Sys2Proof.Machine

/-- The rounded sum of a matrix row, before its clamp (R112). -/
def matrixSum (c0 c1 c2 : Int) (r g b : Nat) : Int := (c0 * r + c1 * g + c2 * b + 512) / 1024

/-- Both clamps of R112 at once. -/
theorem matrixStage_eq (c0 c1 c2 : Int) (r g b : Nat) :
    matrixStage c0 c1 c2 r g b =
      ((max 0 (min 16383 (matrixSum c0 c1 c2 r g b))).toNat,
        if matrixSum c0 c1 c2 r g b < 0 ∨ 16383 < matrixSum c0 c1 c2 r g b then 1 else 0) := by
  unfold matrixStage
  dsimp only
  rw [Int.fdiv_eq_ediv_of_nonneg _ (by decide)]
  change (if matrixSum c0 c1 c2 r g b < 0 then ((0 : Nat), 1)
    else if 16383 < matrixSum c0 c1 c2 r g b then (16383, 1)
    else ((matrixSum c0 c1 c2 r g b).toNat, 0)) = _
  generalize matrixSum c0 c1 c2 r g b = m
  by_cases hl : m < 0
  · simp [hl, show max 0 (min 16383 m) = 0 by omega]
  · by_cases hh : 16383 < m
    · simp [hl, hh, show max 0 (min 16383 m) = 16383 by omega]
    · simp [hl, hh, show max 0 (min 16383 m) = m by omega]

/-- Settles O21. -/
theorem outputPixel : Obligations.OutputPixel := by
  intro rec tone c q r g b m v n out
  simp only [developCell, matrixStage_eq]
  rfl

end Sys2Proof.Machine
end

section
/-! PROOFS. The planned placement of a copy (R126). -/
namespace Sys2Proof.Machine

theorem totalSectors_append (a b : List Run) :
    totalSectors (a ++ b) = totalSectors a + totalSectors b := by
  induction a with
  | nil => exact (Nat.zero_add _).symm
  | cons r rest ih =>
    show r.count + totalSectors (rest ++ b) = r.count + totalSectors rest + totalSectors b
    rw [ih]
    omega

theorem planRuns_zero (space : List Run) : planRuns space 0 = ([], space) := by
  cases space <;> rfl

/-- The first runs whole, the last of them as far as needed (R126). -/
def PlannedAs (space : List Run) (n : Nat) (whole : List Run) (last : Run) (rest : List Run) : Prop :=
  space = whole ++ last :: rest ∧ totalSectors whole < n ∧ n - totalSectors whole ≤ last.count ∧
    (planRuns space n).1 = whole ++ [⟨last.first, n - totalSectors whole⟩] ∧
    (planRuns space n).2 = (if n - totalSectors whole = last.count then rest
      else ⟨last.first + (n - totalSectors whole), last.count - (n - totalSectors whole)⟩ :: rest)

theorem planRuns_spec (space : List Run) {n : Nat} (hn : 0 < n) (h : n ≤ totalSectors space) :
    ∃ whole last rest, PlannedAs space n whole last rest := by
  induction space generalizing n with
  | nil => exact absurd h (Nat.not_le.mpr hn)
  | cons r rest ih =>
    have h : n ≤ r.count + totalSectors rest := h
    have opened : planRuns (r :: rest) n =
        if n < r.count then ([⟨r.first, n⟩], ⟨r.first + n, r.count - n⟩ :: rest)
        else (r :: (planRuns rest (n - r.count)).1, (planRuns rest (n - r.count)).2) :=
      if_neg (by omega)
    rcases Nat.lt_trichotomy n r.count with hlt | heq | hgt
    · refine ⟨[], r, rest, rfl, hn, Nat.le_of_lt hlt, ?_, ?_⟩
      · rw [opened, if_pos hlt]
        rfl
      · rw [opened, if_pos hlt, if_neg (show n - totalSectors [] ≠ r.count from Nat.ne_of_lt hlt)]
        rfl
    · refine ⟨[], r, rest, rfl, hn, Nat.le_of_eq heq, ?_, ?_⟩
      · rw [opened, if_neg (by omega), heq, Nat.sub_self, planRuns_zero]
        rfl
      · rw [opened, if_neg (by omega), heq, Nat.sub_self, planRuns_zero]
        exact (if_pos rfl).symm
    · obtain ⟨whole, last, tail, hs, hw, hk, h1, h2⟩ := ih (n := n - r.count) (by omega) (by omega)
      have total : totalSectors (r :: whole) = r.count + totalSectors whole := rfl
      have k : n - totalSectors (r :: whole) = n - r.count - totalSectors whole := by omega
      refine ⟨r :: whole, last, tail, by rw [hs]; rfl, by omega, by omega, ?_, ?_⟩
      · rw [opened, if_neg (by omega), h1, k]
        rfl
      · rw [opened, if_neg (by omega), h2, k]

theorem totalSectors_take_le (l : List Run) (k : Nat) : totalSectors (l.take k) ≤ totalSectors l := by
  have parts : totalSectors (l.take k) + totalSectors (l.drop k) = totalSectors l := by
    rw [← totalSectors_append, List.take_append_drop]
  omega

/-- Settles O24. -/
theorem plannedPlacement : Obligations.PlannedPlacement := by
  intro space n hf
  have fit : n ≤ totalSectors (space.take 6) := of_decide_eq_true hf
  have enough : n ≤ totalSectors space := Nat.le_trans fit (totalSectors_take_le space 6)
  rcases Nat.eq_zero_or_pos n with rfl | hn
  · rw [planRuns_zero]
    exact ⟨rfl, Nat.zero_add _, Nat.zero_le _, fun h => absurd h (Nat.lt_irrefl 0)⟩
  · obtain ⟨whole, last, rest, hs, hw, hk, h1, h2⟩ := planRuns_spec space hn enough
    have few : whole.length < 6 := by
      refine Nat.lt_of_not_le fun hlen => ?_
      have inside : space.take 6 = whole.take 6 := by
        rw [hs, List.take_append_of_le_length (by omega)]
      have := totalSectors_take_le whole 6
      rw [← inside] at this
      omega
    have taken : totalSectors (planRuns space n).1 = n := by
      rw [h1, totalSectors_append]
      show totalSectors whole + (n - totalSectors whole + 0) = n
      omega
    have left : totalSectors (planRuns space n).2 =
        last.count - (n - totalSectors whole) + totalSectors rest := by
      rw [h2]
      split
      case isTrue he =>
        rw [he, Nat.sub_self, Nat.zero_add]
      case isFalse => rfl
    have all : totalSectors space = totalSectors whole + (last.count + totalSectors rest) := by
      rw [hs, totalSectors_append]
      rfl
    refine ⟨taken, by omega, ?_, fun _ => ⟨whole, last, rest, hs, hw, hk, h1, h2⟩⟩
    rw [h1, List.length_append]
    exact few

end Sys2Proof.Machine
end

section
/-! PROOFS. The measurement of a focus area (R55 to R65). -/
namespace Sys2Proof.Machine

/-- The windows of every area lie on the sensor (R55, R56). -/
theorem spanStart_eq (u : Setup) (area : Nat) (hw : u.wd + 2 * u.smax ≤ 1512) :
    (spanStart u area : Int) = max (0 : Int) (min (1512 - ((u.wd : Int) + 2 * (u.smax : Int)))
      ((((403 * (area % 15) + 201) / 4 : Nat) : Int) - ((u.wd / 2 : Nat) : Int) -
        (u.smax : Int))) := by
  unfold spanStart windowCentre areaColumn
  omega

/-- Every entry is a shift of the range with its SAD. -/
theorem curveOf_mem {u : Setup} {store : List (List Nat × List Nat)} {x : Int × Nat} :
    x ∈ curveOf u store ↔ (-(u.smax : Int) ≤ x.1 ∧ x.1 ≤ u.smax) ∧ x.2 = sad u store x.1 := by
  unfold curveOf allShifts
  simp only [List.mem_map, List.mem_range]
  constructor
  · rintro ⟨_, ⟨i, hi, rfl⟩, rfl⟩
    exact ⟨by constructor <;> omega, rfl⟩
  · rintro ⟨⟨hl, hh⟩, hx⟩
    exact ⟨x.1, ⟨(x.1 + u.smax).toNat, by omega, by omega⟩, Prod.ext rfl hx.symm⟩

theorem NotAfter.antisymm {a b : Int × Nat} (h : NotAfter a b) (k : NotAfter b a) : a = b := by
  unfold NotAfter at *
  refine Prod.ext ?_ ?_ <;> omega

/-- The best shift comes before every evaluated one (R61). -/
theorem sortShifts_head {l rest : List (Int × Nat)} {best : Int × Nat}
    (h : sortShifts l = best :: rest) : best ∈ l ∧ ∀ x ∈ l, NotAfter best x := by
  have perm := h ▸ sortShifts_perm l
  refine ⟨perm.mem_iff.mp List.mem_cons_self, fun x hx => ?_⟩
  obtain ⟨hb, -⟩ := List.pairwise_cons.mp (h ▸ sortShifts_pairwise l)
  rcases List.mem_cons.mp (perm.mem_iff.mpr hx) with rfl | hr
  · exact .inr ⟨rfl, .inr ⟨rfl, Int.le_refl _⟩⟩
  · exact hb x hr

theorem exists_sortShifts {l : List (Int × Nat)} {x : Int × Nat} (hx : x ∈ l) :
    ∃ best rest, sortShifts l = best :: rest :=
  List.exists_cons_of_ne_nil fun hnil => by
    have perm := hnil ▸ sortShifts_perm l
    exact absurd (perm.mem_iff.mpr hx) List.not_mem_nil

theorem zero_mem_curveOf (u : Setup) (store : List (List Nat × List Nat)) :
    (0, sad u store 0) ∈ curveOf u store :=
  curveOf_mem.mpr ⟨⟨by simp, by simp⟩, rfl⟩

/-- The even shifts, which COARSE evaluates first (R60). -/
def evenShifts (u : Setup) (store : List (List Nat × List Nat)) : List (Int × Nat) :=
  (curveOf u store).filter fun p => p.1 % 2 == 0

theorem evenShifts_mem {u : Setup} {store : List (List Nat × List Nat)} {x : Int × Nat} :
    x ∈ evenShifts u store ↔ x ∈ curveOf u store ∧ x.1 % 2 = 0 := by
  simp [evenShifts]

/-- The best of the even shifts, of which COARSE evaluates the neighbours too (R60). -/
theorem evaluatedShifts_coarse {u : Setup} {store : List (List Nat × List Nat)}
    (hm : u.mode = .coarse) : ∃ best rest, sortShifts (evenShifts u store) = best :: rest ∧
      ∀ x, x ∈ evaluatedShifts u store ↔
        x ∈ curveOf u store ∧ (x.1 % 2 = 0 ∨ x.1 = best.1 - 1 ∨ x.1 = best.1 + 1) := by
  obtain ⟨best, rest, hb⟩ := exists_sortShifts
    (evenShifts_mem.mpr ⟨zero_mem_curveOf u store, Int.zero_emod 2⟩)
  refine ⟨best, rest, hb, fun x => ?_⟩
  unfold evenShifts at hb
  unfold evaluatedShifts
  simp [hm, hb, or_assoc]

theorem evaluatedShifts_all {u : Setup} {store : List (List Nat × List Nat)}
    (hm : u.mode ≠ .coarse) : evaluatedShifts u store = curveOf u store := by
  unfold evaluatedShifts
  split
  · rfl
  · rfl
  · next h => exact absurd h hm

theorem evaluatedShifts_sub {u : Setup} {store : List (List Nat × List Nat)} {x : Int × Nat}
    (hx : x ∈ evaluatedShifts u store) : x ∈ curveOf u store := by
  by_cases hm : u.mode = .coarse
  · obtain ⟨_, _, -, hmem⟩ := evaluatedShifts_coarse (store := store) hm
    exact ((hmem x).mp hx).1
  · exact evaluatedShifts_all hm ▸ hx

theorem zero_mem_evaluatedShifts (u : Setup) (store : List (List Nat × List Nat)) :
    (0, sad u store 0) ∈ evaluatedShifts u store := by
  by_cases hm : u.mode = .coarse
  · obtain ⟨_, _, -, hmem⟩ := evaluatedShifts_coarse (store := store) hm
    exact (hmem _).mpr ⟨zero_mem_curveOf u store, .inl rfl⟩
  · exact evaluatedShifts_all hm ▸ zero_mem_curveOf u store

/-- Both neighbours of a best shift inside the range are evaluated, in COARSE too: an odd best shift
has even neighbours, and an even one is the best of the even shifts. -/
theorem neighbours_evaluated {u : Setup} {store : List (List Nat × List Nat)} {best : Int × Nat}
    {rest : List (Int × Nat)} (h : sortShifts (evaluatedShifts u store) = best :: rest)
    (he : best.1.natAbs ≠ u.smax) {s : Int} (hs : s = best.1 - 1 ∨ s = best.1 + 1) :
    (s, sad u store s) ∈ evaluatedShifts u store := by
  obtain ⟨hmem, hfirst⟩ := sortShifts_head h
  obtain ⟨⟨hl, hh⟩, -⟩ := curveOf_mem.mp (evaluatedShifts_sub hmem)
  have curve : (s, sad u store s) ∈ curveOf u store :=
    curveOf_mem.mpr ⟨by constructor <;> dsimp only <;> omega, rfl⟩
  by_cases hm : u.mode = .coarse
  · obtain ⟨even, tail, heven, hev⟩ := evaluatedShifts_coarse (store := store) hm
    refine (hev _).mpr ⟨curve, ?_⟩
    by_cases hodd : best.1 % 2 = 0
    · obtain ⟨evenMem, evenFirst⟩ := sortShifts_head heven
      have same : best = even := NotAfter.antisymm
        (hfirst even ((hev even).mpr ⟨(evenShifts_mem.mp evenMem).1,
          .inl (evenShifts_mem.mp evenMem).2⟩))
        (evenFirst best (evenShifts_mem.mpr ⟨evaluatedShifts_sub hmem, hodd⟩))
      exact .inr (same ▸ hs)
    · exact .inl (by dsimp only; omega)
  · exact evaluatedShifts_all hm ▸ curve

theorem sadOf_eq {u : Setup} {store : List (List Nat × List Nat)} {l : List (Int × Nat)}
    (hl : ∀ x ∈ l, x.2 = sad u store x.1) {s : Int} (hs : (s, sad u store s) ∈ l) :
    sadOf l s = some (sad u store s) := by
  induction l with
  | nil => exact absurd hs List.not_mem_nil
  | cons x rest ih =>
    unfold sadOf
    split
    case isTrue h => rw [hl x List.mem_cons_self, h]
    case isFalse h =>
      refine ih (fun y hy => hl y (List.mem_cons_of_mem x hy)) ?_
      rcases List.mem_cons.mp hs with rfl | hr
      · exact absurd rfl h
      · exact hr

/-- The offset of R63, around a best shift. -/
theorem subpixel_eq {a b c : Nat} (ha : b ≤ a) (hc : b ≤ c) :
    let d : Int := (a : Int) - 2 * b + c
    0 ≤ d ∧ subpixel a b c = if d = 0 then 0
      else ((a : Int) - c).sign * max (-8) (min 8 (((16 * ((a : Int) - c).natAbs + d.natAbs) /
        (2 * d.natAbs) : Nat) : Int)) := by
  intro d
  have hd : 0 ≤ d := by omega
  refine ⟨hd, ?_⟩
  change (if d ≤ 0 then 0 else max (-8) (min 8 (roundAway (8 * ((a : Int) - c)) d.toNat))) = _
  by_cases h : d = 0
  · rw [if_pos (by omega), if_pos h]
  · rw [if_neg (by omega), if_neg h]
    have num : 2 * (8 * ((a : Int) - c)).natAbs + d.toNat =
        16 * ((a : Int) - c).natAbs + d.natAbs := by omega
    have den : 2 * d.toNat = 2 * d.natAbs := by omega
    unfold roundAway
    rw [num, den]
    dsimp only
    rcases Int.lt_trichotomy ((a : Int) - c) 0 with hx | hx | hx
    · rw [Int.sign_eq_neg_one_of_neg hx, if_pos (by omega)]
      omega
    · have none : (16 * ((a : Int) - c).natAbs + d.natAbs) / (2 * d.natAbs) = 0 :=
        Nat.div_eq_of_lt (by omega)
      rw [none, hx]
      rfl
    · rw [Int.sign_eq_one_of_pos hx, if_neg (by omega)]
      omega

/-- The fields of the results beside the best four (R61 to R64). -/
theorem curveResult_fields {u : Setup} {store : List (List Nat × List Nat)} {best : Int × Nat}
    {rest : List (Int × Nat)} (h : sortShifts (evaluatedShifts u store) = best :: rest) :
    ∃ r, curveResult u (evaluatedShifts u store) = some r ∧
      r.evaluated = (evaluatedShifts u store).length ∧ r.shift = best.1 ∧
      r.confidence = r.mean - sad u store r.shift ∧
      (r.shift.natAbs = u.smax → r.offset = none ∧ r.phase = 16 * r.shift) ∧
      (r.shift.natAbs ≠ u.smax →
        let o := subpixel (sad u store (r.shift - 1)) (sad u store r.shift)
          (sad u store (r.shift + 1))
        r.offset = some o ∧ r.phase = 16 * r.shift + o) := by
  have value : best.2 = sad u store best.1 :=
    (curveOf_mem.mp (evaluatedShifts_sub (sortShifts_head h).1)).2
  unfold curveResult
  rw [h]
  refine ⟨_, rfl, rfl, rfl, by rw [← value], fun he => ?_, fun he => ?_⟩
  · have edge : (best.1.natAbs == u.smax) = true := beq_iff_eq.mpr he
    simp [edge]
  · have edge : (best.1.natAbs == u.smax) = false := beq_eq_false_iff_ne.mpr he
    have sads := fun x hx => (curveOf_mem.mp (evaluatedShifts_sub (u := u) (store := store)
      (x := x) hx)).2
    simp only [edge, sadOf_eq sads (neighbours_evaluated h he (.inl rfl)),
      sadOf_eq sads (neighbours_evaluated h he (.inr rfl)), value]
    exact ⟨rfl, rfl⟩

theorem measure_short (n : PdSnapshot) (store : List (List Nat × List Nat)) {pairs : Nat}
    (time : Time) (kind : FrameKind) (shot : Option Nat) (h : pairs < n.setup.n) :
    measure n store pairs time kind shot =
      { time := time, kind := kind, shot := shot, area := n.area, setup := n.setup,
        spanStart := n.spanStart, pairs := pairs, outcome := .short, edge := false,
        result := none } :=
  if_pos h

theorem measure_of_result {n : PdSnapshot} {store : List (List Nat × List Nat)} {pairs : Nat}
    (time : Time) (kind : FrameKind) (shot : Option Nat) (h : ¬ pairs < n.setup.n) {r : CurveResult}
    (hr : curveResult n.setup (evaluatedShifts n.setup store) = some r) :
    measure n store pairs time kind shot =
      { time := time, kind := kind, shot := shot, area := n.area, setup := n.setup,
        spanStart := n.spanStart, pairs := pairs,
        outcome := if r.shift.natAbs == n.setup.smax || decide (r.confidence < n.setup.cmin)
          then .low else .valid,
        edge := r.shift.natAbs == n.setup.smax, result := some r } := by
  unfold measure
  dsimp only
  rw [if_neg h, hr]

/-- Settles O23: the measurement is that of the best shift (`curveResult_fields`), whose neighbours
are evaluated (`neighbours_evaluated`) and have no lower SAD. -/
theorem focusMeasurement : Obligations.FocusMeasurement := by
  refine ⟨fun u area ha hw hw' hs hs' => ⟨rfl, ?_, spanStart_eq u area (by omega), ?_⟩, ?_⟩
  · unfold bandStart areaRow
    omega
  · unfold spanStart
    omega
  intro n store pairs time kind shot u m
  obtain ⟨best, rest, hb⟩ := exists_sortShifts (zero_mem_evaluatedShifts u store)
  obtain ⟨r, hr, hlen, hshift, hconf, hedge, hinner⟩ := curveResult_fields hb
  by_cases hp : pairs < u.n
  · have short : m = _ := measure_short n store time kind shot hp
    rw [short]
    exact ⟨rfl, rfl, rfl, rfl, rfl, rfl, rfl, fun _ => ⟨rfl, rfl, rfl, if_pos hp⟩,
      fun h => absurd hp (Nat.not_lt.mpr h)⟩
  · have full : m = _ := measure_of_result time kind shot hp hr
    rw [full]
    refine ⟨rfl, rfl, rfl, rfl, rfl, rfl, rfl, fun h => absurd h hp, fun _ _ =>
      ⟨r, rfl, hr, hlen, hconf, fun he => ?_, ?_, ?_⟩⟩
    · obtain ⟨hoff, hphase⟩ := hedge he
      simp [show n.setup.smax = r.shift.natAbs from he.symm, hoff, hphase]
    · intro he a b c d o
      obtain ⟨hoff, hphase⟩ := hinner he
      obtain ⟨-, hfirst⟩ := sortShifts_head hb
      have lower : ∀ s, s = best.1 - 1 ∨ s = best.1 + 1 →
          sad u store r.shift ≤ sad u store s := by
        intro s hs
        have near := neighbours_evaluated hb (hshift ▸ he) hs
        have first := hfirst _ near
        have value := (curveOf_mem.mp (evaluatedShifts_sub (sortShifts_head hb).1)).2
        unfold NotAfter at first
        rw [hshift, ← value]
        dsimp only at first
        omega
      obtain ⟨hd, ho⟩ := subpixel_eq (lower (r.shift - 1) (.inl (by rw [hshift])))
        (lower (r.shift + 1) (.inr (by rw [hshift])))
      have inside : (r.shift.natAbs == n.setup.smax) = false := beq_eq_false_iff_ne.mpr he
      refine ⟨hd, inside, hoff.trans (congrArg some ho), ?_, ?_⟩
      · rw [hphase, ho]
      · dsimp only
        rw [inside, Bool.false_or]
        by_cases hc : u.cmin ≤ r.confidence
        · rw [if_pos hc, if_neg (by simpa using hc)]
        · rw [if_neg hc, if_pos (by simpa using hc)]
    · unfold keptCurve
      rw [if_neg hp]
      have sads : (curveOf u store).map Prod.snd =
          (List.range (2 * u.smax + 1)).map fun i : Nat => sad u store ((i : Int) - u.smax) := by
        simp only [curveOf, allShifts, List.map_map]
        rfl
      cases hm : u.mode with
      | curve => exact (if_pos rfl).symm ▸ sads
      | full | coarse => exact (if_neg nofun).symm

end Sys2Proof.Machine
end

section
/-! PROOFS. Allocation and free of the buffer's blocks (R2 to R7). -/
namespace Sys2Proof.Machine

/-! ### Sums of blocks -/

theorem totalBlocks_eq_sum (rs : List Run) : totalBlocks rs = (rs.map Run.count).sum := by
  induction rs with
  | nil => rfl
  | cons r rest ih => exact congrArg (r.count + ·) ih

theorem totalBlocks_append (a b : List Run) :
    totalBlocks (a ++ b) = totalBlocks a + totalBlocks b := by
  simp [totalBlocks_eq_sum]

theorem totalBlocks_perm {a b : List Run} (h : a.Perm b) : totalBlocks a = totalBlocks b := by
  rw [totalBlocks_eq_sum, totalBlocks_eq_sum]
  exact (h.map _).sum_nat

/-! ### The largest run -/

/-- The order in which runs are taken: larger first, the lower address first among equals (R4). -/
def TakenBefore (a b : Run) : Prop := b.count < a.count ∨ (a.count = b.count ∧ a.first < b.first)

theorem TakenBefore.ne {a b : Run} (h : TakenBefore a b) : a ≠ b := by
  rintro rfl
  unfold TakenBefore at h
  omega

theorem runsWf_first {low : Nat} {rs : List Run} (hw : runsWf low rs = true) {r : Run}
    (hr : r ∈ rs) : low ≤ r.first := by
  induction rs generalizing low with
  | nil => exact absurd hr List.not_mem_nil
  | cons q rest ih =>
    obtain ⟨hl, -, -, hrest⟩ := runsWf_cons.mp hw
    rcases List.mem_cons.mp hr with rfl | h
    · exact hl
    · have := ih hrest h
      omega

theorem largestRun_eq_none {rs : List Run} (h : largestRun rs = none) : rs = [] := by
  cases rs with
  | nil => rfl
  | cons r rest =>
    rw [largestRun] at h
    split at h
    · cases h
    · split at h <;> cases h

theorem largestRun_first {low : Nat} {rs : List Run} (hw : runsWf low rs = true) {r : Run}
    (h : largestRun rs = some r) : ∀ q ∈ rs, q ≠ r → TakenBefore r q := by
  induction rs generalizing low r with
  | nil => exact fun q hq => absurd hq List.not_mem_nil
  | cons x rest ih =>
    obtain ⟨-, hx, -, hrest⟩ := runsWf_cons.mp hw
    have later : ∀ q ∈ rest, x.first < q.first := fun q hq => by
      have := runsWf_first hrest hq
      omega
    rw [largestRun] at h
    split at h
    case h_1 hn =>
      cases h
      rw [largestRun_eq_none hn]
      intro q hq hne
      exact absurd (List.mem_singleton.mp hq) hne
    case h_2 y hy =>
      split at h
      case isTrue hlt =>
        cases h
        exact List.forall_mem_cons.mpr ⟨fun _ => .inl hlt, ih hrest hy⟩
      case isFalse hge =>
        cases h
        refine List.forall_mem_cons.mpr ⟨fun hne => absurd rfl hne, fun q hq _ => ?_⟩
        have hxq := later q hq
        by_cases hqy : q = y
        · subst hqy
          unfold TakenBefore
          omega
        · have := ih hrest hy q hq hqy
          unfold TakenBefore at *
          omega

theorem runsWf_nodup {low : Nat} {rs : List Run} (hw : runsWf low rs = true) : rs.Nodup := by
  induction rs generalizing low with
  | nil => exact List.nodup_nil
  | cons r rest ih =>
    obtain ⟨-, hr, -, hrest⟩ := runsWf_cons.mp hw
    refine List.nodup_cons.mpr ⟨fun hm => ?_, ih hrest⟩
    have := runsWf_first hrest hm
    omega

/-! ### Blocks taken from one run -/

theorem takeFrom_whole (rs : List Run) (r : Run) : takeFrom rs r r.count = rs.erase r := by
  induction rs with
  | nil => rfl
  | cons q rest ih =>
    rw [takeFrom, List.erase_cons, if_neg (Nat.lt_irrefl _), ih]
    simp only [beq_iff_eq]

theorem takeFrom_mem {rs : List Run} {r : Run} {n : Nat} (hd : rs.Nodup) (hr : r ∈ rs)
    (hn : n ≤ r.count) (q : Run) : q ∈ takeFrom rs r n ↔
      (q ∈ rs ∧ q ≠ r) ∨ (n < r.count ∧ q = ⟨r.first + n, r.count - n⟩) := by
  induction rs with
  | nil => exact absurd hr List.not_mem_nil
  | cons x rest ih =>
    obtain ⟨hx, hrest⟩ := List.nodup_cons.mp hd
    rw [takeFrom]
    split
    case isTrue he =>
      subst he
      have kept : q ∈ rest ↔ q ∈ x :: rest ∧ q ≠ x :=
        ⟨fun h => ⟨List.mem_cons_of_mem x h, fun e => hx (e ▸ h)⟩,
          fun h => (List.mem_cons.mp h.1).resolve_left h.2⟩
      split
      case isTrue hlt => rw [List.mem_cons, kept, or_comm, and_iff_right hlt]
      case isFalse hge => rw [kept, iff_self_or]; exact fun h => absurd h.1 hge
    case isFalse he =>
      have hr' : r ∈ rest := (List.mem_cons.mp hr).resolve_left fun e => he e.symm
      rw [List.mem_cons, ih hrest hr', List.mem_cons]
      constructor
      · rintro (rfl | ⟨h, k⟩ | h)
        · exact .inl ⟨.inl rfl, he⟩
        · exact .inl ⟨.inr h, k⟩
        · exact .inr h
      · rintro (⟨rfl | h, k⟩ | h)
        · exact .inl rfl
        · exact .inr (.inl ⟨h, k⟩)
        · exact .inr (.inr h)

theorem takeFrom_total {rs : List Run} {r : Run} {n : Nat} (hr : r ∈ rs) (hn : n ≤ r.count) :
    totalBlocks (takeFrom rs r n) + n = totalBlocks rs := by
  induction rs with
  | nil => exact absurd hr List.not_mem_nil
  | cons x rest ih =>
    rw [takeFrom]
    split
    case isTrue he =>
      subst he
      split
      · simp only [totalBlocks]
        omega
      · simp only [totalBlocks]
        omega
    case isFalse he =>
      have := ih ((List.mem_cons.mp hr).resolve_left fun e => he e.symm)
      simp only [totalBlocks]
      omega

/-! ### The runs taken -/

/-- The runs that an allocation takes: `whole` as they are and `last` from its low end (R4). -/
structure TakenAs (rs es left : List Run) (need : Nat) (whole : List Run) (last : Run) : Prop where
  mem : ∀ r ∈ whole ++ [last], r ∈ rs
  order : (whole ++ [last]).Pairwise TakenBefore
  first : ∀ r ∈ rs, r ∉ whole ++ [last] → ∀ q ∈ whole ++ [last], TakenBefore q r
  short : totalBlocks whole < need
  enough : need - totalBlocks whole ≤ last.count
  extents : es = whole ++ [⟨last.first, need - totalBlocks whole⟩]
  left : ∀ r, r ∈ left ↔ (r ∈ rs ∧ r ∉ whole ++ [last]) ∨
    (need - totalBlocks whole < last.count ∧ r = ⟨last.first + (need - totalBlocks whole),
      last.count - (need - totalBlocks whole)⟩)

theorem takeRuns_taken {low k need : Nat} {rs es left : List Run} (hw : runsWf low rs = true)
    (h0 : 0 < need) (h : takeRuns k need rs = some (es, left)) :
    totalBlocks left + need = totalBlocks rs ∧ ∃ whole last, TakenAs rs es left need whole last := by
  induction k generalizing need rs es left with
  | zero => cases h
  | succ k ih =>
    rw [takeRuns] at h
    split at h
    case h_1 => cases h
    case h_2 r hr =>
      have hm := largestRun_mem hr
      have hfirst := largestRun_first hw hr
      have hc := runsWf_count hw r hm
      split at h
      case isTrue hle =>
        cases h
        refine ⟨takeFrom_total hm hle, [], r, ?_, ?_, ?_, h0, hle, rfl, ?_⟩
        · simpa using hm
        · exact List.pairwise_singleton _ _
        · intro q hq hn p hp
          obtain rfl := List.mem_singleton.mp hp
          exact hfirst q hq fun e => hn (List.mem_singleton.mpr e)
        · intro q
          rw [takeFrom_mem (runsWf_nodup hw) hm hle]
          simp [totalBlocks]
      case isFalse hlt =>
        split at h
        case h_1 => cases h
        case h_2 es' left' he =>
          cases h
          obtain ⟨htotal, whole, last, taken⟩ :=
            ih (runsWf_takeFrom low r.count rs r hw hc) (by omega) he
          have rest : ∀ q, q ∈ takeFrom rs r r.count ↔ q ∈ rs ∧ q ≠ r := fun q => by
            rw [takeFrom_mem (runsWf_nodup hw) hm (Nat.le_refl _)]
            simp
          have sum : totalBlocks (r :: whole) = r.count + totalBlocks whole := rfl
          have part : need - totalBlocks (r :: whole) = need - r.count - totalBlocks whole := by
            omega
          have short := taken.short
          have enough := taken.enough
          have total := takeFrom_total hm (Nat.le_refl r.count)
          refine ⟨by omega, r :: whole, last, ?_, ?_, ?_, by omega, by omega, ?_, ?_⟩
          · exact List.forall_mem_cons.mpr ⟨hm, fun q hq => ((rest q).mp (taken.mem q hq)).1⟩
          · refine List.pairwise_cons.mpr ⟨fun q hq => ?_, taken.order⟩
            obtain ⟨hq, hne⟩ := (rest q).mp (taken.mem q hq)
            exact hfirst q hq hne
          · intro q hq hn
            have hne : q ≠ r := fun e => hn (e ▸ List.mem_cons_self)
            exact List.forall_mem_cons.mpr ⟨hfirst q hq hne,
              taken.first q ((rest q).mpr ⟨hq, hne⟩) fun hm => hn (List.mem_cons_of_mem r hm)⟩
          · rw [part, taken.extents]
            rfl
          · intro q
            rw [part, taken.left q, rest q]
            simp [and_assoc]

/-- Without enough blocks in the largest `k` runs no `k` runs have enough. -/
theorem takeRuns_none {low k need : Nat} {rs : List Run} (hw : runsWf low rs = true)
    (h0 : 0 < need) (h : takeRuns k need rs = none) {l : List Run} (hl : l.Sublist rs)
    (hk : l.length ≤ k) : totalBlocks l < need := by
  induction k generalizing need rs l with
  | zero =>
    obtain rfl := List.length_eq_zero_iff.mp (Nat.le_zero.mp hk)
    exact h0
  | succ k ih =>
    cases l with
    | nil => exact h0
    | cons x tail =>
      rw [takeRuns] at h
      split at h
      case h_1 hn =>
        rw [largestRun_eq_none hn] at hl
        cases hl
      case h_2 r hr =>
        have hm := largestRun_mem hr
        split at h
        case isTrue => cases h
        case isFalse hlt =>
          split at h
          case h_2 => cases h
          case h_1 he =>
            have wf := runsWf_takeFrom low r.count rs r hw (runsWf_count hw r hm)
            have erased : ((x :: tail).erase r).Sublist (takeFrom rs r r.count) :=
              takeFrom_whole rs r ▸ hl.erase r
            by_cases hmem : r ∈ x :: tail
            · have bound := ih wf (by omega) he erased
                (by rw [List.length_erase_of_mem hmem]; exact Nat.sub_le_of_le_add hk)
              have := totalBlocks_perm (List.perm_cons_erase hmem)
              change _ = r.count + totalBlocks ((x :: tail).erase r) at this
              omega
            · rw [List.erase_of_not_mem hmem] at erased
              have bound := ih wf (by omega) he ((List.sublist_cons_self x tail).trans erased)
                (Nat.le_of_succ_le_succ hk)
              have largest := largestRun_first hw hr x (hl.subset List.mem_cons_self)
                fun e => hmem (e ▸ List.mem_cons_self)
              unfold TakenBefore at largest
              show x.count + totalBlocks tail < need
              omega

/-- Members of a list without repetition are, in some order, a part of the list that holds them. -/
theorem exists_sublist_perm {a rs : List Run} (hd : a.Nodup) (hm : ∀ r ∈ a, r ∈ rs) :
    ∃ l : List Run, l.Perm a ∧ l.Sublist rs := by
  induction rs generalizing a with
  | nil =>
    have none_ : a = [] := List.eq_nil_iff_forall_not_mem.mpr fun r hr => nomatch hm r hr
    exact ⟨[], by rw [none_], .slnil⟩
  | cons x rest ih =>
    by_cases hx : x ∈ a
    · obtain ⟨l, hp, hs⟩ := ih (hd.erase x) fun r hr => by
        obtain ⟨ne, hr⟩ := hd.mem_erase_iff.mp hr
        exact (List.mem_cons.mp (hm r hr)).resolve_left ne
      exact ⟨x :: l, (hp.cons x).trans (List.perm_cons_erase hx).symm, hs.cons_cons x⟩
    · obtain ⟨l, hp, hs⟩ := ih hd fun r hr =>
        (List.mem_cons.mp (hm r hr)).resolve_left fun e => hx (e ▸ hr)
      exact ⟨l, hp, hs.cons x⟩

theorem TakenAs.sublist {rs es left : List Run} {need : Nat} {whole : List Run} {last : Run}
    (h : TakenAs rs es left need whole last) :
    ∃ l : List Run, l.Sublist rs ∧ l.length = whole.length + 1 ∧ need ≤ totalBlocks l := by
  have nodup : (whole ++ [last]).Nodup := h.order.imp TakenBefore.ne
  obtain ⟨l, hp, hs⟩ := exists_sublist_perm nodup h.mem
  have enough := h.enough
  refine ⟨l, hs, by rw [hp.length_eq, List.length_append]; rfl, ?_⟩
  rw [totalBlocks_perm hp, totalBlocks_append]
  show need ≤ totalBlocks whole + (last.count + 0)
  omega

/-! ### Allocation -/

theorem allocate_space_iff {need : Nat} {rs : List Run} :
    allocate need rs = .space ↔ totalBlocks rs < need := by
  unfold allocate
  split
  · next h => simp [h]
  · next h => split <;> simp [h]

theorem allocate_done_iff {need : Nat} {rs es left : List Run} :
    allocate need rs = .done es left ↔
      need ≤ totalBlocks rs ∧ takeRuns 6 need rs = some (es, left) := by
  unfold allocate
  split
  · next h => simp [Nat.not_le.mpr h]
  · next h =>
    split
    · next hs => simp [hs, Nat.not_lt.mp h]
    · next hs => simp [hs]

theorem allocate_fragmented_iff {need : Nat} {rs : List Run} :
    allocate need rs = .fragmented ↔ need ≤ totalBlocks rs ∧ takeRuns 6 need rs = none := by
  unfold allocate
  split
  · next h => simp [Nat.not_le.mpr h]
  · next h =>
    split
    · next hs => simp [hs]
    · next hs => simp [hs, Nat.not_lt.mp h]

theorem fragmented_iff_sublists {need : Nat} {rs : List Run} (h0 : 0 < need)
    (hw : runsWf 0 rs = true) : allocate need rs = .fragmented ↔ need ≤ totalBlocks rs ∧
      ∀ l : List Run, l.Sublist rs → l.length ≤ 6 → totalBlocks l < need := by
  rw [allocate_fragmented_iff]
  refine and_congr_right fun _ => ⟨fun h l hl hk => takeRuns_none hw h0 h hl hk, fun h => ?_⟩
  cases ht : takeRuns 6 need rs with
  | none => rfl
  | some x =>
    obtain ⟨es, left⟩ := x
    obtain ⟨-, whole, last, taken⟩ := takeRuns_taken hw h0 ht
    obtain ⟨l, hs, hlen, hneed⟩ := taken.sublist
    have few := (takeRuns_length ht).2
    rw [taken.extents, List.length_append] at few
    exact absurd (h l hs (hlen ▸ few)) (Nat.not_lt.mpr hneed)

theorem covered_below {low : Nat} {rs : List Run} (hw : runsWf low rs = true) {n : Nat}
    (hn : n < low) : covered n rs = 0 := by
  rw [covered, List.countP_eq_zero]
  intro r hr
  have := runsWf_first hw hr
  simp only [Bool.and_eq_true, decide_eq_true_eq]
  omega

theorem covered_le_one {low : Nat} {rs : List Run} (hw : runsWf low rs = true) (n : Nat) :
    covered n rs ≤ 1 := by
  induction rs generalizing low with
  | nil => exact Nat.zero_le _
  | cons r rest ih =>
    obtain ⟨-, -, -, hrest⟩ := runsWf_cons.mp hw
    rw [covered_cons]
    split
    case isTrue h => exact Nat.le_of_eq (congrArg (· + 1) (covered_below hrest (by omega)))
    case isFalse => exact ih hrest

/-- Two runs that share a block both cover it. -/
theorem overlaps_covered {a b : List Run} {r e : Run} (hr : r ∈ a) (he : e ∈ b) (h0 : 0 < r.count)
    (h1 : 0 < e.count) (h : overlaps r e = true) :
    ∃ n, 0 < covered n a ∧ 0 < covered n b := by
  simp only [overlaps, Bool.and_eq_true, decide_eq_true_eq] at h
  exact ⟨max r.first e.first, covered_pos_of_mem hr (by omega) (by omega),
    covered_pos_of_mem he (by omega) (by omega)⟩

theorem allocate_apart {need : Nat} {rs es left : List Run} (h0 : 0 < need)
    (hw : runsWf 0 rs = true) (h : allocate need rs = .done es left) {e r : Run} (he : e ∈ es)
    (hr : r ∈ left) : overlaps r e = false := by
  obtain ⟨hcov, hleft, hpos⟩ := allocate_spec hw h0 h
  refine Bool.eq_false_iff.mpr fun hov => ?_
  obtain ⟨n, hn, hn'⟩ := overlaps_covered hr he (runsWf_count hleft r hr) (hpos e he) hov
  have := covered_le_one hw n
  rw [hcov n] at this
  omega

/-! ### Free -/

theorem totalBlocks_insertRun (rs : List Run) (e : Run) :
    totalBlocks (insertRun rs e) = totalBlocks rs + e.count := by
  induction rs generalizing e with
  | nil => exact Nat.add_comm _ _
  | cons r rest ih =>
    rw [insertRun]
    split
    · simp only [totalBlocks]
      omega
    · split
      · simp only [totalBlocks]
        omega
      · split
        · rw [ih]
          simp only [totalBlocks]
          omega
        · simp only [totalBlocks, ih]
          omega

theorem totalBlocks_insertRuns (rs es : List Run) :
    totalBlocks (insertRuns rs es) = totalBlocks rs + totalBlocks es := by
  induction es generalizing rs with
  | nil => rfl
  | cons e rest ih =>
    rw [insertRuns, ih, totalBlocks_insertRun]
    simp only [totalBlocks]
    omega

theorem covered_apart {rs : List Run} {e : Run} (h : ∀ r ∈ rs, overlaps r e = false) {n : Nat}
    (h1 : e.first ≤ n) (h2 : n < e.first + e.count) : covered n rs = 0 := by
  rw [covered, List.countP_eq_zero]
  intro r hr
  have apart := h r hr
  simp only [overlaps, Bool.and_eq_false_iff, decide_eq_false_iff_not] at apart
  simp only [Bool.and_eq_true, decide_eq_true_eq]
  omega

/-- The needs in blocks (R3). -/
theorem blocks_needed :
    Config.rawBytes = 42590016 ∧ blocksFor Config.rawBytes = 163 ∧
    blocksFor Config.rawBytes * 262144 - Config.rawBytes = 139456 ∧
    Config.rawBlocks = blocksFor Config.rawBytes ∧
    Scale.s2.bytes = 18252864 ∧ blocksFor Scale.s2.bytes = 70 ∧
    blocksFor Scale.s2.bytes * 262144 - Scale.s2.bytes = 97216 ∧
    Scale.s4.bytes = 4563216 ∧ blocksFor Scale.s4.bytes = 18 ∧
    blocksFor Scale.s4.bytes * 262144 - Scale.s4.bytes = 155376 ∧
    Scale.s8.bytes = 1140804 ∧ blocksFor Scale.s8.bytes = 5 ∧
    blocksFor Scale.s8.bytes * 262144 - Scale.s8.bytes = 169916 := by
  decide

/-- Settles O17. -/
theorem allocationAndFree : Obligations.AllocationAndFree := by
  refine ⟨blocks_needed, fun need rs h0 hw => ⟨allocate_space_iff, fragmented_iff_sublists h0 hw,
    fun es left h => ?_, fun es => ⟨totalBlocks_insertRuns rs es, fun n => covered_insertRuns n rs es⟩,
    fun e hc hb hov => runsWf_insertRun hw (Nat.zero_le _) (Nat.zero_le _) hc hb fun n h1 h2 =>
      covered_apart hov h1 h2⟩⟩
  obtain ⟨-, ht⟩ := allocate_done_iff.mp h
  obtain ⟨htotal, whole, last, taken⟩ := takeRuns_taken hw h0 ht
  obtain ⟨hone, hsix⟩ := allocate_length h
  obtain ⟨hcov, hleft, -⟩ := allocate_spec hw h0 h
  have short := taken.short
  have sum : totalBlocks es = need := by
    rw [taken.extents, totalBlocks_append]
    show totalBlocks whole + (need - totalBlocks whole + 0) = need
    omega
  exact ⟨sum, htotal, hone, hsix, hleft, fun e he r hr => allocate_apart h0 hw h he hr,
    fun n => (hcov n).symm, whole, last, taken.mem, taken.order, taken.first, short, taken.enough,
    taken.extents, taken.left⟩

end Sys2Proof.Machine
end

section
/-! PROOFS. Who is granted the DRAM (R8). -/
namespace Sys2Proof.Machine

/-! ### What a transfer asks for -/

theorem locate_mem {extents : List Run} {off a left : Nat} (h : locate extents off = some (a, left)) :
    ∃ e ∈ extents, e.first * 262144 ≤ a ∧ 0 < left ∧ a + left = (e.first + e.count) * 262144 := by
  have block : Config.blockBytes = 262144 := rfl
  induction extents generalizing off with
  | nil => cases h
  | cons e rest ih =>
    rw [locate, block] at h
    split at h
    case isTrue hlt =>
      cases h
      exact ⟨e, List.mem_cons_self, by omega, by omega, by omega⟩
    case isFalse =>
      obtain ⟨x, hx, hfacts⟩ := ih h
      exact ⟨x, List.mem_cons_of_mem e hx, hfacts⟩

theorem transferAt_some {q : Requester} {extents : List Run} {off want : Nat} {t : Transfer}
    (h : transferAt q extents off want = some t) :
    t.requester = q ∧ t.live = true ∧ 0 < t.length ∧ t.length ≤ 4096 ∧
      ∃ e ∈ extents, e.first * 262144 ≤ t.addr ∧
        t.addr + t.length ≤ (e.first + e.count) * 262144 := by
  have most : Config.maxTransfer = 4096 := rfl
  unfold transferAt at h
  split at h
  · cases h
  · split at h
    · cases h
    · next hw _ a left hl =>
      cases h
      obtain ⟨e, he, h1, h2, h3⟩ := locate_mem hl
      exact ⟨rfl, rfl, by dsimp only; omega, by dsimp only; omega, e, he, h1, by dsimp only; omega⟩

theorem Record.extents_mem {r : Record} {part : Part} {version : Option Nat} {e : Run}
    (h : e ∈ r.extents part version) :
    e ∈ r.raw.extents ∨ ∃ v, v ∈ r.versions ∧ e ∈ v.extents := by
  unfold Record.extents at h
  split at h
  · exact .inl h
  · split at h
    · cases h
    · split at h
      · next v hv => exact .inr ⟨v, List.mem_of_find?_eq_some hv, h⟩
      · cases h

/-- A transfer of a requester inside one extent of a part. -/
def InPart (s : State) (q : Requester) (t : Transfer) : Prop :=
  t.requester = q ∧ t.live = true ∧ 0 < t.length ∧ t.length ≤ 4096 ∧
    ∃ r e, r ∈ s.catalog ∧ (e ∈ r.raw.extents ∨ ∃ v, v ∈ r.versions ∧ e ∈ v.extents) ∧
      e.first * 262144 ≤ t.addr ∧ t.addr + t.length ≤ (e.first + e.count) * 262144

theorem transferAt_inPart {s : State} {q : Requester} {n : Nat} {r : Record}
    (hr : s.findRecord n = some r) {extents : List Run}
    (hp : ∀ e ∈ extents, e ∈ r.raw.extents ∨ ∃ v, v ∈ r.versions ∧ e ∈ v.extents)
    {off want : Nat} {t : Transfer} (h : transferAt q extents off want = some t) : InPart s q t := by
  obtain ⟨hq, hl, h0, hm, e, he, hlow, hhigh⟩ := transferAt_some h
  exact ⟨hq, hl, h0, hm, r, e, findRecord_mem hr, hp e he, hlow, hhigh⟩

theorem wantRsq_inPart {s : State} {t : Transfer} (h : s.wantRsq = some t) : InPart s .rsq t := by
  unfold State.wantRsq at h
  split at h
  · split at h
    · next hr => exact transferAt_inPart hr (fun _ he => .inl he) h
    · cases h
  · cases h

theorem wantMed_inPart {s : State} {x : Slot} {t : Transfer} (h : s.wantMed x = some t) :
    InPart s (.med x) t := by
  unfold State.wantMed at h
  split at h
  · split at h
    · next hr => exact transferAt_inPart hr (fun _ he => Record.extents_mem he) h
    · cases h
  · cases h

theorem wantPrt_inPart {s : State} {p : Port} {t : Transfer} (h : s.wantPrt p = some t) :
    InPart s (.prt p) t := by
  unfold State.wantPrt at h
  split at h
  · split at h
    · split at h
      · next hr => exact transferAt_inPart hr (fun _ he => Record.extents_mem he) h
      · cases h
    all_goals cases h
  · cases h

theorem wantDev_inPart {s : State} {t : Transfer} (h : s.wantDev = some t) :
    InPart s .devRead t ∨ InPart s .devWrite t := by
  unfold State.wantDev at h
  split at h
  · split at h
    · split at h
      · next hr =>
        split at h
        · exact .inl (transferAt_inPart hr (fun _ he => .inl he) h)
        · exact .inr (transferAt_inPart hr (fun _ he => Record.extents_mem he) h)
      · cases h
    · cases h
  · cases h

theorem orElse_some {α : Type} {o : Option α} {f : Unit → Option α} {x : α}
    (h : o.orElse f = some x) : o = some x ∨ f () = some x := by
  cases o with
  | none => exact .inr h
  | some y => exact .inl h

theorem wantClass2_inPart {s : State} {t : Transfer} (h : s.wantClass2 = some t) :
    ∃ x, InPart s (.med x) t := by
  have asked : ∃ x, s.wantMed x = some t := by
    unfold State.wantClass2 at h
    split at h <;> exact (orElse_some h).elim (fun h => ⟨_, h⟩) fun h => ⟨_, h⟩
  exact asked.imp fun x => wantMed_inPart

theorem wantClass3_inPart {s : State} {t : Transfer} (h : s.wantClass3 = some t) :
    ∃ p, InPart s (.prt p) t := by
  have asked : ∃ p, s.wantPrt p = some t := by
    unfold State.wantClass3 at h
    dsimp only at h
    split at h <;> exact (orElse_some h).elim (fun h => ⟨_, h⟩) fun h =>
      (orElse_some h).elim (fun h => ⟨_, h⟩) fun h => ⟨_, h⟩
  exact asked.imp fun p => wantPrt_inPart

theorem nextTransfer_inPart {s : State} {t : Transfer} (h : s.nextTransfer = some t) :
    ∃ q, InPart s q t := by
  unfold State.nextTransfer at h
  rcases orElse_some h with h | h
  · exact ⟨_, wantRsq_inPart h⟩
  · rcases orElse_some h with h | h
    · exact (wantClass2_inPart h).elim fun x h => ⟨_, h⟩
    · rcases orElse_some h with h | h
      · exact (wantClass3_inPart h).elim fun p h => ⟨_, h⟩
      · exact (wantDev_inPart h).elim (fun h => ⟨_, h⟩) fun h => ⟨_, h⟩

/-! ### The grant -/

theorem grant_busy {s : State} (h : s.arb.current.isSome = true) : s.grant = s := by
  obtain ⟨t, ht⟩ := Option.isSome_iff_exists.mp h
  unfold State.grant
  rw [ht]

theorem grant_nothing {s : State} (hc : s.arb.current = none) (h : s.nextTransfer = none) :
    s.grant = s := by
  unfold State.grant
  rw [hc, h]

/-- The arbiter after a grant: the turns of classes 2 and 3 move on (R8). -/
def Arbiter.granted (a : Arbiter) (q : Requester) (t : Transfer) : Arbiter :=
  match q with
  | .med x => { a with current := some t, lastSlot := x }
  | .prt p => { a with current := some t, lastPort := p }
  | .rsq => { a with current := some t }
  | .devRead => { a with current := some t }
  | .devWrite => { a with current := some t }

theorem grant_some {s : State} {t : Transfer} {q : Requester} (hc : s.arb.current = none)
    (h : s.nextTransfer = some t) (hq : t.requester = q) :
    s.grant = { s with arb := s.arb.granted q t } := by
  unfold State.grant
  rw [hc, h]
  cases q <;> simp only [hq] <;> rfl

/-! ### The order of the classes -/

theorem orElse_none {α : Type} {o : Option α} {f : Unit → Option α} (h : o = none) :
    o.orElse f = f () := by
  rw [h]
  rfl

theorem orElse_of_some {α : Type} {o : Option α} {f : Unit → Option α} {x : α} (h : o = some x) :
    o.orElse f = some x := by
  rw [h]
  rfl

theorem nextTransfer_rsq {s : State} {t : Transfer} (h : s.wantRsq = some t) :
    s.nextTransfer = some t := orElse_of_some h

theorem nextTransfer_class2 {s : State} (h : s.wantRsq = none) : s.nextTransfer =
    s.wantClass2.orElse fun _ => s.wantClass3.orElse fun _ => s.wantDev := orElse_none h

theorem wantClass2_none {s : State} (ha : s.wantMed .a = none) (hb : s.wantMed .b = none) :
    s.wantClass2 = none := by
  unfold State.wantClass2
  rw [ha, hb]
  split <;> rfl

theorem wantClass3_none {s : State} (h : ∀ p, s.wantPrt p = none) : s.wantClass3 = none := by
  unfold State.wantClass3
  rw [h, h, h]
  split <;> rfl

/-- The slot that was not served last comes first, the other one when the first does not wait. -/
theorem wantClass2_some {s : State} {x : Slot} {t : Transfer} (h : s.wantMed x = some t)
    (hx : s.arb.lastSlot ≠ x ∨ ∀ y, y ≠ x → s.wantMed y = none) : s.wantClass2 = some t := by
  unfold State.wantClass2
  cases x with
  | a =>
    have other : s.arb.lastSlot = .a → s.wantMed .b = none := fun e =>
      hx.elim (fun n => absurd e n) fun n => n .b nofun
    split
    · exact orElse_of_some h
    · next e => exact (orElse_none (other e)).trans h
  | b =>
    have other : s.arb.lastSlot = .b → s.wantMed .a = none := fun e =>
      hx.elim (fun n => absurd e n) fun n => n .a nofun
    split
    · next e => exact (orElse_none (other e)).trans h
    · exact orElse_of_some h

/-- The ports that come before a port in the rotation after the port served last. -/
def portsBefore (last p : Port) : List Port :=
  match last, p with
  | .relay, .body => []
  | .relay, .tether => [.body]
  | .relay, .relay => [.body, .tether]
  | .body, .tether => []
  | .body, .relay => [.tether]
  | .body, .body => [.tether, .relay]
  | .tether, .relay => []
  | .tether, .body => [.relay]
  | .tether, .tether => [.relay, .body]

theorem wantClass3_some {s : State} {p : Port} {t : Transfer} (h : s.wantPrt p = some t)
    (hp : ∀ q ∈ portsBefore s.arb.lastPort p, s.wantPrt q = none) : s.wantClass3 = some t := by
  unfold State.wantClass3
  cases hl : s.arb.lastPort <;> cases p <;> rw [hl] at hp <;>
    simp_all [portsBefore, Option.orElse]

/-- Settles O18. -/
theorem dramGrants : Obligations.DramGrants := by
  refine ⟨rfl, rfl, fun s => ⟨grant_busy, ?_⟩⟩
  intro hc class2 class3 class4
  have idle2 : class3 → s.nextTransfer = s.wantClass3.orElse fun _ => s.wantDev := fun h =>
    (nextTransfer_class2 h.1).trans (orElse_none (wantClass2_none h.2.1 h.2.2))
  have idle3 : class4 → s.nextTransfer = s.wantDev := fun h =>
    (idle2 h.1).trans (orElse_none (wantClass3_none h.2))
  refine ⟨fun t h => ?_, fun x t h2 h hx => ?_, fun p t h3 h hp => ?_, fun t h4 h => ?_,
    fun h4 h => ?_, fun t h => ?_⟩
  · exact grant_some hc (nextTransfer_rsq h) (wantRsq_inPart h).1
  · exact grant_some hc ((nextTransfer_class2 h2).trans (orElse_of_some (wantClass2_some h hx)))
      (wantMed_inPart h).1
  · refine grant_some hc ((idle2 h3).trans (orElse_of_some (wantClass3_some h fun q hq => ?_)))
      (wantPrt_inPart h).1
    refine hp q ?_
    unfold portsBefore at hq
    revert hq
    cases s.arb.lastPort <;> cases p <;> exact id
  · have next := (idle3 h4).trans h
    exact (wantDev_inPart h).elim (fun i => grant_some hc next i.1) fun i => grant_some hc next i.1
  · exact grant_nothing hc ((idle3 h4).trans h)
  · cases hn : s.nextTransfer with
    | none =>
      rw [grant_nothing hc hn, hc] at h
      cases h
    | some u =>
      obtain ⟨q, hq, part⟩ := nextTransfer_inPart hn
      have same : s.grant.arb.current = some u := by
        rw [grant_some hc hn hq]
        cases q <;> rfl
      cases same.symm.trans h
      exact part

end Sys2Proof.Machine
end

section
/-! PROOFS. Packed rows (R107). -/
namespace Sys2Proof.Machine

/-- A word of 56 bits is its seven bytes. -/
theorem bytes_of_word (g : BitVec 56) :
    (g.extractLsb' 48 8 ++ g.extractLsb' 40 8 ++ g.extractLsb' 32 8 ++ g.extractLsb' 24 8 ++
      g.extractLsb' 16 8 ++ g.extractLsb' 8 8 ++ g.extractLsb' 0 8 : BitVec 56) = g := by
  ext i hi
  simp only [BitVec.getElem_append, BitVec.getElem_extractLsb']
  grind

/-- The samples of a word are the samples it was made of. -/
theorem samples_of_word (s0 s1 s2 s3 : Sample) :
    let g : BitVec 56 := s3 ++ s2 ++ s1 ++ s0
    g.extractLsb' 0 14 = s0 ∧ g.extractLsb' 14 14 = s1 ∧ g.extractLsb' 28 14 = s2 ∧
      g.extractLsb' 42 14 = s3 := by
  intro g
  refine ⟨?_, ?_, ?_, ?_⟩ <;> ext i hi <;>
    simp only [g, BitVec.getElem_extractLsb', BitVec.getLsbD_append] <;> grind

theorem unpackGroup_packGroup (s0 s1 s2 s3 : Sample) :
    ∃ b0 b1 b2 b3 b4 b5 b6, packGroup s0 s1 s2 s3 = [b0, b1, b2, b3, b4, b5, b6] ∧
      unpackGroup b0 b1 b2 b3 b4 b5 b6 = [s0, s1, s2, s3] := by
  refine ⟨_, _, _, _, _, _, _, rfl, ?_⟩
  obtain ⟨h0, h1, h2, h3⟩ := samples_of_word s0 s1 s2 s3
  unfold unpackGroup
  rw [bytes_of_word]
  dsimp only at *
  rw [h0, h1, h2, h3]

theorem unpackRow_packRow (ss : List Sample) (h : ss.length % 4 = 0) :
    unpackRow (packRow ss) = ss ∧ 4 * (packRow ss).length = 7 * ss.length := by
  match ss, h with
  | [], _ => exact ⟨rfl, rfl⟩
  | [_], h | [_, _], h | [_, _, _], h => cases h
  | s0 :: s1 :: s2 :: s3 :: rest, h =>
    have hr : rest.length % 4 = 0 := by
      simp only [List.length_cons] at h
      omega
    obtain ⟨ih, il⟩ := unpackRow_packRow rest hr
    obtain ⟨b0, b1, b2, b3, b4, b5, b6, hp, hu⟩ := unpackGroup_packGroup s0 s1 s2 s3
    rw [packRow, hp]
    refine ⟨?_, ?_⟩
    · show unpackGroup b0 b1 b2 b3 b4 b5 b6 ++ unpackRow (packRow rest) = _
      rw [hu, ih]
      rfl
    · simp only [List.length_append, List.length_cons, List.length_nil]
      omega

end Sys2Proof.Machine
end

section
/-! PROOFS. Message frames and frames on the lens link (R69, R148, R151). -/
namespace Sys2Proof.Machine

theorem bytes_of_field (x : BitVec 16) :
    ((x >>> 8).setWidth 8 ++ x.setWidth 8 : BitVec 16) = x := by
  ext i hi
  simp only [BitVec.getElem_append, BitVec.getElem_setWidth]
  grind

theorem crc16_check :
    crc16 [0x31, 0x32, 0x33, 0x34, 0x35, 0x36, 0x37, 0x38, 0x39] = 0x29B1#16 := by
  decide +kernel

/-- The layout of a frame sent (R148). -/
theorem frameBytes_layout (kind code tag st : Byte) {payload : List Byte}
    (h : payload.length ≤ 16400) :
    let f := frameBytes kind code tag st payload
    f.length = 8 + payload.length ∧ byteAt f 0 = kind ∧ byteAt f 1 = code ∧ byteAt f 2 = tag ∧
      byteAt f 3 = st ∧ frameLength f = payload.length ∧ field16 f 6 = frameCrc f ∧
      f.drop 8 = payload := by
  intro f
  refine ⟨?_, rfl, rfl, rfl, rfl, ?_, ?_, rfl⟩
  · simp only [f, frameBytes, List.length_append, List.length_cons, List.length_nil]
  · show (((BitVec.ofNat 16 payload.length >>> 8).setWidth 8 ++
      (BitVec.ofNat 16 payload.length).setWidth 8 : BitVec 16)).toNat = _
    rw [bytes_of_field, BitVec.toNat_ofNat]
    exact Nat.mod_eq_of_lt (by omega)
  · exact bytes_of_field _

/-- The number of a status (R151). -/
theorem Status.toByte_eq (st : Status) : st.toByte = BitVec.ofNat 8 ([Status.ok, .busy, .denied,
    .gone, .protectSet, .full, .badField, .state, .saving, .frameBad, .unknown].idxOf st) := by
  cases st <;> rfl

theorem Payload.encoded_length (pl : Payload) (h : ∀ b, pl = .bytes b → b.length ≤ 16400) :
    pl.encoded.length ≤ 16400 := by
  unfold Payload.encoded
  split
  case h_1 => exact Nat.zero_le _
  case h_2 => exact Nat.le_of_ble_eq_true rfl
  case h_3 b => exact h b rfl
  case h_4 => exact List.length_take_le _ _

/-- The frame of a reply (R148, R151). -/
theorem Reply.frame_layout (r : Reply) (h : ∀ b, r.payload = .bytes b → b.length ≤ 16400) :
    byteAt r.frame 0 = 2 ∧ byteAt r.frame 2 = r.tag ∧
    byteAt r.frame 3 = BitVec.ofNat 8 ([Status.ok, .busy, .denied, .gone, .protectSet, .full,
      .badField, .state, .saving, .frameBad, .unknown].idxOf r.status) ∧
    r.frame.length = 8 + frameLength r.frame ∧ frameLength r.frame ≤ 16400 ∧
    field16 r.frame 6 = frameCrc r.frame ∧
    (r.payload = .empty → r.frame.length = 8) ∧
    (∀ n, r.payload = .field n → r.frame.drop 8 = [BitVec.ofNat 8 n]) ∧
    ∀ b, r.payload = .bytes b → r.frame.drop 8 = b := by
  have few := r.payload.encoded_length h
  obtain ⟨hlen, hkind, -, htag, hst, hl, hcrc, hpay⟩ :=
    frameBytes_layout 2 r.code.toByte r.tag r.status.toByte few
  refine ⟨hkind, htag, hst.trans r.status.toByte_eq, hlen.trans (congrArg (8 + ·) hl.symm),
    Nat.le_trans (Nat.le_of_eq hl) few, hcrc, fun he => ?_, fun n hn => ?_, fun b hb => ?_⟩
  · rw [Reply.frame, hlen, he]
    rfl
  · rw [Reply.frame, hpay, hn]
    rfl
  · rw [Reply.frame, hpay, hb]
    rfl

/-- The frame of a notice (R148, R161). -/
theorem Notice.frame_layout (n : Notice) :
    byteAt n.frame 0 = 3 ∧ byteAt n.frame 2 = 0 ∧ byteAt n.frame 3 = 0 ∧
    n.frame.length = 8 + frameLength n.frame ∧ frameLength n.frame ≤ 16400 ∧
    field16 n.frame 6 = frameCrc n.frame := by
  have few : ((Config.noticePayload n).take Config.maxPayload).length ≤ 16400 :=
    List.length_take_le _ _
  obtain ⟨hlen, hkind, -, htag, hst, hl, hcrc, -⟩ :=
    frameBytes_layout 3 (Config.noticeCode n.kindIndex) 0 0 few
  exact ⟨hkind, htag, hst, hlen.trans (congrArg (8 + ·) hl.symm), Nat.le_trans (Nat.le_of_eq hl) few, hcrc⟩

/-! ### The lens link -/

theorem Transaction.data_length (x : Transaction) : x.data.length ≤ 8 := by
  cases x <;> exact Nat.le_of_ble_eq_true rfl

theorem linkFrame_sum (code : Byte) (data : List Byte) : linkSum (linkFrame code data) = 0 := by
  unfold linkFrame
  dsimp only
  generalize code :: BitVec.ofNat 8 data.length :: data = head
  show List.foldl (· + ·) 0 (head ++ [-linkSum head]) = 0
  rw [List.foldl_append]
  show linkSum head + -linkSum head = 0
  exact BitVec.add_right_neg _

/-- The frame of a transaction (R69, R70). -/
theorem Transaction.frame_layout (x : Transaction) :
    byteAt x.frame 0 = Config.linkCode x.command ∧ x.data.length ≤ 8 ∧
    byteAt x.frame 1 = BitVec.ofNat 8 x.data.length ∧
    (x.frame.drop 2).take x.data.length = x.data ∧ x.frame.length = x.data.length + 3 ∧
    x.frame.foldl (· + ·) 0 = 0 := by
  refine ⟨rfl, x.data_length, rfl, ?_, ?_, linkFrame_sum _ _⟩
  · show List.take x.data.length (x.data ++ [_]) = _
    exact List.take_left' rfl
  · simp [Transaction.frame, linkFrame]

theorem linkOutput_eq (s : State) : s.linkOutput = (match s.lnk.running with
    | some x => x.frame.flatMap linkBits
    | none => []) := by
  unfold State.linkOutput
  cases s.lnk.running <;> rfl

/-- A wire sampled three times at the same level. -/
def steadyLevel (b : Bool) : Triple := ⟨b, b, b⟩

theorem majority_steadyLevel (b : Bool) : majority (steadyLevel b) = b := by
  cases b <;> rfl

theorem linkBits_eq (b : Byte) : linkBits b = [false, b.getLsbD 0, b.getLsbD 1, b.getLsbD 2,
    b.getLsbD 3, b.getLsbD 4, b.getLsbD 5, b.getLsbD 6, b.getLsbD 7,
    (dataBits b).count true % 2 == 0, true] := rfl

/-- A byte from its bits. -/
theorem byte_of_bits (b : Byte) :
    [b.getLsbD 0, b.getLsbD 1, b.getLsbD 2, b.getLsbD 3, b.getLsbD 4, b.getLsbD 5, b.getLsbD 6,
      b.getLsbD 7].foldr (fun (x : Bool) (acc : Byte) => (acc <<< 1) ||| (if x then 1 else 0)) (0 : Byte) = b := by
  have bit : ∀ (x : Bool) (i : Nat), (if x then 1 else 0 : Byte).getLsbD i = (x && decide (i = 0)) := by
    intro x i
    cases x <;> simp [BitVec.getLsbD_one]
  apply BitVec.eq_of_getLsbD_eq
  intro i hi
  simp only [List.foldr_cons, List.foldr_nil, BitVec.getLsbD_or, BitVec.getLsbD_shiftLeft, bit]
  have cases_ : i = 0 ∨ i = 1 ∨ i = 2 ∨ i = 3 ∨ i = 4 ∨ i = 5 ∨ i = 6 ∨ i = 7 := by omega
  rcases cases_ with rfl | rfl | rfl | rfl | rfl | rfl | rfl | rfl <;> simp

/-- A byte on the wire, as the receiving side samples it (R69). -/
def sampledChar (b : Byte) : LinkChar :=
  ⟨steadyLevel false, (dataBits b).map steadyLevel,
    steadyLevel ((dataBits b).count true % 2 == 0), steadyLevel true⟩

theorem charValue_sampledChar (b : Byte) : charValue (sampledChar b) = b := by
  have value : charValue (sampledChar b) = (dataBits b).foldr
      (fun (x : Bool) (acc : Byte) => (acc <<< 1) ||| (if x then 1 else 0)) 0 := by
    simp only [charValue, sampledChar, List.foldr_map, majority_steadyLevel]
  exact value.trans (byte_of_bits b)

theorem count_true_eq_filter (l : List Bool) :
    ((l.map steadyLevel).filter majority).length = l.count true := by
  induction l with
  | nil => rfl
  | cons x rest ih =>
    rw [List.map_cons, List.filter_cons, majority_steadyLevel, List.count_cons]
    cases x <;> simp [ih]

theorem charParityError_sampledChar (b : Byte) : charParityError (sampledChar b) = false := by
  unfold charParityError sampledChar
  dsimp only
  rw [count_true_eq_filter, majority_steadyLevel]
  rcases Nat.mod_two_eq_zero_or_one ((dataBits b).count true) with h | h <;> simp [h]

/-- The ones of the data bits and the parity bit are odd in number (R69). -/
theorem linkBits_parity (b : Byte) : (((linkBits b).drop 1).take 9).count true % 2 = 1 := by
  have bits : ((linkBits b).drop 1).take 9 = dataBits b ++ [(dataBits b).count true % 2 == 0] := rfl
  rw [bits, List.count_append]
  rcases Nat.mod_two_eq_zero_or_one ((dataBits b).count true) with h | h <;>
    simp [h, Nat.add_mod]

/-- Settles O19. -/
theorem framesAndPackedRows : Obligations.FramesAndPackedRows := by
  refine ⟨crc16_check, fun kind code tag st payload h => frameBytes_layout kind code tag st h,
    fun r h => r.frame_layout h, fun n => n.frame_layout, fun x => x.frame_layout, linkOutput_eq,
    fun b => ?_, unpackRow_packRow⟩
  refine ⟨rfl, rfl, rfl, fun i hi => ?_, linkBits_parity b, rfl, charValue_sampledChar b,
    charParityError_sampledChar b, rfl⟩
  have cases_ : i = 0 ∨ i = 1 ∨ i = 2 ∨ i = 3 ∨ i = 4 ∨ i = 5 ∨ i = 6 ∨ i = 7 := by omega
  rcases cases_ with rfl | rfl | rfl | rfl | rfl | rfl | rfl | rfl <;> rfl

end Sys2Proof.Machine
end

section
/-! PROOFS. The layout of the INFO payload (R155). -/
namespace Sys2Proof.Machine

/-! ### Numbers of states and flags -/

theorem lifeByte_eq (x : Life) : lifeByte x = [Life.exposing, .held, .cardOnly].idxOf x := by
  cases x <;> rfl

theorem originByte_eq (x : Origin) : originByte x = [Origin.body, .tether, .trigger].idxOf x := by
  cases x <;> rfl

theorem relayByte_eq (x : RelayState) :
    relayByte x = [RelayState.none, .queued, .inFlight, .sent, .sendFailed].idxOf x := by
  cases x <;> rfl

theorem tetherByte_eq (x : TetherState) :
    tetherByte x = [TetherState.none, .queued, .inFlight, .transferred, .missed].idxOf x := by
  cases x <;> rfl

theorem rawByte_eq (x : RawState) :
    rawByte x = 1 + [RawState.filling, .present, .released].idxOf x := by
  cases x <;> rfl

theorem focusNumber_eq (x : FocusState) : focusNumber x =
    [FocusState.off, .acquiring, .locked, .tracking, .failed, .lensLost, .noLens].idxOf x := by
  cases x <;> rfl

theorem versionByte_eq (x : VersionState) :
    versionByte x = [VersionState.building, .current, .draining].idxOf x := by
  cases x <;> rfl

theorem collectorByte_eq (x : Option Port) :
    collectorByte x = [none, some Port.body, some .tether, some .relay].idxOf x := by
  rcases x with _ | p
  · rfl
  · cases p <;> rfl

theorem copyByte_eq (x : CopyState) : copyByte x = [CopyState.notRequired, .pending, .writing,
    .verifying, .written, .failed, .abandoned].idxOf x := by
  cases x <;> rfl

theorem wantedByte_eq (x : Option Wanted) : wantedByte x =
    (x.map fun w => w.recipe + if w.purpose = .relay then 4 else 0).getD 0 := by
  rcases x with _ | ⟨n, p⟩
  · rfl
  · cases p <;> rfl

theorem bitAt_eq (b : Bool) (i : Nat) : bitAt b i = 2 ^ i * b.toNat := by
  cases b <;> simp [bitAt]

theorem handleCount_eq (q : PortSt) (shot : Nat) (part : Part) (version : Option Nat) :
    q.handleCount shot part version = q.handles.countP fun h =>
      h.any fun x => x.shot == shot && x.part == part && x.version == version := by
  unfold PortSt.handleCount
  rw [← List.countP_eq_length_filter]
  refine List.countP_congr fun h _ => ?_
  cases h <;> rfl

/-! ### Lists of places -/

theorem flatMap_length {α β : Type} {f : α → List β} {k : Nat} (hf : ∀ e, (f e).length = k)
    (l : List α) : (l.flatMap f).length = k * l.length := by
  induction l with
  | nil => rfl
  | cons e rest ih =>
    rw [List.flatMap_cons, List.length_append, hf, ih, List.length_cons, Nat.mul_succ, Nat.add_comm]

/-- Place `i` of a list of places of `k` bytes. -/
theorem flatMap_place {α β : Type} {f : α → List β} {k : Nat} (hf : ∀ e, (f e).length = k)
    {l : List α} {i : Nat} {e : α} (h : l[i]? = some e) (more : List β) :
    ((l.flatMap f ++ more).drop (k * i)).take k = f e := by
  induction l generalizing i with
  | nil => cases h
  | cons x rest ih =>
    rw [List.flatMap_cons, List.append_assoc]
    cases i with
    | zero =>
      cases h
      rw [Nat.mul_zero, List.drop_zero, List.take_left' (hf e)]
    | succ i =>
      rw [show k * (i + 1) = (f x).length + k * i by rw [hf, Nat.mul_succ, Nat.add_comm], List.drop_length_add_append]
      exact ih h

theorem extentPlaces_length (es : List Run) : (extentPlaces es).length = 24 := by
  unfold extentPlaces
  rw [List.length_append, flatMap_length (k := 4) fun _ => rfl, List.length_replicate]
  have := List.length_take_le 6 es
  omega

theorem extentPlaces_place (es : List Run) :
    (∀ i e, i < 6 → es[i]? = some e →
      ((extentPlaces es).drop (4 * i)).take 4 = leBytes 2 e.first ++ leBytes 2 e.count) ∧
    (∀ i, i < 6 → es[i]? = none → ((extentPlaces es).drop (4 * i)).take 4 = [0, 0, 0, 0]) := by
  have six := List.length_take (l := es) (i := 6)
  unfold extentPlaces
  refine ⟨fun i e hi he => ?_, fun i hi he => ?_⟩
  · exact flatMap_place (f := fun e : Run => leBytes 2 e.first ++ leBytes 2 e.count) (fun _ => rfl)
      (by rw [List.getElem?_take_of_lt hi]; exact he) _
  · have hlen := List.getElem?_eq_none_iff.mp he
    have places := flatMap_length (f := fun e : Run => leBytes 2 e.first ++ leBytes 2 e.count)
      (k := 4) (fun _ => rfl) (es.take 6)
    rw [List.drop_append, List.drop_of_length_le (by omega), List.nil_append, List.drop_replicate,
      List.take_replicate, show min 4 (24 - 4 * (es.take 6).length - (4 * i - (List.flatMap
        (fun e : Run => leBytes 2 e.first ++ leBytes 2 e.count) (es.take 6)).length)) = 4 by omega]
    rfl

theorem infoC_length (c : Copy) : (infoC c).length = 5 + 8 * (c.placement.getD []).length := by
  unfold infoC
  rw [List.length_append, flatMap_length (k := 8) fun _ => rfl]
  rfl

/-! ### Fields of a section -/

/-- Field `k` of a section, the lengths of its fields known. -/
theorem flatten_field {l : List (List Byte)} {lengths : List Nat}
    (hl : l.map List.length = lengths) (k : Nat) {i n : Nat} {x : List Byte}
    (hk : l[k]? = some x) (hi : (lengths.take k).sum = i) (hn : lengths[k]? = some n) :
    (l.flatten.drop i).take n = x := by
  induction l generalizing lengths k i with
  | nil => cases hk
  | cons y rest ih =>
    subst hl
    cases k with
    | zero =>
      cases hk
      cases hi
      cases hn
      exact List.take_left' rfl
    | succ k =>
      rw [List.map_cons, List.take_succ_cons, List.sum_cons] at hi
      rw [← hi, List.flatten_cons, List.drop_length_add_append]
      exact ih rfl k hk rfl hn

/-- A part of a field. -/
theorem field_part {d x : List Byte} {i n : Nat} (h : (d.drop i).take n = x) (j k : Nat)
    (hjk : j + k ≤ n) : (d.drop (i + j)).take k = (x.drop j).take k := by
  rw [← h, List.drop_take, List.drop_drop, List.take_take, Nat.min_eq_left (by omega)]

theorem leBytes_length (k n : Nat) : (leBytes k n).length = k := by
  induction k generalizing n with
  | zero => rfl
  | succ k ih => rw [leBytes, List.length_cons, ih]

theorem focusBytes_length (f : Option FocusRecord) : (focusBytes f).length = 8 := by
  cases f <;> rfl

theorem handleBytes_eq (s : State) (n : Nat) (part : Part) (version : Option Nat) :
    s.handleBytes n part version = [Port.body, .tether, .relay].flatMap fun p =>
      [BitVec.ofNat 8 ((s.port p).handles.countP fun h =>
        h.any fun x => x.shot == n && x.part == part && x.version == version)] := by
  unfold State.handleBytes
  rw [handleCount_eq, handleCount_eq, handleCount_eq]
  rfl

theorem handleBytes_length (s : State) (n : Nat) (part : Part) (version : Option Nat) :
    (s.handleBytes n part version).length = 3 := rfl

/-! ### The sections -/

/-- The fields of section A in order (R155). -/
def fieldsA (s : State) (r : Record) : List (List Byte) :=
  [leBytes 4 r.shot, leBytes 1 (lifeByte r.life), leBytes 1 (originByte r.origin),
    leBytes 2 r.burst, leBytes 1 r.frame,
    leBytes 1 (bitAt r.stamp.isSome 0 + bitAt r.raw.checksum.isSome 1 + bitAt r.wanted.isSome 2 +
      bitAt r.focus.isSome 3),
    leBytes 1 (bitAt r.flags.damaged 0 + bitAt r.flags.syncMissed 1 + bitAt r.flags.waitExpired 2),
    leBytes 1 (bitAt r.tags.protect 0 + bitAt r.tags.send 1 + bitAt r.tags.priority 2 +
      16 * r.tags.rating),
    leBytes 2 r.flags.lostRows, leBytes 1 (relayByte r.relay), leBytes 1 (tetherByte r.tether),
    leBytes 4 (r.stamp.getD 0).toNat, leBytes 1 (rawByte r.raw.state),
    leBytes 1 r.raw.extents.length, leBytes 1 (wantedByte r.wanted), leBytes 1 r.lastVersion,
    leBytes 4 (r.raw.checksum.getD 0).toNat, focusBytes r.focus, s.handleBytes r.shot .raw none,
    leBytes 1 r.versions.length, extentPlaces r.raw.extents]

theorem infoA_fields (s : State) (r : Record) : s.infoA r = (fieldsA s r).flatten := by
  unfold State.infoA fieldsA
  simp only [List.flatten_cons, List.flatten_nil, List.append_nil]
  simp only [List.append_assoc]

theorem fieldsA_lengths (s : State) (r : Record) : (fieldsA s r).map List.length =
    [4, 1, 1, 2, 1, 1, 1, 1, 2, 1, 1, 4, 1, 1, 1, 1, 4, 8, 3, 1, 24] := by
  simp only [fieldsA, List.map_cons, List.map_nil, leBytes_length, focusBytes_length,
    handleBytes_length, extentPlaces_length]

/-- Field `k` of section A. -/
theorem infoA_field (s : State) (r : Record) (k : Nat) {i n : Nat} {x : List Byte}
    (hk : (fieldsA s r)[k]? = some x)
    (hi : (([4, 1, 1, 2, 1, 1, 1, 1, 2, 1, 1, 4, 1, 1, 1, 1, 4, 8, 3, 1, 24] :
      List Nat).take k).sum = i := by rfl)
    (hn : ([4, 1, 1, 2, 1, 1, 1, 1, 2, 1, 1, 4, 1, 1, 1, 1, 4, 8, 3, 1, 24] :
      List Nat)[k]? = some n := by rfl) : ((s.infoA r).drop i).take n = x :=
  infoA_fields s r ▸ flatten_field (fieldsA_lengths s r) k hk hi hn

theorem infoA_length (s : State) (r : Record) : (s.infoA r).length = 64 := by
  rw [infoA_fields, List.length_flatten, fieldsA_lengths]
  rfl

/-- The fields of section B in order (R155). -/
def fieldsB (s : State) (shot : Nat) (v : Version) : List (List Byte) :=
  [leBytes 1 v.number, leBytes 1 v.recipe, leBytes 1 (scaleByte v.scale),
    leBytes 1 (versionByte v.state),
    leBytes 1 (bitAt v.conditions.mixed 0 + bitAt v.conditions.rawDamaged 1 +
      bitAt v.conditions.spaceWait 2 + bitAt v.checksum.isSome 7),
    leBytes 1 (collectorByte v.collector), leBytes 1 v.extents.length,
    s.handleBytes shot .proof (some v.number), leBytes 4 v.size,
    leBytes 4 (v.checksum.getD 0).toNat, extentPlaces v.extents]

theorem infoB_fields (s : State) (n : Nat) (v : Version) :
    s.infoB n v = (fieldsB s n v).flatten := by
  simp only [State.infoB, fieldsB, List.flatten_cons, List.flatten_nil, List.append_nil,
    List.append_assoc]

theorem fieldsB_lengths (s : State) (n : Nat) (v : Version) :
    (fieldsB s n v).map List.length = [1, 1, 1, 1, 1, 1, 1, 3, 4, 4, 24] := by
  simp only [fieldsB, List.map_cons, List.map_nil, leBytes_length, handleBytes_length,
    extentPlaces_length]

/-- Field `k` of section B. -/
theorem infoB_field (s : State) (m : Nat) (v : Version) (k : Nat) {i n : Nat} {x : List Byte}
    (hk : (fieldsB s m v)[k]? = some x)
    (hi : (([1, 1, 1, 1, 1, 1, 1, 3, 4, 4, 24] : List Nat).take k).sum = i := by rfl)
    (hn : ([1, 1, 1, 1, 1, 1, 1, 3, 4, 4, 24] : List Nat)[k]? = some n := by rfl) :
    ((s.infoB m v).drop i).take n = x :=
  infoB_fields s m v ▸ flatten_field (fieldsB_lengths s m v) k hk hi hn

theorem infoB_length (s : State) (n : Nat) (v : Version) : (s.infoB n v).length = 42 := by
  rw [infoB_fields, List.length_flatten, fieldsB_lengths]
  rfl

/-- The fields of section C (R155). -/
theorem infoC_fields (c : Copy) :
    ((infoC c).drop 0).take 1 = [BitVec.ofNat 8 ([CopyState.notRequired, .pending, .writing,
      .verifying, .written, .failed, .abandoned].idxOf c.state)] ∧
    ((infoC c).drop 1).take 1 = [BitVec.ofNat 8 c.attempts] ∧
    ((infoC c).drop 2).take 1 =
      [BitVec.ofNat 8 (bitAt c.unverified 0 + bitAt c.version.isSome 1)] ∧
    ((infoC c).drop 3).take 1 = [BitVec.ofNat 8 (c.version.getD 0)] ∧
    ((infoC c).drop 4).take 1 = [BitVec.ofNat 8 (c.placement.getD []).length] ∧
    ∀ j x, (c.placement.getD [])[j]? = some x →
      ((infoC c).drop (5 + 8 * j)).take 8 = leBytes 4 x.first ++ leBytes 4 x.count := by
  refine ⟨by rw [← copyByte_eq]; rfl, rfl, rfl, rfl, rfl, fun j x hx => ?_⟩
  have place := flatMap_place (k := 8)
    (f := fun r : Run => leBytes 4 r.first ++ leBytes 4 r.count)
    (fun _ => rfl) hx []
  rw [List.append_nil] at place
  rw [← place, ← List.drop_drop]
  rfl

/-! ### Flag bytes -/

theorem flags_two (a b : Bool) :
    bitAt a 0 + bitAt b 1 = [a, b].foldr (fun b n => b.toNat + 2 * n) 0 := by
  simp [bitAt_eq]

theorem flags_three (a b c : Bool) : bitAt a 0 + bitAt b 1 + bitAt c 2 =
    [a, b, c].foldr (fun b n => b.toNat + 2 * n) 0 := by
  simp only [bitAt_eq, List.foldr_cons, List.foldr_nil]
  omega

theorem flags_four (a b c d : Bool) : bitAt a 0 + bitAt b 1 + bitAt c 2 + bitAt d 3 =
    [a, b, c, d].foldr (fun b n => b.toNat + 2 * n) 0 := by
  simp only [bitAt_eq, List.foldr_cons, List.foldr_nil]
  omega

/-- The focus record in section A (R155). -/
theorem infoA_focus (s : State) (r : Record) {f : FocusRecord} (h : r.focus = some f) :
    ((s.infoA r).drop 28).take 2 = leBytes 2 f.position ∧
    ((s.infoA r).drop 30).take 2 = leBytes 2 (BitVec.ofInt 16 f.phase).toNat ∧
    ((s.infoA r).drop 32).take 3 = leBytes 3 f.confidence ∧
    ((s.infoA r).drop 35).take 1 = [BitVec.ofNat 8 ([FocusState.off, .acquiring, .locked,
      .tracking, .failed, .lensLost, .noLens].idxOf f.state + 16 * f.predicted.toNat +
      32 * f.clamped.toNat)] := by
  have field := infoA_field s r 17 rfl
  rw [h] at field
  have flags : focusNumber f.state + bitAt f.predicted 4 + bitAt f.clamped 5 =
      [FocusState.off, .acquiring, .locked, .tracking, .failed, .lensLost, .noLens].idxOf f.state +
        16 * f.predicted.toNat + 32 * f.clamped.toNat :=
    congr (congrArg HAdd.hAdd (congr (congrArg HAdd.hAdd (focusNumber_eq _)) (bitAt_eq _ 4)))
      (bitAt_eq _ 5)
  rw [← flags]
  exact ⟨field_part field 0 2 (by omega), field_part field 2 2 (by omega),
    field_part field 4 3 (by omega), field_part field 7 1 (by omega)⟩

/-- Settles O35. -/
theorem infoLayout : Obligations.InfoLayout := by
  intro s r bits one at_ places handles
  have byte : ∀ {m n : Nat}, m = n → leBytes 1 m = one n := fun h => h ▸ rfl
  have extents : ∀ {d : List Byte} {i : Nat} {es : List Run},
      (d.drop i).take 24 = extentPlaces es → places (d.drop i) es := by
    intro d i es h
    obtain ⟨used, unused⟩ := extentPlaces_place es
    have place : ∀ j, j < 6 → ((d.drop i).drop (4 * j)).take 4 =
        ((extentPlaces es).drop (4 * j)).take 4 := fun j hj => by
      rw [List.drop_drop]
      exact field_part h (4 * j) 4 (by omega)
    exact ⟨fun j e hj he => (place j hj).trans (used j e hj he),
      fun j hj he => (place j hj).trans (unused j hj he)⟩
  refine ⟨s.infoA r, r.versions.map (s.infoB r.shot), r.copies.all.map infoC, ?_,
    infoA_length s r, List.length_map .., rfl, ?_, ?_, fun i v d hv hd => ?_, fun i c d hc hd => ?_⟩
  · unfold State.infoBytes
    rw [List.flatMap_def, List.flatMap_def]
  · exact ⟨infoA_field s r 0 rfl, infoA_field s r 1 (congrArg some (byte (lifeByte_eq _))),
      infoA_field s r 2 (congrArg some (byte (originByte_eq _))), infoA_field s r 3 rfl,
      infoA_field s r 4 rfl, infoA_field s r 5 (congrArg some (byte (flags_four _ _ _ _))),
      infoA_field s r 6 (congrArg some (byte (flags_three _ _ _))),
      infoA_field s r 7 (congrArg some (byte (congrArg (· + 16 * r.tags.rating)
        (flags_three _ _ _)))),
      infoA_field s r 8 rfl, infoA_field s r 9 (congrArg some (byte (relayByte_eq _))),
      infoA_field s r 10 (congrArg some (byte (tetherByte_eq _)))⟩
  · exact ⟨infoA_field s r 11 rfl, infoA_field s r 12 (congrArg some (byte (rawByte_eq _))),
      infoA_field s r 13 rfl, infoA_field s r 14 (congrArg some (byte (wantedByte_eq _))),
      infoA_field s r 15 rfl, infoA_field s r 16 rfl,
      fun h => infoA_field s r 17 (congrArg some (h ▸ rfl)), fun f h => infoA_focus s r h,
      infoA_field s r 18 (congrArg some (handleBytes_eq ..)), infoA_field s r 19 rfl,
      extents (infoA_field s r 20 rfl)⟩
  · rw [List.getElem?_map, hv] at hd
    cases hd
    have flags : bitAt v.conditions.mixed 0 + bitAt v.conditions.rawDamaged 1 +
        bitAt v.conditions.spaceWait 2 + bitAt v.checksum.isSome 7 =
        bits [v.conditions.mixed, v.conditions.rawDamaged, v.conditions.spaceWait] +
          128 * v.checksum.isSome.toNat :=
      congr (congrArg HAdd.hAdd (flags_three _ _ _)) (bitAt_eq _ 7)
    exact ⟨infoB_length .., infoB_field s r.shot v 0 rfl, infoB_field s r.shot v 1 rfl,
      infoB_field s r.shot v 2 rfl,
      infoB_field s r.shot v 3 (congrArg some (byte (versionByte_eq _))),
      infoB_field s r.shot v 4 (congrArg some (byte flags)),
      infoB_field s r.shot v 5 (congrArg some (byte (collectorByte_eq _))),
      infoB_field s r.shot v 6 rfl, infoB_field s r.shot v 7 (congrArg some (handleBytes_eq ..)),
      infoB_field s r.shot v 8 rfl, infoB_field s r.shot v 9 rfl,
      extents (infoB_field s r.shot v 10 rfl)⟩
  · have copy : (r.copies.all.map infoC)[i]? = some (infoC c) := by
      rw [List.getElem?_map]
      exact congrArg (Option.map infoC) hc
    cases copy.symm.trans hd
    obtain ⟨h0, h1, h2, h3, h4, h5⟩ := infoC_fields c
    exact ⟨infoC_length c, h0, h1, h2.trans (byte (flags_two _ _)), h3, h4, h5⟩

end Sys2Proof.Machine
end

section
/-! PROOFS. The requests of reports and handles (chapters 1 and 9). -/
namespace Sys2Proof.Machine

/-! ### What a taken request still finds -/

@[simp] theorem openRequest_findRecord (s : State) (p : Port) (k : RequestKind) (tag : Byte)
    (n : Nat) : (s.openRequest p k tag).findRecord n = s.findRecord n :=
  findRecord_congr (openRequest_catalog s p k tag) n

@[simp] theorem openRequest_namedRecord (s : State) (p : Port) (k : RequestKind) (tag : Byte)
    (n : Nat) : (s.openRequest p k tag).namedRecord n = s.namedRecord n := by
  unfold State.namedRecord
  rw [openRequest_findRecord]

@[simp] theorem openRequest_relayEntry (s : State) (p : Port) (k : RequestKind) (tag : Byte)
    (n : Nat) : (s.openRequest p k tag).relayEntry n = s.relayEntry n := by
  unfold State.relayEntry
  rw [openRequest_snq]

@[simp] theorem openRequest_handle (s : State) (p q : Port) (k : RequestKind) (tag : Byte)
    (h : Nat) : (s.openRequest p k tag).handle q h = s.handle q h := by
  unfold State.handle
  rw [openRequest_handles]

/-- A change of the handles of the asking port, or of nothing at the ports, comes to the same before
and after the request is taken. -/
theorem openRequest_setHandles (s : State) (p : Port) (k : RequestKind) (tag : Byte)
    (l : List (Option Handle)) :
    (s.openRequest p k tag).setPort p { (s.openRequest p k tag).port p with handles := l } =
      (s.setPort p { s.port p with handles := l }).openRequest p k tag := by
  cases p <;> rfl

theorem openRequest_modRecord (s : State) (p : Port) (k : RequestKind) (tag : Byte) (n : Nat)
    (g : Record → Record) :
    (s.openRequest p k tag).modRecord n g = (s.modRecord n g).openRequest p k tag := by
  cases p <;> rfl

/-! ### Reports -/

theorem openRequest_statusReport (s : State) (p : Port) (k : RequestKind) (tag : Byte) :
    (s.openRequest p k tag).statusReport p = s.statusReport p := by
  cases p <;> rfl

theorem openRequest_infoBytes (s : State) (p : Port) (k : RequestKind) (tag : Byte) (r : Record) :
    (s.openRequest p k tag).infoBytes r = s.infoBytes r := by
  cases p <;> rfl

theorem serveInfo_named {s : State} {n : Nat} {r : Record} (h : s.namedRecord n = some r) :
    serveInfo n s = okWith s (.bytes (s.infoBytes r)) := by
  unfold serveInfo
  rw [h]

theorem openRequest_slotReport (s : State) (p : Port) (k : RequestKind) (tag : Byte) (x : Slot) :
    (s.openRequest p k tag).slotReport x = s.slotReport x := by
  cases p <;> rfl

/-- Settles O34. -/
theorem reports : Obligations.Reports := by
  intro s p tag
  refine ⟨fun ha => ?_, fun first ha => ?_, fun n r ha hr => ?_, fun n ha hr => ?_,
    fun n r ha hr => ?_, fun n ha hr => ?_, fun ha => ?_⟩
  · refine exec_answered (r := .status) ha ?_ (by simp)
    show serveStatus p _ = _
    rw [serveStatus, openRequest_statusReport]
    cases p <;> rfl
  · refine exec_answered (r := .listRecords first) ha ?_
    show serveList first _ = _
    rw [serveList, openRequest_catalog, openRequest_nextShot]
    rfl
  · refine exec_answered (r := .info n) ha ?_
    show serveInfo n _ = _
    rw [serveInfo_named ((openRequest_namedRecord ..).trans hr), openRequest_infoBytes]
    rfl
  · exact requestsRefused (.info n) p tag s _ _ ha (by simp [refusal, shotCase, hr])
  · refine exec_answered (r := .placement n) ha ?_
    show servePlacement n _ = _
    rw [servePlacement, openRequest_findRecord, hr]
    rfl
  · exact requestsRefused (.placement n) p tag s _ _ ha (by simp [refusal, shotCase, hr])
  · refine exec_answered (r := .mediaStatus) ha ?_
    show serveMediaStatus _ = _
    rw [serveMediaStatus, openRequest_slotReport, openRequest_slotReport, openRequest_med]
    rfl

/-! ### OPEN -/

theorem openHandle_free {s : State} {p : Port} {i : Nat}
    (h : freeHandle 0 (s.port p).handles = some i) (x : Handle) (sum : Option Sum32) :
    s.openHandle p x sum = okWith
      (s.setPort p { s.port p with handles := (s.port p).handles.set i (some x) })
      (.opened ⟨i, x.shot, x.part, x.version, x.size, sum⟩) := by
  unfold State.openHandle
  rw [h]

theorem serveOpen_part {s : State} {p : Port} {n : Nat} {r : Record} {part : Part}
    (hr : s.namedRecord n = some r) (he : r.life ≠ .exposing) :
    serveOpen p n (.is part) s = match part with
      | .raw =>
        if r.raw.state = .present then
          s.openHandle p ⟨n, .raw, none, Config.rawBytes⟩ r.raw.checksum
        else refuse s .gone
      | .proof =>
        match r.current with
        | none => refuse s .gone
        | some v =>
          if (freeHandle 0 (s.port p).handles).isSome then
            (s.collect n v.number p).openHandle p ⟨n, .proof, some v.number, v.size⟩ v.checksum
          else refuse s .full := by
  unfold serveOpen
  dsimp only
  rw [hr]
  exact if_neg he

theorem collect_port (s : State) (n v : Nat) (p q : Port) : (s.collect n v p).port q = s.port q :=
  s.port_modRecord _ _ q

/-- Settles O36. -/
theorem openTaken : Obligations.OpenTaken := by
  intro s p tag n i r ha hr he
  have named : (s.openRequest p .openPart tag).namedRecord n = some r :=
    (openRequest_namedRecord ..).trans hr
  refine ⟨fun hp hf => ?_, fun v hv hf => ?_, fun hp hf => ?_, fun hp => ?_⟩
  · refine exec_answered (r := .openPart n (.is .raw)) ha ?_ (by simp)
    show serveOpen p n (.is .raw) (s.openRequest p .openPart tag) = _
    rw [serveOpen_part named he]
    dsimp only
    rw [if_pos hp, openHandle_free (by simpa using hf), openRequest_handles, openRequest_setHandles]
    rfl
  · refine exec_answered (r := .openPart n (.is .proof)) ha ?_ (by simp)
    show serveOpen p n (.is .proof) (s.openRequest p .openPart tag) = _
    have collected : (s.openRequest p .openPart tag).collect n v.number p =
        (s.collect n v.number p).openRequest p .openPart tag := openRequest_modRecord ..
    rw [serveOpen_part named he]
    dsimp only
    rw [hv]
    dsimp only
    rw [if_pos (by rw [openRequest_handles, hf]; rfl), collected,
      openHandle_free (by rw [openRequest_handles, collect_port]; exact hf), openRequest_handles,
      openRequest_setHandles, collect_port]
    rfl
  · exact requestsRefused (.openPart n (.is .raw)) p tag s _ _ ha (by simp [refusal, shotCase, hr, he, hp, hf])
  · exact requestsRefused (.openPart n (.is .raw)) p tag s _ _ ha (by simp [refusal, shotCase, hr, he, hp])

/-! ### READ and CLOSE -/

/-- A request whose service changes the handles of its port before operations that touch only the
notices of the ports. -/
theorem exec_replied_from {s v u : State} {p : Port} {r : Request} (ha : Accepts s p r.kind)
    {tag : Byte} {st : Status} {pl : Payload}
    (hs : r.service p (s.openRequest p r.kind tag) = (u, .answer st pl))
    (hi : SamePorts (v.openRequest p r.kind tag) u)
    (hl : (v.port p).replies = (s.port p).replies) (hv : ∀ q, q ≠ p → v.port q = s.port q) :
    ∃ t, exec (r.row p tag) s = .next t ∧ RepliedIn s t p r.kind tag st pl ∧ OthersKept s t p ∧
      (t.port p).handles = (v.port p).handles ∧ ∃ q, t = u.setPort p q := by
  have same := hi.port p
  refine ⟨_, by rw [exec_row, takeRequest_replied ha tag _ u st pl hs (by simp [same.request])
    (by simp [same.replies, hl])], by constructor <;> simp, fun q hq => ?_, by simp [same.handles],
    _, rfl⟩
  have other := hi.port q
  rw [State.port_setPort_other _ _ _ _ hq, other.request, other.replies, other.handles,
    openRequest_port_other v hq, hv q hq]
  exact ⟨rfl, rfl, rfl⟩

theorem serveClose_open {s : State} {p : Port} {h : Nat} {x : Handle} (h3 : h ≤ 3)
    (hx : s.handle p h = some x) : serveClose p h s = okWith
      (((s.setPort p { s.port p with handles := (s.port p).handles.set h none }).releaseTests
        x.shot).settle) .empty := by
  unfold serveClose
  rw [if_neg (by omega), hx]

theorem exec_readGathered {s : State} {p : Port} {o : Outstanding} {g : Gather}
    (ho : (s.port p).request = some o) (hg : o.stage = .gathering g)
    (hl : g.length ≤ g.got.length) :
    exec (.readGathered p) s = .next (s.formReply p .ok (.bytes (readReply g))) := by
  show execReadGathered p s = _
  unfold execReadGathered
  rw [ho]
  dsimp only
  rw [hg]
  exact if_pos hl

/-- Settles O37. -/
theorem handleRequests : Obligations.HandleRequests := by
  intro s p tag
  refine ⟨fun h off len x ha h3 hx h1 hlen hoff => ?_, fun o g ho hg hl => ?_,
    fun h x ha h3 hx => ?_, fun h ha h3 => ?_, fun h ha h3 hx => ?_⟩
  · refine exec_waits (r := .readPart h off len) ha ?_
    show serveRead p h off len _ = _
    unfold serveRead
    rw [if_neg (by omega), openRequest_handle, hx]
    dsimp only
    rw [if_neg (by simp; omega), if_neg (by omega)]
  · rw [exec_readGathered ho hg hl]
    unfold State.formReply
    rw [ho]
    rfl
  · let v := s.setPort p { s.port p with handles := (s.port p).handles.set h none }
    have served : serveClose p h (s.openRequest p .closeHandle tag) = okWith
        (((v.openRequest p .closeHandle tag).releaseTests x.shot).settle) .empty := by
      rw [serveClose_open h3 (by simpa using hx), openRequest_handles, openRequest_setHandles]
    have inner := (releaseTests_inner (v.openRequest p .closeHandle tag) x.shot).trans
      (settle_inner _)
    have calm := (releaseTests_calm (v.openRequest p .closeHandle tag) x.shot).trans (settle_calm _)
    obtain ⟨t, he, hr, ho, hh, q, rfl⟩ := exec_replied_from (r := .closeHandle h) (v := v) ha served
      inner.ports (by simp [v]) fun q hq => State.port_setPort_other _ _ _ _ hq
    exact ⟨_, he, hr, hh.trans (by simp [v]), ho, ((setPort_aside s p _).trans
      (setPort_aside v p _)).trans ((calm.aside inner).trans (setPort_aside _ p q))⟩
  · exact requestsRefused (.closeHandle h) p tag s _ _ ha (by simp [refusal, h3])
  · exact requestsRefused (.closeHandle h) p tag s _ _ ha
      (by simp [refusal, hx, Nat.not_lt.mpr h3])

end Sys2Proof.Machine
end

section
/-! PROOFS. TAG (R14, R138, R139, R156). -/
namespace Sys2Proof.Machine

/-! ### What admissions leave alone -/

/-- The correlator, the slots, power and the relay queue stay. -/
structure Apart (s t : State) : Prop where
  phc : t.phc = s.phc
  med : t.med = s.med
  pwc : t.pwc = s.pwc
  relay : t.snq.relay = s.snq.relay

theorem Apart.refl (s : State) : Apart s s := ⟨rfl, rfl, rfl, rfl⟩

theorem Apart.trans {a b c : State} (h : Apart a b) (k : Apart b c) : Apart a c :=
  ⟨k.phc.trans h.phc, k.med.trans h.med, k.pwc.trans h.pwc, k.relay.trans h.relay⟩

theorem Calm.apart {s t : State} (h : Calm s t) : Apart s t := ⟨h.phc, h.med, h.pwc, h.relay⟩

theorem admitFrom_apart (s : State) (ns : List Nat) : Apart s (s.admitFrom ns) := by
  induction ns generalizing s with
  | nil => exact .refl s
  | cons n rest ih =>
    unfold State.admitFrom
    split
    · exact ih s
    · split
      · exact ih s
      · next w _ =>
        split
        · next j _ =>
          refine .trans ?_ (ih _)
          refine .trans ?_ (releaseTests_calm ((s.mergeAuto j w.purpose).setWanted n none) n).apart
          exact ⟨rfl, rfl, rfl, rfl⟩
        · split
          · refine .trans ?_ (ih _)
            refine .trans ?_ (releaseTests_calm ((s.appendJob n w.recipe .auto []
              (w.purpose == .card) (w.purpose == .relay)).setWanted n none) n).apart
            exact ⟨rfl, rfl, rfl, rfl⟩
          · exact .refl s

theorem admitAuto_apart (s : State) : Apart s s.admitAuto := admitFrom_apart s _

theorem relayWantsProof_apart (s : State) (n : Nat) : Apart s (s.relayWantsProof n) := by
  unfold State.relayWantsProof
  split
  · split
    · exact ⟨rfl, rfl, rfl, rfl⟩
    · exact .refl s
  · exact .refl s

/-- The entry that a TAG appends (R139, R140). -/
def taggedEntry (r : Record) (cls : SendClass) : RelayEntry :=
  { shot := r.shot, cls := cls, state := if r.current.isSome then .ready else .waiting,
    failures := 0, version := none }

/-- The state with the entry appended, before its notice or its proof. -/
def appended (s : State) (r : Record) (cls : SendClass) : State :=
  State.modRecord { s with snq := { s.snq with relay := s.snq.relay ++ [taggedEntry r cls] } } r.shot
    fun q => { q with relay := .queued, tags := { q.tags with
      send := true, priority := cls == .priority } }

theorem appendRelay_apart (s : State) (r : Record) (cls : SendClass) :
    Apart { s with snq := { s.snq with relay := s.snq.relay ++ [taggedEntry r cls] } }
      (s.appendRelay r cls) := by
  unfold State.appendRelay
  dsimp only
  change Apart _ (if r.current.isSome = true then (appended s r cls).notify .relay
    (.sendReady r.shot false) else ((appended s r cls).relayWantsProof r.shot).admitAuto)
  split
  · refine .trans ?_ (notify_calm _ .relay (.sendReady r.shot false)).apart
    exact ⟨rfl, rfl, rfl, rfl⟩
  · refine .trans ?_ ((relayWantsProof_apart _ r.shot).trans (admitAuto_apart _))
    exact ⟨rfl, rfl, rfl, rfl⟩

theorem untag_apart (s : State) (n : Nat) :
    Apart { s with snq := { s.snq with relay := s.snq.relay.filter fun e => e.shot != n } }
      (s.untag n) := by
  unfold State.untag
  refine .trans ?_ ((releaseTests_calm _ n).trans (settle_calm _)).apart
  exact ⟨rfl, rfl, rfl, rfl⟩

theorem untag_inner (s : State) (n : Nat) : Inner s (s.untag n) := by
  unfold State.untag
  exact ((removeRelay_inner s n .none).trans (modRecord_inner _ _ _)).trans
    ((releaseTests_inner _ n).trans (settle_inner _))

/-! ### TAG that passes its checks -/

theorem serveTag_passes {s : State} {n : Nat} {f : TagFields} {r : Record} (hb : tagBad f = none)
    (hr : s.namedRecord n = some r) (ht : s.tagRefusal r f = none) :
    serveTag n f s = okWith
      ((s.modRecord n fun q => { q with tags := tagsAfter r.tags (s.relayEntry n) f }).tagRelay r
        (s.relayEntry n) f) (.tags (tagsAfter r.tags (s.relayEntry n) f)) := by
  unfold serveTag
  rw [hb]
  dsimp only
  rw [hr]
  dsimp only
  rw [ht]

/-- The tags stored as given. -/
def tagsBase (t : Tags) (f : TagFields) : Tags :=
  { t with protect := f.protect.getD t.protect, rating := f.rating.getD t.rating }

theorem tagsAfter_adds {t : Tags} {entry : Option RelayEntry} {f : TagFields}
    (h : tagAdds entry f = true) : tagsAfter t entry f =
      { tagsBase t f with send := true, priority := f.priority == some true } := if_pos h

theorem tagAdds_none {f : TagFields} :
    tagAdds none f = true ↔ f.send = some true ∨ f.priority = some true := by
  simp [tagAdds]

theorem tagAdds_some (e : RelayEntry) (f : TagFields) : tagAdds (some e) f = false := rfl

theorem tagRelay_adds {s : State} {r : Record} {entry : Option RelayEntry} {f : TagFields}
    (h : tagAdds entry f = true) : s.tagRelay r entry f =
      (s.appendRelay r (if f.priority = some true then .priority else .normal)).settle := if_pos h

theorem reclass_eq (f : TagFields) (q : RelayEntry) : reclass f q =
    { q with cls := match f.priority with
        | some true => .priority
        | some false => .normal
        | none => q.cls } := by
  unfold reclass
  rcases f.priority with _ | _ | _ <;> rfl

/-- Settles O38. -/
theorem tagTaken : Obligations.TagTaken := by
  intro s p tag n r f ha hr hb base
  have hshot : r.shot = n := namedRecord_shot hr
  subst hshot
  let o := s.openRequest p .tag tag
  have hr' : o.namedRecord r.shot = some r := (openRequest_namedRecord ..).trans hr
  have entry : o.relayEntry r.shot = s.relayEntry r.shot := openRequest_relayEntry ..
  refine ⟨fun hn hs hp => ?_, fun hn hs hl hc hlen => ?_, fun e he hi hs => ?_, ?_⟩
  · have adds : tagAdds none f = false := by
      rw [← Bool.not_eq_true, tagAdds_none]
      exact not_or.mpr ⟨hs, hp⟩
    have passes : o.tagRefusal r f = none := by
      simp [State.tagRefusal, entry, hn, adds]
    refine exec_answered (r := .tag r.shot f) ha ?_
    show serveTag r.shot f o = _
    rw [serveTag_passes hb hr' passes, entry, hn]
    have tags : tagsAfter r.tags none f = base := by
      simp [tagsAfter, adds, base]
    have relay : ∀ u : State, u.tagRelay r none f = u := fun u => by
      simp [State.tagRelay, adds]
    rw [tags, relay, openRequest_modRecord]
    rfl
  · have adds : tagAdds none f = true := tagAdds_none.mpr hs
    have passes : o.tagRefusal r f = none := by
      have kept : (r.current.isNone && r.raw.state != .present) = false := by
        rcases hc with h | h
        · simp [Option.isNone_eq_false_iff.mpr h]
        · simp [h]
      simp [State.tagRefusal, entry, hn, adds, hl, kept, o, hlen]
    let v := o.modRecord r.shot fun q => { q with
      tags := { base with send := true, priority := f.priority == some true } }
    let cls : SendClass := if f.priority = some true then .priority else .normal
    have served : serveTag r.shot f o = okWith (v.appendRelay r cls).settle
        (.tags { base with send := true, priority := f.priority == some true }) := by
      rw [serveTag_passes hb hr' passes, entry, hn, tagsAfter_adds adds, tagRelay_adds adds]
      rfl
    have apart := (appendRelay_apart v r cls).trans (settle_calm _).apart
    obtain ⟨t, he, hrep, ho, -, q, rfl⟩ := exec_replied (r := .tag r.shot f) ha served
      (((modRecord_inner o _ _).trans (appendRelay_inner v r cls (by simpa [v, o] using hlen))).trans
        (settle_inner _)).ports
    refine ⟨_, he, hrep, ?_, ho, ?_, ?_, ?_⟩
    · rw [State.setPort_snq, apart.relay]
      simp only [v, o, State.modRecord_snq, openRequest_snq]
      rfl
    · rw [State.setPort_phc, apart.phc]
      exact openRequest_phc ..
    · rw [State.setPort_med, apart.med]
      exact openRequest_med ..
    · rw [State.setPort_pwc, apart.pwc]
      exact openRequest_pwc ..
  · have adds := tagAdds_some e f
    have passes : o.tagRefusal r f = none := by
      simp [State.tagRefusal, entry, he, adds, hi]
    let after : Tags := { base with send := false, priority := false }
    let v := o.modRecord r.shot fun q => { q with tags := after }
    have served : serveTag r.shot f o = okWith (v.untag r.shot) (.tags after) := by
      have tags : tagsAfter r.tags (some e) f = after := by
        simp [tagsAfter, adds, hs, after, base]
      rw [serveTag_passes hb hr' passes, entry, he, tags]
      simp only [State.tagRelay, adds, hs]
      rfl
    have apart := untag_apart v r.shot
    obtain ⟨t, hex, hrep, ho, -, q, rfl⟩ := exec_replied (r := .tag r.shot f) ha served
      ((modRecord_inner o _ _).trans (untag_inner v _)).ports
    refine ⟨_, hex, hrep, ?_, ho, ?_, ?_, ?_⟩
    · rw [State.setPort_snq, apart.relay]
      simp only [v, o, State.modRecord_snq, openRequest_snq]
    · rw [State.setPort_phc, apart.phc]
      exact openRequest_phc ..
    · rw [State.setPort_med, apart.med]
      exact openRequest_med ..
    · rw [State.setPort_pwc, apart.pwc]
      exact openRequest_pwc ..
  · intro e he hs after tagged
    have adds := tagAdds_some e f
    have passes : o.tagRefusal r f = none := by
      simp [State.tagRefusal, entry, he, adds, hs]
    refine exec_answered (r := .tag r.shot f) ha ?_
    show serveTag r.shot f o = _
    have tags : tagsAfter r.tags (some e) f = after := by
      simp [tagsAfter, adds, hs, after, base]
    rw [serveTag_passes hb hr' passes, entry, he, tags]
    simp only [State.tagRelay, adds, hs, o, openRequest_modRecord, openRequest_snq,
      funext (reclass_eq f)]
    cases p <;> rfl

end Sys2Proof.Machine
end

section
/-! PROOFS. What a free and its repeated requests leave of one shot (R7, R11, R16, R41). -/
namespace Sys2Proof.Machine

/-! ### Operations on the ports, on the capture side and on one record -/

/-- Only ports differ. -/
def PortsOnly (s t : State) : Prop := { t with prt := s.prt } = s

theorem PortsOnly.refl (s : State) : PortsOnly s s := rfl

theorem PortsOnly.trans {a b c : State} (h : PortsOnly a b) (k : PortsOnly b c) : PortsOnly a c := by
  have step := congrArg (fun u : State => { u with prt := a.prt }) k
  exact Eq.trans step h

theorem setPort_portsOnly (s : State) (p : Port) (q : PortSt) : PortsOnly s (s.setPort p q) := by
  cases p <;> rfl

theorem notify_portsOnly (s : State) (p : Port) (n : Notice) : PortsOnly s (s.notify p n) := by
  cases p with
  | body => exact setPort_portsOnly s .body _
  | relay => exact setPort_portsOnly s .relay _
  | tether =>
    unfold State.notify
    dsimp only
    split
    · exact setPort_portsOnly s .tether _
    · exact .refl s

theorem notifyAll_portsOnly (s : State) (n : Notice) : PortsOnly s (s.notifyAll n) :=
  ((notify_portsOnly s _ n).trans (notify_portsOnly _ _ n)).trans (notify_portsOnly _ _ n)

/-- Only the sequencer, the focus drive and the link differ. -/
def CaptureOnly (s t : State) : Prop := { t with rsq := s.rsq, fdr := s.fdr, lnk := s.lnk } = s

theorem CaptureOnly.refl (s : State) : CaptureOnly s s := rfl

theorem CaptureOnly.trans {a b c : State} (h : CaptureOnly a b) (k : CaptureOnly b c) :
    CaptureOnly a c := by
  have step := congrArg
    (fun u : State => { u with rsq := a.rsq, fdr := a.fdr, lnk := a.lnk }) k
  exact Eq.trans step h

theorem LinkOnly.capture {s t : State} (h : LinkOnly s t) : CaptureOnly s t := by
  have step := congrArg
    (fun u : State => { u with rsq := s.rsq, fdr := s.fdr, lnk := s.lnk }) h.rest
  exact step

theorem giveMidpoint_capture (s : State) (mid : Time) : CaptureOnly s (s.giveMidpoint mid) := by
  unfold State.giveMidpoint
  dsimp only
  split
  · split
    · obtain ⟨t, link⟩ := applyPrediction_link { s with fdr := { s.fdr with nextMid := mid } } _
      refine .trans ?_ link.capture
      rfl
    · rfl
  · rfl

theorem exposureStart_capture (s : State) (mid : Time) : CaptureOnly s (s.exposureStart mid) := by
  unfold State.exposureStart
  dsimp only
  split
  · refine .trans ?_ (startNext_link _).capture
    rfl
  · rfl

theorem enterExpose_capture (s : State) : CaptureOnly s s.enterExpose := by
  unfold State.enterExpose
  split
  · rfl
  · refine .trans ?_ ((exposureStart_capture _ _).trans (giveMidpoint_capture _ _))
    rfl

theorem focusDecision_capture (s : State) : CaptureOnly s s.focusDecision := by
  unfold State.focusDecision
  split
  · rfl
  · exact enterExpose_capture s

theorem modRecord_find {s : State} {n : Nat} {g : Record → Record}
    (hg : ∀ r, (g r).shot = r.shot := by intro r; rfl) :
    (s.modRecord n g).findRecord n = (s.findRecord n).map g := by
  have step : ∀ l : List Record, (l.map fun r => if r.shot = n then g r else r).find?
      (fun r => r.shot == n) = (l.find? fun r => r.shot == n).map g := by
    intro l
    induction l with
    | nil => rfl
    | cons x rest ih =>
      by_cases h : x.shot = n
      · simp [h, hg]
      · simp [h, ih]
  exact step s.catalog

/-! ### One shot through a cascade -/

/-- The catalog is in order and the number `n` has been issued. -/
structure Regular (n : Nat) (s : State) : Prop where
  order : CatalogOk s
  issued : s.nextShot = 0 ∨ n < s.nextShot

theorem Regular.of_find {n : Nat} {s : State} {r : Record} (h : CatalogOk s)
    (hr : s.findRecord n = some r) : Regular n s := by
  have mem : n ∈ s.catalog.map Record.shot :=
    List.mem_map.mpr ⟨r, findRecord_mem hr, findRecord_shot hr⟩
  exact ⟨h, (h.2.2 n mem).2.2⟩

/-- A cascade keeps the queues and the jobs, and the record of the shot unless it was CARD_ONLY. -/
structure Passes (n : Nat) (s t : State) : Prop where
  ports : SamePorts s t
  snq : t.snq = s.snq
  jobs : t.dev.queue = s.dev.queue
  regular : Regular n s → Regular n t
  kept : Regular n s → ∀ r, s.findRecord n = some r →
    t.findRecord n = some r ∨ (r.life = .cardOnly ∧ t.findRecord n = none)
  gone : Regular n s → s.findRecord n = none → t.findRecord n = none

theorem Passes.refl (n : Nat) (s : State) : Passes n s s :=
  ⟨.refl s, rfl, rfl, id, fun _ _ h => .inl h, fun _ h => h⟩

theorem Passes.trans {n : Nat} {a b c : State} (h : Passes n a b) (k : Passes n b c) :
    Passes n a c where
  ports := h.ports.trans k.ports
  snq := k.snq.trans h.snq
  jobs := k.jobs.trans h.jobs
  regular := fun r => k.regular (h.regular r)
  kept := fun hr r hs => by
    rcases h.kept hr r hs with hb | ⟨hl, hb⟩
    · exact k.kept (h.regular hr) r hb
    · exact .inr ⟨hl, k.gone (h.regular hr) hb⟩
  gone := fun hr hs => k.gone (h.regular hr) (h.gone hr hs)

/-- An update outside the catalog, the queues and the jobs. -/
theorem Passes.plain {n : Nat} {s t : State} (hc : t.catalog = s.catalog := by rfl)
    (hn : t.nextShot = s.nextShot := by rfl) (hq : t.snq = s.snq := by rfl)
    (hj : t.dev.queue = s.dev.queue := by rfl) (hp : SamePorts s t := by exact .of_prt rfl) :
    Passes n s t where
  ports := hp
  snq := hq
  jobs := hj
  regular := fun h => ⟨by unfold CatalogOk; rw [hc, hn]; exact h.order, hn ▸ h.issued⟩
  kept := fun _ r hr => .inl ((findRecord_congr hc n).trans hr)
  gone := fun _ hs => (findRecord_congr hc n).trans hs

theorem PortsOnly.passes {n : Nat} {s t : State} (h : PortsOnly s t) (hp : SamePorts s t) :
    Passes n s t :=
  .plain (congrArg State.catalog h :) (congrArg State.nextShot h :) (congrArg State.snq h :)
    (congrArg (fun u : State => u.dev.queue) h :) hp

theorem CaptureOnly.passes {n : Nat} {s t : State} (h : CaptureOnly s t) : Passes n s t :=
  .plain (congrArg State.catalog h :) (congrArg State.nextShot h :) (congrArg State.snq h :)
    (congrArg (fun u : State => u.dev.queue) h :) (.of_prt (congrArg State.prt h :))

theorem dropOldest_find {l : List Record} (hp : (l.map Record.shot).Pairwise (· < ·)) (n : Nat) :
    (∀ r, (l.find? fun q => q.shot == n) = some r →
      ((dropOldestCardOnly l).find? fun q => q.shot == n) = some r ∨
        (r.life = .cardOnly ∧ ((dropOldestCardOnly l).find? fun q => q.shot == n) = none)) ∧
    ((l.find? fun q => q.shot == n) = none →
      ((dropOldestCardOnly l).find? fun q => q.shot == n) = none) := by
  induction l with
  | nil => exact ⟨fun r h => (nomatch h), fun h => h⟩
  | cons x rest ih =>
    obtain ⟨hx, hrest⟩ := List.pairwise_cons.mp hp
    obtain ⟨some_, none_⟩ := ih hrest
    rw [dropOldestCardOnly]
    by_cases hs : x.shot = n
    · have head : ((x :: rest).find? fun q => q.shot == n) = some x := by simp [hs]
      have absent : (rest.find? fun q => q.shot == n) = none := by
        refine List.find?_eq_none.mpr fun q hq => ?_
        have := hx q.shot (List.mem_map_of_mem hq)
        simp only [beq_iff_eq]
        omega
      rw [head]
      split
      · next hl => exact ⟨fun r hr => .inr ⟨by cases hr; exact hl, absent⟩, nofun⟩
      · exact ⟨fun r hr => .inl (by cases hr; simp [hs]), nofun⟩
    · have skip : ∀ m : List Record, ((x :: m).find? fun q => q.shot == n) =
          m.find? fun q => q.shot == n := fun m => by simp [hs]
      rw [skip]
      split
      · exact ⟨fun r hr => .inl hr, fun h => h⟩
      · rw [skip]
        exact ⟨some_, none_⟩

theorem retire_passes (n : Nat) (s : State) : Passes n s s.retire := by
  unfold State.retire
  split
  · exact .refl n s
  · split
    · exact .refl n s
    · refine .trans ?_ ((notifyAll_portsOnly _ _).passes (notifyAll_inner _ _).ports)
      refine ⟨.of_prt rfl, rfl, rfl, fun h => ⟨?_, h.issued⟩, fun h r hr => ?_, fun h hr => ?_⟩
      · exact ShotsOk.sublist h.order ((dropOldest_sublist _).map _)
      · exact (dropOldest_find h.order.2.1 n).1 r hr
      · exact (dropOldest_find h.order.2.1 n).2 hr

theorem append_find_other {l : List Record} {x : Record} {n : Nat} (h : x.shot ≠ n) :
    ((l ++ [x]).find? fun q => q.shot == n) = l.find? fun q => q.shot == n := by
  simp [List.find?_append, h]

theorem createRecord_passes (n : Nat) (s : State) (es left : List Run)
    (h0 : s.nextShot ≠ 0) : Passes n s (s.createRecord es left) := by
  refine (retire_passes n s).trans ?_
  have next : s.retire.nextShot ≠ 0 := by rw [retire_nextShot]; exact h0
  unfold State.createRecord
  dsimp only
  generalize s.retire = u at next
  have other : Regular n u → (newRecord u.nextShot u.rsq.burst es).shot ≠ n := fun h e => by
    have shot : u.nextShot = n := e
    rcases h.issued with h | h <;> omega
  refine ⟨.of_prt rfl, rfl, rfl, fun h => ⟨?_, ?_⟩, fun h r hr => .inl ?_, fun h hr => ?_⟩
  · unfold CatalogOk
    rw [List.map_append]
    exact ShotsOk.create h.order next
  · have most := h.order.1
    have step := h.issued
    show State.nextShotNumber u.nextShot = 0 ∨ n < State.nextShotNumber u.nextShot
    unfold State.nextShotNumber
    omega
  · exact (append_find_other (other h)).trans hr
  · exact (append_find_other (other h)).trans hr

theorem stall_passes (n : Nat) (s : State) (r : StallReason) : Passes n s (s.stall r) := by
  unfold State.stall
  split
  · exact .refl n s
  · refine .trans ?_ ((notify_portsOnly _ _ _).passes (notify_inner _ _ _).ports)
    exact .plain

theorem requestFrame_passes (n : Nat) (s : State) : Passes n s s.requestFrame := by
  unfold State.requestFrame
  split
  case isTrue => exact stall_passes n s _
  case isFalse hr =>
    have next : s.nextShot ≠ 0 := by
      intro h
      simp [State.catalogRoom, h] at hr
    split
    · exact stall_passes n s _
    · exact stall_passes n s _
    · next es left _ =>
      have made : Passes n s (s.createRecord es left).focusDecision :=
        (createRecord_passes n s es left next).trans (focusDecision_capture _).passes
      dsimp only
      split
      · exact made.trans .plain
      · exact made

theorem retrySpace_passes (n : Nat) (s : State) : Passes n s s.retrySpace := by
  unfold State.retrySpace
  split
  · exact requestFrame_passes n s
  · exact .refl n s

theorem retryCatalog_passes (n : Nat) (s : State) : Passes n s s.retryCatalog := by
  unfold State.retryCatalog
  split
  · exact requestFrame_passes n s
  · exact .refl n s

theorem free_passes (n : Nat) (s : State) (es : List Run) : Passes n s (s.free es) := by
  unfold State.free
  split
  · exact .refl n s
  · refine .trans ?_ (retrySpace_passes n _)
    exact .plain

/-! ### Changes of the shot's own record -/

/-- The shot's record is changed, the rest of what its release depends on stays. -/
structure Changes (n : Nat) (s t : State) (q : Record) : Prop where
  ports : SamePorts s t
  snq : t.snq = s.snq
  jobs : t.dev.queue = s.dev.queue
  regular : Regular n t
  find : t.findRecord n = some q

theorem modRecord_regular {n : Nat} {s : State} (h : Regular n s) (g : Record → Record)
    (hg : ∀ r, (g r).shot = r.shot := by intro r; rfl) : Regular n (s.modRecord n g) :=
  ⟨by unfold CatalogOk; rw [modRecord_shots s n g hg]; exact h.order, h.issued⟩

theorem modRecord_free_changes {n : Nat} {s : State} {r : Record} (h : Regular n s)
    (hr : s.findRecord n = some r) (g : Record → Record) (es : List Run)
    (hl : (g r).life ≠ .cardOnly) (hg : ∀ r, (g r).shot = r.shot := by intro r; rfl) :
    Changes n s ((s.modRecord n g).free es) (g r) := by
  have passes := free_passes n (s.modRecord n g) es
  have regular := modRecord_regular h g hg
  have found : (s.modRecord n g).findRecord n = some (g r) := by
    rw [modRecord_find hg, hr]
    rfl
  exact ⟨(SamePorts.of_prt (s := s) (t := s.modRecord n g) rfl).trans passes.ports, passes.snq,
    passes.jobs, passes.regular regular,
    (passes.kept regular _ found).resolve_right fun h => hl h.1⟩

theorem freeRaw_changes {n : Nat} {s : State} {r : Record} (h : Regular n s)
    (hr : s.findRecord n = some r) (hl : r.life ≠ .cardOnly) :
    Changes n s (s.freeRaw n) { r with raw := { r.raw with state := .released, extents := [] } } := by
  unfold State.freeRaw
  rw [hr]
  exact modRecord_free_changes h hr (fun q => { q with
    raw := { q.raw with state := .released, extents := [] } }) _ hl

theorem freeVersion_changes {n k : Nat} {s : State} {r : Record} (h : Regular n s)
    (hr : s.findRecord n = some r) (hl : r.life ≠ .cardOnly) :
    Changes n s (s.freeVersion n k)
      { r with versions := r.versions.filter fun v => v.number != k } := by
  unfold State.freeVersion
  rw [hr]
  exact modRecord_free_changes h hr (fun q => { q with
    versions := q.versions.filter fun v => v.number != k }) _ hl

theorem removeRecord_none {n : Nat} {s : State} (h : Regular n s) :
    (s.removeRecord n).findRecord n = none := by
  unfold State.removeRecord
  split
  · assumption
  · next r _ =>
    have regular : Regular n { s with catalog := s.catalog.filter fun q => q.shot != n } :=
      ⟨filterCatalog_order s _ h.order, h.issued⟩
    exact ((free_passes n _ r.blocks).trans (retryCatalog_passes n _)).gone regular
      (filter_shot_find s.catalog n)

end Sys2Proof.Machine
end

section
/-! PROOFS. The release tests of one shot (R10, R15, R17, R20, R21) and the end of a deletion (R25). -/
namespace Sys2Proof.Machine

/-! ### What the tests look at -/

theorem openOn_iff {s : State} {n : Nat} {part : Part} {version : Option Nat} :
    s.openOn n part version = true ↔ ∃ (p : Port) (x : Handle),
      some x ∈ (s.port p).handles ∧ x.shot = n ∧ x.part = part ∧ x.version = version := by
  have one : ∀ q : PortSt, 0 < q.handleCount n part version ↔ ∃ x : Handle, some x ∈ q.handles ∧
      x.shot = n ∧ x.part = part ∧ x.version = version := by
    intro q
    rw [handleCount_eq, List.countP_pos_iff]
    constructor
    · rintro ⟨_ | x, hm, hx⟩
      · cases hx
      · exact ⟨x, hm, by simpa [and_assoc] using hx⟩
    · rintro ⟨x, hm, hx⟩
      exact ⟨some x, hm, by simpa [and_assoc] using hx⟩
  unfold State.openOn
  simp only [Bool.or_eq_true, decide_eq_true_eq, one]
  constructor
  · rintro ((h | h) | h)
    · exact ⟨.body, h⟩
    · exact ⟨.tether, h⟩
    · exact ⟨.relay, h⟩
  · rintro ⟨p, h⟩
    cases p
    · exact .inl (.inl h)
    · exact .inl (.inr h)
    · exact .inr h

theorem openOn_congr {s t : State} (h : SamePorts s t) (n : Nat) (part : Part)
    (version : Option Nat) : t.openOn n part version = s.openOn n part version := by
  rw [Bool.eq_iff_iff, openOn_iff, openOn_iff]
  simp only [(h.port _).handles]

theorem hasJob_congr {s t : State} (h : t.dev.queue = s.dev.queue) (n : Nat) :
    t.hasJob n = s.hasJob n := by
  unfold State.hasJob
  rw [h]

theorem needs_iff (c : Copy) :
    c.needs = true ↔ c.state = .pending ∨ c.state = .writing ∨ c.state = .verifying := by
  unfold Copy.needs
  split <;> simp_all

theorem inFlight_iff (c : Copy) :
    c.inFlight = true ↔ c.state = .writing ∨ c.state = .verifying := by
  unfold Copy.inFlight
  split <;> simp_all

theorem copyNeeds_iff (r : Record) (k : Nat) : State.copyNeeds r k = true ↔
    ∃ x, (r.copies.get x .proof).version = some k ∧ (r.copies.get x .proof).needs = true := by
  unfold State.copyNeeds
  simp only [Bool.or_eq_true, Bool.and_eq_true, beq_iff_eq]
  constructor
  · rintro (h | h)
    · exact ⟨.a, h⟩
    · exact ⟨.b, h⟩
  · rintro ⟨x, h⟩
    cases x
    · exact .inl h
    · exact .inr h

theorem versionReleasable_congr {s t : State} (hp : SamePorts s t)
    (hq : t.snq.relay = s.snq.relay) {r q : Record} (hs : q.shot = r.shot)
    (hc : q.copies = r.copies) (v : Version) :
    t.versionReleasable q v = s.versionReleasable r v := by
  simp only [State.versionReleasable, State.drainingReleasable, State.currentReleasable,
    State.copyNeeds, openOn_congr hp, State.relayEntry, hq, hs, hc]

/-! ### The raw -/

/-- The tether queue without the shot. -/
def withoutTether (q : Snq) (n : Nat) : Snq := { q with tether := q.tether.filter fun e => e.shot != n }

theorem filter_tether_none {s : State} {n : Nat} (h : s.tetherEntry n = none) :
    withoutTether s.snq n = s.snq := by
  have all : s.snq.tether.filter (fun e => e.shot != n) = s.snq.tether :=
    List.filter_eq_self.mpr fun e he => by
      have := List.find?_eq_none.mp h e he
      simpa using this
  unfold withoutTether
  rw [all]

/-- What an operation leaves of one shot, the send queues given. -/
structure ShotLeft (n : Nat) (s t : State) (snq : Snq) (q : Record) : Prop where
  ports : SamePorts s t
  snq : t.snq = snq
  jobs : t.dev.queue = s.dev.queue
  regular : Regular n t
  find : t.findRecord n = some q

theorem Changes.left {n : Nat} {s t : State} {q : Record} (h : Changes n s t q) :
    ShotLeft n s t s.snq q := ⟨h.ports, h.snq, h.jobs, h.regular, h.find⟩

theorem ShotLeft.trans {n : Nat} {a b c : State} {x y : Snq} {q r : Record}
    (h : ShotLeft n a b x q) (k : ShotLeft n b c y r) : ShotLeft n a c y r :=
  ⟨h.ports.trans k.ports, k.snq, k.jobs.trans h.jobs, k.regular, k.find⟩

theorem Passes.left {n : Nat} {s t : State} {r : Record} (h : Passes n s t) (hs : Regular n s)
    (hr : s.findRecord n = some r) (hl : r.life ≠ .cardOnly) : ShotLeft n s t s.snq r :=
  ⟨h.ports, h.snq, h.jobs, h.regular hs, (h.kept hs r hr).resolve_right fun c => hl c.1⟩

theorem modRecord_left {n : Nat} {s : State} {r : Record} (h : Regular n s)
    (hr : s.findRecord n = some r) (g : Record → Record)
    (hg : ∀ r, (g r).shot = r.shot := by intro r; rfl) :
    ShotLeft n s (s.modRecord n g) s.snq (g r) :=
  ⟨.of_prt rfl, rfl, rfl, modRecord_regular h g hg, by rw [modRecord_find hg, hr]; rfl⟩

theorem missTether_left {n : Nat} {s : State} {r : Record} (h : Regular n s)
    (hr : s.findRecord n = some r) (hl : r.life ≠ .cardOnly) :
    ShotLeft n s (s.missTether n) (withoutTether s.snq n)
      { r with tether := if (s.tetherEntry n).isSome then .missed else r.tether } := by
  unfold State.missTether
  cases ht : s.tetherEntry n with
  | none =>
    rw [filter_tether_none ht]
    exact ⟨.refl s, rfl, rfl, h, hr⟩
  | some e =>
    have base : ShotLeft n s { s with snq := withoutTether s.snq n } (withoutTether s.snq n) r :=
      ⟨.of_prt rfl, rfl, rfl, ⟨h.order, h.issued⟩, hr⟩
    have marked := modRecord_left base.regular base.find fun r => { r with tether := .missed }
    have told := ((notify_portsOnly (State.modRecord { s with snq := withoutTether s.snq n } n
      fun r => { r with tether := .missed }) .tether (.transferMissed n)).passes (n := n)
      (notify_inner _ _ _).ports).trans
      ((notify_portsOnly _ .body (.transferMissed n)).passes (notify_inner _ _ _).ports)
    exact (base.trans marked).trans (told.left marked.regular marked.find hl)

/-- The raw test of a HELD record (R17, R145). -/
theorem rawTest_left {n : Nat} {s : State} {r : Record} (h : Regular n s)
    (hr : s.findRecord n = some r) (hl : r.life = .held) :
    (s.rawReleasable r = true → ShotLeft n s (s.rawTest n) (withoutTether s.snq n)
      { r with
        tether := if (s.tetherEntry n).isSome then .missed else r.tether,
        raw := { r.raw with state := .released, extents := [] } }) ∧
    (s.rawReleasable r = false → s.rawTest n = s) := by
  have live : r.life ≠ .cardOnly := by simp [hl]
  unfold State.rawTest
  rw [hr]
  refine ⟨fun hrel => ?_, fun hrel => ?_⟩
  · dsimp only
    rw [if_pos (by simp [hl, hrel])]
    have missed := missTether_left h hr live
    have freed := (freeRaw_changes missed.regular missed.find live).left
    rw [missed.snq] at freed
    exact missed.trans freed
  · exact if_neg (by simp [hrel])

/-! ### The versions -/

/-- Members with the same key are one member where no key comes twice. -/
theorem eq_of_nodup_map {α β : Type} {f : α → β} {l : List α} (h : (l.map f).Nodup) {x y : α}
    (hx : x ∈ l) (hy : y ∈ l) (e : f x = f y) : x = y := by
  induction l with
  | nil => cases hx
  | cons z rest ih =>
    obtain ⟨out, nodup⟩ := List.nodup_cons.mp h
    rcases List.mem_cons.mp hx with rfl | inX <;> rcases List.mem_cons.mp hy with rfl | inY
    · rfl
    · exact absurd (e ▸ List.mem_map_of_mem inY) out
    · exact absurd (e ▸ List.mem_map_of_mem inX) out
    · exact ih nodup inX inY

/-- The versions that the tests of the numbers leave (R20, R21). -/
theorem versionTests_left {n : Nat} (numbers : List Nat) {s : State} {r : Record} (h : Regular n s)
    (hr : s.findRecord n = some r) (hl : r.life = .held) (hd : (r.versions.map Version.number).Nodup) :
    ∃ vs, ShotLeft n s (s.versionTests n numbers) s.snq { r with versions := vs } ∧
      ∀ v, v ∈ vs ↔ v ∈ r.versions ∧ ¬ (v.number ∈ numbers ∧ s.versionReleasable r v = true) := by
  have live : r.life ≠ .cardOnly := by simp [hl]
  induction numbers generalizing s r with
  | nil => exact ⟨r.versions, ⟨.refl s, rfl, rfl, h, hr⟩, fun v => by simp⟩
  | cons k rest ih =>
    unfold State.versionTests
    rw [hr]
    dsimp only
    have unique : ∀ v ∈ r.versions, ∀ w, r.version k = some w → v.number = k → v = w := by
      intro v hv w hw hk
      have hw' := List.mem_of_find?_eq_some hw
      have hk' : w.number = k := by simpa using List.find?_some hw
      exact eq_of_nodup_map hd hv hw' (hk.trans hk'.symm)
    have skipped : (∀ v ∈ r.versions, v.number = k → s.versionReleasable r v = false) →
        ∃ vs, ShotLeft n s (s.versionTests n rest) s.snq { r with versions := vs } ∧
          ∀ v, v ∈ vs ↔ v ∈ r.versions ∧
            ¬ (v.number ∈ k :: rest ∧ s.versionReleasable r v = true) := by
      intro hk
      obtain ⟨vs, left, mem⟩ := ih h hr hl hd live
      refine ⟨vs, left, fun v => ?_⟩
      rw [mem v]
      refine and_congr_right fun hv => not_congr ?_
      rw [List.mem_cons]
      refine ⟨fun ⟨a, b⟩ => ⟨.inr a, b⟩, fun ⟨a, b⟩ => ⟨a.resolve_left fun e => ?_, b⟩⟩
      rw [hk v hv e] at b
      cases b
    split
    case h_1 hk =>
      refine skipped fun v hv e => ?_
      have := List.find?_eq_none.mp hk v hv
      simp [e] at this
    case h_2 w hw =>
      split
      case isFalse hrel =>
        refine skipped fun v hv e => ?_
        rw [unique v hv w hw e]
        simpa [hl] using hrel
      case isTrue hrel =>
        have freed := (freeVersion_changes (k := k) h hr live).left
        have sub : ((r.versions.filter fun v => v.number != k).map Version.number).Nodup :=
          hd.sublist (List.filter_sublist.map _)
        obtain ⟨vs, left, mem⟩ := ih freed.regular freed.find hl sub live
        rw [freed.snq] at left
        refine ⟨vs, freed.trans left, fun v => ?_⟩
        rw [mem v, List.mem_filter, versionReleasable_congr freed.ports
          (congrArg Snq.relay freed.snq) (r := r)
          (q := { r with versions := r.versions.filter fun v => v.number != k }) rfl rfl, and_assoc]
        refine and_congr_right fun hv => ?_
        have due : s.versionReleasable r w = true := (by simpa using hrel : _ ∧ _).2
        rw [List.mem_cons]
        constructor
        · rintro ⟨hne, hn⟩ ⟨rfl | hm, hv'⟩
          · simp at hne
          · exact hn ⟨hm, hv'⟩
        · intro hn
          refine ⟨?_, fun hm => hn ⟨.inr hm.1, hm.2⟩⟩
          rw [bne_iff_ne]
          intro e
          exact hn ⟨.inl e, unique v hv w hw e ▸ due⟩

/-- The CARD_ONLY test of a HELD record (R15): the record that is left, if it was not retired. -/
theorem cardOnlyTest_find {n : Nat} {s : State} {r : Record} (h : Regular n s)
    (hr : s.findRecord n = some r) (hl : r.life = .held) :
    (s.cardOnlyTest n).snq = s.snq ∧ ∀ q, (s.cardOnlyTest n).findRecord n = some q →
      q = { r with life := if s.hasHold r then .held else .cardOnly } := by
  unfold State.cardOnlyTest
  rw [hr]
  dsimp only
  cases hh : s.hasHold r with
  | true =>
    rw [if_neg (by simp)]
    refine ⟨rfl, fun q hq => ?_⟩
    cases hr.symm.trans hq
    rw [if_pos rfl, ← hl]
  | false =>
    rw [if_pos (by simp [hl]), if_neg (by simp)]
    have marked := modRecord_left h hr fun q => { q with life := .cardOnly }
    have passes := retryCatalog_passes n (s.modRecord n fun q => { q with life := .cardOnly })
    refine ⟨passes.snq, fun q hq => ?_⟩
    rcases passes.kept marked.regular _ marked.find with hk | ⟨-, hk⟩
    · cases hk.symm.trans hq
      rfl
    · cases hk.symm.trans hq

/-! ### The tests in the words of the rules -/

theorem relayEntry_isSome {s : State} {n : Nat} :
    (s.relayEntry n).isSome = true ↔ ∃ e, e ∈ s.snq.relay ∧ e.shot = n := by
  simp [State.relayEntry, List.find?_isSome]

theorem tetherEntry_isSome {s : State} {n : Nat} :
    (s.tetherEntry n).isSome = true ↔ ∃ e, e ∈ s.snq.tether ∧ e.shot = n := by
  simp [State.tetherEntry, List.find?_isSome]

theorem hasJob_iff {s : State} {n : Nat} :
    s.hasJob n = true ↔ ∃ j, j ∈ s.dev.queue ∧ j.shot = n := by
  simp [State.hasJob]

theorem rawReleasable_iff {s : State} {r : Record} : s.rawReleasable r = true ↔
    r.raw.state = .present ∧ (∀ x, ¬ (r.copies.get x .raw).needs = true) ∧
      ¬ s.openOn r.shot .raw none = true ∧
      ¬ ((s.tetherEntry r.shot).isSome = true ∧ s.snq.policy = .hold) ∧ ¬ s.hasJob r.shot = true ∧
      r.wanted = none := by
  have copies : (∀ x, ¬ (r.copies.get x .raw).needs = true) ↔
      (r.copies.aRaw.needs || r.copies.bRaw.needs) = false := by
    rw [Bool.or_eq_false_iff]
    refine ⟨fun h => ⟨by simpa [Copies.get] using h .a, by simpa [Copies.get] using h .b⟩, fun ⟨ha, hb⟩ x => ?_⟩
    cases x
    · simp [Copies.get, ha]
    · simp [Copies.get, hb]
  rw [copies]
  unfold State.rawReleasable
  simp only [Bool.and_eq_true, Bool.not_eq_true', beq_iff_eq, Option.isNone_iff_eq_none, and_assoc,
    Bool.not_eq_true, Bool.and_eq_false_iff, beq_eq_false_iff_ne, Classical.not_and_iff_not_or_not, ne_eq]

theorem versionReleasable_iff {s : State} {r : Record} {v : Version} :
    s.versionReleasable r v = true ↔ ¬ s.openOn r.shot .proof (some v.number) = true ∧
      ¬ State.copyNeeds r v.number = true ∧
      ((v.state = .draining ∧ ¬ ∃ e, e ∈ s.snq.relay ∧ e.shot = r.shot ∧ e.state = .inFlight ∧
          e.version = some v.number) ∨
        (v.state = .current ∧ v.collector = none ∧ ¬ (s.relayEntry r.shot).isSome = true)) := by
  simp only [State.versionReleasable, State.drainingReleasable, State.currentReleasable,
    Bool.or_eq_true, Bool.and_eq_true, Bool.not_eq_true', beq_iff_eq, List.any_eq_false, not_exists,
    not_and, and_imp, Bool.not_eq_true, Option.isNone_iff_eq_none, Option.isSome_eq_false_iff,
    Option.isNone_iff_eq_none]
  grind

theorem hasHold_iff {s : State} {r : Record} : s.hasHold r = false ↔
    r.raw.state = .released ∧ r.versions = [] ∧ ¬ (s.relayEntry r.shot).isSome = true ∧
      ¬ (s.tetherEntry r.shot).isSome = true ∧ ¬ s.hasJob r.shot = true ∧ r.wanted = none := by
  unfold State.hasHold
  simp only [Bool.or_eq_false_iff, bne_eq_false_iff_eq, Bool.not_eq_false', List.isEmpty_iff,
    Bool.not_eq_true, and_assoc, Option.isSome_eq_false_iff, Option.isNone_iff_eq_none]

theorem withoutTether_entry {s t : State} {n : Nat} (h : t.snq = withoutTether s.snq n) :
    t.tetherEntry n = none := by
  unfold State.tetherEntry
  rw [h]
  simp [withoutTether, List.find?_eq_none]

/-- A test's part of what is left: the raw is released or stays (R17). -/
def rawTested (s : State) (n : Nat) (r : Record) : Record :=
  if s.rawReleasable r then
    { r with
      tether := if (s.tetherEntry n).isSome then .missed else r.tether,
      raw := { r.raw with state := .released, extents := [] } }
  else r

/-- The release tests of a HELD record: the versions that stay, and the record that is left. -/
theorem releaseTests_left {n : Nat} {s : State} {r : Record} (h : Regular n s)
    (hr : s.findRecord n = some r) (hl : r.life = .held)
    (hd : (r.versions.map Version.number).Nodup) :
    ∃ (w : State) (vs : List Version),
      ShotLeft n s w (if s.rawReleasable r then withoutTether s.snq n else s.snq)
        { rawTested s n r with versions := vs } ∧
      (∀ v, v ∈ vs ↔ v ∈ r.versions ∧ ¬ s.versionReleasable r v = true) ∧
      (s.releaseTests n).snq = w.snq ∧ ∀ q, (s.releaseTests n).findRecord n = some q →
        q = { rawTested s n r with
          versions := vs
          life := if w.hasHold { rawTested s n r with versions := vs } then .held
            else .cardOnly } := by
  have raw : ShotLeft n s (s.rawTest n)
      (if s.rawReleasable r then withoutTether s.snq n else s.snq) (rawTested s n r) := by
    obtain ⟨released, kept⟩ := rawTest_left h hr hl
    unfold rawTested
    cases hrel : s.rawReleasable r with
    | true => exact released hrel
    | false =>
      rw [kept hrel]
      exact ⟨.refl s, rfl, rfl, h, hr⟩
  have same : (rawTested s n r).shot = r.shot ∧ (rawTested s n r).copies = r.copies ∧
      (rawTested s n r).versions = r.versions ∧ (rawTested s n r).life = .held := by
    unfold rawTested
    split <;> exact ⟨rfl, rfl, rfl, hl⟩
  obtain ⟨hshot, hcopies, hversions, hlife⟩ := same
  have relay : (s.rawTest n).snq.relay = s.snq.relay := by
    rw [raw.snq]
    split <;> rfl
  obtain ⟨vs, left, mem⟩ := versionTests_left (r.versions.map Version.number) raw.regular raw.find
    hlife (hversions ▸ hd)
  rw [raw.snq] at left
  have left := raw.trans left
  obtain ⟨snq, found⟩ := cardOnlyTest_find left.regular left.find hlife
  have opened : s.releaseTests n = ((s.rawTest n).versionTests n
      (r.versions.map Version.number)).cardOnlyTest n := by
    unfold State.releaseTests
    rw [hr]
  refine ⟨_, vs, left, fun v => ?_, by rw [opened, snq], fun q hq => found q (opened ▸ hq)⟩
  rw [mem v, hversions, versionReleasable_congr raw.ports relay hshot hcopies]
  exact and_congr_right fun hv => not_congr (and_iff_right (List.mem_map_of_mem hv))

/-! ### The record that is left, in the words of the rules -/

theorem rawTested_fields (s : State) (n : Nat) (r : Record) :
    (rawTested s n r).shot = r.shot ∧ (rawTested s n r).wanted = r.wanted ∧
      ((rawTested s n r).raw.state = .released ↔
        r.raw.state = .released ∨ s.rawReleasable r = true) := by
  unfold rawTested
  split
  case isTrue h => exact ⟨rfl, rfl, by simp [h]⟩
  case isFalse h => exact ⟨rfl, rfl, by simp [h]⟩

/-- The holds that are left after the release tests, by what was there before them (R15). -/
theorem hasHold_left {n : Nat} {s w : State} {r : Record} {vs : List Version} (hn : r.shot = n)
    (left : ShotLeft n s w (if s.rawReleasable r then withoutTether s.snq n else s.snq)
      { rawTested s n r with versions := vs })
    (mem : ∀ v, v ∈ vs ↔ v ∈ r.versions ∧ ¬ s.versionReleasable r v = true) :
    w.hasHold { rawTested s n r with versions := vs } = false ↔
      (r.raw.state = .released ∨ s.rawReleasable r = true) ∧
        (∀ v, v ∈ r.versions → s.versionReleasable r v = true) ∧
        ¬ (s.relayEntry n).isSome = true ∧
        (¬ (s.tetherEntry n).isSome = true ∨ s.rawReleasable r = true) ∧
        ¬ s.hasJob n = true ∧ r.wanted = none := by
  obtain ⟨hshot, hwanted, hraw⟩ := rawTested_fields s n r
  have gone : vs = [] ↔ ∀ v, v ∈ r.versions → s.versionReleasable r v = true := by
    rw [List.eq_nil_iff_forall_not_mem]
    simp only [mem, not_and, Classical.not_not]
  have relay : w.relayEntry n = s.relayEntry n := by
    unfold State.relayEntry
    rw [left.snq]
    split <;> rfl
  have tether : ¬ (w.tetherEntry n).isSome = true ↔
      (¬ (s.tetherEntry n).isSome = true ∨ s.rawReleasable r = true) := by
    cases h : s.rawReleasable r with
    | true =>
      have snq := left.snq
      rw [if_pos h] at snq
      rw [withoutTether_entry snq]
      simp
    | false =>
      have snq := left.snq
      rw [if_neg (by simp [h])] at snq
      unfold State.tetherEntry
      rw [snq]
      simp
  rw [hasHold_iff]
  show (rawTested s n r).raw.state = .released ∧ vs = [] ∧
    ¬ (w.relayEntry (rawTested s n r).shot).isSome = true ∧
    ¬ (w.tetherEntry (rawTested s n r).shot).isSome = true ∧
    ¬ w.hasJob (rawTested s n r).shot = true ∧ (rawTested s n r).wanted = none ↔ _
  rw [hraw, gone, hshot, hn, hwanted, relay, tether, hasJob_congr left.jobs]

/-! ### The end of a copy of a DELETING shot (R25) -/

/-- Another copy in flight holds the part. -/
def partHeld (r : Record) (part : Part) (version : Option Nat) : Bool :=
  ((r.copies.get .a part).inFlight && (r.copies.get .a part).version == version) ||
    ((r.copies.get .b part).inFlight && (r.copies.get .b part).version == version)

theorem partHeld_iff {r : Record} {part : Part} {version : Option Nat} :
    partHeld r part version = true ↔ ∃ x, (r.copies.get x part).version = version ∧
      ((r.copies.get x part).state = .writing ∨ (r.copies.get x part).state = .verifying) := by
  simp only [← inFlight_iff, partHeld, Bool.or_eq_true, Bool.and_eq_true, beq_iff_eq]
  constructor
  · rintro (⟨a, b⟩ | ⟨a, b⟩)
    · exact ⟨.a, b, a⟩
    · exact ⟨.b, b, a⟩
  · rintro ⟨_ | _, b, a⟩
    · exact .inl ⟨a, b⟩
    · exact .inr ⟨a, b⟩

/-- The part of a shot goes. -/
def freePart (s : State) (n : Nat) (part : Part) (version : Option Nat) : State :=
  match part, version with
  | .raw, _ => s.freeRaw n
  | .proof, some k => s.freeVersion n k
  | .proof, none => s

theorem settleDeleting_eq {s : State} {n : Nat} {r : Record} (hr : s.findRecord n = some r)
    (part : Part) (version : Option Nat) : s.settleDeleting n part version =
      (let u := if partHeld r part version then s else freePart s n part version
       if r.anyInFlight then u else u.removeRecord n) := by
  unfold State.settleDeleting
  rw [hr]
  cases part <;> cases version <;> rfl

/-- What the end of a copy leaves of a DELETING record (R25). -/
theorem freePart_left {n : Nat} {s : State} {r : Record} (h : Regular n s)
    (hr : s.findRecord n = some r) (hl : r.life ≠ .cardOnly) (part : Part) (version : Option Nat) :
    ∃ q, ShotLeft n s (freePart s n part version) s.snq q ∧ q.life = r.life ∧
      (part = .raw → q.raw.state = .released ∧ q.raw.extents = []) ∧
      (∀ k, part = .proof → version = some k →
        ∀ v, v ∈ q.versions ↔ v ∈ r.versions ∧ v.number ≠ k) := by
  match part, version with
  | .raw, _ => exact ⟨_, (freeRaw_changes h hr hl).left, rfl, fun _ => ⟨rfl, rfl⟩, nofun⟩
  | .proof, some k =>
    refine ⟨_, (freeVersion_changes h hr hl).left, rfl, nofun, fun j _ hj v => ?_⟩
    cases hj
    simp
  | .proof, none => exact ⟨r, ⟨.refl s, rfl, rfl, h, hr⟩, rfl, nofun, nofun⟩

/-- Settles O40. -/
theorem releaseDecisions : Obligations.ReleaseDecisions := by
  refine ⟨?_, ?_, ?_⟩
  · intro s p tag h x ha h3 hx u
    have hk : exec (Request.row (.closeHandle h) p tag) s = _ := exec_row _ p tag s
    have served : (Request.closeHandle h).service p
        (s.openRequest p (Request.closeHandle h).kind tag) = _ :=
      serveClose_open (s := u) h3 (by simpa [u] using hx)
    refine hk.trans ?_
    rw [takeRequest_served (k := (Request.closeHandle h).kind) ha tag, served]
    rfl
  · intro s n r hc hr hl hd needs handled queued tethered job copying rawDue due t bare
    have hn : r.shot = n := findRecord_shot hr
    have raw_iff : rawDue ↔ s.rawReleasable r = true := by
      simp only [rawDue, handled, tethered, job, needs]
      rw [rawReleasable_iff, openOn_iff, tetherEntry_isSome, hasJob_iff, hn]
      simp only [needs_iff]
    have due_iff : ∀ v, due v ↔ s.versionReleasable r v = true := fun v => by
      simp only [due, handled, copying, queued, needs]
      rw [versionReleasable_iff, openOn_iff, copyNeeds_iff, relayEntry_isSome, hn]
      simp only [needs_iff]
    obtain ⟨w, vs, left, mem, snq, found⟩ := releaseTests_left (.of_find hc hr) hr hl hd
    have bare_iff : bare ↔ w.hasHold { rawTested s n r with versions := vs } = false := by
      rw [hasHold_left hn left mem, relayEntry_isSome, tetherEntry_isSome, hasJob_iff, ← raw_iff]
      simp only [← due_iff]
      exact Iff.rfl
    refine ⟨fun h => ?_, fun q hq => ?_⟩
    · refine withoutTether_entry (s := s) ?_
      rw [snq, left.snq, if_pos (raw_iff.mp h)]
    · cases found q hq
      refine ⟨fun h => ?_, fun h => ?_, fun v => ?_, fun h => ?_, fun h => ?_⟩
      · unfold rawTested
        rw [if_pos (raw_iff.mp h)]
        exact ⟨rfl, fun ht => if_pos (tetherEntry_isSome.mpr ht)⟩
      · unfold rawTested
        rw [if_neg (mt raw_iff.mpr h)]
        exact ⟨rfl, rfl⟩
      · exact (mem v).trans (and_congr_right fun _ => not_congr (due_iff v).symm)
      · exact if_neg (by simp [bare_iff.mp h])
      · exact if_pos (by simpa using mt bare_iff.mpr h)
  · intro s n r hc hr hl part version other t
    have live : r.life ≠ .cardOnly := by simp [hl]
    have regular := Regular.of_find hc hr
    have other_iff : other ↔ partHeld r part version = true := partHeld_iff.symm
    obtain ⟨q, left, life, raw, versions⟩ := freePart_left regular hr live part version
    have eq : t = _ := settleDeleting_eq hr part version
    refine ⟨fun h => ?_, fun h ho => ?_, fun h ho => ?_⟩
    · rw [eq, h]
      dsimp only
      rw [if_neg (by simp)]
      split
      · exact removeRecord_none regular
      · exact removeRecord_none left.regular
    · rw [eq]
      dsimp only
      rw [if_pos h, if_pos (other_iff.mp ho)]
    · rw [eq]
      dsimp only
      rw [if_pos h, if_neg (mt other_iff.mpr ho)]
      exact ⟨q, left.find, life.trans hl, raw, versions⟩

end Sys2Proof.Machine
end

section
/-! PROOFS. One shot while the rest of the system works on other shots, and DELETE (R23, R24). -/
namespace Sys2Proof.Machine

/-! ### Work on other shots -/

/-- The shot keeps its record, unless it was CARD_ONLY, and gets no entry in a queue and no job. -/
structure Spares (n : Nat) (s t : State) : Prop where
  regular : Regular n s → Regular n t
  kept : Regular n s → ∀ r, s.findRecord n = some r →
    t.findRecord n = some r ∨ (r.life = .cardOnly ∧ t.findRecord n = none)
  gone : Regular n s → s.findRecord n = none → t.findRecord n = none
  relay : s.relayEntry n = none → t.relayEntry n = none
  tether : s.tetherEntry n = none → t.tetherEntry n = none
  jobs : ∀ k, k ∈ t.dev.queue → k.shot = n → k ∈ s.dev.queue

theorem Spares.refl (n : Nat) (s : State) : Spares n s s :=
  ⟨id, fun _ _ h => .inl h, fun _ h => h, id, id, fun _ h _ => h⟩

theorem Spares.trans {n : Nat} {a b c : State} (h : Spares n a b) (k : Spares n b c) :
    Spares n a c where
  regular := fun r => k.regular (h.regular r)
  kept := fun hr r hs => by
    rcases h.kept hr r hs with hb | ⟨hl, hb⟩
    · exact k.kept (h.regular hr) r hb
    · exact .inr ⟨hl, k.gone (h.regular hr) hb⟩
  gone := fun hr hs => k.gone (h.regular hr) (h.gone hr hs)
  relay := fun e => k.relay (h.relay e)
  tether := fun e => k.tether (h.tether e)
  jobs := fun j hj hs => h.jobs j (k.jobs j hj hs) hs

theorem Passes.spares {n : Nat} {s t : State} (h : Passes n s t) : Spares n s t where
  regular := h.regular
  kept := h.kept
  gone := h.gone
  relay := fun e => by unfold State.relayEntry; rw [h.snq]; exact e
  tether := fun e => by unfold State.tetherEntry; rw [h.snq]; exact e
  jobs := fun k hk _ => h.jobs ▸ hk

theorem modRecord_find_other {s : State} {n m : Nat} (hm : m ≠ n) {g : Record → Record}
    (hg : ∀ r, (g r).shot = r.shot := by intro r; rfl) :
    (s.modRecord m g).findRecord n = s.findRecord n := by
  have step : ∀ l : List Record, (l.map fun r => if r.shot = m then g r else r).find?
      (fun r => r.shot == n) = l.find? fun r => r.shot == n := by
    intro l
    induction l with
    | nil => rfl
    | cons x rest ih =>
      by_cases h : x.shot = m
      · simp [h, hg, hm, ih]
      · rw [List.map_cons, if_neg h, List.find?_cons, List.find?_cons, ih]
  exact step s.catalog

theorem modRecord_order {s : State} {n m : Nat} (h : Regular n s) {g : Record → Record}
    (hg : ∀ r, (g r).shot = r.shot := by intro r; rfl) : Regular n (s.modRecord m g) :=
  ⟨by unfold CatalogOk; rw [modRecord_shots s m g hg]; exact h.order, h.issued⟩

theorem modRecord_spares {n m : Nat} (hm : m ≠ n) (s : State) (g : Record → Record)
    (hg : ∀ r, (g r).shot = r.shot := by intro r; rfl) : Spares n s (s.modRecord m g) where
  regular := fun h => modRecord_order h hg
  kept := fun _ _ hr => .inl ((modRecord_find_other hm hg).trans hr)
  gone := fun _ hr => (modRecord_find_other hm hg).trans hr
  relay := id
  tether := id
  jobs := fun _ h _ => h

theorem notify_passes (n : Nat) (s : State) (p : Port) (x : Notice) : Passes n s (s.notify p x) :=
  (notify_portsOnly s p x).passes (notify_inner s p x).ports

theorem notifyAll_passes (n : Nat) (s : State) (x : Notice) : Passes n s (s.notifyAll x) :=
  (notifyAll_portsOnly s x).passes (notifyAll_inner s x).ports

/-! ### The release tests of another shot -/

theorem missTether_spares {n m : Nat} (hm : m ≠ n) (s : State) : Spares n s (s.missTether m) := by
  unfold State.missTether
  split
  · exact .refl n s
  · refine .trans ?_ ((notify_passes n _ _ _).trans (notify_passes n _ _ _)).spares
    refine .trans ?_ (modRecord_spares hm _ _)
    refine ⟨fun h => ⟨h.order, h.issued⟩, fun _ _ h => .inl h, fun _ h => h, id, fun h => ?_,
      fun _ h _ => h⟩
    exact List.find?_eq_none.mpr fun e he => List.find?_eq_none.mp h e ((List.mem_filter.mp he).1)

theorem freeRaw_spares {n m : Nat} (hm : m ≠ n) (s : State) : Spares n s (s.freeRaw m) := by
  unfold State.freeRaw
  split
  · exact .refl n s
  · exact (modRecord_spares hm s _).trans (free_passes n _ _).spares

theorem freeVersion_spares {n m : Nat} (hm : m ≠ n) (s : State) (k : Nat) :
    Spares n s (s.freeVersion m k) := by
  unfold State.freeVersion
  split
  · exact .refl n s
  · exact (modRecord_spares hm s _).trans (free_passes n _ _).spares

theorem versionTests_spares {n m : Nat} (hm : m ≠ n) (numbers : List Nat) (s : State) :
    Spares n s (s.versionTests m numbers) := by
  induction numbers generalizing s with
  | nil => exact .refl n s
  | cons k rest ih =>
    unfold State.versionTests
    split
    · exact .refl n s
    · split
      · exact ih s
      · split
        · exact (freeVersion_spares hm s k).trans (ih _)
        · exact ih s

theorem releaseTests_spares {n m : Nat} (hm : m ≠ n) (s : State) :
    Spares n s (s.releaseTests m) := by
  have raw : Spares n s (s.rawTest m) := by
    unfold State.rawTest
    split
    · exact .refl n s
    · split
      · exact (missTether_spares hm s).trans (freeRaw_spares hm _)
      · exact .refl n s
  have cardOnly : ∀ u : State, Spares n u (u.cardOnlyTest m) := fun u => by
    unfold State.cardOnlyTest
    split
    · exact .refl n u
    · split
      · exact (modRecord_spares hm u _).trans (retryCatalog_passes n _).spares
      · exact .refl n u
  unfold State.releaseTests
  split
  · exact .refl n s
  · exact (raw.trans (versionTests_spares hm _ _)).trans (cardOnly _)

/-! ### Jobs and copies of other shots -/

theorem mem_changeJob {l : List Job} {j k : Job} {f : Job → Job} (h : k ∈ changeJob l j f) :
    k ∈ l ∨ k = f j := by
  induction l with
  | nil => cases h
  | cons x rest ih =>
    rw [changeJob] at h
    split at h
    case isTrue hx =>
      rcases List.mem_cons.mp h with h | h
      · exact .inr (h.trans (congrArg f hx))
      · exact .inl (List.mem_cons_of_mem x h)
    case isFalse =>
      rcases List.mem_cons.mp h with h | h
      · exact .inl (h ▸ List.mem_cons_self)
      · exact (ih h).imp_left (List.mem_cons_of_mem x)

theorem modJob_spares {n : Nat} (s : State) (j : Job) (f : Job → Job) (hj : (f j).shot ≠ n) :
    Spares n s (s.modJob j f) where
  regular := fun h => ⟨h.order, h.issued⟩
  kept := fun _ _ h => .inl h
  gone := fun _ h => h
  relay := id
  tether := id
  jobs := fun _ hk hs => (mem_changeJob hk).resolve_right fun e => hj (e ▸ hs)

theorem appendJob_spares {n m : Nat} (hm : m ≠ n) (s : State) (recipe : Nat) (origin : JobOrigin)
    (asking : List Port) (card relay : Bool) :
    Spares n s (s.appendJob m recipe origin asking card relay) where
  regular := fun h => ⟨h.order, h.issued⟩
  kept := fun _ _ h => .inl h
  gone := fun _ h => h
  relay := id
  tether := id
  jobs := fun k hk hs => by
    rcases List.mem_append.mp hk with h | h
    · exact h
    · cases List.mem_singleton.mp h
      exact absurd hs hm

/-- Nothing is to be made for the shot: no proof wanted, no copy PENDING. -/
def Record.Unasked (r : Record) : Prop :=
  r.wanted = none ∧ ∀ x part, (r.copies.get x part).state ≠ .pending

/-- The shot is not asked for, and none of its jobs is QUEUED. -/
structure Idle (n : Nat) (s : State) : Prop where
  regular : Regular n s
  unasked : ∀ r, s.findRecord n = some r → r.Unasked
  jobs : ∀ k, k ∈ s.dev.queue → k.shot = n → k.state = .running

theorem Idle.spares {n : Nat} {s t : State} (h : Idle n s) (k : Spares n s t) : Idle n t where
  regular := k.regular h.regular
  unasked := fun r hr => by
    cases hs : s.findRecord n with
    | none => cases (k.gone h.regular hs).symm.trans hr
    | some q =>
      rcases k.kept h.regular q hs with hq | ⟨-, hq⟩
      · cases hq.symm.trans hr
        exact h.unasked _ hs
      · cases hq.symm.trans hr
  jobs := fun j hj hs => h.jobs j (k.jobs j hj hs) hs

theorem admitFrom_spares {n : Nat} (shots : List Nat) {s : State} (h : Idle n s) :
    Spares n s (s.admitFrom shots) := by
  induction shots generalizing s with
  | nil => exact .refl n s
  | cons m rest ih =>
    unfold State.admitFrom
    split
    · exact ih h
    case h_2 r hr =>
      split
      · exact ih h
      case h_2 w hw =>
        have other : m ≠ n := by
          rintro rfl
          cases (h.unasked r hr).1.symm.trans hw
        have tested : ∀ u : State, Spares n s u →
            Spares n s (((u.setWanted m none).releaseTests m).admitFrom rest) := fun u hu => by
          have cleared : Spares n u (u.setWanted m none) := modRecord_spares other u _
          have step := hu.trans (cleared.trans (releaseTests_spares other _))
          exact step.trans (ih (h.spares step))
        split
        case h_1 j hj =>
          have found := List.find?_some hj
          have shot : j.shot = m := by
            simp only [Bool.and_eq_true, beq_iff_eq] at found
            exact found.1.2
          refine tested _ (modJob_spares s j _ ?_)
          cases w.purpose <;> exact shot ▸ other
        case h_2 =>
          split
          · exact tested _ (appendJob_spares other s _ _ _ _ _)
          · exact .refl n s

theorem admitAuto_spares {n : Nat} {s : State} (h : Idle n s) : Spares n s s.admitAuto :=
  admitFrom_spares _ h

theorem find_of_mem {n : Nat} {s : State} (h : CatalogOk s) {r : Record} (hr : r ∈ s.catalog)
    (hs : r.shot = n) : s.findRecord n = some r := by
  cases hf : s.findRecord n with
  | none =>
    have := List.find?_eq_none.mp hf r hr
    simp [hs] at this
  | some q =>
    have nodup : (s.catalog.map Record.shot).Nodup := h.2.1.imp fun lt => Nat.ne_of_lt lt
    exact congrArg some (eq_of_nodup_map nodup (findRecord_mem hf) hr
      ((findRecord_shot hf).trans hs.symm))

theorem slotWork_pending {s : State} {x : Slot} {m : Nat} {part : Part}
    (h : (m, part) ∈ s.slotWork x) :
    ∃ r, r ∈ s.catalog ∧ r.shot = m ∧ (r.copies.get x part).state = .pending := by
  obtain ⟨r, hr, hm⟩ := List.mem_flatMap.mp h
  refine ⟨r, hr, ?_⟩
  rcases List.mem_append.mp hm with hm | hm
  all_goals
    split at hm
    · next hp =>
      cases List.mem_singleton.mp hm
      exact ⟨rfl, hp⟩
    · cases hm

theorem setSlot_passes (n : Nat) (s : State) (x : Slot) (q : SlotSt) : Passes n s (s.setSlot x q) := by
  cases x <;> exact .plain

theorem chooseWork_spares {n : Nat} {s : State} (x : Slot) (h : Idle n s) :
    Spares n s (s.chooseWork x) := by
  unfold State.chooseWork
  split
  case isFalse => exact .refl n s
  case isTrue =>
    split
    · exact (setSlot_passes n s x _).spares
    case h_2 m part rest hw =>
      split
      · exact .refl n s
      case h_2 r hr =>
        split
        case isFalse => exact (setSlot_passes n s x _).spares
        case isTrue =>
          have other : r.shot ≠ n := by
            rw [findRecord_shot hr]
            rintro rfl
            obtain ⟨q, hq, hs, hp⟩ := slotWork_pending (hw ▸ List.mem_cons_self)
            exact (h.unasked q (find_of_mem h.regular.order hq hs)).2 x part hp
          exact (setSlot_passes n s x _).spares.trans (modRecord_spares other _ _)

theorem chooseBoth_spares {n : Nat} {s : State} (h : Idle n s) : Spares n s s.chooseBoth :=
  have first := chooseWork_spares .a h
  first.trans (chooseWork_spares .b (h.spares first))

theorem saveTest_passes (n : Nat) (s : State) : Passes n s s.saveTest := by
  unfold State.saveTest
  split
  · exact .trans .plain (notify_passes n _ _ _)
  · exact .refl n s

theorem tryJobs_spares {n : Nat} (js : List Job) {s : State}
    (h : ∀ k, k ∈ js → k.shot = n → k.state = .running) : Spares n s (s.tryJobs js) := by
  induction js generalizing s with
  | nil => exact .refl n s
  | cons j rest ih =>
    have ih := fun {u : State} => ih (s := u) fun k hk => h k (List.mem_cons_of_mem j hk)
    unfold State.tryJobs
    split
    · exact ih
    case isFalse queued =>
      have other : j.shot ≠ n := fun e => queued (h j List.mem_cons_self e)
      have waits : Spares n s ((s.setSpaceWait j).tryJobs rest) :=
        (modJob_spares s j _ other).trans ih
      split
      · exact ih
      · split
        · exact ih
        · dsimp only
          split
          case h_1 es left _ =>
            unfold State.startJob
            dsimp only
            have taken : Passes n s { s with freeRuns := left } := .plain
            have begun : ∀ u : State, Passes n u (u.beginRow (s.recipe j.recipe) 0) :=
              fun u => .plain
            refine .trans ?_ (begun _).spares
            refine .trans ?_ (modJob_spares _ j _ other)
            exact taken.spares.trans (modRecord_spares other _ _)
          · exact waits
          · exact waits

theorem settle_spares {n : Nat} {s : State} (h : Idle n s) : Spares n s s.settle := by
  have granted : ∀ u : State, Passes n u u.grant := fun u => by
    unfold State.grant
    split
    · exact .refl n u
    · split
      · exact .refl n u
      · exact .plain
  refine .trans ?_ (granted _).spares
  unfold State.attemptJob
  split
  · dsimp only
    have cleared : Spares n s { s with dev := { s.dev with attemptDue := false } } :=
      (Passes.plain (n := n)).spares
    split
    · exact cleared.trans (tryJobs_spares _ h.jobs)
    · exact cleared
  · exact .refl n s

/-! ### The shot while it is deleted (R24) -/

/-- The shot has no entry in the send queues, nothing is asked for it, and it keeps its record unless
the record was CARD_ONLY. -/
structure Leaving (n : Nat) (life : Life) (s : State) : Prop where
  regular : Regular n s
  relay : s.relayEntry n = none
  tether : s.tetherEntry n = none
  record : (life = .cardOnly ∧ s.findRecord n = none) ∨
    ∃ q, s.findRecord n = some q ∧ q.life = life ∧ q.Unasked

theorem Leaving.spares {n : Nat} {life : Life} {s t : State} (h : Leaving n life s)
    (k : Spares n s t) : Leaving n life t where
  regular := k.regular h.regular
  relay := k.relay h.relay
  tether := k.tether h.tether
  record := by
    rcases h.record with ⟨hl, hs⟩ | ⟨q, hs, hl, hq⟩
    · exact .inl ⟨hl, k.gone h.regular hs⟩
    · rcases k.kept h.regular q hs with ht | ⟨hc, ht⟩
      · exact .inr ⟨q, ht, hl, hq⟩
      · exact .inl ⟨hl.symm.trans hc, ht⟩

theorem Leaving.modRecord {n : Nat} {life : Life} {s : State} (h : Leaving n life s)
    (g : Record → Record) (hs : ∀ r, (g r).shot = r.shot := by intro r; rfl)
    (hl : ∀ r, (g r).life = r.life := by intro r; rfl)
    (hu : ∀ r, r.Unasked → (g r).Unasked := by intro r h; exact h) :
    Leaving n life (s.modRecord n g) where
  regular := modRecord_regular h.regular g hs
  relay := h.relay
  tether := h.tether
  record := by
    rw [modRecord_find hs]
    rcases h.record with ⟨hc, hs⟩ | ⟨q, hs, hq, ha⟩
    · exact .inl ⟨hc, by rw [hs]; rfl⟩
    · exact .inr ⟨g q, by rw [hs]; rfl, (hl q).trans hq, hu q ha⟩

theorem Leaving.freeRaw {n : Nat} {life : Life} {s : State} (h : Leaving n life s) :
    Leaving n life (s.freeRaw n) := by
  unfold State.freeRaw
  split
  · exact h
  · exact (h.modRecord _).spares (free_passes n _ _).spares

theorem Leaving.freeVersion {n : Nat} {life : Life} {s : State} (h : Leaving n life s) (k : Nat) :
    Leaving n life (s.freeVersion n k) := by
  unfold State.freeVersion
  split
  · exact h
  · exact (h.modRecord _).spares (free_passes n _ _).spares

theorem freeRaw_queue (s : State) (n : Nat) : (s.freeRaw n).dev.queue = s.dev.queue := by
  unfold State.freeRaw
  split
  · rfl
  · exact (free_passes n _ _).jobs

theorem freeVersion_queue (s : State) (n k : Nat) :
    (s.freeVersion n k).dev.queue = s.dev.queue := by
  unfold State.freeVersion
  split
  · rfl
  · exact (free_passes n _ _).jobs

theorem unrequire_state (c : Copy) : (unrequire c).state ≠ .pending := by
  unfold unrequire
  split
  · simp
  · assumption

theorem deletedRecord_unasked (r : Record) : (deletedRecord r).Unasked := by
  refine ⟨rfl, fun x part => ?_⟩
  cases x <;> cases part <;> exact unrequire_state _

theorem dropEntries_leaving {n : Nat} {s : State} {q : Record} (h : Regular n s)
    (hq : s.findRecord n = some q) (hu : q.Unasked) : Leaving n q.life (s.dropEntries n) := by
  have relayed : ∃ u, u = (if (s.relayEntry n).isSome then s.removeRelay n .none else s) ∧
      Regular n u ∧ u.relayEntry n = none ∧
      ∃ r, u.findRecord n = some r ∧ r.life = q.life ∧ r.Unasked := by
    refine ⟨_, rfl, ?_⟩
    split
    · refine ⟨⟨(modRecord_regular h _).order, h.issued⟩, ?_, _,
        (modRecord_find).trans (congrArg (Option.map _) hq), rfl, hu⟩
      exact List.find?_eq_none.mpr fun e he => by
        simpa using (List.mem_filter.mp he).2
    · next hn => exact ⟨h, by simpa using hn, q, hq, rfl, hu⟩
  obtain ⟨u, hd, regular, relay, r, hr, hl, hr'⟩ := relayed
  unfold State.dropEntries
  dsimp only
  rw [← hd, ← hl]
  split
  · have marked : (u.removeTether n .none).findRecord n = _ :=
      (modRecord_find (g := fun r => { r with tether := .none })).trans
        (congrArg (Option.map _) hr)
    refine ⟨⟨(modRecord_regular regular fun r => { r with tether := .none }).order,
      regular.issued⟩, relay, ?_, .inr ⟨_, marked, rfl, hr'⟩⟩
    exact List.find?_eq_none.mpr fun e he => by
      simpa using (List.mem_filter.mp he).2
  · next hn => exact ⟨regular, relay, by simpa using hn, .inr ⟨r, hr, rfl, hr'⟩⟩

/-! ### Its jobs (R104, R105) -/

theorem dropJob_spares (n : Nat) (s : State) (j : Job) : Spares n s (s.dropJob j) :=
  ⟨fun h => ⟨h.order, h.issued⟩, fun _ _ h => .inl h, fun _ h => h, id, id,
    fun _ h _ => List.mem_of_mem_erase h⟩

theorem announceJob_passes (n : Nat) (s : State) (j : Job) (r : JobResult) :
    Passes n s (s.announceJob j r) := by
  unfold State.announceJob
  dsimp only
  split
  · exact (notify_passes n _ _ _).trans (notify_passes n _ _ _)
  · exact notify_passes n _ _ _

theorem reportJob_passes (n : Nat) (s : State) (j : Job) (r : JobResult) :
    Passes n s (s.reportJob j r) :=
  .trans (b := s.logJob r) .plain (announceJob_passes n _ j r)

theorem removeQueued_spares {n : Nat} (js : List Job) (s : State) (m : Nat) :
    Spares n s (s.removeQueued js m) := by
  induction js generalizing s with
  | nil => exact .refl n s
  | cons j rest ih =>
    unfold State.removeQueued
    split
    · exact ((dropJob_spares n s j).trans (reportJob_passes n _ _ _).spares).trans (ih _)
    · exact ih s

theorem removeQueued_sublist (js : List Job) (s : State) (m : Nat) :
    (s.removeQueued js m).dev.queue.Sublist s.dev.queue := by
  induction js generalizing s with
  | nil => exact .refl _
  | cons j rest ih =>
    unfold State.removeQueued
    split
    · refine (ih _).trans ?_
      rw [reportJob_queue]
      exact List.erase_sublist
    · exact ih s

theorem removeQueued_running {s : State} {n : Nat} {k : Job}
    (h : k ∈ (s.removeQueued s.dev.queue n).dev.queue) (hs : k.shot = n) : k.state = .running := by
  cases hk : k.state with
  | running => rfl
  | queued => exact absurd (removeQueued_left s.dev.queue h hs hk).2 (Nat.lt_irrefl _)

theorem discardDev_passes (n : Nat) (s : State) : Passes n s s.discardDev := by
  unfold State.discardDev
  split
  · split
    · exact .plain
    · exact .plain
    · exact .refl n s
    · exact .refl n s
    · exact .refl n s
  · exact .refl n s

theorem relayWantsProof_idle {s : State} {n : Nat} (h : s.relayEntry n = none) :
    s.relayWantsProof n = s := by
  unfold State.relayWantsProof
  rw [h]
  split
  · next h => cases h
  · rfl

/-- The abort of a running job of the shot by its DELETE. -/
theorem abortJob_leaving {n : Nat} {life : Life} {s : State} (h : Leaving n life s) {j : Job}
    (hj : j.shot = n) : Leaving n life (s.abortJob j .delete) ∧
      (s.abortJob j .delete).dev.queue = s.dev.queue.erase j := by
  have dropped := (dropJob_spares n s j).trans (discardDev_passes n _).spares
  have quiet := (discardDev_passes n (s.dropJob j)).jobs
  unfold State.abortJob
  dsimp only
  generalize (s.dropJob j).discardDev = u at dropped quiet ⊢
  have stopped : Passes n u { u with dev := { u.dev with engine := .idle, row := RowWork.none } } :=
    .plain
  have left := (h.spares dropped).spares stopped.spares
  have jobs := stopped.jobs.trans quiet
  generalize ({ u with dev := { u.dev with engine := .idle, row := RowWork.none } } : State) = v
    at left jobs ⊢
  have kept : v.restoreWanted j .delete = v := by
    unfold State.restoreWanted
    split
    · next h _ => cases h
    · rfl
  rw [kept, hj, relayWantsProof_idle left.relay]
  have told := reportJob_passes n v j (abortedResult j .delete)
  refine ⟨((left.spares told.spares).freeVersion _).spares (Passes.plain (n := n)).spares, ?_⟩
  exact (freeVersion_queue _ _ _).trans (told.jobs.trans jobs)

theorem abortDeleted_leaving {n : Nat} {life : Life} {s : State} (h : Leaving n life s) :
    Leaving n life (s.abortDeleted n) ∧ (s.abortDeleted n).dev.queue.Sublist s.dev.queue := by
  unfold State.abortDeleted
  split
  · split
    · next j _ hj =>
      obtain ⟨left, queue⟩ := abortJob_leaving h hj
      exact ⟨left, queue ▸ List.erase_sublist⟩
    · exact ⟨h, .refl _⟩
  · exact ⟨h, .refl _⟩

/-- With one job running at most, no job of the shot is left once its QUEUED ones are gone. -/
theorem abortDeleted_none {n : Nat} {life : Life} {s : State} (h : Leaving n life s)
    (running : ∀ k, k ∈ s.dev.queue → k.shot = n → k.state = .running)
    (one : (s.dev.queue.filter fun j => j.state == .running).length ≤ 1) :
    ∀ k, k ∈ (s.abortDeleted n).dev.queue → k.shot ≠ n := by
  have alone : ∀ {j}, s.runningJob = some j → ∀ k, k ∈ s.dev.queue.erase j → k.shot ≠ n := by
    intro j hj k hk hs
    have hkr := running k (List.mem_of_mem_erase hk) hs
    obtain ⟨hm, hr⟩ := runningJob_mem hj
    have perm := (List.perm_cons_erase hm).filter fun j => j.state == .running
    rw [List.filter_cons_of_pos (by simp [hr])] at perm
    have mem : k ∈ (s.dev.queue.erase j).filter fun j => j.state == .running :=
      List.mem_filter.mpr ⟨hk, by simp [hkr]⟩
    have pos := List.length_pos_of_mem mem
    have len := perm.length_eq
    rw [List.length_cons] at len
    omega
  unfold State.abortDeleted
  split
  case h_1 j hj =>
    split
    case isTrue hs =>
      rw [(abortJob_leaving h hs).2]
      exact alone hj
    case isFalse hs =>
      intro k hk e
      refine alone hj k ((List.mem_erase_of_ne ?_).mpr hk) e
      rintro rfl
      exact hs e
  case h_2 hnone =>
    intro k hk e
    have := List.find?_eq_none.mp hnone k hk
    simp [running k hk e] at this

/-! ### The part that is left, and the record -/

theorem freeVersions_leaving {r : Record} {life : Life} (numbers : List Nat) {s : State}
    (h : Leaving r.shot life s) : Leaving r.shot life (s.freeVersions r numbers) ∧
      (s.freeVersions r numbers).dev.queue = s.dev.queue := by
  induction numbers generalizing s with
  | nil => exact ⟨h, rfl⟩
  | cons k rest ih =>
    unfold State.freeVersions
    split
    · exact ih h
    · obtain ⟨left, queue⟩ := ih (h.freeVersion k)
      exact ⟨left, queue.trans (freeVersion_queue s r.shot k)⟩

theorem freeDeletedRaw_leaving {r : Record} {life : Life} {s : State}
    (h : Leaving r.shot life s) : Leaving r.shot life (s.freeDeletedRaw r) ∧
      (s.freeDeletedRaw r).dev.queue = s.dev.queue := by
  unfold State.freeDeletedRaw
  split
  · exact ⟨h, rfl⟩
  · exact ⟨h.freeRaw, freeRaw_queue s r.shot⟩

/-- What the end of the record leaves (R24). -/
structure Deleted (r : Record) (t : State) : Prop where
  relay : t.relayEntry r.shot = none
  tether : t.tetherEntry r.shot = none
  gone : r.anyInFlight = false → t.findRecord r.shot = none
  deleting : r.anyInFlight = true → r.life = .held →
    ∃ q, t.findRecord r.shot = some q ∧ q.life = .deleting ∧ q.Unasked

theorem Deleted.spares {r : Record} {s t : State} (h : Deleted r s) (hr : Regular r.shot s)
    (k : Spares r.shot s t) : Deleted r t where
  relay := k.relay h.relay
  tether := k.tether h.tether
  gone := fun ha => k.gone hr (h.gone ha)
  deleting := fun ha hl => by
    obtain ⟨q, hq, life, unasked⟩ := h.deleting ha hl
    exact ⟨q, (k.kept hr q hq).resolve_right fun c => by simp [life] at c, life, unasked⟩

theorem removeRecord_rest {n m : Nat} {s : State} (h : Regular n s) :
    Regular n (s.removeRecord m) ∧ (s.removeRecord m).snq = s.snq ∧
      (s.removeRecord m).dev.queue = s.dev.queue := by
  unfold State.removeRecord
  split
  · exact ⟨h, rfl, rfl⟩
  · next r _ =>
    have regular : Regular n { s with catalog := s.catalog.filter fun q => q.shot != m } :=
      ⟨filterCatalog_order s _ h.order, h.issued⟩
    have passes := (free_passes n { s with catalog := s.catalog.filter fun q => q.shot != m }
      r.blocks).trans (retryCatalog_passes n _)
    exact ⟨passes.regular regular, passes.snq, passes.jobs⟩

theorem endRecord_deleted {r : Record} {s : State} (h : Leaving r.shot r.life s)
    (jobs : ∀ k, k ∈ s.dev.queue → k.shot = r.shot → k.state = .running) :
    Deleted r (s.endRecord r) ∧ Idle r.shot (s.endRecord r) ∧
      (s.endRecord r).dev.queue = s.dev.queue := by
  unfold State.endRecord
  cases ha : r.anyInFlight with
  | true =>
    rw [if_pos rfl]
    have found := modRecord_find (s := s) (n := r.shot)
      (g := fun q => { q with life := .deleting })
    refine ⟨⟨h.relay, h.tether, fun hn => ?_, fun _ hl => ?_⟩,
      ⟨modRecord_regular h.regular _, fun q hq => ?_, jobs⟩, rfl⟩
    · cases ha.symm.trans hn
    · rcases h.record with ⟨hc, -⟩ | ⟨q, hq, -, hu⟩
      · cases hl.symm.trans hc
      · exact ⟨_, found.trans (congrArg (Option.map _) hq), rfl, hu⟩
    · rcases h.record with ⟨-, hs⟩ | ⟨q', hs, -, hu⟩
      · cases (found.trans (congrArg (Option.map _) hs)).symm.trans hq
      · cases (found.trans (congrArg (Option.map _) hs)).symm.trans hq
        exact hu
  | false =>
    rw [if_neg (by simp)]
    obtain ⟨regular, snq, queue⟩ := removeRecord_rest (m := r.shot) h.regular
    have gone := removeRecord_none h.regular
    refine ⟨⟨?_, ?_, fun _ => gone, fun hn => ?_⟩, ⟨regular, fun q hq => ?_, queue ▸ jobs⟩, queue⟩
    · unfold State.relayEntry
      rw [snq]
      exact h.relay
    · unfold State.tetherEntry
      rw [snq]
      exact h.tether
    · cases ha.symm.trans hn
    · cases gone.symm.trans hq

/-- DELETE in one change (R24): the record and its entries, and the jobs with one running at most. -/
theorem deleteShot_deleted {r : Record} {s : State} (hc : CatalogOk s)
    (hr : s.findRecord r.shot = some r) : Deleted r (s.deleteShot r) ∧
      ((s.dev.queue.filter fun j => j.state == .running).length ≤ 1 →
        ∀ k, k ∈ (s.deleteShot r).dev.queue → k.shot ≠ r.shot) := by
  have marked : (s.modRecord r.shot deletedRecord).findRecord r.shot = some (deletedRecord r) :=
    (modRecord_find).trans (congrArg (Option.map _) hr)
  have dropped : Leaving r.shot r.life ((s.modRecord r.shot deletedRecord).dropEntries r.shot) :=
    dropEntries_leaving (q := deletedRecord r) (modRecord_regular (.of_find hc hr) _) marked
      (deletedRecord_unasked r)
  have queue : ((s.modRecord r.shot deletedRecord).dropEntries r.shot).dev.queue = s.dev.queue := by
    unfold State.dropEntries
    dsimp only
    split <;> split <;> rfl
  unfold State.deleteShot
  dsimp only
  generalize (s.modRecord r.shot deletedRecord).dropEntries r.shot = a at dropped queue ⊢
  rw [← queue]
  have quiet := dropped.spares (removeQueued_spares a.dev.queue a r.shot)
  have running := fun k => removeQueued_running (s := a) (n := r.shot) (k := k)
  have fewer := removeQueued_sublist a.dev.queue a r.shot
  generalize a.removeQueued a.dev.queue r.shot = b at quiet running fewer ⊢
  obtain ⟨aborted, sub⟩ := abortDeleted_leaving quiet
  have none_ := abortDeleted_none quiet running
  generalize b.abortDeleted r.shot = c at aborted sub none_ ⊢
  obtain ⟨raw, rawQueue⟩ := freeDeletedRaw_leaving aborted
  obtain ⟨freed, freedQueue⟩ := freeVersions_leaving (r.versions.map Version.number) raw
  have jobs := freedQueue.trans rawQueue
  generalize (c.freeDeletedRaw r).freeVersions r (r.versions.map Version.number) = d at freed jobs ⊢
  obtain ⟨deleted, idle, kept⟩ := endRecord_deleted freed fun k hk =>
    running k (sub.subset (jobs ▸ hk))
  have rest := (notifyAll_passes r.shot (d.endRecord r) (.shotDeleted r.shot)).spares
  have step := rest.trans (admitAuto_spares (idle.spares rest))
  have step := step.trans (chooseBoth_spares (idle.spares step))
  have step := step.trans (saveTest_passes r.shot _).spares
  have step := step.trans (settle_spares (idle.spares step))
  refine ⟨deleted.spares idle.regular step, fun one k hk hs => ?_⟩
  have le : (b.dev.queue.filter fun j => j.state == .running).length ≤ 1 :=
    Nat.le_trans (fewer.filter _).length_le one
  exact none_ le k (jobs ▸ kept ▸ step.jobs k hk hs) hs

@[simp] theorem openRequest_openOnShot (s : State) (p : Port) (k : RequestKind) (tag : Byte)
    (n : Nat) : (s.openRequest p k tag).openOnShot n = s.openOnShot n := by
  cases p <;> rfl

/-- Settles O39. -/
theorem deleteTaken : Obligations.DeleteTaken := by
  intro s p tag n r ha hr
  refine ⟨fun hl => ?_, fun hl hp => ?_, fun hl hp ho => ?_, fun hl hp ho hc => ?_⟩
  · exact requestsRefused (.delete n) p tag s _ _ ha (by simp [refusal, shotCase, hr, hl])
  · exact requestsRefused (.delete n) p tag s _ _ ha (by simp [refusal, shotCase, hr, hl, hp])
  · exact requestsRefused (.delete n) p tag s _ _ ha (by simp [refusal, shotCase, hr, hl, hp, ho])
  · obtain ⟨found, -⟩ := namedRecord_find hr
    cases findRecord_shot found
    obtain ⟨deleted, jobs⟩ := deleteShot_deleted (s := s.openRequest p .delete tag) (r := r)
      (by unfold CatalogOk at hc ⊢; simpa using hc) (by simpa using found)
    have served : (Request.delete r.shot).service p (s.openRequest p .delete tag) =
        ((s.openRequest p .delete tag).deleteShot r, .answer .ok (.deleted r.shot r.anyInFlight)) := by
      show serveDelete r.shot _ = _
      unfold serveDelete
      rw [openRequest_namedRecord, hr]
      dsimp only
      rw [if_neg hl, if_neg (by simp [hp]), if_neg (by simpa using ho)]
      rfl
    obtain ⟨t, he, replied, others, -, q, rfl⟩ := exec_replied (r := .delete r.shot) ha served
      (deleteShot_inner _ _).ports
    refine ⟨_, he, replied, ?_⟩
    have same : ∀ u : State, (u.setPort p q).snq = u.snq ∧ (u.setPort p q).catalog = u.catalog ∧
        (u.setPort p q).dev = u.dev := fun u => by cases p <;> exact ⟨rfl, rfl, rfl⟩
    obtain ⟨snq, catalog, dev⟩ := same ((s.openRequest p .delete tag).deleteShot r)
    refine ⟨?_, ?_, fun hn => ?_, fun hy hh => ?_, fun one => ?_, others⟩
    · unfold State.relayEntry
      rw [snq]
      exact deleted.relay
    · unfold State.tetherEntry
      rw [snq]
      exact deleted.tether
    · exact (findRecord_congr catalog _).trans (deleted.gone hn)
    · obtain ⟨x, hx, life, wanted, copies⟩ := deleted.deleting hy hh
      exact ⟨x, (findRecord_congr catalog _).trans hx, life, wanted, copies⟩
    · rw [dev]
      exact jobs (by simpa using one)

end Sys2Proof.Machine
end

section
/-! PROOFS. DEVELOP and DEV_STATUS (R96, R97, R104), recipes, tone tables and DEV_SET (R91 to R94). -/
namespace Sys2Proof.Machine

/-! ### Jobs -/

theorem openRequest_modJob (s : State) (p : Port) (k : RequestKind) (tag : Byte) (j : Job)
    (f : Job → Job) :
    (s.openRequest p k tag).modJob j f = (s.modJob j f).openRequest p k tag := by
  cases p <;> rfl

@[simp] theorem openRequest_queuedJob (s : State) (p : Port) (k : RequestKind) (tag : Byte)
    (n i : Nat) : (s.openRequest p k tag).queuedJob n i = s.queuedJob n i := by
  cases p <;> rfl

@[simp] theorem openRequest_toneTable (s : State) (p : Port) (k : RequestKind) (tag : Byte)
    (i : Nat) : (s.openRequest p k tag).toneTable i = s.toneTable i := by
  cases p <;> rfl

@[simp] theorem openRequest_recipe (s : State) (p : Port) (k : RequestKind) (tag : Byte)
    (i : Nat) : (s.openRequest p k tag).recipe i = s.recipe i := by
  cases p <;> rfl

theorem openRequest_setDev (s : State) (p : Port) (k : RequestKind) (tag : Byte) (d : Dev) :
    ({ s.openRequest p k tag with dev := d } : State) =
      ({ s with dev := d } : State).openRequest p k tag := by
  cases p <;> rfl

/-- The checks that a DEVELOP passes before its job is looked for (R96). -/
theorem serveDevelop_passes {p : Port} {n i : Nat} {s : State} {r : Record}
    (hw : s.pwc.power ≠ .saving) (hi : i ≤ 3) (hr : s.namedRecord n = some r)
    (hl : r.life = .held) (hp : r.raw.state ≠ .released) :
    serveDevelop p n i s =
      (match s.queuedJob n i with
        | some j => okWith (s.modJob j (addAsking p)) (.job j.number)
        | none =>
          if 8 ≤ s.dev.queue.length then refuse s .full
          else okWith (s.appendJob n i (developOrigin p) [p] false false).settle
            (.job s.dev.nextJob)) := by
  unfold serveDevelop
  rw [if_neg hw, if_neg (by omega), hr]
  dsimp only
  exact (if_neg (by simp [hl, hp])).trans ((if_neg (by simp [hl])).trans rfl)

theorem addAsking_eq (p : Port) (k : Job) : addAsking p k =
    if p ∈ k.asking then k else { k with asking := k.asking ++ [p] } := by
  unfold addAsking
  simp

/-- The jobs' views carry what a job keeps while it waits and runs. -/
theorem view_mem {l m : List Job} (h : m.map Job.view = l.map Job.view) {j : Job} (hj : j ∈ l) :
    ∃ k, k ∈ m ∧ k.view = j.view :=
  List.mem_map.mp (h ▸ List.mem_map_of_mem hj)

theorem view_numbers {l m : List Job} (h : m.map Job.view = l.map Job.view) :
    m.map Job.number = l.map Job.number := by
  have numbers := congrArg (List.map JobView.number) h
  rwa [List.map_map, List.map_map] at numbers

theorem appendJob_aside (s : State) (n i : Nat) (o : JobOrigin) (a : List Port) (c l : Bool) :
    Aside s (s.appendJob n i o a c l) := ⟨rfl, rfl, rfl, rfl, rfl, rfl, rfl⟩

/-- Settles O41. -/
theorem developmentJobs : Obligations.DevelopmentJobs := by
  intro s p tag
  refine ⟨fun n i r ha hw hi hr hl hp => ?_, fun ha => ?_, fun n j ha hj => ?_,
    fun n r ha hj hr => ?_⟩
  · have passes := serveDevelop_passes (p := p) (s := s.openRequest p .develop tag) (n := n)
      (by simpa using hw) hi (by simpa using hr) hl hp
    simp only [openRequest_queuedJob, openRequest_dev] at passes
    refine ⟨fun hq hfree => ?_, fun j hq => ?_, fun hq hfull => ?_⟩
    · rw [hq] at passes
      dsimp only at passes
      rw [if_neg (by omega)] at passes
      generalize ho : s.openRequest p .develop tag = o at passes
      generalize hu : o.appendJob n i (developOrigin p) [p] false false = u at passes
      have dev : o.dev = s.dev := ho ▸ openRequest_dev s p .develop tag
      have inner : Inner o u := hu ▸ appendJob_inner o n i _ _ _ _ (by rw [dev]; exact hfree)
      have calm := settle_calm u
      have front := settle_front u
      obtain ⟨t, he, replied, others, -, q, rfl⟩ := exec_replied (r := .develop n i) ha
        (ho ▸ passes) (ho ▸ (inner.trans (settle_inner u)).ports)
      have queue : u.dev.queue = s.dev.queue ++ [⟨s.dev.nextJob, n, i, developOrigin p, [p], false,
          false, .queued, none, 0, none, .clear, 0⟩] := by
        rw [← hu, ← dev]
        rfl
      have rest : u.dev.nextJob = nextJobNumber s.dev.nextJob ∧ u.dev.log = s.dev.log ∧
          u.rsq = s.rsq ∧ u.fdr = s.fdr ∧ u.lnk = s.lnk := by
        rw [← hu, ← dev]
        refine ⟨rfl, rfl, ?_, ?_, ?_⟩
        · exact ho ▸ openRequest_rsq s p .develop tag
        · exact ho ▸ openRequest_fdr s p .develop tag
        · exact ho ▸ openRequest_lnk s p .develop tag
      obtain ⟨nextJob, log, rsq, fdr, lnk⟩ := rest
      obtain ⟨k, hk, view⟩ := view_mem calm.jobs (queue ▸ List.mem_append_right _
        (List.mem_singleton.mpr rfl))
      simp only [Job.view, JobView.mk.injEq] at view
      obtain ⟨number, shot, recipe, origin, asking, -, -⟩ := view
      refine ⟨_, he, replied, ?_, ?_, ⟨k, by simpa using hk, number, shot, recipe, asking, ?_⟩,
        ?_, ?_, others, ?_, ?_, ?_⟩
      · rw [State.setPort_dev, calm.nextJob, nextJob]
        rfl
      · rw [State.setPort_dev, view_numbers calm.jobs, queue, List.map_append]
        rfl
      · rw [origin]
        cases p <;> rfl
      · rw [State.setPort_dev, calm.log, log]
      · have opened : Aside s o := ho ▸ setPort_aside s p _
        have appended : Aside o u := hu ▸ appendJob_aside o n i _ _ _ _
        exact ((opened.trans appended).trans (calm.aside (settle_inner u))).trans
          (setPort_aside _ p q)
      · rw [State.setPort_rsq, front.rsq, rsq]
      · rw [State.setPort_fdr, front.fdr, fdr]
      · rw [State.setPort_lnk, front.lnk, lnk]
    · rw [hq] at passes
      dsimp only at passes
      rw [openRequest_modJob] at passes
      have served := exec_answered (r := .develop n i) ha passes
      rw [funext (addAsking_eq p)] at served
      exact served
    · refine requestsRefused (.develop n i) p tag s _ _ ha ?_
      simp [refusal, shotCase, hr, hl, hp, hq, hw, hfull, Nat.not_lt.mpr hi]
  · exact exec_answered (r := .devStatus none) ha (by
      simp [Request.service, serveDevStatus, okWith])
  · exact exec_answered (r := .devStatus (some n)) ha (by
      simp [Request.service, serveDevStatus, okWith, hj])
  · exact exec_answered (r := .devStatus (some n)) ha (by
      simp [Request.service, serveDevStatus, okWith, hj, hr])

/-! ### Settings -/

theorem markMixed_eq (i : Nat) (j : Job) : markMixed i j =
    if j.state = .running ∧ j.snapshot.map Recipe.tone = some i then
      { j with conditions := { j.conditions with mixed := true } } else j := by
  unfold markMixed
  cases hs : j.state <;> cases hr : j.snapshot <;> simp

theorem toneBad_none {i first : Nat} {vs : List Nat} (hi : i ≤ 3) (hf : first ≤ 64) (hv : vs ≠ [])
    (hl : first + vs.length ≤ 65) (hb : ∀ v, v ∈ vs → v ≤ 255) : toneBad i first vs = none := by
  have pos := List.length_pos_iff.mpr hv
  have small : (vs.any fun v => decide (255 < v)) = false :=
    List.any_eq_false.mpr fun v hm => by simpa using hb v hm
  have h1 : ¬ 3 < i := by omega
  have h2 : ¬ 64 < first := by omega
  have h3 : ¬ vs.length < 1 := by omega
  have h4 : ¬ 65 < first + vs.length := by omega
  simp [toneBad, firstBad, h1, h2, h3, h4, small]

theorem badRange_upTo {n : Nat} {f : Option Nat} (h : f.getD 0 ≤ n) : badRange 0 n f = false := by
  cases f with
  | none => rfl
  | some v => simpa [badRange] using h

/-- Settles O42. -/
theorem developmentSettings : Obligations.DevelopmentSettings := by
  intro s p tag
  refine ⟨fun i ha hi => ?_, fun i ha hi => ?_, fun i first vs ha hi hf hv hl hb => ?_,
    fun i f ha hp hb => ?_, fun i f ha hp hi => ?_, fun i ha hi => ?_, fun c r ha hc hr => ?_⟩
  · exact exec_answered (r := .toneRead i) ha (by
      simp [Request.service, serveToneRead, okWith, Nat.not_lt.mpr hi])
  · exact requestsRefused (.toneRead i) p tag s _ _ ha (by simp [refusal, hi])
  · refine exec_answered (r := .toneWrite i first vs) ha ?_
    show serveToneWrite i first vs _ = _
    unfold serveToneWrite
    rw [toneBad_none hi hf hv hl hb]
    simp only [openRequest_dev, openRequest_toneTable, openRequest_setDev]
    rw [funext (markMixed_eq i)]
    rfl
  · refine exec_answered (r := .recipeWrite i f) ha ?_
    show serveRecipeWrite p i f _ = _
    unfold serveRecipeWrite
    rw [if_neg (by simpa [Nat.lt_iff_add_one_le] using hp), hb]
    simp only [openRequest_dev, openRequest_recipe, openRequest_setDev]
    rfl
  · exact requestsRefused (.recipeWrite i f) p tag s _ _ ha (by simp [refusal, hp, hi])
  · exact exec_answered (r := .recipeRead i) ha (by
      simp [Request.service, serveRecipeRead, okWith, Nat.not_lt.mpr hi])
  · refine exec_answered (r := .devSet c r) ha ?_
    show serveDevSet c r _ = _
    unfold serveDevSet
    have fields : firstBad [(1, badRange 0 3 c), (2, badRange 0 3 r)] = none := by
      simp [firstBad, badRange_upTo hc, badRange_upTo hr]
    rw [fields]
    simp only [openRequest_dev, openRequest_setDev]
    rfl

end Sys2Proof.Machine
end

section
/-! PROOFS. What the release tests leave of the jobs, the proofs wanted and the versions of the
catalog, and the admission of automatic developments (R98). -/
namespace Sys2Proof.Machine

/-! ### Cascades -/

/-- The engine and the jobs stay, and every record asks for no more and holds no more versions than
the one it was, a new one none. -/
structure Cascade (s t : State) : Prop where
  dev : t.dev = { s.dev with attemptDue := t.dev.attemptDue }
  records : ∀ q, q ∈ t.catalog → (q.wanted = none ∧ q.versions = []) ∨
    ∃ r, r ∈ s.catalog ∧ r.shot = q.shot ∧ q.wanted = r.wanted ∧
      ∀ v, v ∈ q.versions → v ∈ r.versions

theorem Cascade.refl (s : State) : Cascade s s :=
  ⟨rfl, fun q hq => .inr ⟨q, hq, rfl, rfl, fun _ h => h⟩⟩

theorem Cascade.trans {a b c : State} (h : Cascade a b) (k : Cascade b c) : Cascade a c where
  dev := by
    rw [k.dev, h.dev]
  records := fun q hq => by
    rcases k.records q hq with hn | ⟨r, hr, shot, wanted, versions⟩
    · exact .inl hn
    · rcases h.records r hr with ⟨hw, hv⟩ | ⟨x, hx, shot', wanted', versions'⟩
      · exact .inl ⟨wanted.trans hw, List.eq_nil_iff_forall_not_mem.mpr fun v hv' => by
          simpa [hv] using versions v hv'⟩
      · exact .inr ⟨x, hx, shot'.trans shot, wanted.trans wanted',
          fun v hv => versions' v (versions v hv)⟩

theorem Cascade.plain {s t : State} (hc : t.catalog = s.catalog := by rfl)
    (hd : t.dev = { s.dev with attemptDue := t.dev.attemptDue } := by rfl) : Cascade s t :=
  ⟨hd, fun q hq => .inr ⟨q, hc ▸ hq, rfl, rfl, fun _ h => h⟩⟩

theorem PortsOnly.cascade {s t : State} (h : PortsOnly s t) : Cascade s t := by
  have dev : t.dev = s.dev := (congrArg State.dev h :)
  exact .plain (congrArg State.catalog h :) (by rw [dev])

theorem CaptureOnly.cascade {s t : State} (h : CaptureOnly s t) : Cascade s t := by
  have dev : t.dev = s.dev := (congrArg State.dev h :)
  exact .plain (congrArg State.catalog h :) (by rw [dev])

theorem notify_cascade (s : State) (p : Port) (n : Notice) : Cascade s (s.notify p n) :=
  (notify_portsOnly s p n).cascade

/-- A change of records that asks for nothing and makes no version. -/
theorem modRecord_cascade (s : State) (n : Nat) (g : Record → Record)
    (hs : ∀ r, (g r).shot = r.shot := by intro r; rfl)
    (hw : ∀ r, (g r).wanted = r.wanted := by intro r; rfl)
    (hv : ∀ r v, v ∈ (g r).versions → v ∈ r.versions := by intro r v h; exact h) :
    Cascade s (s.modRecord n g) := by
  refine ⟨rfl, fun q hq => .inr ?_⟩
  obtain ⟨r, hr, rfl⟩ := List.mem_map.mp hq
  split
  · exact ⟨r, hr, (hs r).symm, hw r, hv r⟩
  · exact ⟨r, hr, rfl, rfl, fun _ h => h⟩

theorem retire_cascade (s : State) : Cascade s s.retire := by
  unfold State.retire
  split
  · exact .refl s
  · split
    · exact .refl s
    · next r _ =>
      refine .trans ?_ (notifyAll_portsOnly _ _).cascade
      exact ⟨rfl, fun q hq => .inr ⟨q, (dropOldest_sublist _).subset hq, rfl, rfl, fun _ h => h⟩⟩

theorem createRecord_cascade (s : State) (es left : List Run) :
    Cascade s (s.createRecord es left) := by
  refine (retire_cascade s).trans ⟨rfl, fun q hq => ?_⟩
  rcases List.mem_append.mp hq with hq | hq
  · exact .inr ⟨q, hq, rfl, rfl, fun _ h => h⟩
  · cases List.mem_singleton.mp hq
    exact .inl ⟨rfl, rfl⟩

theorem stall_cascade (s : State) (r : StallReason) : Cascade s (s.stall r) := by
  unfold State.stall
  split
  · exact .refl s
  · exact .trans .plain (notify_cascade _ _ _)

theorem requestFrame_cascade (s : State) : Cascade s s.requestFrame := by
  unfold State.requestFrame
  split
  · exact stall_cascade s _
  · split
    · exact stall_cascade s _
    · exact stall_cascade s _
    · next es left _ =>
      have made : Cascade s (s.createRecord es left).focusDecision :=
        (createRecord_cascade s es left).trans (focusDecision_capture _).cascade
      dsimp only
      split
      · exact made.trans .plain
      · exact made

theorem retryCatalog_cascade (s : State) : Cascade s s.retryCatalog := by
  unfold State.retryCatalog
  split
  · exact requestFrame_cascade s
  · exact .refl s

theorem free_cascade (s : State) (es : List Run) : Cascade s (s.free es) := by
  unfold State.free
  split
  · exact .refl s
  · have freed : ∀ u : State, Cascade u u.retrySpace := fun u => by
      unfold State.retrySpace
      split
      · exact requestFrame_cascade u
      · exact .refl u
    exact .trans .plain (freed _)

theorem missTether_cascade (s : State) (n : Nat) : Cascade s (s.missTether n) := by
  unfold State.missTether
  split
  · exact .refl s
  · refine .trans ?_ ((notify_cascade _ _ _).trans (notify_cascade _ _ _))
    refine .trans ?_ (modRecord_cascade _ n fun r => { r with tether := .missed })
    exact .plain

theorem freeRaw_cascade (s : State) (n : Nat) : Cascade s (s.freeRaw n) := by
  unfold State.freeRaw
  split
  · exact .refl s
  · exact (modRecord_cascade s n _).trans (free_cascade _ _)

theorem freeVersion_cascade (s : State) (n k : Nat) : Cascade s (s.freeVersion n k) := by
  unfold State.freeVersion
  split
  · exact .refl s
  · refine .trans (modRecord_cascade s n (fun q => { q with
      versions := q.versions.filter fun v => v.number != k }) ?_ ?_ ?_) (free_cascade _ _)
    · exact fun _ => rfl
    · exact fun _ => rfl
    · exact fun _ _ h => (List.mem_filter.mp h).1

theorem versionTests_cascade (numbers : List Nat) (s : State) (n : Nat) :
    Cascade s (s.versionTests n numbers) := by
  induction numbers generalizing s with
  | nil => exact .refl s
  | cons k rest ih =>
    unfold State.versionTests
    split
    · exact .refl s
    · split
      · exact ih s
      · split
        · exact (freeVersion_cascade s n k).trans (ih _)
        · exact ih s

theorem cardOnlyTest_cascade (s : State) (n : Nat) : Cascade s (s.cardOnlyTest n) := by
  unfold State.cardOnlyTest
  split
  · exact .refl s
  · split
    · exact (modRecord_cascade s n _).trans (retryCatalog_cascade _)
    · exact .refl s

theorem releaseTests_cascade (s : State) (n : Nat) : Cascade s (s.releaseTests n) := by
  have raw : Cascade s (s.rawTest n) := by
    unfold State.rawTest
    split
    · exact .refl s
    · split
      · exact (missTether_cascade s n).trans (freeRaw_cascade _ n)
      · exact .refl s
  unfold State.releaseTests
  split
  · exact .refl s
  · exact (raw.trans (versionTests_cascade _ _ n)).trans (cardOnlyTest_cascade _ n)

/-! ### Proofs wanted and versions -/

/-- A record of the shot asks for the proof. -/
def Wanting (s : State) (n : Nat) (w : Wanted) : Prop :=
  ∃ r, r ∈ s.catalog ∧ r.shot = n ∧ r.wanted = some w

/-- A record of the shot holds the version. -/
def Holding (s : State) (n : Nat) (v : Version) : Prop :=
  ∃ r, r ∈ s.catalog ∧ r.shot = n ∧ v ∈ r.versions

theorem Cascade.wanting {s t : State} (h : Cascade s t) {n : Nat} {w : Wanted}
    (hw : Wanting t n w) : Wanting s n w := by
  obtain ⟨q, hq, hs, hw⟩ := hw
  rcases h.records q hq with ⟨hn, -⟩ | ⟨r, hr, shot, wanted, -⟩
  · cases hn.symm.trans hw
  · exact ⟨r, hr, shot.trans hs, wanted.symm.trans hw⟩

theorem Cascade.holding {s t : State} (h : Cascade s t) {n : Nat} {v : Version}
    (hv : Holding t n v) : Holding s n v := by
  obtain ⟨q, hq, hs, hv⟩ := hv
  rcases h.records q hq with ⟨-, hn⟩ | ⟨r, hr, shot, -, versions⟩
  · rw [hn] at hv
    cases hv
  · exact ⟨r, hr, shot.trans hs, versions v hv⟩

theorem setWanted_wanting {s : State} {m n : Nat} {w : Wanted}
    (h : Wanting (s.setWanted m none) n w) : n ≠ m ∧ Wanting s n w := by
  obtain ⟨q, hq, hs, hw⟩ := h
  obtain ⟨r, hr, rfl⟩ := List.mem_map.mp hq
  split at hw
  · cases hw
  · next hm =>
    rw [if_neg hm] at hs
    exact ⟨hs ▸ hm, r, hr, hs, hw⟩

theorem setWanted_holding {s : State} {m n : Nat} {w : Option Wanted} {v : Version}
    (h : Holding (s.setWanted m w) n v) : Holding s n v := by
  obtain ⟨q, hq, hs, hv⟩ := h
  obtain ⟨r, hr, rfl⟩ := List.mem_map.mp hq
  split at hs
  · next hm => exact ⟨r, hr, hs, by rwa [if_pos hm] at hv⟩
  · next hm => exact ⟨r, hr, hs, by rwa [if_neg hm] at hv⟩

theorem wanting_find {s : State} (hc : CatalogOk s) {n : Nat} {w : Wanted}
    (h : Wanting s n w) : ∃ r, s.findRecord n = some r ∧ r.wanted = some w := by
  obtain ⟨r, hr, hs, hw⟩ := h
  exact ⟨r, find_of_mem hc hr hs, hw⟩

/-! ### The admission (R98) -/

/-- A job keeps everything but its marks, and those unless it runs or its shot is none of these. -/
structure Marked (shots : List Nat) (j k : Job) : Prop where
  fields : k = { j with cardMark := k.cardMark, relayMark := k.relayMark }
  card : j.cardMark = true → k.cardMark = true
  relay : j.relayMark = true → k.relayMark = true
  same : j.state = .running ∨ j.shot ∉ shots → k = j

theorem Marked.refl (shots : List Nat) (j : Job) : Marked shots j j := ⟨rfl, id, id, fun _ => rfl⟩

theorem Marked.shot {shots : List Nat} {j k : Job} (h : Marked shots j k) : k.shot = j.shot := by
  rw [h.fields]

theorem Marked.state {shots : List Nat} {j k : Job} (h : Marked shots j k) : k.state = j.state := by
  rw [h.fields]

theorem Marked.trans {shots : List Nat} {a b c : Job} (h : Marked shots a b)
    (k : Marked shots b c) : Marked shots a c where
  fields := by rw [k.fields, h.fields]
  card := fun m => k.card (h.card m)
  relay := fun m => k.relay (h.relay m)
  same := fun hs => by
    have hb := h.same hs
    exact (k.same (hb.symm ▸ hs)).trans hb

theorem Marked.mono {shots more : List Nat} (hm : ∀ n, n ∈ shots → n ∈ more) {j k : Job}
    (h : Marked shots j k) : Marked more j k :=
  ⟨h.fields, h.card, h.relay, fun hs => h.same (hs.imp_right fun hn hm' => hn (hm _ hm'))⟩

/-- A job that is appended for a proof wanted. -/
structure Admitted (s : State) (k : Job) : Prop where
  origin : k.origin = .auto
  asking : k.asking = []
  state : k.state = .queued
  snapshot : k.snapshot = none
  rowsDone : k.rowsDone = none
  conditions : k.conditions = .clear
  saturation : k.saturation = 0
  wanted : ∃ w, Wanting s k.shot w ∧ k.recipe = w.recipe ∧ k.cardMark = (w.purpose == .card) ∧
    k.relayMark = (w.purpose == .relay)

/-- Two lists whose members are related place by place. -/
inductive Paired {α β : Type} (R : α → β → Prop) : List α → List β → Prop where
  | nil : Paired R [] []
  | cons {x : α} {y : β} {l : List α} {m : List β} (head : R x y) (tail : Paired R l m) :
      Paired R (x :: l) (y :: m)

theorem Paired.refl {α : Type} {R : α → α → Prop} (h : ∀ x, R x x) (l : List α) : Paired R l l := by
  induction l with
  | nil => exact .nil
  | cons x _ ih => exact .cons (h x) ih

theorem Paired.imp {α β : Type} {R Q : α → β → Prop} {l : List α} {m : List β}
    (f : ∀ x y, R x y → Q x y) (h : Paired R l m) : Paired Q l m := by
  induction h with
  | nil => exact .nil
  | cons head _ ih => exact .cons (f _ _ head) ih

theorem Paired.length_eq {α β : Type} {R : α → β → Prop} {l : List α} {m : List β}
    (h : Paired R l m) : l.length = m.length := by
  induction h with
  | nil => rfl
  | cons _ _ ih => exact congrArg (· + 1) ih

/-- What an admission for these shots leaves. -/
structure Admission (shots : List Nat) (s t : State) : Prop where
  engine : t.dev.engine = s.dev.engine
  log : t.dev.log = s.dev.log
  wants : ∀ n w, Wanting t n w → Wanting s n w
  holds : ∀ n v, Holding t n v → Holding s n v
  done : t.dev.queue.length < 8 → (∀ n w, Wanting s n w → n ∈ shots) → ∀ n w, ¬ Wanting t n w
  room : s.dev.queue.length ≤ 8 → t.dev.queue.length ≤ 8
  queue : ∃ old new, t.dev.queue = old ++ new ∧ Paired (Marked shots) s.dev.queue old ∧
    (new.map Job.shot).Sublist shots ∧ ∀ k, k ∈ new → Admitted s k

theorem changeJob_marked {shots : List Nat} {j : Job} {f : Job → Job} (hf : Marked shots j (f j))
    (l : List Job) : Paired (Marked shots) l (changeJob l j f) := by
  induction l with
  | nil => exact .nil
  | cons x rest ih =>
    rw [changeJob]
    split
    · next hx =>
      subst hx
      exact .cons hf (Paired.refl (Marked.refl shots) _)
    · exact .cons (.refl shots x) ih

theorem forall_marked_trans {shots : List Nat} {a b c : List Job}
    (h : Paired (Marked shots) a b) (k : Paired (Marked shots) b c) :
    Paired (Marked shots) a c := by
  induction h generalizing c with
  | nil => exact k
  | cons hx _ ih =>
    cases k with
    | cons hy hrest => exact .cons (hx.trans hy) (ih hrest)

theorem forall_marked_append {shots : List Nat} {a b c : List Job}
    (h : Paired (Marked shots) (a ++ b) c) : ∃ d e, Paired (Marked shots) a d ∧
      Paired (Marked shots) b e ∧ c = d ++ e := by
  induction a generalizing c with
  | nil => exact ⟨[], c, .nil, h, rfl⟩
  | cons x rest ih =>
    cases h with
    | cons hx hrest =>
      obtain ⟨d, e, hd, he, rfl⟩ := ih hrest
      exact ⟨_ :: d, e, .cons hx hd, he, rfl⟩

/-- The job with the mark of a proof wanted that is merged into it (R97). -/
def mergedJob (p : Purpose) (k : Job) : Job :=
  match p with
  | .card => { k with cardMark := true }
  | .relay => { k with relayMark := true }

theorem mergeAuto_eq (s : State) (j : Job) (p : Purpose) :
    s.mergeAuto j p = s.modJob j (mergedJob p) := by
  cases p <;> rfl

theorem queuedJob_spec {s : State} {n i : Nat} {j : Job} (h : s.queuedJob n i = some j) :
    j ∈ s.dev.queue ∧ j.state = .queued ∧ j.shot = n ∧ j.recipe = i := by
  have := List.find?_some h
  simp only [Bool.and_eq_true, beq_iff_eq] at this
  exact ⟨List.mem_of_find?_eq_some h, this.1.1, this.1.2, this.2⟩

theorem mergedJob_marked {shots : List Nat} {j : Job} (hq : j.state = .queued)
    (hs : j.shot ∈ shots) (p : Purpose) : Marked shots j (mergedJob p j) := by
  have no : ¬ (j.state = .running ∨ j.shot ∉ shots) := by simp [hq, hs]
  cases p
  · exact ⟨rfl, fun _ => rfl, id, fun h => absurd h no⟩
  · exact ⟨rfl, id, fun _ => rfl, fun h => absurd h no⟩

/-- A shot whose proof is not wanted asks for nothing. -/
theorem Admission.skip {n : Nat} {rest : List Nat} {s t : State} (hn : ∀ w, ¬ Wanting s n w)
    (h : Admission rest s t) : Admission (n :: rest) s t where
  engine := h.engine
  log := h.log
  wants := h.wants
  holds := h.holds
  room := h.room
  done := fun short all => h.done short fun m w hw => by
    rcases List.mem_cons.mp (all m w hw) with rfl | hm
    · exact absurd hw (hn w)
    · exact hm
  queue := by
    obtain ⟨old, new, hq, marked, sub, admitted⟩ := h.queue
    exact ⟨old, new, hq, marked.imp fun _ _ m => m.mono fun _ => List.mem_cons_of_mem n,
      sub.cons n, admitted⟩

/-- The proof wanted of a shot goes, with the release tests of the shot (R98). -/
def unwant (s : State) (n : Nat) : State := (s.setWanted n none).releaseTests n

theorem unwant_wanting {s u : State} {m n : Nat} {w : Wanted}
    (h : Wanting (unwant u m) n w) (hc : u.catalog = s.catalog) : n ≠ m ∧ Wanting s n w := by
  obtain ⟨hn, r, hr, hs, hw⟩ := setWanted_wanting ((releaseTests_cascade _ m).wanting h)
  exact ⟨hn, r, hc ▸ hr, hs, hw⟩

theorem unwant_holding {s u : State} {m n : Nat} {v : Version}
    (h : Holding (unwant u m) n v) (hc : u.catalog = s.catalog) : Holding s n v := by
  obtain ⟨r, hr, hs, hv⟩ := setWanted_holding ((releaseTests_cascade _ m).holding h)
  exact ⟨r, hc ▸ hr, hs, hv⟩

theorem unwant_dev (s : State) (n : Nat) : (unwant s n).dev.engine = s.dev.engine ∧
    (unwant s n).dev.log = s.dev.log ∧ (unwant s n).dev.queue = s.dev.queue := by
  have h := (releaseTests_cascade (s.setWanted n none) n).dev
  unfold unwant
  rw [h]
  exact ⟨rfl, rfl, rfl⟩

theorem unwant_order {s : State} (h : CatalogOk s) (n : Nat) : CatalogOk (unwant s n) :=
  (releaseTests_inner _ n).order ((setWanted_inner s n none).order h)

/-- A proof wanted that is merged into a job of its shot. -/
theorem Admission.merged {n : Nat} {rest : List Nat} {s t : State} {j : Job}
    (hq : j.state = .queued) (hs : j.shot = n) (p : Purpose)
    (h : Admission rest (unwant (s.mergeAuto j p) n) t) : Admission (n :: rest) s t := by
  obtain ⟨engine, log, queue⟩ := unwant_dev (s.mergeAuto j p) n
  have back : ∀ m w, Wanting (unwant (s.mergeAuto j p) n) m w → m ≠ n ∧ Wanting s m w :=
    fun m w hw => unwant_wanting hw rfl
  have length : (s.mergeAuto j p).dev.queue.length = s.dev.queue.length := by
    rw [mergeAuto_eq]
    exact (changeJob_marked (mergedJob_marked (shots := [n]) hq (by simp [hs]) p)
      s.dev.queue).length_eq.symm
  refine ⟨h.engine.trans engine, h.log.trans log, fun m w hw => (back m w (h.wants m w hw)).2,
    fun m v hv => unwant_holding (h.holds m v hv) rfl, fun short all => h.done short fun m w hw => ?_,
    fun len => h.room (by rw [queue, length]; exact len), ?_⟩
  · obtain ⟨hm, hw⟩ := back m w hw
    exact (List.mem_cons.mp (all m w hw)).resolve_left hm
  · obtain ⟨old, new, ht, marked, sub, admitted⟩ := h.queue
    rw [queue, mergeAuto_eq] at marked
    refine ⟨old, new, ht, forall_marked_trans (changeJob_marked
      (mergedJob_marked hq (by simp [hs]) p) _) (marked.imp fun _ _ m =>
        m.mono fun _ => List.mem_cons_of_mem n), sub.cons n, fun k hk => ?_⟩
    obtain ⟨w, hw, rest⟩ := (admitted k hk).wanted
    exact { admitted k hk with wanted := ⟨w, (back _ w hw).2, rest⟩ }

/-- The job that a proof wanted becomes (R98). -/
def autoJob (s : State) (n : Nat) (w : Wanted) : Job :=
  ⟨s.dev.nextJob, n, w.recipe, .auto, [], w.purpose == .card, w.purpose == .relay, .queued, none, 0,
    none, .clear, 0⟩

/-- A proof wanted that becomes a job of its own. -/
theorem Admission.appended {n : Nat} {rest : List Nat} {s t : State} {w : Wanted}
    (hn : n ∉ rest) (hw : Wanting s n w) (hl : s.dev.queue.length < 8)
    (h : Admission rest (unwant (s.appendJob n w.recipe .auto [] (w.purpose == .card)
      (w.purpose == .relay)) n) t) : Admission (n :: rest) s t := by
  obtain ⟨engine, log, queue⟩ := unwant_dev (s.appendJob n w.recipe .auto [] (w.purpose == .card)
    (w.purpose == .relay)) n
  have back : ∀ m w', Wanting (unwant (s.appendJob n w.recipe .auto [] (w.purpose == .card)
      (w.purpose == .relay)) n) m w' → m ≠ n ∧ Wanting s m w' := fun m w' hw' =>
    unwant_wanting hw' rfl
  refine ⟨h.engine.trans engine, h.log.trans log, fun m w hw => (back m w (h.wants m w hw)).2,
    fun m v hv => unwant_holding (h.holds m v hv) rfl, fun short all => h.done short fun m w hw => ?_,
    fun _ => h.room ?_, ?_⟩
  · obtain ⟨hm, hw⟩ := back m w hw
    exact (List.mem_cons.mp (all m w hw)).resolve_left hm
  · rw [queue]
    show (s.dev.queue ++ [_]).length ≤ 8
    rw [List.length_append, List.length_singleton]
    exact hl
  · obtain ⟨old, new, ht, marked, sub, admitted⟩ := h.queue
    rw [queue] at marked
    change Paired _ (s.dev.queue ++ [autoJob s n w]) old at marked
    obtain ⟨front, last, hf, hlast, rfl⟩ := forall_marked_append marked
    cases hlast with
    | cons hx hnil =>
      cases hnil
      cases hx.same (.inr hn)
      refine ⟨front, autoJob s n w :: new, by rw [ht, List.append_assoc]; rfl, hf.imp fun _ _ m =>
        m.mono fun _ => List.mem_cons_of_mem n, sub.cons_cons n, fun k hk => ?_⟩
      rcases List.mem_cons.mp hk with rfl | hk
      · exact ⟨rfl, rfl, rfl, rfl, rfl, rfl, rfl, w, hw, rfl, rfl, rfl⟩
      · obtain ⟨w', hw', rest'⟩ := (admitted k hk).wanted
        exact { admitted k hk with wanted := ⟨w', (back _ w' hw').2, rest'⟩ }

theorem Admission.stopped {shots : List Nat} {s : State} (h : 8 ≤ s.dev.queue.length) :
    Admission shots s s :=
  ⟨rfl, rfl, fun _ _ h => h, fun _ _ h => h, fun short => absurd short (by omega), id, _, [],
    (List.append_nil _).symm, Paired.refl (Marked.refl shots) _,
    List.nil_sublist shots, nofun⟩

theorem admitFrom_cons {n : Nat} {rest : List Nat} {s : State} {r : Record} {w : Wanted}
    (hr : s.findRecord n = some r) (hw : r.wanted = some w) :
    s.admitFrom (n :: rest) = (match s.queuedJob n w.recipe with
      | some j => (unwant (s.mergeAuto j w.purpose) n).admitFrom rest
      | none =>
        if s.dev.queue.length < 8 then
          (unwant (s.appendJob n w.recipe .auto [] (w.purpose == .card) (w.purpose == .relay))
            n).admitFrom rest
        else s) := by
  rw [State.admitFrom, hr]
  dsimp only
  rw [hw]
  rfl

theorem admitFrom_skip {n : Nat} {rest : List Nat} {s : State} (hn : ∀ w, ¬ Wanting s n w) :
    s.admitFrom (n :: rest) = s.admitFrom rest := by
  rw [State.admitFrom]
  split
  · rfl
  · next r hr =>
    split
    · rfl
    · next w hw => exact absurd ⟨r, findRecord_mem hr, findRecord_shot hr, hw⟩ (hn w)

theorem admitFrom_admission (shots : List Nat) {s : State} (hc : CatalogOk s) (hd : shots.Nodup) :
    Admission shots s (s.admitFrom shots) := by
  induction shots generalizing s with
  | nil =>
    exact ⟨rfl, rfl, fun _ _ h => h, fun _ _ h => h, fun _ all n w hw =>
      absurd (all n w hw) List.not_mem_nil, id, _, [], (List.append_nil _).symm,
      Paired.refl (Marked.refl []) _, .slnil, nofun⟩
  | cons n rest ih =>
    obtain ⟨hn, hd⟩ := List.nodup_cons.mp hd
    by_cases want : ∃ w, Wanting s n w
    · obtain ⟨w, want⟩ := want
      obtain ⟨r, hr, hw⟩ := wanting_find hc want
      rw [admitFrom_cons hr hw]
      split
      · next j hj =>
        obtain ⟨-, hq, hs, -⟩ := queuedJob_spec hj
        exact .merged hq hs w.purpose
          (ih (unwant_order ((mergeAuto_inner s j w.purpose).order hc) n) hd)
      · split
        · next hl =>
          exact .appended hn want hl (ih (unwant_order ((appendJob_inner s n w.recipe .auto [] _ _
            hl).order hc) n) hd)
        · next hl => exact .stopped (Nat.not_lt.mp hl)
    · have none_ : ∀ w, ¬ Wanting s n w := fun w h => want ⟨w, h⟩
      rw [admitFrom_skip none_]
      exact .skip none_ (ih hc hd)

theorem admitFrom_nothing (shots : List Nat) {s : State} (h : ∀ n, n ∈ shots → ∀ w, ¬ Wanting s n w) :
    s.admitFrom shots = s := by
  induction shots with
  | nil => rfl
  | cons n rest ih =>
    rw [admitFrom_skip (h n List.mem_cons_self)]
    exact ih fun m hm => h m (List.mem_cons_of_mem n hm)

theorem admitFrom_append {pre post : List Nat} {s : State}
    (h : ∀ n, n ∈ pre → ∀ w, ¬ Wanting s n w) : s.admitFrom (pre ++ post) = s.admitFrom post := by
  induction pre with
  | nil => rfl
  | cons n rest ih =>
    rw [List.cons_append, admitFrom_skip (h n List.mem_cons_self)]
    exact ih fun m hm => h m (List.mem_cons_of_mem n hm)

end Sys2Proof.Machine
end

section
/-! PROOFS. An attempt to start a job (R99, R100, R18). -/
namespace Sys2Proof.Machine

/-! ### The queue while it is looked down -/

/-- The state with another job queue. -/
def withQueue (s : State) (q : List Job) : State := { s with dev := { s.dev with queue := q } }

theorem changeJob_append {a b : List Job} {j : Job} {f : Job → Job} (h : j ∉ a) :
    changeJob (a ++ j :: b) j f = a ++ f j :: b := by
  induction a with
  | nil => exact if_pos rfl
  | cons x rest ih =>
    obtain ⟨hx, hrest⟩ := not_or.mp (mt List.mem_cons.mpr h)
    rw [List.cons_append, changeJob, if_neg (Ne.symm hx), ih hrest]
    rfl

theorem changeJob_same {l : List Job} {j : Job} {f : Job → Job} (h : f j = j) :
    changeJob l j f = l := by
  induction l with
  | nil => rfl
  | cons x rest ih =>
    rw [changeJob, ih]
    split
    · next hx => rw [hx, h]
    · rfl

/-- A job whose shot can take one more version (R99). -/
def versionsOpen (s : State) (j : Job) : Bool :=
  (s.findRecord j.shot).any fun r => decide (r.versions.length < 2)

/-- The space of the job's proof can be allocated (R99). -/
def spaceOpen (s : State) (j : Job) : Prop :=
  ∃ es left, allocate (blocksFor (s.recipe j.recipe).scale.bytes) s.freeRuns = .done es left

/-- A job that was looked at and not started (R99). -/
def passedJob (s : State) (k : Job) : Job :=
  if versionsOpen s k then { k with conditions := { k.conditions with spaceWait := true } } else k

theorem passedJob_same (s : State) (k : Job) : versionsOpen s (passedJob s k) = versionsOpen s k ∧
    (spaceOpen s (passedJob s k) ↔ spaceOpen s k) := by
  unfold passedJob
  split <;> exact ⟨rfl, Iff.rfl⟩

/-- A job that could start is not among those passed over. -/
theorem start_not_passed {s : State} {j : Job} {pre : List Job}
    (hp : ∀ k, k ∈ pre → ¬ (versionsOpen s k = true ∧ spaceOpen s k))
    (hj : versionsOpen s j = true ∧ spaceOpen s j) : j ∉ pre.map (passedJob s) := by
  intro hm
  obtain ⟨k, hk, rfl⟩ := List.mem_map.mp hm
  obtain ⟨hv, hs⟩ := passedJob_same s k
  exact hp k hk ⟨hv ▸ hj.1, hs.mp hj.2⟩

/-- SPACE_WAIT reaches the job that was looked at. -/
theorem spaceWait_changes {s : State} {j : Job} {seen rest : List Job}
    (hv : versionsOpen s j = true) :
    changeJob (seen.map (passedJob s) ++ j :: rest) j (fun k =>
      { k with conditions := { k.conditions with spaceWait := true } }) =
      seen.map (passedJob s) ++ passedJob s j :: rest := by
  have passed : passedJob s j = { j with conditions := { j.conditions with spaceWait := true } } :=
    if_pos hv
  cases hw : j.conditions.spaceWait with
  | true =>
    have same : ({ j with conditions := { j.conditions with spaceWait := true } } : Job) = j := by
      rw [← hw]
    rw [changeJob_same same, passed, same]
  | false =>
    rw [passed]
    refine changeJob_append fun hm => ?_
    obtain ⟨k, -, hk⟩ := List.mem_map.mp hm
    unfold passedJob at hk
    split at hk
    · rw [← hk] at hw
      cases hw
    · next hn => exact hn (hk ▸ hv)

/-- A QUEUED job that cannot start is passed over (R99). -/
theorem tryJobs_pass {s : State} {j : Job} {seen rest js : List Job} (hq : j.state ≠ .running)
    (hj : ¬ (versionsOpen s j = true ∧ spaceOpen s j)) :
    (withQueue s (seen.map (passedJob s) ++ j :: rest)).tryJobs (j :: js) =
      (withQueue s (seen.map (passedJob s) ++ passedJob s j :: rest)).tryJobs js := by
  conv => lhs; unfold State.tryJobs
  rw [if_neg hq]
  have same : versionsOpen s j = false → passedJob s j = j := fun h => if_neg (by simp [h])
  have waits : versionsOpen s j = true →
      ((withQueue s (seen.map (passedJob s) ++ j :: rest)).setSpaceWait j) =
        withQueue s (seen.map (passedJob s) ++ passedJob s j :: rest) := fun h =>
    congrArg (withQueue s) (spaceWait_changes h)
  split
  case h_1 hr =>
    have hr : s.findRecord j.shot = none := hr
    rw [same (by simp [versionsOpen, hr])]
  case h_2 r hr =>
    have hr : s.findRecord j.shot = some r := hr
    split
    case isTrue hv =>
      rw [same (by simp [versionsOpen, hr]; exact hv)]
    case isFalse hv =>
      have opened : versionsOpen s j = true := by
        simpa [versionsOpen, hr] using hv
      dsimp only
      split
      case h_1 es left ha => exact absurd ⟨opened, es, left, ha⟩ hj
      case h_2 => rw [waits opened]
      case h_3 => rw [waits opened]

theorem tryJobs_passes {s : State} {rest js : List Job} (pre seen : List Job)
    (hq : ∀ k, k ∈ pre → k.state ≠ .running)
    (hp : ∀ k, k ∈ pre → ¬ (versionsOpen s k = true ∧ spaceOpen s k)) :
    (withQueue s (seen.map (passedJob s) ++ (pre ++ rest))).tryJobs (pre ++ js) =
      (withQueue s ((seen ++ pre).map (passedJob s) ++ rest)).tryJobs js := by
  induction pre generalizing seen with
  | nil => rw [List.append_nil, List.nil_append, List.nil_append]
  | cons j more ih =>
    rw [List.cons_append, List.cons_append,
      tryJobs_pass (hq j List.mem_cons_self) (hp j List.mem_cons_self)]
    have next := ih (seen ++ [j]) (fun k hk => hq k (List.mem_cons_of_mem j hk))
      fun k hk => hp k (List.mem_cons_of_mem j hk)
    rwa [List.map_append, List.append_assoc, List.append_assoc] at next

/-- The first job that can start does (R99, R100). -/
theorem tryJobs_starts {s : State} {j : Job} {r : Record} {es left : List Run}
    {pre post : List Job} (hr : s.findRecord j.shot = some r) (hv : r.versions.length < 2)
    (ha : allocate (blocksFor (s.recipe j.recipe).scale.bytes) s.freeRuns = .done es left)
    (hq : ∀ k, k ∈ pre ++ j :: post → k.state ≠ .running)
    (hp : ∀ k, k ∈ pre → ¬ (versionsOpen s k = true ∧ spaceOpen s k)) :
    (withQueue s (pre ++ j :: post)).tryJobs (pre ++ j :: post) =
      (withQueue s (pre.map (passedJob s) ++ j :: post)).startJob j r (s.recipe j.recipe) es
        left := by
  have passed := tryJobs_passes (s := s) (rest := j :: post) (js := j :: post) pre []
    (fun k hk => hq k (List.mem_append_left _ hk)) hp
  rw [List.map_nil, List.nil_append, List.nil_append] at passed
  rw [passed]
  unfold State.tryJobs
  rw [if_neg (hq j (List.mem_append_right _ List.mem_cons_self))]
  have hr : (withQueue s (pre.map (passedJob s) ++ j :: post)).findRecord j.shot = some r := hr
  rw [hr]
  dsimp only
  rw [if_neg (Nat.not_le.mpr hv)]
  have ha : allocate (blocksFor ((withQueue s (pre.map (passedJob s) ++ j :: post)).recipe
    j.recipe).scale.bytes) (withQueue s (pre.map (passedJob s) ++ j :: post)).freeRuns =
      .done es left := ha
  rw [ha]
  rfl

theorem tryJobs_none {s : State} {js : List Job} (hq : ∀ k, k ∈ js → k.state ≠ .running)
    (hp : ∀ k, k ∈ js → ¬ (versionsOpen s k = true ∧ spaceOpen s k)) :
    (withQueue s js).tryJobs js = withQueue s (js.map (passedJob s)) := by
  have passed := tryJobs_passes (s := s) (rest := []) (js := []) js [] hq hp
  rw [List.map_nil, List.nil_append, List.nil_append, List.append_nil, List.append_nil] at passed
  exact passed

/-! ### The attempt -/

/-- What keeps an attempt from starting anything (R99). -/
def StartsHeld (s : State) : Prop :=
  (∃ j, j ∈ s.dev.queue ∧ j.state = .running) ∨ s.pwc.power = .saving ∨
    s.rsq.watermark ≤ s.rsq.fifo.length ∨ s.rsq.state = .stalled .space ∨
    s.rsq.state = .stalled .fragmented

theorem stalledForSpace_iff {s : State} : s.stalledForSpace = true ↔
    s.rsq.state = .stalled .space ∨ s.rsq.state = .stalled .fragmented := by
  unfold State.stalledForSpace
  split <;> simp_all

theorem runningJob_isNone {s : State} : s.runningJob.isNone = true ↔
    ¬ ∃ j, j ∈ s.dev.queue ∧ j.state = .running := by
  simp [State.runningJob]

theorem mayStart_iff {s : State} : s.mayStart = true ↔ ¬ StartsHeld s := by
  unfold State.mayStart StartsHeld State.watermarkSignal
  simp only [Bool.and_eq_true, runningJob_isNone, bne_iff_ne, Bool.not_eq_true', not_or, and_assoc,
    ne_eq, ← Bool.not_eq_true, stalledForSpace_iff, decide_eq_true_eq]

theorem attemptJob_idle {s : State} (h : s.dev.attemptDue = false) : s.attemptJob = s := by
  unfold State.attemptJob
  exact if_neg (by simp [h])

theorem attemptJob_held {s : State} (h : s.dev.attemptDue = true) (hs : StartsHeld s) :
    s.attemptJob = { s with dev := { s.dev with attemptDue := false } } := by
  unfold State.attemptJob
  rw [if_pos h]
  exact if_neg fun may => mayStart_iff.mp may hs

theorem attemptJob_tries {s : State} (h : s.dev.attemptDue = true) (hs : ¬ StartsHeld s) :
    s.attemptJob =
      ({ s with dev := { s.dev with attemptDue := false } } : State).tryJobs s.dev.queue := by
  unfold State.attemptJob
  rw [if_pos h]
  exact if_pos (mayStart_iff.mpr hs)

theorem newVersionNumber_eq (r : Record) (next : Nat → Nat)
    (hn : next = fun v => if 255 ≤ v then 1 else v + 1)
    [Decidable (∃ v, v ∈ r.versions ∧ v.number = next r.lastVersion)] : newVersionNumber r =
      if ∃ v, v ∈ r.versions ∧ v.number = next r.lastVersion then next (next r.lastVersion)
      else next r.lastVersion := by
  have same : next = nextVersionNumber := hn
  subst same
  unfold newVersionNumber
  dsimp only
  simp only [List.any_eq_true, beq_iff_eq]

/-- The attempts of R99, in the three ways one can end. -/
theorem attemptJob_none {s : State} (h : s.dev.attemptDue = true) (hs : ¬ StartsHeld s)
    (hp : ∀ k, k ∈ s.dev.queue → ¬ (versionsOpen s k = true ∧ spaceOpen s k)) :
    s.attemptJob = { s with dev := { s.dev with
      attemptDue := false, queue := s.dev.queue.map (passedJob s) } } := by
  have quiet : ∀ k, k ∈ s.dev.queue → k.state ≠ .running := fun k hk hr => hs (.inl ⟨k, hk, hr⟩)
  rw [attemptJob_tries h hs]
  exact tryJobs_none (s := { s with dev := { s.dev with attemptDue := false } }) quiet hp

/-- The job as it runs from its start (R100). -/
def startedJob (r : Record) (rec_ : Recipe) (j : Job) : Job :=
  { j with
    state := .running, snapshot := some rec_, version := newVersionNumber r,
    rowsDone := some 0, conditions := { j.conditions with rawDamaged := r.flags.damaged },
    saturation := 0 }

/-- The BUILDING version of a job that starts (R18). -/
def startedVersion (s : State) (r : Record) (j : Job) (es : List Run) : Version :=
  ⟨newVersionNumber r, j.recipe, (s.recipe j.recipe).scale, (s.recipe j.recipe).scale.bytes, es,
    none, .building, .clear, none⟩

/-- The state in which a job has started, with the queue given (R100). -/
def withStarted (s : State) (r : Record) (j : Job) (es left : List Run) (queue : List Job) : State :=
  { s with
    freeRuns := left
    catalog := s.catalog.map fun q => if q.shot = j.shot then
      { q with
        versions := q.versions ++ [startedVersion s r j es], lastVersion := newVersionNumber r } else q
    dev := { s.dev with
      attemptDue := false, engine := .running,
      row := ⟨s.toneTable (s.recipe j.recipe).tone, 0, [], 0, 0, 0⟩, queue := queue } }

theorem attemptJob_starts {s : State} {j : Job} {r : Record} {es left : List Run}
    {pre post : List Job} (h : s.dev.attemptDue = true) (hs : ¬ StartsHeld s)
    (hq : s.dev.queue = pre ++ j :: post)
    (hp : ∀ k, k ∈ pre → ¬ (versionsOpen s k = true ∧ spaceOpen s k))
    (hr : s.findRecord j.shot = some r) (hv : r.versions.length < 2)
    (ha : allocate (blocksFor (s.recipe j.recipe).scale.bytes) s.freeRuns = .done es left) :
    s.attemptJob = withStarted s r j es left (pre.map (passedJob s) ++
      startedJob r (s.recipe j.recipe) j :: post) := by
  have quiet : ∀ k, k ∈ pre ++ j :: post → k.state ≠ .running := fun k hk hr =>
    hs (.inl ⟨k, hq ▸ hk, hr⟩)
  have opened : versionsOpen s j = true ∧ spaceOpen s j := by
    refine ⟨?_, es, left, ha⟩
    simp only [versionsOpen, hr, Option.any_some, decide_eq_true_eq]
    exact hv
  have starts := tryJobs_starts (s := { s with dev := { s.dev with attemptDue := false } })
    (post := post) hr hv ha quiet hp
  rw [attemptJob_tries h hs, hq]
  have same : ({ s with dev := { s.dev with attemptDue := false } } : State) =
      withQueue { s with dev := { s.dev with attemptDue := false } } (pre ++ j :: post) := by
    rw [← hq]
    rfl
  rw [same, starts]
  have placed := changeJob_append (b := post) (f := startedJob r (s.recipe j.recipe))
    (start_not_passed hp opened)
  exact congrArg (withStarted s r j es left) placed

end Sys2Proof.Machine
end

section
/-! PROOFS. The abort of the running job at SAVING (R105), and the jobs' admission, start and abort. -/
namespace Sys2Proof.Machine

/-! ### A proof wanted of a HELD record -/

/-- The shot's record is HELD and asks for the proof. -/
def HeldWanting (s : State) (n : Nat) (w : Wanted) : Prop :=
  ∃ q, s.findRecord n = some q ∧ q.life = .held ∧ q.wanted = some w

theorem HeldWanting.spares {n : Nat} {w : Wanted} {s t : State} (h : HeldWanting s n w)
    (hr : Regular n s) (k : Spares n s t) : HeldWanting t n w := by
  obtain ⟨q, hq, life, wanted⟩ := h
  exact ⟨q, (k.kept hr q hq).resolve_right fun c => by simp [life] at c, life, wanted⟩

theorem HeldWanting.regular {n : Nat} {w : Wanted} {s : State} (h : HeldWanting s n w)
    (hc : CatalogOk s) : Regular n s :=
  let ⟨_, hq, _⟩ := h
  .of_find hc hq

theorem HeldWanting.freeVersion {n : Nat} {w : Wanted} {s : State} (h : HeldWanting s n w)
    (hr : Regular n s) (k : Nat) :
    HeldWanting (s.freeVersion n k) n w ∧ Regular n (s.freeVersion n k) := by
  obtain ⟨q, hq, life, wanted⟩ := h
  have changed := freeVersion_changes (k := k) hr hq (by simp [life])
  exact ⟨⟨_, changed.find, life, wanted⟩, changed.regular⟩

/-- A record with a proof wanted keeps its raw and stays HELD (R15, R17). -/
theorem HeldWanting.releaseTests {n : Nat} {w : Wanted} {s : State} (h : HeldWanting s n w)
    (hr : Regular n s) : HeldWanting (s.releaseTests n) n w := by
  have versions : ∀ (numbers : List Nat) (u : State), HeldWanting u n w → Regular n u →
      HeldWanting (u.versionTests n numbers) n w := by
    intro numbers
    induction numbers with
    | nil => exact fun u hu _ => hu
    | cons k rest ih =>
      intro u hu ru
      unfold State.versionTests
      split
      · exact hu
      · split
        · exact ih u hu ru
        · split
          · obtain ⟨hu, ru⟩ := hu.freeVersion ru k
            exact ih _ hu ru
          · exact ih u hu ru
  have raw : s.rawTest n = s := by
    obtain ⟨q, hq, -, wanted⟩ := h
    unfold State.rawTest
    rw [hq]
    exact if_neg (by simp [State.rawReleasable, wanted])
  have cardOnly : ∀ u : State, HeldWanting u n w → u.cardOnlyTest n = u := by
    rintro u ⟨q, hq, -, wanted⟩
    unfold State.cardOnlyTest
    rw [hq]
    exact if_neg (by simp [State.hasHold, wanted])
  unfold State.releaseTests
  split
  · exact h
  · next r _ =>
    have tested := versions (r.versions.map Version.number) s h hr
    rw [raw, cardOnly _ tested]
    exact tested

/-- A QUEUED job for the proof, with the mark of its purpose. -/
def Carried (w : Wanted) (k : Job) (n : Nat) : Prop :=
  k.shot = n ∧ k.recipe = w.recipe ∧ k.state = .queued ∧
    (match w.purpose with
      | .card => k.cardMark
      | .relay => k.relayMark) = true

theorem Carried.marked {shots : List Nat} {w : Wanted} {j k : Job} {n : Nat}
    (h : Carried w j n) (m : Marked shots j k) : Carried w k n := by
  obtain ⟨shot, recipe, state, mark⟩ := h
  refine ⟨m.shot.trans shot, ?_, m.state.trans state, ?_⟩
  · rw [m.fields]
    exact recipe
  · cases hp : w.purpose with
    | card =>
      rw [hp] at mark
      exact m.card mark
    | relay =>
      rw [hp] at mark
      exact m.relay mark

theorem carried_merged {w : Wanted} {j : Job} {n : Nat} (hs : j.shot = n)
    (hr : j.recipe = w.recipe) (hq : j.state = .queued) : Carried w (mergedJob w.purpose j) n := by
  obtain ⟨recipe, purpose⟩ := w
  cases purpose <;> exact ⟨hs, hr, hq, rfl⟩

theorem carried_auto (s : State) {w : Wanted} {n : Nat} : Carried w (autoJob s n w) n := by
  obtain ⟨recipe, purpose⟩ := w
  cases purpose <;> exact ⟨rfl, rfl, rfl, rfl⟩

theorem forall_marked_mem {shots : List Nat} {l m : List Job}
    (h : Paired (Marked shots) l m) {j : Job} (hj : j ∈ l) :
    ∃ k, k ∈ m ∧ Marked shots j k := by
  induction h with
  | nil => cases hj
  | cons hx _ ih =>
    rcases List.mem_cons.mp hj with rfl | hj
    · exact ⟨_, List.mem_cons_self, hx⟩
    · obtain ⟨k, hk, m⟩ := ih hj
      exact ⟨k, List.mem_cons_of_mem _ hk, m⟩

theorem mem_changeJob_self {l : List Job} {j : Job} {f : Job → Job} (h : j ∈ l) :
    f j ∈ changeJob l j f := by
  induction l with
  | nil => cases h
  | cons x rest ih =>
    rw [changeJob]
    split
    · next hx => exact hx ▸ List.mem_cons_self
    · next hx =>
      exact List.mem_cons_of_mem x (ih ((List.mem_cons.mp h).resolve_left (Ne.symm hx)))

/-- A job for the proof is there after an admission. -/
theorem Admission.carried {shots : List Nat} {s t : State} (h : Admission shots s t) {w : Wanted}
    {n : Nat} (hc : ∃ k, k ∈ s.dev.queue ∧ Carried w k n) : ∃ k, k ∈ t.dev.queue ∧ Carried w k n := by
  obtain ⟨j, hj, hc⟩ := hc
  obtain ⟨old, new, ht, marked, -⟩ := h.queue
  obtain ⟨k, hk, m⟩ := forall_marked_mem marked hj
  exact ⟨k, ht ▸ List.mem_append_left _ hk, hc.marked m⟩

/-- After an admission a proof wanted is wanted still, or has its job (R98). -/
theorem admitFrom_carries (shots : List Nat) {s : State} {n : Nat} {w : Wanted} (hc : CatalogOk s)
    (hd : shots.Nodup) (h : HeldWanting s n w) : HeldWanting (s.admitFrom shots) n w ∨
      ∃ k, k ∈ (s.admitFrom shots).dev.queue ∧ Carried w k n := by
  induction shots generalizing s with
  | nil => exact .inl h
  | cons m rest ih =>
    obtain ⟨-, hd⟩ := List.nodup_cons.mp hd
    have regular := h.regular hc
    by_cases want : ∃ w, Wanting s m w
    · obtain ⟨v, want⟩ := want
      obtain ⟨r, hr, hw⟩ := wanting_find hc want
      rw [admitFrom_cons hr hw]
      have other : ∀ u : State, Spares n s u → m ≠ n → HeldWanting (unwant u m) n w := by
        intro u hu hm
        have cleared : Spares n u (u.setWanted m none) := modRecord_spares hm u _
        exact h.spares regular (hu.trans (cleared.trans (releaseTests_spares hm _)))
      have own : m = n → v = w := by
        rintro rfl
        obtain ⟨q, hq, -, wanted⟩ := h
        cases hr.symm.trans hq
        exact Option.some.inj (hw.symm.trans wanted)
      split
      · next j hj =>
        obtain ⟨mem, hq, hs, recipe⟩ := queuedJob_spec hj
        have order := unwant_order ((mergeAuto_inner s j v.purpose).order hc) m
        by_cases hm : m = n
        · cases own hm
          subst hm
          refine .inr ((admitFrom_admission rest order hd).carried ⟨_, ?_, carried_merged hs
            recipe hq⟩)
          rw [(unwant_dev _ m).2.2, mergeAuto_eq]
          exact mem_changeJob_self mem
        · refine ih order hd (other _ ?_ hm)
          refine mergeAuto_eq s j _ ▸ modJob_spares s j _ ?_
          cases v.purpose <;> exact hs ▸ hm
      · split
        · next hl =>
          have order := unwant_order ((appendJob_inner s m v.recipe .auto [] (v.purpose == .card)
            (v.purpose == .relay) hl).order hc) m
          by_cases hm : m = n
          · cases own hm
            subst hm
            refine .inr ((admitFrom_admission rest order hd).carried ⟨_, ?_, carried_auto s⟩)
            rw [(unwant_dev _ m).2.2]
            exact List.mem_append_right _ (List.mem_singleton.mpr rfl)
          · exact ih order hd (other _ (appendJob_spares hm s _ _ _ _ _) hm)
        · exact .inl h
    · rw [admitFrom_skip fun v hv => want ⟨v, hv⟩]
      exact ih hc hd h

/-! ### The abort of a running job (R105) -/

theorem discardDev_dev (s : State) : s.discardDev.dev = s.dev := by
  unfold State.discardDev
  split
  · split <;> rfl
  · rfl

theorem discardDev_catalog (s : State) : s.discardDev.catalog = s.catalog := by
  unfold State.discardDev
  split
  · split <;> rfl
  · rfl

/-- The engine is free of the job, before its shot is looked at (R105). -/
def jobStopped (s : State) (j : Job) : State :=
  let u := (s.dropJob j).discardDev
  { u with dev := { u.dev with engine := .idle, row := RowWork.none } }

theorem jobStopped_dev (s : State) (j : Job) : (jobStopped s j).dev =
    { s.dev with queue := s.dev.queue.erase j, engine := .idle, row := RowWork.none } := by
  unfold jobStopped
  dsimp only
  rw [discardDev_dev]
  rfl

theorem jobStopped_catalog (s : State) (j : Job) : (jobStopped s j).catalog = s.catalog :=
  discardDev_catalog (s.dropJob j)

theorem relayWantsProof_dev (s : State) (n : Nat) : (s.relayWantsProof n).dev = s.dev := by
  unfold State.relayWantsProof
  split
  · split <;> rfl
  · rfl

theorem restoreWanted_dev (s : State) (j : Job) (why : AbortCause) :
    (s.restoreWanted j why).dev = s.dev := by
  unfold State.restoreWanted
  split
  · split <;> rfl
  · rfl

theorem reportJob_dev (s : State) (j : Job) (r : JobResult) : (s.reportJob j r).dev =
    { s.dev with log := logResult s.dev.log r } := by
  have told : ∀ u : State, (u.announceJob j r).dev = u.dev := fun u => by
    unfold State.announceJob
    dsimp only
    split
    · rw [notify_dev, notify_dev]
    · rw [notify_dev]
  exact told _

/-- The jobs and the engine after an abort. -/
theorem abortJob_dev (s : State) (j : Job) (why : AbortCause) :
    (s.abortJob j why).dev.engine = .idle ∧
      (s.abortJob j why).dev.log = logResult s.dev.log (abortedResult j why) ∧
      (s.abortJob j why).dev.queue = s.dev.queue.erase j := by
  have stopped : s.abortJob j why = (((((jobStopped s j).restoreWanted j why).relayWantsProof
    j.shot).reportJob j (abortedResult j why)).freeVersion j.shot j.version).markAttempt := rfl
  have freed : ∀ u : State, (u.freeVersion j.shot j.version).markAttempt.dev =
      { u.dev with attemptDue := true } := fun u => by
    show { (u.freeVersion j.shot j.version).dev with attemptDue := true } = _
    rw [(freeVersion_cascade u j.shot j.version).dev]
  rw [stopped, freed, reportJob_dev, relayWantsProof_dev, restoreWanted_dev, jobStopped_dev]
  exact ⟨rfl, rfl, rfl⟩

theorem freeVersion_gone {s : State} {n k : Nat} {v : Version}
    (h : Holding (s.freeVersion n k) n v) : v.number ≠ k := by
  cases hr : s.findRecord n with
  | none =>
    unfold State.freeVersion at h
    rw [hr] at h
    obtain ⟨q, hq, hs, -⟩ := h
    have := List.find?_eq_none.mp hr q hq
    simp [hs] at this
  | some r =>
    unfold State.freeVersion at h
    rw [hr] at h
    obtain ⟨q, hq, hs, hv⟩ := (free_cascade _ _).holding h
    obtain ⟨x, -, rfl⟩ := List.mem_map.mp hq
    split at hs
    · next hx =>
      rw [if_pos hx] at hv
      simpa using (List.mem_filter.mp hv).2
    · next hx => exact absurd hs hx

theorem abortJob_gone {s : State} {j : Job} {why : AbortCause} {v : Version}
    (h : Holding (s.abortJob j why) j.shot v) : v.number ≠ j.version :=
  freeVersion_gone (s := (((jobStopped s j).restoreWanted j why).relayWantsProof
    j.shot).reportJob j (abortedResult j why)) h

/-- The proof that a job with a mark was for. -/
def restored (j : Job) : Wanted := ⟨j.recipe, if j.cardMark then .card else .relay⟩

/-- Proof wanted is restored for a job with a mark (R105). -/
theorem abortJob_restores {s : State} {j : Job} {r : Record} (hc : CatalogOk s)
    (hr : s.findRecord j.shot = some r) (hl : r.life = .held)
    (hm : j.cardMark = true ∨ j.relayMark = true) :
    HeldWanting (s.abortJob j .save) j.shot (restored j) := by
  have found : (jobStopped s j).findRecord j.shot = some r :=
    (findRecord_congr (jobStopped_catalog s j) _).trans hr
  have order : CatalogOk (jobStopped s j) := by
    have dropped := (dropJob_inner s j).trans (discardDev_inner (s.dropJob j))
    exact dropped.order hc
  have wanting : HeldWanting ((jobStopped s j).restoreWanted j .save) j.shot (restored j) := by
    unfold State.restoreWanted
    rw [found]
    dsimp only
    rw [if_pos (by simp [hl, hm])]
    have set := modRecord_find (s := jobStopped s j) (n := j.shot)
      (g := fun q => { q with wanted := some (restored j) })
    rw [found] at set
    exact ⟨_, set, hl, rfl⟩
  have wanted : ((jobStopped s j).restoreWanted j .save).relayWantsProof j.shot =
      (jobStopped s j).restoreWanted j .save := by
    obtain ⟨q, hq, -, hw⟩ := wanting
    unfold State.relayWantsProof
    rw [hq]
    split
    · next r' e heq he =>
      cases heq
      exact if_neg (by simp [hw])
    · rfl
  have regular := wanting.regular ((restoreWanted_inner _ j .save).order order)
  have told := reportJob_passes j.shot ((jobStopped s j).restoreWanted j .save) j
    (abortedResult j .save)
  have reported := wanting.spares regular told.spares
  have freed := (reported.freeVersion (told.regular regular) j.version).1
  have stopped : s.abortJob j .save = (((((jobStopped s j).restoreWanted j .save).relayWantsProof
    j.shot).reportJob j (abortedResult j .save)).freeVersion j.shot j.version).markAttempt := rfl
  rw [stopped, wanted]
  exact freed

/-! ### The statement -/

theorem forall_marked_get {shots : List Nat} {l m new : List Job}
    (h : Paired (Marked shots) l m) {i : Nat} {j k : Job} (hj : l[i]? = some j)
    (hk : (m ++ new)[i]? = some k) : Marked shots j k := by
  induction h generalizing i with
  | nil => simp at hj
  | cons hx _ ih =>
    cases i with
    | zero =>
      simp only [List.cons_append, List.getElem?_cons_zero,
        Option.some.injEq] at hj hk
      exact hj ▸ hk ▸ hx
    | succ i => exact ih (by simpa using hj) (by simpa using hk)

theorem forall_marked_running {shots : List Nat} {l m : List Job}
    (h : Paired (Marked shots) l m) (hl : ∀ j, j ∈ l → j.state ≠ .running) :
    ∀ k, k ∈ m → k.state ≠ .running := by
  induction h with
  | nil => exact nofun
  | cons hx _ ih =>
    intro k hk
    rcases List.mem_cons.mp hk with rfl | hk
    · rw [hx.state]
      exact hl _ List.mem_cons_self
    · exact ih (fun j hj => hl j (List.mem_cons_of_mem _ hj)) k hk

theorem catalog_nodup {s : State} (hc : CatalogOk s) : (s.catalog.map Record.shot).Nodup :=
  hc.2.1.imp fun lt => Nat.ne_of_lt lt

theorem admitAuto_admission {s : State} (hc : CatalogOk s) :
    Admission (s.catalog.map Record.shot) s s.admitAuto :=
  admitFrom_admission _ hc (catalog_nodup hc)

/-- The admission where one record alone asks for a proof (R97, R98). -/
theorem admitAuto_one {s : State} (hc : CatalogOk s) {r : Record} {w : Wanted}
    (hr : r ∈ s.catalog) (hw : r.wanted = some w)
    (one : ∀ q, q ∈ s.catalog → q.wanted ≠ none → q = r) :
    (∀ j, s.queuedJob r.shot w.recipe = some j →
      s.admitAuto.dev.queue = changeJob s.dev.queue j (mergedJob w.purpose)) ∧
    (s.queuedJob r.shot w.recipe = none → s.dev.queue.length < 8 →
      s.admitAuto.dev.queue.length = s.dev.queue.length + 1) ∧
    (s.queuedJob r.shot w.recipe = none → 8 ≤ s.dev.queue.length → s.admitAuto = s) := by
  have only : ∀ n v, Wanting s n v → n = r.shot := by
    rintro n v ⟨q, hq, hs, hv⟩
    rw [← hs, one q hq (by simp [hv])]
  have nodup := catalog_nodup hc
  obtain ⟨pre, post, split_⟩ := List.append_of_mem (List.mem_map_of_mem (f := Record.shot) hr)
  rw [split_] at nodup
  have apart := (List.nodup_append.mp nodup).2.2
  have before : ∀ n, n ∈ pre → ∀ v, ¬ Wanting s n v := fun n hn v hv =>
    apart n hn r.shot List.mem_cons_self (only n v hv)
  have opened : s.admitAuto = (match s.queuedJob r.shot w.recipe with
      | some j => (unwant (s.mergeAuto j w.purpose) r.shot).admitFrom post
      | none =>
        if s.dev.queue.length < 8 then
          (unwant (s.appendJob r.shot w.recipe .auto [] (w.purpose == .card) (w.purpose == .relay))
            r.shot).admitFrom post
        else s) := by
    unfold State.admitAuto
    rw [split_, admitFrom_append before]
    exact admitFrom_cons (find_of_mem hc hr rfl) hw
  have after : ∀ u : State, u.catalog = s.catalog →
      (unwant u r.shot).admitFrom post = unwant u r.shot := fun u hu =>
    admitFrom_nothing post fun n _ v hv => by
      obtain ⟨hn, hv⟩ := unwant_wanting hv hu
      exact hn (only n v hv)
  refine ⟨fun j hj => ?_, fun hj hl => ?_, fun hj hl => ?_⟩
  · rw [opened, hj]
    dsimp only
    rw [after (s.mergeAuto j w.purpose) rfl, (unwant_dev _ _).2.2, mergeAuto_eq]
    rfl
  · rw [opened, hj]
    dsimp only
    rw [if_pos hl, after (s.appendJob r.shot w.recipe .auto [] (w.purpose == .card)
      (w.purpose == .relay)) rfl, (unwant_dev _ _).2.2]
    exact List.length_append
  · rw [opened, hj]
    exact if_neg (Nat.not_lt.mpr hl)

/-- Settles O43. -/
theorem jobsStartAndAbort : Obligations.JobsStartAndAbort := by
  refine ⟨?_, ?_, ?_⟩
  · intro s hc t
    have admission := admitAuto_admission hc
    obtain ⟨old, new, ht, marked, sub, admitted⟩ := admission.queue
    have ht : t.dev.queue = old ++ new := ht
    have length := marked.length_eq
    have dropped : t.dev.queue.drop s.dev.queue.length = new := by
      rw [ht, length, List.drop_left]
    refine ⟨fun short r hr => ?_, ⟨admission.room, ?_⟩, fun i j k hj hk => ?_, ?_, ?_, ?_⟩
    · cases hw : r.wanted with
      | none => rfl
      | some w =>
        refine absurd ⟨r, hr, rfl, hw⟩ (admission.done short ?_ r.shot w)
        rintro n v ⟨q, hq, rfl, -⟩
        exact List.mem_map_of_mem hq
    · rw [ht, List.length_append]
      omega
    · have m := forall_marked_get marked hj (ht ▸ hk)
      exact ⟨m.fields, m.card, m.relay, fun hr => m.same (.inl hr)⟩
    · rw [dropped]
      exact List.pairwise_map.mp (hc.2.1.sublist sub)
    · rw [dropped]
      intro k hk
      have a := admitted k hk
      obtain ⟨w, ⟨r, hr, hs, hw⟩, recipe, card, relay⟩ := a.wanted
      exact ⟨a.origin, a.asking, a.state, a.snapshot, a.rowsDone, a.conditions, a.saturation,
        r, w, hr, hs, hw, recipe, card, relay⟩
    · intro r w hr hw one
      obtain ⟨merged, appended, full⟩ := admitAuto_one hc hr hw one
      refine ⟨fun j hj => (merged j hj).trans (congrArg (changeJob s.dev.queue j) ?_), appended,
        full⟩
      funext k
      cases w.purpose <;> simp [mergedJob]
  · intro s t held versions need space passed
    refine ⟨attemptJob_idle, attemptJob_held, attemptJob_none, ?_⟩
    intro pre post j r es left hd hh hq hp hr hv ha rec_ next n v started
    have number : newVersionNumber r = n := newVersionNumber_eq r next rfl
    have starts := attemptJob_starts hd hh hq hp hr hv ha
    unfold withStarted startedJob startedVersion at starts
    rw [number] at starts
    exact starts
  · intro s j r hc hj hr hl t
    have order := (abortJob_inner s j .save).order hc
    obtain ⟨engine, log, queue⟩ := abortJob_dev s j .save
    have cascade := releaseTests_cascade (s.abortJob j .save) j.shot
    have tested := (releaseTests_inner (s.abortJob j .save) j.shot).order order
    have admission := admitAuto_admission tested
    have opened : t = ((s.abortJob j .save).releaseTests j.shot).admitAuto := by
      show s.abortSave = _
      unfold State.abortSave
      rw [hj]
    rw [← opened] at admission
    have kept := cascade.dev
    refine ⟨?_, ?_, fun one => ?_, fun q v hq hs hv => ?_, fun hm => ?_⟩
    · rw [admission.engine, kept]
      exact engine
    · rw [admission.log, kept]
      exact log
    · obtain ⟨old, new, ht, marked, -, admitted⟩ := admission.queue
      rw [kept] at marked
      change Paired _ (s.abortJob j .save).dev.queue old at marked
      rw [queue] at marked
      obtain ⟨hm, hrun⟩ := runningJob_mem hj
      have none_ : ∀ k, k ∈ s.dev.queue.erase j → k.state ≠ .running := by
        intro k hk hkr
        have perm := (List.perm_cons_erase hm).filter fun j => j.state == .running
        rw [List.filter_cons_of_pos (by simp [hrun])] at perm
        have pos := List.length_pos_of_mem (List.mem_filter.mpr ⟨hk, by simpa using hkr⟩ :
          k ∈ (s.dev.queue.erase j).filter fun j => j.state == .running)
        have len := perm.length_eq
        rw [List.length_cons] at len
        omega
      have quiet := forall_marked_running marked none_
      refine List.find?_eq_none.mpr fun k hk => ?_
      rw [ht] at hk
      rcases List.mem_append.mp hk with hk | hk
      · simpa using quiet k hk
      · simp [(admitted k hk).state]
    · have holding : Holding t j.shot v := ⟨q, hq, hs, hv⟩
      exact abortJob_gone (cascade.holding (admission.holds _ _ holding))
    · have wanting := abortJob_restores hc hr hl hm
      have wanting := wanting.releaseTests (wanting.regular order)
      rcases admitFrom_carries _ tested (catalog_nodup tested) wanting with h | h
      · obtain ⟨q, hq, -, hw⟩ := h
        have hq : t.findRecord j.shot = some q := opened ▸ hq
        exact .inr ⟨q, findRecord_mem hq, findRecord_shot hq, hw⟩
      · obtain ⟨k, hk, shot, recipe, state, mark⟩ := h
        refine .inl ⟨k, opened ▸ hk, shot, recipe, state, ?_⟩
        unfold restored at mark
        cases hcm : j.cardMark <;> simpa [hcm] using mark

end Sys2Proof.Machine
end

section
/-! PROOFS. The work a slot chooses (R125, R126), and the requests that set cards and their space. -/
namespace Sys2Proof.Machine

/-! ### The end of a change and the records -/

theorem modRecord_viewList (s : State) (n : Nat) (g : Record → Record)
    (hg : ∀ r, (g r).view = r.view := by intro r; rfl) :
    (s.modRecord n g).catalog.map Record.view = s.catalog.map Record.view := by
  show (s.catalog.map _).map _ = _
  rw [List.map_map]
  refine List.map_congr_left fun r _ => ?_
  show (if r.shot = n then g r else r).view = r.view
  split
  · exact hg r
  · rfl

theorem startJob_views (s : State) (j : Job) (r : Record) (rec_ : Recipe) (es left : List Run) :
    (s.startJob j r rec_ es left).catalog.map Record.view = s.catalog.map Record.view := by
  unfold State.startJob
  exact modRecord_viewList { s with freeRuns := left } j.shot _

/-- The records keep, each in its place, what a cascade keeps of a record. -/
structure SameViews (s t : State) : Prop where
  views : t.catalog.map Record.view = s.catalog.map Record.view

theorem SameViews.of_catalog {s t : State} (h : t.catalog = s.catalog := by rfl) : SameViews s t :=
  ⟨by rw [h]⟩

theorem SameViews.trans {a b c : State} (h : SameViews a b) (k : SameViews b c) : SameViews a c :=
  ⟨k.views.trans h.views⟩

theorem tryJobs_views (js : List Job) (s : State) : SameViews s (s.tryJobs js) := by
  induction js generalizing s with
  | nil => exact .of_catalog
  | cons j rest ih =>
    have waits : SameViews s ((s.setSpaceWait j).tryJobs rest) :=
      (SameViews.of_catalog (t := s.setSpaceWait j)).trans (ih _)
    unfold State.tryJobs
    split
    · exact ih s
    · split
      · exact ih s
      · split
        · exact ih s
        · dsimp only
          split
          · exact ⟨startJob_views s j _ _ _ _⟩
          · exact waits
          · exact waits

/-- The end of a change keeps what a cascade keeps of the records. -/
theorem settle_views (s : State) : s.settle.catalog.map Record.view = s.catalog.map Record.view := by
  have tried : SameViews s s.attemptJob := by
    unfold State.attemptJob
    split
    · dsimp only
      have cleared : SameViews s { s with dev := { s.dev with attemptDue := false } } := .of_catalog
      split
      · exact cleared.trans (tryJobs_views _ _)
      · exact cleared
    · exact .of_catalog
  show s.attemptJob.grant.catalog.map _ = _
  rw [grant_catalog]
  exact tried.views

theorem views_get {l m : List Record} (h : m.map Record.view = l.map Record.view) {i : Nat}
    {q : Record} (hq : m[i]? = some q) : ∃ r, l[i]? = some r ∧ q.view = r.view := by
  have at_ := congrArg (fun x : List RecordView => x[i]?) h
  simp only [List.getElem?_map, hq, Option.map_some] at at_
  obtain ⟨r, hr, he⟩ := Option.map_eq_some_iff.mp at_.symm
  exact ⟨r, hr, he.symm⟩

theorem views_mem {l m : List Record} (h : m.map Record.view = l.map Record.view) {q : Record}
    (hq : q ∈ m) : ∃ r, r ∈ l ∧ q.view = r.view := by
  have mem : q.view ∈ l.map Record.view := h ▸ List.mem_map_of_mem hq
  obtain ⟨r, hr, he⟩ := List.mem_map.mp mem
  exact ⟨r, hr, he.symm⟩

theorem view_fields {q r : Record} (h : q.view = r.view) : q.shot = r.shot ∧ q.copies = r.copies :=
  ⟨congrArg RecordView.shot h, congrArg RecordView.copies h⟩

theorem views_shots {l m : List Record} (h : m.map Record.view = l.map Record.view) :
    m.map Record.shot = l.map Record.shot := by
  have shots := congrArg (List.map RecordView.shot) h
  rwa [List.map_map, List.map_map] at shots

theorem views_copies {l m : List Record} (h : m.map Record.view = l.map Record.view) :
    m.map Record.copies = l.map Record.copies := by
  have copies := congrArg (List.map RecordView.copies) h
  rwa [List.map_map, List.map_map] at copies

theorem slot_of_med {s t : State} (h : t.med = s.med) (x : Slot) : t.slot x = s.slot x := by
  cases x
  · exact congrArg Med.a h
  · exact congrArg Med.b h

theorem settle_slot (s : State) (x : Slot) : s.settle.slot x = s.slot x :=
  slot_of_med (settle_calm s).med x

/-! ### The work of a slot -/

/-- The slot may choose (R125, R132). -/
def Chooses (s : State) (x : Slot) : Prop :=
  ((s.slot x).state = .ready ∨ (s.slot x).state = .starved) ∧ s.pwc.power ≠ .saving ∧
    (s.slot x).reinit = none

/-- The bytes of the part that a slot would copy. -/
def headBytes (x : Slot) (r : Record) (part : Part) : Nat :=
  r.partBytes part (r.copies.get x part).version

theorem chooses_iff {s : State} {x : Slot} :
    (((s.slot x).state == .ready || (s.slot x).state == .starved) && s.pwc.power != .saving &&
      (s.slot x).reinit.isNone) = true ↔ Chooses s x := by
  simp only [Bool.and_eq_true, Bool.or_eq_true, beq_iff_eq, bne_iff_ne, Option.isNone_iff_eq_none,
    and_assoc, Chooses]

theorem chooseWork_not {s : State} {x : Slot} (h : ¬ Chooses s x) : s.chooseWork x = s := by
  unfold State.chooseWork
  exact if_neg (mt chooses_iff.mp h)

theorem chooseWork_nothing {s : State} {x : Slot} (h : Chooses s x) (hw : s.slotWork x = []) :
    s.chooseWork x = s.setSlot x { s.slot x with state := .ready } := by
  unfold State.chooseWork
  rw [if_pos (chooses_iff.mpr h), hw]

theorem chooseWork_starts {s : State} {x : Slot} {n : Nat} {part : Part}
    {rest : List (Nat × Part)} {r : Record} (h : Chooses s x)
    (hw : s.slotWork x = (n, part) :: rest) (hr : s.findRecord n = some r)
    (hf : fits (s.slot x).space (sectorsFor (headBytes x r part)) = true)
    (hb : 0 < headBytes x r part) : s.chooseWork x = s.startCopy x r part := by
  unfold State.chooseWork
  rw [if_pos (chooses_iff.mpr h), hw]
  dsimp only
  rw [hr]
  exact if_pos (Bool.and_eq_true_iff.mpr ⟨hf, decide_eq_true hb⟩)

theorem chooseWork_starved {s : State} {x : Slot} {n : Nat} {part : Part}
    {rest : List (Nat × Part)} {r : Record} (h : Chooses s x)
    (hw : s.slotWork x = (n, part) :: rest) (hr : s.findRecord n = some r)
    (hf : ¬ (fits (s.slot x).space (sectorsFor (headBytes x r part)) = true ∧
      0 < headBytes x r part)) :
    s.chooseWork x = s.setSlot x { s.slot x with state := .starved } := by
  unfold State.chooseWork
  rw [if_pos (chooses_iff.mpr h), hw]
  dsimp only
  rw [hr]
  exact if_neg fun h => hf ⟨(Bool.and_eq_true_iff.mp h).1, of_decide_eq_true
    (Bool.and_eq_true_iff.mp h).2⟩

theorem slotWork_find {s : State} {x : Slot} {n : Nat} {part : Part}
    {rest : List (Nat × Part)} (hw : s.slotWork x = (n, part) :: rest) :
    ∃ r, s.findRecord n = some r := by
  obtain ⟨q, hq, hs, -⟩ := slotWork_pending (hw ▸ List.mem_cons_self)
  cases hf : s.findRecord n with
  | none =>
    have := List.find?_eq_none.mp hf q hq
    simp [hs] at this
  | some r => exact ⟨r, rfl⟩

/-- The four ways a choice ends (R125, R126). -/
theorem chooseWork_cases (s : State) (x : Slot) :
    (¬ Chooses s x ∧ s.chooseWork x = s) ∨
    (Chooses s x ∧ s.slotWork x = [] ∧
      s.chooseWork x = s.setSlot x { s.slot x with state := .ready }) ∨
    (Chooses s x ∧ s.slotWork x ≠ [] ∧
      s.chooseWork x = s.setSlot x { s.slot x with state := .starved }) ∨
    ∃ n part rest r, Chooses s x ∧ s.slotWork x = (n, part) :: rest ∧ s.findRecord n = some r ∧
      fits (s.slot x).space (sectorsFor (headBytes x r part)) = true ∧ 0 < headBytes x r part ∧
      s.chooseWork x = s.startCopy x r part := by
  by_cases h : Chooses s x
  · refine .inr ?_
    cases hw : s.slotWork x with
    | nil => exact .inl ⟨h, rfl, chooseWork_nothing h hw⟩
    | cons p rest =>
      obtain ⟨n, part⟩ := p
      obtain ⟨r, hr⟩ := slotWork_find hw
      by_cases hf : fits (s.slot x).space (sectorsFor (headBytes x r part)) = true ∧
          0 < headBytes x r part
      · exact .inr (.inr ⟨n, part, rest, r, h, rfl, hr, hf.1, hf.2,
          chooseWork_starts h hw hr hf.1 hf.2⟩)
      · exact .inr (.inl ⟨h, by simp, chooseWork_starved h hw hr hf⟩)
  · exact .inl ⟨h, chooseWork_not h⟩

/-- The copy in flight that a start makes (R126). -/
def startedFlight (s : State) (x : Slot) (r : Record) (part : Part) : Flight :=
  { shot := r.shot, part := part, version := (r.copies.get x part).version,
    planned := (planRuns (s.slot x).space (sectorsFor (headBytes x r part))).1,
    timeout := (s.slot x).timeout, verify := (s.slot x).verify, phase := .filling, sectorsDone := 0,
    burst := [], check := .zero }

theorem startCopy_slot (s : State) (x : Slot) (r : Record) (part : Part) :
    (s.startCopy x r part).slot x = { s.slot x with
      state := .busy
      space := (planRuns (s.slot x).space (sectorsFor (headBytes x r part))).2
      flight := some (startedFlight s x r part) } := by
  cases x <;> rfl

theorem startCopy_slot_other (s : State) {x y : Slot} (h : y ≠ x) (r : Record) (part : Part) :
    (s.startCopy x r part).slot y = s.slot y := by
  cases x <;> cases y <;> first | rfl | exact absurd rfl h

/-- A record with a copy that has started. -/
def writingCopy (x : Slot) (part : Part) (q : Record) : Record :=
  { q with copies := q.copies.set x part { q.copies.get x part with state := .writing } }

theorem startCopy_catalog (s : State) (x : Slot) (r : Record) (part : Part) :
    (s.startCopy x r part).catalog =
      s.catalog.map fun q => if q.shot = r.shot then writingCopy x part q else q := by
  cases x <;> rfl

theorem chooseWork_slot_other (s : State) {x y : Slot} (h : y ≠ x) :
    (s.chooseWork x).slot y = s.slot y := by
  rcases chooseWork_cases s x with ⟨-, he⟩ | ⟨-, -, he⟩ | ⟨-, -, he⟩ | ⟨n, part, rest, r, -, -, -, -, -, he⟩
  · rw [he]
  · rw [he, State.slot_setSlot_other _ _ _ _ h]
  · rw [he, State.slot_setSlot_other _ _ _ _ h]
  · rw [he, startCopy_slot_other s h]

@[simp] theorem get_set_self (c : Copies) (x : Slot) (p : Part) (k : Copy) :
    (c.set x p k).get x p = k := by
  cases x <;> cases p <;> rfl

theorem get_set_slot (c : Copies) {x y : Slot} (h : y ≠ x) (p q : Part) (k : Copy) :
    (c.set x p k).get y q = c.get y q := by
  cases x <;> cases y <;> cases p <;> cases q <;> first | rfl | exact absurd rfl h

theorem get_set_part (c : Copies) (x y : Slot) {p q : Part} (h : q ≠ p) (k : Copy) :
    (c.set x p k).get y q = c.get y q := by
  cases x <;> cases y <;> cases p <;> cases q <;> first | rfl | exact absurd rfl h

/-! ### Under a request that has been taken -/

theorem openRequest_setSlot (s : State) (p : Port) (k : RequestKind) (tag : Byte) (x : Slot)
    (q : SlotSt) : (s.openRequest p k tag).setSlot x q = (s.setSlot x q).openRequest p k tag := by
  cases p <;> cases x <;> rfl

theorem openRequest_setMed (s : State) (p : Port) (k : RequestKind) (tag : Byte) (m : Med) :
    ({ s.openRequest p k tag with med := m } : State) =
      ({ s with med := m } : State).openRequest p k tag := by
  cases p <;> rfl

@[simp] theorem openRequest_anyCopyNeeds (s : State) (p : Port) (k : RequestKind) (tag : Byte) :
    (s.openRequest p k tag).anyCopyNeeds = s.anyCopyNeeds := by
  cases p <;> rfl

@[simp] theorem openRequest_slotWork (s : State) (p : Port) (k : RequestKind) (tag : Byte)
    (x : Slot) : (s.openRequest p k tag).slotWork x = s.slotWork x := by
  cases p <;> rfl

@[simp] theorem openRequest_badRun (s : State) (p : Port) (k : RequestKind) (tag : Byte) (x : Slot)
    (r : Run) : (s.openRequest p k tag).badRun x r = s.badRun x r := by
  cases p <;> cases x <;> rfl

@[simp] theorem slotWork_setSlot (s : State) (x y : Slot) (q : SlotSt) :
    (s.setSlot x q).slotWork y = s.slotWork y := by
  cases x <;> rfl

@[simp] theorem findRecord_setSlot (s : State) (x : Slot) (q : SlotSt) (n : Nat) :
    (s.setSlot x q).findRecord n = s.findRecord n := by
  cases x <;> rfl

end Sys2Proof.Machine
end

section
/-! PROOFS. SLOT_MODE, MEDIA_SET and SLOT_FULL (R120, R122, R134). -/
namespace Sys2Proof.Machine

/-- A choice changes copies of its slot only, and those only by starting one (R125, R126). -/
theorem chooseWork_copies (s : State) (x : Slot) : ∃ g : Record → Record,
    (s.chooseWork x).catalog = s.catalog.map g ∧ ∀ q, (g q).shot = q.shot ∧
      (∀ y part, y ≠ x → (g q).copies.get y part = q.copies.get y part) ∧
      ∀ part, (g q).copies.get x part = q.copies.get x part ∨
        ((g q).copies.get x part = { q.copies.get x part with state := .writing } ∧
          ∃ f, ((s.chooseWork x).slot x).flight = some f ∧ f.shot = q.shot ∧ f.part = part) := by
  have same : (s.chooseWork x).catalog = s.catalog → ∃ g : Record → Record,
      (s.chooseWork x).catalog = s.catalog.map g ∧ ∀ q, (g q).shot = q.shot ∧
      (∀ y part, y ≠ x → (g q).copies.get y part = q.copies.get y part) ∧
      ∀ part, (g q).copies.get x part = q.copies.get x part ∨
        ((g q).copies.get x part = { q.copies.get x part with state := .writing } ∧
          ∃ f, ((s.chooseWork x).slot x).flight = some f ∧ f.shot = q.shot ∧ f.part = part) :=
    fun h => ⟨id, by rw [h, List.map_id], fun q => ⟨rfl, fun _ _ _ => rfl, fun _ => .inl rfl⟩⟩
  rcases chooseWork_cases s x with ⟨-, he⟩ | ⟨-, -, he⟩ | ⟨-, -, he⟩ |
    ⟨n, part, rest, r, -, -, -, -, -, he⟩
  · exact same (by rw [he])
  · exact same (by rw [he, State.setSlot_catalog])
  · exact same (by rw [he, State.setSlot_catalog])
  · rw [he]
    refine ⟨_, startCopy_catalog s x r part, fun q => ?_⟩
    split
    case isTrue hs =>
      refine ⟨rfl, fun y p hy => get_set_slot _ hy _ _ _, fun p => ?_⟩
      by_cases hp : p = part
      · subst hp
        refine .inr ⟨get_set_self _ _ _ _, startedFlight s x r p, ?_, hs.symm, rfl⟩
        rw [startCopy_slot]
      · exact .inl (get_set_part _ _ _ hp _)
    case isFalse => exact ⟨rfl, fun _ _ _ => rfl, fun _ => .inl rfl⟩

/-- What R134 makes of the copies of one record. -/
theorem moveCopies_get (r : Record) (part : Part) :
    ((r.copies.get .a part).state = .pending →
      (State.moveCopies r).copies.get .a part = { r.copies.get .a part with state := .notRequired } ∧
      (State.moveCopies r).copies.get .b part = .pendingFor (r.copies.get .a part).version) ∧
    ((r.copies.get .a part).state ≠ .pending →
      (State.moveCopies r).copies.get .a part = r.copies.get .a part ∧
      (State.moveCopies r).copies.get .b part = r.copies.get .b part) := by
  by_cases hr : r.copies.aRaw.state = .pending <;> by_cases hp : r.copies.aProof.state = .pending <;>
    cases part <;> simp [State.moveCopies, Copies.get, Copies.set, hr, hp]

/-- Settles O44. -/
theorem cardSettings : Obligations.CardSettings := by
  intro s p tag
  refine ⟨fun m ha hn => ?_, fun m ha hn => ?_, ?_, fun x ha hs hx => ?_, fun ha hs hm => ?_, fun x ha hs => ?_⟩
  · refine exec_answered (r := .slotMode (.is m)) ha ?_
    show serveSlotMode (.is m) _ = _
    unfold serveSlotMode
    dsimp only
    rw [if_neg (by simp [hn]), openRequest_med, openRequest_setMed]
    rfl
  · exact requestsRefused (.slotMode (.is m)) p tag s _ _ ha (by simp [refusal, hn])
  · intro f ha hb c ta va tb vb
    refine exec_answered (r := .mediaSet f) ha ?_
    show serveMediaSet f _ = _
    unfold serveMediaSet
    rw [hb]
    dsimp only
    rw [openRequest_med, openRequest_setMed]
    rfl
  · refine exec_answered (r := .slotFull (.is x)) ha ?_ (by simp)
    show serveSlotFull (.is x) _ = _
    unfold serveSlotFull withSlot
    dsimp only
    rw [openRequest_slot, openRequest_setSlot]
    have plain : ¬ (decide (x = .a) && decide ((s.openRequest p .slotFull tag).med.mode =
        .overflow)) = true := by simpa using hx
    rcases hs with hs | hs
    · rw [hs]
      exact if_neg plain
    · rw [hs]
      exact if_neg plain
  · generalize ho : s.openRequest p .slotFull tag = o
    have slot : o.slot .a = s.slot .a := ho ▸ openRequest_slot s p _ tag .a
    have catalog : o.catalog = s.catalog := ho ▸ openRequest_catalog s p _ tag
    have mode : o.med.mode = .overflow := ho ▸ (openRequest_med s p .slotFull tag ▸ hm)
    generalize hv : ({ o.setSlot .a { o.slot .a with state := .full } with
      catalog := s.catalog.map State.moveCopies } : State) = v
    have served : (Request.slotFull (.is .a)).service p o =
        ((v.chooseWork .b).settle, .answer .ok .empty) := by
      show serveSlotFull (.is .a) o = _
      unfold serveSlotFull withSlot
      dsimp only
      rw [← hv, ← catalog, slot]
      rcases hs with hs | hs
      · rw [hs]
        exact if_pos (by simp [mode])
      · rw [hs]
        exact if_pos (by simp [mode])
    have ports : SamePorts o v := by
      rw [← hv]
      exact .of_prt rfl
    obtain ⟨t, he, replied, others, -, q, rfl⟩ := exec_replied (r := .slotFull (.is .a)) ha
      (ho ▸ served) (ho ▸ ports.trans ((chooseWork_inner v .b).trans (settle_inner _)).ports)
    obtain ⟨g, hg, copies⟩ := chooseWork_copies v .b
    have moved : (v.chooseWork .b).catalog = s.catalog.map fun r => g (State.moveCopies r) := by
      rw [hg, ← hv, List.map_map]
      rfl
    have views := settle_views (v.chooseWork .b)
    have flight : ((v.chooseWork .b).settle.setPort p q).slot .b = (v.chooseWork .b).slot .b := by
      rw [State.slot_setPort, settle_slot]
    refine ⟨_, he, replied, ?_, fun r hr => ?_, others, ?_, fun i r x part hr hx => ?_⟩
    · rw [State.slot_setPort, settle_slot, chooseWork_slot_other v (by decide), ← hv]
      rfl
    · rw [State.setPort_catalog] at hr
      obtain ⟨x, hx, view⟩ := views_mem views hr
      rw [moved] at hx
      obtain ⟨y, -, rfl⟩ := List.mem_map.mp hx
      have notPending : ∀ part, (r.copies.get .a part).state ≠ .pending := by
        intro part
        rw [(view_fields view).2, (copies _).2.1 .a part (by decide)]
        by_cases hp : (y.copies.get .a part).state = .pending
        · rw [((moveCopies_get y part).1 hp).1]
          simp
        · rw [((moveCopies_get y part).2 hp).1]
          exact hp
      exact ⟨notPending .raw, notPending .proof⟩
    · rw [State.setPort_catalog, views_shots views, moved, List.map_map]
      refine List.map_congr_left fun y _ => ?_
      exact (copies _).1
    · rw [State.setPort_catalog] at hx
      obtain ⟨y, hy, view⟩ := views_get views hx
      rw [moved, List.getElem?_map, hr] at hy
      cases hy
      rw [(view_fields view).2, (copies _).2.1 .a part (by decide), flight]
      have shot : (State.moveCopies r).shot = r.shot := rfl
      refine ⟨fun hp => ?_, fun hp => ?_⟩
      · obtain ⟨ha, hb⟩ := (moveCopies_get r part).1 hp
        refine ⟨ha, ?_⟩
        rcases (copies (State.moveCopies r)).2.2 part with h | ⟨h, f, hf, hfs, hfp⟩
        · rw [h, hb]
          exact ⟨rfl, rfl, rfl, .inl rfl⟩
        · rw [h, hb]
          exact ⟨rfl, rfl, rfl, .inr ⟨rfl, f, hf, hfs.trans shot, hfp⟩⟩
      · obtain ⟨ha, hb⟩ := (moveCopies_get r part).2 hp
        refine ⟨ha, ?_⟩
        rcases (copies (State.moveCopies r)).2.2 part with h | ⟨h, f, hf, hfs, hfp⟩
        · exact .inl (h.trans hb)
        · exact .inr ⟨by rw [h, hb], f, hf, hfs.trans shot, hfp⟩
  · refine exec_answered (r := .slotFull (.is x)) ha ?_
    show serveSlotFull (.is x) _ = _
    unfold serveSlotFull withSlot
    dsimp only
    rw [openRequest_slot]
    split
    case h_4 => rfl
    all_goals simp_all

end Sys2Proof.Machine
end

section
/-! PROOFS. CARD_SPACE, CARD_SPACE_CLEAR and SLOT_DROP (R123, R124, R133). -/
namespace Sys2Proof.Machine

/-- A request that changes its slot and lets it choose. -/
theorem exec_chooses {s : State} {p : Port} {r : Request} (ha : Accepts s p r.kind) {tag : Byte}
    {x : Slot} {q : SlotSt} {pl : Payload}
    (hs : r.service p (s.openRequest p r.kind tag) =
      ((((s.openRequest p r.kind tag).setSlot x q).chooseWork x).settle, .answer .ok pl)) :
    ∃ t, exec (r.row p tag) s = .next t ∧ RepliedIn s t p r.kind tag .ok pl ∧ OthersKept s t p ∧
      (∀ y, t.slot y = (((s.openRequest p r.kind tag).setSlot x q).chooseWork x).slot y) ∧
      t.catalog.map Record.view =
        (((s.openRequest p r.kind tag).setSlot x q).chooseWork x).catalog.map Record.view := by
  have ports : SamePorts (s.openRequest p r.kind tag) ((s.openRequest p r.kind tag).setSlot x q) :=
    .of_prt (State.setSlot_prt _ x q)
  obtain ⟨t, he, replied, others, -, q', rfl⟩ := exec_replied ha hs
    (ports.trans ((chooseWork_inner _ x).trans (settle_inner _)).ports)
  refine ⟨_, he, replied, others, fun y => ?_, ?_⟩
  · rw [State.slot_setPort, settle_slot]
  · rw [State.setPort_catalog]
    exact settle_views _

theorem chooses_set {s : State} {p : Port} {k : RequestKind} {tag : Byte} {x : Slot} {q : SlotSt} :
    Chooses ((s.openRequest p k tag).setSlot x q) x ↔
      (q.state = .ready ∨ q.state = .starved) ∧ s.pwc.power ≠ .saving ∧ q.reinit = none := by
  simp [Chooses]

/-! ### CARD_SPACE -/

/-- The slot with a run more in its list. -/
def withRun (q : SlotSt) (first count : Nat) : SlotSt := { q with space := q.space ++ [⟨first, count⟩] }

theorem serveCardSpace_appends {s : State} {p : Port} {tag : Byte} {x : Slot} {first count : Nat}
    (h1 : (s.slot x).state ≠ .absent) (h2 : (s.slot x).state ≠ .full)
    (h3 : (s.slot x).state ≠ .fault) (hb : s.badRun x ⟨first, count⟩ = false)
    (hl : (s.slot x).space.length < 16) :
    (Request.cardSpace (.is x) first count).service p (s.openRequest p .cardSpace tag) =
      ((((s.openRequest p .cardSpace tag).setSlot x (withRun (s.slot x) first count)).chooseWork
        x).settle, .answer .ok (.space (withRun (s.slot x) first count).space.length
          (totalSectors (withRun (s.slot x) first count).space))) := by
  show serveCardSpace (.is x) first count _ = _
  unfold serveCardSpace withSlot
  dsimp only
  rw [openRequest_slot]
  have rest : ∀ (a a' b : State × Served), (if (s.openRequest p .cardSpace tag).badRun x
      ⟨first, count⟩ = true then a else if 16 ≤ (s.slot x).space.length then a' else b) = b :=
    fun a a' b => by
      rw [openRequest_badRun, if_neg (by simp [hb]), if_neg (by omega)]
  split
  · exact absurd ‹_› h1
  · exact absurd ‹_› h2
  · exact absurd ‹_› h3
  · exact rest _ _ _

/-! ### SLOT_DROP -/

theorem slotWork_nil {s : State} {x : Slot} : s.slotWork x = [] ↔
    ∀ r, r ∈ s.catalog → ∀ part, (r.copies.get x part).state ≠ .pending := by
  unfold State.slotWork
  rw [List.flatMap_eq_nil_iff]
  refine forall₂_congr fun r _ => ?_
  rw [List.append_eq_nil_iff]
  constructor
  · rintro ⟨hr, hp⟩ part h
    cases part
    · simp [h] at hr
    · simp [h] at hp
  · exact fun h => ⟨if_neg (h .raw), if_neg (h .proof)⟩

theorem dropCopies_get (r : Record) (x : Slot) (part : Part) :
    ((r.copies.get x part).state = .pending → (State.dropCopies r x).copies.get x part =
      { r.copies.get x part with state := .abandoned }) ∧
    ((r.copies.get x part).state ≠ .pending →
      (State.dropCopies r x).copies.get x part = r.copies.get x part) := by
  unfold State.dropCopies
  dsimp only
  cases x
  · by_cases hr : r.copies.aRaw.state = .pending <;>
      by_cases hp : r.copies.aProof.state = .pending <;> cases part <;>
      simp [Copies.get, Copies.set, hr, hp]
  · by_cases hr : r.copies.bRaw.state = .pending <;>
      by_cases hp : r.copies.bProof.state = .pending <;> cases part <;>
      simp [Copies.get, Copies.set, hr, hp]

theorem dropCopies_done (r : Record) (x : Slot) (part : Part) :
    ((State.dropCopies r x).copies.get x part).state ≠ .pending := by
  by_cases h : (r.copies.get x part).state = .pending
  · rw [(dropCopies_get r x part).1 h]
    simp
  · rw [(dropCopies_get r x part).2 h]
    exact h

/-- The state with every copy PENDING on the slot ABANDONED (R133). -/
def allDropped (s : State) (x : Slot) : State :=
  { s with catalog := s.catalog.map fun r => State.dropCopies r x }

theorem none_get (x : Slot) (part : Part) : Copies.none.get x part = .notRequired := by
  cases x <;> cases part <;> rfl

/-- Each copy on the slot after SLOT_DROP is one that was dropped, or that of a new record. -/
theorem dropped_records {s u : State} {x : Slot} (h : Calm (allDropped s x) u)
    (hn : s.nextShot < 2 ^ 32) {q : Record} (hq : q ∈ u.catalog) :
    (∃ r, r ∈ s.catalog ∧ q.shot = r.shot ∧ q.copies = (State.dropCopies r x).copies) ∨
      (s.nextShot ≠ 0 ∧ s.nextShot ≤ q.shot ∧ q.copies = Copies.none) := by
  rcases h.kin hn q hq with ⟨y, hy, view⟩ | new
  · obtain ⟨r, hr, rfl⟩ := List.mem_map.mp hy
    exact .inl ⟨r, hr, (view_fields view).1, (view_fields view).2⟩
  · exact .inr new

theorem dropped_work {s u : State} {x : Slot} (h : Calm (allDropped s x) u)
    (hn : s.nextShot < 2 ^ 32) : u.slotWork x = [] := by
  refine slotWork_nil.mpr fun q hq part => ?_
  rcases dropped_records h hn hq with ⟨r, -, -, hc⟩ | ⟨-, -, hc⟩
  · rw [hc]
    exact dropCopies_done r x part
  · rw [hc, none_get]
    simp [Copy.notRequired]

/-- Settles O45. -/
theorem cardSpaceRequests : Obligations.CardSpaceRequests := by
  intro s p tag x chooses
  refine ⟨?_, fun first count ha hs => ?_, fun ha hb => ?_, fun ha hb => ?_, fun ha hn => ?_⟩
  · intro first count ha h1 h2 h3 hb hl l
    obtain ⟨t, he, replied, others, slots, views⟩ := exec_chooses
      (r := .cardSpace (.is x) first count) ha (serveCardSpace_appends (p := p) (tag := tag) h1 h2 h3 hb hl)
    generalize hv : (s.openRequest p (Request.cardSpace (.is x) first count).kind tag).setSlot x
      (withRun (s.slot x) first count) = v at slots views
    have slot : v.slot x = withRun (s.slot x) first count := by rw [← hv]; simp
    have slot_other : ∀ y, y ≠ x → v.slot y = s.slot y := fun y hy => by
      rw [← hv, State.slot_setSlot_other _ _ _ _ hy, openRequest_slot]
    have work : v.slotWork x = s.slotWork x := by rw [← hv]; simp
    have find : ∀ n, v.findRecord n = s.findRecord n := fun n => by rw [← hv]; simp
    have may : Chooses v x ↔ chooses := by
      rw [← hv]
      exact chooses_set
    have kept : ∀ y, y ≠ x → t.slot y = s.slot y := fun y hy => by
      rw [slots, chooseWork_slot_other v hy, slot_other y hy]
    refine ⟨fun hw => ?_, ?_⟩
    · by_cases hc : chooses
      · have nothing : s.slotWork x = [] := hw.resolve_right fun h => h hc
        have here := slots x
        rw [chooseWork_nothing (may.mpr hc) (work.trans nothing), State.slot_setSlot_self,
          slot] at here
        exact ⟨t, he, replied, by rw [here]; rfl, fun _ => by rw [here], fun h => absurd hc h,
          kept, others⟩
      · have here := slots x
        rw [chooseWork_not (mt may.mp hc), slot] at here
        exact ⟨t, he, replied, by rw [here]; rfl, fun h => absurd h hc, fun _ => by rw [here]; rfl,
          kept, others⟩
    · intro n part rest r hc hw hr bytes
      have hw := work.trans hw
      have hr := (find n).trans hr
      refine ⟨fun hpos hfit => ?_, fun hfit => ?_⟩
      · have starts := chooseWork_starts (may.mpr hc) hw hr (by rw [slot]; exact hfit) hpos
        have here := slots x
        rw [starts, startCopy_slot, slot] at here
        refine ⟨t, startedFlight v x r part, he, replied, by rw [here], by rw [here]; rfl,
          by rw [here], findRecord_shot hr, rfl, by simp only [startedFlight, slot]; rfl, rfl,
          by simp only [startedFlight, slot]; rfl, by simp only [startedFlight, slot]; rfl,
          fun q hq hs => ?_⟩
        obtain ⟨y, hy, view⟩ := views_mem views hq
        rw [starts, startCopy_catalog] at hy
        obtain ⟨z, -, rfl⟩ := List.mem_map.mp hy
        obtain ⟨shot, copies⟩ := view_fields view
        rw [copies]
        split
        · exact congrArg Copy.state (get_set_self _ _ _ _)
        · next hz =>
          rw [if_neg hz] at shot
          exact absurd (shot.symm.trans (hs.trans (findRecord_shot hr).symm)) hz
      · have starved := chooseWork_starved (may.mpr hc) hw hr fun h => by
          have := hfit.symm.trans (slot ▸ h.1 : fits (withRun (s.slot x) first count).space _ = true)
          cases this
        have here := slots x
        rw [starved, State.slot_setSlot_self, slot] at here
        refine ⟨t, he, replied, here, ?_⟩
        rw [views_copies views, starved, State.setSlot_catalog, ← hv, State.setSlot_catalog,
          openRequest_catalog]
  · refine requestsRefused (.cardSpace (.is x) first count) p tag s _ _ ha ?_
    rcases hs with hs | hs | hs <;> simp [refusal, slotCase, hs]
  · have served : (Request.cardSpaceClear (.is x)).service p
        (s.openRequest p (Request.cardSpaceClear (.is x)).kind tag) =
        ((((s.openRequest p (Request.cardSpaceClear (.is x)).kind tag).setSlot x
          { s.slot x with space := [] }).chooseWork x).settle, .answer .ok .empty) := by
      show serveCardSpaceClear (.is x) _ = _
      unfold serveCardSpaceClear withSlot
      dsimp only
      rw [openRequest_slot]
      exact if_neg hb
    obtain ⟨t, he, replied, others, slots, views⟩ := exec_chooses ha served
    generalize hv : (s.openRequest p (Request.cardSpaceClear (.is x)).kind tag).setSlot x
      { s.slot x with space := [] } = v at slots views
    have slot : v.slot x = { s.slot x with space := [] } := by rw [← hv]; simp
    have work : v.slotWork x = s.slotWork x := by rw [← hv]; simp
    have may : Chooses v x ↔ chooses := by
      rw [← hv]
      exact chooses_set
    have kept : ∀ y, y ≠ x → t.slot y = s.slot y := fun y hy => by
      rw [slots, chooseWork_slot_other v hy, ← hv, State.slot_setSlot_other _ _ _ _ hy,
        openRequest_slot]
    have copies : (v.chooseWork x).catalog = v.catalog →
        t.catalog.map Record.copies = s.catalog.map Record.copies := fun h => by
      rw [views_copies views, h, ← hv, State.setSlot_catalog, openRequest_catalog]
    have here := slots x
    rcases chooseWork_cases v x with ⟨hn, hq⟩ | ⟨hc, hw, hq⟩ | ⟨hc, hw, hq⟩ |
      ⟨n, part, rest, r, hc, hw, hr, hfit, hpos, hq⟩
    · rw [hq, slot] at here
      exact ⟨t, he, replied, by rw [here], by rw [here], kept, fun h => absurd (may.mpr h) hn,
        fun h => absurd (may.mpr h) hn, fun _ => by rw [here], copies (by rw [hq]), others⟩
    · rw [hq, State.slot_setSlot_self, slot] at here
      exact ⟨t, he, replied, by rw [here], by rw [here], kept, fun _ _ => by rw [here],
        fun _ h => absurd (work.symm.trans hw) h, fun h => absurd (may.mp hc) h,
        copies (by rw [hq, State.setSlot_catalog]), others⟩
    · rw [hq, State.slot_setSlot_self, slot] at here
      exact ⟨t, he, replied, by rw [here], by rw [here], kept,
        fun _ h => absurd (work.trans h) hw, fun _ _ => by rw [here],
        fun h => absurd (may.mp hc) h, copies (by rw [hq, State.setSlot_catalog]), others⟩
    · exfalso
      rw [slot] at hfit
      have pos : 0 < sectorsFor (headBytes x r part) := by
        unfold sectorsFor
        exact Nat.div_pos (by omega) (by decide)
      simp [fits, totalSectors] at hfit
      omega
  · exact requestsRefused (.cardSpaceClear (.is x)) p tag s _ _ ha
      (by simp [refusal, slotCase, hb])
  · generalize ho : s.openRequest p (Request.slotDrop (.is x)).kind tag = o
    have slots : ∀ y, o.slot y = s.slot y := fun y => ho ▸ openRequest_slot s p _ tag y
    have catalog : o.catalog = s.catalog := ho ▸ openRequest_catalog s p _ tag
    have next : o.nextShot = s.nextShot := ho ▸ openRequest_nextShot s p _ tag
    have work : o.slotWork x = s.slotWork x := ho ▸ openRequest_slotWork s p _ tag x
    generalize hu : (allDropped o x).releaseAll ((s.slotWork x).map Prod.fst) = u
    have served : (Request.slotDrop (.is x)).service p o =
        ((u.chooseWork x).settle, .answer .ok (.dropped (s.slotWork x).length)) := by
      show serveSlotDrop (.is x) o = _
      unfold serveSlotDrop withSlot
      dsimp only
      rw [work, ← hu]
      rfl
    have calm : Calm (allDropped o x) u := hu ▸ releaseAll_calm _ _
    have inner : Inner (allDropped o x) u := hu ▸ releaseAll_inner _ _
    have dropped := dropped_work calm (next ▸ hn)
    have ports : SamePorts o (allDropped o x) := .of_prt rfl
    obtain ⟨t, he, replied, others, -, q, rfl⟩ := exec_replied (r := .slotDrop (.is x)) ha
      (ho ▸ served) (ho ▸ ports.trans
        ((inner.trans (chooseWork_inner u x)).trans (settle_inner _)).ports)
    have same : (u.chooseWork x).catalog = u.catalog ∧
        ((u.chooseWork x).slot x).space = (s.slot x).space ∧
        ((u.chooseWork x).slot x).faults = (s.slot x).faults ∧
        ((u.chooseWork x).slot x).flight = (s.slot x).flight := by
      have slot : u.slot x = s.slot x := (slot_of_med calm.med x).trans (slots x)
      rw [← slot]
      by_cases hc : Chooses u x
      · rw [chooseWork_nothing hc dropped, State.setSlot_catalog, State.slot_setSlot_self]
        exact ⟨rfl, rfl, rfl, rfl⟩
      · rw [chooseWork_not hc]
        exact ⟨rfl, rfl, rfl, rfl⟩
    obtain ⟨records, space, faults, flight⟩ := same
    have views := settle_views (u.chooseWork x)
    rw [records] at views
    refine ⟨_, he, replied, slotWork_nil.mpr fun r hr part => ?_, others, ?_, ?_, ?_,
      fun hc r y part hr hy hs => ?_⟩
    · rw [State.setPort_catalog] at hr
      obtain ⟨y, hy, view⟩ := views_mem views hr
      rw [(view_fields view).2]
      exact slotWork_nil.mp dropped y hy part
    · rw [State.slot_setPort, settle_slot, space]
    · rw [State.slot_setPort, settle_slot, faults]
    · rw [State.slot_setPort, settle_slot, flight]
    · rw [State.setPort_catalog] at hy
      obtain ⟨z, hz, view⟩ := views_mem views hy
      obtain ⟨shot, copies⟩ := view_fields view
      rw [copies]
      rcases dropped_records calm (next ▸ hn) hz with ⟨v, hv, hvs, hvc⟩ | ⟨h0, hle, -⟩
      · have mem : v ∈ s.catalog := catalog ▸ hv
        have same : v = r := eq_of_nodup_map (catalog_nodup hc) mem hr
          (hvs.symm.trans (shot.symm.trans hs))
        rw [hvc, same]
        exact dropCopies_get r x part
      · have below := (hc.2.2 r.shot (List.mem_map_of_mem hr)).2.2
        rw [next] at h0 hle
        omega

end Sys2Proof.Machine
end

section
/-! PROOFS. SLOT_RESET and the end of a re-initialisation (R132). -/
namespace Sys2Proof.Machine

/-- The reply of the SLOT_RESET that waits, if its asker has not gone, is formed (R132). -/
def ResetReplied (r : Reinit) (st : Status) (s t : State) : Prop :=
  r.asked = true → ∀ o, s.prt.body.request = some o →
    t.prt.body.request = some { o with stage := .answered } ∧
    t.prt.body.replies = fillPlace s.prt.body.replies ⟨.request o.kind, o.tag, st, .empty⟩

theorem ResetReplied.ports {r : Reinit} {st : Status} {s t u : State} (h : ResetReplied r st s t)
    (p : SamePorts t u) : ResetReplied r st s u := fun asked o ho => by
  obtain ⟨request, replies⟩ := h asked o ho
  exact ⟨p.body.request.trans request, p.body.replies.trans replies⟩

/-- What the end of a re-initialisation leaves. -/
structure ReinitEnded (x : Slot) (r : Reinit) (st : Status) (s t : State) : Prop where
  slot : t.slot x = { s.slot x with reinit := none }
  others : ∀ y, y ≠ x → t.slot y = s.slot y
  catalog : t.catalog = s.catalog
  power : t.pwc.power = s.pwc.power
  reply : ResetReplied r st s t

theorem endReinit_ended {s : State} {x : Slot} {r : Reinit} (hr : (s.slot x).reinit = some r)
    (st : Status) : ReinitEnded x r st s (s.endReinit x st) := by
  have base : ReinitEnded x { r with asked := false } st s
      (s.setSlot x { s.slot x with reinit := none }) :=
    ⟨State.slot_setSlot_self _ _ _, fun y hy => State.slot_setSlot_other _ _ _ _ hy,
      State.setSlot_catalog _ _ _, by rw [State.setSlot_pwc], nofun⟩
  have same : (s.setSlot x { s.slot x with reinit := none }).prt = s.prt := State.setSlot_prt _ _ _
  unfold State.endReinit
  rw [hr]
  dsimp only
  generalize s.setSlot x { s.slot x with reinit := none } = u at base same
  split
  case isFalse ha =>
    exact { base with reply := fun asked => absurd asked ha }
  case isTrue =>
    unfold State.formReply
    split
    case h_1 ho =>
      refine { base with reply := fun _ o hs => ?_ }
      cases ho.symm.trans ((congrArg (fun q : Prt => q.body.request) same).trans hs)
    case h_2 o ho =>
      refine ⟨by rw [State.slot_setPort, base.slot], fun y hy => by
        rw [State.slot_setPort, base.others y hy], by rw [State.setPort_catalog, base.catalog],
        by rw [State.setPort_pwc, base.power], fun _ o' hs => ?_⟩
      cases ho.symm.trans ((congrArg (fun q : Prt => q.body.request) same).trans hs)
      exact ⟨rfl, congrArg (fun q : Prt => fillPlace q.body.replies
        ⟨.request o.kind, o.tag, st, .empty⟩) same⟩

/-! ### The card does not answer -/

theorem resetFailed_spec {s : State} {x : Slot} {r : Reinit} (hr : (s.slot x).reinit = some r) :
    (s.resetFailed x).slot x = { s.slot x with state := .fault, reinit := none } ∧
      ResetReplied r .state s (s.resetFailed x) ∧
      ∀ y, y ≠ x → (s.resetFailed x).slot y = s.slot y := by
  have ended := endReinit_ended hr .state
  unfold State.resetFailed
  dsimp only
  refine ⟨by rw [State.slot_setSlot_self, ended.slot],
    ended.reply.ports (.of_prt (State.setSlot_prt _ _ _)), fun y hy => ?_⟩
  rw [State.slot_setSlot_other _ _ _ _ hy, ended.others y hy]

/-! ### The card answers -/

theorem chooseWork_reinit (s : State) (x : Slot) :
    ((s.chooseWork x).slot x).reinit = (s.slot x).reinit := by
  rcases chooseWork_cases s x with ⟨-, he⟩ | ⟨-, -, he⟩ | ⟨-, -, he⟩ |
    ⟨n, part, rest, r, -, -, -, -, -, he⟩
  · rw [he]
  · rw [he, State.slot_setSlot_self]
  · rw [he, State.slot_setSlot_self]
  · rw [he, startCopy_slot]

/-- A READY slot with nothing to choose, or in SAVING, stays READY with its list. -/
theorem chooseWork_ready {s : State} {x : Slot} (hs : (s.slot x).state = .ready)
    (h : s.slotWork x = [] ∨ s.pwc.power = .saving) :
    ((s.chooseWork x).slot x).state = .ready ∧
      ((s.chooseWork x).slot x).space = (s.slot x).space := by
  by_cases hc : Chooses s x
  · rw [chooseWork_nothing hc (h.resolve_right hc.2.1), State.slot_setSlot_self]
    exact ⟨rfl, rfl⟩
  · rw [chooseWork_not hc]
    exact ⟨hs, rfl⟩

theorem slotWork_congr {s t : State} (h : t.catalog = s.catalog) (x : Slot) :
    t.slotWork x = s.slotWork x := by
  unfold State.slotWork
  rw [h]

theorem resetAnswered_spec {s : State} {x : Slot} {r : Reinit} (hr : (s.slot x).reinit = some r) :
    ((s.resetAnswered x).slot x).reinit = none ∧ ResetReplied r .ok s (s.resetAnswered x) ∧
      (s.slotWork x = [] ∨ s.pwc.power = .saving →
        ((s.resetAnswered x).slot x).state = .ready ∧
          ((s.resetAnswered x).slot x).space = (s.slot x).space) ∧
      ∀ y, y ≠ x → (s.resetAnswered x).slot y = s.slot y := by
  have ended := endReinit_ended hr .ok
  unfold State.resetAnswered
  dsimp only
  generalize s.endReinit x .ok = u at ended ⊢
  have slot : (u.setSlot x { u.slot x with state := .ready }).slot x =
      { s.slot x with state := .ready, reinit := none } := by
    rw [State.slot_setSlot_self, ended.slot]
  refine ⟨?_, ?_, fun h => ?_, fun y hy => ?_⟩
  · rw [settle_slot, chooseWork_reinit, slot]
  · exact (ended.reply.ports (.of_prt (State.setSlot_prt _ _ _))).ports
      ((chooseWork_inner _ x).trans (settle_inner _)).ports
  · have work : (u.setSlot x { u.slot x with state := .ready }).slotWork x = s.slotWork x := by
      rw [slotWork_setSlot, slotWork_congr ended.catalog]
    obtain ⟨state, space⟩ := chooseWork_ready (x := x)
      (s := u.setSlot x { u.slot x with state := .ready }) (by rw [slot])
      (by rw [work, State.setSlot_pwc, ended.power]; exact h)
    rw [settle_slot]
    exact ⟨state, by rw [space, slot]⟩
  · rw [settle_slot, chooseWork_slot_other _ hy, State.slot_setSlot_other _ _ _ _ hy,
      ended.others y hy]

/-! ### The card is removed -/

/-- The slot holds no card and copies nothing. -/
structure CardAway (x : Slot) (r : Option Reinit) (t : State) : Prop where
  state : (t.slot x).state = .absent
  space : (t.slot x).space = []
  flight : (t.slot x).flight = none
  reinit : (t.slot x).reinit = r

theorem CardAway.slot {x : Slot} {r : Option Reinit} {s t : State} (h : CardAway x r s)
    (e : t.slot x = s.slot x) : CardAway x r t :=
  ⟨by rw [e]; exact h.state, by rw [e]; exact h.space, by rw [e]; exact h.flight,
    by rw [e]; exact h.reinit⟩

theorem setSlot_away {s : State} {x : Slot} {q : SlotSt} {r : Option Reinit}
    (hs : q.state = .absent) (hp : q.space = []) (hf : q.flight = none) (hr : q.reinit = r) :
    CardAway x r (s.setSlot x q) := by
  constructor <;> simp [hs, hp, hf, hr]

/-- The copy of a DELETING shot whose card is removed is done (R25). -/
def discardedCopy (s : State) (x : Slot) (f : Flight) : State :=
  s.fresh.modCopy f.shot x f.part fun c =>
    { c with state := discardedCopyState s.freeCount, placement := none }

/-- A removal past the end of a re-initialisation keeps the requests. -/
theorem removeCard_away (s : State) (x : Slot) : CardAway x ((s.endReinit x .state).slot x).reinit
    (s.removeCard x) ∧ SamePorts (s.endReinit x .state) (s.removeCard x) ∧
      (s.removeCard x).pins = (s.endReinit x .state).pins := by
  unfold State.removeCard
  dsimp only
  generalize s.endReinit x .state = u
  split
  case h_1 hf =>
    exact ⟨setSlot_away rfl rfl hf rfl, .of_prt (State.setSlot_prt _ _ _),
      State.setSlot_pins _ _ _⟩
  case h_2 f hf =>
    have away : CardAway x (u.slot x).reinit ((u.discardMed x).setSlot x
        { u.slot x with state := .absent, space := [], flight := none }) :=
      setSlot_away rfl rfl rfl rfl
    have ports : SamePorts u ((u.discardMed x).setSlot x
        { u.slot x with state := .absent, space := [], flight := none }) :=
      (discardMed_inner u x).ports.trans (.of_prt (State.setSlot_prt _ _ _))
    have pins : ((u.discardMed x).setSlot x
        { u.slot x with state := .absent, space := [], flight := none }).pins = u.pins := by
      rw [State.setSlot_pins]
      exact (discardMed_inner u x).pins
    generalize (u.discardMed x).setSlot x
      { u.slot x with state := .absent, space := [], flight := none } = v at away ports pins
    split
    · exact ⟨away, ports, pins⟩
    · split
      · have ended := settleDeleting_inner (discardedCopy v x f) f.shot f.part f.version
        have calm := settleDeleting_calm (discardedCopy v x f) f.shot f.part f.version
        have ports' : SamePorts v (discardedCopy v x f) := .of_prt rfl
        exact ⟨away.slot ((slot_of_med calm.med x).trans (by cases x <;> rfl)),
          ports.trans (ports'.trans ended.ports), ended.pins.trans pins⟩
      · exact ⟨away.slot (by cases x <;> rfl), ports.trans (.of_prt rfl), pins⟩

theorem saveTest_slot (s : State) (x : Slot) : s.saveTest.slot x = s.slot x := by
  unfold State.saveTest
  split
  · cases x <;> rfl
  · rfl

theorem setDetect_rest (s : State) (x : Slot) (level : Bool) :
    (s.setDetect x level).med = s.med ∧ (s.setDetect x level).prt = s.prt ∧
      (s.setDetect x level).catalog = s.catalog ∧ (s.setDetect x level).cardDetect x = level := by
  cases x <;> exact ⟨rfl, rfl, rfl, rfl⟩

theorem endReinit_pins (s : State) (x : Slot) (st : Status) :
    (s.endReinit x st).pins = s.pins := by
  unfold State.endReinit
  split
  · rfl
  · dsimp only
    split
    · unfold State.formReply
      split
      · exact State.setSlot_pins _ _ _
      · rw [State.setPort_pins]
        exact State.setSlot_pins _ _ _
    · exact State.setSlot_pins _ _ _

theorem cardGone_away {s : State} {x : Slot} {r : Reinit} (hr : (s.slot x).reinit = some r) :
    CardAway x none (s.cardGone x) ∧
      ResetReplied r .state s (s.cardGone x) ∧ (s.cardGone x).cardDetect x = false := by
  obtain ⟨med, prt, -, detect⟩ := setDetect_rest s x false
  have slot : ∀ y, (s.setDetect x false).slot y = s.slot y := slot_of_med med
  have ended := endReinit_ended (s := s.setDetect x false) (by rw [slot]; exact hr) .state
  obtain ⟨away, ports, pins⟩ := removeCard_away (s.setDetect x false) x
  have inner := (saveTest_inner ((s.setDetect x false).removeCard x)).trans (settle_inner _)
  have last : (s.cardGone x).slot x = ((s.setDetect x false).removeCard x).slot x := by
    unfold State.cardGone
    rw [settle_slot, saveTest_slot]
  have away : CardAway x _ (s.cardGone x) := away.slot last
  refine ⟨⟨away.state, away.space, away.flight, ?_⟩, ?_, ?_⟩
  · rw [away.reinit, ended.slot]
  · have reply := (ended.reply.ports ports).ports inner.ports
    intro asked o ho
    have found := reply asked o (prt ▸ ho)
    rw [prt] at found
    exact found
  · have kept : (s.cardGone x).pins = (s.setDetect x false).pins :=
      inner.pins.trans (pins.trans (endReinit_pins _ x .state))
    cases x
    · exact (congrArg Pins.cardA kept).trans detect
    · exact (congrArg Pins.cardB kept).trans detect

/-! ### The statement -/

theorem rangeMicros_eq (q : TimeoutRange) :
    rangeMicros q = if q = .short then 250000 else 2000000 := by
  cases q <;> rfl

/-- SLOT_RESET_DONE where a re-initialisation is under way. -/
theorem exec_slotResetDone {s : State} {x : Slot} {r : Reinit} (hr : (s.slot x).reinit = some r)
    (outcome : ResetOutcome) : exec (.slotResetDone x outcome) s =
      (match outcome with
        | .answered => if elapsed r.since s.now ≤ rangeMicros r.range then .next (s.resetAnswered x)
          else .next (s.resetFailed x)
        | .timedOut => if rangeMicros r.range ≤ elapsed r.since s.now then .next (s.resetFailed x)
          else .next s
        | .removed => .next (s.cardGone x)) := by
  show execSlotResetDone x outcome s = _
  unfold execSlotResetDone
  split
  case h_1 h => cases hr.symm.trans h
  case h_2 q h =>
    cases hr.symm.trans h
    cases outcome <;> rfl

/-- Settles O46. -/
theorem slotResets : Obligations.SlotResets := by
  intro s x
  refine ⟨fun p tag ha hb hn => ?_, ?_⟩
  · refine exec_waits (r := .slotReset (.is x)) ha ?_
    show serveSlotReset (.is x) _ = _
    unfold serveSlotReset withSlot
    dsimp only
    rw [openRequest_slot, openRequest_setSlot]
    have now : (s.openRequest p (Request.slotReset (.is x)).kind tag).now = s.rsq.timeBase :=
      congrArg Rsq.timeBase (openRequest_rsq s p _ tag)
    rw [now]
    split
    · exact absurd ‹_› hb
    · exact absurd ‹_› hn
    · rfl
  · intro r hr reply range waited
    have range_eq : rangeMicros r.range = range := rangeMicros_eq r.range
    have waited_eq : elapsed r.since s.now = waited := rfl
    have answered := exec_slotResetDone hr .answered
    have timedOut := exec_slotResetDone hr .timedOut
    have removed := exec_slotResetDone hr .removed
    dsimp only at answered timedOut removed
    rw [range_eq, waited_eq] at answered timedOut
    obtain ⟨fault, failed, kept⟩ := resetFailed_spec hr
    obtain ⟨reinit, replied, ready, others⟩ := resetAnswered_spec hr
    obtain ⟨away, gone, detect⟩ := cardGone_away hr
    exact ⟨fun h => ⟨_, answered.trans (if_pos h), reinit, replied, ready, others⟩,
      fun h => ⟨_, answered.trans (if_neg (Nat.not_le.mpr h)), fault, failed, kept⟩,
      fun h => ⟨_, timedOut.trans (if_pos h), fault, failed, kept⟩,
      _, removed, away.state, away.space, away.flight, away.reinit, detect, gone⟩

end Sys2Proof.Machine
end

section
/-! PROOFS. The relay queue (R141, R142). -/
namespace Sys2Proof.Machine

/-! ### Requests that end in a cascade -/

/-- A request whose service changes a state and lets a cascade follow. -/
theorem exec_cascade {s o u v : State} {p : Port} {r : Request} (ha : Accepts s p r.kind)
    {tag : Byte} {st : Status} {pl : Payload} (ho : s.openRequest p r.kind tag = o)
    (hs : r.service p o = (v, .answer st pl)) (hp : SamePorts o u) (hi : Inner u v) :
    ∃ t, exec (r.row p tag) s = .next t ∧ RepliedIn s t p r.kind tag st pl ∧ OthersKept s t p ∧
      t.snq = v.snq ∧ t.catalog = v.catalog ∧ t.phc = v.phc ∧ t.med = v.med ∧ t.pwc = v.pwc := by
  subst ho
  obtain ⟨t, he, replied, others, -, q, rfl⟩ := exec_replied ha hs (hp.trans hi.ports)
  exact ⟨_, he, replied, others, by simp, by simp, by simp, by simp, by simp⟩

/-- A record of a number that was issued before a cascade is one that was there. -/
theorem Calm.issued {s t : State} (h : Calm s t) {n : Nat} (hn : s.nextShot < 2 ^ 32)
    (hi : s.nextShot = 0 ∨ n < s.nextShot) {r : Record} (hr : r ∈ t.catalog) (hs : r.shot = n) :
    ∃ q, q ∈ s.catalog ∧ q.shot = n ∧ r.view = q.view := by
  rcases h.kin hn r hr with ⟨q, hq, view⟩ | ⟨h0, hle, -⟩
  · exact ⟨q, hq, (view_fields view).1.symm.trans hs, view⟩
  · omega

theorem issued_of_find {s : State} (hc : CatalogOk s) {n : Nat}
    (hr : (s.findRecord n).isSome = true) : s.nextShot = 0 ∨ n < s.nextShot := by
  obtain ⟨r, hr⟩ := Option.isSome_iff_exists.mp hr
  exact (Regular.of_find hc hr).issued

theorem modRecord_own {s : State} {n : Nat} {g : Record → Record} {q : Record}
    (hq : q ∈ (s.modRecord n g).catalog) (hs : q.shot = n) : ∃ r, r ∈ s.catalog ∧ q = g r := by
  obtain ⟨r, hr, rfl⟩ := List.mem_map.mp hq
  split at hs
  · next h => exact ⟨r, hr, if_pos h⟩
  · next h => exact absurd hs h

/-! ### SEND_NEXT -/

theorem openRequest_modRelay (s : State) (p : Port) (k : RequestKind) (tag : Byte) (n : Nat)
    (st : RelayState) (f : RelayEntry → RelayEntry) :
    (s.openRequest p k tag).modRelay n st f = (s.modRelay n st f).openRequest p k tag := by
  cases p <;> rfl

@[simp] theorem openRequest_nextRelay (s : State) (p : Port) (k : RequestKind) (tag : Byte) :
    (s.openRequest p k tag).nextRelay = s.nextRelay := by
  cases p <;> rfl

@[simp] theorem openRequest_relayInFlight (s : State) (p : Port) (k : RequestKind) (tag : Byte) :
    (s.openRequest p k tag).relayInFlight = s.relayInFlight := by
  cases p <;> rfl

theorem nextRelay_some {s : State} {e : RelayEntry}
    (h : (s.snq.relay.find? fun q => q.state == .ready && q.cls == .priority) = some e ∨
      ((∀ q, q ∈ s.snq.relay → q.state = .ready → q.cls ≠ .priority) ∧
        (s.snq.relay.find? fun q => q.state == .ready) = some e)) : s.nextRelay = some e := by
  unfold State.nextRelay
  rcases h with h | ⟨none_, h⟩
  · rw [h]
  · have absent : (s.snq.relay.find? fun q => q.state == .ready && q.cls == .priority) = none :=
      List.find?_eq_none.mpr fun q hq => by simpa using none_ q hq
    rw [absent]
    exact h

theorem nextRelay_none {s : State} (h : ∀ q, q ∈ s.snq.relay → q.state ≠ .ready) :
    s.nextRelay = none := by
  have absent : (s.snq.relay.find? fun q => q.state == .ready && q.cls == .priority) = none :=
    List.find?_eq_none.mpr fun q hq => by simp [h q hq]
  unfold State.nextRelay
  rw [absent]
  exact List.find?_eq_none.mpr fun q hq => by simpa using h q hq

theorem serveSendNext_takes {s : State} {e : RelayEntry} {r : Record} {v : Version}
    (hf : s.relayInFlight < 2) (he : s.nextRelay = some e) (hr : s.findRecord e.shot = some r)
    (hv : r.current = some v) : serveSendNext s = okWith
      (s.modRelay e.shot .inFlight fun q => { q with state := .inFlight, version := some v.number })
      (.sendNext (some ⟨e.shot, e.cls, e.failures, v.number, v.scale, v.size, v.checksum⟩)) := by
  have hb : (s.findRecord e.shot).bind Record.current = some v := by rw [hr]; exact hv
  unfold serveSendNext
  rw [if_neg (Nat.not_le.mpr hf), he]
  dsimp only
  rw [hb]

theorem serveSendNext_nothing {s : State} (hf : s.relayInFlight < 2) (he : s.nextRelay = none) :
    serveSendNext s = okWith s (.sendNext none) := by
  unfold serveSendNext
  rw [if_neg (Nat.not_le.mpr hf), he]

/-! ### The end of a send -/

theorem settleRelay_acts {s : State} {n : Nat} {e : RelayEntry} (h : s.relayEntry n = some e)
    (hf : e.state = .inFlight) (act : RelayEntry → State) :
    settleRelay n s act = okWith (act e) .empty := by
  unfold settleRelay
  rw [h]
  exact if_pos hf

/-- A record that left the relay queue has its SEND tags cleared. -/
theorem removeRelay_record {s : State} {n : Nat} {st : RelayState} {q : Record}
    (hq : q ∈ (s.removeRelay n st).catalog) (hs : q.shot = n) :
    q.relay = st ∧ q.tags.send = false ∧ q.tags.priority = false := by
  obtain ⟨r, -, rfl⟩ := modRecord_own (g := fun r => { r with
    relay := st, tags := { r.tags with send := false, priority := false } }) hq hs
  exact ⟨rfl, rfl, rfl⟩

theorem view_sending {q r : Record} (h : q.view = r.view) : q.relay = r.relay ∧ q.tags = r.tags :=
  ⟨congrArg RecordView.relay h, congrArg RecordView.tags h⟩

/-- Settles O47. -/
theorem relayQueueRequests : Obligations.RelayQueueRequests := by
  intro s p tag flying
  refine ⟨fun e r v ha hf he hr hv => ?_, fun ha hf hn => ?_, fun ha hf => ?_,
    fun n e ha he hs hc hr => ?_, fun n e ha he hs hc hr => ?_, fun n ha he => ?_,
    fun n e ha he hs => ?_⟩
  · refine exec_answered (r := .sendNext) ha ?_
    show serveSendNext _ = _
    rw [serveSendNext_takes (e := e) (r := r) (v := v) (by rw [openRequest_relayInFlight]; exact hf)
      (by rw [openRequest_nextRelay]; exact nextRelay_some he) (by simpa using hr) hv,
      openRequest_modRelay]
    rfl
  · refine exec_answered (r := .sendNext) ha ?_
    exact serveSendNext_nothing (by rw [openRequest_relayInFlight]; exact hf)
      (by rw [openRequest_nextRelay]; exact nextRelay_none hn)
  · exact requestsRefused .sendNext p tag s _ _ ha (by
      simp only [refusal, firstCase_cons]
      exact if_pos (decide_eq_true hf))
  · generalize ho : s.openRequest p (Request.sendDone n).kind tag = o
    have catalog : o.catalog = s.catalog := ho ▸ openRequest_catalog s p _ tag
    have next : o.nextShot = s.nextShot := ho ▸ openRequest_nextShot s p _ tag
    have snq : o.snq = s.snq := ho ▸ openRequest_snq s p _ tag
    have rest : o.phc = s.phc ∧ o.med = s.med ∧ o.pwc = s.pwc := ho ▸
      ⟨openRequest_phc s p _ tag, openRequest_med s p _ tag, openRequest_pwc s p _ tag⟩
    have served : (Request.sendDone n).service p o =
        (((o.removeRelay n .sent).releaseTests n).settle, .answer .ok .empty) :=
      settleRelay_acts (e := e) (ho ▸ (openRequest_relayEntry s p _ tag n).trans he) hs _
    have calm := (releaseTests_calm (o.removeRelay n .sent) n).trans (settle_calm _)
    obtain ⟨t, hex, replied, others, tsnq, tcat, tphc, tmed, tpwc⟩ := exec_cascade
      (r := .sendDone n) ha ho served (SamePorts.of_prt (s := o)
        (t := o.removeRelay n .sent) rfl) ((releaseTests_inner _ n).trans (settle_inner _))
    refine ⟨t, hex, replied, ?_, fun r hm hrs => ?_, (tphc.trans calm.phc).trans rest.1,
      (tmed.trans calm.med).trans rest.2.1, (tpwc.trans calm.pwc).trans rest.2.2, others⟩
    · rw [tsnq, calm.relay]
      exact congrArg (fun q : Snq => q.relay.filter fun e => e.shot != n) snq
    · obtain ⟨q, hq, hqs, view⟩ := calm.issued (n := n) (next.symm ▸ hc.1)
        (next.symm ▸ issued_of_find hc hr) (tcat ▸ hm) hrs
      obtain ⟨relay, tags⟩ := view_sending view
      rw [relay, tags]
      exact removeRelay_record hq hqs
  · generalize ho : s.openRequest p (Request.sendFail n).kind tag = o
    have next : o.nextShot = s.nextShot := ho ▸ openRequest_nextShot s p _ tag
    have snq : o.snq = s.snq := ho ▸ openRequest_snq s p _ tag
    have rest : o.phc = s.phc ∧ o.med = s.med ∧ o.pwc = s.pwc := ho ▸
      ⟨openRequest_phc s p _ tag, openRequest_med s p _ tag, openRequest_pwc s p _ tag⟩
    have entry : o.relayEntry n = some e := ho ▸ (openRequest_relayEntry s p _ tag n).trans he
    have served : (Request.sendFail n).service p o = _ := settleRelay_acts entry hs _
    by_cases hf : e.failures < 2
    · have served := served.trans (congrArg (okWith · .empty) (if_pos hf))
      generalize hu : (o.modRelay n .queued fun q =>
        { q with state := .ready, failures := q.failures + 1, version := none }) = u at served
      have ports : SamePorts o u := hu ▸ .of_prt rfl
      have calm := (notify_calm u .relay (.sendReady n false)).trans
        ((releaseTests_calm _ n).trans (settle_calm _))
      obtain ⟨t, hex, replied, others, tsnq, tcat, tphc, tmed, tpwc⟩ := exec_cascade
        (r := .sendFail n) ha ho served ports
        ((notify_inner u .relay (.sendReady n false)).trans
          ((releaseTests_inner _ n).trans (settle_inner _)))
      have own : u.phc = o.phc ∧ u.med = o.med ∧ u.pwc = o.pwc ∧ u.nextShot = o.nextShot ∧
          u.snq.relay = o.snq.relay.map fun q => if q.shot = n then
            { q with state := .ready, failures := q.failures + 1, version := none } else q :=
        hu ▸ ⟨rfl, rfl, rfl, rfl, rfl⟩
      obtain ⟨uphc, umed, upwc, unext, urelay⟩ := own
      have unext := unext.trans next
      refine ⟨t, hex, replied, fun _ => ⟨?_, fun r hm hrs => ?_⟩, fun h => absurd hf (by omega),
        (tphc.trans calm.phc).trans (uphc.trans rest.1),
        (tmed.trans calm.med).trans (umed.trans rest.2.1),
        (tpwc.trans calm.pwc).trans (upwc.trans rest.2.2), others⟩
      · rw [tsnq, calm.relay, urelay, snq]
      · obtain ⟨q, hq, hqs, view⟩ := calm.issued (n := n) (unext.symm ▸ hc.1)
          (unext.symm ▸ issued_of_find hc hr) (tcat ▸ hm) hrs
        rw [(view_sending view).1]
        rw [← hu] at hq
        obtain ⟨x, -, rfl⟩ := modRecord_own (g := fun r => { r with relay := .queued })
          hq hqs
        rfl
    · have served := served.trans (congrArg (okWith · .empty) (if_neg hf))
      generalize hu : o.removeRelay n .sendFailed = u at served
      have ports : SamePorts o u := hu ▸ .of_prt rfl
      have calm := (notify_calm u .body (.sendReady n true)).trans
        ((releaseTests_calm _ n).trans (settle_calm _))
      obtain ⟨t, hex, replied, others, tsnq, tcat, tphc, tmed, tpwc⟩ := exec_cascade
        (r := .sendFail n) ha ho served ports
        ((notify_inner u .body (.sendReady n true)).trans
          ((releaseTests_inner _ n).trans (settle_inner _)))
      have own : u.phc = o.phc ∧ u.med = o.med ∧ u.pwc = o.pwc ∧ u.nextShot = o.nextShot ∧
          u.snq.relay = o.snq.relay.filter fun q => q.shot != n := hu ▸ ⟨rfl, rfl, rfl, rfl, rfl⟩
      obtain ⟨uphc, umed, upwc, unext, urelay⟩ := own
      have unext := unext.trans next
      refine ⟨t, hex, replied, fun h => absurd h hf, fun _ => ⟨?_, fun r hm hrs => ?_⟩,
        (tphc.trans calm.phc).trans (uphc.trans rest.1),
        (tmed.trans calm.med).trans (umed.trans rest.2.1),
        (tpwc.trans calm.pwc).trans (upwc.trans rest.2.2), others⟩
      · rw [tsnq, calm.relay, urelay, snq]
      · obtain ⟨q, hq, hqs, view⟩ := calm.issued (n := n) (unext.symm ▸ hc.1)
          (unext.symm ▸ issued_of_find hc hr) (tcat ▸ hm) hrs
        obtain ⟨relay, tags⟩ := view_sending view
        rw [relay, tags]
        exact removeRelay_record (hu ▸ hq) hqs
  · exact requestsRefused (.sendDone n) p tag s _ _ ha
      (by simp [refusal, refusal.relayCase, he])
  · exact requestsRefused (.sendDone n) p tag s _ _ ha
      (by simp [refusal, refusal.relayCase, he, hs])

end Sys2Proof.Machine
end

section
/-! PROOFS. The tether queue (R143 to R145). -/
namespace Sys2Proof.Machine

/-! ### One shot's record through the release tests -/

/-- The send queues stay, and the shot's record keeps a value unless it leaves. -/
structure Kept {α : Type} (v : Record → α) (n : Nat) (s t : State) : Prop where
  snq : t.snq = s.snq
  regular : Regular n s → Regular n t
  find : Regular n s → ∀ q, t.findRecord n = some q → ∃ r, s.findRecord n = some r ∧ v q = v r

theorem Kept.refl {α : Type} (v : Record → α) (n : Nat) (s : State) : Kept v n s s :=
  ⟨rfl, id, fun _ q hq => ⟨q, hq, rfl⟩⟩

theorem Kept.trans {α : Type} {v : Record → α} {n : Nat} {a b c : State} (h : Kept v n a b)
    (k : Kept v n b c) : Kept v n a c where
  snq := k.snq.trans h.snq
  regular := fun r => k.regular (h.regular r)
  find := fun hr q hq => by
    obtain ⟨r, hb, hv⟩ := k.find (h.regular hr) q hq
    obtain ⟨x, ha, hx⟩ := h.find hr r hb
    exact ⟨x, ha, hv.trans hx⟩

theorem Kept.map {α β : Type} {v : Record → α} {n : Nat} {s t : State} (h : Kept v n s t)
    (f : α → β) : Kept (fun r => f (v r)) n s t :=
  ⟨h.snq, h.regular, fun hr q hq =>
    let ⟨r, hs, hv⟩ := h.find hr q hq
    ⟨r, hs, congrArg f hv⟩⟩

/-- An update outside the catalog and the send queues. -/
theorem Kept.plain {α : Type} {v : Record → α} {n : Nat} {s t : State}
    (hc : t.catalog = s.catalog := by rfl) (hn : t.nextShot = s.nextShot := by rfl)
    (hq : t.snq = s.snq := by rfl) : Kept v n s t where
  snq := hq
  regular := fun h => ⟨by unfold CatalogOk; rw [hc, hn]; exact h.order, hn ▸ h.issued⟩
  find := fun _ q h => ⟨q, (findRecord_congr hc n).symm.trans h, rfl⟩

theorem Passes.kept_ {α : Type} {v : Record → α} {n : Nat} {s t : State} (h : Passes n s t) :
    Kept v n s t where
  snq := h.snq
  regular := h.regular
  find := fun hr q hq => by
    cases hs : s.findRecord n with
    | none => cases (h.gone hr hs).symm.trans hq
    | some r =>
      rcases h.kept hr r hs with ht | ⟨-, ht⟩
      · cases ht.symm.trans hq
        exact ⟨_, rfl, rfl⟩
      · cases ht.symm.trans hq

theorem modRecord_kept {α : Type} {v : Record → α} {n : Nat} (s : State) (m : Nat)
    (g : Record → Record) (hv : ∀ r, v (g r) = v r)
    (hs : ∀ r, (g r).shot = r.shot := by intro r; rfl) : Kept v n s (s.modRecord m g) where
  snq := rfl
  regular := fun h => modRecord_order h hs
  find := fun _ q hq => by
    by_cases hm : m = n
    · subst hm
      rw [modRecord_find hs] at hq
      obtain ⟨r, hr, rfl⟩ := Option.map_eq_some_iff.mp hq
      exact ⟨r, hr, hv r⟩
    · rw [modRecord_find_other hm hs] at hq
      exact ⟨q, hq, rfl⟩

/-- What the tether queue's statements read of a record. -/
def Record.sent (r : Record) : TetherState × RawPart := (r.tether, r.raw)

theorem freeVersion_kept (s : State) (n m k : Nat) : Kept Record.sent n s (s.freeVersion m k) := by
  unfold State.freeVersion
  split
  · exact .refl _ n s
  · exact (modRecord_kept s m (fun q => { q with
      versions := q.versions.filter fun v => v.number != k }) fun _ => rfl).trans
      (free_passes n _ _).kept_

theorem versionTests_kept (numbers : List Nat) (s : State) (n m : Nat) :
    Kept Record.sent n s (s.versionTests m numbers) := by
  induction numbers generalizing s with
  | nil => exact .refl _ n s
  | cons k rest ih =>
    unfold State.versionTests
    split
    · exact .refl _ n s
    · split
      · exact ih s
      · split
        · exact (freeVersion_kept s n m k).trans (ih _)
        · exact ih s

theorem cardOnlyTest_kept (s : State) (n m : Nat) : Kept Record.sent n s (s.cardOnlyTest m) := by
  unfold State.cardOnlyTest
  split
  · exact .refl _ n s
  · split
    · exact (modRecord_kept s m (fun q => { q with life := .cardOnly }) fun _ => rfl).trans
        (retryCatalog_passes n _).kept_
    · exact .refl _ n s

/-- Past the raw test the release tests leave tether states and raws alone. -/
theorem releaseTests_kept (s : State) (n m : Nat) :
    Kept Record.sent n (s.rawTest m) (s.releaseTests m) := by
  unfold State.releaseTests
  split
  case h_1 hm =>
    have same : s.rawTest m = s := by
      unfold State.rawTest
      rw [hm]
    rw [same]
    exact .refl _ n s
  case h_2 => exact (versionTests_kept _ _ n m).trans (cardOnlyTest_kept _ n m)

theorem freeRaw_kept (s : State) (n m : Nat) : Kept Record.tether n s (s.freeRaw m) := by
  unfold State.freeRaw
  split
  · exact .refl _ n s
  · exact (modRecord_kept s m (fun q => { q with
      raw := { q.raw with state := .released, extents := [] } }) fun _ => rfl).trans
      (free_passes n _ _).kept_

/-- Without an entry of its shot a raw test leaves every tether state alone. -/
theorem rawTest_kept {s : State} {m : Nat} (h : s.tetherEntry m = none) (n : Nat) :
    Kept Record.tether n s (s.rawTest m) := by
  have same : s.missTether m = s := by
    unfold State.missTether
    rw [h]
  unfold State.rawTest
  split
  · exact .refl _ n s
  · split
    · rw [same]
      exact freeRaw_kept s n m
    · exact .refl _ n s

theorem releaseTests_tether {s : State} {m : Nat} (h : s.tetherEntry m = none) (n : Nat) :
    Kept Record.tether n s (s.releaseTests m) :=
  (rawTest_kept h n).trans ((releaseTests_kept s n m).map Prod.fst)

theorem releaseAll_tether (shots : List Nat) {s : State} (h : s.snq.tether = []) (n : Nat) :
    Kept Record.tether n s (s.releaseAll shots) := by
  induction shots generalizing s with
  | nil => exact .refl _ n s
  | cons m rest ih =>
    have tested := releaseTests_tether (s := s) (m := m) (by simp [State.tetherEntry, h]) n
    unfold State.releaseAll
    exact tested.trans (ih (by rw [tested.snq, h]))

/-! ### The end of a change -/

theorem startJob_kept (s : State) (j : Job) (r : Record) (rec_ : Recipe) (es left : List Run)
    (n : Nat) : Kept Record.sent n s (s.startJob j r rec_ es left) := by
  unfold State.startJob
  dsimp only
  have taken : Kept Record.sent n s { s with freeRuns := left } := .plain
  have begun : ∀ u : State, Kept Record.sent n u (u.beginRow rec_ 0) := fun u => .plain
  have changed : ∀ (u : State) (f : Job → Job), Kept Record.sent n u (u.modJob j f) :=
    fun u f => .plain
  refine .trans ?_ (begun _)
  refine .trans ?_ (changed _ _)
  exact taken.trans (modRecord_kept _ j.shot _ fun _ => rfl)

theorem tryJobs_kept (js : List Job) (s : State) (n : Nat) :
    Kept Record.sent n s (s.tryJobs js) := by
  induction js generalizing s with
  | nil => exact .refl _ n s
  | cons j rest ih =>
    have waits : Kept Record.sent n s ((s.setSpaceWait j).tryJobs rest) :=
      (Kept.plain (t := s.setSpaceWait j)).trans (ih _)
    unfold State.tryJobs
    split
    · exact ih s
    · split
      · exact ih s
      · split
        · exact ih s
        · dsimp only
          split
          · exact startJob_kept s j _ _ _ _ n
          · exact waits
          · exact waits

theorem settle_kept (s : State) (n : Nat) : Kept Record.sent n s s.settle := by
  have granted : Kept Record.sent n s.attemptJob s.settle := by
    show Kept _ n _ s.attemptJob.grant
    unfold State.grant
    split
    · exact .refl _ n _
    · split
      · exact .refl _ n _
      · exact .plain
  refine .trans ?_ granted
  unfold State.attemptJob
  split
  · dsimp only
    have cleared : Kept Record.sent n s { s with dev := { s.dev with attemptDue := false } } :=
      .plain
    split
    · exact cleared.trans (tryJobs_kept _ _ n)
    · exact cleared
  · exact .refl _ n s

/-! ### The raw test under LOOSE (R145) -/

/-- Where the raw test takes the shot's entry, its policy is LOOSE and its raw goes. -/
theorem rawTest_fires {s : State} {n : Nat} (he : (s.tetherEntry n).isSome = true) :
    s.rawTest n = s ∨ (s.snq.policy = .loose ∧ (s.rawTest n).snq = withoutTether s.snq n ∧
      (Regular n s → Regular n (s.rawTest n) ∧ ∀ q, (s.rawTest n).findRecord n = some q →
        q.tether = .missed ∧ q.raw.state = .released)) := by
  cases hr : s.findRecord n with
  | none =>
    refine .inl ?_
    unfold State.rawTest
    rw [hr]
  | some r =>
    cases hl : (r.life == .held && s.rawReleasable r) with
    | false =>
      refine .inl ?_
      unfold State.rawTest
      rw [hr]
      exact if_neg (by simp [hl])
    | true =>
      obtain ⟨life, due⟩ := Bool.and_eq_true_iff.mp hl
      have life : r.life = .held := by simpa using life
      have opened : s.rawTest n = (s.missTether n).freeRaw n := by
        unfold State.rawTest
        rw [hr]
        exact if_pos hl
      refine .inr ⟨?_, ?_, fun regular => ?_⟩
      · obtain ⟨-, -, -, hold, -⟩ := rawReleasable_iff.mp due
        rw [findRecord_shot hr] at hold
        cases hp : s.snq.policy with
        | loose => rfl
        | hold => exact absurd ⟨he, hp⟩ hold
      · obtain ⟨e, hs⟩ := Option.isSome_iff_exists.mp he
        have missed : (s.missTether n).snq = withoutTether s.snq n := by
          unfold State.missTether
          rw [hs]
          exact (((notify_passes n _ .tether _).trans (notify_passes n _ .body _)).snq).trans rfl
        rw [opened, (freeRaw_kept _ n n).snq, missed]
      · have left := (rawTest_left regular hr life).1 due
        refine ⟨left.regular, fun q hq => ?_⟩
        cases left.find.symm.trans hq
        exact ⟨if_pos he, rfl⟩

/-! ### The requests -/

theorem openRequest_modTether (s : State) (p : Port) (k : RequestKind) (tag : Byte) (n : Nat)
    (st : TetherState) (f : TetherEntry → TetherEntry) :
    (s.openRequest p k tag).modTether n st f = (s.modTether n st f).openRequest p k tag := by
  cases p <;> rfl

@[simp] theorem openRequest_tetherInFlight (s : State) (p : Port) (k : RequestKind) (tag : Byte) :
    (s.openRequest p k tag).tetherInFlight = s.tetherInFlight := by
  cases p <;> rfl

@[simp] theorem openRequest_tetherEntry (s : State) (p : Port) (k : RequestKind) (tag : Byte)
    (n : Nat) : (s.openRequest p k tag).tetherEntry n = s.tetherEntry n := by
  cases p <;> rfl

theorem openRequest_setSnq (s : State) (p : Port) (k : RequestKind) (tag : Byte) (q : Snq) :
    ({ s.openRequest p k tag with snq := q } : State) =
      ({ s with snq := q } : State).openRequest p k tag := by
  cases p <;> rfl

theorem serveTransferNext_takes {s : State} {e : TetherEntry} (hf : s.tetherInFlight < 2)
    (he : (s.snq.tether.find? fun e => !e.inFlight) = some e) : serveTransferNext s = okWith
      (s.modTether e.shot .inFlight fun q => { q with inFlight := true })
      (.transferNext (some ⟨e.shot, e.failures, Config.rawBytes,
        (s.findRecord e.shot).bind fun r => r.raw.checksum⟩)) := by
  unfold serveTransferNext
  rw [if_neg (Nat.not_le.mpr hf), he]

theorem settleTether_acts {s : State} {n : Nat} {e : TetherEntry} (h : s.tetherEntry n = some e)
    (hf : e.inFlight = true) (act : TetherEntry → State) :
    settleTether n s act = okWith (act e) .empty := by
  unfold settleTether
  rw [h]
  exact if_pos hf

/-- The tether queue with another attempt for the shot (R144). -/
def again (l : List TetherEntry) (n : Nat) : List TetherEntry :=
  l.map fun q => if q.shot = n then { q with inFlight := false, failures := q.failures + 1 } else q

theorem again_filter (l : List TetherEntry) (n : Nat) :
    (again l n).filter (fun q => q.shot != n) = l.filter fun q => q.shot != n := by
  induction l with
  | nil => rfl
  | cons x rest ih =>
    unfold again at ih ⊢
    by_cases h : x.shot = n
    · simp [h, ih]
    · simp [h, ih]

theorem again_find {l : List TetherEntry} {n : Nat} {e : TetherEntry}
    (h : (l.find? fun q => q.shot == n) = some e) :
    ((again l n).find? fun q => q.shot == n).isSome = true := by
  obtain ⟨hm, hs⟩ := And.intro (List.mem_of_find?_eq_some h) (List.find?_some h)
  refine List.find?_isSome.mpr ⟨_, List.mem_map_of_mem hm, ?_⟩
  rw [if_pos (by simpa using hs)]
  exact hs

/-- A record of the shot is the one that is found. -/
theorem find_own {s : State} {n : Nat} (h : Regular n s) {r : Record} (hr : r ∈ s.catalog)
    (hs : r.shot = n) : s.findRecord n = some r := find_of_mem h.order hr hs

/-- A request that changes the tether queue and lets the release tests follow. -/
theorem exec_tether {s o u v : State} {p : Port} {r : Request} (ha : Accepts s p r.kind)
    {tag : Byte} {st : Status} {pl : Payload} (ho : s.openRequest p r.kind tag = o)
    (hs : r.service p o = (v, .answer st pl)) (hp : SamePorts o u) (hu : Aside o u)
    (hi : Inner u v) (hc : Calm u v) :
    ∃ t, exec (r.row p tag) s = .next t ∧ RepliedIn s t p r.kind tag st pl ∧ OthersKept s t p ∧
      t.snq = v.snq ∧ t.catalog = v.catalog ∧ Aside s t := by
  subst ho
  obtain ⟨t, he, replied, others, -, q, rfl⟩ := exec_replied ha hs (hp.trans hi.ports)
  exact ⟨_, he, replied, others, by simp, by simp, (((setPort_aside s p _).trans hu).trans
    (hc.aside hi)).trans (setPort_aside v p q)⟩

theorem regular_of_find {s : State} (hc : CatalogOk s) {n : Nat}
    (hr : (s.findRecord n).isSome = true) : Regular n s :=
  let ⟨_, hr⟩ := Option.isSome_iff_exists.mp hr
  .of_find hc hr

/-- After a change of tether states the shot's record has the one it was given. -/
theorem tether_given {u w v : State} {n : Nat} {st : TetherState} {g : Record → Record}
    (hw : u.modRecord n g = w) (hg : ∀ r, (g r).tether = st ∧ (g r).shot = r.shot)
    (hk : Kept Record.tether n w v) (hr : Regular n u) {r : Record} (hm : r ∈ v.catalog)
    (hn : r.shot = n) : r.tether = st := by
  subst hw
  have regular := modRecord_regular hr g fun r => (hg r).2
  obtain ⟨q, hq, tether⟩ := hk.find regular r (find_own (hk.regular regular) hm hn)
  rw [modRecord_find fun r => (hg r).2] at hq
  obtain ⟨x, -, rfl⟩ := Option.map_eq_some_iff.mp hq
  exact tether.trans (hg x).1

/-- The state with another tether queue. -/
def withTether (s : State) (l : List TetherEntry) : State :=
  { s with snq := { s.snq with tether := l } }

theorem withTether_regular {s : State} {n : Nat} (h : Regular n s) (l : List TetherEntry) :
    Regular n (withTether s l) :=
  ⟨h.order, h.issued⟩

theorem openRequest_regular {s o : State} {p : Port} {k : RequestKind} {tag : Byte} {n : Nat}
    (ho : s.openRequest p k tag = o) (h : Regular n s) : Regular n o := by
  subst ho
  exact ⟨by unfold CatalogOk; rw [openRequest_catalog, openRequest_nextShot]; exact h.order,
    by rw [openRequest_nextShot]; exact h.issued⟩

/-- The state in which the shot's entry is out of the tether queue (R144). -/
def entryOut (s : State) (n : Nat) : State := { s with snq := withoutTether s.snq n }

theorem entryOut_regular {s : State} {n : Nat} (h : Regular n s) : Regular n (entryOut s n) :=
  ⟨h.order, h.issued⟩

theorem entryOut_entry (s : State) (n : Nat) (g : Record → Record) :
    ((entryOut s n).modRecord n g).tetherEntry n = none :=
  withoutTether_entry (s := s) rfl

/-- Settles O48. -/
theorem tetherQueueRequests : Obligations.TetherQueueRequests := by
  intro s p tag
  refine ⟨fun e ha hf he => ?_, fun ha hf hn => ?_, fun ha hf => ?_, fun n e ha he hs => ?_, ?_,
    fun f ha hf hy => ?_, fun ha => ?_⟩
  · refine exec_answered (r := .transferNext) ha ?_
    show serveTransferNext _ = _
    rw [serveTransferNext_takes (e := e) (by simpa using hf) (by simpa using he),
      openRequest_modTether, openRequest_findRecord]
    rfl
  · have absent : (s.snq.tether.find? fun e => !e.inFlight) = none :=
      List.find?_eq_none.mpr fun q hq => by simp [hn q hq]
    refine exec_answered (r := .transferNext) ha ?_
    show serveTransferNext _ = _
    unfold serveTransferNext
    rw [openRequest_tetherInFlight, if_neg (Nat.not_le.mpr hf), openRequest_snq, absent]
    rfl
  · exact requestsRefused .transferNext p tag s _ _ ha (by
      simp only [refusal, firstCase_cons]
      exact if_pos (decide_eq_true hf))
  · generalize ho : s.openRequest p (Request.transferDone n).kind tag = o
    have entry : o.tetherEntry n = some e := ho ▸ (openRequest_tetherEntry s p _ tag n).trans he
    have snq : o.snq = s.snq := ho ▸ openRequest_snq s p _ tag
    have served : (Request.transferDone n).service p o = _ := settleTether_acts entry hs _
    generalize hu : (entryOut o n).modRecord n (fun r => { r with tether := .transferred }) = u
    have served : (Request.transferDone n).service p o =
        okWith ((u.releaseTests n).settle) .empty := hu ▸ served
    have none_ : u.tetherEntry n = none := hu ▸ entryOut_entry o n _
    have kept := (releaseTests_tether none_ n).trans ((settle_kept (u.releaseTests n) n).map Prod.fst)
    obtain ⟨t, hex, replied, others, tsnq, tcat, aside⟩ := exec_tether (r := .transferDone n) ha ho
      served (hu ▸ .of_prt rfl : SamePorts o u) (hu ▸ ⟨rfl, rfl, rfl, rfl, rfl, rfl, rfl⟩)
      ((releaseTests_inner u n).trans (settle_inner _))
      ((releaseTests_calm u n).trans (settle_calm _))
    refine ⟨t, hex, replied, ?_, fun hc hr r hm hn => ?_, aside, others⟩
    · rw [tsnq, kept.snq, ← hu, ← snq]
      rfl
    · have regular := openRequest_regular ho (regular_of_find hc hr)
      exact tether_given hu (fun _ => ⟨rfl, rfl⟩) kept (entryOut_regular regular) (tcat ▸ hm) hn
  · intro n e ha he hs again_ gone
    generalize ho : s.openRequest p (Request.transferFail n).kind tag = o
    have entry : o.tetherEntry n = some e := ho ▸ (openRequest_tetherEntry s p _ tag n).trans he
    have snq : o.snq = s.snq := ho ▸ openRequest_snq s p _ tag
    have served : (Request.transferFail n).service p o = _ := settleTether_acts entry hs _
    by_cases hf : e.failures < 2
    · have served := served.trans (congrArg (okWith · .empty) (if_pos hf))
      generalize hu : (withTether o (again o.snq.tether n)).modRecord n
        (fun r => { r with tether := .queued }) = u
      have served : (Request.transferFail n).service p o = okWith (((u.notify .tether
          (.transferReady n)).releaseTests n).settle) .empty := hu ▸ served
      have told := notify_passes n u .tether (.transferReady n)
      have queue : (u.notify .tether (.transferReady n)).snq =
          { s.snq with tether := again s.snq.tether n } := by
        rw [told.snq, ← hu, ← snq]
        rfl
      obtain ⟨t, hex, replied, others, tsnq, tcat, aside⟩ := exec_tether (r := .transferFail n) ha
        ho served (hu ▸ .of_prt rfl : SamePorts o u) (hu ▸ ⟨rfl, rfl, rfl, rfl, rfl, rfl, rfl⟩)
        ((notify_inner u .tether (.transferReady n)).trans
          ((releaseTests_inner _ n).trans (settle_inner _)))
        ((notify_calm u .tether (.transferReady n)).trans
          ((releaseTests_calm _ n).trans (settle_calm _)))
      have regular : CatalogOk s → (s.findRecord n).isSome = true →
          Regular n (withTether o (again o.snq.tether n)) := fun hc hr =>
        withTether_regular (openRequest_regular ho (regular_of_find hc hr)) _
      have opened : Regular n (withTether o (again o.snq.tether n)) →
          Regular n (u.notify .tether (.transferReady n)) := fun h =>
        told.regular (hu ▸ modRecord_regular h _)
      generalize u.notify .tether (.transferReady n) = w at *
      have kept := (releaseTests_kept w n n).trans (settle_kept (w.releaseTests n) n)
      have present : (w.tetherEntry n).isSome = true := by
        unfold State.tetherEntry
        rw [queue]
        exact again_find he
      refine ⟨t, hex, replied, fun _ => ?_, fun h => absurd hf (by omega), aside, others⟩
      rcases rawTest_fires present with same | ⟨loose, fired, gone_⟩
      · rw [same] at kept
        have tether : t.snq.tether = again_ := by rw [tsnq, kept.snq, queue]; rfl
        refine ⟨.inl tether, fun hc hr r hm hn => ⟨fun _ => ?_, fun h => absurd tether h⟩⟩
        exact tether_given hu (fun _ => ⟨rfl, rfl⟩) (told.kept_.trans (kept.map Prod.fst))
          (regular hc hr) (tcat ▸ hm) hn
      · have tether : t.snq.tether = gone := by
          rw [tsnq, kept.snq, fired, queue]
          exact again_filter s.snq.tether n
        have apart : again_ ≠ gone := by
          intro h
          obtain ⟨x, hx, hs⟩ := List.find?_isSome.mp (again_find he)
          have hx : x ∈ gone := h ▸ hx
          have := (List.mem_filter.mp hx).2
          simp at hs this
          exact this hs
        rw [queue] at loose
        refine ⟨.inr ⟨loose, tether⟩, fun hc hr r hm hn => ?_⟩
        obtain ⟨released, records⟩ := gone_ (opened (regular hc hr))
        obtain ⟨q, hq, sent⟩ := kept.find released r (find_own (kept.regular released)
          (tcat ▸ hm) hn)
        obtain ⟨missed, raw⟩ := records q hq
        have tetherEq : r.tether = q.tether := congrArg Prod.fst sent
        have rawEq : r.raw = q.raw := congrArg Prod.snd sent
        exact ⟨fun h => absurd (h.symm.trans tether) apart,
          fun _ => ⟨tetherEq.trans missed, rawEq ▸ raw⟩⟩
    · have served := served.trans (congrArg (okWith · .empty) (if_neg hf))
      generalize hu : (entryOut o n).modRecord n (fun r => { r with tether := .missed }) = u
      have served : (Request.transferFail n).service p o = okWith ((((u.notify .tether
          (.transferMissed n)).notify .body (.transferMissed n)).releaseTests n).settle) .empty :=
        hu ▸ served
      have told := (notify_passes n u .tether (.transferMissed n)).trans
        (notify_passes n _ .body (.transferMissed n))
      have inner := (notify_inner u .tether (.transferMissed n)).trans
        (notify_inner _ .body (.transferMissed n))
      have calm := (notify_calm u .tether (.transferMissed n)).trans
        (notify_calm _ .body (.transferMissed n))
      generalize (u.notify .tether (.transferMissed n)).notify .body (.transferMissed n) = w at *
      have none_ : w.tetherEntry n = none := by
        unfold State.tetherEntry
        rw [told.snq, ← hu]
        exact entryOut_entry o n fun r => { r with tether := .missed }
      have kept := told.kept_.trans ((releaseTests_tether none_ n).trans
        ((settle_kept (w.releaseTests n) n).map Prod.fst))
      obtain ⟨t, hex, replied, others, tsnq, tcat, aside⟩ := exec_tether (r := .transferFail n) ha
        ho served (hu ▸ .of_prt rfl : SamePorts o u) (hu ▸ ⟨rfl, rfl, rfl, rfl, rfl, rfl, rfl⟩)
        (inner.trans ((releaseTests_inner _ n).trans (settle_inner _)))
        (calm.trans ((releaseTests_calm _ n).trans (settle_calm _)))
      refine ⟨t, hex, replied, fun h => absurd h hf, fun _ => ⟨?_, fun hc hr r hm hn => ?_⟩, aside,
        others⟩
      · rw [tsnq, kept.snq, ← hu]
        exact congrArg (fun q : Snq => q.tether.filter fun e => e.shot != n) snq
      · exact tether_given hu (fun _ => ⟨rfl, rfl⟩) kept
          (entryOut_regular (openRequest_regular ho (regular_of_find hc hr))) (tcat ▸ hm) hn
  · intro b y
    have fields : firstBad [(1, badChoice f.auto), (2, badChoice f.policy)] = none := by
      simp [firstBad, badChoice_of_ne hf, badChoice_of_ne hy]
    refine ⟨fun h => ?_, fun hh hl => ?_⟩
    · refine exec_answered (r := .sendSet f) ha ?_
      show serveSendSet f _ = _
      unfold serveSendSet
      rw [fields]
      simp only [openRequest_snq, openRequest_setSnq]
      rw [if_neg fun c => ?_]
      · rfl
      · obtain ⟨h1, h2⟩ := Bool.and_eq_true_iff.mp c
        have h1 : s.snq.policy = .hold := of_decide_eq_true h1
        have h2 : y = .loose := of_decide_eq_true h2
        rcases h with h | h
        · cases h1.symm.trans h
        · cases h2.symm.trans h
    · generalize ho : s.openRequest p (Request.sendSet f).kind tag = o
      have snq : o.snq = s.snq := ho ▸ openRequest_snq s p _ tag
      generalize hu : ({ o with snq := { s.snq with auto := b, policy := y } } : State) = u
      have served : (Request.sendSet f).service p o = okWith
          ((u.releaseAll (s.snq.tether.map TetherEntry.shot)).settle) (.sendSet b y) := by
        rw [← hu]
        show serveSendSet f o = _
        unfold serveSendSet
        rw [fields, snq]
        exact congrArg (okWith · (.sendSet b y))
          (if_pos (Bool.and_eq_true_iff.mpr ⟨decide_eq_true hh, decide_eq_true hl⟩))
      have calm := (releaseAll_calm u (s.snq.tether.map TetherEntry.shot)).trans (settle_calm _)
      obtain ⟨t, hex, replied, others, tsnq, -⟩ := exec_cascade (r := .sendSet f) ha ho served
        (hu ▸ .of_prt rfl : SamePorts o u) ((releaseAll_inner u _).trans (settle_inner _))
      rw [hl] at replied
      exact ⟨t, hex, replied, by rw [tsnq, calm.auto, ← hu],
        by rw [tsnq, calm.policy, ← hu]; exact hl, others⟩
  · generalize ho : s.openRequest p Request.tetherQueueClear.kind tag = o
    have snq : o.snq = s.snq := ho ▸ openRequest_snq s p _ tag
    have catalog : o.catalog = s.catalog := ho ▸ openRequest_catalog s p _ tag
    generalize hu : ({ o with
      snq := { o.snq with tether := [] },
      catalog := o.catalog.map fun r =>
        if (o.snq.tether.map TetherEntry.shot).contains r.shot then { r with tether := .none }
        else r } : State) = u
    have served : Request.tetherQueueClear.service p o = okWith
        ((u.releaseAll (s.snq.tether.map TetherEntry.shot)).settle)
        (.cleared s.snq.tether.length) := by
      rw [← hu, ← snq]
      show serveTetherQueueClear o = _
      unfold serveTetherQueueClear
      dsimp only
      rw [List.length_map]
    have empty : u.snq.tether = [] := hu ▸ rfl
    have kept : ∀ n, Kept Record.tether n u _ := fun n =>
      (releaseAll_tether (s.snq.tether.map TetherEntry.shot) empty n).trans
        ((settle_kept (u.releaseAll (s.snq.tether.map TetherEntry.shot)) n).map Prod.fst)
    obtain ⟨t, hex, replied, others, tsnq, tcat, aside⟩ := exec_tether (r := .tetherQueueClear) ha
      ho served (hu ▸ .of_prt rfl : SamePorts o u) (hu ▸ ⟨rfl, rfl, rfl, rfl, rfl, rfl, rfl⟩)
      ((releaseAll_inner u _).trans (settle_inner _)) ((releaseAll_calm u _).trans (settle_calm _))
    refine ⟨t, hex, replied, ?_, fun hc r q hr hq hs => ?_, aside, others⟩
    · rw [tsnq, (kept 0).snq, empty]
    · have base : Regular r.shot o :=
        openRequest_regular ho (regular_of_find hc (by rw [find_of_mem hc hr rfl]; rfl))
      have regular : Regular r.shot u := by
        refine ⟨?_, hu ▸ base.issued⟩
        have shots : u.catalog.map Record.shot = o.catalog.map Record.shot := by
          rw [← hu, List.map_map]
          refine List.map_congr_left fun x _ => ?_
          dsimp only [Function.comp]
          split <;> rfl
        unfold CatalogOk
        rw [shots, ← hu]
        exact base.order
      obtain ⟨x, hx, tether⟩ := (kept r.shot).find regular q
        (find_own ((kept r.shot).regular regular) (tcat ▸ hq) hs)
      have mem := findRecord_mem hx
      rw [← hu] at mem
      obtain ⟨z, hz, rfl⟩ := List.mem_map.mp mem
      have shot : z.shot = r.shot := by
        have hxs := findRecord_shot hx
        split at hxs <;> exact hxs
      have same : z = r := eq_of_nodup_map (catalog_nodup hc) (catalog ▸ hz) hr shot
      subst same
      have entry : (o.snq.tether.map TetherEntry.shot).contains z.shot = true ↔
          ∃ e, e ∈ s.snq.tether ∧ e.shot = z.shot := by
        rw [snq, List.contains_iff_mem, List.mem_map]
      rw [tether]
      by_cases h : ∃ e, e ∈ s.snq.tether ∧ e.shot = z.shot
      · rw [if_pos h, if_pos (entry.mpr h)]
      · rw [if_neg h, if_neg (mt entry.mp h)]

end Sys2Proof.Machine
end

section
/-! PROOFS. PORT_SET, WAKE_SET, PORT_RESET and the tether's attach and detach (R152, R162, R165). -/
namespace Sys2Proof.Machine

/-! ### The end of a change -/

/-- Only the records, the blocks, the jobs and the arbiter differ. -/
structure WorkOnly (s t : State) : Prop where
  rest : { t with freeRuns := s.freeRuns, catalog := s.catalog, dev := s.dev, arb := s.arb } = s

theorem WorkOnly.refl (s : State) : WorkOnly s s := ⟨rfl⟩

theorem WorkOnly.trans {a b c : State} (h : WorkOnly a b) (k : WorkOnly b c) : WorkOnly a c := by
  have step := congrArg (fun u : State => { u with
    freeRuns := a.freeRuns, catalog := a.catalog, dev := a.dev, arb := a.arb }) k.rest
  exact ⟨step.trans h.rest⟩

theorem WorkOnly.prt {s t : State} (h : WorkOnly s t) : t.prt = s.prt :=
  (congrArg State.prt h.rest :)

theorem WorkOnly.pwc {s t : State} (h : WorkOnly s t) : t.pwc = s.pwc :=
  (congrArg State.pwc h.rest :)

theorem WorkOnly.snq {s t : State} (h : WorkOnly s t) : t.snq = s.snq :=
  (congrArg State.snq h.rest :)

theorem WorkOnly.med {s t : State} (h : WorkOnly s t) : t.med = s.med :=
  (congrArg State.med h.rest :)

theorem WorkOnly.rsq {s t : State} (h : WorkOnly s t) : t.rsq = s.rsq :=
  (congrArg State.rsq h.rest :)

theorem WorkOnly.fdr {s t : State} (h : WorkOnly s t) : t.fdr = s.fdr :=
  (congrArg State.fdr h.rest :)

theorem WorkOnly.lnk {s t : State} (h : WorkOnly s t) : t.lnk = s.lnk :=
  (congrArg State.lnk h.rest :)

theorem tryJobs_work (js : List Job) (s : State) : WorkOnly s (s.tryJobs js) := by
  induction js generalizing s with
  | nil => exact .refl s
  | cons j rest ih =>
    have waits : WorkOnly s ((s.setSpaceWait j).tryJobs rest) :=
      (WorkOnly.mk (t := s.setSpaceWait j) rfl).trans (ih _)
    unfold State.tryJobs
    split
    · exact ih s
    · split
      · exact ih s
      · split
        · exact ih s
        · dsimp only
          split
          · exact ⟨rfl⟩
          · exact waits
          · exact waits

theorem grant_work (s : State) : WorkOnly s s.grant := by
  unfold State.grant
  split
  · exact .refl s
  · split
    · exact .refl s
    · exact ⟨rfl⟩

theorem settle_work (s : State) : WorkOnly s s.settle := by
  refine .trans ?_ (grant_work _)
  unfold State.attemptJob
  split
  · dsimp only
    have cleared : WorkOnly s { s with dev := { s.dev with attemptDue := false } } := ⟨rfl⟩
    split
    · exact cleared.trans (tryJobs_work _ _)
    · exact cleared
  · exact .refl s

/-! ### The reset of a port -/

/-- What a port holds after its reset (R162); data-in that is ignored stays ignored. -/
def resetPortSt (q : PortSt) : PortSt := { PortSt.reset with deaf := q.deaf }

theorem clearCollector_prt (s : State) (p : Port) : (s.clearCollector p).prt = s.prt := rfl

theorem discardPrt_pwc (s : State) (p : Port) : (s.discardPrt p).pwc = s.pwc := by
  unfold State.discardPrt
  split
  · split <;> rfl
  · rfl

/-- The reset of a port leaves the requests of the others and the power state alone. -/
theorem resetPort_spec (s : State) (p : Port) : (s.resetPort p).port p = resetPortSt (s.port p) ∧
    (∀ q, q ≠ p → SamePort (s.port q) ((s.resetPort p).port q)) ∧
    (s.resetPort p).prt.attached = s.prt.attached ∧
    (s.resetPort p).pwc = { s.pwc with held := s.pwc.held.filter fun h => !h.ofPort p } := by
  unfold State.resetPort
  dsimp only
  generalize hu : (s.setPort p { s.port p with handles := [none, none, none, none] }).clearCollector p = u
  have opened : ∀ q, q ≠ p → u.port q = s.port q := fun q hq => by
    rw [← hu]
    exact (port_of_prt (clearCollector_prt _ p) q).trans (s.port_setPort_other p q _ hq)
  have deaf : (u.port p).deaf = (s.port p).deaf := by
    rw [← hu]
    have same := (port_of_prt (clearCollector_prt (s.setPort p { s.port p with
      handles := [none, none, none, none] }) p) p).trans (s.port_setPort_self p _)
    rw [same]
  have attached : u.prt.attached = s.prt.attached := by
    rw [← hu]
    exact State.setPort_attached s p _
  have power : u.pwc = s.pwc := by
    rw [← hu]
    exact State.setPort_pwc s p _
  have inner := (releaseAll_inner u (s.touchedBy p)).trans (discardPrt_inner _ p)
  have calm : ((u.releaseAll (s.touchedBy p)).discardPrt p).pwc = u.pwc := by
    rw [discardPrt_pwc, (releaseAll_calm u _).pwc]
  generalize (u.releaseAll (s.touchedBy p)).discardPrt p = v at inner calm
  have orphan : (v.orphanReinit p).prt = v.prt ∧ (v.orphanReinit p).pwc = v.pwc := by
    cases p <;> exact ⟨rfl, rfl⟩
  have ports := inner.ports
  refine ⟨?_, fun q hq => ?_, ?_, ?_⟩
  · rw [State.port_setPort_self]
    have same : ({ v.orphanReinit p with pwc := { (v.orphanReinit p).pwc with
        held := (v.orphanReinit p).pwc.held.filter fun h => !h.ofPort p } } : State).port p =
        v.port p := port_of_prt orphan.1 p
    rw [same, (ports.port p).deaf, deaf]
    rfl
  · rw [State.port_setPort_other _ _ _ _ hq]
    have same : ({ v.orphanReinit p with pwc := { (v.orphanReinit p).pwc with
        held := (v.orphanReinit p).pwc.held.filter fun h => !h.ofPort p } } : State).port q =
        v.port q := port_of_prt orphan.1 q
    rw [same, ← opened q hq]
    exact ports.port q
  · rw [State.setPort_attached]
    exact (congrArg Prt.attached orphan.1).trans (ports.attached.trans attached)
  · rw [State.setPort_pwc]
    dsimp only
    rw [orphan.2, calm, power]

/-! ### The requests -/

theorem openRequest_setRemoteDelete (s : State) (p : Port) (k : RequestKind) (tag : Byte) (b : Bool) :
    ({ s.openRequest p k tag with
      prt := { (s.openRequest p k tag).prt with remoteDelete := b } } : State) =
      ({ s with prt := { s.prt with remoteDelete := b } } : State).openRequest p k tag := by
  cases p <;> rfl

theorem openRequest_setPwc (s : State) (p : Port) (k : RequestKind) (tag : Byte) (w : Pwc) :
    ({ s.openRequest p k tag with pwc := w } : State) =
      ({ s with pwc := w } : State).openRequest p k tag := by
  cases p <;> rfl

theorem formReply_absent {s : State} {p : Port} (h : (s.port p).request = none) (st : Status)
    (pl : Payload) : s.formReply p st pl = s := by
  unfold State.formReply
  rw [h]

theorem openRequest_deaf (s : State) (p q : Port) (k : RequestKind) (tag : Byte) :
    ((s.openRequest p k tag).port q).deaf = (s.port q).deaf := by
  cases p <;> cases q <;> rfl

theorem settle_port (s : State) (p : Port) : s.settle.port p = s.port p :=
  port_of_prt (settle_work s).prt p

/-- PORT_RESET (R162): one naming its own port is not answered. -/
theorem exec_portReset {s : State} {p q : Port} {tag : Byte} (ha : Accepts s p .portReset) :
    ∃ t, exec (.portReset p tag (.is q)) s = .next t ∧ t.port q = resetPortSt (s.port q) ∧
      (q ≠ p → RepliedIn s t p .portReset tag .ok .empty) ∧
      ∀ r, r ≠ q → r ≠ p → (t.port r).request = (s.port r).request ∧
        (t.port r).replies = (s.port r).replies ∧ (t.port r).handles = (s.port r).handles := by
  generalize ho : s.openRequest p (Request.portReset (.is q)).kind tag = o
  have served : (Request.portReset (.is q)).service p o =
    ((o.resetPort q).settle, .answer .ok .empty) := rfl
  obtain ⟨own, others, -⟩ := resetPort_spec o q
  have reset : (o.resetPort q).settle.port q = resetPortSt (s.port q) := by
    rw [settle_port, own, ← ho]
    unfold resetPortSt
    rw [openRequest_deaf]
  have other : ∀ r, r ≠ q → r ≠ p → SamePort (s.port r) ((o.resetPort q).settle.port r) := by
    intro r hq hp
    have same := others r hq
    rw [settle_port]
    rwa [← ho, openRequest_port_other s hp, ho] at same
  by_cases hp : q = p
  · subst hp
    refine ⟨(o.resetPort q).settle, ?_, reset, fun h => absurd rfl h, fun r hr _ => ?_⟩
    · have row := exec_row (.portReset (.is q)) q tag s
      rw [takeRequest_served (k := (Request.portReset (.is q)).kind) ha tag, ho, served] at row
      refine row.trans (congrArg Host.Outcome.next ?_)
      exact formReply_absent (by rw [reset]; rfl) _ _
    · have same := other r hr hr
      exact ⟨same.request, same.replies, same.handles⟩
  · have same : SamePort (o.port p) ((o.resetPort q).settle.port p) := by
      rw [settle_port]
      exact others p (Ne.symm hp)
    have replied := takeRequest_replied (k := (Request.portReset (.is q)).kind) ha tag
      ((Request.portReset (.is q)).service p) _ .ok .empty (ho ▸ served)
      (by rw [ho, same.request, ← ho]; simp) (by rw [ho, same.replies, ← ho]; simp)
    refine ⟨_, (exec_row (.portReset (.is q)) p tag s).trans (congrArg Host.Outcome.next replied),
      ?_, fun _ => ?_, fun r hr hrp => ?_⟩
    · rw [State.port_setPort_other _ _ _ _ hp, ho, reset]
    · constructor <;> simp <;> rfl
    · have same := other r hr hrp
      rw [State.port_setPort_other _ _ _ _ hrp, ho]
      exact ⟨same.request, same.replies, same.handles⟩

/-- Settles O49. -/
theorem portRequests : Obligations.PortRequests := by
  intro s p tag
  refine ⟨fun b ha => ?_, ?_, fun q ha => exec_portReset ha, fun hd => ?_, fun hd => ?_⟩
  · refine exec_answered (r := .portSet (.is b)) ha ?_ (by cases p <;> rfl)
    exact congrArg (okWith · (.portSet b)) (openRequest_setRemoteDelete s p _ tag b)
  · intro f ha hb w v
    refine exec_answered (r := .wakeSet f) ha ?_
    show serveWakeSet f _ = _
    unfold serveWakeSet
    rw [hb]
    dsimp only
    rw [openRequest_pwc, openRequest_setPwc]
    exact Eq.refl _
  · obtain ⟨own, -, -, power⟩ := resetPort_spec s .tether
    have port : (s.resetPort .tether).settle.port .tether = resetPortSt (s.port .tether) := by
      rw [settle_port, own]
    have pwc : (s.resetPort .tether).settle.pwc =
        { s.pwc with held := s.pwc.held.filter fun h => !h.ofPort .tether } := by
      rw [(settle_work _).pwc, power]
    show ∃ t, execTetherAttach s = .next t ∧ _
    unfold execTetherAttach
    rw [if_neg (by simp [hd])]
    dsimp only
    rw [pwc]
    split
    case isTrue hw =>
      refine ⟨_, rfl, rfl, port, ?_⟩
      exact (if_pos (by simpa using hw)).symm
    case isFalse hw =>
      refine ⟨_, rfl, rfl, port, ?_⟩
      exact (if_neg (by simpa using hw)).symm
  · obtain ⟨own, -, -, power⟩ := resetPort_spec s .tether
    refine ⟨if_pos hd, _, if_pos hd, rfl, ?_, ?_⟩
    · exact (settle_port _ .tether).trans own
    · have pwc := (settle_work (s.resetPort .tether)).pwc.trans power
      exact (congrArg Pwc.power pwc :)

end Sys2Proof.Machine
end

section
/-! PROOFS. STANDBY, RESUME and the trigger input (R32, R36, R46, R164, R165, R169). -/
namespace Sys2Proof.Machine

/-! ### What the ends of a session and of a choice leave alone -/

/-- What is read outside the ports stays. -/
theorem PortsOnly.get {α : Type} {s t : State} (h : PortsOnly s t) (f : State → α)
    (hf : ∀ u q, f { u with prt := q } = f u := by intros; rfl) : f t = f s :=
  (hf t s.prt).symm.trans (congrArg f h)

/-- Without a focus wait a change of the focus state reaches the focus drive and the ports only. -/
theorem setFocusState_portsOnly {s : State} (h : NotWaiting s) (st : FocusState) :
    PortsOnly { s with fdr := { s.fdr with state := st } } (s.setFocusState st) := by
  have front := setFocusState_front h st
  unfold State.setFocusState at *
  split
  case isTrue e =>
    subst e
    rw [checkFocusWait_of_ne h]
    exact .refl s
  case isFalse e =>
    have only : PortsOnly { s with fdr := { s.fdr with state := st } }
        (State.notifyBodyTether { s with fdr := { s.fdr with state := st } }
          (.focusState st s.fdr.mode)) :=
      (notify_portsOnly _ _ _).trans (notify_portsOnly _ _ _)
    have waits : NotWaiting (State.notifyBodyTether { s with fdr := { s.fdr with state := st } }
        (.focusState st s.fdr.mode)) := by
      unfold NotWaiting
      rw [only.get State.rsq]
      exact h
    rw [checkFocusWait_of_ne waits]
    exact only

theorem endSession_portsOnly {s : State} (h : NotWaiting s) : PortsOnly
    { s.dropMove with fdr := { s.fdr with target := none, scan := .none, state := .off } }
    s.endSession :=
  setFocusState_portsOnly
    (s := { s.dropMove with fdr := { s.fdr with target := none, scan := .none } }) h .off

/-- Only the slots and the records differ. -/
def MediaOnly (s t : State) : Prop := { t with med := s.med, catalog := s.catalog } = s

theorem MediaOnly.refl (s : State) : MediaOnly s s := rfl

theorem MediaOnly.trans {a b c : State} (h : MediaOnly a b) (k : MediaOnly b c) : MediaOnly a c := by
  have step := congrArg (fun u : State => { u with med := a.med, catalog := a.catalog }) k
  exact Eq.trans step h

theorem setSlot_mediaOnly (s : State) (x : Slot) (q : SlotSt) : MediaOnly s (s.setSlot x q) := by
  cases x <;> rfl

theorem startCopy_mediaOnly (s : State) (x : Slot) (r : Record) (part : Part) :
    MediaOnly s (s.startCopy x r part) := by
  cases x <;> rfl

theorem chooseWork_mediaOnly (s : State) (x : Slot) : MediaOnly s (s.chooseWork x) := by
  rcases chooseWork_cases s x with ⟨-, he⟩ | ⟨-, -, he⟩ | ⟨-, -, he⟩ | ⟨_, part, _, r, -, -, -, -, -, he⟩
  · rw [he]
    exact .refl s
  · rw [he]
    exact setSlot_mediaOnly s x _
  · rw [he]
    exact setSlot_mediaOnly s x _
  · rw [he]
    exact startCopy_mediaOnly s x r part

theorem chooseBoth_mediaOnly (s : State) : MediaOnly s s.chooseBoth :=
  (chooseWork_mediaOnly s _).trans (chooseWork_mediaOnly _ _)

/-! ### OFF and back -/

/-- What RSQ in OFF leaves of the part (R32, R33, R89). -/
structure WentOff (s t : State) (fromHold : Bool) : Prop where
  rsq : t.rsq = { s.rsq with state := .off, fromHold := fromHold, frame := none, fifo := [], owed := [] }
  focus : t.fdr.state = .off
  linkState : t.lnk.state = s.lnk.state
  pendWhere : t.lnk.pendWhere = none
  pendMove : t.lnk.pendMove = none
  pendPoll : t.lnk.pendPoll = false
  med : t.med = s.med
  snq : t.snq = s.snq
  pwc : t.pwc = s.pwc
  pins : t.pins = s.pins
  catalog : t.catalog = s.catalog

/-- Leaving the frame for OFF before the session ends (R32). -/
def frameOff (s : State) (fromHold : Bool) : State :=
  State.emptyStore { s.setSeq .off with
    rsq := { (s.setSeq .off).rsq with fromHold := fromHold, frame := none, fifo := [], owed := [] } }

theorem goOff_eq (s : State) (b : Bool) : s.goOff b = (frameOff s b).endSession.dropPending := rfl

theorem setSeq_kept (s : State) (q : SeqState) : (s.setSeq q).med = s.med ∧
    (s.setSeq q).snq = s.snq ∧ (s.setSeq q).pwc = s.pwc ∧ (s.setSeq q).pins = s.pins := by
  unfold State.setSeq
  split <;> exact ⟨rfl, rfl, rfl, rfl⟩

theorem frameOff_rsq (s : State) (b : Bool) : (frameOff s b).rsq =
    { s.rsq with state := .off, fromHold := b, frame := none, fifo := [], owed := [] } := by
  show { (s.setSeq .off).rsq with fromHold := b, frame := none, fifo := [], owed := [] } = _
  rw [setSeq_rsq]

theorem goOff_off (s : State) (b : Bool) : WentOff s (s.goOff b) b := by
  have rsq := frameOff_rsq s b
  have waits : NotWaiting (frameOff s b) := by simp [NotWaiting, rsq]
  have only := endSession_portsOnly waits
  obtain ⟨med, snq, pwc, pins⟩ := setSeq_kept s .off
  have link : (frameOff s b).endSession.lnk = (frameOff s b).dropMove.lnk := only.get State.lnk
  rw [goOff_eq]
  exact {
    rsq := (only.get State.rsq).trans rsq
    focus := only.get (·.fdr.state)
    linkState := calc
      (frameOff s b).endSession.lnk.state = (frameOff s b).dropMove.lnk.state := congrArg Lnk.state link
      _ = (s.setSeq .off).lnk.state := rfl
      _ = s.lnk.state := congrArg Lnk.state (setSeq_fdr_lnk s .off).2
    pendWhere := rfl
    pendMove := rfl
    pendPoll := rfl
    med := (only.get State.med).trans med
    snq := (only.get State.snq).trans snq
    pwc := (only.get State.pwc).trans pwc
    pins := (only.get State.pins).trans pins
    catalog := (only.get State.catalog).trans (setSeq_catalog s .off) }

/-- ACTIVE again, from SAVING that was entered in ACTIVE (R169). -/
def resumedActive (s : State) : State :=
  let t := State.leaveOff { s with pwc := { s.pwc with power := .active, done := false } }
  if t.lnk.state = .absent && t.pins.lens then t.startIdent else t

/-- A wake, from SAVING that was entered in STANDBY or WAKING (R169). -/
def resumedWaking (s : State) : State :=
  State.enterWaking { s with pwc := { s.pwc with held := [], done := false } } .resume

theorem resumedActive_rsq (s : State) : (resumedActive s).pwc.power = .active ∧
    (resumedActive s).rsq.state = if s.rsq.fromHold then .hold else .idle := by
  unfold resumedActive
  dsimp only
  split <;> exact ⟨rfl, rfl⟩

theorem resumed_active {s : State} (h : s.pwc.savedFrom = .active) :
    s.resumed = (resumedActive s).chooseBoth.markAttempt.settle := by
  unfold State.resumed
  dsimp only
  rw [if_pos h]
  rfl

theorem resumed_waking {s : State} (h : s.pwc.savedFrom ≠ .active) :
    s.resumed = (resumedWaking s).chooseBoth.markAttempt.settle := by
  unfold State.resumed
  dsimp only
  rw [if_neg h]
  rfl

/-- The choices and the attempt after a RESUME change neither the sequencer nor the power state. -/
theorem chosen_kept (s : State) : s.chooseBoth.markAttempt.settle.rsq = s.rsq ∧
    s.chooseBoth.markAttempt.settle.pwc = s.pwc := by
  have media := chooseBoth_mediaOnly s
  have work := settle_work s.chooseBoth.markAttempt
  exact ⟨work.rsq.trans (congrArg State.rsq media :), work.pwc.trans (congrArg State.pwc media :)⟩

/-- Settles O50. -/
theorem standbyAndResume : Obligations.StandbyAndResume := by
  intro s p tag
  refine ⟨fun ha hp hb => ?_, fun ha hp hb => ?_, fun ha hp => ?_, fun ha hp => ?_, fun ha hp => ?_,
    fun ha hp hl hd => ?_, fun ha hp hl => ?_, fun ha hp => ?_⟩
  · generalize ho : s.openRequest p Request.standby.kind tag = o
    have off := goOff_off o (o.rsq.state == .hold)
    have served : Request.standby.service p o = ({ o.goOff (o.rsq.state == .hold) with
        pwc := { (o.goOff (o.rsq.state == .hold)).pwc with power := .standby } },
        .answer .ok .empty) := by
      show serveStandby o = _
      subst ho
      simp [serveStandby, hp, hb, okWith]
    have inner := goOff_inner o (o.rsq.state == .hold)
    generalize o.goOff (o.rsq.state == .hold) = u at off served inner
    subst ho
    obtain ⟨t, he, replied, others, -, q, rfl⟩ := exec_replied ha served
      (inner.ports.trans (.of_prt rfl))
    refine ⟨_, he, replied, ?_, ?_, ?_, ?_, ?_, ?_, ?_, ?_, ?_, ?_, others⟩
    · simp [off.pwc]
    · simp [off.rsq]
    · simp [off.rsq]
    · simp [off.rsq]
    · simp [off.focus]
    · simp [off.pendWhere]
    · simp [off.pendMove]
    · simp [off.pendPoll]
    · simp [off.med]
    · simp [off.snq]
  · exact requestsRefused .standby p tag s _ _ ha (by simp [refusal, hp, hb])
  · refine exec_answered (r := .standby) ha ?_
    show serveStandby _ = _
    simp [serveStandby, hp, okWith]
  · exact requestsRefused .standby p tag s _ _ ha (by simp [refusal, hp])
  · exact requestsRefused .standby p tag s _ _ ha (by simp [refusal, hp])
  · generalize ho : s.openRequest p Request.resume.kind tag = o
    have served : Request.resume.service p o = (o.resumed, .answer .ok .empty) := by
      show serveResume o = _
      subst ho
      simp [serveResume, hp, hl, hd, okWith]
    have from_ : o.pwc = s.pwc := by subst ho; simp
    have seq : o.rsq = s.rsq := by subst ho; simp
    have active : s.pwc.savedFrom = .active → o.resumed.pwc.power = .active ∧
        o.resumed.rsq.state = (if s.rsq.fromHold then .hold else .idle) := fun h => by
      obtain ⟨power, state⟩ := resumedActive_rsq o
      obtain ⟨rsq, pwc⟩ := chosen_kept (resumedActive o)
      rw [resumed_active (from_ ▸ h), rsq, pwc, power, state, seq]
      exact ⟨rfl, rfl⟩
    have waking : s.pwc.savedFrom ≠ .active → o.resumed.pwc.power = .waking ∧
        o.resumed.pwc.wake = some ⟨.resume, s.rsq.timeBase, s.pwc.settings.stabilise⟩ := fun h => by
      rw [resumed_waking (from_ ▸ h), (chosen_kept _).2, ← seq, ← from_]
      exact ⟨rfl, rfl⟩
    have inner := resumed_inner o
    generalize o.resumed = u at served active waking inner
    subst ho
    obtain ⟨t, he, replied, others, -, q, rfl⟩ := exec_replied ha served inner.ports
    exact ⟨_, he, replied, fun h => by simpa using active h, fun h => by simpa using waking h, others⟩
  · exact requestsRefused .resume p tag s _ _ ha (by simp [refusal, hp, hl])
  · refine exec_answered (r := .resume) ha ?_
    show serveResume _ = _
    simp [serveResume, hp, okWith]

/-! ### The trigger input -/

/-- An edge in MASTER mode begins a burst of one frame (R36). -/
theorem triggerShutter_idle {s : State} (hm : s.rsq.syncMode = .master)
    (ht : s.rsq.settings.trigger = true) (hb : s.rsq.burst.active = false)
    (hi : s.rsq.state = .idle) :
    s.triggerShutter = s.acceptBurst .trigger 1 s.rsq.settings.triggerExposure 50 :=
  if_pos (by simp [hm, ht, State.burstReady, hb, hi])

theorem abandonView_of_ne {s : State} (h : s.rsq.state ≠ .view) : s.abandonView = s := if_neg h

/-- Settles O53. -/
theorem triggerEdges : Obligations.TriggerEdges := by
  intro s e
  have meaning : exec (.triggerEdge e) s = execTriggerEdge e s := rfl
  rw [meaning]
  unfold execTriggerEdge
  refine ⟨fun h => ?_, fun h => ?_, fun h hp hm ht hb hi => ?_, fun h hp hm hb => ?_,
    fun h hp ht => ?_, fun h hp => ?_⟩
  · simp [h]
  · simp [h]
  all_goals subst h
  · simp only [bne_self_eq_false, Bool.false_eq_true, if_false, hp, hm]
    rw [triggerShutter_idle hm ht hb hi, acceptBurst_eq, abandonView_of_ne (by simp [hi])]
    simp only [hm]
  · simp [hp, hm, State.slaveEdge, hb]
  · simp [hp, ht, State.enterWaking, State.hold, State.now]
  · by_cases hin : Held.edge ∈ s.pwc.held <;> simp [hp, hin, State.hold]

end Sys2Proof.Machine
end

section
/-! PROOFS. The half-press, lens-detect and card-detect lines (R71, R76, R89, R121, R165). -/
namespace Sys2Proof.Machine

/-! ### Half-press -/

theorem retryLost_pins (s : State) : s.retryLost.pins = s.pins := (retryLost_inner s).pins

/-- A half-press without a session begins one (R76). -/
theorem halfPress_off {s : State} (h : s.fdr.state = .off) :
    s.halfPress = s.retryLost.startSession := by
  unfold State.halfPress
  dsimp only
  rw [retryLost_fdr, if_pos h]

theorem sessionState_retryLost (s : State) : sessionState s.retryLost.lnk.state =
    (if s.lnk.state = .ready then .acquiring
      else if s.lnk.state = .absent then .noLens else .lensLost) := by
  rw [retryLost_state]
  cases s.lnk.state <;> rfl

theorem endSession_off (s : State) :
    s.endSession.fdr.state = .off ∧ s.endSession.fdr.target = none := by
  have session := endSession_session s
  exact ⟨session.state, session.target (.inr (.inr ⟨nofun, nofun⟩))⟩

/-! ### The lens -/

/-- What the drive does when its link leaves READY for good: a session ends up in NO_LENS (R71, R77). -/
theorem focusLost_session {s : State} (h : s.lnk.state ≠ .ready) (st : FocusState) :
    (s.focusLost st).lnk = s.lnk ∧
      (s.focusLost st).fdr.state = if s.fdr.state = .off then .off else st := by
  unfold State.focusLost
  split
  case isTrue off => exact ⟨rfl, off⟩
  case isFalse =>
    have session := setFocusState_session s.clearFocus st
    exact ⟨session.asleep h, session.state⟩

theorem lensDeferred_setLens (s : State) (level : Bool) :
    State.lensDeferred { s with pins := { s.pins with lens := level } } = s.lensDeferred := rfl

/-! ### Cards -/

theorem chooseWork_faults (s : State) (x : Slot) :
    ((s.chooseWork x).slot x).faults = (s.slot x).faults := by
  rcases chooseWork_cases s x with ⟨-, he⟩ | ⟨-, -, he⟩ | ⟨-, -, he⟩ |
    ⟨_, part, _, r, -, -, -, -, -, he⟩
  · rw [he]
  · rw [he, State.slot_setSlot_self]
  · rw [he, State.slot_setSlot_self]
  · rw [he, startCopy_slot]

/-- Without a list there is nothing to place. -/
theorem chooseWork_noSpace {s : State} {x : Slot} (h : (s.slot x).space = []) :
    ((s.chooseWork x).slot x).space = [] := by
  rcases chooseWork_cases s x with ⟨-, he⟩ | ⟨-, -, he⟩ | ⟨-, -, he⟩ |
    ⟨_, part, _, r, -, -, -, -, -, he⟩
  · rw [he, h]
  · rw [he, State.slot_setSlot_self]
    exact h
  · rw [he, State.slot_setSlot_self]
    exact h
  · rw [he, startCopy_slot, h]
    rfl

/-- The slot of a card just detected. -/
def freshCard (q : SlotSt) : SlotSt := { q with state := .ready, space := [], faults := [] }

theorem insertCard_absent {s : State} {x : Slot} (h : (s.slot x).state = .absent) :
    s.insertCard x = (s.setSlot x (freshCard (s.slot x))).chooseWork x := if_pos h

theorem endReinit_slot_other (s : State) {x y : Slot} (h : y ≠ x) (st : Status) :
    (s.endReinit x st).slot y = s.slot y := by
  cases hr : (s.slot x).reinit with
  | none =>
    unfold State.endReinit
    rw [hr]
  | some r => exact (endReinit_ended hr st).others y h

theorem discardMed_med (s : State) (x : Slot) : (s.discardMed x).med = s.med := by
  unfold State.discardMed
  split
  · split <;> rfl
  · rfl

theorem removeCard_slot_other (s : State) {x y : Slot} (h : y ≠ x) :
    (s.removeCard x).slot y = s.slot y := by
  rw [← endReinit_slot_other s h .state]
  unfold State.removeCard
  dsimp only
  generalize s.endReinit x .state = u
  split
  case h_1 => exact State.slot_setSlot_other _ _ _ _ h
  case h_2 f _ =>
    have kept : ((u.discardMed x).setSlot x
        { u.slot x with state := .absent, space := [], flight := none }).slot y = u.slot y :=
      (State.slot_setSlot_other _ _ _ _ h).trans (slot_of_med (discardMed_med u x) y)
    generalize (u.discardMed x).setSlot x
      { u.slot x with state := .absent, space := [], flight := none } = v at kept
    split
    · exact kept
    · split
      · exact (slot_of_med (settleDeleting_calm (discardedCopy v x f) f.shot f.part f.version).med
          y).trans kept
      · exact kept

theorem cardGone_slot (s : State) (x y : Slot) :
    (s.cardGone x).slot y = ((s.setDetect x false).removeCard x).slot y := by
  unfold State.cardGone
  rw [settle_slot, saveTest_slot]

theorem cardDetect_of_pins {s t : State} (h : t.pins = s.pins) (x : Slot) :
    t.cardDetect x = s.cardDetect x := by
  unfold State.cardDetect
  rw [h]

theorem cardGone_detect (s : State) (x : Slot) : (s.cardGone x).cardDetect x = false := by
  obtain ⟨-, -, pins⟩ := removeCard_away (s.setDetect x false) x
  have inner := (saveTest_inner ((s.setDetect x false).removeCard x)).trans (settle_inner _)
  have kept : (s.cardGone x).pins = (s.setDetect x false).pins :=
    inner.pins.trans (pins.trans (endReinit_pins _ x .state))
  exact (cardDetect_of_pins kept x).trans (setDetect_rest s x false).2.2.2

/-- Settles O52. -/
theorem detectLines : Obligations.DetectLines := by
  intro s
  refine ⟨fun hh hp hf => ?_, fun hh hp hs => ?_, fun hh => ?_, fun hl hd hs => ?_,
    fun hl hd => ?_, fun hl => ?_, fun x hx ha => ?_, fun x hx => ?_⟩
  · let u : State := { s with pins := { s.pins with halfPress := true } }
    have next : exec .halfPressAsserted s = .next u.halfPress := by
      show execHalfPressAsserted s = _
      simp [execHalfPressAsserted, hh, hp, u]
    rw [halfPress_off (s := u) hf] at next
    have inner := (retryLost_inner u).trans (startSession_inner u.retryLost)
    exact ⟨_, next, inner.pins, (startSession_new u.retryLost).state.trans (sessionState_retryLost u)⟩
  · show execHalfPressAsserted s = _
    simp [execHalfPressAsserted, hh, hp, hs, State.enterWaking, State.now]
  · let u : State := { s with pins := { s.pins with halfPress := false } }
    have next : exec .halfPressReleased s = .next u.endSession := by
      show execHalfPressReleased s = _
      simp [execHalfPressReleased, hh, u]
    exact ⟨_, next, (endSession_inner u).pins, endSession_off u⟩
  · let u : State := { s with pins := { s.pins with lens := true } }
    have next : exec .lensDetectAsserted s = .next u.startIdent := by
      show execLensDetectAsserted s = _
      unfold execLensDetectAsserted
      simp only [hl, Bool.false_eq_true, if_false, lensDeferred_setLens, hd]
      rcases hs with hs | hs <;> simp only [hs, u]
    exact ⟨_, next, rfl, rfl, rfl, rfl, rfl⟩
  · show execLensDetectAsserted s = _
    simp [execLensDetectAsserted, hl, lensDeferred_setLens, hd]
  · let u : State := { s with pins := { s.pins with lens := false } }
    have next : exec .lensDetectDeasserted s = .next u.linkAbsent := by
      show execLensDetectDeasserted s = _
      simp [execLensDetectDeasserted, hl, u]
    obtain ⟨link, state⟩ := focusLost_session (s := { u with lnk := { u.lnk with
        state := .absent, lostReason := none, running := none, pendWhere := none,
        pendMove := none, pendPoll := false, errors := 0, page0 := none, descriptor := none,
        position := none, movingFlag := false, moving := false, latched := none, timers := [],
        lastSent := none } }) nofun .noLens
    have kept : u.linkAbsent.lnk = _ := link
    exact ⟨_, next, (linkAbsent_inner u).pins, by rw [kept], by rw [kept], by rw [kept], by rw [kept],
      state⟩
  · obtain ⟨med, -, catalog, detect⟩ := setDetect_rest s x true
    have power : (s.setDetect x true).pwc = s.pwc := by cases x <;> rfl
    have slot := slot_of_med med
    have work := slotWork_congr catalog x
    have next : exec (.cardDetectAsserted x) s = .next ((s.setDetect x true).insertCard x).settle := by
      show execCardDetectAsserted x s = _
      simp [execCardDetectAsserted, hx]
    generalize s.setDetect x true = u at detect slot work power next
    rw [insertCard_absent (by rw [slot]; exact ha)] at next
    let v := u.setSlot x (freshCard (u.slot x))
    have own : v.slot x = freshCard (u.slot x) := State.slot_setSlot_self _ _ _
    have inner := (chooseWork_inner v x).trans (settle_inner _)
    refine ⟨_, next, ?_, ?_, ?_, fun hw => ?_, fun y hy => ?_⟩
    · exact (cardDetect_of_pins (inner.pins.trans (State.setSlot_pins _ _ _)) x).trans detect
    · rw [settle_slot]
      exact chooseWork_noSpace (by rw [own]; rfl)
    · rw [settle_slot, chooseWork_faults, own]
      rfl
    · rw [settle_slot]
      exact (chooseWork_ready (by rw [own]; rfl)
        (by rw [slotWork_setSlot, work, State.setSlot_pwc, power]; exact hw)).1
    · rw [settle_slot, chooseWork_slot_other _ hy, State.slot_setSlot_other _ _ _ _ hy, slot]
  · have next : exec (.cardDetectDeasserted x) s = .next (s.cardGone x) := by
      show execCardDetectDeasserted x s = _
      simp [execCardDetectDeasserted, hx]
    obtain ⟨away, -⟩ := removeCard_away (s.setDetect x false) x
    have gone := away.slot (cardGone_slot s x x)
    refine ⟨_, next, cardGone_detect s x, gone.state, gone.space, gone.flight, fun y hy => ?_⟩
    rw [cardGone_slot, removeCard_slot_other _ hy, slot_of_med (setDetect_rest s x false).1]

end Sys2Proof.Machine
end

section
/-! PROOFS. FRAME_DUE (R11, R40 to R42, R46). -/
namespace Sys2Proof.Machine

/-! ### What the end of a change leaves of the records -/

/-- Of every record something like it is still there. -/
theorem SameBare.mem {s t : State} (h : SameBare s t) {r : Record} (hr : r ∈ s.catalog) :
    ∃ q, q ∈ t.catalog ∧ q.bare = r.bare := by
  have mem : r.bare ∈ t.catalog.map Record.bare := by
    rw [h]
    exact List.mem_map_of_mem hr
  obtain ⟨q, hq, e⟩ := List.mem_map.mp mem
  exact ⟨q, hq, e⟩

/-- Every record is like one that was there. -/
theorem SameBare.from_mem {s t : State} (h : SameBare s t) {q : Record} (hq : q ∈ t.catalog) :
    ∃ r, r ∈ s.catalog ∧ q.bare = r.bare := by
  obtain ⟨r, hr, e⟩ := SameBare.mem (s := t) (t := s) h.symm hq
  exact ⟨r, hr, e.symm⟩

theorem WorkOnly.nextShot {s t : State} (h : WorkOnly s t) : t.nextShot = s.nextShot :=
  (congrArg State.nextShot h.rest :)

/-! ### The frame asks for its record -/

theorem retire_kept (s : State) : s.retire.rsq = s.rsq ∧ s.retire.fdr = s.fdr ∧
    s.retire.lnk = s.lnk ∧ s.retire.nextShot = s.nextShot := by
  unfold State.retire
  split
  · exact ⟨rfl, rfl, rfl, rfl⟩
  · split
    · exact ⟨rfl, rfl, rfl, rfl⟩
    · have only := notifyAll_portsOnly
        { s with catalog := dropOldestCardOnly s.catalog } (.shotRetired (‹Record›.shot))
      exact ⟨only.get State.rsq, only.get State.fdr, only.get State.lnk, only.get State.nextShot⟩

/-- The frame of a record just taken (R40). -/
def startedFrame (s : State) : Frame :=
  { kind := .still, shot := s.nextShot, start := s.now, waitStart := s.now, exposureStart := s.now,
    exposure := 0, midpoint := s.now, rate := 0, program := .exposing, rowPtr := 0, imageRows := 0 }

/-- What a record taken for a frame leaves (R11, R40, R48, R49). -/
structure Taken (s t : State) (es : List Run) : Prop where
  rsq : t.rsq = { s.rsq with
    burst := { s.rsq.burst with started := s.rsq.burst.started + 1, missed := false },
    frame := some (startedFrame s),
    fifo := [], owed := [], rowsWritten := 0, rowBytes := 0, rawSum := 0 }
  fdr : t.fdr = s.fdr
  lnk : t.lnk = s.lnk
  nextShot : t.nextShot = (s.nextShot + 1) % 2 ^ 32
  record : newRecord s.nextShot s.rsq.burst es ∈ t.catalog

theorem createRecord_taken (s : State) (es left : List Run) :
    Taken s (s.createRecord es left) es := by
  obtain ⟨rsq, fdr, lnk, next⟩ := retire_kept s
  unfold State.createRecord
  dsimp only
  generalize s.retire = u at rsq fdr lnk next ⊢
  have now : u.now = s.now := congrArg Rsq.timeBase rsq
  refine ⟨?_, fdr, lnk, ?_, ?_⟩
  · rw [rsq, next, now]
    rfl
  · rw [next]
    rfl
  · rw [rsq, next]
    exact List.mem_append_right _ (List.mem_singleton.mpr rfl)

theorem inPosition_congr {s t : State} (hf : t.fdr = s.fdr) (hl : t.lnk = s.lnk) :
    t.inPosition = s.inPosition := by
  unfold State.inPosition
  rw [hf, hl]

/-- The focus wait decision: the frame waits while the drive is on its way (R42). -/
theorem focusDecision_rsq {s : State} {f : Frame} (hf : s.rsq.frame = some f) :
    s.focusDecision.rsq =
      if s.rsq.settings.priority = true ∧ s.fdr.mode ≠ .manual ∧
          (s.fdr.state = .acquiring ∨ s.fdr.state = .tracking) ∧ s.inPosition = false then
        { s.rsq with state := .focusWait, frame := some { f with waitStart := s.now } }
      else { s.rsq with state := .expose, frame := some (exposedFrame s f) } := by
  unfold State.focusDecision
  simp only [Bool.and_eq_true, Bool.or_eq_true, bne_iff_ne, beq_iff_eq, Bool.not_eq_true', and_assoc]
  split
  · rw [hf]
    rfl
  · exact enterExpose_rsq hf

/-- The sequencer's state after the decision. -/
theorem focusDecision_state {s : State} {f : Frame} (hf : s.rsq.frame = some f) :
    s.focusDecision.rsq.state =
      (if s.rsq.settings.priority = true ∧ s.fdr.mode ≠ .manual ∧
          (s.fdr.state = .acquiring ∨ s.fdr.state = .tracking) ∧ s.inPosition = false
        then .focusWait else .expose) := by
  rw [focusDecision_rsq hf]
  split <;> rfl

/-- The decision leaves the burst, the FIFO and what is owed, and gives the frame its times. -/
theorem focusDecision_frame {s : State} {f : Frame} (hf : s.rsq.frame = some f)
    (hp : f.program = .exposing) :
    s.focusDecision.rsq.burst = s.rsq.burst ∧ s.focusDecision.rsq.latch = s.rsq.latch ∧
      s.focusDecision.rsq.fifo = s.rsq.fifo ∧ s.focusDecision.rsq.owed = s.rsq.owed ∧
      ∃ g, s.focusDecision.rsq.frame = some g ∧ g.kind = f.kind ∧ g.shot = f.shot ∧
        g.start = f.start ∧ g.program = .exposing := by
  rw [focusDecision_rsq hf]
  split
  · exact ⟨rfl, rfl, rfl, rfl, _, rfl, rfl, rfl, rfl, hp⟩
  · exact ⟨rfl, rfl, rfl, rfl, _, rfl, rfl, rfl, rfl, rfl⟩

theorem stall_rsq {s : State} {why : StallReason} (h : s.rsq.state ≠ .stalled why) :
    (s.stall why).rsq = { s.rsq with state := .stalled why } ∧
      (s.stall why).nextShot = s.nextShot := by
  have only := notify_portsOnly { s with rsq := { s.rsq with state := .stalled why } } .body
    (.stall s.rsq.burst.id why)
  unfold State.stall
  rw [if_neg h]
  exact ⟨only.get State.rsq, only.get State.nextShot⟩

/-- With a place and the blocks, the record is taken and the focus decided. -/
theorem requestFrame_taken {s : State} {es left : List Run} (hi : s.rsq.state = .idle)
    (hr : s.catalogRoom = true) (ha : allocate 163 s.freeRuns = .done es left) :
    s.requestFrame = (s.createRecord es left).focusDecision := by
  have blocks : allocate Config.rawBlocks s.freeRuns = .done es left := ha
  unfold State.requestFrame
  rw [hr, blocks]
  dsimp only
  rw [hi]
  rfl

/-- Without a place or the blocks, the sequencer stalls with the reason. -/
theorem requestFrame_stalls {s : State} {why : StallReason}
    (h : why = .catalog ∧ s.catalogRoom = false ∨
      why = .space ∧ s.catalogRoom = true ∧ allocate 163 s.freeRuns = .space ∨
      why = .fragmented ∧ s.catalogRoom = true ∧ allocate 163 s.freeRuns = .fragmented) :
    s.requestFrame = s.stall why := by
  have blocks : allocate Config.rawBlocks s.freeRuns = allocate 163 s.freeRuns := rfl
  unfold State.requestFrame
  rcases h with ⟨rfl, hr⟩ | ⟨rfl, hr, ha⟩ | ⟨rfl, hr, ha⟩
  · rw [hr]
    rfl
  · rw [hr, blocks, ha]
    rfl
  · rw [hr, blocks, ha]
    rfl

/-- A frame that is due asks for its record, the latched edge taken. -/
theorem exec_frameDue {s : State} (hb : s.rsq.burst.active = true) (hi : s.rsq.state = .idle)
    (hd : reached s.rsq.burst.due s.rsq.timeBase = true)
    (hm : s.rsq.syncMode = .master ∨ s.rsq.latch = true) :
    exec .frameDue s =
      .next (State.requestFrame { s with rsq := { s.rsq with latch := false } }).settle :=
  if_pos (by simp [hb, hi, State.now, hd, hm])

/-- Settles O55. -/
theorem frameDueTakesARecord : Obligations.FrameDueTakesARecord := by
  intro s hb hi hd hm
  let u : State := { s with rsq := { s.rsq with latch := false } }
  have next : exec .frameDue s = .next u.requestFrame.settle := exec_frameDue hb hi hd hm
  refine ⟨fun es left hr ha => ?_, fun why h => ?_⟩
  · rw [requestFrame_taken (s := u) hi hr ha] at next
    have taken := createRecord_taken u es left
    have capture := focusDecision_capture (u.createRecord es left)
    have frame : (u.createRecord es left).rsq.frame = some (startedFrame u) := by rw [taken.rsq]
    have position := inPosition_congr taken.fdr taken.lnk
    have state := focusDecision_state frame
    obtain ⟨burst, latch, fifo, owed, g, hg, kind, shot, start, program⟩ :=
      focusDecision_frame frame rfl
    have work := settle_work (u.createRecord es left).focusDecision
    have record : newRecord u.nextShot u.rsq.burst es ∈
        (u.createRecord es left).focusDecision.catalog := by
      rw [(congrArg State.catalog capture : _ = (u.createRecord es left).catalog)]
      exact taken.record
    obtain ⟨r, hr', bare⟩ := (settle_bare _).mem record
    have number : (u.createRecord es left).focusDecision.nextShot =
        (u.createRecord es left).nextShot := (congrArg State.nextShot capture :)
    rw [taken.rsq, taken.fdr, position] at state
    refine ⟨_, g, r, next, ?_, ?_, ?_, ?_, ?_, ?_, ?_, kind, shot, start, program, hr', ?_⟩
    · rw [work.nextShot, number, taken.nextShot]
    · rw [work.rsq, burst, taken.rsq]
    · rw [work.rsq, latch, taken.rsq]
    · rw [work.rsq, fifo, taken.rsq]
    · rw [work.rsq, owed, taken.rsq]
    · rw [work.rsq, state]
      rfl
    · rw [work.rsq, hg]
    · exact ⟨(congrArg Record.shot bare :), (congrArg Record.life bare :),
        (congrArg Record.raw bare :), (congrArg Record.burst bare :),
        (congrArg Record.frame bare :), (congrArg Record.origin bare :),
        (congrArg Record.stamp bare :), (congrArg Record.flags bare :)⟩
  · rw [requestFrame_stalls (s := u) h] at next
    obtain ⟨rsq, number⟩ := stall_rsq (s := u) (why := why) (by simp [u, hi])
    have work := settle_work (u.stall why)
    exact ⟨_, next, work.rsq.trans rsq, work.nextShot.trans number⟩

end Sys2Proof.Machine
end

section
/-! PROOFS. Program entries and the events of an exposure (R30, R42, R43, R50, R55, R57, R87). -/
namespace Sys2Proof.Machine

/-! ### The test of SAVE_DONE and the end of a view frame -/

/-- What is read outside the sequencer, the drive and the link stays. -/
theorem CaptureOnly.get {α : Type} {s t : State} (h : CaptureOnly s t) (f : State → α)
    (hf : ∀ u r d l, f { u with rsq := r, fdr := d, lnk := l } = f u := by intros; rfl) : f t = f s :=
  (hf t s.rsq s.fdr s.lnk).symm.trans (congrArg f h)

/-- Only the power block and the ports differ, and of the power block no more than the done mark. -/
structure MarkOnly (s t : State) : Prop where
  rest : { t with pwc := s.pwc, prt := s.prt } = s
  mark : { t.pwc with done := s.pwc.done } = s.pwc

theorem saveTest_marks (s : State) : MarkOnly s s.saveTest := by
  unfold State.saveTest
  split
  · have only := notify_portsOnly { s with pwc := { s.pwc with done := true } } .body
      (.saveDone (s.slotWork .a).length (s.slotWork .b).length)
    refine ⟨?_, ?_⟩
    · exact (congrArg (fun u : State => { u with pwc := s.pwc }) only :)
    · rw [only.get State.pwc]
  · exact ⟨rfl, rfl⟩

theorem MarkOnly.get {α : Type} {s t : State} (h : MarkOnly s t) (f : State → α)
    (hf : ∀ u w q, f { u with pwc := w, prt := q } = f u := by intros; rfl) : f t = f s :=
  (hf t s.pwc s.prt).symm.trans (congrArg f h.rest)

/-- A view frame's end gives up the frame, and in SAVING RSQ goes to OFF (R33, R50). -/
theorem endView_over (s : State) (f : Frame) : (s.endView f).catalog = s.catalog ∧
    (s.endView f).rsq.frame = none ∧
    (s.endView f).rsq.state = (if s.pwc.power = .saving then .off else .idle) := by
  unfold State.endView
  dsimp only
  have capture := giveMidpoint_capture { s with rsq := { s.rsq with state := .idle, frame := none } }
    (f.start + BitVec.ofNat 32 (viewPeriod f.rate) + BitVec.ofNat 32 (f.exposure / 2))
  have rsq := giveMidpoint_rsq { s with rsq := { s.rsq with state := .idle, frame := none } }
    (f.start + BitVec.ofNat 32 (viewPeriod f.rate) + BitVec.ofNat 32 (f.exposure / 2))
  generalize State.giveMidpoint _ _ = u at capture rsq ⊢
  have power : u.pwc = s.pwc := capture.get State.pwc
  have catalog : u.catalog = s.catalog := capture.get State.catalog
  rw [power]
  split
  · have off := goOff_off u false
    have marks := saveTest_marks (u.goOff false)
    refine ⟨?_, ?_, ?_⟩
    · rw [marks.get State.catalog, off.catalog, catalog]
    · rw [marks.get State.rsq, off.rsq]
    · rw [marks.get State.rsq, off.rsq]
  · exact ⟨catalog, by rw [rsq], by rw [rsq]⟩

/-! ### Entries -/

/-- What the beginning of an entry leaves of the correlator (R55, R57). -/
def BeganEntry (s t : State) (e : Entry) : Prop :=
  (e.kind ≠ .pd → t.phc = s.phc) ∧
  (e.kind = .pd → t.phc = { s.phc with
    snapshot := some ⟨s.phc.setup, s.fdr.area, spanStart s.phc.setup s.fdr.area⟩,
    pairPtr := 37 * (s.fdr.area / 15) + 14, store := [], pairs := 0 })

/-- An entry that is not END runs from its first line (R30). -/
theorem enterEntry_runs {s : State} {i : Nat} {e : Entry} (he : s.rsq.program[i]? = some e)
    (hk : e.kind ≠ .stop) (f : Frame) :
    (s.enterEntry f i).rsq =
        { s.rsq with frame := some { f with program := .running i 0 s.rsq.timeBase } } ∧
      (s.enterEntry f i).catalog = s.catalog ∧ BeganEntry s (s.enterEntry f i) e := by
  unfold State.enterEntry
  rw [he]
  dsimp only
  split
  case h_1 h => exact absurd h hk
  case h_2 h => exact ⟨rfl, rfl, fun hp => absurd h hp, fun _ => rfl⟩
  case h_3 h | h_4 h | h_5 h =>
    exact ⟨rfl, rfl, fun _ => rfl, fun hp => nomatch h.symm.trans hp⟩

/-- END in a still frame's program ends the program (R30, R44). -/
theorem enterEntry_ends {s : State} {i : Nat} {e : Entry} (he : s.rsq.program[i]? = some e)
    (hk : e.kind = .stop) {f : Frame} (hf : f.kind = .still) :
    s.enterEntry f i = { s with rsq := { s.rsq with frame := some { f with program := .ended } } } := by
  unfold State.enterEntry
  rw [he]
  dsimp only
  rw [hk]
  dsimp only
  rw [hf]

/-- END in a view frame's program ends the frame (R50). -/
theorem enterEntry_view {s : State} {i : Nat} {e : Entry} (he : s.rsq.program[i]? = some e)
    (hk : e.kind = .stop) {f : Frame} (hf : f.kind = .view) : s.enterEntry f i = s.endView f := by
  unfold State.enterEntry
  rw [he]
  dsimp only
  rw [hk]
  dsimp only
  rw [hf]

/-! ### The exposure stamp -/

theorem stamp_eq (s : State) (f : Frame) : s.stamp f = s.modRecord f.shot fun r =>
    if r.stamp = none then { r with stamp := some f.midpoint } else r := by
  refine congrArg (s.modRecord f.shot) (funext fun r => ?_)
  cases h : r.stamp with
  | none => rfl
  | some t =>
    dsimp only
    rw [if_neg (by simp), ← h]

theorem stamp_stamped (s : State) (f : Frame) {r : Record} (hr : r ∈ (s.stamp f).catalog)
    (hs : r.shot = f.shot) : r.stamp.isSome = true := by
  obtain ⟨q, -, rfl⟩ := List.mem_map.mp hr
  dsimp only at hs ⊢
  split
  · cases q.stamp <;> rfl
  · next h =>
    rw [if_neg h] at hs
    exact absurd hs h

/-- An exposure that is over enters the frame's program (R43, R50). -/
theorem exec_exposureEnd_still {s : State} {f : Frame} (hf : s.rsq.frame = some f)
    (hs : s.rsq.state = .expose) (hp : f.program = .exposing)
    (hr : reached (f.exposureStart + BitVec.ofNat 32 f.exposure) s.rsq.timeBase = true) :
    exec .exposureEnd s = .next (State.enterEntry
      { s.stamp f with rsq := { s.rsq with state := .readout } }
      { f with rowPtr := 0, imageRows := 0 } s.rsq.stillStart) := by
  show execExposureEnd s = _
  unfold execExposureEnd
  rw [hf]
  simp only [hp, State.now, hr, hs]
  rfl

theorem exec_exposureEnd_view {s : State} {f : Frame} (hf : s.rsq.frame = some f)
    (hs : s.rsq.state = .view) (hp : f.program = .exposing)
    (hr : reached (f.exposureStart + BitVec.ofNat 32 f.exposure) s.rsq.timeBase = true) :
    exec .exposureEnd s = .next (s.enterEntry { f with rowPtr := 0, imageRows := 0 }
      s.rsq.viewStart) := by
  show execExposureEnd s = _
  unfold execExposureEnd
  rw [hf]
  simp only [hp, State.now, hr, hs]
  rfl

/-! ### View frames -/

theorem startNext_fdr (s : State) : s.startNext.fdr = s.fdr := (startNext_link s).fdr

/-- The signal of an exposure start keeps the marker's snapshot (R78, R87). -/
theorem exposureStart_marker (s : State) (mid : Time) :
    (s.exposureStart mid).fdr.markerShot = s.fdr.markerShot := by
  unfold State.exposureStart
  dsimp only
  split
  · rw [startNext_fdr]
  · rfl

/-- A view frame that begins now (R50). -/
def viewBegun (s : State) : Frame :=
  ⟨.view, 0, s.rsq.timeBase, s.rsq.timeBase, s.rsq.timeBase, s.rsq.settings.viewExposure,
    s.rsq.timeBase + BitVec.ofNat 32 (s.rsq.settings.viewExposure / 2), s.rsq.settings.rate,
    .exposing, 0, 0⟩

/-- The state of a view frame's start before the drive is signalled (R50, R87). -/
def viewStarted (s : State) : State :=
  { s with
    rsq := { s.rsq with
      state := .view, lastView := some s.rsq.timeBase, frame := some (viewBegun s),
      viewOut := { s.rsq.viewOut with syncs := s.rsq.viewOut.syncs + 1, rows := 0 } },
    fdr := { s.fdr with markerShot := ⟨s.fdr.marker, s.fdr.area, s.fdr.state⟩ } }

theorem exec_viewFrameStart {s : State} (hp : s.pwc.power = .active) (hs : s.rsq.state = .idle)
    (hb : s.rsq.burst.active = false) (hv : s.rsq.settings.view = true)
    (hd : ∀ u, s.rsq.lastView = some u →
      (if s.rsq.settings.rate = 60 then 16667 else 33333) ≤ (s.rsq.timeBase - u).toNat) :
    exec .viewFrameStart s = .next ((viewStarted s).exposureStart
      (s.rsq.timeBase + BitVec.ofNat 32 (s.rsq.settings.viewExposure / 2))) := by
  show execViewFrameStart s = _
  unfold execViewFrameStart
  cases hl : s.rsq.lastView with
  | none =>
    simp only [hp, hs, hb, hv]
    rfl
  | some u =>
    have due : decide (viewPeriod s.rsq.settings.rate ≤ elapsed u s.now) = true :=
      decide_eq_true (hd u hl)
    simp only [hp, hs, hb, hv, due]
    rfl

/-- Settles O56. -/
theorem exposureEvents : Obligations.ExposureEvents := by
  intro s f began
  refine ⟨fun hf hs hr => ?_, fun hf hs hr => ?_, fun e hf hs hk hp hr he => ?_,
    fun e hf hs hk hp hr he => ?_, fun hp hs hb hv hd => ?_⟩
  · have next : exec .focusWaitTimeout s = .next s.markExpired.enterExpose := by
      show execFocusWaitTimeout s = _
      unfold execFocusWaitTimeout
      rw [hf]
      exact if_pos (by rw [hs]; exact hr)
    have expired : s.markExpired = s.modRecord f.shot fun r =>
        { r with flags := { r.flags with waitExpired := true } } := by
      unfold State.markExpired
      rw [hf]
    rw [expired] at next
    exact ⟨_, next, enterExpose_rsq (f := f) hf, (enterExpose_capture _).get State.catalog⟩
  · rw [← stamp_eq]
    show execExposureMidpoint s = _
    unfold execExposureMidpoint
    rw [hf]
    exact if_pos (by rw [hs]; exact hr)
  · have next := exec_exposureEnd_still hf hs hp hr
    let u : State := { s.stamp f with rsq := { s.rsq with state := .readout } }
    by_cases hstop : e.kind = .stop
    · rw [enterEntry_ends (s := u) he hstop (f := { f with rowPtr := 0, imageRows := 0 }) hk] at next
      refine ⟨_, next, by rw [if_pos hstop], ⟨fun _ => rfl, fun h => ?_⟩, fun r hr hs' => ?_⟩
      · exact nomatch hstop.symm.trans h
      · exact stamp_stamped s f hr hs'
    · obtain ⟨rsq, catalog, start⟩ := enterEntry_runs (s := u) he hstop
        { f with rowPtr := 0, imageRows := 0 }
      refine ⟨_, next, by rw [rsq, if_neg hstop], start, fun r hr hs' => ?_⟩
      rw [catalog] at hr
      exact stamp_stamped s f hr hs'
  · have next := exec_exposureEnd_view hf hs hp hr
    by_cases hstop : e.kind = .stop
    · rw [enterEntry_view he hstop (f := { f with rowPtr := 0, imageRows := 0 }) hk] at next
      obtain ⟨catalog, frame, state⟩ := endView_over s { f with rowPtr := 0, imageRows := 0 }
      exact ⟨_, next, catalog, fun h => absurd hstop h, fun _ => ⟨frame, state⟩⟩
    · obtain ⟨rsq, catalog, start⟩ := enterEntry_runs he hstop { f with rowPtr := 0, imageRows := 0 }
      exact ⟨_, next, catalog, fun _ => ⟨start, rsq⟩, fun h => absurd h hstop⟩
  · intro x
    have capture := exposureStart_capture (viewStarted s)
      (s.rsq.timeBase + BitVec.ofNat 32 (x / 2))
    exact ⟨_, exec_viewFrameStart hp hs hb hv hd, exposureStart_rsq _ _, exposureStart_marker _ _,
      capture.get State.catalog, capture.get State.phc, capture.get State.med⟩

end Sys2Proof.Machine
end

section
/-! PROOFS. What the focus drive reaches, and the entries, pairs and rows of a readout (R30, R47, R48,
R50, R55, R57, R66). -/
namespace Sys2Proof.Machine

/-! ### What the focus drive reaches -/

/-- The drive changes the sequencer's state and frame, itself, the link, ports and records, and not the
focus area. -/
structure DriveOnly (s t : State) : Prop where
  rest : { t with
    rsq := s.rsq, fdr := s.fdr, lnk := s.lnk, prt := s.prt, catalog := s.catalog } = s
  seq : { t.rsq with state := s.rsq.state, frame := s.rsq.frame } = s.rsq
  area : t.fdr.area = s.fdr.area

theorem DriveOnly.refl (s : State) : DriveOnly s s := ⟨rfl, rfl, rfl⟩

theorem DriveOnly.trans {a b c : State} (h : DriveOnly a b) (k : DriveOnly b c) : DriveOnly a c where
  rest := Eq.trans (congrArg (fun u : State => { u with
    rsq := a.rsq, fdr := a.fdr, lnk := a.lnk, prt := a.prt, catalog := a.catalog }) k.rest) h.rest
  seq := Eq.trans (congrArg (fun q : Rsq => { q with
    state := a.rsq.state, frame := a.rsq.frame }) k.seq) h.seq
  area := k.area.trans h.area

theorem DriveOnly.get {α : Type} {s t : State} (h : DriveOnly s t) (f : State → α)
    (hf : ∀ u r d l q c, f { u with rsq := r, fdr := d, lnk := l, prt := q, catalog := c } = f u := by
      intros; rfl) : f t = f s :=
  (hf t s.rsq s.fdr s.lnk s.prt s.catalog).symm.trans (congrArg f h.rest)

/-- What the sequencer holds beside its state and frame stays. -/
theorem DriveOnly.getSeq {α : Type} {s t : State} (h : DriveOnly s t) (f : Rsq → α)
    (hf : ∀ r q g, f { r with state := q, frame := g } = f r := by intros; rfl) :
    f t.rsq = f s.rsq :=
  (hf t.rsq s.rsq.state s.rsq.frame).symm.trans (congrArg f h.seq)

theorem DriveOnly.ite {s a b : State} {c : Prop} [Decidable c] (ha : DriveOnly s a)
    (hb : DriveOnly s b) : DriveOnly s (if c then a else b) := by
  split <;> assumption

/-- A step past a change of the drive that keeps the focus area. -/
theorem DriveOnly.retuned {s t : State} {d : Fdr} (h : DriveOnly { s with fdr := d } t)
    (ha : d.area = s.fdr.area := by rfl) : DriveOnly s t where
  rest := Eq.trans (congrArg (fun u : State => { u with fdr := s.fdr }) h.rest) rfl
  seq := h.seq
  area := h.area.trans ha

theorem PortsOnly.drive {s t : State} (h : PortsOnly s t) : DriveOnly s t where
  rest := (congrArg (fun u : State => { u with
    rsq := s.rsq, fdr := s.fdr, lnk := s.lnk, catalog := s.catalog }) h :)
  seq := by rw [h.get State.rsq]
  area := h.get (·.fdr.area)

theorem LinkOnly.drive {s t : State} (h : LinkOnly s t) : DriveOnly s t where
  rest := (congrArg (fun u : State => { u with
    rsq := s.rsq, fdr := s.fdr, prt := s.prt, catalog := s.catalog }) h.rest :)
  seq := by rw [h.rsq]
  area := by rw [h.fdr]

/-- A capture step that keeps the sequencer's other fields and the session. -/
theorem CaptureOnly.drive {s t : State} (h : CaptureOnly s t)
    (seq : { t.rsq with state := s.rsq.state, frame := s.rsq.frame } = s.rsq)
    (same : SameSession s t) : DriveOnly s t where
  rest := (congrArg (fun u : State => { u with prt := s.prt, catalog := s.catalog }) h :)
  seq := seq
  area := same.area

theorem enterExpose_drive (s : State) : DriveOnly s s.enterExpose := by
  refine (enterExpose_capture s).drive ?_ (enterExpose_session s)
  cases hf : s.rsq.frame with
  | none =>
    have same : s.enterExpose = s := by
      unfold State.enterExpose
      rw [hf]
    rw [same, ← hf]
  | some f =>
    rw [enterExpose_rsq hf, ← hf]

theorem modRecord_drive (s : State) (n : Nat) (g : Record → Record) :
    DriveOnly s (s.modRecord n g) := ⟨rfl, rfl, rfl⟩

theorem markExpired_drive (s : State) : DriveOnly s s.markExpired := by
  unfold State.markExpired
  split
  · exact .refl s
  · exact modRecord_drive s _ _

theorem checkFocusWait_drive (s : State) : DriveOnly s s.checkFocusWait := by
  have expired : DriveOnly s s.markExpired.enterExpose :=
    (markExpired_drive s).trans (enterExpose_drive _)
  unfold State.checkFocusWait
  split
  case isFalse => exact .refl s
  case isTrue =>
    split
    case h_1 => exact enterExpose_drive s
    case h_2 | h_3 | h_4 | h_5 => exact expired
    case h_6 | h_7 => exact .ite (enterExpose_drive s) (.refl s)

theorem setFocusState_drive (s : State) (st : FocusState) : DriveOnly s (s.setFocusState st) := by
  unfold State.setFocusState
  refine .ite (checkFocusWait_drive s) ?_
  refine .trans ?_ (checkFocusWait_drive _)
  have only : PortsOnly { s with fdr := { s.fdr with state := st } }
      (State.notifyBodyTether { s with fdr := { s.fdr with state := st } }
        (.focusState st s.fdr.mode)) :=
    (notify_portsOnly _ _ _).trans (notify_portsOnly _ _ _)
  exact only.drive.retuned

theorem setTarget_drive (s : State) (d : Descriptor) (v : Int) (b : Bool) :
    DriveOnly s (s.setTarget d v b) :=
  (setTarget_link s d v b).drive.retuned

theorem applyPrediction_drive (s : State) (d : Descriptor) :
    DriveOnly s (s.applyPrediction d) := by
  obtain ⟨t, link⟩ := applyPrediction_link s d
  exact link.drive.retuned

theorem beginScan_drive (s : State) (d : Descriptor) : DriveOnly s (s.beginScan d) := by
  unfold State.beginScan
  dsimp only
  refine .trans ?_ (queueMove_link _ _ _).drive
  exact ⟨rfl, rfl, rfl⟩

theorem applyValid_drive (s : State) (d : Descriptor) (p : Int) :
    DriveOnly s (s.applyValid d p) := by
  unfold State.applyValid
  split
  case h_1 =>
    refine .ite ?_ (.refl s)
    refine .trans ?_ (checkFocusWait_drive _)
    refine .trans ?_ (setTarget_drive _ d p false)
    exact ⟨rfl, rfl, rfl⟩
  case h_2 =>
    have stored : DriveOnly s (remembered s p) := ⟨rfl, rfl, rfl⟩
    refine stored.trans ?_
    refine .trans ?_ (checkFocusWait_drive _)
    refine .trans ?_ (applyPrediction_drive _ d)
    exact .ite (setFocusState_drive (remembered s p) .tracking) (.refl (remembered s p))
  case h_3 => exact setFocusState_drive s _

theorem applyLow_drive (s : State) (d : Descriptor) : DriveOnly s (s.applyLow d) := by
  unfold State.applyLow
  split
  case h_1 => exact .ite (beginScan_drive s d) (.refl s)
  case h_2 =>
    refine .ite ⟨rfl, rfl, rfl⟩ ?_
    refine .trans ?_ (setFocusState_drive _ _)
    exact ⟨rfl, rfl, rfl⟩
  case h_3 => exact setFocusState_drive s _

theorem applyMeasurement_drive (s : State) (m : Measurement) :
    DriveOnly s (s.applyMeasurement m) := by
  unfold State.applyMeasurement
  split
  case h_1 r d _ _ _ =>
    dsimp only
    have steered_drive : ∀ p : Int, DriveOnly s (steered s m d p) := fun p =>
      .ite (.refl s) (.ite (applyValid_drive s d p) (applyLow_drive s d))
    split
    · exact (steered_drive _).trans (modRecord_drive _ _ _)
    · exact steered_drive _
  case h_2 => exact .refl s

/-! ### PD-done -/

/-- The measurement of a PD entry that is over (R66). -/
def measured (s : State) (f : Frame) (snap : PdSnapshot) : Measurement :=
  measure snap s.phc.store s.phc.pairs s.rsq.timeBase f.kind
    (if f.kind = .still then some f.shot else none)

/-- The correlator's registers with it. -/
def measuredPhc (s : State) (f : Frame) (snap : PdSnapshot) : Phc :=
  { s.phc with
    number := nextNumber s.phc.number, record := some (measured s f snap),
    curve := keptCurve snap s.phc.store s.phc.pairs, snapshot := none, store := [] }

theorem pdDone_eq {s : State} {snap : PdSnapshot} (h : s.phc.snapshot = some snap) (f : Frame) :
    s.pdDone f = State.applyMeasurement { s with phc := measuredPhc s f snap } (measured s f snap) := by
  unfold State.pdDone measuredPhc measured
  rw [h]
  cases f.kind <;> rfl

/-- The state after PD-done, where there was a snapshot (R66). -/
theorem pdDone_spec (s : State) (f : Frame) :
    (s.pdDone f).pwc = s.pwc ∧ (s.pdDone f).rsq.program = s.rsq.program ∧
      (s.pdDone f).rsq.timeBase = s.rsq.timeBase ∧ (s.pdDone f).fdr.area = s.fdr.area ∧
      (s.pdDone f).phc.setup = s.phc.setup ∧
      ∀ snap, s.phc.snapshot = some snap → (s.pdDone f).phc = measuredPhc s f snap := by
  cases h : s.phc.snapshot with
  | none =>
    have same : s.pdDone f = s := by
      unfold State.pdDone
      rw [h]
    rw [same]
    exact ⟨rfl, rfl, rfl, rfl, rfl, nofun⟩
  | some snap =>
    have drive := applyMeasurement_drive { s with phc := measuredPhc s f snap } (measured s f snap)
    rw [pdDone_eq h]
    refine ⟨drive.get State.pwc, drive.getSeq Rsq.program, drive.getSeq Rsq.timeBase, drive.area,
      drive.get (·.phc.setup), fun snap' e => ?_⟩
    cases e
    exact drive.get State.phc

/-! ### The end of an entry -/

/-- The frame with the row pointer past a SKIP (R30). -/
def passedRows (f : Frame) (e : Entry) : Frame :=
  { f with rowPtr := if e.kind = .skip then f.rowPtr + e.count else f.rowPtr }

theorem skipRows_eq (f : Frame) (e : Entry) : skipRows f e = passedRows f e := by
  unfold skipRows passedRows
  cases e.kind <;> rfl

theorem goOff_phc (s : State) (b : Bool) :
    (s.goOff b).phc = { s.phc with snapshot := none, store := [] } := by
  have waits : NotWaiting (frameOff s b) := by simp [NotWaiting, frameOff_rsq]
  have off : (frameOff s b).phc = { (s.setSeq .off).phc with snapshot := none, store := [] } := rfl
  rw [(setSeq_calm s .off).phc] at off
  exact ((endSession_portsOnly waits).get State.phc).trans off

/-- The correlator's results, apart from what an entry in progress holds. -/
structure SameResults (s t : State) : Prop where
  number : t.phc.number = s.phc.number
  record : t.phc.record = s.phc.record
  curve : t.phc.curve = s.phc.curve

theorem SameResults.of_phc {s t : State} (h : t.phc = s.phc) : SameResults s t :=
  ⟨by rw [h], by rw [h], by rw [h]⟩

theorem endView_results (s : State) (f : Frame) : SameResults s (s.endView f) := by
  unfold State.endView
  dsimp only
  have kept : (State.giveMidpoint { s with rsq := { s.rsq with state := .idle, frame := none } }
      (f.start + BitVec.ofNat 32 (viewPeriod f.rate) + BitVec.ofNat 32 (f.exposure / 2))).phc =
        s.phc := (giveMidpoint_capture _ _).get State.phc
  generalize State.giveMidpoint _ _ = u at kept ⊢
  split
  · have phc := ((saveTest_marks (u.goOff false)).get State.phc).trans (goOff_phc u false)
    rw [kept] at phc
    exact ⟨by rw [phc], by rw [phc], by rw [phc]⟩
  · exact .of_phc kept

/-- The beginning of an entry keeps the correlator's results. -/
theorem enterEntry_results (s : State) (f : Frame) (i : Nat) : SameResults s (s.enterEntry f i) := by
  unfold State.enterEntry
  split
  · split
    · split
      · exact .of_phc rfl
      · exact endView_results s f
    · exact ⟨rfl, rfl, rfl⟩
    · exact .of_phc rfl
    · exact .of_phc rfl
    · exact .of_phc rfl
  · split
    · exact .of_phc rfl
    · exact endView_results s f

/-- The state in which the next entry begins: after PD-done where a PD entry is over (R30, R66). -/
def entryClosed (s : State) (f : Frame) (e : Entry) : State :=
  if e.kind = .pd then s.pdDone f else s

/-- What the end of an entry leaves for the next. -/
structure Closed (s t : State) : Prop where
  pwc : t.pwc = s.pwc
  program : t.rsq.program = s.rsq.program
  timeBase : t.rsq.timeBase = s.rsq.timeBase
  area : t.fdr.area = s.fdr.area
  setup : t.phc.setup = s.phc.setup

theorem entryClosed_closed (s : State) (f : Frame) (e : Entry) : Closed s (entryClosed s f e) := by
  unfold entryClosed
  split
  · obtain ⟨pwc, program, timeBase, area, setup, -⟩ := pdDone_spec s f
    exact ⟨pwc, program, timeBase, area, setup⟩
  · exact ⟨rfl, rfl, rfl, rfl, rfl⟩

theorem exec_entryEnd {s : State} {f : Frame} {i lines : Nat} {since : Time} {e : Entry}
    (hf : s.rsq.frame = some f) (hp : f.program = .running i lines since)
    (he : s.rsq.program[i]? = some e) (ho : s.entryOver e lines since = true) :
    exec .entryEnd s =
      .next ((entryClosed s f e).enterEntry (passedRows f e) (i + 1)).settle := by
  show execEntryEnd s = _
  unfold execEntryEnd
  rw [hf]
  dsimp only
  rw [hp]
  dsimp only
  rw [he]
  dsimp only
  rw [ho, skipRows_eq]
  rfl

theorem WorkOnly.phc {s t : State} (h : WorkOnly s t) : t.phc = s.phc :=
  (congrArg State.phc h.rest :)

/-! ### Rows -/

/-- The frame of a row or a pair later (R30). -/
def nextLine (f : Frame) (i lines : Nat) (since : Time) : Frame :=
  { f with program := .running i (lines + 1) since }

/-- The frame an image row later (R30). -/
def nextRow (f : Frame) (i lines : Nat) (since : Time) : Frame :=
  { nextLine f i lines since with rowPtr := f.rowPtr + 1, imageRows := f.imageRows + 1 }

/-- The state in which an image row arrives. -/
def rowArrived (s : State) (g : Frame) : State := { s with rsq := { s.rsq with frame := some g } }

/-- An image row of the frame's own kind, in an IMAGE entry with rows left. -/
theorem exec_imageRow {s : State} {f : Frame} {i lines : Nat} {since : Time} {e : Entry}
    (hf : s.rsq.frame = some f) (hp : f.program = .running i lines since)
    (he : s.rsq.program[i]? = some e) (hk : e.kind = .image) (hl : lines < e.count) :
    (∀ samples, f.kind = .still → exec (.imageRow (.still samples)) s =
      .next ((rowArrived s (nextRow f i lines since)).stillRow f f.rowPtr samples).settle) ∧
    ∀ pixels, f.kind = .view → exec (.imageRow (.view pixels)) s =
      .next ((rowArrived s (nextRow f i lines since)).viewRow f pixels) := by
  refine ⟨fun samples hs => ?_, fun pixels hs => ?_⟩
  all_goals
    show execImageRow _ s = _
    unfold execImageRow
    rw [hf]
    dsimp only
    rw [hp]
    dsimp only
    rw [he]
    dsimp only
    rw [if_pos (by simp [hk, hl])]
    cases f
    cases hs
    rfl

end Sys2Proof.Machine
end

section
/-! PROOFS. READOUT_END and the other events of a readout (R13, R44). -/
namespace Sys2Proof.Machine

/-! ### A record whose raw some slot still wants -/

/-- A property of records that keeps their raw: it speaks of life, raw and copies alone, outlasts the
start of a copy, and holds only while the raw is PRESENT and a slot wants it. -/
structure Guard (P : Record → Prop) : Prop where
  congr : ∀ q r, q.life = r.life → q.raw = r.raw → q.copies = r.copies → P r → P q
  writing : ∀ q x part, P q → P (writingCopy x part q)
  present : ∀ q, P q → q.raw.state = .present
  wanted : ∀ q, P q → ∃ x, (q.copies.get x .raw).needs = true

/-- The sequencer and the power block stand at `q` and `w`, and every record of the shot has the
property. -/
structure Guarded (n : Nat) (P : Record → Prop) (q : Rsq) (w : Pwc) (s : State) : Prop where
  rsq : s.rsq = q
  pwc : s.pwc = w
  all : ∀ r, r ∈ s.catalog → r.shot = n → P r

section
variable {n : Nat} {P : Record → Prop} {q : Rsq} {w : Pwc} {s : State}

theorem Guarded.still (h : Guarded n P q w s) (hq : ∀ r, q.state ≠ .stalled r) : NotStalled s :=
  fun r e => hq r (h.rsq ▸ e)

/-- An update outside the sequencer, power and the records. -/
theorem Guarded.plain {t : State} (h : Guarded n P q w s) (hr : t.rsq = s.rsq := by rfl)
    (hw : t.pwc = s.pwc := by rfl) (hc : t.catalog = s.catalog := by rfl) : Guarded n P q w t :=
  ⟨hr.trans h.rsq, hw.trans h.pwc, hc ▸ h.all⟩

theorem Guarded.ports {t : State} (h : Guarded n P q w s) (k : PortsOnly s t) : Guarded n P q w t :=
  h.plain (k.get State.rsq) (k.get State.pwc) (k.get State.catalog)

theorem Guarded.modRecord (h : Guarded n P q w s) (m : Nat) (g : Record → Record)
    (hs : ∀ r, (g r).shot = r.shot) (hg : ∀ r, P r → P (g r)) :
    Guarded n P q w (s.modRecord m g) := by
  refine ⟨h.rsq, h.pwc, fun r hr hn => ?_⟩
  obtain ⟨r0, h0, rfl⟩ := List.mem_map.mp hr
  by_cases e : r0.shot = m
  · rw [if_pos e] at hn ⊢
    exact hg r0 (h.all r0 h0 (hs r0 ▸ hn))
  · rw [if_neg e] at hn ⊢
    exact h.all r0 h0 hn

/-- A change of a record's other fields. -/
theorem Guarded.aside (h : Guarded n P q w s) (hP : Guard P) (m : Nat) (g : Record → Record)
    (hg : ∀ r, (g r).shot = r.shot ∧ (g r).life = r.life ∧ (g r).raw = r.raw ∧
      (g r).copies = r.copies := by intro r; exact ⟨rfl, rfl, rfl, rfl⟩) :
    Guarded n P q w (s.modRecord m g) :=
  h.modRecord m g (fun r => (hg r).1) fun r =>
    hP.congr _ _ (hg r).2.1 (hg r).2.2.1 (hg r).2.2.2

/-- A change of another shot's record. -/
theorem Guarded.other (h : Guarded n P q w s) {m : Nat} (hm : m ≠ n) (g : Record → Record)
    (hs : ∀ r, (g r).shot = r.shot := by intro r; rfl) : Guarded n P q w (s.modRecord m g) := by
  refine ⟨h.rsq, h.pwc, fun r hr hn => ?_⟩
  obtain ⟨r0, h0, rfl⟩ := List.mem_map.mp hr
  split at hn
  · next e => exact absurd (e.symm.trans ((hs r0).symm.trans hn)) hm
  · next e =>
    rw [if_neg e]
    exact h.all r0 h0 hn

theorem Guarded.free (h : Guarded n P q w s) (hq : ∀ r, q.state ≠ .stalled r) (es : List Run) :
    Guarded n P q w (s.free es) := by
  rw [free_eq (h.still hq)]
  split
  · exact h
  · exact h.plain

theorem Guarded.missTether (h : Guarded n P q w s) (hP : Guard P) (m : Nat) :
    Guarded n P q w (s.missTether m) := by
  unfold State.missTether
  split
  · exact h
  · refine .ports (.ports (.aside (s := { s with snq := { s.snq with
      tether := s.snq.tether.filter fun e => e.shot != m } }) h.plain hP m
      (fun r => { r with tether := .missed })) (notify_portsOnly _ _ _)) (notify_portsOnly _ _ _)

theorem Guarded.freeRaw (h : Guarded n P q w s) (hq : ∀ r, q.state ≠ .stalled r) {m : Nat}
    (hm : m ≠ n) : Guarded n P q w (s.freeRaw m) := by
  unfold State.freeRaw
  split
  · exact h
  · exact (h.other hm _).free hq _

/-- The shot's own record is not released. -/
theorem Guarded.rawTest (h : Guarded n P q w s) (hP : Guard P) (hq : ∀ r, q.state ≠ .stalled r)
    (m : Nat) : Guarded n P q w (s.rawTest m) := by
  unfold State.rawTest
  split
  · exact h
  · next r hr =>
    split
    · next fires =>
      by_cases hm : m = n
      · obtain ⟨x, hx⟩ := hP.wanted r (h.all r (findRecord_mem hr) ((findRecord_shot hr).trans hm))
        have due : s.rawReleasable r = true := by
          simp only [Bool.and_eq_true] at fires
          exact fires.2
        exact absurd hx ((rawReleasable_iff.mp due).2.1 x)
      · exact (h.missTether hP m).freeRaw hq hm
    · exact h

theorem Guarded.freeVersion (h : Guarded n P q w s) (hP : Guard P)
    (hq : ∀ r, q.state ≠ .stalled r) (m k : Nat) : Guarded n P q w (s.freeVersion m k) := by
  unfold State.freeVersion
  split
  · exact h
  · exact (h.aside hP m fun q => { q with
      versions := q.versions.filter fun v => v.number != k }).free hq _

theorem Guarded.versionTests (hP : Guard P) (hq : ∀ r, q.state ≠ .stalled r) (m : Nat)
    (ks : List Nat) (h : Guarded n P q w s) : Guarded n P q w (s.versionTests m ks) := by
  induction ks generalizing s with
  | nil => exact h
  | cons k rest ih =>
    unfold State.versionTests
    split
    · exact h
    · split
      · exact ih h
      · split
        · exact ih (h.freeVersion hP hq m k)
        · exact ih h

/-- A PRESENT raw keeps a record from CARD_ONLY (R15). -/
theorem hasHold_of_present (s : State) {r : Record} (h : r.raw.state = .present) :
    s.hasHold r = true := by
  simp [State.hasHold, h]

theorem Guarded.cardOnlyTest (h : Guarded n P q w s) (hP : Guard P)
    (hq : ∀ r, q.state ≠ .stalled r) (m : Nat) : Guarded n P q w (s.cardOnlyTest m) := by
  unfold State.cardOnlyTest
  split
  · exact h
  · next r hr =>
    split
    · next fires =>
      by_cases hm : m = n
      · have present := hP.present r (h.all r (findRecord_mem hr) ((findRecord_shot hr).trans hm))
        simp [hasHold_of_present s present] at fires
      · have changed := h.other hm fun r => { r with life := .cardOnly }
        rw [retryCatalog_eq_self (changed.still hq)]
        exact changed
    · exact h

theorem Guarded.releaseTests (h : Guarded n P q w s) (hP : Guard P)
    (hq : ∀ r, q.state ≠ .stalled r) (m : Nat) : Guarded n P q w (s.releaseTests m) := by
  unfold State.releaseTests
  split
  · exact h
  · exact (Guarded.versionTests hP hq m _ (h.rawTest hP hq m)).cardOnlyTest hP hq m

theorem Guarded.admitFrom (hP : Guard P) (hq : ∀ r, q.state ≠ .stalled r) (ms : List Nat)
    (h : Guarded n P q w s) : Guarded n P q w (s.admitFrom ms) := by
  induction ms generalizing s with
  | nil => exact h
  | cons m rest ih =>
    have cleared : ∀ u, Guarded n P q w u →
        Guarded n P q w (((u.setWanted m none).releaseTests m).admitFrom rest) := fun u hu =>
      ih ((hu.aside hP m fun r => { r with wanted := none }).releaseTests hP hq m)
    unfold State.admitFrom
    split
    · exact ih h
    · split
      · exact ih h
      · split
        · exact cleared _ h.plain
        · split
          · exact cleared _ h.plain
          · exact h

theorem Guarded.chooseWork (h : Guarded n P q w s) (hP : Guard P) (x : Slot) :
    Guarded n P q w (s.chooseWork x) := by
  have media := chooseWork_mediaOnly s x
  have rsq : (s.chooseWork x).rsq = s.rsq := (congrArg State.rsq media :)
  have pwc : (s.chooseWork x).pwc = s.pwc := (congrArg State.pwc media :)
  rcases chooseWork_cases s x with ⟨-, he⟩ | ⟨-, -, he⟩ | ⟨-, -, he⟩ |
    ⟨_, part, _, r, -, -, -, -, -, he⟩
  · rw [he]
    exact h
  · exact h.plain rsq pwc (by rw [he, State.setSlot_catalog])
  · exact h.plain rsq pwc (by rw [he, State.setSlot_catalog])
  · refine ⟨rsq.trans h.rsq, pwc.trans h.pwc, ?_⟩
    rw [he, startCopy_catalog]
    intro r' hr hn
    obtain ⟨r0, h0, rfl⟩ := List.mem_map.mp hr
    by_cases e : r0.shot = r.shot
    · rw [if_pos e] at hn ⊢
      exact hP.writing r0 x part (h.all r0 h0 hn)
    · rw [if_neg e] at hn ⊢
      exact h.all r0 h0 hn

theorem Guarded.autoTransfer (h : Guarded n P q w s) (hP : Guard P) (m : Nat) :
    Guarded n P q w (s.autoTransfer m) := by
  unfold State.autoTransfer
  split
  · split
    · refine .ports (.aside (s := { s with snq := { s.snq with
        tether := s.snq.tether ++ [⟨m, false, 0⟩] } }) h.plain hP m
        (fun r => { r with tether := .queued })) (notify_portsOnly _ _ _)
    · refine .ports (.ports (h.aside hP m fun r => { r with tether := .missed })
        (notify_portsOnly _ _ _)) (notify_portsOnly _ _ _)
  · exact h

/-- A record but for its versions has the property as well. -/
theorem Guarded.bare {t : State} (h : Guarded n P q w s) (hP : Guard P) (k : SameBare s t)
    (hr : t.rsq = s.rsq) (hw : t.pwc = s.pwc) : Guarded n P q w t := by
  refine ⟨hr.trans h.rsq, hw.trans h.pwc, fun r hr hn => ?_⟩
  obtain ⟨r0, h0, e⟩ := k.from_mem hr
  have shot : r.shot = r0.shot := (congrArg Record.shot e :)
  exact hP.congr r r0 (congrArg Record.life e :) (congrArg Record.raw e :)
    (congrArg Record.copies e :) (h.all r0 h0 (shot ▸ hn))

end

/-! ### The record becomes HELD (R13) -/

/-- A copy as a readout leaves it (R13). -/
def NewCopy (c : Copy) : Prop :=
  c.attempts = 0 ∧ c.placement = none ∧ c.unverified = false ∧ c.version = none ∧
    (c.state = .pending ∨ c.state = .writing)

/-- The record of a frame read out: HELD, its raw PRESENT with the checksum, the raw copies of the slot
mode made out. -/
structure ReadOut (mode : SlotMode) (aFull : Bool) (sum : Sum32) (extents : List Run → Prop)
    (q : Record) : Prop where
  life : q.life = .held
  present : q.raw.state = .present
  checksum : q.raw.checksum = some sum
  extents : extents q.raw.extents
  copies : ∀ x, requiredOn mode aFull .raw x = true → NewCopy (q.copies.get x .raw)

theorem requiredOn_some (mode : SlotMode) (aFull : Bool) :
    ∃ x, requiredOn mode aFull .raw x = true := by
  cases mode with
  | overflow =>
    cases aFull with
    | false => exact ⟨.a, rfl⟩
    | true => exact ⟨.b, rfl⟩
  | mirror | split | singleA => exact ⟨.a, rfl⟩

theorem NewCopy.writing {q : Record} {y : Slot} (h : NewCopy (q.copies.get y .raw)) (x : Slot)
    (part : Part) : NewCopy ((writingCopy x part q).copies.get y .raw) := by
  unfold writingCopy
  dsimp only
  by_cases hx : y = x
  · subst hx
    by_cases hp : Part.raw = part
    · subst hp
      obtain ⟨attempts, placement, unverified, version, -⟩ := h
      rw [get_set_self]
      exact ⟨attempts, placement, unverified, version, .inr rfl⟩
    · rw [get_set_part _ _ _ hp]
      exact h
  · rw [get_set_slot _ hx]
    exact h

theorem readOut_guard (mode : SlotMode) (aFull : Bool) (sum : Sum32) (extents : List Run → Prop) :
    Guard (ReadOut mode aFull sum extents) where
  congr := fun q r hl hr hc h =>
    ⟨hl ▸ h.life, hr ▸ h.present, hr ▸ h.checksum, hr ▸ h.extents, hc ▸ h.copies⟩
  writing := fun _ x part h =>
    ⟨h.life, h.present, h.checksum, h.extents, fun y hy => (h.copies y hy).writing x part⟩
  present := fun _ h => h.present
  wanted := fun q h => by
    obtain ⟨x, hx⟩ := requiredOn_some mode aFull
    obtain ⟨-, -, -, -, state⟩ := h.copies x hx
    exact ⟨x, (needs_iff _).mpr (state.imp_right .inl)⟩

/-- The copies made out by the slot mode (R13, R120). -/
def requiredCopies (mode : SlotMode) (aFull : Bool) (part : Part) (version : Option Nat) (c : Copies) :
    Copies :=
  let c1 := if requiredOn mode aFull part .a then c.set .a part (.pendingFor version) else c
  if requiredOn mode aFull part .b then c1.set .b part (.pendingFor version) else c1

theorem requireCopies_eq (s : State) (n : Nat) (part : Part) (v : Option Nat) :
    s.requireCopies n part v = s.modRecord n fun r =>
      { r with copies := requiredCopies s.med.mode (s.med.a.state == .full) part v r.copies } := rfl

theorem requiredCopies_get {mode : SlotMode} {aFull : Bool} {part : Part} {x : Slot}
    (h : requiredOn mode aFull part x = true) (v : Option Nat) (c : Copies) :
    (requiredCopies mode aFull part v c).get x part = .pendingFor v := by
  unfold requiredCopies
  dsimp only
  cases x with
  | a =>
    rw [if_pos h]
    split
    · rw [get_set_slot _ (by nofun), get_set_self]
    · rw [get_set_self]
  | b => rw [if_pos h, get_set_self]

/-- The state in which the readout's record is made HELD. -/
def readoutOver (s : State) : State :=
  { s with rsq := { s.rsq with
      frame := none, burst := { s.rsq.burst with completed := s.rsq.burst.completed + 1 } } }

/-- Past READOUT_END every record of the shot is HELD with its raw. -/
theorem holdRecord_guarded {s : State} (f : Frame) (r : Record)
    (hs : ∀ why, s.rsq.state ≠ .stalled why) :
    Guarded f.shot (ReadOut s.med.mode (s.med.a.state == .full) s.rsq.rawSum
      fun es => ∃ q, q ∈ s.catalog ∧ q.shot = f.shot ∧ es = q.raw.extents)
      s.rsq s.pwc (s.holdRecord f r) := by
  have guard := readOut_guard s.med.mode (s.med.a.state == .full) s.rsq.rawSum
      fun es => ∃ q, q ∈ s.catalog ∧ q.shot = f.shot ∧ es = q.raw.extents
  unfold State.holdRecord
  dsimp only
  rw [requireCopies_eq]
  let u := (s.modRecord f.shot fun q => { q with
      life := .held, raw := { q.raw with state := .present, checksum := some s.rsq.rawSum } }).modRecord
    f.shot fun q => { q with
      copies := requiredCopies s.med.mode (s.med.a.state == .full) .raw none q.copies }
  have made : Guarded f.shot (ReadOut s.med.mode (s.med.a.state == .full) s.rsq.rawSum
      fun es => ∃ q, q ∈ s.catalog ∧ q.shot = f.shot ∧ es = q.raw.extents) s.rsq s.pwc u := by
    refine ⟨rfl, rfl, fun r1 h1 hn => ?_⟩
    obtain ⟨r2, h2, rfl⟩ := List.mem_map.mp h1
    obtain ⟨r0, h0, rfl⟩ := List.mem_map.mp h2
    dsimp only at hn ⊢
    by_cases e : r0.shot = f.shot
    · simp only [e, if_true] at hn ⊢
      exact ⟨rfl, rfl, rfl, ⟨r0, h0, e, rfl⟩, fun x hx => by
        rw [requiredCopies_get hx]
        exact ⟨rfl, rfl, rfl, rfl, .inl rfl⟩⟩
    · rw [if_neg e, if_neg e] at hn
      exact absurd hn e
  change Guarded _ _ _ _ (State.chooseBoth (State.admitAuto (State.releaseTests (State.notifyBodyTether
    (State.autoTransfer (if u.med.cardProof = true then
      u.setWanted f.shot (some ⟨u.dev.cardRecipe, .card⟩) else u) f.shot) _) _)))
  refine .chooseWork (.chooseWork (.admitFrom guard hs _ (.releaseTests (.ports (.autoTransfer ?_ guard _)
    ((notify_portsOnly _ _ _).trans (notify_portsOnly _ _ _))) guard hs _)) guard _) guard _
  split
  · exact made.aside guard f.shot fun r => { r with wanted := some ⟨u.dev.cardRecipe, .card⟩ }
  · exact made

end Sys2Proof.Machine
end

section
/-! PROOFS. The burst after a frame, and the statement about readouts (R33, R39, R44). -/
namespace Sys2Proof.Machine

/-! ### The burst goes on or ends -/

/-- The burst of this frame was its last (R33, R39). -/
def LastFrame (s : State) : Prop :=
  s.pwc.power = .saving ∨
    (if s.rsq.burst.count = 0 then 255 else s.rsq.burst.count) ≤ s.rsq.burst.started ∨
    s.rsq.burst.stopMark = true

/-- The burst's next due time (R44). -/
def nextDue (s : State) (f : Frame) : Time :=
  laterOf (f.start + BitVec.ofNat 32 (s.rsq.burst.interval * 1000)) s.now

theorem endBurst_completed (s : State) (why : BurstEndReason) :
    (s.endBurst why).rsq.burst.completed = s.rsq.burst.completed := by
  by_cases h : s.rsq.burst.active = true
  · rw [endBurst_rsq h]
  · unfold State.endBurst
    rw [if_neg h]

/-- What a frame's end leaves of the sequencer. -/
structure AfterFrame (s t : State) (f : Frame) : Prop where
  catalog : t.catalog = s.catalog
  frame : s.rsq.frame = none → t.rsq.frame = none
  completed : t.rsq.burst.completed = s.rsq.burst.completed
  state : t.rsq.state = if s.pwc.power = .saving then .off else .idle
  ended : LastFrame s → t.rsq.burst.active = false
  goes : ¬ LastFrame s → t.rsq.burst = { s.rsq.burst with due := nextDue s f }

/-- The burst ends and the sequencer is IDLE. -/
theorem endBurst_idle {s : State} {f : Frame} (hp : s.pwc.power ≠ .saving) (hl : LastFrame s)
    (why : BurstEndReason) : AfterFrame s ((s.endBurst why).setSeq .idle) f where
  catalog := (setSeq_catalog _ _).trans (endBurst_catalog s why)
  frame := fun h => by rw [setSeq_rsq]; exact (endBurst_frame s why).2.1.trans h
  completed := by rw [setSeq_rsq]; exact endBurst_completed s why
  state := by rw [setSeq_rsq, if_neg hp]
  ended := fun _ => by rw [setSeq_rsq]; exact endBurst_inactive s why
  goes := fun h => absurd hl h

theorem afterFrame_spec (s : State) (f : Frame) : AfterFrame s (s.afterFrame f) f := by
  unfold State.afterFrame
  dsimp only
  split
  · next hp =>
    have off := goOff_off (s.endBurst .save) false
    have marks := saveTest_marks ((s.endBurst .save).goOff false)
    exact {
      catalog := (marks.get State.catalog).trans (off.catalog.trans (endBurst_catalog s .save))
      frame := fun _ => by rw [marks.get State.rsq, off.rsq]
      completed := by
        rw [marks.get State.rsq, off.rsq]
        exact endBurst_completed s .save
      state := by rw [marks.get State.rsq, off.rsq, if_pos hp]
      ended := fun _ => by
        rw [marks.get State.rsq, off.rsq]
        exact endBurst_inactive s .save
      goes := fun h => absurd (.inl hp) h }
  · next hp =>
    by_cases hc : (if s.rsq.burst.count = 0 then 255 else s.rsq.burst.count) ≤ s.rsq.burst.started
    · rw [if_pos hc]
      exact endBurst_idle hp (.inr (.inl hc)) .count
    · rw [if_neg hc]
      split
      · next hm => exact endBurst_idle hp (.inr (.inr hm)) .stop
      · next hm =>
        let u : State := { s.setSeq .idle with
          rsq := { (s.setSeq .idle).rsq with burst := { s.rsq.burst with due := nextDue s f } } }
        have rsq := giveMidpoint_rsq u (nextDue s f + BitVec.ofNat 32 (s.rsq.burst.exposure / 2))
        have capture := giveMidpoint_capture u
          (nextDue s f + BitVec.ofNat 32 (s.rsq.burst.exposure / 2))
        change AfterFrame s (u.giveMidpoint
          (nextDue s f + BitVec.ofNat 32 (s.rsq.burst.exposure / 2))) f
        have seq : u.rsq = { s.rsq with
            state := .idle, burst := { s.rsq.burst with due := nextDue s f } } := by
          show { (s.setSeq .idle).rsq with burst := { s.rsq.burst with due := nextDue s f } } = _
          rw [setSeq_rsq]
        have last : ¬ LastFrame s := by
          rintro (h | h | h)
          · exact hp h
          · exact hc h
          · exact hm h
        exact {
          catalog := (capture.get State.catalog).trans (setSeq_catalog s .idle)
          frame := fun h => by rw [rsq, seq]; exact h
          completed := by rw [rsq, seq]
          state := by rw [rsq, seq, if_neg hp]
          ended := fun h => absurd h last
          goes := fun _ => by rw [rsq, seq] }

theorem exec_readoutEnd {s : State} {f : Frame} {r : Record} (hf : s.rsq.frame = some f)
    (hs : s.rsq.state = .readout) (hp : f.program = .ended) (hn : s.rsq.fifo = [])
    (ho : s.rsq.owed = []) (hr : s.findRecord f.shot = some r) :
    exec .readoutEnd s =
      .next (((readoutOver s).holdRecord f r).afterFrame f).settle := by
  show execReadoutEnd s = _
  unfold execReadoutEnd
  rw [hf]
  dsimp only
  rw [if_pos (by simp [hs, hp, hn, ho]), hr]
  rfl

/-- The sum of conditions of the slot mode that the statement writes out (R120). -/
theorem requiredOn_raw (s : State) (x : Slot) :
    (requiredOn s.med.mode (s.med.a.state == .full) .raw x = true) ↔
      (match s.med.mode, x with
        | .mirror, _ => True
        | .split, .a => True
        | .split, .b => False
        | .overflow, .a => (s.slot .a).state ≠ .full
        | .overflow, .b => (s.slot .a).state = .full
        | .singleA, .a => True
        | .singleA, .b => False) := by
  have slot : s.slot .a = s.med.a := rfl
  cases s.med.mode <;> cases x <;> simp [requiredOn, slot]

/-- Settles O57. -/
theorem readoutEvents : Obligations.ReadoutEvents := by
  intro s f i lines since e hf
  refine ⟨fun hp he ho => ?_, fun left right snap hp he hk hl hs => ?_, fun hp he hk hl => ?_,
    fun r hs hp hn ho hr => ?_⟩
  · have next := exec_entryEnd hf hp he ho
    have closed := entryClosed_closed s f e
    have measures : ∀ snap, e.kind = .pd → s.phc.snapshot = some snap →
        (entryClosed s f e).phc = measuredPhc s f snap := fun snap hk hs => by
      obtain ⟨-, -, -, -, -, phc⟩ := pdDone_spec s f
      rw [entryClosed, if_pos hk]
      exact phc snap hs
    have quiet : e.kind ≠ .pd → (entryClosed s f e).phc = s.phc := fun hk => by
      rw [entryClosed, if_neg hk]
    generalize entryClosed s f e = u at next closed measures quiet
    have results := enterEntry_results u (passedRows f e) (i + 1)
    have work := settle_work (u.enterEntry (passedRows f e) (i + 1))
    have at_ : ∀ e', s.rsq.program[i + 1]? = some e' → u.rsq.program[i + 1]? = some e' :=
      fun e' h => closed.program.symm ▸ h
    refine ⟨_, next, fun e' h hk => ?_, fun e' h hk => ?_, fun e' h hk hf' => ?_,
      fun e' h hk hf' hw => ?_, fun snap hk hs => ?_, fun hk => ?_⟩
    · obtain ⟨rsq, -⟩ := enterEntry_runs (at_ e' h) hk (passedRows f e)
      rw [work.rsq, rsq, closed.timeBase]
      rfl
    · obtain ⟨-, -, -, began⟩ := enterEntry_runs (at_ e' h) (by rw [hk]; nofun) (passedRows f e)
      rw [work.phc, began hk, closed.setup, closed.area]
      exact ⟨rfl, rfl, rfl, rfl⟩
    · rw [work.rsq, enterEntry_ends (at_ e' h) hk (f := passedRows f e) hf']
      rfl
    · obtain ⟨-, frame, state⟩ := endView_over u (passedRows f e)
      rw [work.rsq, enterEntry_view (at_ e' h) hk (f := passedRows f e) hf']
      exact ⟨frame, state.trans (if_neg (by rw [closed.pwc]; exact hw))⟩
    · have phc := measures snap hk hs
      rw [work.phc, results.number, results.record, results.curve, phc]
      exact ⟨rfl, rfl, rfl⟩
    · rw [work.phc, results.number, results.record, results.curve, quiet hk]
      exact ⟨rfl, rfl, rfl⟩
  · show execPdPair left right s = _
    unfold execPdPair
    rw [hf]
    dsimp only
    rw [hp]
    dsimp only
    rw [he]
    dsimp only
    rw [if_pos (by simp [hk, hl]), State.takePair]
    dsimp only
    rw [hs]
  · intro g
    obtain ⟨still, view⟩ := exec_imageRow hf hp he hk hl
    refine ⟨fun samples hs hn => ?_, fun samples hs hn => ?_, fun pixels hs => view pixels hs⟩
    · have row : (rowArrived s g).stillRow f f.rowPtr samples = { s with rsq := { s.rsq with
          frame := some g, fifo := s.rsq.fifo ++ [⟨f.rowPtr, samples⟩] } } := if_pos hn
      have next := still samples hs
      change _ = Host.Outcome.next ((rowArrived s g).stillRow f f.rowPtr samples).settle at next
      rw [row] at next
      have work := settle_work { s with rsq := { s.rsq with
          frame := some g, fifo := s.rsq.fifo ++ [⟨f.rowPtr, samples⟩] } }
      exact ⟨_, next, work.rsq, work.phc, work.med, work.prt⟩
    · have row : (rowArrived s g).stillRow f f.rowPtr samples =
          State.modRecord { s with rsq := { s.rsq with
            frame := some g, owed := s.rsq.owed ++ [f.rowPtr] } } f.shot fun r =>
              { r with flags := { r.flags with damaged := true, lostRows := r.flags.lostRows + 1 } } :=
        if_neg (Nat.not_lt.mpr hn)
      have next := still samples hs
      change _ = Host.Outcome.next ((rowArrived s g).stillRow f f.rowPtr samples).settle at next
      rw [row] at next
      refine ⟨_, next, (settle_work _).rsq, fun r hr hsr => ?_⟩
      obtain ⟨r1, h1, bare⟩ := (settle_bare _).from_mem hr
      have shot : r.shot = r1.shot := (congrArg Record.shot bare :)
      have flags : r.flags = r1.flags := (congrArg Record.flags bare :)
      obtain ⟨q, hq, rfl⟩ := List.mem_map.mp h1
      by_cases hqs : q.shot = f.shot
      · rw [if_pos hqs] at flags
        exact ⟨q, hq, hqs, flags⟩
      · rw [if_neg hqs] at shot
        exact absurd (shot.symm.trans hsr) hqs
  · intro b ended asked required
    have unstalled : ∀ why, (readoutOver s).rsq.state ≠ .stalled why := fun why h => by
      cases hs.symm.trans h
    have held := holdRecord_guarded (s := readoutOver s) f r unstalled
    have next := exec_readoutEnd hf hs hp hn ho hr
    generalize (readoutOver s).holdRecord f r = u at held next
    have after := afterFrame_spec u f
    have work := settle_work (u.afterFrame f)
    have last : LastFrame u ↔ ended := by
      unfold LastFrame
      rw [held.rsq, held.pwc]
      exact Iff.rfl
    refine ⟨_, next, ?_, ?_, ?_, fun h => ?_, fun h => ?_, fun q hq hn => ?_⟩
    · rw [work.rsq]
      exact after.frame (by rw [held.rsq]; rfl)
    · rw [work.rsq, after.completed, held.rsq]
      rfl
    · rw [work.rsq, after.state, held.pwc]
      rfl
    · rw [work.rsq]
      exact after.ended (last.mpr h)
    · rw [work.rsq, after.goes fun k => h (last.mp k)]
      unfold nextDue State.now
      rw [held.rsq]
      unfold laterOf
      simp only [reached, decide_eq_true_eq]
      rfl
    · obtain ⟨q1, h1, bare⟩ := (settle_bare _).from_mem hq
      have shot : q.shot = q1.shot := (congrArg Record.shot bare :)
      have life : q.life = q1.life := (congrArg Record.life bare :)
      have raw : q.raw = q1.raw := (congrArg Record.raw bare :)
      have copies : q.copies = q1.copies := (congrArg Record.copies bare :)
      have out := held.all q1 (after.catalog ▸ h1) (shot ▸ hn)
      rw [life, raw, copies]
      refine ⟨out.life, out.present, out.checksum, fun hc => ?_, fun x hx => ?_⟩
      · obtain ⟨q0, h0, hs0, same⟩ := out.extents
        have found := find_of_mem hc h0 hs0
        cases hr.symm.trans found
        exact same
      · exact out.copies x ((requiredOn_raw s x).mpr hx)

end Sys2Proof.Machine
end

section
/-! PROOFS. DRAM_TRANSFER_DONE (R8, R44, R48, R49, R101, R127, R158). -/
namespace Sys2Proof.Machine

/-! ### A change that ends while a job runs -/

theorem WorkOnly.dram {s t : State} (h : WorkOnly s t) : t.dram = s.dram :=
  (congrArg State.dram h.rest :)

theorem WorkOnly.port {s t : State} (h : WorkOnly s t) (p : Port) : t.port p = s.port p :=
  port_of_prt h.prt p

/-- The grant changes the arbiter only. -/
theorem grant_dev (s : State) : s.grant.dev = s.dev := by
  unfold State.grant
  split
  · rfl
  · split <;> rfl

/-- While a job runs no other starts, and its row stays (R99, R100). -/
theorem settle_running {s : State} {j : Job} (h : s.runningJob = some j) :
    ∃ due, s.settle.dev = { s.dev with attemptDue := due } := by
  have busy : StartsHeld s := .inl ⟨j, List.mem_of_find?_eq_some h, by
    have found := List.find?_some h
    simpa using found⟩
  have settled : s.settle.dev = s.attemptJob.dev := grant_dev _
  rw [settled]
  cases hd : s.dev.attemptDue with
  | false =>
    rw [attemptJob_idle hd]
    exact ⟨s.dev.attemptDue, rfl⟩
  | true =>
    rw [attemptJob_held hd busy]
    exact ⟨_, rfl⟩

/-! ### The ends of transfers by requester -/

/-- The transfer is over. -/
def transferOver (s : State) : State := { s with arb := { s.arb with current := none } }

theorem exec_transferDone {s : State} {x : Transfer} (hc : s.arb.current = some x)
    (hb : x.addr + x.length ≤ Config.bufferBytes) :
    exec .dramTransferDone s = .next (s.transferDone x).settle := by
  show execDramTransferDone s = _
  unfold execDramTransferDone
  rw [hc]
  exact if_pos hb

/-- A live transfer ends for its requester. -/
theorem transferDone_live {s : State} {x : Transfer} (h : x.live = true) :
    s.transferDone x = match x.requester with
      | .rsq => (transferOver s).doneRsq x
      | .med y => (transferOver s).doneMed y x
      | .prt p => (transferOver s).donePrt p x
      | .devRead => (transferOver s).doneDevRead x
      | .devWrite => (transferOver s).doneDevWrite x := by
  unfold State.transferDone
  rw [h]
  cases x.requester <;> rfl

theorem transferDone_dead {s : State} {x : Transfer} (h : x.live = false) :
    s.transferDone x = transferOver s := by
  unfold State.transferDone
  rw [h]
  rfl

/-- The bytes of a row that a transfer stores (R48). -/
def rowStored (s : State) (x : Transfer) (samples : List Sample) : State :=
  { transferOver s with
    dram := Memory.writeBytes s.dram x.addr (((packRow samples).drop s.rsq.rowBytes).take x.length) }

theorem doneRsq_part {s : State} {x : Transfer} {samples : List Sample}
    (hs : s.rowSource = some samples) (hl : s.rsq.rowBytes + x.length < 10584) :
    (transferOver s).doneRsq x = { rowStored s x samples with
      rsq := { s.rsq with rowBytes := s.rsq.rowBytes + x.length } } := by
  have source : (transferOver s).rowSource = some samples := hs
  unfold State.doneRsq
  rw [source]
  exact if_pos hl

theorem doneRsq_whole {s : State} {x : Transfer} {samples : List Sample}
    (hs : s.rowSource = some samples) (hl : 10584 ≤ s.rsq.rowBytes + x.length) :
    (transferOver s).doneRsq x =
      ((rowStored s x samples).rowWritten samples).signalChanged s.watermarkSignal := by
  have source : (transferOver s).rowSource = some samples := hs
  unfold State.doneRsq
  rw [source]
  exact if_neg (Nat.not_lt.mpr hl)

/-- A whole row leaves the FIFO, or what is owed when it replaces a lost one (R47, R48). -/
theorem rowWritten_rsq (s : State) (samples : List Sample) :
    (s.rowWritten samples).rsq.rowsWritten = s.rsq.rowsWritten + 1 ∧
      (s.rowWritten samples).rsq.rowBytes = 0 ∧
      (s.rowWritten samples).rsq.rawSum = s.rsq.rawSum + sampleSum samples ∧
      (s.rsq.owed.head? = some s.rsq.rowsWritten →
        (s.rowWritten samples).rsq.owed = s.rsq.owed.drop 1 ∧
        (s.rowWritten samples).rsq.fifo = s.rsq.fifo) ∧
      (s.rsq.owed.head? ≠ some s.rsq.rowsWritten →
        (s.rowWritten samples).rsq.owed = s.rsq.owed ∧
        (s.rowWritten samples).rsq.fifo = s.rsq.fifo.drop 1) := by
  refine ⟨rfl, rfl, rfl, fun h => ?_, fun h => ?_⟩
  · exact ⟨if_pos (decide_eq_true h), if_pos (decide_eq_true h)⟩
  · exact ⟨if_neg (by simpa using h), if_neg (by simpa using h)⟩

/-- Data of a copy's burst arrive (R127). -/
theorem doneMed_eq {s : State} {x : Transfer} {y : Slot} {g : Flight} {r : Record}
    (hf : (s.slot y).flight = some g) (hr : s.findRecord g.shot = some r) :
    (transferOver s).doneMed y x = (transferOver s).setSlot y { s.slot y with flight := some (
      if (g.burst ++ Memory.readBytes s.dram x.addr x.length).length <
          burstData (r.partBytes g.part g.version) g.sectorsDone
            (burstLength g.planned g.sectorsDone) then
        { g with burst := g.burst ++ Memory.readBytes s.dram x.addr x.length }
      else { g with
        burst := g.burst ++ Memory.readBytes s.dram x.addr x.length ++
          List.replicate (burstLength g.planned g.sectorsDone * 512 -
            (g.burst ++ Memory.readBytes s.dram x.addr x.length).length) 0,
        phase := .cardBusy s.rsq.timeBase }) } := by
  have flight : ((transferOver s).slot y).flight = some g := by cases y <;> exact hf
  have slot : (transferOver s).slot y = s.slot y := by cases y <;> rfl
  have find : (transferOver s).findRecord g.shot = some r := hr
  unfold State.doneMed
  rw [flight]
  dsimp only
  rw [find]
  dsimp only
  rw [slot]
  by_cases h : (g.burst ++ Memory.readBytes s.dram x.addr x.length).length <
      burstData (r.partBytes g.part g.version) g.sectorsDone (burstLength g.planned g.sectorsDone)
  · exact (if_pos h).trans (by rw [if_pos h]; rfl)
  · exact (if_neg h).trans (by rw [if_neg h]; rfl)

/-- Data gathered for a READ arrive (R158). -/
theorem donePrt_eq {s : State} {x : Transfer} {p : Port} {o : Outstanding} {g : Gather}
    (ho : (s.port p).request = some o) (hg : o.stage = .gathering g) :
    (transferOver s).donePrt p x = (transferOver s).setPort p { s.port p with
      request := some { o with stage := .gathering { g with
        got := g.got ++ Memory.readBytes s.dram x.addr x.length } } } := by
  have request : ((transferOver s).port p).request = some o := by cases p <;> exact ho
  have port : (transferOver s).port p = s.port p := by cases p <;> rfl
  unfold State.donePrt
  rw [request]
  dsimp only
  rw [hg]
  dsimp only
  unfold State.setStage
  rw [request, port]
  rfl

/-- Sensor bytes of a development row arrive; with the last of them the row is made (R108, R113). -/
theorem doneDevRead_eq {s : State} {x : Transfer} {j : Job} {rec_ : Recipe} {r : Record}
    (hj : s.runningJob = some j) (hs : j.snapshot = some rec_) (hr : s.findRecord j.shot = some r) :
    (transferOver s).doneDevRead x = { transferOver s with dev := { s.dev with row :=
      let read := s.dev.row.read + x.length
      let made := developRow rec_ s.dev.row.tone
        (rawRowsFor s.dram r.raw.extents rec_.scale (j.rowsDone.getD 0))
      if read < rec_.scale.sourceBytes then { s.dev.row with read := read }
      else { s.dev.row with read := read, bytes := made.1, saturation := made.2 } } } := by
  have job : (transferOver s).runningJob = some j := hj
  have find : (transferOver s).findRecord j.shot = some r := hr
  unfold State.doneDevRead
  rw [job]
  dsimp only
  rw [hs, find]
  dsimp only
  by_cases h : s.dev.row.read + x.length < rec_.scale.sourceBytes
  · exact (if_pos h).trans (by rw [if_pos h]; rfl)
  · exact (if_neg h).trans (by rw [if_neg h]; rfl)

/-- Settles O58. -/
theorem transfersComplete : Obligations.TransfersComplete := by
  intro s x hc hb
  have done := exec_transferDone hc hb
  refine ⟨fun hl => ?_, fun samples hl hq hs => ?_, fun y g r hl hq hf hr => ?_,
    fun p o g hl hq ho hg => ?_, fun j hl hq hj => ?_, fun j rec_ r hl hq hj hs hr => ?_⟩
  · rw [done, transferDone_dead hl]
    rfl
  · rw [transferDone_live hl, hq] at done
    dsimp only at done
    rcases Nat.lt_or_ge (s.rsq.rowBytes + x.length) 10584 with part | whole
    · rw [doneRsq_part hs part] at done
      have work := settle_work { rowStored s x samples with
        rsq := { s.rsq with rowBytes := s.rsq.rowBytes + x.length } }
      exact ⟨_, done, work.dram, fun _ => work.rsq, fun h => absurd h (Nat.not_le.mpr part)⟩
    · rw [doneRsq_whole hs whole] at done
      have work := settle_work (((rowStored s x samples).rowWritten samples).signalChanged
        s.watermarkSignal)
      have rsq := work.rsq.trans (signalChanged_front _ s.watermarkSignal).rsq
      have dram := work.dram.trans (signalChanged_inner _ s.watermarkSignal).dram
      refine ⟨_, done, dram, fun h => absurd h (Nat.not_lt.mpr whole), fun _ => ?_⟩
      rw [rsq]
      exact rowWritten_rsq (rowStored s x samples) samples
  · intro sectors burst need
    rw [transferDone_live hl, hq] at done
    dsimp only at done
    rw [doneMed_eq hf hr] at done
    refine ⟨_, done, ?_, ?_, ?_⟩
    · rw [(settle_work _).dram, State.setSlot_dram]
      rfl
    · rw [(settle_work _).rsq, State.setSlot_rsq]
      rfl
    · rw [settle_slot, State.slot_setSlot_self]
  · rw [transferDone_live hl, hq] at done
    dsimp only at done
    rw [donePrt_eq ho hg] at done
    refine ⟨_, done, ?_, ?_, ?_, ?_⟩
    · rw [(settle_work _).dram, State.setPort_dram]
      rfl
    · rw [(settle_work _).rsq, State.setPort_rsq]
      rfl
    · rw [(settle_work _).med, State.setPort_med]
      rfl
    · rw [(settle_work _).port, State.port_setPort_self]
  · rw [transferDone_live hl, hq] at done
    dsimp only at done
    have work := settle_work ((transferOver s).doneDevWrite x)
    obtain ⟨due, dev⟩ := settle_running (s := (transferOver s).doneDevWrite x) (j := j) hj
    exact ⟨_, done, work.dram, by rw [dev]; rfl, work.rsq, work.med⟩
  · intro read made
    rw [transferDone_live hl, hq] at done
    dsimp only at done
    rw [doneDevRead_eq hj hs hr] at done
    generalize hu : ({ transferOver s with dev := { s.dev with row := _ } } : State) = u at done
    have job : u.runningJob = some j := by
      rw [← hu]
      exact hj
    have work := settle_work u
    obtain ⟨due, dev⟩ := settle_running job
    subst hu
    exact ⟨_, done, work.dram, work.rsq, work.med, by rw [dev]⟩

end Sys2Proof.Machine
end

section
/-! PROOFS. What follows the end of a development row (R101 to R104). -/
namespace Sys2Proof.Machine

/-! ### A row that is not the last -/

theorem changeJob_congr {l : List Job} {j : Job} {f g : Job → Job} (h : f j = g j) :
    changeJob l j f = changeJob l j g := by
  induction l with
  | nil => rfl
  | cons x rest ih =>
    rw [changeJob, changeJob, ih]
    split
    · next hx => rw [hx, h]
    · rfl

/-- While something keeps attempts from starting a job, the end of a change leaves the engine (R99). -/
theorem settle_held {s : State} (h : StartsHeld s) :
    ∃ due, s.settle.dev = { s.dev with attemptDue := due } := by
  have settled : s.settle.dev = s.attemptJob.dev := grant_dev _
  rw [settled]
  cases hd : s.dev.attemptDue with
  | false =>
    rw [attemptJob_idle hd]
    exact ⟨s.dev.attemptDue, rfl⟩
  | true =>
    rw [attemptJob_held hd h]
    exact ⟨false, rfl⟩

/-- The job with its row counted (R101). -/
def countedJob (j : Job) (row : RowWork) : Job :=
  { j with rowsDone := some (j.rowsDone.getD 0 + 1), saturation := addSaturation j.saturation row.saturation }

/-- The state with the job's row counted. -/
def rowCounted (s : State) (j : Job) : State := s.modJob j fun _ => countedJob j s.dev.row

/-- The checksum with the bytes of the row in hand (R101). -/
def rowSum (s : State) : Sum32 := s.dev.row.checksum + byteSum s.dev.row.bytes

theorem rowOver_eq (s : State) (j : Job) (rec_ : Recipe) : s.rowOver j rec_ =
    if rec_.scale.rows ≤ j.rowsDone.getD 0 + 1 then
      (rowCounted s j).completeJob (countedJob j s.dev.row) rec_ (rowSum s)
    else if s.watermarkSignal then
      { rowCounted s j with dev := { (rowCounted s j).dev with
        engine := .paused, row := { RowWork.none with checksum := rowSum s } } }
    else (rowCounted s j).beginRow rec_ (rowSum s) := rfl

/-- A row read, made and written whole is over. -/
theorem exec_devRowDone {s : State} {j : Job} {rec_ : Recipe} (hj : s.runningJob = some j)
    (hs : j.snapshot = some rec_) (he : s.dev.engine = .running)
    (hr : s.dev.row.read = rec_.scale.sourceBytes) (hw : s.dev.row.written = rec_.scale.rowBytes) :
    exec .devRowDone s = .next (s.rowOver j rec_).settle := by
  show execDevRowDone s = _
  unfold execDevRowDone
  rw [hj]
  dsimp only
  rw [hs]
  dsimp only
  exact if_pos (by simp [he, hr, hw])

/-- A job with its row counted still runs. -/
theorem rowCounted_held {s t : State} {j : Job} (hj : s.runningJob = some j)
    (hq : t.dev.queue = (rowCounted s j).dev.queue) : StartsHeld t := by
  obtain ⟨mem, state⟩ := runningJob_mem hj
  obtain ⟨a, b, -, changed⟩ := changeJob_mem mem fun _ => countedJob j s.dev.row
  refine .inl ⟨countedJob j s.dev.row, ?_, state⟩
  rw [hq]
  show _ ∈ changeJob _ _ _
  rw [changed]
  exact List.mem_append_right a List.mem_cons_self

/-! ### What follows a completion -/

/-- No job runs past its first row. -/
def FreshRuns (s : State) : Prop := ∀ k, k ∈ s.dev.queue → k.state = .running → k.rowsDone = some 0

/-- A step after a completion: it makes no version but one that a start builds, and starts a job at its
first row. -/
structure Follows (s t : State) : Prop where
  log : t.dev.log = s.dev.log
  phc : t.phc = s.phc
  holds : ∀ n v, Holding t n v → v.state = .building ∨ Holding s n v
  fresh : FreshRuns s → FreshRuns t

theorem Follows.refl (s : State) : Follows s s := ⟨rfl, rfl, fun _ _ h => .inr h, id⟩

theorem Follows.trans {a b c : State} (h : Follows a b) (k : Follows b c) : Follows a c :=
  ⟨k.log.trans h.log, k.phc.trans h.phc, fun n v hv => (k.holds n v hv).elim .inl (h.holds n v),
    fun f => k.fresh (h.fresh f)⟩

/-- An update outside the records, the engine and the correlator. -/
theorem Follows.plain {s t : State} (hc : t.catalog = s.catalog := by rfl)
    (hl : t.dev.log = s.dev.log := by rfl) (hq : t.dev.queue = s.dev.queue := by rfl)
    (hp : t.phc = s.phc := by rfl) : Follows s t :=
  ⟨hl, hp, fun _ _ ⟨r, hr, h⟩ => .inr ⟨r, hc ▸ hr, h⟩, fun f k hk => f k (hq ▸ hk)⟩

theorem PortsOnly.follows {s t : State} (h : PortsOnly s t) : Follows s t :=
  .plain (h.get State.catalog) (h.get (·.dev.log)) (h.get (·.dev.queue)) (h.get State.phc)

theorem Cascade.follows {s t : State} (h : Cascade s t) (hp : t.phc = s.phc) : Follows s t where
  log := by rw [h.dev]
  phc := hp
  holds := fun _ _ hv => .inr (h.holding hv)
  fresh := fun f k hk => f k (by rw [h.dev] at hk; exact hk)

theorem modRecord_follows (s : State) (n : Nat) (g : Record → Record)
    (hg : ∀ r, (g r).shot = r.shot ∧ (g r).versions = r.versions := by
      intro r; exact ⟨rfl, rfl⟩) : Follows s (s.modRecord n g) := by
  refine ⟨rfl, rfl, fun m v hv => .inr ?_, id⟩
  obtain ⟨q, hq, hs, hv⟩ := hv
  obtain ⟨r, hr, rfl⟩ := List.mem_map.mp hq
  by_cases e : r.shot = n
  · rw [if_pos e] at hs hv
    exact ⟨r, hr, (hg r).1.symm.trans hs, (hg r).2 ▸ hv⟩
  · rw [if_neg e] at hs hv
    exact ⟨r, hr, hs, hv⟩

/-- A change of one job that does not set it running. -/
theorem modJob_follows (s : State) (j : Job) (g : Job → Job)
    (hg : (g j).state = .running → (g j).rowsDone = some 0 ∨ (g j).state = j.state ∧
      (g j).rowsDone = j.rowsDone) : Follows s (s.modJob j g) := by
  refine ⟨rfl, rfl, fun _ _ h => .inr h, fun f k hk hr => ?_⟩
  have changed : ∀ l : List Job, k ∈ changeJob l j g → k ∈ l ∨ (k = g j ∧ j ∈ l) := by
    intro l
    induction l with
    | nil => exact fun h => nomatch h
    | cons x rest ih =>
      rw [changeJob]
      split
      · next hx =>
        subst hx
        intro h
        rcases List.mem_cons.mp h with h | h
        · exact .inr ⟨h, List.mem_cons_self⟩
        · exact .inl (List.mem_cons_of_mem _ h)
      · intro h
        rcases List.mem_cons.mp h with h | h
        · exact .inl (h ▸ List.mem_cons_self)
        · exact (ih h).imp (List.mem_cons_of_mem x) fun ⟨e, m⟩ => ⟨e, List.mem_cons_of_mem x m⟩
  rcases changed s.dev.queue hk with hk | ⟨rfl, hj⟩
  · exact f k hk hr
  · rcases hg hr with h | ⟨hs, hd⟩
    · exact h
    · exact hd.trans (f j hj (hs.symm.trans hr))

theorem appendJob_follows (s : State) (shot recipe : Nat) (o : JobOrigin) (asking : List Port)
    (card relay : Bool) : Follows s (s.appendJob shot recipe o asking card relay) := by
  refine ⟨rfl, rfl, fun _ _ h => .inr h, fun f k hk hr => ?_⟩
  rcases List.mem_append.mp hk with hk | hk
  · exact f k hk hr
  · cases List.mem_singleton.mp hk
    cases hr

theorem releaseTests_follows (s : State) (n : Nat) : Follows s (s.releaseTests n) :=
  (releaseTests_cascade s n).follows (releaseTests_calm s n).phc

theorem mergeAuto_follows (s : State) (j : Job) (p : Purpose) : Follows s (s.mergeAuto j p) := by
  rw [mergeAuto_eq]
  cases p <;> exact modJob_follows s j _ fun _ => .inr ⟨rfl, rfl⟩

theorem admitFrom_follows (shots : List Nat) (s : State) : Follows s (s.admitFrom shots) := by
  induction shots generalizing s with
  | nil => exact .refl s
  | cons n rest ih =>
    have cleared : ∀ u, Follows s u → Follows s (((u.setWanted n none).releaseTests n).admitFrom rest) :=
      fun u hu => (hu.trans ((modRecord_follows u n fun r => { r with wanted := none }).trans
        (releaseTests_follows _ n))).trans (ih _)
    unfold State.admitFrom
    split
    · exact ih s
    · split
      · exact ih s
      · split
        · exact cleared _ (mergeAuto_follows s _ _)
        · split
          · exact cleared _ (appendJob_follows s _ _ _ _ _ _)
          · exact .refl s

/-- What is read outside the slots and the records stays. -/
theorem MediaOnly.get {α : Type} {s t : State} (h : MediaOnly s t) (f : State → α)
    (hf : ∀ u m c, f { u with med := m, catalog := c } = f u := by intros; rfl) : f t = f s :=
  (hf t s.med s.catalog).symm.trans (congrArg f h)

theorem MediaOnly.follows {s t : State} (h : MediaOnly s t) (hc : Follows s { s with catalog := t.catalog }) :
    Follows s t where
  log := h.get (·.dev.log)
  phc := h.get State.phc
  holds := hc.holds
  fresh := fun f k hk => f k (h.get (·.dev.queue) ▸ hk)

theorem chooseWork_follows (s : State) (x : Slot) : Follows s (s.chooseWork x) := by
  have media := chooseWork_mediaOnly s x
  rcases chooseWork_cases s x with ⟨-, he⟩ | ⟨-, -, he⟩ | ⟨-, -, he⟩ |
    ⟨_, part, _, r, -, -, -, -, -, he⟩
  · rw [he]
    exact .refl s
  · exact media.follows (.plain (by rw [he, State.setSlot_catalog]))
  · exact media.follows (.plain (by rw [he, State.setSlot_catalog]))
  · refine media.follows ?_
    rw [he, startCopy_catalog]
    exact modRecord_follows s r.shot (writingCopy x part)

theorem chooseBoth_follows (s : State) : Follows s s.chooseBoth :=
  (chooseWork_follows s _).trans (chooseWork_follows _ _)

theorem startJob_follows (s : State) (j : Job) (r : Record) (rec_ : Recipe) (es left : List Run) :
    Follows s (s.startJob j r rec_ es left) := by
  have built : Follows s (State.modRecord { s with freeRuns := left } j.shot fun q => { q with
      versions := q.versions ++ [(⟨newVersionNumber r, j.recipe, rec_.scale, rec_.scale.bytes, es,
        none, .building, .clear, none⟩ : Version)],
      lastVersion := newVersionNumber r }) := by
    refine ⟨rfl, rfl, fun m v hv => ?_, id⟩
    obtain ⟨q, hq, hs, hv⟩ := hv
    obtain ⟨q0, h0, rfl⟩ := List.mem_map.mp hq
    by_cases e : q0.shot = j.shot
    · rw [if_pos e] at hs hv
      rcases List.mem_append.mp hv with hv | hv
      · exact .inr ⟨q0, h0, hs, hv⟩
      · cases List.mem_singleton.mp hv
        exact .inl rfl
    · rw [if_neg e] at hs hv
      exact .inr ⟨q0, h0, hs, hv⟩
  unfold State.startJob
  dsimp only
  exact (built.trans (modJob_follows _ j (startedJob r rec_) fun _ => .inl rfl)).trans .plain

theorem tryJobs_follows (js : List Job) (s : State) : Follows s (s.tryJobs js) := by
  induction js generalizing s with
  | nil => exact .refl s
  | cons j rest ih =>
    have waits : Follows s ((s.setSpaceWait j).tryJobs rest) :=
      (modJob_follows s j _ fun _ => .inr ⟨rfl, rfl⟩).trans (ih _)
    unfold State.tryJobs
    split
    · exact ih s
    · split
      · exact ih s
      · split
        · exact ih s
        · dsimp only
          split
          · exact startJob_follows s j _ _ _ _
          · exact waits
          · exact waits

theorem settle_follows (s : State) : Follows s s.settle := by
  have tried : Follows s s.attemptJob := by
    unfold State.attemptJob
    split
    · dsimp only
      have cleared : Follows s { s with dev := { s.dev with attemptDue := false } } := .plain
      split
      · exact cleared.trans (tryJobs_follows _ _)
      · exact cleared
    · exact .refl s
  refine tried.trans ?_
  show Follows _ s.attemptJob.grant
  unfold State.grant
  split
  · exact .refl _
  · split
    · exact .refl _
    · exact .plain

theorem announceJob_portsOnly (s : State) (j : Job) (r : JobResult) :
    PortsOnly s (s.announceJob j r) := by
  unfold State.announceJob
  dsimp only
  split
  · exact (notify_portsOnly _ _ _).trans (notify_portsOnly _ _ _)
  · exact notify_portsOnly _ _ _

end Sys2Proof.Machine
end

section
/-! PROOFS. DEV_ROW_DONE (R19, R101 to R104). -/
namespace Sys2Proof.Machine

/-! ### A version that a port is still to collect -/

/-- A HELD record with the version, which is CURRENT and to be collected. -/
structure Collectable (k : Nat) (q : Record) : Prop where
  life : q.life = .held
  has : ∃ v, v ∈ q.versions ∧ v.number = k
  current : ∀ v, v ∈ q.versions → v.number = k → v.state = .current ∧ v.collector ≠ none

theorem Collectable.congr {k : Nat} {q r : Record} (h : Collectable k q) (hl : r.life = q.life)
    (hv : r.versions = q.versions) : Collectable k r :=
  ⟨hl.trans h.life, hv ▸ h.has, hv ▸ h.current⟩

theorem Collectable.without {k m : Nat} {q : Record} (h : Collectable k q) (hm : m ≠ k) :
    Collectable k { q with versions := q.versions.filter fun v => v.number != m } := by
  obtain ⟨v, hv, hk⟩ := h.has
  exact ⟨h.life, ⟨v, List.mem_filter.mpr ⟨hv, by simpa [hk] using hm.symm⟩, hk⟩,
    fun w hw => h.current w ((List.mem_filter.mp hw).1)⟩

/-- Such a version is not released (R20, R21). -/
theorem Collectable.unreleased {k : Nat} {q : Record} (h : Collectable k q) (s : State) {v : Version}
    (hv : v ∈ q.versions) (hk : v.number = k) : s.versionReleasable q v = false := by
  obtain ⟨state, collector⟩ := h.current v hv hk
  refine Bool.eq_false_iff.mpr fun due => ?_
  obtain ⟨-, -, ⟨draining, -⟩ | ⟨-, free, -⟩⟩ := versionReleasable_iff.mp due
  · cases state.symm.trans draining
  · exact collector free

/-- Its record keeps from CARD_ONLY (R15). -/
theorem Collectable.hold {k : Nat} {q : Record} (h : Collectable k q) (s : State) :
    s.hasHold q = true := by
  refine Bool.of_not_eq_false fun bare => ?_
  obtain ⟨-, none_, -⟩ := hasHold_iff.mp bare
  obtain ⟨v, hv, -⟩ := h.has
  rw [none_] at hv
  cases hv

/-- The shot's record is there with the version. -/
structure Live (n k : Nat) (s : State) : Prop where
  regular : Regular n s
  found : ∃ q, s.findRecord n = some q ∧ Collectable k q

section
variable {n k : Nat} {s : State}

theorem Live.passes {t : State} (h : Live n k s) (p : Passes n s t) : Live n k t := by
  obtain ⟨q, hq, c⟩ := h.found
  refine ⟨p.regular h.regular, q, (p.kept h.regular q hq).resolve_right fun e => ?_, c⟩
  cases c.life.symm.trans e.1

/-- An update outside the records. -/
theorem Live.plain {t : State} (h : Live n k s) (hc : t.catalog = s.catalog := by rfl)
    (hn : t.nextShot = s.nextShot := by rfl) : Live n k t := by
  obtain ⟨q, hq, c⟩ := h.found
  exact ⟨⟨by unfold CatalogOk; rw [hc, hn]; exact h.regular.order, hn ▸ h.regular.issued⟩, q,
    (findRecord_congr hc n).trans hq, c⟩

theorem Live.modRecord (h : Live n k s) (m : Nat) (g : Record → Record)
    (hs : ∀ r, (g r).shot = r.shot) (hg : m = n → ∀ q, Collectable k q → Collectable k (g q)) :
    Live n k (s.modRecord m g) := by
  obtain ⟨q, hq, c⟩ := h.found
  refine ⟨modRecord_order h.regular hs, ?_⟩
  by_cases hm : m = n
  · subst hm
    exact ⟨g q, by rw [modRecord_find hs, hq]; rfl, hg rfl q c⟩
  · exact ⟨q, (modRecord_find_other hm hs).trans hq, c⟩

/-- A change of a record's other fields. -/
theorem Live.aside (h : Live n k s) (m : Nat) (g : Record → Record)
    (hg : ∀ r, (g r).shot = r.shot ∧ (g r).life = r.life ∧ (g r).versions = r.versions := by
      intro r; exact ⟨rfl, rfl, rfl⟩) : Live n k (s.modRecord m g) :=
  h.modRecord m g (fun r => (hg r).1) fun _ q c => c.congr (hg q).2.1 (hg q).2.2

theorem Live.notify (h : Live n k s) (p : Port) (x : Notice) : Live n k (s.notify p x) :=
  h.passes (notify_passes n s p x)

theorem Live.freeRaw (h : Live n k s) (m : Nat) : Live n k (s.freeRaw m) := by
  unfold State.freeRaw
  split
  · exact h
  · exact (h.aside m _).passes (free_passes n _ _)

theorem Live.missTether (h : Live n k s) (m : Nat) : Live n k (s.missTether m) := by
  unfold State.missTether
  split
  · exact h
  · have dropped : Live n k { s with snq := { s.snq with
        tether := s.snq.tether.filter fun e => e.shot != m } } := h.plain
    exact ((dropped.aside m fun r => { r with tether := .missed }).notify _ _).notify _ _

theorem Live.rawTest (h : Live n k s) (m : Nat) : Live n k (s.rawTest m) := by
  unfold State.rawTest
  split
  · exact h
  · split
    · exact (h.missTether m).freeRaw m
    · exact h

theorem Live.freeVersion (h : Live n k s) {m i : Nat} (hm : m = n → i ≠ k) :
    Live n k (s.freeVersion m i) := by
  unfold State.freeVersion
  split
  · exact h
  · exact (h.modRecord m (fun q => { q with versions := q.versions.filter fun v => v.number != i })
      (fun _ => rfl) fun e q c => c.without (hm e)).passes (free_passes n _ _)

/-- The release of a version that is to be collected does not come up. -/
theorem Live.versionTests (m : Nat) (numbers : List Nat) (h : Live n k s) :
    Live n k (s.versionTests m numbers) := by
  induction numbers generalizing s with
  | nil => exact h
  | cons i rest ih =>
    unfold State.versionTests
    split
    · exact h
    · next r hr =>
      split
      · exact ih h
      · next v hv =>
        split
        · next fires =>
          refine ih (h.freeVersion fun e hi => ?_)
          obtain ⟨q, hq, c⟩ := h.found
          cases hq.symm.trans (e ▸ hr)
          have mem := List.mem_of_find?_eq_some hv
          have number : v.number = i := by simpa using List.find?_some hv
          have kept := c.unreleased s mem (number.trans hi)
          simp [kept] at fires
        · exact ih h

theorem Live.cardOnlyTest (h : Live n k s) (m : Nat) : Live n k (s.cardOnlyTest m) := by
  unfold State.cardOnlyTest
  split
  · exact h
  · next r hr =>
    split
    · next fires =>
      refine (h.modRecord m (fun q => { q with life := .cardOnly }) (fun _ => rfl)
        fun e q c => ?_).passes (retryCatalog_passes n _)
      obtain ⟨q, hq, c⟩ := h.found
      cases hq.symm.trans (e ▸ hr)
      simp [c.hold s] at fires
    · exact h

theorem Live.releaseTests (h : Live n k s) (m : Nat) : Live n k (s.releaseTests m) := by
  unfold State.releaseTests
  split
  · exact h
  · exact (Live.versionTests m _ (h.rawTest m)).cardOnlyTest m

theorem Live.admitFrom (shots : List Nat) (h : Live n k s) : Live n k (s.admitFrom shots) := by
  induction shots generalizing s with
  | nil => exact h
  | cons m rest ih =>
    have cleared : ∀ u, Live n k u →
        Live n k (((u.setWanted m none).releaseTests m).admitFrom rest) := fun u hu =>
      ih ((hu.aside m fun r => { r with wanted := none }).releaseTests m)
    unfold State.admitFrom
    split
    · exact ih h
    · split
      · exact ih h
      · split
        · exact cleared _ h.plain
        · split
          · exact cleared _ h.plain
          · exact h

theorem Live.chooseWork (h : Live n k s) (x : Slot) : Live n k (s.chooseWork x) := by
  rcases chooseWork_cases s x with ⟨-, he⟩ | ⟨-, -, he⟩ | ⟨-, -, he⟩ |
    ⟨_, part, _, r, -, -, -, -, -, he⟩
  · rw [he]
    exact h
  · rw [he]
    exact h.passes (setSlot_passes n s x _)
  · rw [he]
    exact h.passes (setSlot_passes n s x _)
  · rw [he]
    exact (h.passes (setSlot_passes n s x _)).aside r.shot _

end

/-! ### The end of a change adds versions -/

/-- Every record is still there with its versions. -/
def Grows (s t : State) : Prop :=
  ∀ q, q ∈ s.catalog → ∃ r, r ∈ t.catalog ∧ r.shot = q.shot ∧ ∀ v, v ∈ q.versions → v ∈ r.versions

theorem Grows.of_catalog {s t : State} (h : t.catalog = s.catalog := by rfl) : Grows s t :=
  fun q hq => ⟨q, h ▸ hq, rfl, fun _ h => h⟩

theorem Grows.trans {a b c : State} (h : Grows a b) (k : Grows b c) : Grows a c := fun q hq => by
  obtain ⟨r, hr, hs, hv⟩ := h q hq
  obtain ⟨x, hx, hs', hv'⟩ := k r hr
  exact ⟨x, hx, hs'.trans hs, fun v m => hv' v (hv v m)⟩

theorem startJob_grows (s : State) (j : Job) (r : Record) (rec_ : Recipe) (es left : List Run) :
    Grows s (s.startJob j r rec_ es left) := fun q hq => by
  refine ⟨_, List.mem_map_of_mem hq, ?_, fun v hv => ?_⟩
  · split <;> rfl
  · split
    · exact List.mem_append_left _ hv
    · exact hv

theorem tryJobs_grows (js : List Job) (s : State) : Grows s (s.tryJobs js) := by
  induction js generalizing s with
  | nil => exact .of_catalog
  | cons j rest ih =>
    have waits : Grows s ((s.setSpaceWait j).tryJobs rest) :=
      (Grows.of_catalog (t := s.setSpaceWait j)).trans (ih _)
    unfold State.tryJobs
    split
    · exact ih s
    · split
      · exact ih s
      · split
        · exact ih s
        · dsimp only
          split
          · exact startJob_grows s j _ _ _ _
          · exact waits
          · exact waits

theorem settle_grows (s : State) : Grows s s.settle := by
  refine .trans (b := s.attemptJob) ?_ (.of_catalog (grant_catalog _))
  unfold State.attemptJob
  split
  · dsimp only
    have cleared : Grows s { s with dev := { s.dev with attemptDue := false } } := .of_catalog
    split
    · exact cleared.trans (tryJobs_grows _ _)
    · exact cleared
  · exact .of_catalog

/-! ### The completion (R103) -/

/-- The result of a job that completes (R104). -/
def madeResult (j : Job) (rec_ : Recipe) (sum : Sum32) : JobResult :=
  { number := j.number, shot := j.shot, recipe := j.recipe,
    made := some ⟨j.version, rec_.scale.bytes, sum⟩, saturation := j.saturation,
    conditions := j.conditions, aborted := none }

/-- The versions of the shot as the completion leaves them (R19, R103). -/
def completed (s : State) (j : Job) (sum : Sum32) : State :=
  s.modRecord j.shot fun q => { q with
    versions := q.versions.map (completeVersion j.version sum j.conditions j.asking.head?) }

/-- The relay entry and the copies that wait for the version (R19, R139). -/
def handedOn (s : State) (j : Job) : State :=
  if j.cardMark && (s.relayReady j.shot).med.cardProof then
    (s.relayReady j.shot).requireCopies j.shot .proof (some j.version)
  else s.relayReady j.shot

/-- The job out of the queue, its result logged, the engine idle (R103, R104). -/
def jobOut (s : State) (j : Job) (r : JobResult) : State :=
  { (s.dropJob j).logJob r with dev := { ((s.dropJob j).logJob r).dev with
      engine := .idle, row := RowWork.none } }

theorem completeJob_eq (s : State) (j : Job) (rec_ : Recipe) (sum : Sum32) :
    s.completeJob j rec_ sum =
      ((((jobOut (handedOn (completed s j sum) j) j (madeResult j rec_ sum)).releaseTests
        j.shot).announceJob j (madeResult j rec_ sum)).admitAuto).markAttempt.chooseBoth := rfl

theorem relayReady_apart (s : State) (n : Nat) : Follows s (s.relayReady n) ∧
    (s.relayReady n).dev = s.dev ∧ (s.relayReady n).catalog = s.catalog ∧
    (s.relayReady n).nextShot = s.nextShot := by
  unfold State.relayReady
  split
  · exact ⟨.refl s, rfl, rfl, rfl⟩
  · split
    · have only := notify_portsOnly { s with snq := { s.snq with
          relay := modRelayList s.snq.relay n fun e => { e with state := .ready } } } .relay
          (.sendReady n false)
      have marked : Follows s { s with snq := { s.snq with
          relay := modRelayList s.snq.relay n fun e => { e with state := .ready } } } := .plain
      exact ⟨marked.trans only.follows, only.get State.dev, only.get State.catalog,
        only.get State.nextShot⟩
    · exact ⟨.refl s, rfl, rfl, rfl⟩

theorem handedOn_follows (s : State) (j : Job) :
    Follows s (handedOn s j) ∧ (handedOn s j).dev = s.dev := by
  obtain ⟨follows, dev, -⟩ := relayReady_apart s j.shot
  unfold handedOn
  split
  · rw [requireCopies_eq]
    exact ⟨follows.trans (modRecord_follows _ _ _), dev⟩
  · exact ⟨follows, dev⟩

theorem handedOn_live {s : State} {j : Job} {n k : Nat} (h : Live n k s) :
    Live n k (handedOn s j) := by
  obtain ⟨-, -, catalog, next⟩ := relayReady_apart s j.shot
  have ready : Live n k (s.relayReady j.shot) := h.plain catalog next
  unfold handedOn
  split
  · rw [requireCopies_eq]
    exact ready.aside _ _
  · exact ready

/-- All that comes after the job is out of the queue. -/
theorem completion_follows (s : State) (j : Job) (r : JobResult) : Follows s
    (((((s.releaseTests j.shot).announceJob j r).admitAuto).markAttempt.chooseBoth).settle) :=
  ((((releaseTests_follows s j.shot).trans (announceJob_portsOnly _ j r).follows).trans
    (admitFrom_follows _ _)).trans (Follows.trans .plain (chooseBoth_follows _))).trans
      (settle_follows _)

theorem completion_live {s : State} (j : Job) (r : JobResult) {n k : Nat} (h : Live n k s) :
    Live n k ((((s.releaseTests j.shot).announceJob j r).admitAuto).markAttempt.chooseBoth) := by
  have told := (h.releaseTests j.shot).passes (announceJob_passes n _ j r)
  have admitted : Live n k (((s.releaseTests j.shot).announceJob j r).admitAuto) :=
    Live.admitFrom _ told
  have marked : Live n k (((s.releaseTests j.shot).announceJob j r).admitAuto).markAttempt :=
    admitted.plain
  exact (marked.chooseWork .a).chooseWork .b

/-- A version of a completed job's shot that is not being built (R19). -/
theorem completed_holding {s : State} {j : Job} {sum : Sum32} {v : Version}
    (h : Holding (completed s j sum) j.shot v) (hb : v.state ≠ .building) :
    (v.number = j.version → v.state = .current ∧ v.checksum = some sum ∧
      v.conditions = j.conditions ∧ v.collector = j.asking.head?) ∧
    (v.number ≠ j.version → v.state = .draining) := by
  obtain ⟨q, hq, hs, hv⟩ := h
  obtain ⟨r, -, rfl⟩ := List.mem_map.mp hq
  by_cases e : r.shot = j.shot
  · rw [if_pos e] at hv
    obtain ⟨w, -, rfl⟩ := List.mem_map.mp hv
    by_cases hn : w.number = j.version
    · rw [completeVersion, if_pos hn]
      exact ⟨fun _ => ⟨rfl, rfl, rfl, rfl⟩, fun h => absurd hn h⟩
    · rw [completeVersion, if_neg hn] at hb ⊢
      by_cases hw : w.state = .current
      · rw [if_pos hw]
        exact ⟨fun h => absurd h hn, fun _ => rfl⟩
      · rw [if_neg hw] at hb ⊢
        refine ⟨fun h => absurd h hn, fun _ => ?_⟩
        cases state : w.state with
        | building => exact absurd state hb
        | current => exact absurd state hw
        | draining => rfl
  · rw [if_neg e] at hs
    exact absurd hs e

/-- The shot of a completed job with an asking port (R19). -/
theorem completed_live {s : State} {j : Job} {sum : Sum32} {r : Record} {v : Version}
    (hc : CatalogOk s) (hr : s.findRecord j.shot = some r) (hl : r.life = .held)
    (hv : v ∈ r.versions) (hn : v.number = j.version) (ha : j.asking ≠ []) :
    Live j.shot j.version (completed s j sum) := by
  refine ⟨modRecord_order (.of_find hc hr), { r with
    versions := r.versions.map (completeVersion j.version sum j.conditions j.asking.head?) }, ?_, ?_⟩
  · unfold completed
    rw [modRecord_find, hr]
    rfl
  · have number : ∀ w, (completeVersion j.version sum j.conditions j.asking.head? w).number =
        w.number := fun w => by
      unfold completeVersion
      split
      · rfl
      · split <;> rfl
    refine ⟨hl, ⟨_, List.mem_map_of_mem hv, (number v).trans hn⟩, fun w hw hk => ?_⟩
    obtain ⟨w0, -, rfl⟩ := List.mem_map.mp hw
    rw [number] at hk
    unfold completeVersion
    rw [if_pos hk]
    refine ⟨rfl, ?_⟩
    cases h : j.asking with
    | nil => exact absurd h ha
    | cons p rest => nofun

/-- With one job running, none is left once it is out (R95). -/
theorem erased_idle {l : List Job} {j k : Job} (hj : j ∈ l) (hs : j.state = .running)
    (hk : k.state = .running) (h : (l.filter fun i => i.state == .running).length ≤ 1) :
    ∀ i, i ∈ (changeJob l j fun _ => k).erase k → i.state ≠ .running := by
  obtain ⟨a, b, hl, hc⟩ := changeJob_mem hj fun _ => k
  rw [hl, List.filter_append, List.filter_cons_of_pos (by simp [hs]), List.length_append,
    List.length_cons] at h
  have none_ : ∀ i, i ∈ a ++ b → i.state ≠ .running := fun i hi hr => by
    have mem : i ∈ a.filter (fun i => i.state == .running) ++ b.filter fun i => i.state == .running := by
      rw [← List.filter_append]
      exact List.mem_filter.mpr ⟨hi, by simp [hr]⟩
    have := List.length_pos_of_mem mem
    rw [List.length_append] at this
    omega
  have out : k ∉ a := fun m => none_ k (List.mem_append_left _ m) hk
  rw [hc, List.erase_append_right _ out, List.erase_cons_head]
  exact none_

/-- Settles O59. -/
theorem developmentRows : Obligations.DevelopmentRows := by
  intro s j rec_ hj hs he hr hw sum sat counted
  have next := exec_devRowDone hj hs he hr hw
  obtain ⟨mem, running⟩ := runningJob_mem hj
  have queue : (rowCounted s j).dev.queue = counted :=
    changeJob_congr (f := fun _ => countedJob j s.dev.row)
      (g := fun k => { k with rowsDone := some (j.rowsDone.getD 0 + 1), saturation := sat }) rfl
  rw [rowOver_eq] at next
  refine ⟨fun hl hm => ?_, fun hl hm => ?_, fun hl => ?_⟩
  · rw [if_neg (Nat.not_le.mpr hl), if_neg (by simp [hm])] at next
    have work := settle_work ((rowCounted s j).beginRow rec_ (rowSum s))
    obtain ⟨due, dev⟩ := settle_held (s := (rowCounted s j).beginRow rec_ (rowSum s))
      (rowCounted_held hj rfl)
    exact ⟨_, next, by rw [dev]; rfl, by rw [dev]; rfl, work.rsq, work.med, by rw [dev]; exact queue⟩
  · rw [if_neg (Nat.not_le.mpr hl), if_pos hm] at next
    have work := settle_work { rowCounted s j with dev := { (rowCounted s j).dev with
        engine := .paused, row := { RowWork.none with checksum := rowSum s } } }
    obtain ⟨due, dev⟩ := settle_held (s := { rowCounted s j with dev := { (rowCounted s j).dev with
        engine := .paused, row := { RowWork.none with checksum := rowSum s } } })
      (rowCounted_held hj rfl)
    exact ⟨_, next, by rw [dev], work.rsq, work.med, by rw [dev]; exact queue⟩
  · rw [if_pos hl, completeJob_eq] at next
    let k := countedJob j s.dev.row
    let u := completed (rowCounted s j) k sum
    let w := jobOut (handedOn u k) k (madeResult k rec_ sum)
    obtain ⟨handed, dev⟩ := handedOn_follows u k
    have out : Follows { handedOn u k with dev := w.dev } w := .plain
    have after := completion_follows w k (madeResult k rec_ sum)
    refine ⟨_, next, ?_, ?_, fun q v hq hn hv hb => ?_, fun r v hc hf hlife hv hn ha => ?_, fun h => ?_⟩
    · refine after.log.trans ?_
      show logResult (handedOn u k).dev.log _ = _
      rw [dev]
      rfl
    · exact after.phc.trans (handed.phc : (handedOn u k).phc = u.phc)
    · have late : Holding w j.shot v := (after.holds j.shot v ⟨q, hq, hn, hv⟩).resolve_left hb
      have made : Holding u j.shot v := (handed.holds j.shot v late).resolve_left hb
      exact completed_holding (j := k) made hb
    · have live : Live j.shot j.version w :=
        (handedOn_live (completed_live (s := rowCounted s j) (j := k) (sum := sum) hc hf hlife hv hn
          ha)).plain
      obtain ⟨q, hq, c⟩ := (completion_live k (madeResult k rec_ sum) live).found
      obtain ⟨x, hx, number⟩ := c.has
      obtain ⟨q', hq', shot, kept⟩ := settle_grows _ q (findRecord_mem hq)
      exact ⟨q', x, hq', shot.trans (findRecord_shot hq), kept x hx, number, (c.current x hx number).1⟩
    · refine after.fresh fun i hi hri => ?_
      have mem' : i ∈ ((handedOn u k).dev.queue).erase k := hi
      rw [dev] at mem'
      exact absurd hri (erased_idle mem running (k := k) running h i mem')

end Sys2Proof.Machine
end

section
/-! PROOFS. CARD_BUSY_END, CARD_TIMEOUT and VERIFY_BURST_DONE (R127 to R130, R137, R168). -/
namespace Sys2Proof.Machine

/-! ### The copy of one shot on one slot -/

/-- The shot's copy on the slot is this one. -/
def CopyAt (s : State) (n : Nat) (x : Slot) (part : Part) (c : Copy) : Prop :=
  ∀ q, q ∈ s.catalog → q.shot = n → q.copies.get x part = c

theorem CopyAt.of_catalog {s t : State} {n : Nat} {x : Slot} {part : Part} {c : Copy}
    (h : CopyAt s n x part c) (e : t.catalog = s.catalog := by rfl) : CopyAt t n x part c :=
  fun q hq => h q (e ▸ hq)

theorem modCopy_at {s : State} {n : Nat} {r : Record} (hc : CatalogOk s)
    (hr : s.findRecord n = some r) (x : Slot) (part : Part) (g : Copy → Copy) :
    CopyAt (s.modCopy n x part g) n x part (g (r.copies.get x part)) := by
  intro q hq hn
  obtain ⟨q0, h0, rfl⟩ := List.mem_map.mp hq
  by_cases e : q0.shot = n
  · cases hr.symm.trans (find_of_mem hc h0 e)
    rw [if_pos e]
    exact get_set_self _ x part _
  · rw [if_neg e] at hn
    exact absurd hn e

theorem CopyAt.calm {s t : State} {n : Nat} {x : Slot} {part : Part} {c : Copy}
    (h : CopyAt s n x part c) (k : Calm s t) (hs : Regular n s) : CopyAt t n x part c := by
  intro q hq hn
  obtain ⟨r, hr, shot, view⟩ := k.issued hs.order.1 hs.issued hq hn
  rw [(view_fields view).2]
  exact h r hr shot

theorem CopyAt.bare {s t : State} {n : Nat} {x : Slot} {part : Part} {c : Copy}
    (h : CopyAt s n x part c) (k : SameBare s t) : CopyAt t n x part c := by
  intro q hq hn
  obtain ⟨r, hr, bare⟩ := k.from_mem hq
  have copies : q.copies = r.copies := (congrArg Record.copies bare :)
  have shot : q.shot = r.shot := (congrArg Record.shot bare :)
  rw [copies]
  exact h r hr (shot.symm.trans hn)

/-- A slot does not start a copy that is not PENDING (R125). -/
theorem CopyAt.chosen {s : State} {n : Nat} {x : Slot} {part : Part} {c : Copy}
    (h : CopyAt s n x part c) (hp : c.state ≠ .pending) :
    CopyAt (s.chooseWork x) n x part c := by
  rcases chooseWork_cases s x with ⟨-, he⟩ | ⟨-, -, he⟩ | ⟨-, -, he⟩ |
    ⟨m, head, rest, r, -, hw, hr, -, -, he⟩
  · rw [he]
    exact h
  · exact h.of_catalog (by rw [he, State.setSlot_catalog])
  · exact h.of_catalog (by rw [he, State.setSlot_catalog])
  · rw [he]
    unfold CopyAt
    rw [startCopy_catalog]
    intro q hq hn
    obtain ⟨q0, h0, rfl⟩ := List.mem_map.mp hq
    by_cases e : q0.shot = r.shot
    · rw [if_pos e] at hn ⊢
      have other : part ≠ head := by
        rintro rfl
        obtain ⟨q1, h1, shot, pending⟩ := slotWork_pending (hw ▸ List.mem_cons_self)
        have same : q1.shot = n := by
          rw [shot, ← findRecord_shot hr, ← e]
          exact hn
        rw [h q1 h1 same] at pending
        exact hp pending
      unfold writingCopy
      rw [get_set_part _ _ _ other]
      exact h q0 h0 hn
    · rw [if_neg e] at hn ⊢
      exact h q0 h0 hn

/-! ### The end of a copy -/

/-- What follows when a copy has ended: the catalog's tests, a notice, and the slot's choice. -/
def copyClosed (s : State) (x : Slot) (f : Flight) (n : Notice) : State :=
  ((s.copyEnded f).notify .body n).chooseWork x

theorem copyTests_calm (s : State) (f : Flight) (n : Notice) :
    Calm s ((s.copyEnded f).notify .body n) :=
  (copyEnded_calm s f).trans (notify_calm _ _ n)

theorem copyClosed_pwc (s : State) (x : Slot) (f : Flight) (n : Notice) :
    (copyClosed s x f n).pwc = s.pwc :=
  ((chooseWork_mediaOnly _ x).get State.pwc).trans (copyTests_calm s f n).pwc

theorem copyTests_slot (s : State) (x : Slot) (f : Flight) (n : Notice) :
    ((s.copyEnded f).notify .body n).slot x = s.slot x :=
  slot_of_med (copyTests_calm s f n).med x

theorem copyClosed_faults (s : State) (x : Slot) (f : Flight) (n : Notice) :
    ((copyClosed s x f n).slot x).faults = (s.slot x).faults := by
  unfold copyClosed
  rw [chooseWork_faults, copyTests_slot]

/-- A slot that may not choose stays as it is. -/
theorem copyClosed_slot {s : State} {x : Slot} (f : Flight) (n : Notice)
    (h : (s.slot x).state = .fault ∨ s.pwc.power = .saving) :
    (copyClosed s x f n).slot x = s.slot x := by
  have slot := copyTests_slot s x f n
  have pwc := (copyTests_calm s f n).pwc
  unfold copyClosed
  rw [chooseWork_not, slot]
  rintro ⟨ready, awake, -⟩
  rw [slot] at ready
  rw [pwc] at awake
  rcases h with h | h
  · rw [h] at ready
    rcases ready with e | e <;> cases e
  · exact awake h

theorem copyClosed_at {s : State} {x : Slot} {f : Flight} {c : Copy} (n : Notice)
    (h : CopyAt s f.shot x f.part c) (hs : Regular f.shot s)
    (hp : c.state ≠ .pending ∨ (s.slot x).state = .fault) :
    CopyAt (copyClosed s x f n) f.shot x f.part c := by
  have calm := copyTests_calm s f n
  have tested := h.calm calm hs
  rcases hp with hp | hf
  · exact tested.chosen hp
  · unfold copyClosed
    rw [chooseWork_not]
    · exact tested
    · rintro ⟨ready, -⟩
      rw [copyTests_slot, hf] at ready
      rcases ready with e | e <;> cases e

/-! ### The end of the change -/

/-- The test of SAVE_DONE decides the done mark (R168). -/
theorem saveTest_done {s : State} (hp : s.pwc.power = .saving) (hd : s.pwc.done = false) :
    s.saveTest.pwc.done = (s.rsq.state == .off && (s.slot .a).flight.isNone &&
      (s.slot .b).flight.isNone) := by
  have quiet : s.savedQuiet = (s.rsq.state == .off && (s.slot .a).flight.isNone &&
      (s.slot .b).flight.isNone) := rfl
  rw [← quiet]
  unfold State.saveTest
  cases hq : s.savedQuiet with
  | true =>
    rw [if_pos (by simp [hp, hd])]
    exact (notify_portsOnly _ _ _).get (·.pwc.done)
  | false =>
    rw [if_neg (by simp)]
    exact hd

/-- The done mark at the end of a change in SAVING that the test of R168 ends. -/
theorem saved_settle {s : State} (hp : s.pwc.power = .saving) (hd : s.pwc.done = false) :
    s.saveTest.settle.pwc.done = (s.saveTest.settle.rsq.state == .off &&
      (s.saveTest.settle.slot .a).flight.isNone && (s.saveTest.settle.slot .b).flight.isNone) := by
  have work := settle_work s.saveTest
  rw [work.pwc, saveTest_done hp hd, work.rsq, (saveTest_marks s).get State.rsq, settle_slot,
    settle_slot, saveTest_slot, saveTest_slot]

theorem saveTest_settle_slot (s : State) (x : Slot) : s.saveTest.settle.slot x = s.slot x := by
  rw [settle_slot, saveTest_slot]

theorem CopyAt.settled {s : State} {n : Nat} {x : Slot} {part : Part} {c : Copy}
    (h : CopyAt s n x part c) : CopyAt s.saveTest.settle n x part c :=
  (h.of_catalog ((saveTest_marks s).get State.catalog)).bare (settle_bare _)

/-! ### WRITTEN and failed copies -/

theorem endFlight_rest (s : State) (x : Slot) (st : SlotState) :
    (s.endFlight x st).catalog = s.catalog ∧ (s.endFlight x st).nextShot = s.nextShot ∧
      (s.endFlight x st).pwc = s.pwc ∧
      (s.endFlight x st).slot x = { s.slot x with state := st, flight := none } :=
  ⟨State.setSlot_catalog _ _ _, State.setSlot_nextShot _ _ _, State.setSlot_pwc _ _ _,
    State.slot_setSlot_self _ _ _⟩

/-- The state in which the copy is WRITTEN (R128). -/
def writtenState (s : State) (x : Slot) (f : Flight) (unverified : Bool) : State :=
  (s.endFlight x .ready).modCopy f.shot x f.part fun c =>
    { c with state := .written, placement := some f.planned, unverified := unverified }

theorem copyWritten_eq (s : State) (x : Slot) (f : Flight) (u : Bool) :
    ∃ n, s.copyWritten x f u = copyClosed (writtenState s x f u) x f n := by
  unfold State.copyWritten copyClosed
  dsimp only
  split
  · split
    · exact ⟨_, rfl⟩
    · exact ⟨_, rfl⟩
  · exact ⟨_, rfl⟩

theorem modCopy_slot (s : State) (n : Nat) (x y : Slot) (part : Part) (g : Copy → Copy) :
    (s.modCopy n x part g).slot y = s.slot y := by
  cases y <;> rfl

theorem writtenState_slot (s : State) (x : Slot) (f : Flight) (u : Bool) :
    (writtenState s x f u).slot x = { s.slot x with state := .ready, flight := none } :=
  (modCopy_slot _ _ _ _ _ _).trans (endFlight_rest s x .ready).2.2.2

theorem writtenState_pwc (s : State) (x : Slot) (f : Flight) (u : Bool) :
    (writtenState s x f u).pwc = s.pwc := (endFlight_rest s x .ready).2.2.1

/-- The regular state of a shot whose copy's slot changes. -/
theorem endFlight_regular {s : State} {n : Nat} (h : Regular n s) (x : Slot) (st : SlotState) :
    Regular n (s.endFlight x st) := by
  obtain ⟨catalog, next, -⟩ := endFlight_rest s x st
  exact ⟨by unfold CatalogOk; rw [catalog, next]; exact h.order, by rw [next]; exact h.issued⟩

/-- The parts of the end of a WRITTEN copy (R128, R137, R168). -/
theorem copyWritten_over {s : State} {x : Slot} {f : Flight} {r : Record} (u : Bool)
    (hr : s.findRecord f.shot = some r) :
    (s.pwc.power = .saving →
      ((s.copyWritten x f u).saveTest.settle.slot x).state = .ready ∧
      ((s.copyWritten x f u).saveTest.settle.slot x).flight = none) ∧
    ((s.copyWritten x f u).saveTest.settle.slot x).faults = (s.slot x).faults ∧
    (CatalogOk s → ∀ q, q ∈ (s.copyWritten x f u).saveTest.settle.catalog → q.shot = f.shot →
      (q.copies.get x f.part).state = .written ∧
      (q.copies.get x f.part).placement = some f.planned ∧
      (q.copies.get x f.part).unverified = u) ∧
    (s.pwc.power = .saving → s.pwc.done = false →
      (s.copyWritten x f u).saveTest.settle.pwc.done =
        ((s.copyWritten x f u).saveTest.settle.rsq.state == .off &&
          ((s.copyWritten x f u).saveTest.settle.slot .a).flight.isNone &&
          ((s.copyWritten x f u).saveTest.settle.slot .b).flight.isNone)) := by
  obtain ⟨n, he⟩ := copyWritten_eq s x f u
  rw [he]
  have slot := writtenState_slot s x f u
  have pwc := writtenState_pwc s x f u
  have closed := copyClosed_pwc (writtenState s x f u) x f n
  refine ⟨fun hp => ?_, ?_, fun hc q hq hn => ?_, fun hp hd => ?_⟩
  · rw [saveTest_settle_slot, copyClosed_slot f n (.inr (by rw [pwc]; exact hp)), slot]
    exact ⟨rfl, rfl⟩
  · rw [saveTest_settle_slot, copyClosed_faults, slot]
  · have regular := endFlight_regular (.of_find hc hr) x .ready
    have found : (s.endFlight x .ready).findRecord f.shot = some r :=
      (findRecord_congr (endFlight_rest s x .ready).1 _).trans hr
    have at_ := modCopy_at regular.order found x f.part fun c =>
      { c with state := .written, placement := some f.planned, unverified := u }
    have done := (copyClosed_at n at_ (modRecord_order regular) (.inl nofun)).settled q hq hn
    rw [done]
    exact ⟨rfl, rfl, rfl⟩
  · exact saved_settle (by rw [closed, pwc]; exact hp) (by rw [closed, pwc]; exact hd)

/-- The entry of a failed copy in the fault log (R135). -/
def faultOf (x : Slot) (f : Flight) (r : Record) (why : FaultReason) : FaultEntry :=
  ⟨f.shot, f.part, why, f.planned, (r.copies.get x f.part).attempts + 1,
    decide (1 ≤ (r.copies.get x f.part).attempts)⟩

/-- What becomes of the failed copy (R129, R130). -/
def failedCopy (s : State) (x : Slot) (f : Flight) (r : Record) : Copy :=
  { r.copies.get x f.part with
    state := if 1 ≤ (r.copies.get x f.part).attempts then .failed
      else if r.life = .deleting then discardedCopyState s.freeCount else .pending
    attempts := (r.copies.get x f.part).attempts + 1
    placement := none }

/-- The state in which the copy has failed (R129, R130, R135). -/
def failedState (s : State) (x : Slot) (f : Flight) (r : Record) (why : FaultReason)
    (after : SlotState) : State :=
  let u := ((if r.life = .deleting then s.fresh else s).endFlight x after).modCopy f.shot x f.part
    fun c => { c with
      state := (failedCopy s x f r).state, attempts := (r.copies.get x f.part).attempts + 1,
      placement := none }
  u.setSlot x { u.slot x with faults := logFault (u.slot x).faults (faultOf x f r why) }

theorem secondFault (n : Nat) : decide (2 ≤ n + 1) = decide (1 ≤ n) :=
  decide_eq_decide.mpr (by omega)

theorem copyFailed_eq {s : State} {x : Slot} {f : Flight} {r : Record}
    (hr : s.findRecord f.shot = some r) (why : FaultReason) (after : SlotState) :
    s.copyFailed x f why after = copyClosed (failedState s x f r why after) x f
      (.cardFault x (faultOf x f r why)) := by
  unfold State.copyFailed copyClosed failedState faultOf failedCopy
  rw [hr]
  dsimp only
  rw [secondFault]
  simp only [decide_eq_true_eq]

theorem fresh_regular {s : State} {n : Nat} (h : Regular n s) (r : Record) :
    Regular n (if r.life = .deleting then s.fresh else s) := by
  split
  · exact ⟨h.order, h.issued⟩
  · exact h

theorem freshIf_rest (s : State) (r : Record) :
    (if r.life = .deleting then s.fresh else s).catalog = s.catalog ∧
      (if r.life = .deleting then s.fresh else s).pwc = s.pwc ∧
      (∀ x, (if r.life = .deleting then s.fresh else s).slot x = s.slot x) := by
  split
  · exact ⟨rfl, rfl, fun x => by cases x <;> rfl⟩
  · exact ⟨rfl, rfl, fun _ => rfl⟩

theorem failedState_slot (s : State) (x : Slot) (f : Flight) (r : Record) (why : FaultReason)
    (after : SlotState) : (failedState s x f r why after).slot x = { s.slot x with
      state := after, flight := none,
      faults := logFault (s.slot x).faults (faultOf x f r why) } := by
  unfold failedState
  dsimp only
  rw [State.slot_setSlot_self, modCopy_slot, (endFlight_rest _ x after).2.2.2,
    (freshIf_rest s r).2.2]

theorem failedState_pwc (s : State) (x : Slot) (f : Flight) (r : Record) (why : FaultReason)
    (after : SlotState) : (failedState s x f r why after).pwc = s.pwc := by
  unfold failedState
  dsimp only
  rw [State.setSlot_pwc]
  exact (endFlight_rest _ x after).2.2.1.trans (freshIf_rest s r).2.1

theorem failedState_regular {s : State} {x : Slot} {f : Flight} {r : Record} (hc : CatalogOk s)
    (hr : s.findRecord f.shot = some r) (why : FaultReason) (after : SlotState) :
    Regular f.shot (failedState s x f r why after) ∧
      CopyAt (failedState s x f r why after) f.shot x f.part (failedCopy s x f r) := by
  have regular := endFlight_regular (fresh_regular (.of_find hc hr) r) x after
  have found : ((if r.life = .deleting then s.fresh else s).endFlight x after).findRecord f.shot =
      some r := (findRecord_congr ((endFlight_rest _ x after).1.trans (freshIf_rest s r).1) _).trans hr
  have at_ := modCopy_at regular.order found x f.part fun c => { c with
    state := (failedCopy s x f r).state, attempts := (r.copies.get x f.part).attempts + 1,
    placement := none }
  unfold failedState
  dsimp only
  have changed : Regular f.shot (((if r.life = .deleting then s.fresh else s).endFlight x after).modCopy
      f.shot x f.part fun c => { c with
        state := (failedCopy s x f r).state, attempts := (r.copies.get x f.part).attempts + 1,
        placement := none }) := modRecord_order regular
  exact ⟨(setSlot_passes f.shot _ x _).regular changed, at_.of_catalog (State.setSlot_catalog _ _ _)⟩

/-- The parts of the end of a failed copy (R129, R130, R135, R168). -/
theorem copyFailed_over {s : State} {x : Slot} {f : Flight} {r : Record} (why : FaultReason)
    (after : SlotState) (hr : s.findRecord f.shot = some r) :
    (after = .fault ∨ s.pwc.power = .saving →
      (s.copyFailed x f why after).saveTest.settle.slot x = { s.slot x with
        state := after, flight := none,
        faults := logFault (s.slot x).faults (faultOf x f r why) }) ∧
    ((s.copyFailed x f why after).saveTest.settle.slot x).faults =
      logFault (s.slot x).faults (faultOf x f r why) ∧
    (CatalogOk s → after = .fault →
      CopyAt (s.copyFailed x f why after).saveTest.settle f.shot x f.part (failedCopy s x f r)) ∧
    (s.pwc.power = .saving → s.pwc.done = false →
      (s.copyFailed x f why after).saveTest.settle.pwc.done =
        ((s.copyFailed x f why after).saveTest.settle.rsq.state == .off &&
          ((s.copyFailed x f why after).saveTest.settle.slot .a).flight.isNone &&
          ((s.copyFailed x f why after).saveTest.settle.slot .b).flight.isNone)) := by
  rw [copyFailed_eq hr]
  have slot := failedState_slot s x f r why after
  have pwc := failedState_pwc s x f r why after
  have closed := copyClosed_pwc (failedState s x f r why after) x f (.cardFault x (faultOf x f r why))
  refine ⟨fun h => ?_, ?_, fun hc ha => ?_, fun hp hd => ?_⟩
  · rw [saveTest_settle_slot, copyClosed_slot _ _ (h.imp (fun e => by rw [slot]; exact e)
      fun e => by rw [pwc]; exact e), slot]
  · rw [saveTest_settle_slot, copyClosed_faults, slot]
  · obtain ⟨regular, at_⟩ := failedState_regular hc hr why after
    exact (copyClosed_at _ at_ regular (.inr (by rw [slot]; exact ha))).settled
  · exact saved_settle (by rw [closed, pwc]; exact hp) (by rw [closed, pwc]; exact hd)

end Sys2Proof.Machine
end

section
/-! PROOFS. The statement about the bursts of a copy (R127 to R130, R137, R168). -/
namespace Sys2Proof.Machine

/-! ### The events of a copy in flight -/

theorem exec_cardBusyEnd {s : State} {x : Slot} {f : Flight} {since : Time}
    (hf : (s.slot x).flight = some f) (hp : f.phase = .cardBusy since)
    (hw : (s.rsq.timeBase - since).toNat < rangeMicros f.timeout) :
    exec (.cardBusyEnd x) s = .next (s.burstStored x f) := by
  show execCardBusyEnd x s = _
  unfold execCardBusyEnd
  rw [hf]
  dsimp only
  rw [hp]
  exact if_pos hw

theorem exec_cardTimeout {s : State} {x : Slot} {f : Flight} {since : Time}
    (hf : (s.slot x).flight = some f) (hp : f.phase = .cardBusy since ∨ f.phase = .verifying since)
    (hw : rangeMicros f.timeout ≤ (s.rsq.timeBase - since).toNat) :
    exec (.cardTimeout x) s = .next (s.copyFailed x f .timeout .fault).saveTest.settle := by
  show execCardTimeout x s = _
  unfold execCardTimeout
  rw [hf]
  dsimp only
  rcases hp with hp | hp
  · rw [hp]
    exact if_pos hw
  · rw [hp]
    exact if_pos hw

theorem exec_verifyBurstDone {s : State} {x : Slot} {f : Flight} {since : Time} {data : List Byte}
    (hf : (s.slot x).flight = some f) (hp : f.phase = .verifying since)
    (hl : data.length = burstLength f.planned f.sectorsDone * 512) :
    exec (.verifyBurstDone x data) s = .next (s.burstRead x f data) := by
  show execVerifyBurstDone x data s = _
  unfold execVerifyBurstDone
  rw [hf]
  dsimp only
  rw [hp]
  exact if_pos hl

/-- The writing goes on with the next burst (R127). -/
theorem burstStored_next {s : State} {f : Flight} (x : Slot)
    (h : f.sectorsDone + burstLength f.planned f.sectorsDone < totalSectors f.planned) :
    s.burstStored x f = (s.setSlot x { s.slot x with flight := some { f with
      phase := .filling, sectorsDone := f.sectorsDone + burstLength f.planned f.sectorsDone,
      burst := [] } }).settle :=
  if_neg (Nat.not_le.mpr h)

theorem burstStored_last {s : State} {f : Flight} (x : Slot)
    (h : totalSectors f.planned ≤ f.sectorsDone + burstLength f.planned f.sectorsDone) :
    s.burstStored x f = (s.writingDone x f).saveTest.settle :=
  if_pos h

/-- The state in which the copy is read back (R128). -/
def readBack (s : State) (x : Slot) (f : Flight) : State :=
  (s.setSlot x { s.slot x with flight := some { f with
      phase := .verifying s.rsq.timeBase, sectorsDone := 0, burst := [], check := .zero } }).modCopy
    f.shot x f.part fun c => { c with state := .verifying, placement := some f.planned }

theorem writingDone_verify {s : State} {x : Slot} {f : Flight} (hv : f.verify = true)
    (hp : s.pwc.power ≠ .saving) : s.writingDone x f = readBack s x f :=
  if_neg (by simp [hv, hp])

theorem writingDone_written {s : State} {x : Slot} {f : Flight}
    (h : f.verify = false ∨ s.pwc.power = .saving) : s.writingDone x f = s.copyWritten x f true :=
  if_pos (by rcases h with h | h <;> simp [h])

theorem readBack_copies (s : State) (x : Slot) (f : Flight) {q : Record}
    (hq : q ∈ (readBack s x f).catalog) (hn : q.shot = f.shot) :
    (q.copies.get x f.part).state = .verifying ∧
      (q.copies.get x f.part).placement = some f.planned := by
  obtain ⟨r, -, rfl⟩ := modRecord_own hq hn
  rw [get_set_self]
  exact ⟨rfl, rfl⟩

/-- The check with the data of a burst read back (R128). -/
def readCheck (r : Record) (f : Flight) (data : List Byte) : CheckSum :=
  CheckSum.add f.part f.check (data.take
    (burstData (r.partBytes f.part f.version) f.sectorsDone (burstLength f.planned f.sectorsDone)))

theorem burstRead_eq {s : State} {x : Slot} {f : Flight} {r : Record}
    (hr : s.findRecord f.shot = some r) (data : List Byte) : s.burstRead x f data =
      if totalSectors f.planned ≤ f.sectorsDone + burstLength f.planned f.sectorsDone then
        if s.expectedSum f = some (readCheck r f data).sum then
          (s.copyWritten x f false).saveTest.settle
        else (s.copyFailed x f .verify .ready).saveTest.settle
      else s.setSlot x { s.slot x with flight := some { f with
        phase := .verifying s.rsq.timeBase,
        sectorsDone := f.sectorsDone + burstLength f.planned f.sectorsDone,
        check := readCheck r f data } } := by
  have bytes : s.flightBytes f = r.partBytes f.part f.version := by
    unfold State.flightBytes
    rw [hr]
  unfold State.burstRead readCheck
  rw [bytes]
  rfl

/-- A WRITING copy's record after its first or second fault, where the shot is not DELETING. -/
theorem failedCopy_state {s : State} {x : Slot} {f : Flight} {r : Record}
    (hl : r.life ≠ .deleting) : (failedCopy s x f r).state =
      if 1 ≤ (r.copies.get x f.part).attempts then .failed else .pending := by
  unfold failedCopy
  rw [if_neg hl]

/-- Settles O60. -/
theorem cardBursts : Obligations.CardBursts := by
  intro s x f r since hf hr sectors waited range fault saved written
  have micros : rangeMicros f.timeout = range := rangeMicros_eq f.timeout
  refine ⟨fun hp hw hd => ?_, fun hp hw hd hv ha => ?_, fun hp hw hd hv => ?_, fun hp hw => ?_,
    fun data hp hl => ?_⟩
  · have next := exec_cardBusyEnd hf hp (micros ▸ hw)
    rw [burstStored_next x hd] at next
    exact ⟨_, next, by rw [settle_slot, State.slot_setSlot_self]⟩
  · have next := exec_cardBusyEnd hf hp (micros ▸ hw)
    rw [burstStored_last x hd, writingDone_verify hv ha] at next
    refine ⟨_, next, ?_, fun q hq hn => ?_⟩
    · rw [saveTest_settle_slot]
      exact (modCopy_slot _ _ _ _ _ _).trans (State.slot_setSlot_self _ _ _)
    · obtain ⟨q1, h1, bare⟩ := (settle_bare _).from_mem hq
      rw [(saveTest_marks _).get State.catalog] at h1
      have copies : q.copies = q1.copies := (congrArg Record.copies bare :)
      have shot : q.shot = q1.shot := (congrArg Record.shot bare :)
      rw [copies]
      exact readBack_copies s x f h1 (shot.symm.trans hn)
  · have next := exec_cardBusyEnd hf hp (micros ▸ hw)
    rw [burstStored_last x hd, writingDone_written hv] at next
    obtain ⟨slot, faults, copies, done⟩ := copyWritten_over (x := x) true hr
    exact ⟨_, next, slot, faults, copies, done⟩
  · have next := exec_cardTimeout hf hp (micros ▸ hw)
    obtain ⟨slot, -, copies, done⟩ := copyFailed_over (x := x) .timeout .fault hr
    refine ⟨_, next, slot (.inl rfl), done, fun hc hl q hq hn => ?_⟩
    rw [copies hc rfl q hq hn, failedCopy_state hl]
    exact ⟨rfl, rfl⟩
  · intro check
    have next := exec_verifyBurstDone hf hp hl
    rw [burstRead_eq hr] at next
    refine ⟨fun hd => ?_, fun hd he => ?_, fun hd he => ?_⟩
    · rw [if_neg (Nat.not_le.mpr hd)] at next
      exact next
    · change s.expectedSum f = some (readCheck r f data).sum at he
      rw [if_pos hd, if_pos he] at next
      obtain ⟨slot, faults, copies, done⟩ := copyWritten_over (x := x) false hr
      exact ⟨_, next, faults, copies, done, slot⟩
    · change s.expectedSum f ≠ some (readCheck r f data).sum at he
      rw [if_pos hd, if_neg he] at next
      obtain ⟨slot, faults, -, done⟩ := copyFailed_over (x := x) .verify .ready hr
      refine ⟨_, next, faults, done, fun hp => ?_⟩
      rw [slot (.inr hp)]
      exact ⟨rfl, rfl⟩

end Sys2Proof.Machine
end

section
/-! PROOFS. What the link keeps while transactions come and go (R70 to R75). -/
namespace Sys2Proof.Machine

/-! ### What the link has learnt -/

/-- The link's registers but for its transactions and the moving period. -/
def Lnk.learnt (l : Lnk) : Lnk :=
  { l with pendWhere := none, pendMove := none, pendPoll := false, running := none, moving := false,
           latched := none, timers := [], lastSent := none }

/-- The link's state, run count, last error, descriptor, position and flag stay. -/
structure SameLink (s t : State) : Prop where
  learnt : t.lnk.learnt = s.lnk.learnt

theorem SameLink.refl (s : State) : SameLink s s := ⟨rfl⟩

theorem SameLink.trans {a b c : State} (h : SameLink a b) (k : SameLink b c) : SameLink a c :=
  ⟨k.learnt.trans h.learnt⟩

theorem SameLink.of_lnk {s t : State} (h : t.lnk = s.lnk := by rfl) : SameLink s t := ⟨by rw [h]⟩

theorem SameLink.ite {s a b : State} {c : Prop} [Decidable c] (ha : SameLink s a)
    (hb : SameLink s b) : SameLink s (if c then a else b) := by
  split <;> assumption

theorem SameLink.get {α : Type} {s t : State} (h : SameLink s t) (f : Lnk → α)
    (hf : ∀ l, f l.learnt = f l := by intro l; rfl) : f t.lnk = f s.lnk :=
  (hf t.lnk).symm.trans ((congrArg f h.learnt).trans (hf s.lnk))

theorem startNext_sameLink (s : State) : SameLink s s.startNext := by
  unfold State.startNext
  split
  · exact .refl s
  · split
    · exact ⟨rfl⟩
    · exact ⟨rfl⟩
    · exact .ite ⟨rfl⟩ (.refl s)

theorem queueMove_sameLink (s : State) (step cls : Nat) : SameLink s (s.queueMove step cls) :=
  .trans (b := { s with lnk := { s.lnk with pendMove := some ⟨step, cls⟩, latched := some cls } })
    ⟨rfl⟩ (startNext_sameLink _)

theorem setTarget_sameLink (s : State) (d : Descriptor) (v : Int) (b : Bool) :
    SameLink s (s.setTarget d v b) := by
  unfold State.setTarget
  dsimp only
  split
  · exact .of_lnk
  · exact .trans .of_lnk (queueMove_sameLink _ _ _)

theorem giveMidpoint_sameLink (s : State) (mid : Time) : SameLink s (s.giveMidpoint mid) := by
  have predicted : ∀ (u : State) (d : Descriptor), SameLink u (u.applyPrediction d) := fun u d => by
    unfold State.applyPrediction
    split
    · exact .refl u
    · exact setTarget_sameLink u d _ _
  unfold State.giveMidpoint
  dsimp only
  split
  · exact .ite (.trans .of_lnk (predicted _ _)) .of_lnk
  · exact .of_lnk

theorem exposureStart_sameLink (s : State) (mid : Time) : SameLink s (s.exposureStart mid) := by
  unfold State.exposureStart
  dsimp only
  split
  · refine .trans ?_ (startNext_sameLink _)
    exact ⟨rfl⟩
  · exact .of_lnk

theorem enterExpose_sameLink (s : State) : SameLink s s.enterExpose := by
  unfold State.enterExpose
  split
  · exact .refl s
  · refine .trans ?_ ((exposureStart_sameLink _ _).trans (giveMidpoint_sameLink _ _))
    exact .of_lnk

theorem checkFocusWait_sameLink (s : State) : SameLink s s.checkFocusWait := by
  have expired : SameLink s s.markExpired.enterExpose := by
    refine .trans ?_ (enterExpose_sameLink _)
    unfold State.markExpired
    split
    · exact .refl s
    · exact .of_lnk
  unfold State.checkFocusWait
  split
  case isFalse => exact .refl s
  case isTrue =>
    split
    case h_1 => exact enterExpose_sameLink s
    case h_2 | h_3 | h_4 | h_5 => exact expired
    case h_6 | h_7 => exact .ite (enterExpose_sameLink s) (.refl s)

theorem setFocusState_sameLink (s : State) (st : FocusState) : SameLink s (s.setFocusState st) := by
  unfold State.setFocusState
  refine .ite (checkFocusWait_sameLink s) ?_
  refine .trans ?_ (checkFocusWait_sameLink _)
  exact .of_lnk (notifyBodyTether_front _ _).lnk

theorem focusFound_sameLink (s : State) : SameLink s s.focusFound := by
  unfold State.focusFound
  split
  · exact .trans .of_lnk (setFocusState_sameLink s.clearFocus _)
  · exact .trans .of_lnk (setFocusState_sameLink s.clearFocus _)
  all_goals exact .refl s

theorem focusProgress_sameLink (s : State) (pos : Nat) (moving : Bool) :
    SameLink s (s.focusProgress pos moving) := by
  unfold State.focusProgress
  split
  · exact .refl s
  · dsimp only
    split
    · split
      · split
        · exact .ite (.trans (b := s.dropMove) ⟨rfl⟩ (setFocusState_sameLink _ _)) (.refl s)
        · exact .refl s
      · exact .ite (.trans (b := { s with fdr := { s.fdr with scan := .down } }) .of_lnk
          (queueMove_sameLink _ _ _)) (.refl s)
      · refine .ite ?_ (.refl s)
        refine .trans ?_ (queueMove_sameLink _ _ _)
        exact .trans (b := { s with fdr := { s.fdr with scan := .none } }) .of_lnk
          (setFocusState_sameLink _ _)
    · exact .refl s

theorem whereToFocus_sameLink (s : State) (pos : Nat) (moving : Bool) :
    SameLink s (s.whereToFocus pos moving) :=
  (focusProgress_sameLink s pos moving).trans (checkFocusWait_sameLink _)

/-! ### A WHERE reply without a focus wait -/

/-- Neither the sequencer nor the position at exposure changes. -/
structure Unexposed (s t : State) : Prop where
  rsq : t.rsq = s.rsq
  exposurePos : t.fdr.exposurePos = s.fdr.exposurePos

theorem LinkOnly.unexposed {s t : State} (h : LinkOnly s t) : Unexposed s t :=
  ⟨h.rsq, by rw [h.fdr]⟩

theorem Unexposed.trans {a b c : State} (h : Unexposed a b) (k : Unexposed b c) : Unexposed a c :=
  ⟨k.rsq.trans h.rsq, k.exposurePos.trans h.exposurePos⟩

theorem Unexposed.ite {s a b : State} {c : Prop} [Decidable c] (ha : Unexposed s a)
    (hb : Unexposed s b) : Unexposed s (if c then a else b) := by
  split <;> assumption

theorem setFocusState_unexposed {s : State} (h : NotWaiting s) (st : FocusState) :
    Unexposed s (s.setFocusState st) := by
  have front := setFocusState_front h st
  exact ⟨front.rsq, by rw [front.fdr]⟩

theorem focusProgress_unexposed {s : State} (h : NotWaiting s) (pos : Nat) (moving : Bool) :
    Unexposed s (s.focusProgress pos moving) := by
  have same : Unexposed s s := ⟨rfl, rfl⟩
  unfold State.focusProgress
  split
  · exact same
  · dsimp only
    split
    · split
      · split
        · refine .ite ?_ same
          exact .trans (b := s.dropMove) ⟨rfl, rfl⟩ (setFocusState_unexposed (s := s.dropMove) h _)
        · exact same
      · refine .ite ?_ same
        exact .trans (b := { s with fdr := { s.fdr with scan := .down } }) ⟨rfl, rfl⟩
          (queueMove_link _ _ _).unexposed
      · refine .ite ?_ same
        refine .trans ?_ (queueMove_link _ _ _).unexposed
        exact .trans (b := { s with fdr := { s.fdr with scan := .none } }) ⟨rfl, rfl⟩
          (setFocusState_unexposed (s := { s with fdr := { s.fdr with scan := .none } }) h _)
    · exact same

theorem whereToFocus_unexposed {s : State} (h : NotWaiting s) (pos : Nat) (moving : Bool) :
    Unexposed s (s.whereToFocus pos moving) := by
  have progress := focusProgress_unexposed h pos moving
  rw [whereToFocus_eq h pos moving progress.rsq]
  exact progress

/-- Without a session a WHERE reply changes nothing but the link's registers (R74). -/
theorem whereToFocus_off {s : State} (h : NotWaiting s) (ho : s.fdr.state = .off) (pos : Nat)
    (moving : Bool) : s.whereToFocus pos moving = s := by
  have idle : s.focusProgress pos moving = s := by
    unfold State.focusProgress
    split
    · rfl
    · dsimp only
      rw [if_neg (by simp [ho])]
  rw [whereToFocus_eq h pos moving (by rw [idle]), idle]

theorem focusFound_off {s : State} (h : s.fdr.state = .off) : s.focusFound = s := by
  unfold State.focusFound
  rw [h]

/-! ### The next transaction (R73) -/

/-- The pending transaction that comes first. -/
def nextPending (l : Lnk) : Option Transaction :=
  match l.pendWhere, l.pendMove, l.pendPoll with
  | some f, _, _ => some (.exposureWhere f)
  | none, some m, _ => some (.move m true)
  | none, none, true => some .pollWhere
  | none, none, false => none

/-- The MOVE that is sent when the first pending transaction is. -/
def nextMove (l : Lnk) : Option Move :=
  match l.pendWhere, l.pendMove with
  | none, some m => some m
  | _, _ => none

/-- Where the link may send, the next pending transaction runs. -/
theorem startNext_sends {s : State} (hr : s.lnk.running = none) (hs : s.lnk.state = .ready)
    (hq : s.linkSilent = false) :
    s.startNext.lnk.running = nextPending s.lnk ∧
      s.startNext.lnk.moving = ((nextMove s.lnk).isSome || s.lnk.moving) ∧
      s.startNext.lnk.latched = (match nextMove s.lnk with
        | some m => some m.cls
        | none => s.lnk.latched) := by
  unfold State.startNext nextPending nextMove
  rw [if_neg (by simp [hr, hs, hq])]
  cases s.lnk.pendWhere with
  | some f => exact ⟨rfl, rfl, rfl⟩
  | none =>
    cases s.lnk.pendMove with
    | some m => exact ⟨rfl, rfl, rfl⟩
    | none =>
      cases hp : s.lnk.pendPoll with
      | true => exact ⟨rfl, rfl, rfl⟩
      | false => exact ⟨hr, rfl, rfl⟩

theorem startNext_quiet {s : State} (h : s.lnk.state ≠ .ready ∨ s.linkSilent = true) :
    s.startNext = s := by
  unfold State.startNext
  exact if_pos (by rcases h with h | h <;> simp [h])

theorem startNext_timers (s : State) : s.startNext.lnk.timers = s.lnk.timers := by
  unfold State.startNext
  split
  · rfl
  · split
    · rfl
    · rfl
    · split <;> rfl

end Sys2Proof.Machine
end

section
/-! PROOFS. The lens link (R70 to R75, R89). -/
namespace Sys2Proof.Machine

/-! ### Replies that end a transaction -/

theorem exec_linkReply_good {s : State} {x : Transaction} {cs : List LinkChar}
    {names : Option LinkCommand} (hr : s.lnk.running = some x)
    (he : linkErrors cs names x.command x.replyLength = []) : exec (.linkReply cs names) s =
      .next (s.linkGood x (linkData ((cs.filter charStarted).map charValue))) := by
  show execLinkReply cs names s = _
  unfold execLinkReply
  rw [hr]
  dsimp only
  rw [he]

theorem endTransaction_sameLink (s : State) : SameLink s s.endTransaction := ⟨rfl⟩

/-- The next transaction of identification runs unless the link is silent (R72, R89). -/
theorem identNext_spec (s : State) (x : Transaction) : SameLink s (s.identNext x) ∧
    (s.identNext x).lnk.running = if s.linkSilent then none else some x := by
  have silent : s.endTransaction.linkSilent = s.linkSilent := rfl
  unfold State.identNext
  dsimp only
  rw [silent]
  split
  · exact ⟨⟨rfl⟩, rfl⟩
  · exact ⟨⟨rfl⟩, rfl⟩

/-- What a link that becomes LOST keeps (R70 to R72). -/
theorem linkLost_lnk (s : State) (why : LostReason) : (s.linkLost why).lnk = { s.endTransaction.lnk with
    state := .lost, lostReason := some why, pendWhere := none, pendMove := none, pendPoll := false,
    errors := 0, page0 := none, descriptor := none } :=
  (focusLost_session (s := { s.endTransaction with lnk := { s.endTransaction.lnk with
    state := .lost, lostReason := some why, pendWhere := none, pendMove := none, pendPoll := false,
    errors := 0, page0 := none, descriptor := none } }) nofun .lensLost).1

/-- The run count is 0 (R70). -/
def goodReply (s : State) : State := { s with lnk := { s.lnk with errors := 0 } }

theorem linkGood_page0 (s : State) (d : List Byte) : s.linkGood .identPage0 d =
    State.identNext { goodReply s with lnk := { (goodReply s).lnk with page0 := some (readPage0 d) } }
      .identPage1 := rfl

theorem linkGood_page1 {s : State} {q : Page0} (h : s.lnk.page0 = some q) (d : List Byte) :
    s.linkGood .identPage1 d = if (readDescriptor q d).valid then
        State.identNext { goodReply s with lnk := { (goodReply s).lnk with
          descriptor := some (readDescriptor q d) } } .identWhere
      else (goodReply s).linkLost .descriptor := by
  unfold State.linkGood
  dsimp only
  split
  · next hn => cases h.symm.trans hn
  · next p hp =>
    cases h.symm.trans hp
    rfl

theorem linkGood_page1_none {s : State} (h : s.lnk.page0 = none) (d : List Byte) :
    s.linkGood .identPage1 d = (goodReply s).linkLost .descriptor := by
  unfold State.linkGood
  dsimp only
  split
  · rfl
  · next p hp => cases h.symm.trans hp

theorem linkGood_move (s : State) (m : Move) (again : Bool) (d : List Byte) :
    s.linkGood (.move m again) d = (goodReply s).endTransaction.startNext := rfl

/-! ### WHERE replies -/

/-- The position and the flag of a WHERE reply are there and its transaction is over (R74). -/
def heardWhere (s : State) (d : List Byte) (st : LinkState) (at_ : Option Nat) : State :=
  { s with
    fdr := { s.fdr with exposurePos := at_ },
    lnk := { s.lnk with
      state := st, errors := 0, running := none, position := some (linkWord d 0),
      movingFlag := byteAt d 2 != 0, moving := s.lnk.moving && byteAt d 2 != 0,
      latched := if byteAt d 2 != 0 then s.lnk.latched else none,
      timers := if byteAt d 2 != 0 then (if s.lnk.moving then s.lnk.timers ++ [s.rsq.timeBase]
        else s.lnk.timers) else [] } }

theorem storePosition_end (s : State) (pos : Nat) (moves : Bool) :
    (s.storePosition pos moves).endTransaction = { s with lnk := { s.lnk with
      running := none, position := some pos, movingFlag := moves, moving := s.lnk.moving && moves,
      latched := if moves then s.lnk.latched else none,
      timers := if moves then (if s.lnk.moving then s.lnk.timers ++ [s.rsq.timeBase]
        else s.lnk.timers) else [] } } := by
  unfold State.storePosition State.endTransaction State.now
  dsimp only
  cases moves with
  | true => simp
  | false => simp

theorem linkGood_identWhere (s : State) (d : List Byte) : s.linkGood .identWhere d =
    ((heardWhere s d .ready s.fdr.exposurePos).focusFound.whereToFocus (linkWord d 0)
      (byteAt d 2 != 0)).startNext := by
  unfold State.linkGood
  dsimp only
  rw [storePosition_end]
  rfl

theorem linkGood_pollWhere (s : State) (d : List Byte) : s.linkGood .pollWhere d =
    ((heardWhere s d s.lnk.state s.fdr.exposurePos).whereToFocus (linkWord d 0)
      (byteAt d 2 != 0)).startNext := by
  unfold State.linkGood State.goodWhere
  dsimp only
  rw [storePosition_end]
  rfl

theorem linkGood_exposureWhere (s : State) (f : Nat) (d : List Byte) :
    s.linkGood (.exposureWhere f) d = ((heardWhere s d s.lnk.state (if f = s.fdr.frameTag
      then some (linkWord d 0) else s.fdr.exposurePos)).whereToFocus (linkWord d 0)
        (byteAt d 2 != 0)).startNext := by
  unfold State.linkGood State.goodWhere
  dsimp only
  rw [storePosition_end]
  by_cases h : f = s.fdr.frameTag
  · rw [if_pos h, if_pos h]
    rfl
  · rw [if_neg h, if_neg h]
    rfl

theorem heard_sameLink (u : State) (d : List Byte) :
    SameLink u (u.whereToFocus (linkWord d 0) (byteAt d 2 != 0)).startNext :=
  (whereToFocus_sameLink u _ _).trans (startNext_sameLink _)

/-- Every WHERE reply, with the state in which it is passed to the drive. -/
theorem linkGood_where {s : State} {x : Transaction} (d : List Byte)
    (hx : x = .identWhere ∨ x = .pollWhere ∨ ∃ f, x = .exposureWhere f) :
    ∃ st at_ u, SameLink (heardWhere s d st at_) u ∧
      (s.fdr.state = .off → u = heardWhere s d st at_) ∧
      (st = if x = .identWhere then .ready else s.lnk.state) ∧
      s.linkGood x d = (u.whereToFocus (linkWord d 0) (byteAt d 2 != 0)).startNext := by
  rcases hx with rfl | rfl | ⟨f, rfl⟩
  · exact ⟨.ready, _, _, focusFound_sameLink (heardWhere s d .ready s.fdr.exposurePos),
      fun h => focusFound_off h, rfl, linkGood_identWhere s d⟩
  · exact ⟨_, _, _, .refl _, fun _ => rfl, rfl, linkGood_pollWhere s d⟩
  · exact ⟨_, _, _, .refl _, fun _ => rfl, rfl, linkGood_exposureWhere s f d⟩

/-- Without a session and a wait the next transaction follows a WHERE reply at once (R73, R74). -/
theorem heard_off {s : State} {d : List Byte} {at_ : Option Nat} {st : LinkState}
    (hs : st = .ready) (hq : s.linkSilent = false) (ho : s.fdr.state = .off)
    (hw : s.rsq.state ≠ .focusWait) :
    let t := ((heardWhere s d st at_).whereToFocus (linkWord d 0) (byteAt d 2 != 0)).startNext
    t.rsq = s.rsq ∧ t.lnk.running = nextPending s.lnk ∧ t.fdr.state = .off ∧
      t.lnk.moving = ((nextMove s.lnk).isSome || (s.lnk.moving && byteAt d 2 != 0)) ∧
      t.lnk.latched = (match nextMove s.lnk with
        | some m => some m.cls
        | none => if byteAt d 2 != 0 then s.lnk.latched else none) ∧
      t.lnk.timers = if byteAt d 2 != 0 then
        (if s.lnk.moving then s.lnk.timers ++ [s.rsq.timeBase] else s.lnk.timers) else [] := by
  intro t
  have plain : (heardWhere s d st at_).whereToFocus (linkWord d 0) (byteAt d 2 != 0) =
      heardWhere s d st at_ := whereToFocus_off (s := heardWhere s d st at_) hw ho _ _
  have same : t = (heardWhere s d st at_).startNext := congrArg State.startNext plain
  obtain ⟨running, moving, latched⟩ := startNext_sends (s := heardWhere s d st at_) rfl hs hq
  have link := startNext_link (heardWhere s d st at_)
  rw [same]
  exact ⟨link.rsq, running, by rw [link.fdr]; exact ho, moving, latched, startNext_timers _⟩

/-! ### Every good reply -/

theorem linkGood_errors (s : State) (x : Transaction) (d : List Byte) :
    (s.linkGood x d).lnk.errors = 0 := by
  have where_ : (x = .identWhere ∨ x = .pollWhere ∨ ∃ f, x = .exposureWhere f) →
      (s.linkGood x d).lnk.errors = 0 := fun hx => by
    obtain ⟨st, at_, u, same, -, -, he⟩ := linkGood_where (s := s) d hx
    rw [he]
    exact (same.trans (heard_sameLink u d)).get Lnk.errors
  cases x with
  | identPage0 =>
    rw [linkGood_page0]
    exact (identNext_spec _ _).1.get Lnk.errors
  | identPage1 =>
    cases h : s.lnk.page0 with
    | none => rw [linkGood_page1_none h, linkLost_lnk]
    | some q =>
      rw [linkGood_page1 h]
      split
      · exact (identNext_spec _ _).1.get Lnk.errors
      · rw [linkLost_lnk]
  | identWhere => exact where_ (.inl rfl)
  | exposureWhere f => exact where_ (.inr (.inr ⟨f, rfl⟩))
  | pollWhere => exact where_ (.inr (.inl rfl))
  | move m again =>
    rw [linkGood_move]
    exact (startNext_sameLink _).get Lnk.errors

/-- The reply to MOVE only ends it (R75). -/
theorem linkGood_move_spec (s : State) (m : Move) (again : Bool) (d : List Byte) :
    (s.linkGood (.move m again) d).rsq = s.rsq ∧ (s.linkGood (.move m again) d).fdr = s.fdr ∧
      (s.linkGood (.move m again) d).lnk.position = s.lnk.position ∧
      (s.linkGood (.move m again) d).lnk.timers = (if s.lnk.moving then
        s.lnk.timers ++ [s.rsq.timeBase] else s.lnk.timers) ∧
      (s.linkGood (.move m again) d).lnk.running =
        if s.lnk.state = .ready ∧ s.linkSilent = false then nextPending s.lnk else none := by
  rw [linkGood_move]
  have link := startNext_link (goodReply s).endTransaction
  refine ⟨link.rsq, link.fdr, link.position, startNext_timers _, ?_⟩
  split
  · next h => exact (startNext_sends (s := (goodReply s).endTransaction) rfl h.1 h.2).1
  · next h =>
    rw [startNext_quiet (s := (goodReply s).endTransaction)]
    · rfl
    · by_cases hs : s.lnk.state = .ready
      · exact .inr (Bool.of_not_eq_false fun hq => h ⟨hs, hq⟩)
      · exact .inl hs

/-! ### Link errors -/

theorem chosenError_mem (n : Nat) (e : LinkError) (rest : List LinkError) :
    chosenError n e rest ∈ e :: rest := by
  unfold chosenError
  have lt : Config.linkErrorPick n % (rest.length + 1) < (e :: rest).length :=
    Nat.mod_lt _ (Nat.succ_pos _)
  rw [List.getD_eq_getElem?_getD, List.getElem?_eq_getElem lt]
  exact List.getElem_mem lt

/-- The state in which a link error is counted (R70). -/
def errorCounted (s : State) (e : LinkError) : State :=
  { s with lnk := { s.lnk with errors := s.lnk.errors + 1, lastError := some e } }

theorem linkError_goes {s : State} (h : s.lnk.errors < 2) (x : Transaction) (e : LinkError) :
    s.linkError x e = (errorCounted s e).afterFailure x :=
  if_neg (by show ¬ 3 ≤ s.lnk.errors + 1; omega)

theorem linkError_lost {s : State} (h : 2 ≤ s.lnk.errors) (x : Transaction) (e : LinkError) :
    s.linkError x e = (errorCounted s e).linkLost .link :=
  if_pos (by show 3 ≤ s.lnk.errors + 1; omega)

theorem afterFailure_sameLink (s : State) (x : Transaction) : SameLink s (s.afterFailure x) := by
  have ended : SameLink s s.endTransaction := ⟨rfl⟩
  have again : SameLink s (if s.endTransaction.linkSilent then s.endTransaction else
      { s.endTransaction with lnk := { s.endTransaction.lnk with running := some x } }) :=
    .ite ended ⟨rfl⟩
  have next : SameLink s s.endTransaction.startNext := ended.trans (startNext_sameLink _)
  unfold State.afterFailure
  dsimp only
  cases x with
  | identPage0 | identPage1 | identWhere => exact again
  | exposureWhere _ | pollWhere => exact next
  | move m retry =>
    dsimp only
    refine .ite ?_ next
    refine .trans ?_ (startNext_sameLink _)
    exact ⟨rfl⟩

/-- In identification the same transaction is sent again (R72, R89). -/
theorem afterFailure_ident (s : State) {x : Transaction}
    (hx : x = .identPage0 ∨ x = .identPage1 ∨ x = .identWhere) :
    (s.afterFailure x).lnk.running = if s.linkSilent then none else some x := by
  have silent : s.endTransaction.linkSilent = s.linkSilent := rfl
  rcases hx with rfl | rfl | rfl
  all_goals
    unfold State.afterFailure
    dsimp only
    rw [silent]
    split <;> rfl

theorem afterFailure_next (s : State) {x : Transaction}
    (hx : x = .pollWhere ∨ (∃ f, x = .exposureWhere f) ∨ (∃ m, x = .move m false) ∨
      (∃ m, x = .move m true) ∧ s.lnk.pendMove.isSome = true) :
    s.afterFailure x = s.endTransaction.startNext := by
  rcases hx with rfl | ⟨f, rfl⟩ | ⟨m, rfl⟩ | ⟨⟨m, rfl⟩, hp⟩
  · rfl
  · rfl
  · rfl
  · refine if_neg ?_
    have kept : s.endTransaction.lnk.pendMove = s.lnk.pendMove := rfl
    obtain ⟨g, hg⟩ := Option.isSome_iff_exists.mp hp
    simp [kept, hg]

/-- A MOVE that failed stays pending where no newer one waits (R73). -/
theorem afterFailure_move {s : State} (m : Move) (hp : s.lnk.pendMove = none) :
    s.afterFailure (.move m true) = State.startNext { s.endTransaction with
      lnk := { s.endTransaction.lnk with pendMove := some m } } := by
  refine if_pos ?_
  have kept : s.endTransaction.lnk.pendMove = s.lnk.pendMove := rfl
  simp [kept, hp]

theorem startNext_pendMove {s : State} {f : Nat} (h : s.lnk.pendWhere = some f) :
    s.startNext.lnk.pendMove = s.lnk.pendMove := by
  unfold State.startNext
  split
  · rfl
  · rw [h]

/-- What a link error that does not lose the link leaves (R70, R72, R73). -/
theorem linkError_spec (s : State) (x : Transaction) (e : LinkError) :
    (s.linkError x e).lnk.lastError = some e ∧
    (s.lnk.errors < 2 → (s.linkError x e).lnk.errors = s.lnk.errors + 1 ∧
      (s.linkError x e).lnk.state = s.lnk.state ∧
      (x = .identPage0 ∨ x = .identPage1 ∨ x = .identWhere →
        (s.linkError x e).lnk.running = if s.linkSilent then none else some x) ∧
      (s.lnk.state = .ready → s.linkSilent = false →
        (x = .pollWhere ∨ (∃ f, x = .exposureWhere f) ∨ (∃ m, x = .move m false) →
          (s.linkError x e).lnk.running = nextPending s.lnk) ∧
        ∀ m, x = .move m true →
          (s.lnk.pendMove.isSome = true → (s.linkError x e).lnk.running = nextPending s.lnk) ∧
          (s.lnk.pendMove = none → ∀ f, s.lnk.pendWhere = some f →
            (s.linkError x e).lnk.running = some (.exposureWhere f) ∧
            (s.linkError x e).lnk.pendMove = some m) ∧
          (s.lnk.pendMove = none → s.lnk.pendWhere = none →
            (s.linkError x e).lnk.running = some (.move m true)))) ∧
    (2 ≤ s.lnk.errors → (s.linkError x e).lnk.state = .lost ∧
      (s.linkError x e).lnk.lostReason = some .link ∧ (s.linkError x e).lnk.errors = 0 ∧
      (s.linkError x e).lnk.running = none) := by
  rcases Nat.lt_or_ge s.lnk.errors 2 with h | h
  · rw [linkError_goes h]
    let u := errorCounted s e
    have same := afterFailure_sameLink u x
    refine ⟨same.get Lnk.lastError, fun _ => ⟨same.get Lnk.errors, same.get Lnk.state,
      fun hx => afterFailure_ident u hx, fun hr hq => ⟨fun hx => ?_, ?_⟩⟩,
      fun k => absurd h (Nat.not_lt.mpr k)⟩
    · rw [afterFailure_next u (hx.imp_right fun k => k.imp_right .inl)]
      exact (startNext_sends (s := u.endTransaction) rfl hr hq).1
    · rintro m rfl
      refine ⟨fun hp => ?_, fun hp f hf => ?_, fun hp hf => ?_⟩
      · rw [afterFailure_next u (.inr (.inr (.inr ⟨⟨m, rfl⟩, hp⟩)))]
        exact (startNext_sends (s := u.endTransaction) rfl hr hq).1
      · let w : State := { u.endTransaction with
          lnk := { u.endTransaction.lnk with pendMove := some m } }
        have where_ : w.lnk.pendWhere = some f := hf
        have sends := (startNext_sends (s := w) rfl hr hq).1
        rw [afterFailure_move (s := u) m hp]
        refine ⟨sends.trans ?_, startNext_pendMove where_⟩
        unfold nextPending
        rw [where_]
      · let w : State := { u.endTransaction with
          lnk := { u.endTransaction.lnk with pendMove := some m } }
        have where_ : w.lnk.pendWhere = none := hf
        have move : w.lnk.pendMove = some m := rfl
        have sends := (startNext_sends (s := w) rfl hr hq).1
        rw [afterFailure_move (s := u) m hp]
        refine sends.trans ?_
        unfold nextPending
        rw [where_, move]
  · rw [linkError_lost h, linkLost_lnk]
    exact ⟨rfl, fun k => absurd k (Nat.not_lt.mpr h), fun _ => ⟨rfl, rfl, rfl, rfl⟩⟩

/-- Of several errors one is kept (log entry 9). -/
theorem exec_linkReply_error {s : State} {x : Transaction} {cs : List LinkChar}
    {names : Option LinkCommand} {e : LinkError} {rest : List LinkError}
    (hr : s.lnk.running = some x) (he : linkErrors cs names x.command x.replyLength = e :: rest) :
    ∃ kept, kept ∈ e :: rest ∧ ∃ u : State, u.lnk = s.lnk ∧ u.linkSilent = s.linkSilent ∧
      exec (.linkReply cs names) s = .next (u.linkError x kept) := by
  have meaning : exec (.linkReply cs names) s = execLinkReply cs names s := rfl
  rw [meaning]
  unfold execLinkReply
  rw [hr]
  dsimp only
  rw [he]
  cases rest with
  | nil => exact ⟨e, List.mem_cons_self, s, rfl, rfl, rfl⟩
  | cons y more => exact ⟨_, chosenError_mem s.freeCount e (y :: more), s.fresh, rfl, rfl, rfl⟩

/-- Settles O54. -/
theorem lensLink : Obligations.LensLink := by
  intro s next sent
  refine ⟨fun cs names x hr he => ?_, fun cs names x e rest hr he => ?_, fun x hr => ?_,
    fun due rest ht hs hm hq hd hw hp => ?_⟩
  · intro d moves where_
    refine ⟨_, exec_linkReply_good hr he, linkGood_errors s x d, fun hx => ?_, fun q hx h0 hv => ?_,
      fun q hx h0 hv => ?_, fun hx => ?_, fun hx => ?_, fun f hx hw => ?_, fun m again hx => ?_,
      fun hx hs hq ho hw => ?_, ?_⟩
    · subst hx
      rw [linkGood_page0]
      obtain ⟨same, running⟩ := identNext_spec { goodReply s with
        lnk := { (goodReply s).lnk with page0 := some (readPage0 d) } } .identPage1
      exact ⟨same.get Lnk.page0, running⟩
    · subst hx
      rw [linkGood_page1 h0, if_pos hv]
      obtain ⟨same, running⟩ := identNext_spec { goodReply s with
        lnk := { (goodReply s).lnk with descriptor := some (readDescriptor q d) } } .identWhere
      exact ⟨same.get Lnk.descriptor, running⟩
    · subst hx
      rw [linkGood_page1 h0, if_neg (Bool.eq_false_iff.mp hv), linkLost_lnk]
      exact ⟨rfl, rfl, rfl⟩
    · obtain ⟨st, at_, u, same, -, state, eq⟩ := linkGood_where (s := s) d (.inl hx)
      rw [eq]
      exact ((same.trans (heard_sameLink u d)).get Lnk.state).trans (state.trans (if_pos hx))
    · obtain ⟨st, at_, u, same, -, -, eq⟩ := linkGood_where (s := s) d hx
      rw [eq]
      have kept := same.trans (heard_sameLink u d)
      exact ⟨kept.get Lnk.position, kept.get Lnk.movingFlag⟩
    · subst hx
      rw [linkGood_exposureWhere, (startNext_link _).fdr, (whereToFocus_unexposed (s := heardWhere s _ _ _) hw _ _).exposurePos]
      rfl
    · subst hx
      exact linkGood_move_spec s m again d
    · obtain ⟨st, at_, u, -, off, state, eq⟩ := linkGood_where (s := s) d hx
      have ready : st = .ready := by
        rw [state]
        rcases hs with hs | hs
        · exact if_pos hs
        · rw [hs, ite_self]
      rw [eq, off ho]
      exact heard_off ready hq ho hw
    · intro heard
      refine ⟨fun hx => ?_, fun hx => ?_, fun f hx => ?_⟩
      · subst hx
        exact linkGood_identWhere s d
      · subst hx
        exact linkGood_pollWhere s d
      · subst hx
        exact linkGood_exposureWhere s f d
  · obtain ⟨kept, mem, u, lnk, silent, eq⟩ := exec_linkReply_error hr he
    have spec := linkError_spec u x kept
    rw [lnk, silent] at spec
    exact ⟨_, kept, mem, eq, spec⟩
  · have eq : exec .linkReplyLate s = .next (s.linkError x .late) := by
      show execLinkReplyLate s = _
      unfold execLinkReplyLate
      rw [hr]
    obtain ⟨last, goes, lost⟩ := linkError_spec s x .late
    exact ⟨_, eq, last, fun h => ⟨(goes h).1, (goes h).2.1⟩, lost⟩
  · have eq : exec .pollWhereDue s = .next (State.startNext { s with
        lnk := { s.lnk with timers := rest, pendPoll := true } }) := by
      show execPollWhereDue s = _
      unfold execPollWhereDue
      rw [ht]
      have passed : decide (2000 ≤ elapsed due s.now) = true := decide_eq_true hd
      exact if_pos (by rw [hs, hm, hq, passed]; rfl)
    rw [eq]
    have silent : State.linkSilent { s with lnk := { s.lnk with timers := rest, pendPoll := true } } =
        s.linkSilent := rfl
    refine congrArg Host.Outcome.next ?_
    unfold State.startNext
    rw [silent]
    cases running : s.lnk.running with
    | none => simp [hs, hq, hw, hp]
    | some x => simp [running]

end Sys2Proof.Machine
end

section
/-! PROOFS. What the release tests and the end of a copy leave alone while RSQ is not STALLED, and the
abort of a job (R14 to R16, R105, R137). -/
namespace Sys2Proof.Machine

/-! ### Records that come from records -/

/-- The sequencer, power and the slots stay, and every record is one of the old ones but for its raw,
its versions and what is wanted of it. -/
structure Descends (s t : State) : Prop where
  rsq : t.rsq = s.rsq
  pwc : t.pwc = s.pwc
  med : t.med = s.med
  records : ∀ q, q ∈ t.catalog → ∃ r, r ∈ s.catalog ∧ q.shot = r.shot ∧ q.flags = r.flags ∧
    q.copies = r.copies

theorem Descends.plain {s t : State} (hr : t.rsq = s.rsq := by rfl) (hw : t.pwc = s.pwc := by rfl)
    (hm : t.med = s.med := by rfl) (hc : t.catalog = s.catalog := by rfl) : Descends s t :=
  ⟨hr, hw, hm, fun q hq => ⟨q, hc ▸ hq, rfl, rfl, rfl⟩⟩

theorem Descends.refl (s : State) : Descends s s := .plain

theorem Descends.trans {a b c : State} (h : Descends a b) (k : Descends b c) : Descends a c where
  rsq := k.rsq.trans h.rsq
  pwc := k.pwc.trans h.pwc
  med := k.med.trans h.med
  records := fun q hq => by
    obtain ⟨r, hr, shot, flags, copies⟩ := k.records q hq
    obtain ⟨x, hx, shot', flags', copies'⟩ := h.records r hr
    exact ⟨x, hx, shot.trans shot', flags.trans flags', copies.trans copies'⟩

theorem Descends.still {s t : State} (h : Descends s t) (hs : NotStalled s) : NotStalled t :=
  fun r => h.rsq ▸ hs r

/-- A step that asks for the sequencer not to be STALLED, after one that leaves it as it was. -/
theorem Descends.next {s t u : State} (h : Descends s t) (hs : NotStalled s)
    (k : NotStalled t → Descends t u) : Descends s u :=
  h.trans (k (h.still hs))

theorem PortsOnly.descends {s t : State} (h : PortsOnly s t) : Descends s t :=
  .plain (h.get State.rsq) (h.get State.pwc) (h.get State.med) (h.get State.catalog)

theorem modRecord_descends (s : State) (n : Nat) (g : Record → Record)
    (hg : ∀ r, (g r).shot = r.shot ∧ (g r).flags = r.flags ∧ (g r).copies = r.copies := by
      intro r; exact ⟨rfl, rfl, rfl⟩) : Descends s (s.modRecord n g) := by
  refine ⟨rfl, rfl, rfl, fun q hq => ?_⟩
  obtain ⟨r, hr, rfl⟩ := List.mem_map.mp hq
  split
  · exact ⟨r, hr, hg r⟩
  · exact ⟨r, hr, rfl, rfl, rfl⟩

section
variable {s : State} (still : NotStalled s)
include still

theorem free_descends (es : List Run) : Descends s (s.free es) := by
  rw [free_eq still]
  split
  · exact .refl s
  · exact .plain

theorem retryCatalog_descends : Descends s s.retryCatalog := by
  rw [retryCatalog_eq_self still]
  exact .refl s

omit still in
theorem missTether_descends (n : Nat) : Descends s (s.missTether n) := by
  unfold State.missTether
  split
  · exact .refl s
  · have marked := modRecord_descends { s with snq := { s.snq with
      tether := s.snq.tether.filter fun e => e.shot != n } } n fun r => { r with tether := .missed }
    exact (Descends.trans .plain marked).trans
      ((notify_portsOnly _ _ _).trans (notify_portsOnly _ _ _)).descends

theorem freeRaw_descends (n : Nat) : Descends s (s.freeRaw n) := by
  unfold State.freeRaw
  split
  · exact .refl s
  · exact (modRecord_descends s n _).next still fun k => free_descends k _

theorem freeVersion_descends (n k : Nat) : Descends s (s.freeVersion n k) := by
  unfold State.freeVersion
  split
  · exact .refl s
  · exact (modRecord_descends s n _).next still fun k => free_descends k _

theorem rawTest_descends (n : Nat) : Descends s (s.rawTest n) := by
  unfold State.rawTest
  split
  · exact .refl s
  · split
    · exact (missTether_descends n).next still fun k => freeRaw_descends k n
    · exact .refl s

theorem cardOnlyTest_descends (n : Nat) : Descends s (s.cardOnlyTest n) := by
  unfold State.cardOnlyTest
  split
  · exact .refl s
  · split
    · exact (modRecord_descends s n _).next still retryCatalog_descends
    · exact .refl s

end

theorem versionTests_descends (n : Nat) (ks : List Nat) {s : State} (still : NotStalled s) :
    Descends s (s.versionTests n ks) := by
  induction ks generalizing s with
  | nil => exact .refl s
  | cons k rest ih =>
    unfold State.versionTests
    split
    · exact .refl s
    · split
      · exact ih still
      · split
        · exact (freeVersion_descends still n k).next still ih
        · exact ih still

theorem releaseTests_descends {s : State} (still : NotStalled s) (n : Nat) :
    Descends s (s.releaseTests n) := by
  unfold State.releaseTests
  split
  · exact .refl s
  · exact ((rawTest_descends still n).next still (versionTests_descends n _)).next still fun k =>
      cardOnlyTest_descends k n

theorem removeRecord_descends {s : State} (still : NotStalled s) (n : Nat) :
    Descends s (s.removeRecord n) := by
  unfold State.removeRecord
  split
  · exact .refl s
  · have fewer : Descends s { s with catalog := s.catalog.filter fun q => q.shot != n } :=
      ⟨rfl, rfl, rfl, fun q hq => ⟨q, (List.mem_filter.mp hq).1, rfl, rfl, rfl⟩⟩
    exact (fewer.next still fun k => free_descends k _).next still retryCatalog_descends

theorem settleDeleting_descends {s : State} (still : NotStalled s) (n : Nat) (part : Part)
    (v : Option Nat) : Descends s (s.settleDeleting n part v) := by
  have freed : Descends s (freePart s n part v) := by
    unfold freePart
    split
    · exact freeRaw_descends still n
    · exact freeVersion_descends still n _
    · exact .refl s
  cases hr : s.findRecord n with
  | none =>
    unfold State.settleDeleting
    rw [hr]
    exact .refl s
  | some r =>
    have given : Descends s (if partHeld r part v then s else freePart s n part v) := by
      split
      · exact .refl s
      · exact freed
    rw [settleDeleting_eq hr]
    dsimp only
    split
    · exact given
    · exact given.next still fun k => removeRecord_descends k n

theorem copyEnded_descends {s : State} (still : NotStalled s) (f : Flight) :
    Descends s (s.copyEnded f) := by
  unfold State.copyEnded
  split
  · exact .refl s
  · split
    · exact settleDeleting_descends still _ _ _
    · exact releaseTests_descends still _

theorem admitFrom_descends (ms : List Nat) {s : State} (still : NotStalled s) :
    Descends s (s.admitFrom ms) := by
  induction ms generalizing s with
  | nil => exact .refl s
  | cons m rest ih =>
    have cleared : ∀ u, Descends s u →
        Descends s (((u.setWanted m none).releaseTests m).admitFrom rest) := fun u hu =>
      ((hu.trans (modRecord_descends u m _)).next still fun k => releaseTests_descends k m).next
        still ih
    unfold State.admitFrom
    split
    · exact ih still
    · split
      · exact ih still
      · split
        · exact cleared _ .plain
        · split
          · exact cleared _ .plain
          · exact .refl s

/-! ### The abort of the running job -/

theorem restoreWanted_descends (s : State) (j : Job) (why : AbortCause) :
    Descends s (s.restoreWanted j why) := by
  unfold State.restoreWanted
  split
  · split
    · exact modRecord_descends s _ _
    · exact .refl s
  · exact .refl s

theorem relayWantsProof_descends (s : State) (n : Nat) : Descends s (s.relayWantsProof n) := by
  unfold State.relayWantsProof
  split
  · split
    · exact modRecord_descends s _ _
    · exact .refl s
  · exact .refl s

theorem jobStopped_descends (s : State) (j : Job) : Descends s (jobStopped s j) := by
  have dropped : Descends s (s.dropJob j).discardDev := by
    unfold State.discardDev
    split
    · split <;> exact .plain
    · exact .plain
  exact dropped.trans .plain

theorem abortJob_descends {s : State} (still : NotStalled s) (j : Job) (why : AbortCause) :
    Descends s (s.abortJob j why) := by
  have reported : Descends s ((((jobStopped s j).restoreWanted j why).relayWantsProof
      j.shot).reportJob j (abortedResult j why)) :=
    ((jobStopped_descends s j).trans ((restoreWanted_descends _ j why).trans
      (relayWantsProof_descends _ j.shot))).trans
        (Descends.trans (.plain (t := State.logJob _ _)) (announceJob_portsOnly _ j _).descends)
  exact (reported.next still fun k => freeVersion_descends k j.shot j.version).trans .plain

theorem abortSave_descends {s : State} (still : NotStalled s) : Descends s s.abortSave := by
  unfold State.abortSave
  split
  · exact .refl s
  · next j _ =>
    exact ((abortJob_descends still j .save).next still fun k => releaseTests_descends k j.shot).next
      still fun k => admitFrom_descends _ k

/-! ### The engine and its jobs -/

/-- No job runs. -/
def Jobless (s : State) : Prop := ∀ k, k ∈ s.dev.queue → k.state ≠ .running

/-- The engine and the log stay, and no job is started. -/
structure SameEngine (s t : State) : Prop where
  engine : t.dev.engine = s.dev.engine
  log : t.dev.log = s.dev.log
  jobless : Jobless s → Jobless t

theorem SameEngine.refl (s : State) : SameEngine s s := ⟨rfl, rfl, id⟩

theorem SameEngine.trans {a b c : State} (h : SameEngine a b) (k : SameEngine b c) : SameEngine a c :=
  ⟨k.engine.trans h.engine, k.log.trans h.log, fun j => k.jobless (h.jobless j)⟩

theorem SameEngine.of_dev {s t : State} {due : Bool}
    (h : t.dev = { s.dev with attemptDue := due }) : SameEngine s t := by
  refine ⟨by rw [h], by rw [h], fun j k hk => j k ?_⟩
  rw [h] at hk
  exact hk

theorem Cascade.engine {s t : State} (h : Cascade s t) : SameEngine s t := .of_dev h.dev

theorem mergeAuto_engine {s : State} {j : Job} (hq : j.state = .queued) (p : Purpose) :
    SameEngine s (s.mergeAuto j p) := by
  rw [mergeAuto_eq]
  refine ⟨rfl, rfl, fun none_ k hk => ?_⟩
  rcases mem_changeJob hk with hk | rfl
  · exact none_ k hk
  · have state : (mergedJob p j).state = j.state := by cases p <;> rfl
    rw [state, hq]
    nofun

theorem appendJob_engine (s : State) (n recipe : Nat) (o : JobOrigin) (asking : List Port)
    (card relay : Bool) : SameEngine s (s.appendJob n recipe o asking card relay) := by
  refine ⟨rfl, rfl, fun none_ k hk => ?_⟩
  rcases List.mem_append.mp hk with hk | hk
  · exact none_ k hk
  · cases List.mem_singleton.mp hk
    nofun

theorem admitFrom_engine (ms : List Nat) (s : State) : SameEngine s (s.admitFrom ms) := by
  induction ms generalizing s with
  | nil => exact .refl s
  | cons m rest ih =>
    have cleared : ∀ u, SameEngine s u →
        SameEngine s (((u.setWanted m none).releaseTests m).admitFrom rest) := fun u hu =>
      (hu.trans (SameEngine.trans (b := u.setWanted m none) ⟨rfl, rfl, id⟩
        (releaseTests_cascade _ m).engine)).trans (ih _)
    unfold State.admitFrom
    split
    · exact ih s
    · split
      · exact ih s
      · split
        · next hq => exact cleared _ (mergeAuto_engine (queuedJob_spec hq).2.1 _)
        · split
          · exact cleared _ (appendJob_engine s _ _ _ _ _ _)
          · exact .refl s

theorem removeRecord_engine (s : State) (n : Nat) : SameEngine s (s.removeRecord n) := by
  unfold State.removeRecord
  split
  · exact .refl s
  · exact SameEngine.trans
      (b := { s with catalog := s.catalog.filter fun q => q.shot != n }) ⟨rfl, rfl, id⟩
      ((free_cascade _ _).trans (retryCatalog_cascade _)).engine

theorem settleDeleting_engine (s : State) (n : Nat) (part : Part) (v : Option Nat) :
    SameEngine s (s.settleDeleting n part v) := by
  cases hr : s.findRecord n with
  | none =>
    unfold State.settleDeleting
    rw [hr]
    exact .refl s
  | some r =>
    have freed : SameEngine s (freePart s n part v) := by
      unfold freePart
      split
      · exact (freeRaw_cascade s n).engine
      · exact (freeVersion_cascade s n _).engine
      · exact .refl s
    have given : SameEngine s (if partHeld r part v then s else freePart s n part v) := by
      split
      · exact .refl s
      · exact freed
    rw [settleDeleting_eq hr]
    dsimp only
    split
    · exact given
    · exact given.trans (removeRecord_engine _ n)

theorem copyEnded_engine (s : State) (f : Flight) : SameEngine s (s.copyEnded f) := by
  unfold State.copyEnded
  split
  · exact .refl s
  · split
    · exact settleDeleting_engine s _ _ _
    · exact (releaseTests_cascade s _).engine

/-- Without its one running job the queue holds none (R95). -/
theorem erase_running {l : List Job} {j : Job} (hj : j ∈ l) (hs : j.state = .running)
    (h : (l.filter fun i => i.state == .running).length ≤ 1) :
    ∀ i, i ∈ l.erase j → i.state ≠ .running := by
  have same : changeJob l j (fun _ => j) = l := changeJob_same rfl
  have erased := erased_idle hj hs hs h
  rw [same] at erased
  exact erased

/-- What SAVING makes of the running job (R105). -/
theorem abortSave_job {s : State} {j : Job} (hj : s.runningJob = some j) :
    s.abortSave.dev.engine = .idle ∧
      s.abortSave.dev.log = logResult s.dev.log (abortedResult j .save) ∧
      ((s.dev.queue.filter fun k => k.state == .running).length ≤ 1 → Jobless s.abortSave) := by
  have opened : s.abortSave = ((s.abortJob j .save).releaseTests j.shot).admitAuto := by
    unfold State.abortSave
    rw [hj]
  obtain ⟨engine, log, queue⟩ := abortJob_dev s j .save
  have later : SameEngine (s.abortJob j .save) s.abortSave := by
    rw [opened]
    exact (releaseTests_cascade _ j.shot).engine.trans (admitFrom_engine _ _)
  refine ⟨later.engine.trans engine, later.log.trans log, fun one => later.jobless ?_⟩
  have running : j.state = .running := by simpa using List.find?_some hj
  unfold Jobless
  rw [queue]
  exact erase_running (List.mem_of_find?_eq_some hj) running one

end Sys2Proof.Machine
end

section
/-! PROOFS. The parts of the entry into SAVING: the sequencer, the slots and the test of SAVE_DONE (R33,
R42, R137, R167, R168). -/
namespace Sys2Proof.Machine

/-! ### The sequencer -/

theorem setSeq_dev (s : State) (q : SeqState) :
    ∃ due, (s.setSeq q).dev = { s.dev with attemptDue := due } := by
  unfold State.setSeq
  dsimp only
  split
  · exact ⟨true, rfl⟩
  · exact ⟨s.dev.attemptDue, rfl⟩

theorem goOff_dev (s : State) (b : Bool) :
    ∃ due, (s.goOff b).dev = { s.dev with attemptDue := due } := by
  have rsq := frameOff_rsq s b
  have only := endSession_portsOnly (s := frameOff s b) (by simp [NotWaiting, rsq])
  obtain ⟨due, h⟩ := setSeq_dev s .off
  exact ⟨due, (only.get State.dev).trans h⟩

theorem endBurst_dev (s : State) (why : BurstEndReason) : (s.endBurst why).dev = s.dev := by
  unfold State.endBurst
  split
  · have only : ∀ (u : State) (n : Notice), PortsOnly u (u.notifyBodyTether n) := fun u n =>
      (notify_portsOnly u _ n).trans (notify_portsOnly _ _ n)
    exact (only _ _).get State.dev
  · rfl

/-- What RSQ's reaction to the line leaves alone. -/
structure Captured (s t : State) : Prop where
  still : NotStalled t
  pwc : t.pwc = s.pwc
  med : t.med = s.med
  dev : ∃ due, t.dev = { s.dev with attemptDue := due }

theorem goOff_captured (s : State) (b : Bool) : Captured s (s.goOff b) := by
  have off := goOff_off s b
  exact ⟨fun r => by rw [off.rsq]; nofun, off.pwc, off.med, goOff_dev s b⟩

theorem endBurst_goOff_captured (s : State) (b : Bool) :
    Captured s ((s.endBurst .save).goOff b) := by
  have ended := endBurst_calm s .save
  obtain ⟨still, pwc, med, dev⟩ := goOff_captured (s.endBurst .save) b
  rw [endBurst_dev] at dev
  exact ⟨still, pwc.trans ended.pwc, med.trans ended.med, dev⟩

theorem DriveOnly.captured {s t : State} (h : DriveOnly s t) (still : NotStalled t) :
    Captured s t :=
  ⟨still, h.get State.pwc, h.get State.med, s.dev.attemptDue, h.get State.dev⟩

theorem enterExpose_still {s : State} (h : NotStalled s) : NotStalled s.enterExpose := by
  cases hf : s.rsq.frame with
  | none =>
    unfold State.enterExpose
    rw [hf]
    exact h
  | some f =>
    intro r
    rw [enterExpose_rsq hf]
    nofun

theorem markExpired_rsq (s : State) : s.markExpired.rsq = s.rsq := by
  unfold State.markExpired
  split <;> rfl

theorem saveCapture_captured (s : State) : Captured s s.saveCapture := by
  have here : NotStalled s → Captured s s := fun h => ⟨h, rfl, rfl, s.dev.attemptDue, rfl⟩
  unfold State.saveCapture
  cases hs : s.rsq.state with
  | hold => exact goOff_captured s true
  | idle =>
    dsimp only
    split
    · exact endBurst_goOff_captured s false
    · exact goOff_captured s false
  | stalled r => exact endBurst_goOff_captured s false
  | focusWait =>
    refine ((markExpired_drive s).trans (enterExpose_drive _)).captured (enterExpose_still fun r => ?_)
    rw [markExpired_rsq, hs]
    nofun
  | view | expose | readout | off => exact here fun r => by rw [hs]; nofun

/-- HOLD, IDLE and STALLED go to OFF (R33). -/
theorem saveCapture_off {s : State}
    (h : s.rsq.state = .hold ∨ s.rsq.state = .idle ∨ ∃ r, s.rsq.state = .stalled r) :
    s.saveCapture.rsq.state = .off ∧ s.saveCapture.rsq.fromHold = (s.rsq.state == .hold) := by
  have off : ∀ (u : State) (b : Bool), (u.goOff b).rsq.state = .off ∧ (u.goOff b).rsq.fromHold = b :=
    fun u b => by
      rw [(goOff_off u b).rsq]
      exact ⟨rfl, rfl⟩
  unfold State.saveCapture
  rcases h with h | h | ⟨r, h⟩
  all_goals
    rw [h]
    dsimp only
  · exact off s true
  · split <;> exact off _ false
  · exact off _ false

/-- With the frames that a burst waits for, the burst ends (R33). -/
theorem saveCapture_burst {s : State} (h : s.rsq.state = .idle ∨ ∃ r, s.rsq.state = .stalled r) :
    s.saveCapture.rsq.burst.active = false := by
  have ended : ((s.endBurst .save).goOff false).rsq.burst.active = false := by
    rw [(goOff_off _ _).rsq]
    exact endBurst_inactive s .save
  unfold State.saveCapture
  rcases h with h | ⟨r, h⟩
  all_goals
    rw [h]
    dsimp only
  · split
    · exact ended
    · next none_ =>
      rw [(goOff_off _ _).rsq]
      exact Bool.eq_false_iff.mpr none_
  · exact ended

/-- A focus wait ends into EXPOSE with its record marked (R42). -/
theorem saveCapture_wait {s : State} {f : Frame} (h : s.rsq.state = .focusWait)
    (hf : s.rsq.frame = some f) :
    s.saveCapture.rsq = { s.rsq with state := .expose, frame := some (exposedFrame s f) } ∧
      ∀ r, r ∈ s.saveCapture.catalog → r.shot = f.shot → r.flags.waitExpired = true := by
  have marked : s.markExpired = s.modRecord f.shot fun r =>
      { r with flags := { r.flags with waitExpired := true } } := by
    unfold State.markExpired
    rw [hf]
  have opened : s.saveCapture = s.markExpired.enterExpose := by
    unfold State.saveCapture
    rw [h]
  rw [opened]
  refine ⟨?_, fun r hr hn => ?_⟩
  · rw [marked]
    exact enterExpose_rsq (s := s.modRecord f.shot _) hf
  · rw [(enterExpose_capture _).get State.catalog, marked] at hr
    obtain ⟨r0, h0, rfl⟩ := List.mem_map.mp hr
    by_cases e : r0.shot = f.shot
    · rw [if_pos e]
    · rw [if_neg e] at hn
      exact absurd hn e

/-- A frame on its way runs on, and OFF stays (R33). -/
theorem saveCapture_runs {s : State} (h : s.rsq.state = .view ∨ s.rsq.state = .expose ∨
    s.rsq.state = .readout ∨ s.rsq.state = .off) : s.saveCapture = s := by
  unfold State.saveCapture
  rcases h with h | h | h | h <;> rw [h]

/-! ### The slots -/

/-- In SAVING no slot chooses after the end of a copy (R137). -/
theorem copyClosed_saving {s : State} (hp : s.pwc.power = .saving) (x : Slot) (f : Flight)
    (n : Notice) : copyClosed s x f n = (s.copyEnded f).notify .body n :=
  chooseWork_not fun ⟨_, awake, _⟩ => awake ((congrArg Pwc.power (copyTests_calm s f n).pwc).trans hp)

theorem writtenState_rest (s : State) (x : Slot) (f : Flight) (u : Bool) :
    (writtenState s x f u).rsq = s.rsq ∧ (writtenState s x f u).dev = s.dev := by
  unfold writtenState State.endFlight
  cases x <;> exact ⟨rfl, rfl⟩

theorem writtenState_slot_other (s : State) {x y : Slot} (h : y ≠ x) (f : Flight) (u : Bool) :
    (writtenState s x f u).slot y = s.slot y :=
  (modCopy_slot _ _ _ _ _ _).trans (State.slot_setSlot_other _ _ _ _ h)

/-- Any record of the shot has its copy WRITTEN with the unverified flag, in the place planned. -/
def WrittenFor (c : Copy) (f : Flight) : Prop :=
  c.state = .written ∧ c.placement = some f.planned ∧ c.unverified = true

/-- A record of the written state, and its old self. -/
theorem writtenState_records {s : State} {x : Slot} {f : Flight} {q : Record}
    (hq : q ∈ (writtenState s x f true).catalog) : (∃ r, r ∈ s.catalog ∧ q.shot = r.shot ∧
      q.flags = r.flags ∧ ∀ y, y ≠ x → ∀ p, q.copies.get y p = r.copies.get y p) ∧
      (q.shot = f.shot → WrittenFor (q.copies.get x f.part) f) := by
  have catalog := (endFlight_rest s x .ready).1
  obtain ⟨r, hr, rfl⟩ := List.mem_map.mp hq
  rw [catalog] at hr
  by_cases e : r.shot = f.shot
  · rw [if_pos e]
    refine ⟨⟨r, hr, rfl, rfl, fun y hy p => get_set_slot _ hy _ _ _⟩, fun _ => ?_⟩
    dsimp only
    rw [get_set_self]
    exact ⟨rfl, rfl, rfl⟩
  · rw [if_neg e]
    exact ⟨⟨r, hr, rfl, rfl, fun _ _ _ => rfl⟩, fun h => absurd h e⟩

/-- A slot's reaction to the line (R137). -/
structure SlotSaved (s t : State) (x : Slot) : Prop where
  rsq : t.rsq = s.rsq
  pwc : t.pwc = s.pwc
  engine : SameEngine s t
  other : ∀ y, y ≠ x → t.slot y = s.slot y
  records : ∀ q, q ∈ t.catalog → ∃ r, r ∈ s.catalog ∧ q.shot = r.shot ∧ q.flags = r.flags ∧
    ∀ y, y ≠ x → ∀ p, q.copies.get y p = r.copies.get y p
  verified : ∀ f since, (s.slot x).flight = some f → f.phase = .verifying since →
    t.slot x = { s.slot x with state := .ready, flight := none } ∧
      ∀ q, q ∈ t.catalog → q.shot = f.shot → WrittenFor (q.copies.get x f.part) f
  runs : (∀ f, (s.slot x).flight = some f → ∀ since, f.phase ≠ .verifying since) →
    t.slot x = s.slot x

/-- Without a VERIFYING copy the slot goes on. -/
theorem saved_same {s : State} {x : Slot}
    (h : ∀ f, (s.slot x).flight = some f → ∀ since, f.phase ≠ .verifying since) :
    SlotSaved s s x :=
  ⟨rfl, rfl, .refl s, fun _ _ => rfl, fun q hq => ⟨q, hq, rfl, rfl, fun _ _ _ => rfl⟩,
    fun f since hf hv => absurd hv (h f hf since), fun _ => rfl⟩

/-- The VERIFYING copy is WRITTEN unverified. -/
theorem saved_written {s : State} (still : NotStalled s) (hp : s.pwc.power = .saving) {x : Slot}
    {f : Flight} {since : Time} (hf : (s.slot x).flight = some f) (hv : f.phase = .verifying since) :
    SlotSaved s (s.copyWritten x f true) x := by
  obtain ⟨rsq, dev⟩ := writtenState_rest s x f true
  have pwc := writtenState_pwc s x f true
  obtain ⟨n, he⟩ := copyWritten_eq s x f true
  rw [he, copyClosed_saving (by rw [pwc]; exact hp)]
  have ended : Descends (writtenState s x f true)
      (((writtenState s x f true).copyEnded f).notify .body n) :=
    (copyEnded_descends (fun r => rsq ▸ still r) f).trans (notify_portsOnly _ _ n).descends
  have engine : SameEngine (writtenState s x f true)
      (((writtenState s x f true).copyEnded f).notify .body n) :=
    (copyEnded_engine _ f).trans (notify_cascade _ _ n).engine
  refine ⟨ended.rsq.trans rsq, ended.pwc.trans pwc, ?_, fun y hy => ?_, fun q hq => ?_,
    fun g _ hg _ => ?_, fun h => absurd hv (h f hf since)⟩
  · exact SameEngine.trans (.of_dev (due := s.dev.attemptDue) dev) engine
  · exact (slot_of_med ended.med y).trans (writtenState_slot_other s hy f true)
  · obtain ⟨r, hr, shot, flags, copies⟩ := ended.records q hq
    obtain ⟨r0, h0, shot0, flags0, copies0⟩ := (writtenState_records hr).1
    exact ⟨r0, h0, shot.trans shot0, flags.trans flags0, fun y hy p => by
      rw [copies]
      exact copies0 y hy p⟩
  · cases hf.symm.trans hg
    refine ⟨(slot_of_med ended.med x).trans (writtenState_slot s x f true), fun q hq hn => ?_⟩
    obtain ⟨r, hr, shot, -, copies⟩ := ended.records q hq
    rw [copies]
    exact (writtenState_records hr).2 (shot.symm.trans hn)

theorem saveSlot_saved {s : State} (still : NotStalled s) (hp : s.pwc.power = .saving) (x : Slot) :
    SlotSaved s (s.saveSlot x) x := by
  unfold State.saveSlot
  split
  · next hn => exact saved_same fun f hf => nomatch hn.symm.trans hf
  · next f hf =>
    have runs : (∀ since, f.phase ≠ .verifying since) → SlotSaved s s x := fun h =>
      saved_same fun g hg => by
        cases hf.symm.trans hg
        exact h
    split
    · next since hv => exact saved_written still hp hf hv
    · next hv => exact runs fun since e => nomatch hv.symm.trans e
    · next hv => exact runs fun since e => nomatch hv.symm.trans e

/-! ### The test of SAVE_DONE -/

/-- A bare record's copies decide a slot's work. -/
theorem SameBare.slotWork {s t : State} (h : SameBare s t) (x : Slot) :
    t.slotWork x = s.slotWork x := by
  let work : Record → List (Nat × Part) := fun r =>
    (if (r.copies.get x .raw).state = .pending then [(r.shot, Part.raw)] else []) ++
      (if (r.copies.get x .proof).state = .pending then [(r.shot, Part.proof)] else [])
  have bared : ∀ u : State, u.slotWork x = (u.catalog.map Record.bare).flatMap work := fun u => by
    rw [List.flatMap_map]
    rfl
  rw [bared, bared, h]

/-- When the part is done the body port is told, or must synchronise again (R168). -/
theorem saveTest_told {s : State} (hd : s.pwc.done = false) (h : s.saveTest.pwc.done = true) :
    .saveDone (s.slotWork .a).length (s.slotWork .b).length ∈ (s.saveTest.port .body).notices ∨
      (s.saveTest.port .body).resync = true := by
  unfold State.saveTest at h ⊢
  by_cases test : (s.pwc.power == .saving && !s.pwc.done && s.savedQuiet) = true
  · rw [if_pos test]
    let q := s.port .body
    let n := Notice.saveDone (s.slotWork .a).length (s.slotWork .b).length
    show n ∈ (q.enqueue n).notices ∨ (q.enqueue n).resync = true
    have apart : n.merges q.notices = false := rfl
    rcases Nat.lt_or_ge q.notices.length 16 with lt | ge
    · rw [enqueue_room apart lt]
      exact .inl (List.mem_append_right _ (List.mem_singleton.mpr rfl))
    · rw [enqueue_full apart ge]
      exact .inr rfl
  · rw [if_neg test, hd] at h
    cases h

end Sys2Proof.Machine
end

section
/-! PROOFS. The entry into SAVING (R33, R137, R166 to R168). -/
namespace Sys2Proof.Machine

/-! ### After the sequencer's reaction -/

/-- The rest of the entry into SAVING, with the end of the change (R105, R137, R168). -/
def savedOver (u : State) : State :=
  (((u.abortSave).saveSlot .a).saveSlot .b).saveTest.settle

/-- What it leaves. -/
structure SavedOver (u t : State) : Prop where
  rsq : t.rsq = u.rsq
  pwc : { t.pwc with done := u.pwc.done } = u.pwc
  ports : SamePorts u t
  pins : t.pins = u.pins
  flags : ∀ q, q ∈ t.catalog → ∃ r, r ∈ u.catalog ∧ q.shot = r.shot ∧ q.flags = r.flags
  job : ∀ j, u.runningJob = some j → t.dev.engine = .idle ∧
    t.dev.log = logResult u.dev.log (abortedResult j .save) ∧
    ((u.dev.queue.filter fun k => k.state == .running).length ≤ 1 → t.runningJob = none)
  verified : ∀ x f since, (u.slot x).flight = some f → f.phase = .verifying since →
    t.slot x = { u.slot x with state := .ready, flight := none } ∧
      ∀ q, q ∈ t.catalog → q.shot = f.shot → WrittenFor (q.copies.get x f.part) f
  runs : ∀ x, (∀ f, (u.slot x).flight = some f → ∀ since, f.phase ≠ .verifying since) →
    t.slot x = u.slot x
  done : t.pwc.done = (t.rsq.state == .off && (t.slot .a).flight.isNone && (t.slot .b).flight.isNone)
  told : t.pwc.done = true →
    .saveDone (t.slotWork .a).length (t.slotWork .b).length ∈ (t.port .body).notices ∨
      (t.port .body).resync = true

/-- The reactions of the two slots together. -/
structure SlotsSaved (s t : State) : Prop where
  rsq : t.rsq = s.rsq
  pwc : t.pwc = s.pwc
  engine : SameEngine s t
  flags : ∀ q, q ∈ t.catalog → ∃ r, r ∈ s.catalog ∧ q.shot = r.shot ∧ q.flags = r.flags
  verified : ∀ x f since, (s.slot x).flight = some f → f.phase = .verifying since →
    t.slot x = { s.slot x with state := .ready, flight := none } ∧
      ∀ q, q ∈ t.catalog → q.shot = f.shot → WrittenFor (q.copies.get x f.part) f
  runs : ∀ x, (∀ f, (s.slot x).flight = some f → ∀ since, f.phase ≠ .verifying since) →
    t.slot x = s.slot x

theorem slots_saved {s : State} (still : NotStalled s) (hp : s.pwc.power = .saving) :
    SlotsSaved s ((s.saveSlot .a).saveSlot .b) := by
  have first := saveSlot_saved still hp .a
  have second := saveSlot_saved (s := s.saveSlot .a) (fun r => first.rsq ▸ still r)
    (by rw [first.pwc]; exact hp) .b
  have kept : (s.saveSlot .a).slot .b = s.slot .b := first.other .b nofun
  have same : ((s.saveSlot .a).saveSlot .b).slot .a = (s.saveSlot .a).slot .a :=
    second.other .a nofun
  refine ⟨second.rsq.trans first.rsq, second.pwc.trans first.pwc, first.engine.trans second.engine,
    fun q hq => ?_, fun x f since hf hv => ?_, fun x h => ?_⟩
  · obtain ⟨r, hr, shot, flags, -⟩ := second.records q hq
    obtain ⟨r0, h0, shot0, flags0, -⟩ := first.records r hr
    exact ⟨r0, h0, shot.trans shot0, flags.trans flags0⟩
  · cases x with
    | a =>
      obtain ⟨slot, written⟩ := first.verified f since hf hv
      refine ⟨same.trans slot, fun q hq hn => ?_⟩
      obtain ⟨r, hr, shot, -, copies⟩ := second.records q hq
      rw [copies .a nofun]
      exact written r hr (shot.symm.trans hn)
    | b =>
      obtain ⟨slot, written⟩ := second.verified f since (by rw [kept]; exact hf) hv
      exact ⟨by rw [slot, kept], written⟩
  · cases x with
    | a => exact same.trans (first.runs h)
    | b => exact (second.runs (by rw [kept]; exact h)).trans kept

theorem runningJob_jobless {s : State} (h : Jobless s) : s.runningJob = none := by
  unfold State.runningJob
  rw [List.find?_eq_none]
  exact fun k hk => by simpa using h k hk

/-- The test of SAVE_DONE and the end of a change start no job in SAVING (R99). -/
theorem saveTest_settle_engine {s : State} (hp : s.pwc.power = .saving) :
    SameEngine s s.saveTest.settle := by
  have marks := saveTest_marks s
  have power : s.saveTest.pwc.power = .saving := (congrArg Pwc.power marks.mark).trans hp
  obtain ⟨due, dev⟩ := settle_held (s := s.saveTest) (.inr (.inl power))
  exact .of_dev (due := due) (by rw [dev, marks.get State.dev])

theorem savedOver_spec {u : State} (still : NotStalled u) (hp : u.pwc.power = .saving)
    (hd : u.pwc.done = false) : SavedOver u (savedOver u) := by
  have aborted := abortSave_descends still
  have power : u.abortSave.pwc.power = .saving := by rw [aborted.pwc]; exact hp
  have slots := slots_saved (aborted.still still) power
  have slot : ∀ x, u.abortSave.slot x = u.slot x := slot_of_med aborted.med
  let v := (u.abortSave.saveSlot .a).saveSlot .b
  have rsq : v.rsq = u.rsq := slots.rsq.trans aborted.rsq
  have pwc : v.pwc = u.pwc := slots.pwc.trans aborted.pwc
  have marks : MarkOnly v v.saveTest := saveTest_marks v
  have work : WorkOnly v.saveTest v.saveTest.settle := settle_work v.saveTest
  have bare : SameBare v.saveTest v.saveTest.settle := settle_bare v.saveTest
  have inner : Inner u v.saveTest.settle := (abortSave_inner u).trans ((saveSlot_inner _ _).trans
    ((saveSlot_inner _ _).trans ((saveTest_inner _).trans (settle_inner _))))
  have engine : SameEngine u.abortSave v.saveTest.settle :=
    slots.engine.trans (saveTest_settle_engine (by rw [pwc]; exact hp))
  have over_ : ∀ x, v.saveTest.settle.slot x = v.slot x := saveTest_settle_slot v
  have records : ∀ q, q ∈ v.saveTest.settle.catalog → ∃ r, r ∈ v.catalog ∧ q.shot = r.shot ∧
      q.flags = r.flags ∧ q.copies = r.copies := fun q hq => by
    obtain ⟨r, hr, e⟩ := bare.from_mem hq
    rw [marks.get State.catalog] at hr
    exact ⟨r, hr, (congrArg Record.shot e :), (congrArg Record.flags e :),
      (congrArg Record.copies e :)⟩
  show SavedOver u v.saveTest.settle
  refine ⟨?_, ?_, inner.ports, inner.pins, fun q hq => ?_, fun j hj => ?_, fun x f since hf hv => ?_,
    fun x h => ?_, ?_, fun h => ?_⟩
  · rw [work.rsq, marks.get State.rsq, rsq]
  · rw [work.pwc, ← pwc]
    exact marks.mark
  · obtain ⟨r, hr, shot, flags, -⟩ := records q hq
    obtain ⟨r1, h1, shot1, flags1⟩ := slots.flags r hr
    obtain ⟨r0, h0, shot0, flags0, -⟩ := aborted.records r1 h1
    exact ⟨r0, h0, shot.trans (shot1.trans shot0), flags.trans (flags1.trans flags0)⟩
  · obtain ⟨idle, log, none_⟩ := abortSave_job hj
    exact ⟨engine.engine.trans idle, engine.log.trans log, fun one =>
      runningJob_jobless (engine.jobless (none_ one))⟩
  · obtain ⟨saved, written⟩ := slots.verified x f since (by rw [slot]; exact hf) hv
    refine ⟨by rw [over_, saved, slot], fun q hq hn => ?_⟩
    obtain ⟨r, hr, shot, -, copies⟩ := records q hq
    rw [copies]
    exact written r hr (shot.symm.trans hn)
  · rw [over_, slots.runs x (by rw [slot]; exact h), slot]
  · exact saved_settle (by rw [pwc]; exact hp) (by rw [pwc]; exact hd)
  · rw [work.pwc] at h
    rw [bare.slotWork, bare.slotWork, work.port]
    have same : ∀ x, v.saveTest.slotWork x = v.slotWork x := slotWork_congr (marks.get State.catalog)
    rw [same, same]
    exact saveTest_told (by rw [pwc]; exact hd) h

/-! ### Held requests -/

theorem formReply_portsOnly (s : State) (p : Port) (st : Status) (pl : Payload) :
    PortsOnly s (s.formReply p st pl) := by
  unfold State.formReply
  split
  · exact .refl s
  · exact setPort_portsOnly s p _

theorem formReply_port {s : State} {p : Port} {o : Outstanding} (h : (s.port p).request = some o)
    (st : Status) (pl : Payload) :
    ((s.formReply p st pl).port p).request = some { o with stage := .answered } ∧
      ((s.formReply p st pl).port p).replies =
        fillPlace (s.port p).replies ⟨.request o.kind, o.tag, st, pl⟩ := by
  unfold State.formReply
  rw [h]
  dsimp only
  rw [State.port_setPort_self]
  exact ⟨rfl, rfl⟩

theorem refuseHeld_portsOnly (s : State) (l : List Held) : PortsOnly s (s.refuseHeld l) := by
  induction l generalizing s with
  | nil => exact .refl s
  | cons x rest ih =>
    cases x with
    | burst p f => exact (formReply_portsOnly s p _ _).trans (ih _)
    | focus p m => exact (formReply_portsOnly s p _ _).trans (ih _)
    | edge => exact ih s

/-- SAVING with the held requests refused, before the sequencer reacts (R166, R167). -/
def savingBegun (s : State) : State :=
  State.refuseHeld { s with
    pins := { s.pins with powerLow := true },
    pwc := { s.pwc with
      power := .saving, savedFrom := s.pwc.power, done := false, wake := none, held := [] } } s.pwc.held

theorem savingBegun_portsOnly (s : State) : PortsOnly { s with
    pins := { s.pins with powerLow := true },
    pwc := { s.pwc with
      power := .saving, savedFrom := s.pwc.power, done := false, wake := none, held := [] } }
    (savingBegun s) := refuseHeld_portsOnly _ _

theorem exec_powerLowAsserted {s : State} (hl : s.pins.powerLow = false)
    (hp : s.pwc.power ≠ .saving) :
    exec .powerLowAsserted s = .next (savedOver (savingBegun s).saveCapture) := by
  show execPowerLowAsserted s = _
  unfold execPowerLowAsserted
  dsimp only
  rw [if_neg (by simp [hl]), if_neg hp]
  rfl

/-- The power-low line outside SAVING, in one statement (R33, R137, R166 to R168). -/
theorem powerLow_enters {s : State} {t : State} (ht : t = savedOver (savingBegun s).saveCapture) :
    SavedOver (savingBegun s).saveCapture t ∧ t.pwc.power = .saving ∧
      t.pwc.savedFrom = s.pwc.power ∧ t.pwc.wake = none ∧ t.pwc.held = [] ∧
      t.pins = { s.pins with powerLow := true } := by
  subst ht
  have only := savingBegun_portsOnly s
  have captured := saveCapture_captured (savingBegun s)
  have pwc : (savingBegun s).saveCapture.pwc = { s.pwc with
      power := .saving, savedFrom := s.pwc.power, done := false, wake := none, held := [] } :=
    captured.pwc.trans (only.get State.pwc)
  have spec := savedOver_spec captured.still (congrArg Pwc.power pwc) (congrArg Pwc.done pwc)
  have kept := spec.pwc.trans pwc
  exact ⟨spec, (congrArg Pwc.power kept :), (congrArg Pwc.savedFrom kept :),
    (congrArg Pwc.wake kept :), (congrArg Pwc.held kept :),
    spec.pins.trans ((saveCapture_inner _).pins.trans (only.get State.pins))⟩

end Sys2Proof.Machine
end

section
/-! PROOFS. The end of a wake (R76, R165, R166). -/
namespace Sys2Proof.Machine

/-! ### Sessions begun while RSQ is IDLE or in HOLD -/

/-- The sequencer stays, and so do power, the lines and the ports but for notices; a link in
identification goes on with it. -/
structure FocusApart (s t : State) : Prop where
  rsq : t.rsq = s.rsq
  pwc : t.pwc = s.pwc
  pins : t.pins = s.pins
  ports : SamePorts s t
  ident : s.lnk.state = .identifying → t.lnk.state = .identifying

theorem FocusApart.refl (s : State) : FocusApart s s := ⟨rfl, rfl, rfl, .refl s, id⟩

theorem FocusApart.trans {a b c : State} (h : FocusApart a b) (k : FocusApart b c) : FocusApart a c :=
  ⟨k.rsq.trans h.rsq, k.pwc.trans h.pwc, k.pins.trans h.pins, h.ports.trans k.ports,
    fun e => k.ident (h.ident e)⟩

theorem retryLost_apart (s : State) : FocusApart s s.retryLost := by
  refine ⟨?_, ?_, retryLost_pins s, (retryLost_inner s).ports, fun h => ?_⟩
  · unfold State.retryLost
    split <;> rfl
  · unfold State.retryLost
    split <;> rfl
  · rw [retryLost_state, h, if_neg nofun]

theorem cleared_kept (s : State) : (cleared s).rsq = s.rsq ∧ (cleared s).pwc = s.pwc ∧
    (cleared s).lnk.state = s.lnk.state := by
  unfold cleared
  split <;> exact ⟨rfl, rfl, rfl⟩

theorem startSession_eq (s : State) :
    s.startSession = (cleared s).setFocusState (sessionState s.lnk.state) := by
  have link := (cleared_kept s).2.2
  unfold State.startSession
  change (match (cleared s).lnk.state with
    | .ready => (cleared s).setFocusState .acquiring
    | .lost => (cleared s).setFocusState .lensLost
    | .identifying => (cleared s).setFocusState .lensLost
    | .absent => (cleared s).setFocusState .noLens) = _
  rw [link]
  cases s.lnk.state <;> rfl

theorem startSession_apart {s : State} (h : NotWaiting s) : FocusApart s s.startSession := by
  obtain ⟨rsq, pwc, link⟩ := cleared_kept s
  have inner := startSession_inner s
  have only := setFocusState_portsOnly (s := cleared s) (by unfold NotWaiting; rw [rsq]; exact h)
    (sessionState s.lnk.state)
  rw [← startSession_eq] at only
  exact ⟨(only.get State.rsq).trans rsq, (only.get State.pwc).trans pwc, inner.pins, inner.ports,
    fun e => (only.get (·.lnk.state)).trans (link.trans e)⟩

theorem FocusApart.waits {s t : State} (h : FocusApart s t) (hw : NotWaiting s) : NotWaiting t := by
  unfold NotWaiting
  rw [h.rsq]
  exact hw

theorem retried_apart {s : State} (h : NotWaiting s) : FocusApart s s.retryLost.startSession :=
  (retryLost_apart s).trans (startSession_apart ((retryLost_apart s).waits h))

theorem retried_mode (s : State) : s.retryLost.startSession.fdr.mode = s.fdr.mode := by
  rw [(startSession_new s.retryLost).mode, retryLost_fdr]

theorem retried_state (s : State) : s.retryLost.startSession.fdr.state ≠ .off := by
  rw [(startSession_new s.retryLost).state]
  cases s.retryLost.lnk.state <;> nofun

/-- A session that begins while the lens is identified (R76). -/
theorem retried_ident {s : State} (h : s.lnk.state = .identifying) :
    s.retryLost.startSession.fdr.state = .lensLost := by
  rw [(startSession_new s.retryLost).state, (retryLost_apart s).ident h]
  rfl

/-- The end of a wake looks at the half-press line (R165). -/
def pressed (s : State) : State := if s.pins.halfPress then s.halfPress else s

/-- A session that is there goes on; with the line asserted there is one. -/
theorem pressed_apart {s : State} (h : NotWaiting s) : FocusApart s (pressed s) ∧
    (pressed s).fdr.mode = s.fdr.mode ∧
    (s.fdr.state ≠ .off → (pressed s).fdr.state = s.fdr.state) ∧
    (s.pins.halfPress = true → (pressed s).fdr.state ≠ .off) := by
  unfold pressed
  split
  case isFalse e => exact ⟨.refl s, rfl, fun _ => rfl, fun k => absurd k e⟩
  case isTrue =>
    by_cases off : s.fdr.state = .off
    · rw [halfPress_off off]
      exact ⟨retried_apart h, retried_mode s, fun k => absurd off k, fun _ => retried_state s⟩
    · have opened : s.halfPress = s.retryLost := by
        unfold State.halfPress
        dsimp only
        rw [retryLost_fdr, if_neg off]
      rw [opened, retryLost_fdr]
      exact ⟨retryLost_apart s, rfl, fun _ => rfl, fun _ => off⟩

/-! ### Held items -/

/-- What serving an item leaves alone. -/
structure HeldServed (s t : State) : Prop where
  state : t.rsq.state = s.rsq.state
  pwc : t.pwc = s.pwc
  pins : t.pins = s.pins
  ident : s.lnk.state = .identifying → t.lnk.state = .identifying

theorem HeldServed.refl (s : State) : HeldServed s s := ⟨rfl, rfl, rfl, id⟩

theorem HeldServed.trans {a b c : State} (h : HeldServed a b) (k : HeldServed b c) : HeldServed a c :=
  ⟨k.state.trans h.state, k.pwc.trans h.pwc, k.pins.trans h.pins, fun e => k.ident (h.ident e)⟩

theorem FocusApart.served {s t : State} (h : FocusApart s t) : HeldServed s t :=
  ⟨congrArg Rsq.state h.rsq, h.pwc, h.pins, h.ident⟩

theorem PortsOnly.served {s t : State} (h : PortsOnly s t) : HeldServed s t :=
  ⟨h.get (·.rsq.state), h.get State.pwc, h.get State.pins, fun e => (h.get (·.lnk.state)).trans e⟩

/-- Outside VIEW a burst is accepted in place (R34). -/
theorem acceptBurst_still {s : State} (h : s.rsq.state ≠ .view) (o : Origin)
    (count exposure interval : Nat) : s.acceptBurst o count exposure interval =
      { s with rsq := { s.rsq with
          latch := false,
          nextBurst := if 65535 ≤ s.rsq.nextBurst then 1 else s.rsq.nextBurst + 1,
          burst := ⟨true, s.rsq.nextBurst, o, count, exposure, interval, 0, 0, false,
            s.rsq.timeBase, false⟩ } } := by
  rw [acceptBurst_eq, abandonView_of_ne h]

theorem acceptBurst_served {s : State} (h : s.rsq.state ≠ .view) (o : Origin)
    (count exposure interval : Nat) : HeldServed s (s.acceptBurst o count exposure interval) := by
  rw [acceptBurst_still h]
  exact ⟨rfl, rfl, rfl, id⟩

theorem serveBurst_served {s : State} (h : s.rsq.state ≠ .view) (p : Port) (f : BurstFields) :
    HeldServed s (s.serveBurst p f).1 := by
  unfold State.serveBurst
  dsimp only
  split
  · exact .refl s
  · split
    · exact acceptBurst_served h _ _ _ _
    · exact .refl s

theorem triggerShutter_served {s : State} (h : s.rsq.state ≠ .view) : HeldServed s s.triggerShutter := by
  unfold State.triggerShutter
  split
  · exact acceptBurst_served h _ _ _ _
  · exact .refl s

theorem serveFocus_served {s : State} (h : NotWaiting s) (m : Option (Choice FocusMode)) :
    HeldServed s (s.serveFocus m).1 := by
  unfold State.serveFocus
  split
  · exact .refl s
  · have set : HeldServed s { s with fdr := { s.fdr with mode := pick s.fdr.mode m } } := ⟨rfl, rfl, rfl, id⟩
    exact set.trans (retried_apart
      (s := { s with fdr := { s.fdr with mode := pick s.fdr.mode m } }) h).served

theorem settleRequest_answer (s : State) (p : Port) (st : Status) (pl : Payload) :
    s.settleRequest p (.answer st pl) = s.formReply p st pl := rfl

theorem answer_served {s t : State} {v : Machine.Served} (h : HeldServed s t) (p : Port)
    (hv : ∃ st pl, v = .answer st pl) : HeldServed s (t.settleRequest p v) := by
  obtain ⟨st, pl, rfl⟩ := hv
  exact h.trans (formReply_portsOnly t p st pl).served

theorem serveHeld_served (l : List Held) {s : State} (hv : s.rsq.state ≠ .view)
    (hw : NotWaiting s) : HeldServed s (s.serveHeld l) := by
  induction l generalizing s with
  | nil => exact .refl s
  | cons x rest ih =>
    have next : ∀ t, HeldServed s t → HeldServed s (t.serveHeld rest) := fun t h =>
      h.trans (ih (by rw [h.state]; exact hv) (by unfold NotWaiting; rw [h.state]; exact hw))
    cases x with
    | burst p f =>
      exact next _ (answer_served (serveBurst_served hv p f) p (serveBurst_answers s p f))
    | focus p m => exact next _ (answer_served (serveFocus_served hw m) p (serveFocus_answers s m))
    | edge => exact next _ (triggerShutter_served hv)

/-- A held request is answered as if it had come then. -/
def Replied (s t : State) (p : Port) (st : Status) (pl : Payload) : Prop :=
  ∀ o, (s.port p).request = some o →
    (t.port p).request = some { o with stage := .answered } ∧
    (t.port p).replies = fillPlace (s.port p).replies ⟨.request o.kind, o.tag, st, pl⟩

theorem formReply_replied {s t : State} {p : Port} (h : SamePort (s.port p) (t.port p)) (st : Status)
    (pl : Payload) : Replied s (t.formReply p st pl) p st pl := by
  intro o ho
  obtain ⟨request, replies⟩ := formReply_port (s := t) (h.request.trans ho) st pl
  exact ⟨request, by rw [replies, h.replies]⟩

theorem Replied.later {s t u : State} {p : Port} {st : Status} {pl : Payload}
    (h : Replied s t p st pl) (k : SamePort (t.port p) (u.port p)) : Replied s u p st pl := by
  intro o ho
  obtain ⟨request, replies⟩ := h o ho
  exact ⟨k.request.trans request, k.replies.trans replies⟩

theorem formReply_port_other (s : State) {p q : Port} (h : q ≠ p) (st : Status) (pl : Payload) :
    (s.formReply p st pl).port q = s.port q := by
  unfold State.formReply
  split
  · rfl
  · exact State.port_setPort_other _ _ _ _ h

theorem formReply_rsq (s : State) (p : Port) (st : Status) (pl : Payload) :
    (s.formReply p st pl).rsq = s.rsq := (formReply_portsOnly s p st pl).get State.rsq

theorem serveBurst_busy {s : State} (h : s.rsq.burst.active = true) (p : Port) (f : BurstFields) :
    s.serveBurst p f = refuse s .busy := by
  unfold State.serveBurst
  dsimp only
  rw [if_pos h]

theorem serveBurst_hold {s : State} (h : s.rsq.burst.active = false) (hs : s.rsq.state = .hold)
    (p : Port) (f : BurstFields) : s.serveBurst p f = refuse s .state := by
  have no : s.burstReady = false := by simp [State.burstReady, hs]
  unfold State.serveBurst
  dsimp only
  rw [h, no]
  rfl

theorem serveHeld_burst (s : State) (p : Port) (f : BurstFields) (rest : List Held) :
    s.serveHeld (.burst p f :: rest) =
      State.serveHeld ((s.serveBurst p f).1.settleRequest p (s.serveBurst p f).2) rest := rfl

theorem serveHeld_focus (s : State) (p : Port) (m : Option (Choice FocusMode)) (rest : List Held) :
    s.serveHeld (.focus p m :: rest) =
      State.serveHeld ((s.serveFocus m).1.settleRequest p (s.serveFocus m).2) rest := rfl

/-! ### The wake -/

/-- ACTIVE again, out of OFF, with the lens in identification and the notice of the wake (R166). -/
def awakened (s : State) (w : Wake) : State :=
  let s1 := State.leaveOff { s with pwc := { s.pwc with power := .active, wake := none, held := [] } }
  let s2 := if s1.pins.lens then s1.startIdent else s1
  s2.notifyBodyTether (.wakeDone w.source)

/-- What the held items are served in. -/
structure Awakened (s b : State) : Prop where
  rsq : b.rsq = { s.rsq with
    state := if s.rsq.fromHold then .hold else .idle, lastView := none }
  pwc : b.pwc = { s.pwc with power := .active, wake := none, held := [] }
  pins : b.pins = s.pins
  fdr : b.fdr = s.fdr
  ident : s.pins.lens = true → b.lnk.state = .identifying
  ports : SamePorts s b

theorem awakened_spec (s : State) (w : Wake) : Awakened s (awakened s w) := by
  let u : State := State.leaveOff
    { s with pwc := { s.pwc with power := .active, wake := none, held := [] } }
  let v := if u.pins.lens then u.startIdent else u
  have front : v.rsq = u.rsq ∧ v.pwc = u.pwc ∧ v.pins = u.pins ∧ v.fdr = u.fdr ∧ v.prt = u.prt ∧
      (s.pins.lens = true → v.lnk.state = .identifying) := by
    show _ ∧ _ ∧ _ ∧ _ ∧ _ ∧ _
    by_cases h : u.pins.lens = true
    · have e : v = u.startIdent := if_pos h
      rw [e]
      exact ⟨rfl, rfl, rfl, rfl, rfl, fun _ => rfl⟩
    · have e : v = u := if_neg h
      rw [e]
      exact ⟨rfl, rfl, rfl, rfl, rfl, fun k => absurd k h⟩
  obtain ⟨rsq, pwc, pins, fdr, prt, ident⟩ := front
  have only : PortsOnly v (v.notifyBodyTether (.wakeDone w.source)) :=
    (notify_portsOnly v _ _).trans (notify_portsOnly _ _ _)
  exact ⟨(only.get State.rsq).trans rsq, (only.get State.pwc).trans pwc,
    (only.get State.pins).trans pins, (only.get State.fdr).trans fdr,
    fun h => (only.get (·.lnk.state)).trans (ident h),
    SamePorts.trans (.of_prt prt) (notifyBodyTether_inner v _).ports⟩

theorem exec_wakeWaitEnd {s : State} {w : Wake} (hp : s.pwc.power = .waking)
    (hw : s.pwc.wake = some w)
    (hr : reached (w.start + BitVec.ofNat 32 (w.wait * 1000)) s.rsq.timeBase = true) :
    exec .wakeWaitEnd s = .next (pressed ((awakened s w).serveHeld s.pwc.held)) := by
  show execWakeWaitEnd s = _
  unfold execWakeWaitEnd
  rw [hp, hw]
  dsimp only
  exact if_pos hr

theorem Awakened.still {s b : State} (h : Awakened s b) : b.rsq.state ≠ .view ∧ NotWaiting b := by
  unfold NotWaiting
  rw [h.rsq]
  dsimp only
  split <;> exact ⟨nofun, nofun⟩

/-- The wake whatever is held. -/
theorem woken_spec {s b : State} (h : Awakened s b) (l : List Held) :
    let u := b.serveHeld l
    FocusApart u (pressed u) ∧ (pressed u).fdr.mode = u.fdr.mode ∧
      (u.fdr.state ≠ .off → (pressed u).fdr.state = u.fdr.state) ∧
      (pressed u).pwc.power = .active ∧ (pressed u).pwc.wake = none ∧ (pressed u).pwc.held = [] ∧
      (pressed u).rsq.state = (if s.rsq.fromHold then .hold else .idle) ∧
      (s.pins.lens = true → (pressed u).lnk.state = .identifying) ∧
      (s.pins.halfPress = true → (pressed u).fdr.state ≠ .off) := by
  intro u
  obtain ⟨view, waits⟩ := h.still
  have served : HeldServed b u := serveHeld_served l view waits
  obtain ⟨apart, mode, kept, session⟩ := pressed_apart (s := u) (by
    unfold NotWaiting
    rw [served.state]
    exact waits)
  have pwc := apart.pwc.trans (served.pwc.trans h.pwc)
  refine ⟨apart, mode, kept, congrArg Pwc.power pwc, congrArg Pwc.wake pwc, congrArg Pwc.held pwc, ?_,
    fun k => apart.ident (served.ident (h.ident k)), fun k => session ?_⟩
  · rw [apart.rsq, served.state, h.rsq]
  · rw [served.pins, h.pins]
    exact k

/-- A burst that a held request asks for, or its refusal (R34, R166). -/
theorem held_burst {s b : State} (h : Awakened s b) (p : Port) (f : BurstFields) :
    let u := (b.serveBurst p f).1.settleRequest p (b.serveBurst p f).2
    (∀ q, q ≠ p → u.port q = b.port q) ∧
    (s.rsq.burst.active = true → u.rsq.burst = s.rsq.burst ∧ Replied s u p .busy .empty) ∧
    (s.rsq.burst.active = false → s.rsq.fromHold = true →
      u.rsq.burst = s.rsq.burst ∧ Replied s u p .state .empty) ∧
    (s.rsq.burst.active = false → s.rsq.fromHold = false →
      u.rsq.burst = ⟨true, s.rsq.nextBurst, burstOrigin p, f.count, clamp 31 30000000 f.exposure,
        clamp 50 60000 f.interval, 0, 0, false, s.rsq.timeBase, false⟩ ∧
      Replied s u p .ok (.burst s.rsq.nextBurst (clamp 31 30000000 f.exposure)
        (clamp 50 60000 f.interval))) := by
  intro u
  have burst : b.rsq.burst = s.rsq.burst := (congrArg Rsq.burst h.rsq :)
  have state : b.rsq.state = if s.rsq.fromHold then .hold else .idle := (congrArg Rsq.state h.rsq :)
  have refused : ∀ st, b.serveBurst p f = refuse b st →
      u.rsq.burst = s.rsq.burst ∧ Replied s u p st .empty := fun st e => by
    have eq : u = b.formReply p st .empty := by
      show State.settleRequest _ _ _ = _
      rw [e]
      rfl
    rw [eq, formReply_rsq, burst]
    exact ⟨rfl, formReply_replied (h.ports.port p) st .empty⟩
  refine ⟨fun q hq => ?_, fun ha => ?_, fun ha hh => ?_, fun ha hh => ?_⟩
  · obtain ⟨st, pl, e⟩ := serveBurst_answers b p f
    show (State.settleRequest _ _ _).port q = _
    rw [e, settleRequest_answer, formReply_port_other _ hq]
    unfold State.serveBurst
    dsimp only
    split
    · rfl
    · split
      · exact port_of_prt (acceptBurst_prt _ _ _ _ _) q
      · rfl
  · exact refused .busy (serveBurst_busy (by rw [burst]; exact ha) p f)
  · exact refused .state (serveBurst_hold (by rw [burst]; exact ha) (by rw [state, hh]; rfl) p f)
  · have idle : b.rsq.state = .idle := by rw [state, hh]; rfl
    have e := serveBurst_ready (s := b) (by rw [burst]; exact ha) (.inl idle) p f
    have eq : u = (b.acceptBurst (burstOrigin p) f.count (clamp 31 30000000 f.exposure)
        (clamp 50 60000 f.interval)).formReply p .ok (.burst b.rsq.nextBurst
          (clamp 31 30000000 f.exposure) (clamp 50 60000 f.interval)) := by
      show State.settleRequest _ _ _ = _
      rw [e]
      rfl
    have number : b.rsq.nextBurst = s.rsq.nextBurst := (congrArg Rsq.nextBurst h.rsq :)
    have time : b.rsq.timeBase = s.rsq.timeBase := (congrArg Rsq.timeBase h.rsq :)
    rw [eq, formReply_rsq, number]
    refine ⟨?_, formReply_replied ?_ _ _⟩
    · rw [acceptBurst_still h.still.1]
      dsimp only
      rw [number, time]
    · rw [port_of_prt (acceptBurst_prt _ _ _ _ _) p]
      exact h.ports.port p

/-- A session that a held request asks for, or its refusal (R76, R166). -/
theorem held_focus {s b : State} (h : Awakened s b) (p : Port) (m : Option (Choice FocusMode)) :
    let u := (b.serveFocus m).1.settleRequest p (b.serveFocus m).2
    (m = some .other → Replied s u p .badField (.field 1) ∧ u.fdr.mode = s.fdr.mode) ∧
    (m ≠ some .other → u.fdr.mode = pick s.fdr.mode m ∧ (s.pins.lens = true →
      u.fdr.state = .lensLost ∧
      Replied s u p .ok (.focus (pick s.fdr.mode m) .lensLost))) := by
  intro u
  refine ⟨fun hm => ?_, fun hm => ?_⟩
  · subst hm
    have eq : u = b.formReply p .badField (.field 1) := rfl
    rw [eq, (formReply_portsOnly b p _ _).get State.fdr, h.fdr]
    exact ⟨formReply_replied (h.ports.port p) _ _, rfl⟩
  · let c : State := { b with fdr := { b.fdr with mode := pick b.fdr.mode m } }
    let d := c.retryLost.startSession
    have eq : u = d.formReply p .ok (.focus d.fdr.mode d.fdr.state) := by
      show State.settleRequest _ _ _ = _
      rw [serveFocus_new hm]
      rfl
    have mode : d.fdr.mode = pick s.fdr.mode m := by
      rw [retried_mode c, ← h.fdr]
    have ports : SamePorts b d := SamePorts.trans (.of_prt (t := c) rfl)
      (retried_apart (s := c) h.still.2).ports
    rw [eq, (formReply_portsOnly d p _ _).get State.fdr]
    refine ⟨mode, fun hl => ?_⟩
    have lost : d.fdr.state = .lensLost := retried_ident (s := c) (h.ident hl)
    rw [mode, lost]
    exact ⟨rfl, formReply_replied ((h.ports.port p).trans (ports.port p)) _ _⟩

/-- A held edge (R36, R166). -/
theorem held_edge {s b : State} (h : Awakened s b) : b.triggerShutter.rsq.burst =
    if s.rsq.syncMode = .master ∧ s.rsq.settings.trigger = true ∧ s.rsq.burst.active = false ∧
        s.rsq.fromHold = false
      then ⟨true, s.rsq.nextBurst, .trigger, 1, s.rsq.settings.triggerExposure, 50, 0, 0, false,
        s.rsq.timeBase, false⟩
      else s.rsq.burst := by
  have state : b.rsq.state = if s.rsq.fromHold then .hold else .idle := (congrArg Rsq.state h.rsq :)
  have sync : b.rsq.syncMode = s.rsq.syncMode := (congrArg Rsq.syncMode h.rsq :)
  have settings : b.rsq.settings = s.rsq.settings := (congrArg Rsq.settings h.rsq :)
  have burst : b.rsq.burst = s.rsq.burst := (congrArg Rsq.burst h.rsq :)
  have number : b.rsq.nextBurst = s.rsq.nextBurst := (congrArg Rsq.nextBurst h.rsq :)
  have time : b.rsq.timeBase = s.rsq.timeBase := (congrArg Rsq.timeBase h.rsq :)
  have ready : (b.rsq.syncMode = .master && b.rsq.settings.trigger && b.burstReady) = true ↔
      s.rsq.syncMode = .master ∧ s.rsq.settings.trigger = true ∧ s.rsq.burst.active = false ∧
        s.rsq.fromHold = false := by
    unfold State.burstReady
    rw [sync, settings, burst, state]
    cases s.rsq.fromHold <;> simp [and_assoc]
  unfold State.triggerShutter
  by_cases fires : s.rsq.syncMode = .master ∧ s.rsq.settings.trigger = true ∧
      s.rsq.burst.active = false ∧ s.rsq.fromHold = false
  · rw [if_pos fires, if_pos (ready.mpr fires), acceptBurst_still h.still.1]
    dsimp only
    rw [number, time, settings]
  · rw [if_neg fires, if_neg (mt ready.mp fires), burst]

end Sys2Proof.Machine
end

section
/-! PROOFS. The power-low line and the end of a wake (R33, R137, R166 to R168). -/
namespace Sys2Proof.Machine

/-- The origin that a request names (R34). -/
theorem requestOrigin_eq (p : Port) : (match p with
    | .body => Origin.body
    | .tether => .tether
    | .relay => .tether) = burstOrigin p := by
  cases p <;> rfl

/-- A held BURST_START is answered SAVING (R166). -/
theorem savingBegun_replied {s : State} {p : Port} {g : BurstFields}
    (h : s.pwc.held = [.burst p g]) : Replied s (savingBegun s) p .saving .empty := by
  let u : State := { s with
    pins := { s.pins with powerLow := true },
    pwc := { s.pwc with
      power := .saving, savedFrom := s.pwc.power, done := false, wake := none, held := [] } }
  have begun : savingBegun s = u.formReply p .saving .empty := by
    unfold savingBegun
    rw [h]
    rfl
  have same : u.port p = s.port p := port_of_prt rfl p
  rw [begun]
  exact formReply_replied (by rw [same]; exact .refl _) _ _

/-- Of two held bursts the second finds the first one active (R34, R166). -/
theorem held_bursts {s b : State} (h : Awakened s b) {p q : Port} (hne : p ≠ q)
    (ha : s.rsq.burst.active = false) (hh : s.rsq.fromHold = false) (f g : BurstFields) :
    let u := b.serveHeld [.burst p f, .burst q g]
    u.rsq.burst = ⟨true, s.rsq.nextBurst, burstOrigin p, f.count, clamp 31 30000000 f.exposure,
        clamp 50 60000 f.interval, 0, 0, false, s.rsq.timeBase, false⟩ ∧
      Replied s u p .ok (.burst s.rsq.nextBurst (clamp 31 30000000 f.exposure)
        (clamp 50 60000 f.interval)) ∧
      Replied s u q .busy .empty := by
  intro u
  obtain ⟨other, -, -, taken⟩ := held_burst h p f
  obtain ⟨burst, answered⟩ := taken ha hh
  let v := (b.serveBurst p f).1.settleRequest p (b.serveBurst p f).2
  have second : u = v.formReply q .busy .empty := by
    show State.settleRequest (v.serveBurst q g).1 q (v.serveBurst q g).2 = _
    rw [serveBurst_busy (congrArg Burst.active burst)]
    rfl
  have here : SamePort (s.port q) (v.port q) := by
    rw [other q hne.symm]
    exact h.ports.port q
  rw [second, formReply_rsq]
  exact ⟨burst, answered.later (by rw [formReply_port_other v hne]; exact .refl _),
    formReply_replied here _ _⟩

/-- Settles O51. -/
theorem powerLine : Obligations.PowerLine := by
  intro s
  refine ⟨fun hl hp => ?_, fun hl hp => ?_, rfl, fun w hp hw hr => ?_⟩
  · refine ⟨_, exec_powerLowAsserted hl hp, ?_⟩
    generalize ht : savedOver (savingBegun s).saveCapture = t
    obtain ⟨over_, power, savedFrom, wake, held, pins⟩ := powerLow_enters ht.symm
    have only := savingBegun_portsOnly s
    have captured := saveCapture_captured (savingBegun s)
    have rsq : (savingBegun s).rsq = s.rsq := only.get State.rsq
    have slot : ∀ x, (savingBegun s).saveCapture.slot x = s.slot x :=
      slot_of_med (captured.med.trans (only.get State.med))
    obtain ⟨due, dev⟩ := captured.dev
    rw [only.get State.dev] at dev
    refine ⟨pins, power, savedFrom, wake, held, fun h => ?_, fun h => ?_, fun f h hf => ?_, fun h => ?_,
      fun j hj => ?_, fun x f since hf hv => ?_, fun x h => ?_, fun p g o hh ho => ?_, over_.done,
      over_.told⟩
    · rw [over_.rsq, ← rsq]
      exact saveCapture_off (by rw [rsq]; exact h)
    · rw [over_.rsq]
      exact saveCapture_burst (by rw [rsq]; exact h)
    · obtain ⟨waited, marked⟩ := saveCapture_wait (s := savingBegun s) (by rw [rsq]; exact h)
        (by rw [rsq]; exact hf)
      refine ⟨?_, fun r hr hn => ?_⟩
      · rw [over_.rsq, waited]
        unfold exposedFrame State.now
        rw [rsq]
      · obtain ⟨r0, h0, shot, flags⟩ := over_.flags r hr
        rw [flags]
        exact marked r0 h0 (shot.symm.trans hn)
    · rw [over_.rsq, saveCapture_runs (by rw [rsq]; exact h), rsq]
    · have running : (savingBegun s).saveCapture.runningJob = some j := by
        unfold State.runningJob
        rw [dev]
        exact hj
      obtain ⟨idle, log, none_⟩ := over_.job j running
      rw [dev] at log none_
      exact ⟨idle, log, none_⟩
    · obtain ⟨saved, written⟩ := over_.verified x f since (by rw [slot]; exact hf) hv
      exact ⟨by rw [saved, slot], written⟩
    · rw [over_.runs x (by rw [slot]; exact h), slot]
    · have ports := (saveCapture_inner (savingBegun s)).ports.trans over_.ports
      exact (savingBegun_replied hh).later (ports.port p) o ho
  · show execPowerLowAsserted s = _
    unfold execPowerLowAsserted
    dsimp only
    rw [if_neg (by simp [hl]), if_pos hp]
  · intro replied origin exposure interval burst
    have base := awakened_spec s w
    obtain ⟨apart, mode, kept, power, wake, held, state, ident, session⟩ :=
      woken_spec base s.pwc.held
    refine ⟨_, exec_wakeWaitEnd hp hw hr, power, wake, held, state, ident, session, ?_⟩
    generalize ht : pressed ((awakened s w).serveHeld s.pwc.held) = t at apart mode kept
    have told : ∀ p st pl, Replied s ((awakened s w).serveHeld s.pwc.held) p st pl →
        replied t p st pl := fun p st pl h => h.later (apart.ports.port p)
    have bursts : t.rsq.burst = ((awakened s w).serveHeld s.pwc.held).rsq.burst := by rw [apart.rsq]
    clear apart ht
    rw [bursts, mode]
    generalize s.pwc.held = l at told kept ⊢
    have from_ : ∀ p, origin p = burstOrigin p := requestOrigin_eq
    refine ⟨?_, fun p f hh => ?_, fun p f q g hh hne ha hf => ?_, fun p m hh => ?_, fun hh => ?_⟩
    · rintro rfl
      exact (congrArg Rsq.burst base.rsq :)
    · subst hh
      obtain ⟨-, busy, hold, taken⟩ := held_burst base p f
      refine ⟨fun ha => ?_, fun ha hf => ?_, fun ha hf => ?_⟩
      · exact (busy ha).imp_right (told p _ _)
      · exact (hold ha hf).imp_right (told p _ _)
      · rw [from_]
        exact (taken ha hf).imp_right (told p _ _)
    · subst hh
      obtain ⟨taken, first, second⟩ := held_bursts base hne ha hf f g
      rw [from_]
      exact ⟨taken, told p _ _ first, told q _ _ second⟩
    · subst hh
      obtain ⟨bad, good⟩ := held_focus base p m
      refine ⟨fun hm => ?_, fun hm => ?_⟩
      · exact (bad hm).imp_left (told p _ _)
      · obtain ⟨set, lens⟩ := good hm
        refine ⟨set, fun hlens => ?_⟩
        obtain ⟨lost, answer⟩ := lens hlens
        refine ⟨?_, told p _ _ answer⟩
        have on : ((awakened s w).serveHeld [.focus p m]).fdr.state = .lensLost := lost
        rw [kept (by rw [on]; nofun), on]
    · subst hh
      exact held_edge base

end Sys2Proof.Machine
end
